-- ==== Sys2Proof/Word.lean ====
section
/-! DEFINITION. The word types of the machine and their plainest arithmetic (R8, R9, R10, R243). -/

namespace Sys2Proof

/-- One byte (R10). -/
abbrev Byte := BitVec 8
/-- One 4-byte word, the width of a lane register (R10). -/
abbrev Word := BitVec 32
/-- One 8-byte dword, the width of a uniform register (R10, R190). -/
abbrev DWord := BitVec 64

/-- `bits x hi lo` of R243 on naturals. -/
def bits (x hi lo : Nat) : Nat := x / 2 ^ lo % 2 ^ (hi + 1 - lo)

/-- Bit `i` of a natural. -/
def bitOf (x i : Nat) : Bool := x / 2 ^ i % 2 == 1

/-- A Bool as 0 or 1. -/
def b2n (b : Bool) : Nat := if b then 1 else 0

/-- The low `n` bits of `x` read as two's complement (`sext` of R243). -/
def sext (n x : Nat) : Int :=
  if x % 2 ^ n < 2 ^ (n - 1) then (x % 2 ^ n : Nat) else (x % 2 ^ n : Nat) - (2 : Int) ^ n

/-- An integer modulo 2^n, as a natural. -/
def wrapN (n : Nat) (x : Int) : Nat := (x % (2 : Int) ^ n).toNat

/-- `sat(x, lo, hi)` of R243. -/
def sat (x lo hi : Int) : Int := min (max x lo) hi

end Sys2Proof
end

