-- ==== Sys2Proof/Syntax.lean ====
section
/-! DEFINITION. The instructions and events of spec/opcode_table.json: one constructor of Instr per row.
Lane and uniform instructions carry their decoded operands (R226 to R241). Events have no encoding: they
carry what the agent that makes them chooses or supplies (spec/95_what_each_step_holds.md). -/

namespace Sys2Proof

/-- Type codes of R232. -/
inductive Ty
  | s32 | z32 | s16 | z16 | s8 | z8 | w64 | w128 | f32 | f16 | bf16 | e4m3 | e5m2 | e3m2 | e2m3 | e2m1
  deriving DecidableEq, Repr

/-- Rounding modes of R175. -/
inductive Rm
  | rn | rz | ru | rd
  deriving DecidableEq, Repr

/-- Scopes of R113. -/
inductive Scope
  | thr | grp | team | clu | dev | dom | sys
  deriving DecidableEq, Repr

/-- Orders of R115: FN 0 plain, 1 acquire or release by direction, 2 seq. -/
inductive Ord
  | plain | sync | seq
  deriving DecidableEq, Repr

/-- Cache hints of R40. -/
inductive Hint
  | none | nl1 | evf | last
  deriving DecidableEq, Repr

/-- Integer conditions of R233. -/
inductive Cond
  | eq | ne | lt | le | gt | ge
  deriving DecidableEq, Repr

/-- FSETP conditions of R233. -/
inductive FCond
  | eq | ne | lt | le | gt | ge | num | nan
  deriving DecidableEq, Repr

/-- Saturation forms of ADD, SUB, MUL and MAD (R254). -/
inductive SatF
  | wrap | ssat | usat
  deriving DecidableEq, Repr

/-- Logic operations of PLOG and UQLOG (R267). -/
inductive LogOp
  | and | or | xor
  deriving DecidableEq, Repr

/-- FSF functions of R188. -/
inductive FsfFn
  | rcp | rsq | sqrt | ex2 | lg2 | sin | cos | tanh
  deriving DecidableEq, Repr

/-- QNT targets of R277. -/
inductive QntTgt
  | pl (m : Nat) | tern | bin | mxint8 | mx (ty : Ty)
  deriving DecidableEq, Repr

/-- SHFL modes of R285. -/
inductive ShflMode
  | rot | xch | bc | rev
  deriving DecidableEq, Repr

/-- VOTE forms of R286. -/
inductive VoteFn
  | and | or | par | mask | cnt
  deriving DecidableEq, Repr

/-- REDG and SCAN operations of R288. -/
inductive RedOp
  | add | min | max
  deriving DecidableEq, Repr

/-- ELECT choices of R287. -/
inductive ElectFn
  | lo | hi | rr
  deriving DecidableEq, Repr

/-- MOVU forms of R291. -/
inductive MovuForm
  | zx | sx | lo | hi
  deriving DecidableEq, Repr

/-- Atomic operations of R304. -/
inductive AtomOp
  | add | min | max | and | or | xor | exch
  deriving DecidableEq, Repr

/-- FENCE kinds of R308. -/
inductive FenceKind
  | acq | rel | acqrel | seq
  deriving DecidableEq, Repr

/-- Full/empty forms of R88. -/
inductive FeForm
  | ldwf | ldce | stwe | stfs | feget | fesetFull | fesetEmpty | waita
  deriving DecidableEq, Repr

/-- Fill fields of R236 and R313: record or tag default, TRUNC, MID. -/
inductive FillF
  | dflt | trunc | mid
  deriving DecidableEq, Repr

/-- A guard of R229: none is always. -/
structure Guard where
  neg : Bool
  idx : Option Nat
  deriving DecidableEq, Repr

/-- The always guard, 0x0F in GD (R247). -/
def Guard.always : Guard := ⟨false, none⟩

/-- What every instruction carries: proof bit M, X (an extension word follows), guard (R226, R227). -/
structure Hdr where
  m : Bool
  x : Bool
  gd : Guard
  deriving DecidableEq, Repr

/-- A "w/i" or "g/i" operand of R230. -/
inductive Src
  | reg (n : Nat) | imm (v : Int)
  deriving DecidableEq, Repr

/-- The E fields of a memory instruction (R234). -/
structure MemX where
  ord : Ord
  ty : Ty
  scope : Scope
  hint : Hint
  off : Int
  deriving DecidableEq, Repr

/-- The E fields of an atomic (R234, R304). -/
structure AtomX where
  ord : Ord
  ty : Ty
  scope : Scope
  hint : Hint
  deriving DecidableEq, Repr

/-- The address of a full/empty form: FN[2] = 0 global gA + wB, 1 scratchpad wB (R235). -/
inductive FeAddr
  | glob (a b : Nat) | spad (b : Nat)
  deriving DecidableEq, Repr

/-- The E fields of a full/empty form or WAITA (R235); try carries the success predicate. -/
structure FeX where
  seq : Bool
  zty : Bool
  scope : Scope
  hint : Hint
  try? : Option Nat
  deriving DecidableEq, Repr

/-- The E fields of a plane access (R236): order, scope, hint. -/
structure PlX where
  ord : Ord
  scope : Scope
  hint : Hint
  deriving DecidableEq, Repr

/-- Wait mask and slot to set of an engine form (R237). -/
structure EngX where
  mask : Nat
  set? : Option Nat
  deriving DecidableEq, Repr

/-- What a granule's check code reports at an access (R54). -/
inductive Ecc
  | ok | ce | ue
  deriving DecidableEq, Repr

/-- Page sizes of R140. -/
inductive PageSize
  | k4 | k64 | m2
  deriving DecidableEq, Repr

/-- The TLB targets that a flush addresses (R151). -/
inductive TlbTarget
  | core (c : Nat) | peel (c : Nat) | remote
  deriving DecidableEq, Repr

/-- A write of FLT_REPLY (R158). -/
inductive ReplyWrite
  | whole (fid : Nat) (fail : Bool) | high (fail : Bool) | low (fid : Nat)
  deriving DecidableEq, Repr

/-- A memory operation as its home performs it, local or carried in a flit (R303, R88, R410). -/
inductive MemOp
  | load
  | store (data : List Byte)
  | atom (op : AtomOp) (ty : Ty) (c : Nat) (ret : Bool)
  | cas (cmp swap : Nat)
  | fe (f : FeForm) (try? : Bool) (v : Word) (cond : Cond) (sgn : Bool)
  | planeRead (plane0 stride k : Nat)
  | planeWrite (plane0 stride : Nat) (scale : Byte) (words : List Word) (full : Bool)
  | engWord (mask : Nat) (data : List Byte) (bit : Option Bool)
  | wline (mask : Nat) (data : List Byte)
  | pgreq
  deriving DecidableEq, Repr

/-- Header of a flit without its type (R408). -/
structure FlitHdr where
  src : Nat
  dst : Nat
  rly : Bool
  ctx : Nat
  pgen : Nat
  eseq : Nat
  hseq : Nat
  deriving DecidableEq, Repr

/-- Acknowledgement field of a flit (R409). -/
structure Trailer where
  hack : Nat
  nak : Bool
  cred : Nat
  deriving DecidableEq, Repr

/-- Payload of a flit (R410). -/
inductive Body
  | idle
  | write (va : Nat) (mask : Nat) (data : List Byte)
  | opw (va : Nat) (op : MemOp) (size : Nat) (scope : Scope)
  | read (va size : Nat) (op : MemOp) (ord : Ord) (scope : Scope) (nf : Bool)
  | rmw (va size : Nat) (op : MemOp) (ord : Ord) (scope : Scope)
  | fereq (va : Nat) (op : MemOp) (seq : Bool) (scope : Scope)
  | cancel (eseq : Nat)
  | reply (eseq status : Nat) (data : List Byte)
  | ack (entries : List (Nat × Nat))
  | rfail (dropped : List (Nat × Nat))
  | unknown (ty : Nat)
  deriving DecidableEq, Repr

/-- A flit as a port receives it: its 192 bytes (R407), and what its payload means. R410 does not place every field of
a payload: where it does not, the bytes are not compared with the meaning (log 87). -/
structure FlitRx where
  bytes : List Byte
  body : Body
  deriving DecidableEq, Repr

/-- A training word of R406. -/
structure TrainWord where
  node : Nat
  stripe : Nat
  hack : Nat
  nak : Bool
  deriving DecidableEq, Repr

/-- A UALink request that arrives (R425). -/
inductive UalReq
  | read (va size ctx : Nat)
  | write (va ctx : Nat) (mask : Nat) (data : List Byte)
  | atomic (va size ctx : Nat) (op : MemOp)
  | carried (ctx tag : Nat) (b : Body)
  | other (code : Nat)
  deriving DecidableEq, Repr

/-- Which ring a CONS write names (R431, R424). -/
inductive RingId
  | jnl | flt | evt
  deriving DecidableEq, Repr

/-- A firmware image in the package flash: its bytes, its version, the signing key and the signature (R446). -/
structure BootImage where
  bytes : List Byte
  version : Nat
  key : List Byte
  sig : List Byte
  deriving DecidableEq, Repr

/-- What the boot ROM finds (R446): image bytes, key digest, signature, version, bring-up. -/
structure BootIn where
  image : Option BootImage
  bringup : Bool
  deriving DecidableEq, Repr

/-- What the throttle judges (R449 to R451): the averages of the last 1 ms, and the package watts and the peak amps of
the core rails that the clock would bring without skipping an edge. -/
structure PowerMeas where
  watts : Nat
  tj : Nat
  rails : List Nat
  demand : Nat
  peaks : List Nat
  keep : Nat
  deriving DecidableEq, Repr

/-- The rows of spec/opcode_table.json. -/
inductive Instr
  -- lane integer, constants and moves (R254 to R261)
  | nop (h : Hdr)
  | add (h : Hdr) (sf : SatF) (ty : Ty) (d a : Nat) (b : Src)
  | sub (h : Hdr) (sf : SatF) (ty : Ty) (d a : Nat) (b : Src)
  | mul (h : Hdr) (sf : SatF) (ty : Ty) (d a : Nat) (b : Src)
  | mulh (h : Hdr) (ty : Ty) (d a : Nat) (b : Src)
  | mad (h : Hdr) (sf : SatF) (ty : Ty) (d a : Nat) (b : Src) (c : Nat)
  | div (h : Hdr) (ty : Ty) (d a : Nat) (b : Src)
  | rem (h : Hdr) (ty : Ty) (d a : Nat) (b : Src)
  | min (h : Hdr) (ty : Ty) (d a : Nat) (b : Src)
  | max (h : Hdr) (ty : Ty) (d a : Nat) (b : Src)
  | abs (h : Hdr) (st : Bool) (ty : Ty) (d a : Nat)
  | li (h : Hdr) (d : Nat) (v : Int)
  | lih (h : Hdr) (d v : Nat)
  | mov (h : Hdr) (ty : Ty) (d a : Nat)
  | sel (h : Hdr) (d a : Nat) (b : Src) (c : Nat)
  | setp (h : Hdr) (cc : Cond) (ty : Ty) (d a : Nat) (b : Src)
  -- bits and bytes, predicates (R262 to R268)
  | and (h : Hdr) (d a : Nat) (b : Src)
  | or (h : Hdr) (d a : Nat) (b : Src)
  | xor (h : Hdr) (d a : Nat) (b : Src)
  | andn (h : Hdr) (d a : Nat) (b : Src)
  | shl (h : Hdr) (d a : Nat) (b : Src)
  | shr (h : Hdr) (d a : Nat) (b : Src)
  | sar (h : Hdr) (d a : Nat) (b : Src)
  | shf (h : Hdr) (left : Bool) (d a : Nat) (b : Src) (c : Nat)
  | bfx (h : Hdr) (sx : Bool) (d a : Nat) (b : Src) (len : Nat)
  | bfi (h : Hdr) (fn1 : Bool) (d a : Nat) (b : Src) (len : Nat)
  | popc (h : Hdr) (d a : Nat)
  | clz (h : Hdr) (d a : Nat)
  | brev (h : Hdr) (d a : Nat)
  | prmt (h : Hdr) (d a b c : Nat)
  | plog (h : Hdr) (op : LogOp) (na nb : Bool) (d a b : Nat)
  | pmovSave (h : Hdr) (d : Nat)
  | pmovLoad (h : Hdr) (a : Nat)
  -- floating point (R269 to R283)
  | fadd (h : Hdr) (rm : Rm) (ty : Ty) (d a b : Nat)
  | fsub (h : Hdr) (rm : Rm) (ty : Ty) (d a b : Nat)
  | fmul (h : Hdr) (rm : Rm) (ty : Ty) (d a b : Nat)
  | ffma (h : Hdr) (rm : Rm) (ty : Ty) (d a b c : Nat)
  | fmin (h : Hdr) (ty : Ty) (d a b : Nat)
  | fmax (h : Hdr) (ty : Ty) (d a b : Nat)
  | fsetp (h : Hdr) (cc : FCond) (ty : Ty) (d a b : Nat)
  | fsf (h : Hdr) (fn : FsfFn) (rm : Rm) (ty : Ty) (d a : Nat)
  | fcvt (h : Hdr) (rm : Rm) (dst src : Ty) (d a : Nat)
  | icvt (h : Hdr) (rm : Rm) (toF : Bool) (ity fty : Ty) (d a : Nat)
  | fdot2 (h : Hdr) (rm : Rm) (ty : Ty) (d a b c : Nat)
  | fdot4 (h : Hdr) (rm : Rm) (ty : Ty) (d a b c : Nat)
  | mxdot (h : Hdr) (rm : Rm) (ty : Ty) (sa sb : Nat) (d a b c : Nat)
  | qnt (h : Hdr) (tgt : QntTgt) (d a : Nat)
  | pack (h : Hdr) (ty : Ty) (slot : Nat) (d a : Nat) (b : Src)
  | unpk (h : Hdr) (ty : Ty) (d a : Nat) (b : Src)
  | vadd2 (h : Hdr) (st : Bool) (ty : Ty) (d a b : Nat)
  | vsub2 (h : Hdr) (st : Bool) (ty : Ty) (d a b : Nat)
  | vmax2 (h : Hdr) (ty : Ty) (d a b : Nat)
  | vmin2 (h : Hdr) (ty : Ty) (d a b : Nat)
  | vcmp2 (h : Hdr) (cc : Cond) (ty : Ty) (d a b : Nat)
  | hadd2 (h : Hdr) (rm : Rm) (ty : Ty) (d a b : Nat)
  | hmul2 (h : Hdr) (rm : Rm) (ty : Ty) (d a b : Nat)
  | hfma2 (h : Hdr) (rm : Rm) (ty : Ty) (d a b c : Nat)
  -- group operations and moves (R284 to R291)
  | shfl (h : Hdr) (mode : ShflMode) (seg : Nat) (d a : Nat) (b : Src)
  | vote (h : Hdr) (fn : VoteFn) (d a : Nat)
  | redg (h : Hdr) (g : Bool) (op : RedOp) (ty : Ty) (d a : Nat)
  | scan (h : Hdr) (g : Bool) (op : RedOp) (excl : Bool) (ty : Ty) (d a : Nat)
  | elect (h : Hdr) (fn : ElectFn) (d : Nat)
  | movs (h : Hdr) (d sc : Nat)
  | movg (h : Hdr) (hi : Bool) (d a : Nat)
  | movu (h : Hdr) (form : MovuForm) (d a : Nat) (b : Src)
  -- lane memory (R293 to R308)
  | ld (h : Hdr) (x : MemX) (d a : Nat) (b : Option Nat)
  | st (h : Hdr) (x : MemX) (d a : Nat) (b : Option Nat)
  | lds (h : Hdr) (x : MemX) (d b : Nat)
  | sts (h : Hdr) (x : MemX) (d b : Nat)
  | ldl (h : Hdr) (x : MemX) (d b : Nat)
  | stl (h : Hdr) (x : MemX) (d b : Nat)
  | ldnf (h : Hdr) (x : MemX) (d a : Nat) (b : Option Nat) (c : Nat)
  | pref (h : Hdr) (hint : Hint) (off : Int) (a : Nat) (b : Option Nat)
  | atom (h : Hdr) (op : AtomOp) (x : AtomX) (d a : Nat) (b : Option Nat) (c : Nat)
  | atoms (h : Hdr) (op : AtomOp) (x : AtomX) (d b c : Nat)
  | cas (h : Hdr) (x : AtomX) (d a : Nat) (b : Option Nat) (c : Nat)
  | cass (h : Hdr) (x : AtomX) (d b c : Nat)
  | red (h : Hdr) (op : AtomOp) (x : AtomX) (d a : Nat) (b : Option Nat)
  | fence (h : Hdr) (kind : FenceKind) (scope : Scope)
  | waita (h : Hdr) (cc : Cond) (x : FeX) (d : Nat) (ad : FeAddr)
  | pgreq (h : Hdr) (off : Int) (a : Nat) (b : Option Nat)
  -- full/empty and plane access (R309 to R318)
  | ldwf (h : Hdr) (x : FeX) (d : Nat) (ad : FeAddr)
  | ldce (h : Hdr) (x : FeX) (d : Nat) (ad : FeAddr)
  | stwe (h : Hdr) (x : FeX) (d : Nat) (ad : FeAddr)
  | stfs (h : Hdr) (x : FeX) (d : Nat) (ad : FeAddr)
  | feget (h : Hdr) (x : FeX) (d : Nat) (ad : FeAddr)
  | fesetEmpty (h : Hdr) (x : FeX) (ad : FeAddr)
  | fesetFull (h : Hdr) (x : FeX) (ad : FeAddr)
  | pld (h : Hdr) (x : PlX) (k : Nat) (fill : FillF) (d a b : Nat)
  | prf (h : Hdr) (x : PlX) (k : Nat) (fill : FillF) (d a b c : Nat)
  | ptagGet (h : Hdr) (d a : Nat)
  | ptagSet (h : Hdr) (d a : Nat)
  | ptrim (h : Hdr) (k : Nat) (fill : FillF) (d : Nat)
  | pst (h : Hdr) (x : PlX) (d a b : Nat)
  -- control (R322 to R325)
  | bra (h : Hdr) (off : Int)
  | call (h : Hdr) (off : Int)
  | ret (h : Hdr)
  | jmpr (h : Hdr) (a : Nat)
  | exit (h : Hdr)
  | trap (h : Hdr) (imm : Int)
  | bkpt (h : Hdr)
  | yield (h : Hdr)
  -- engines, sequences, system registers (R219, R335 to R345, R372, R381)
  | mma (h : Hdr) (x : EngX) (b : Nat)
  | pcopy (h : Hdr) (x : EngX) (a : Nat) (b : Option Nat)
  | slice (h : Hdr) (x : EngX) (a : Nat) (b : Option Nat)
  | launch (h : Hdr) (d a : Nat)
  | sqapp (h : Hdr) (d a : Nat) (b : Option Nat)
  | sqret (h : Hdr) (d a : Nat) (b : Option Nat)
  | sqfork (h : Hdr) (d a : Nat) (b : Option Nat)
  | sqlook (h : Hdr) (d a : Nat) (b : Option Nat)
  | engst (h : Hdr) (d : Nat) (b : Src)
  | mft (h : Hdr) (d tc : Nat)
  | mtt (h : Hdr) (tc a : Nat)
  | tret (h : Hdr)
  -- uniform instructions (R321 to R340)
  | unop (h : Hdr)
  | uadd (h : Hdr) (uns : Bool) (d a : Nat) (b : Src)
  | usub (h : Hdr) (uns : Bool) (d a : Nat) (b : Src)
  | umul (h : Hdr) (uns : Bool) (d a : Nat) (b : Src)
  | umad (h : Hdr) (uns : Bool) (d a : Nat) (b : Src) (c : Nat)
  | uand (h : Hdr) (uns : Bool) (d a : Nat) (b : Src)
  | uor (h : Hdr) (uns : Bool) (d a : Nat) (b : Src)
  | uxor (h : Hdr) (uns : Bool) (d a : Nat) (b : Src)
  | ushl (h : Hdr) (uns : Bool) (d a : Nat) (b : Src)
  | ushr (h : Hdr) (uns : Bool) (d a : Nat) (b : Src)
  | usar (h : Hdr) (uns : Bool) (d a : Nat) (b : Src)
  | umin (h : Hdr) (uns : Bool) (d a : Nat) (b : Src)
  | umax (h : Hdr) (uns : Bool) (d a : Nat) (b : Src)
  | uli (h : Hdr) (d : Nat) (v : Int)
  | ulih (h : Hdr) (d hw v : Nat)
  | umov (h : Hdr) (uns : Bool) (d a : Nat)
  | usetq (h : Hdr) (cc : Cond) (uns : Bool) (d a : Nat) (b : Src)
  | usel (h : Hdr) (d a : Nat) (b : Src) (c : Nat)
  | uqlog (h : Hdr) (op : LogOp) (na nb : Bool) (d a b : Nat)
  | umovs (h : Hdr) (d sc : Nat)
  | ubfx (h : Hdr) (sx : Bool) (d a : Nat) (b : Src) (len : Nat)
  | upopc (h : Hdr) (uns : Bool) (d a : Nat)
  | ubra (h : Hdr) (off : Int)
  | uloop (h : Hdr) (off : Int) (c : Nat)
  | ujmpr (h : Hdr) (a : Nat)
  | bar (h : Hdr) (b : Nat)
  | bara (h : Hdr) (b : Nat)
  | barw (h : Hdr) (b : Nat)
  | dwait (h : Hdr) (mask : Nat)
  | racq (h : Hdr)
  | rrel (h : Hdr)
  | usleep (h : Hdr) (b : Src)
  | uld (h : Hdr) (x : MemX) (d a : Nat)
  | ust (h : Hdr) (x : MemX) (d a : Nat)
  | ulds (h : Hdr) (x : MemX) (d a : Nat)
  | usts (h : Hdr) (x : MemX) (d a : Nat)
  | tflsh (h : Hdr) (a : Nat)
  | tdrn (h : Hdr) (a : Nat)
  | csplit (h : Hdr) (p : Nat)
  -- events of memory, translation and full/empty words
  | loadResultReturn (k : Nat)
  | storeAcknowledge (r : Nat)
  | homeAccess (r : Nat) (ecc : Ecc)
  | faultSlotRetry (t : Nat)
  | starterZero (sz : PageSize)
  | fltReply (w : ReplyWrite)
  | badpageDrain (stack : Nat)
  | tlbInvalidate (ctx : Nat) (tgt : TlbTarget)
  | flushComplete (ctx : Nat)
  | drainComplete (ctx : Nat)
  | filterClear
  | scrubRead (stack : Nat) (ecc : Ecc)
  | scrubWrite (granule : Nat)
  | promotionRequest (line : Nat)
  | feWake (w : Nat)
  | feWokenTimeout (w : Nat)
  | feParkRetry (t : Nat)
  | parkSweep (die ctx : Nat)
  | parkSweepImmediate (k : Nat)
  -- events of threads, groups and teams
  | trapEntry (t : Nat)
  | deferredTrap (t : Nat)
  | groupSwap (out inn : Nat)
  | groupAdmit (g : Nat)
  | groupForcedEntry (g : Nat)
  | racqGrant (core quad : Nat)
  | usleepEnd (g : Nat)
  | yieldEnd (t : Nat)
  | teamEnd (u : Nat)
  | launchDoneWrite (l : Nat)
  | teamPlace (l : Nat) (at_ : List (Nat × Nat))
  | splitChange (core : Nat)
  | teamPreempt (u : Nat)
  | contextSwitchOut (ctx : Nat)
  | contextRestore (ctx : Nat)
  | killComplete (ctx : Nat)
  | fatal (code : Nat)
  -- events of engines and Slicers
  | mmaStart (o : Nat)
  | mmaComplete (o : Nat)
  | peelStart (o : Nat)
  | peelComplete (o units : Nat)
  | peelStop (o : Nat)
  | sliceStart (o : Nat)
  | spanClaim (o : Nat)
  | partialMerge (o span : Nat)
  | sliceComplete (o : Nat)
  | sliceStop (o : Nat)
  -- events of the command processor and the host
  | ctxCreate (id rpa : Nat)
  | ctxKill (id : Nat)
  | doorbell (q tail : Nat)
  | queueNop (q : Nat)
  | submit (q : Nat)
  | kernelNodeStart (g n : Nat)
  | peelNodeStart (g n core : Nat)
  | sliceNodeStart (g n : Nat)
  | signalNodeStart (g n : Nat)
  | nodeComplete (g n : Nat)
  | snap
  | ringConsWrite (r : RingId) (v : Nat)
  | rotCalWrite (p sl v : Nat)
  | rotCtlWrite (v : Nat)
  | rlyCfgWrite (off size v : Nat)
  | attGo
  | mgmtRegWrite (off size v : Nat)
  | packageReset (b : BootIn)
  | thermtrip
  | clockThrottle (m : PowerMeas)
  | hostCompletion (r : Nat) (ok : Bool)
  | hostCompletionTimeout (r : Nat)
  -- events of the rotor ports and UALink
  | trainingWord (p : Nat) (w : Option TrainWord)
  | flitSend (p : Nat)
  | wcAgeExpiry (e : Nat)
  | write (p : Nat) (f : FlitRx)
  | opw (p : Nat) (f : FlitRx)
  | read (p : Nat) (f : FlitRx)
  | rmw (p : Nat) (f : FlitRx)
  | fereq (p : Nat) (f : FlitRx)
  | fereqCancel (p : Nat) (f : FlitRx)
  | reply (p : Nat) (f : FlitRx)
  | ack (p : Nat) (f : FlitRx)
  | rfail (p : Nat) (f : FlitRx)
  | idle (p : Nat) (f : FlitRx)
  | relayFlit (p : Nat) (f : FlitRx)
  | unknownFlit (p : Nat) (f : FlitRx)
  | sourceLost (p j : Nat)
  | sourceLive (p j : Nat)
  | pathTimeout (peer : Nat)
  | slotClockLost
  | slotClockRegained
  | ualinkRequest (p : Nat) (q : UalReq)
  | ualinkResponse (r status : Nat) (data : List Byte)
  | ualinkLinkDown (p : Nat)
  | slotrefEdge (long : Bool)
  | ownClockSlotStep
  | wavelengthFailure (p w : Nat)
  | ualinkLinkUp (p : Nat)
  | corePowerGate (c : Nat)
  | coreWake (c : Nat)
  | debuggerHalt (c : Nat)
  | debuggerResume (c : Nat)
  deriving DecidableEq, Repr

end Sys2Proof
end

