-- ==== Sys2Proof/Config.lean ====
section
/-! DEFINITION. What an implementation fixes and the manual does not print: fixed figures of the VXN2-A512, and
opaque functions where every value the manual allows must stay possible. -/

namespace Sys2Proof.Config

/-- Cores of the package (R3). -/
def cores : Nat := 192
/-- End of usable HBM4 (R18). -/
def hbmTop : Nat := 0x7C00000000
/-- End of the full/empty region (R18). -/
def feTop : Nat := 0x8000000000
/-- First address of the unused top of the full/empty region (R84). -/
def feUnused : Nat := 0x7FE0000000
/-- First address of the host window (R18). -/
def hostBase : Nat := 0x8000000000000
/-- End of the physical space (R18). -/
def physTop : Nat := 0x10000000000000

/-- FREE VALUE (log 11): which value within the bound of R188 the special-function unit returns. R188 promises only
that the choice is the same for the same input. -/
opaque fsfPick (fn : FsfFn) (x : Word) : Nat

/-- FREE VALUE (log 84): the full/empty bit that a COPY with FEM 1 takes from a word of accumulator memory, which has
none (R106): by the operation and the word. -/
opaque accBit (op word : Nat) : Bool
/-- Whether a thread that reads a uniform register with a pending result gets the new value (R212, R290, log 6). -/
opaque pendPick (pend thread : Nat) : Bool

/-- FREE VALUE (log 15): the digest of the signing key that the fuses hold (R446). -/
opaque keyDigest : BitVec 512
/-- FREE VALUE (log 15): the fused rollback counter (R446). -/
opaque rollback : Nat
/-- FREE VALUE (log 15): the rollback counter in the bytes that the measurement covers (R447). -/
opaque rollbackBytes : List Byte
/-- FREE VALUE (log 15): the fuse configuration in the bytes that the measurement covers (R447). -/
opaque fuseConfig : List Byte
/-- FREE VALUE (log 15): the private half of the package's identity key (R447). -/
opaque identityKey : BitVec 256
/-- FREE VALUE (log 15): byte i of the certificate chain (R448). -/
opaque certByte (i : Nat) : Byte
/-- FREE VALUE (log 15): length of the certificate chain, at most 3840 (R448). -/
opaque certLen : Fin 3841
/-- FREE VALUE (log 59): what the n-th save writes to a core's part of the switch area, in the format that only the
command processor reads (R432). -/
opaque swImage (n : Nat) : List Byte
/-- The payload bytes of a flit whose fields R410 names and does not place (log 87). -/
opaque flitBody (b : Body) : List Byte
/-- Bytes 152 to 155 of a WRITE: its origin core, team and entry, which R410 does not place (log 87). -/
opaque originTag (core team entry : Nat) : BitVec 32

end Sys2Proof.Config
end

