-- ==== Sys2Proof/WellFormed.lean ====
section
/-! DEFINITION. The operands an encoding admits: ranges of R230, guards of R229, the E use of R228 and the field
rules that each entry adds (R231, R254, R264, R277, R279, R285, R293, R304, R309, R313, R335, R341). -/

namespace Sys2Proof

/-- Operand kinds of R230. -/
def okW (n : Nat) : Bool := n < 128
def okG (n : Nat) : Bool := n < 64
def okP (n : Nat) : Bool := n < 12
def okQ (n : Nat) : Bool := n < 8
/-- w, w2 or w4 by TY (R230). -/
def okWT (ty : Ty) (n : Nat) : Bool :=
  okW n && (match ty with | .w64 => n % 2 == 0 | .w128 => n % 4 == 0 | _ => true)
def okImm (v : Int) : Bool := -64 ≤ v && v ≤ 63
def okWI : Src → Bool
  | .reg n => okW n
  | .imm v => okImm v
def okGI : Src → Bool
  | .reg n => okG n
  | .imm v => okImm v
/-- "w/none" of R230. -/
def okWN : Option Nat → Bool
  | some n => okW n
  | none => true
/-- A 21-bit word offset (R226, R238). -/
def okOff (o : Int) : Bool := -1048576 ≤ o && o ≤ 1048575
/-- A scaled 8-bit offset (R234). -/
def okMo (o : Int) : Bool := -128 ≤ o && o ≤ 127

/-- Guards of R229. -/
def Guard.okLane (g : Guard) : Bool := match g.idx with | none => !g.neg | some i => i < 12
def Guard.okUnif (g : Guard) : Bool := match g.idx with | none => !g.neg | some i => i < 8

/-- E use "grd": without E the guard is always (R228). -/
def Hdr.grd (h : Hdr) : Bool := h.gd.okLane && (h.x || h.gd == Guard.always)
/-- E use "opt": without E every field of E is its default (R228). -/
def Hdr.opt (h : Hdr) (dflt : Bool) : Bool := h.gd.okLane && (h.x || (h.gd == Guard.always && dflt))
/-- E use "req": E is present (R228). -/
def Hdr.req (h : Hdr) : Bool := h.gd.okLane && h.x
def Hdr.ugrd (h : Hdr) : Bool := h.gd.okUnif && (h.x || h.gd == Guard.always)
def Hdr.uopt (h : Hdr) (dflt : Bool) : Bool := h.gd.okUnif && (h.x || (h.gd == Guard.always && dflt))
def Hdr.ureq (h : Hdr) : Bool := h.gd.okUnif && h.x

/-- TY 0 to 5. -/
def Ty.isInt : Ty → Bool
  | .s32 | .z32 | .s16 | .z16 | .s8 | .z8 => true
  | _ => false
/-- s32, s16, s8. -/
def Ty.isSigned : Ty → Bool
  | .s32 | .s16 | .s8 => true
  | _ => false
/-- TY 8 to 10. -/
def Ty.isF : Ty → Bool
  | .f32 | .f16 | .bf16 => true
  | _ => false
/-- TY 8 to 15. -/
def Ty.isFloat : Ty → Bool
  | .f32 | .f16 | .bf16 | .e4m3 | .e5m2 | .e3m2 | .e2m3 | .e2m1 => true
  | _ => false
def Ty.is16F : Ty → Bool
  | .f16 | .bf16 => true
  | _ => false
def Ty.is8F : Ty → Bool
  | .e4m3 | .e5m2 => true
  | _ => false
def Ty.is16I : Ty → Bool
  | .s16 | .z16 => true
  | _ => false
/-- Types of loads and stores, TY 0 to 7. -/
def Ty.isMem : Ty → Bool
  | .w64 | .w128 => true
  | t => t.isInt
/-- Element types of MXDOT (R276). -/
def Ty.isMx : Ty → Bool
  | .s8 | .e4m3 | .e5m2 | .e3m2 | .e2m3 | .e2m1 => true
  | _ => false
/-- Slots of PACK and UNPK (R279); 0 where the type is not accepted. -/
def Ty.slots : Ty → Nat
  | .s16 | .z16 | .f16 | .bf16 => 2
  | .s8 | .z8 | .e4m3 | .e5m2 | .e3m2 | .e2m3 => 4
  | .e2m1 => 8
  | _ => 0

/-- Saturation agrees with signedness (R254). -/
def okSat (sf : SatF) (ty : Ty) : Bool :=
  ty.isInt && (match sf with | .wrap => true | .ssat => ty.isSigned | .usat => !ty.isSigned)

/-- QNT targets of R277. -/
def QntTgt.ok : QntTgt → Bool
  | .pl m => 1 ≤ m && m ≤ 12
  | .mx ty => ty != .s8 && ty.isMx
  | _ => true

/-- Atomic types and operations of R304. -/
def okAtom (op : AtomOp) (ty : Ty) (red : Bool) : Bool :=
  (match ty with | .s32 | .z32 | .w64 | .f32 => true | _ => false) &&
  (match op, ty with
   | .min, .w64 | .max, .w64 | .and, .f32 | .or, .f32 | .xor, .f32 => false
   | .exch, _ => !red
   | _, _ => true)

/-- Types of CAS and CASS (R293). -/
def okCas (ty : Ty) (spad : Bool) : Bool :=
  match ty with | .s32 | .z32 => true | .w64 => !spad | _ => false

def FeAddr.ok : FeAddr → Bool
  | .glob a b => okG a && okW b
  | .spad b => okW b

/-- The fields of R235: try only where accepted, seq only where accepted (R309). -/
def FeX.ok (x : FeX) (tryOk seqOk : Bool) : Bool :=
  (seqOk || !x.seq) && (match x.try? with | none => true | some p => tryOk && okP p)
/-- Every E field of a full/empty form is its default. -/
def FeX.dflt (x : FeX) (ad : FeAddr) : Bool :=
  x == ⟨false, false, .thr, .none, none⟩ && (match ad with | .glob _ _ => true | .spad _ => false)

def okFill (k : Nat) : Bool := 1 ≤ k && k ≤ 12
/-- Wait mask and slot of R237; the mask does not name the slot set (R341). -/
def EngX.ok (x : EngX) : Bool :=
  x.mask < 256 && (match x.set? with | none => true | some n => n < 8 && !bitOf x.mask n)
def EngX.dflt (x : EngX) : Bool := x.mask == 0 && x.set? == none

def MemX.ok (x : MemX) (hint : Bool) : Bool := okMo x.off && (hint || x.hint == .none) && x.ty.isMem
def MemX.dflt (x : MemX) : Bool := x == ⟨.plain, .s32, .thr, .none, 0⟩
def AtomX.ok (x : AtomX) (hint : Bool) : Bool := hint || x.hint == .none
def PlX.dflt (x : PlX) : Bool := x == ⟨.plain, .thr, .none⟩

/-- Trap and system registers that move through a pair (R335). -/
def tcWide (tc : Nat) : Bool := tc == 2 || tc == 3 || tc == 5 || tc == 6 || tc == 7 || tc == 8

namespace Instr

/-- The operands of an encoded instruction are those its encoding admits. Events have no encoding and no check. -/
def wf : Instr → Bool
  | nop h => h.grd
  | add h sf ty d a b | sub h sf ty d a b | mul h sf ty d a b =>
      h.opt (sf == .wrap && ty == .s32) && okSat sf ty && okW d && okW a && okWI b
  | mulh h ty d a b | div h ty d a b | rem h ty d a b | min h ty d a b | max h ty d a b =>
      h.opt (ty == .s32) && ty.isInt && okW d && okW a && okWI b
  | mad h sf ty d a b c => h.req && okSat sf ty && okW d && okW a && okWI b && okW c
  | abs h sa ty d a => h.opt (!sa && ty == .s32) && ty.isSigned && okW d && okW a
  | li h d v => h.req && okW d && -67108864 ≤ v && v ≤ 67108863
  | lih h d v => h.req && okW d && v < 65536
  | mov h ty d a => h.opt (ty == .s32) && (ty == .s32 || ty == .w64 || ty == .w128) && okWT ty d && okWT ty a
  | sel h d a b c => h.req && okW d && okW a && okWI b && okP c
  | setp h cc ty d a b => h.opt (cc == .eq && ty == .s32) && ty.isInt && okP d && okW a && okWI b
  | and h d a b | or h d a b | xor h d a b | andn h d a b | shl h d a b | shr h d a b | sar h d a b =>
      h.opt true && okW d && okW a && okWI b
  | shf h _ d a b c => h.req && okW d && okW a && okWI b && okW c
  | bfx h _ d a b l | bfi h _ d a b l => h.req && okW d && okW a && okWI b && 1 ≤ l && l ≤ 32
  | popc h d a | clz h d a | brev h d a => h.opt true && okW d && okW a
  | prmt h d a b c => h.req && okW d && okW a && okW b && okW c
  | plog h op na nb d a b => h.opt (op == .and && !na && !nb) && okP d && okP a && okP b
  | pmovSave h d => h.opt true && okW d
  | pmovLoad h a => h.req && okW a
  | fadd h _ ty d a b | fsub h _ ty d a b | fmul h _ ty d a b =>
      h.req && ty.isF && okW d && okW a && okW b
  | ffma h _ ty d a b c => h.req && ty.isF && okW d && okW a && okW b && okW c
  | fmin h ty d a b | fmax h ty d a b => h.req && ty.isF && okW d && okW a && okW b
  | fsetp h _ ty d a b => h.req && ty.isF && okP d && okW a && okW b
  | fsf h _ _ ty d a => h.req && ty.isF && okW d && okW a
  | fcvt h _ dst src d a => h.req && dst.isFloat && src.isFloat && okW d && okW a
  | icvt h rm toF ity fty d a =>
      h.opt (rm == .rn && !toF && ity == .s32 && fty == .f32) && ity.isInt && fty.isF && okW d && okW a
  | fdot2 h _ ty d a b c => h.req && ty.is16F && okW d && okW a && okW b && okW c
  | fdot4 h _ ty d a b c => h.req && ty.is8F && okW d && okW a && okW b && okW c
  | mxdot h _ ty sa sb d a b c => h.req && ty.isMx && sa < 4 && sb < 4 && okW d && okW a && okW b && okW c
  | qnt h t d a => h.req && t.ok && okW d && okW a
  | pack h ty sl d a b => h.req && sl < ty.slots && okW d && okW a && okWI b
  | unpk h ty d a b => h.req && 0 < ty.slots && okW d && okW a && okWI b
  | vadd2 h _ ty d a b | vsub2 h _ ty d a b => h.req && ty.is16I && okW d && okW a && okW b
  | vmax2 h ty d a b | vmin2 h ty d a b => h.req && ty.is16I && okW d && okW a && okW b
  | vcmp2 h _ ty d a b => h.req && ty.is16I && okW d && okW a && okW b
  | hadd2 h _ ty d a b | hmul2 h _ ty d a b => h.req && ty.is16F && okW d && okW a && okW b
  | hfma2 h _ ty d a b c => h.req && ty.is16F && okW d && okW a && okW b && okW c
  | shfl h _ seg d a b => h.req && 1 ≤ seg && seg ≤ 5 && okW d && okW a && okWI b
  | vote h fn d a =>
      h.opt (fn == .and) && (match fn with | .mask | .cnt => okW d | _ => okP d) && okP a
  | redg h g op ty d a =>
      h.opt (!g && op == .add && ty == .s32) && (ty == .s32 || ty == .z32 || ty == .f32) && okW d && okW a
  | scan h g op ex ty d a =>
      h.opt (!g && op == .add && !ex && ty == .s32) && (ty == .s32 || ty == .z32 || ty == .f32) && okW d && okW a
  | elect h fn d => h.opt (fn == .lo) && okP d
  | movs h d sc => h.grd && okW d && sc < 19
  | movg h hi d a => h.opt (!hi) && okW d && okG a
  | movu h f d a b => h.opt (f == .zx) && okG d && okW a && okWI b
  | ld h x d a b | st h x d a b => h.opt x.dflt && x.ok true && okWT x.ty d && okG a && okWN b
  | lds h x d b | sts h x d b => h.opt x.dflt && x.ok false && okWT x.ty d && okW b
  | ldl h x d b | stl h x d b => h.opt x.dflt && x.ok true && okWT x.ty d && okW b
  | ldnf h x d a b c => h.req && x.ok true && x.ord == .plain && okWT x.ty d && okG a && okWN b && okP c
  | pref h hint o a b => h.opt (hint == .none && o == 0) && okMo o && okG a && okWN b
  | atom h op x d a b c =>
      h.req && x.ok true && okAtom op x.ty false && okWT x.ty d && okG a && okWN b && okWT x.ty c
  | atoms h op x d b c =>
      h.req && x.ok false && okAtom op x.ty false && x.ty != .w64 && okW d && okW b && okW c
  | cas h x d a b c => h.req && x.ok true && okCas x.ty false && okWT x.ty d && okG a && okWN b && okWT x.ty c
  | cass h x d b c => h.req && x.ok false && okCas x.ty true && okW d && okW b && okW c
  | red h op x d a b => h.req && x.ok true && okAtom op x.ty true && okWT x.ty d && okG a && okWN b
  | fence h _ _ => h.req
  | waita h _ x d ad => h.req && x.ok true true && okW d && ad.ok
  | pgreq h o a b => h.opt (o == 0) && okMo o && okG a && okWN b
  | ldwf h x d ad | ldce h x d ad | stwe h x d ad => h.opt (x.dflt ad) && x.ok true true && okW d && ad.ok
  | stfs h x d ad => h.opt (x.dflt ad) && x.ok false true && okW d && ad.ok
  | feget h x d ad => h.opt (x.dflt ad) && x.ok false false && okP d && ad.ok
  | fesetEmpty h x ad => h.opt (x.dflt ad) && x.ok false false && ad.ok
  | fesetFull h x ad => h.req && x.ok false true && ad.ok
  | pld h _ k _ d a b => h.req && okFill k && okW d && okG a && okW b
  | prf h _ k _ d a b c => h.req && okFill k && okW d && okG a && okW b && okP c
  | ptagGet h d a => h.opt true && okW d && okW a
  | ptagSet h d a => h.req && okW d && okW a
  | ptrim h k _ d => h.req && okFill k && okW d
  | pst h x d a b => h.opt x.dflt && okW d && okG a && okW b
  | bra h o | call h o => h.grd && okOff o
  | ret h | exit h | bkpt h | yield h | tret h => h.grd
  | jmpr h a => h.grd && okW a
  | trap h v => h.grd && okImm v
  | mma h x b => h.opt x.dflt && x.ok && okW b
  | pcopy h x a b | slice h x a b => h.opt x.dflt && x.ok && okG a && okWN b
  | launch h d a => h.grd && okW d && okG a
  | sqapp h d a b | sqret h d a b | sqfork h d a b | sqlook h d a b => h.grd && okW d && okG a && okWN b
  | engst h d b => h.grd && okW d && okWI b
  | mft h d tc => h.grd && tc < 12 && okWT (if tcWide tc then .w64 else .s32) d
  | mtt h tc a => h.grd && tc < 12 && okWT (if tcWide tc then .w64 else .s32) a
  | unop h | racq h | rrel h => h.ugrd
  | uadd h u d a b | usub h u d a b | umul h u d a b | uand h u d a b | uor h u d a b | uxor h u d a b
  | ushl h u d a b | ushr h u d a b | usar h u d a b | umin h u d a b | umax h u d a b =>
      h.uopt (!u) && okG d && okG a && okGI b
  | umad h _ d a b c => h.ureq && okG d && okG a && okGI b && okG c
  | uli h d v => h.ureq && okG d && -67108864 ≤ v && v ≤ 67108863
  | ulih h d hw v => h.ureq && okG d && 1 ≤ hw && hw ≤ 3 && v < 65536
  | umov h u d a | upopc h u d a => h.uopt (!u) && okG d && okG a
  | usetq h cc u d a b => h.uopt (cc == .eq && !u) && okQ d && okG a && okGI b
  | usel h d a b c => h.ureq && okG d && okG a && okGI b && okQ c
  | uqlog h op na nb d a b => h.uopt (op == .and && !na && !nb) && okQ d && okQ a && okQ b
  | umovs h d sc => h.ugrd && okG d && 2 ≤ sc && sc < 19
  | ubfx h _ d a b l => h.ureq && okG d && okG a && okGI b && 1 ≤ l && l ≤ 64
  | ubra h o => h.ugrd && okOff o
  | uloop h o c => h.ureq && okOff o && 1 ≤ c && okG c
  | ujmpr h a | tflsh h a | tdrn h a => h.ugrd && okG a
  | bar h b | bara h b | barw h b => h.ugrd && b < 16
  | dwait h mask => h.ureq && mask < 256
  | usleep h b => h.ugrd && okGI b
  | uld h x d a | ust h x d a => h.uopt x.dflt && x.ok true && x.ty != .w128 && okG d && okG a
  | ulds h x d a | usts h x d a => h.uopt x.dflt && x.ok false && x.ty != .w128 && okG d && okG a
  | csplit h p => h.ugrd && 2 ≤ p && p ≤ 10
  | _ => true

end Instr
end Sys2Proof
end

