-- ==== Sys2Proof/Machine/Numbers.lean ====
section
/-! DEFINITION. Number formats, rounding, conversions, exact sums, the Sifter, the special functions and the matrix
array's arithmetic (chapter 07). Exact values are dyadics m * 2^e over the integers; every narrowing is explicit. -/

namespace Sys2Proof.Num

/-- FPSTAT flags of R179: INV 0, DZ 1, OVF 2, UNF 3, INX 4. -/
abbrev Flags := BitVec 5
def fNone : Flags := 0
def fInv : Flags := 1
def fDz : Flags := 2
def fOvf : Flags := 4
def fUnf : Flags := 8
def fInx : Flags := 16

/-- An exact dyadic value m * 2^e. -/
structure Dy where
  m : Int
  e : Int
  deriving DecidableEq, Repr

namespace Dy
def zero : Dy := ⟨0, 0⟩
def pow2 (n : Int) : Int := if 0 ≤ n then 2 ^ n.toNat else 1
def align (x : Dy) (e : Int) : Int := x.m * pow2 (x.e - e)
def add (x y : Dy) : Dy := let e := min x.e y.e; ⟨x.align e + y.align e, e⟩
def neg (x : Dy) : Dy := ⟨-x.m, x.e⟩
def sub (x y : Dy) : Dy := x.add y.neg
def mul (x y : Dy) : Dy := ⟨x.m * y.m, x.e + y.e⟩
def scale (x : Dy) (n : Int) : Dy := ⟨x.m, x.e + n⟩
def abs (x : Dy) : Dy := ⟨x.m.natAbs, x.e⟩
def lt (x y : Dy) : Bool := let e := min x.e y.e; x.align e < y.align e
def le (x y : Dy) : Bool := let e := min x.e y.e; x.align e ≤ y.align e
def eq (x y : Dy) : Bool := let e := min x.e y.e; x.align e == y.align e
def sum (l : List Dy) : Dy := l.foldl add zero
/-- floor(log2 |x|) for x not 0. -/
def lg (x : Dy) : Int := (Nat.log2 x.m.natAbs : Int) + x.e
def ofInt (v : Int) : Dy := ⟨v, 0⟩
end Dy

/-- Round the magnitude m * 2^sh to an integer in a mode of R175; neg is the sign of the value. -/
def roundMag (rm : Rm) (neg : Bool) (m : Nat) (sh : Int) : Nat :=
  if 0 ≤ sh then m * 2 ^ sh.toNat
  else
    let d := 2 ^ (-sh).toNat
    let q := m / d
    let r := m % d
    match rm with
    | .rn => if 2 * r > d ∨ (2 * r = d ∧ q % 2 = 1) then q + 1 else q
    | .rz => q
    | .ru => if r ≠ 0 ∧ !neg then q + 1 else q
    | .rd => if r ≠ 0 ∧ neg then q + 1 else q

/-- A float format of R169: exponent and mantissa bits, bias, infinity codes, NaN codes, largest finite code. -/
structure Fmt where
  eb : Nat
  mb : Nat
  bias : Nat
  ieee : Bool
  hasNan : Bool
  maxCode : Nat
  nan : Nat
  deriving DecidableEq, Repr

def Fmt.bits (f : Fmt) : Nat := 1 + f.eb + f.mb
def f32 : Fmt := ⟨8, 23, 127, true, true, 0x7F7FFFFF, 0x7FC00000⟩
def f16 : Fmt := ⟨5, 10, 15, true, true, 0x7BFF, 0x7E00⟩
def bf16 : Fmt := ⟨8, 7, 127, true, true, 0x7F7F, 0x7FC0⟩
def e4m3 : Fmt := ⟨4, 3, 7, false, true, 0x7E, 0x7F⟩
def e5m2 : Fmt := ⟨5, 2, 15, true, true, 0x7B, 0x7E⟩
def e3m2 : Fmt := ⟨3, 2, 3, false, false, 0x1F, 0⟩
def e2m3 : Fmt := ⟨2, 3, 1, false, false, 0x1F, 0⟩
def e2m1 : Fmt := ⟨2, 1, 1, false, false, 0x7, 0⟩

/-- The format of a float type code (R232); integer codes do not reach it. -/
def fmtOf : Ty → Fmt
  | .f16 => f16 | .bf16 => bf16 | .e4m3 => e4m3 | .e5m2 => e5m2 | .e3m2 => e3m2 | .e2m3 => e2m3 | .e2m1 => e2m1
  | _ => f32

/-- A float value: NaN (signalling or not), infinity, or finite with the sign of a zero kept. -/
inductive FVal
  | nan (sig : Bool)
  | inf (neg : Bool)
  | fin (neg : Bool) (d : Dy)
  deriving DecidableEq, Repr

/-- The value of a code (R169). -/
def unpack (f : Fmt) (code : Nat) : FVal :=
  let c := code % 2 ^ f.bits
  let neg := c / 2 ^ (f.eb + f.mb) == 1
  let e := c / 2 ^ f.mb % 2 ^ f.eb
  let m := c % 2 ^ f.mb
  let sg : Int := if neg then -1 else 1
  if f.ieee && e == 2 ^ f.eb - 1 then
    if m = 0 then .inf neg else .nan (f.mb > 2 && m / 2 ^ (f.mb - 1) == 0)
  else if f.hasNan && !f.ieee && c % 2 ^ (f.eb + f.mb) == f.nan then .nan false
  else if e = 0 then .fin neg ⟨sg * m, 1 - (f.bias : Int) - f.mb⟩
  else .fin neg ⟨sg * (2 ^ f.mb + m : Nat), (e : Int) - f.bias - f.mb⟩

/-- The sign bit of a format over a magnitude code. -/
def withSign (f : Fmt) (neg : Bool) (mag : Nat) : Nat := (if neg then 2 ^ (f.eb + f.mb) else 0) + mag
def infCode (f : Fmt) (neg : Bool) : Nat := withSign f neg ((2 ^ f.eb - 1) * 2 ^ f.mb)

/-- The overflow results of R176. E5M2 is an 8-bit format and takes its largest finite value. -/
def overflow (f : Fmt) (rm : Rm) (neg : Bool) : Nat :=
  let toInf := f.ieee && f.bits ≥ 16 &&
    (match rm with | .rn => true | .rz => false | .ru => !neg | .rd => neg)
  if toInf then infCode f neg else withSign f neg f.maxCode

/-- Largest finite value as a dyadic. -/
def maxFin (f : Fmt) : Dy := match unpack f f.maxCode with | .fin _ d => d | _ => Dy.zero

/-- rnd(x, f, rm) of R176 for x not 0, with its flags. -/
def rndNZ (f : Fmt) (rm : Rm) (x : Dy) : Nat × Flags :=
  let neg := x.m < 0
  let m := x.m.natAbs
  let q := x.lg - f.mb
  let r := roundMag rm neg m (x.e - q)
  let v : Dy := ⟨r, q⟩
  if (maxFin f).lt v then (overflow f rm neg, fOvf ||| fInx)
  else if v.lt ⟨1, 1 - (f.bias : Int)⟩ then
    let q' : Int := 1 - (f.bias : Int) - f.mb
    let r' := roundMag rm neg m (x.e - q')
    (withSign f neg r', if Dy.eq ⟨r', q'⟩ x.abs then fNone else fUnf ||| fInx)
  else
    (withSign f neg ((q + f.mb + f.bias).toNat * 2 ^ f.mb + r - 2 ^ f.mb),
      if Dy.eq v x.abs then fNone else fInx)

/-- rnd(x, f, rm); an exact zero has the sign given. -/
def rnd (f : Fmt) (rm : Rm) (x : Dy) (zneg : Bool) : Nat × Flags :=
  if x.m = 0 then (withSign f zneg 0, fNone) else rndNZ f rm x

/-- A NaN as an operand: the canonical NaN, INV when signalling (R181). -/
def nanOp (f : Fmt) (sig : Bool) : Nat × Flags := (f.nan, if sig then fInv else fNone)

/-- A product before rounding (R181): none is the invalid 0 x Inf. -/
def prod : FVal → FVal → Option FVal
  | .nan s, .nan t => some (.nan (s || t))
  | .nan s, _ => some (.nan s)
  | _, .nan s => some (.nan s)
  | .inf a, .inf b => some (.inf (a != b))
  | .inf a, .fin b d => if d.m = 0 then none else some (.inf (a != b))
  | .fin a d, .inf b => if d.m = 0 then none else some (.inf (a != b))
  | .fin a x, .fin b y => some (.fin (a != b) (x.mul y))

/-- The terms of one exact sum. -/
structure SumSt where
  nan : Bool
  sig : Bool
  bad : Bool
  pinf : Bool
  ninf : Bool
  x : Dy
  allZ : Option Bool
  mixed : Bool
  deriving DecidableEq, Repr

def SumSt.init : SumSt := ⟨false, false, false, false, false, Dy.zero, none, false⟩
def SumSt.term (s : SumSt) : Option FVal → SumSt
  | none => { s with bad := true }
  | some (.nan g) => { s with nan := true, sig := s.sig || g }
  | some (.inf n) => if n then { s with ninf := true } else { s with pinf := true }
  | some (.fin n d) =>
    if d.m = 0 then
      match s.allZ with
      | none => { s with allZ := some n }
      | some z => if z = n then s else { s with mixed := true }
    else { s with x := s.x.add d, mixed := true }

/-- One exact sum of terms, rounded once to f: an invalid operation in it sets INV beside a NaN operand too (R181,
log 44). A product alone is a sum of one term: a zero keeps its sign (log 44). -/
def sumRnd (f : Fmt) (rm : Rm) (ts : List (Option FVal)) : Nat × Flags :=
  let s := ts.foldl SumSt.term SumSt.init
  let inv := s.bad || (s.pinf && s.ninf)
  if s.nan then nanOp f (s.sig || inv)
  else if inv then (f.nan, fInv)
  else if s.pinf then (infCode f false, fNone)
  else if s.ninf then (infCode f true, fNone)
  else rnd f rm s.x (if s.mixed then rm == .rd else s.allZ.getD false)

def negV : FVal → FVal
  | .nan s => .nan s | .inf n => .inf (!n) | .fin n d => .fin (!n) d.neg

def fadd (f : Fmt) (rm : Rm) (a b : Nat) : Nat × Flags := sumRnd f rm [some (unpack f a), some (unpack f b)]
def fsub (f : Fmt) (rm : Rm) (a b : Nat) : Nat × Flags := sumRnd f rm [some (unpack f a), some (negV (unpack f b))]
/-- A product is a sum of one term (log 44). -/
def fmul (f : Fmt) (rm : Rm) (a b : Nat) : Nat × Flags := sumRnd f rm [prod (unpack f a) (unpack f b)]
/-- FFMA: a product and an addend, one rounding. -/
def ffma (f : Fmt) (rm : Rm) (a b c : Nat) : Nat × Flags :=
  sumRnd f rm [prod (unpack f a) (unpack f b), some (unpack f c)]

/-- Order of two values that are not NaN; -0 and +0 are equal. -/
def ltV : FVal → FVal → Bool
  | .inf a, .inf b => a && !b
  | .inf a, _ => a
  | _, .inf b => !b
  | .fin _ x, .fin _ y => x.lt y
  | _, _ => false
def eqV : FVal → FVal → Bool
  | .inf a, .inf b => a == b
  | .fin _ x, .fin _ y => x.eq y
  | _, _ => false
def isNan : FVal → Bool | .nan _ => true | _ => false
def isSig : FVal → Bool | .nan s => s | _ => false
def isNeg : FVal → Bool | .nan _ => false | .inf n => n | .fin n _ => n

/-- FMIN and FMAX (R270): -0 counts as less than +0, one NaN gives the other operand. -/
def fminmax (f : Fmt) (mx : Bool) (a b : Nat) : Nat × Flags :=
  let va := unpack f a
  let vb := unpack f b
  let fl := if isSig va || isSig vb then fInv else fNone
  let ca := a % 2 ^ f.bits
  let cb := b % 2 ^ f.bits
  if isNan va && isNan vb then (f.nan, fl)
  else if isNan va then (cb, fl)
  else if isNan vb then (ca, fl)
  else
    let aLess := ltV va vb || (eqV va vb && isNeg va && !isNeg vb)
    (if aLess != mx then ca else cb, fl)

/-- FSETP conditions (R233, R271). -/
def fcmp (f : Fmt) (cc : FCond) (a b : Nat) : Bool × Flags :=
  let va := unpack f a
  let vb := unpack f b
  let un := isNan va || isNan vb
  let ordered := match cc with | .lt | .le | .gt | .ge => true | _ => false
  let fl := if isSig va || isSig vb || (un && ordered) then fInv else fNone
  let r := match cc with
    | .eq => !un && eqV va vb
    | .ne => un || !eqV va vb
    | .lt => !un && ltV va vb
    | .le => !un && (ltV va vb || eqV va vb)
    | .gt => !un && ltV vb va
    | .ge => !un && (ltV vb va || eqV va vb)
    | .num => !un
    | .nan => un
  (r, fl)

/-- A NaN converted to a format (R177, R171). -/
def cvtNan (f : Fmt) (sig : Bool) : Nat × Flags :=
  if f.hasNan then (f.nan, if sig then fInv else fNone) else (0, fInv)
/-- An infinity converted to a format (R177). -/
def cvtInf (f : Fmt) (neg : Bool) : Nat × Flags :=
  if f.ieee then (infCode f neg, fNone) else (withSign f neg f.maxCode, fOvf)
/-- Conversion of a float value to a format (R177). -/
def cvtF (f : Fmt) (rm : Rm) : FVal → Nat × Flags
  | .nan s => cvtNan f s
  | .inf n => cvtInf f n
  | .fin n d => rnd f rm d n
/-- FCVT (R273). -/
def fcvt (dst src : Fmt) (rm : Rm) (a : Nat) : Nat × Flags := cvtF dst rm (unpack src a)

/-- Float to an n-bit integer (R177, R274). -/
def toInt (n : Nat) (signed : Bool) (rm : Rm) : FVal → Int × Flags
  | .nan _ => (0, fInv)
  | .inf neg =>
    (if neg then (if signed then -(2 ^ (n - 1) : Int) else 0)
     else (if signed then 2 ^ (n - 1) - 1 else 2 ^ n - 1), fInv)
  | .fin neg d =>
    let r : Int := roundMag rm neg d.m.natAbs d.e
    let v := if neg then -r else r
    let lo : Int := if signed then -(2 ^ (n - 1)) else 0
    let hi : Int := if signed then 2 ^ (n - 1) - 1 else 2 ^ n - 1
    if v < lo ∨ hi < v then (sat v lo hi, fInv)
    else (v, if Dy.eq (Dy.ofInt v) d then fNone else fInx)

/-- An exact value with a sticky tail: n / d truncated to more bits than any format keeps, the last bit set when
something was cut off, so that one rounding of it is the rounding of n / d. -/
def quotient (neg : Bool) (n d : Nat) (e : Int) : Dy :=
  let k := 96 + Nat.log2 d
  let q := n * 2 ^ k / d
  let s := if n * 2 ^ k % d = 0 then 0 else 1
  ⟨(if neg then -1 else 1) * (2 * q + s : Nat), e - k - 1⟩

/-- Integer square root by Newton's method with fuel. -/
def isqrtStep : Nat → Nat → Nat → Nat
  | 0, _, r => r
  | k + 1, n, r => let r' := (r + n / r) / 2; if r' < r then isqrtStep k n r' else r
def isqrt (n : Nat) : Nat := if n = 0 then 0 else isqrtStep 256 n (2 ^ (Nat.log2 n / 2 + 1))

/-- The square root of a positive dyadic with a sticky tail. -/
def sqrtDy (x : Dy) : Dy :=
  let m := x.m.natAbs
  let odd := x.e % 2 ≠ 0
  let m1 := if odd then 2 * m else m
  let e1 := if odd then x.e - 1 else x.e
  let r := isqrt (m1 * 2 ^ 192)
  ⟨(2 * r + (if r * r = m1 * 2 ^ 192 then 0 else 1) : Nat), e1 / 2 - 97⟩

/-! ### Special functions (R188, R189) -/

/-- pi with 400 fraction bits, and ln 2 with 160. -/
def piFix : Nat := 8112377246730971238862271351300894519161151600179265203591191037615230905373990498745523360926816815427566779727327576236
def ln2Fix : Nat := 1013035739299659071135698605846798551586536899366

/-- Fixed point with 160 fraction bits. -/
def one160 : Int := 2 ^ 160
def mulFix (a b : Int) : Int := a * b / one160
/-- Taylor sums in fixed point: term(n+1) = term(n) * x / (n * ...) with fuel. -/
def expTaylor : Nat → Int → Int → Int → Int
  | 0, _, _, _ => 0
  | k + 1, x, n, t => t + expTaylor k x (n + 1) (mulFix t x / n)
/-- e^y for a fixed-point y in [0, 1). -/
def expFix (y : Int) : Int := expTaylor 48 y 1 one160
def sinTaylor : Nat → Int → Int → Int → Int
  | 0, _, _, _ => 0
  | k + 1, x2, n, t => t - sinTaylor k x2 (n + 2) (mulFix t x2 / ((n + 1) * (n + 2)))
/-- sin and cos of a fixed-point y in [0, pi/4]. -/
def sinFix (y : Int) : Int := sinTaylor 24 (mulFix y y) 1 y
def cosFix (y : Int) : Int := sinTaylor 24 (mulFix y y) 0 one160
/-- log2 of a fixed-point y in [1, 2), bit by bit. -/
def log2Bits : Nat → Int → Int → Int → Int
  | 0, _, _, acc => acc
  | k + 1, y, w, acc =>
    let z := mulFix y y
    if 2 * one160 ≤ z then log2Bits k (z / 2) (w / 2) (acc + w) else log2Bits k z (w / 2) acc

/-- floor and fraction of a dyadic in fixed point with 160 bits. -/
def splitFix (x : Dy) : Int × Int :=
  let v := if 0 ≤ x.e + 160 then x.m * 2 ^ (x.e + 160).toNat else x.m / 2 ^ (-(x.e + 160)).toNat
  (v / one160, v % one160)

/-- 2^x for a dyadic x, to about 150 bits. -/
def ex2Approx (x : Dy) : Dy :=
  let (n, fr) := splitFix x
  ⟨expFix (mulFix fr ln2Fix), n - 160⟩
/-- log2 x for a positive dyadic. -/
def lg2Approx (x : Dy) : Dy :=
  let l := x.lg
  let y : Int := x.m.natAbs * 2 ^ 160 / 2 ^ (Nat.log2 x.m.natAbs)
  ⟨l * one160 + log2Bits 150 y (one160 / 2) 0, -160⟩

/-- x modulo pi/2: the quadrant and the remainder in fixed point, from exact integer arithmetic. -/
def reduce (m : Nat) (e : Int) : Nat × Int :=
  let v : Nat := if 0 ≤ e + 399 then m * 2 ^ (e + 399).toNat else m / 2 ^ (-(e + 399)).toNat
  let q := v / (piFix / 4)
  let r := v - q * (piFix / 4)
  (q, r)
/-- Enough of pi for any FP32 argument: with the argument's exponent at most 104, 400 bits leave 250 good ones. -/
def sinCosApprox (cos : Bool) (x : Dy) : Dy :=
  let neg := x.m < 0
  let (q0, r0) := reduce x.m.natAbs x.e
  -- q0 counts multiples of pi/2; r0 has 399 fraction bits
  let half := piFix / 8
  let (q, r, fl) := if half < r0.toNat then (q0 + 1, piFix / 4 - r0.toNat, true) else (q0, r0.toNat, false)
  let y : Int := r / 2 ^ 239
  let s : Int := if fl then -(sinFix y) else sinFix y
  let c := cosFix y
  let k := (q + (if cos then 1 else 0)) % 4
  let v := if k = 0 then s else if k = 1 then c else if k = 2 then -s else -c
  ⟨if neg && !cos then -v else v, -160⟩

/-- tanh of a dyadic: (e^2|x| - 1) / (e^2|x| + 1), by way of 2^(2|x| / ln 2). -/
def tanhApprox (x : Dy) : Dy :=
  let neg := x.m < 0
  if (Dy.ofInt 16).lt x.abs then ⟨(if neg then -1 else 1) * (2 ^ 60 - 1), -60⟩
  else
    let y : Dy := ⟨(x.m.natAbs * 2 ^ 320 : Nat) / (ln2Fix : Int), x.e + 1 - 160⟩
    let p := ex2Approx y
    let a := p.sub (Dy.ofInt 1)
    let b := p.add (Dy.ofInt 1)
    let e := min a.e b.e
    quotient neg (a.align e).natAbs (b.align e).natAbs 0

/-- FP32 codes in the order of their values, -0 below +0. -/
def ordOf (c : Nat) : Int := if c / 2 ^ 31 % 2 = 1 then -((c % 2 ^ 31 : Nat) : Int) - 1 else (c % 2 ^ 31 : Nat)
def ofOrd (o : Int) : Nat := if o < 0 then 2 ^ 31 + (-o - 1).toNat else o.toNat
/-- A code of a subnormal FP32 value. -/
def subnormal (c : Nat) : Bool := c % 2 ^ 31 != 0 && c % 2 ^ 31 < 2 ^ 23
/-- FREE VALUE (log 11): one of the FP32 results that lie within a bound of an exact value and are not tiny (R188). -/
def pickWithin (fn : FsfFn) (code : Nat) (x bound : Dy) : Nat :=
  let lo := ordOf (rnd f32 .ru (x.sub bound) true).1
  let hi := ordOf (rnd f32 .rd (x.add bound) false).1
  let c := ofOrd (lo + (Config.fsfPick fn (BitVec.ofNat 32 code) % ((hi - lo).toNat + 1) : Nat))
  if hi < lo || subnormal c then (rnd f32 .rn x false).1 else c
/-- n ulps of the exact result's FP32 binade (R188). -/
def ulps (x : Dy) (n : Nat) : Dy := ⟨n, x.lg - 23⟩

/-- True for a magnitude that is a power of two. -/
def isPow2 (x : Dy) : Bool := x.m.natAbs == 2 ^ Nat.log2 x.m.natAbs
/-- The result of RCP or EX2 where it overflows or is tiny, and otherwise a value within the bound (R188). -/
def boundedOr (fn : FsfFn) (rm : Rm) (x : Nat) (exact : Dy) (isExact : Bool) (n : Nat) : Nat × Flags :=
  let (c, fl) := rndNZ f32 rm exact
  let tiny := Dy.lt ⟨(roundMag rm (exact.m < 0) exact.m.natAbs (exact.e - (exact.lg - 23)) : Nat), exact.lg - 23⟩
    ⟨1, -126⟩
  if fl &&& fOvf ≠ 0 || tiny then (c, fl)
  else if isExact then ((rnd f32 .rn exact false).1, fNone)
  else (pickWithin fn x exact (ulps exact n), fNone)

/-- FSF on the FP32 code x (R188, R189). -/
def fsf32 (fn : FsfFn) (rm : Rm) (x : Nat) : Nat × Flags :=
  match unpack f32 x with
  | .nan s => nanOp f32 s
  | .inf neg =>
    match fn with
    | .rcp => (withSign f32 neg 0, fNone)
    | .rsq => if neg then (f32.nan, fInv) else (0, fNone)
    | .sqrt => if neg then (f32.nan, fInv) else (infCode f32 false, fNone)
    | .ex2 => if neg then (0, fNone) else (infCode f32 false, fNone)
    | .lg2 => if neg then (f32.nan, fInv) else (infCode f32 false, fNone)
    | .sin | .cos => (f32.nan, fInv)
    | .tanh => (withSign f32 neg 0x3F800000, fNone)
  | .fin neg d =>
    if d.m = 0 then
      match fn with
      | .rcp => (infCode f32 neg, fDz)
      | .rsq => (infCode f32 neg, fDz)
      | .sqrt => (withSign f32 neg 0, fNone)
      | .ex2 => (0x3F800000, fNone)
      | .cos => (pickWithin .cos x ⟨1, 0⟩ ⟨1, -21⟩, fNone)
      | .lg2 => (infCode f32 true, fDz)
      | .sin | .tanh => (withSign f32 neg 0, fNone)
    else
      match fn with
      | .rcp => boundedOr .rcp rm x (quotient neg 1 d.m.natAbs (-d.e)) (isPow2 d) 1
      | .rsq =>
        if neg then (f32.nan, fInv)
        else
          let r := sqrtDy d
          let v := quotient false 1 r.m.natAbs (-r.e)
          (pickWithin .rsq x v (ulps v 2), fNone)
      | .sqrt => if neg then (f32.nan, fInv) else rndNZ f32 rm (sqrtDy d)
      | .ex2 =>
        let isInt := 0 ≤ d.e || d.m % 2 ^ (-d.e).toNat == 0
        if (Dy.ofInt 200).lt d then (overflow f32 rm false, fOvf ||| fInx)
        else if d.lt (Dy.ofInt (-200)) then
          ((if rm = .ru then 1 else 0), fUnf ||| fInx)
        else if isInt then boundedOr .ex2 rm x ⟨1, d.align 0 / (if 0 ≤ d.e then 1 else 2 ^ (-d.e).toNat)⟩ true 2
        else boundedOr .ex2 rm x (ex2Approx d) false 2
      | .lg2 =>
        if neg then (f32.nan, fInv)
        else if isPow2 d && d.lg == 0 then (0, fNone)
        else
          let a := if isPow2 d then Dy.ofInt d.lg else lg2Approx d
          (pickWithin .lg2 x a (if Dy.le ⟨1, -1⟩ d && d.le ⟨1, 1⟩ then ⟨1, -22⟩ else ulps a 2), fNone)
      | .sin =>
        if d.abs.lt ⟨1, -24⟩ then (x % 2 ^ 32, fNone)
        else (pickWithin .sin x (sinCosApprox false d) ⟨1, -21⟩, fNone)
      | .cos => (pickWithin .cos x (sinCosApprox true d) ⟨1, -21⟩, fNone)
      | .tanh =>
        if d.abs.lt ⟨1, -24⟩ then (x % 2 ^ 32, fNone)
        else (pickWithin .tanh x (tanhApprox d) (ulps (tanhApprox d) 2), fNone)

/-- FSF under a type: a 16-bit operand is read exactly, the FP32 result is rounded once to the type (R188, R272). -/
def fsf (fn : FsfFn) (rm : Rm) (ty : Ty) (a : Nat) : Nat × Flags :=
  if ty = .f32 then fsf32 fn rm a
  else
    match unpack (fmtOf ty) a with
    | .nan s => nanOp (fmtOf ty) s
    | v =>
      let (c, fl) := fsf32 fn rm (cvtF f32 .rn v).1
      let (c', fl') := fcvt (fmtOf ty) f32 rm c
      (c', fl ||| fl')

/-! ### Dot products and MX (R275, R276) -/

/-- Elements of a packed register: n codes of w bits. -/
def elems (n w x : Nat) : List Nat := (List.range n).map fun i => x / 2 ^ (w * i) % 2 ^ w
/-- FDOT2 and FDOT4 (R275). -/
def fdot (f : Fmt) (n w : Nat) (rm : Rm) (a b c : Nat) : Nat × Flags :=
  sumRnd f32 rm (some (unpack f32 c) ::
    (List.zipWith (fun x y => prod (unpack f x) (unpack f y)) (elems n w a) (elems n w b)))

/-- The value of an MX element code before its scale (R172). -/
def mxElem (ty : Ty) (code : Nat) : FVal :=
  match ty with
  | .s8 => let v := sext 8 code; .fin (v < 0) ⟨v, -6⟩
  | t => unpack (fmtOf t) code
def mxCount : Ty → Nat | .e2m1 => 8 | _ => 4
def mxWidth : Ty → Nat | .e3m2 | .e2m3 => 6 | .e2m1 => 4 | _ => 8
def scaleV (e : Int) : FVal → FVal | .fin n d => .fin n (d.scale e) | v => v
/-- MXDOT (R276). -/
def mxdot (ty : Ty) (rm : Rm) (ea eb a b : Nat) : Nat × Flags :=
  if ea = 0xFF ∨ eb = 0xFF then (0x7FC00000, fNone)
  else
    let e : Int := (ea : Int) - 127 + ((eb : Int) - 127)
    sumRnd f32 rm (List.zipWith (fun x y => (prod (mxElem ty x) (mxElem ty y)).map (scaleV e))
      (elems (mxCount ty) (mxWidth ty) a) (elems (mxCount ty) (mxWidth ty) b))

/-! ### REDG, SCAN and f32 atomics (R288, R304) -/

/-- The exact f32 sum of codes, rounded once under RNE. -/
def sumF32 (l : List Nat) : Nat := (sumRnd f32 .rn (l.map fun c => some (unpack f32 c))).1

/-! ### The Sifter (R186, R187) -/

/-- Targets of R186. -/
def gridStep : QntTgt → Int
  | .pl m => 1 - (m : Int) | .tern => 0 | .bin => 0 | .mxint8 => -6 | .mx _ => 0
/-- Magnitude code of |x| / 2^(E - 127) on the target's grid, rounded to nearest even and saturated, with its value. -/
def quantMag (t : QntTgt) (u : Dy) : Nat × Dy :=
  match t with
  | .bin => (1, ⟨1, 0⟩)
  | .mx ty =>
    let f := fmtOf ty
    if u.m = 0 then (0, Dy.zero)
    else
      let c := (rndNZ f .rn u).1 % 2 ^ (f.eb + f.mb)
      let c := if f.ieee && f.maxCode < c then f.maxCode else c
      (c, match unpack f c with | .fin _ d => d | _ => Dy.zero)
  | _ =>
    let st := gridStep t
    let hi : Nat := match t with | .pl m => 2 ^ m - 1 | .tern => 1 | _ => 127
    let r := min (roundMag .rn false u.m.natAbs (u.e - st)) hi
    (r, ⟨r, st⟩)
/-- Starting scale offset of R186. -/
def emaxOf : QntTgt → Int
  | .mx .e4m3 => 8 | .mx .e5m2 => 15 | .mx .e3m2 => 4 | .mx .e2m3 => 2 | .mx .e2m1 => 2 | _ => 0

/-- Result of the Sifter: scale byte, per element sign and magnitude code, flags. -/
structure Sifted where
  scale : Nat
  codes : List (Bool × Nat)
  flags : Flags
  deriving DecidableEq, Repr

/-- The error of a scale (R187), exact. -/
def siftErr (t : QntTgt) (xs : List (Bool × Dy)) (e : Int) : Dy :=
  Dy.sum (xs.map fun p =>
    let u := p.2.abs
    let q := (quantMag t (u.scale (127 - e))).2.scale (e - 127)
    let d := u.sub q
    d.mul d)

/-- The scale with the least error; on equal error the larger (R187). -/
def bestScale (t : QntTgt) (xs : List (Bool × Dy)) : List Int → Option (Int × Dy) → Int
  | [], acc => (acc.map (·.1)).getD 0
  | e :: l, none => bestScale t xs l (some (e, siftErr t xs e))
  | e :: l, some (b, eb) =>
    let er := siftErr t xs e
    if er.lt eb || (er.eq eb && b < e) then bestScale t xs l (some (e, er)) else bestScale t xs l (some (b, eb))

/-- The Sifter (R186, R187), with the flags of R187 alone (R178, log 89). -/
def sift (t : QntTgt) (vs : List FVal) : Sifted :=
  if vs.any isNan then ⟨0xFF, vs.map fun _ => (false, 0), fInv⟩
  else
    let ovf := vs.any fun v => match v with | .inf _ => true | _ => false
    let xs : List (Bool × Dy) := vs.map fun v =>
      match v with
      | .inf n => (n, if n then (maxFin f32).neg else maxFin f32)
      | .fin n d => (n, d)
      | .nan _ => (false, Dy.zero)
    let fl := if ovf then fOvf else fNone
    let nz := xs.filter fun p => p.2.m ≠ 0
    match nz with
    | [] => ⟨0, xs.map fun _ => (false, 0), fl⟩
    | p :: l =>
      let lg := l.foldl (fun acc q => max acc q.2.lg) p.2.lg
      let e0 := sat (lg - emaxOf t + 127) 0 0xFE
      let cands := [e0 - 1, e0, e0 + 1].filter fun e => 0 ≤ e && e ≤ 0xFE
      let e := bestScale t xs cands none
      let q := xs.map fun p => (p.1, quantMag t (p.2.abs.scale (127 - e)))
      let exact := (List.zip xs q).all fun z => z.1.2.abs.eq (z.2.2.2.scale (e - 127))
      ⟨e.toNat, q.map fun z => (z.1, z.2.1), if exact then fl else fl ||| fInx⟩

/-! ### Plane values (R63, R64, R76, R77) -/

/-- m of R63 in units of 2^(1 - n): the planes' bits b_1 .. b_k as a list. -/
def planeMag (bs : List Bool) : Dy :=
  ⟨(bs.foldl (fun (acc : Int) b => 2 * acc + (if b then 1 else 0)) 0), 1 - (bs.length : Int)⟩
/-- R63's value as FP32 bits (R64): exact, no flag. -/
def planeVal (neg : Bool) (m : Dy) (k mTot e : Nat) (mid : Bool) : Nat :=
  if e = 0xFF then 0x7FC00000
  else
    let m := if mid && k < mTot then m.add ⟨1, -(k : Int)⟩ else m
    let m := if neg then m.neg else m
    (rnd f32 .rz (m.scale ((e : Int) - 127)) neg).1

/-- The magnitude that a register with a valid tag holds, without its midpoint term (R76, R77). -/
def oldMag (val : Nat) (f : Bool) (k hm hsc : Nat) : Option Dy :=
  match unpack f32 val with
  | .fin _ d =>
    let u := d.abs.scale (127 - (hsc : Int))
    some (if f && k < hm then u.sub ⟨1, -(k : Int)⟩ else u)
  | _ => none
/-- u truncated toward zero to a multiple of 2^(1 - k). -/
def truncTo (u : Dy) (k : Nat) : Dy :=
  ⟨(roundMag .rz false u.m.natAbs (u.e - (1 - (k : Int))) : Nat), 1 - (k : Int)⟩
def isMultiple (u : Dy) (k : Nat) : Bool := (truncTo u k).eq u

/-! ### Matrix array (R172 to R185) -/

/-- A formats of R174. -/
def aWidth (af : Nat) : Nat := -- in half bytes
  if af = 0 then 2 else if af = 1 then 1 else if af = 2 then 8 else if af = 3 ∨ af = 4 then 6
  else if af = 10 then 2 else 4
/-- Element bits in memory of an A format (R167, R170). -/
def aBits (af : Nat) : Nat :=
  if af = 1 ∨ af = 9 ∨ af = 15 then 4 else if af = 2 then 32 else if af = 3 ∨ af = 4 then 16
  else if af = 7 ∨ af = 8 ∨ af = 13 ∨ af = 14 then 6 else 8
def aIsMx (af : Nat) : Bool := 10 ≤ af && af ≤ 15
def aTy (af : Nat) : Ty :=
  if af = 2 then .f32 else if af = 3 then .f16 else if af = 4 then .bf16
  else if af = 5 ∨ af = 11 then .e4m3 else if af = 6 ∨ af = 12 then .e5m2
  else if af = 7 ∨ af = 13 then .e3m2 else if af = 8 ∨ af = 14 then .e2m3
  else if af = 9 ∨ af = 15 then .e2m1 else if af = 10 then .s8 else .s32
/-- The value of an A code with its block's scale applied; none is a NaN block's element (R172, R182). -/
def aVal (af code scale : Nat) : Option Dy :=
  if af = 0 then some (Dy.ofInt (sext 8 code))
  else if af = 1 then some (Dy.ofInt (sext 4 code))
  else if aIsMx af && scale == 0xFF then none
  else
    match mxElem (aTy af) code with
    | .fin _ d => some (if aIsMx af then d.scale ((scale : Int) - 127) else d)
    | _ => none
/-- Alignment of one block of A (R182): the aligned values, none for a NaN block. -/
def alignA (af : Nat) (codes : List Nat) (scale : Nat) : Option (List Dy) :=
  let vs := codes.map fun c => aVal af c scale
  if vs.any Option.isNone || (aIsMx af && scale == 0xFF) then none
  else
    let xs := vs.map fun v => v.getD Dy.zero
    if af = 0 ∨ af = 1 ∨ af = 10 then some xs
    else
      match xs.filter fun x => x.m ≠ 0 with
      | [] => some xs
      | p :: l =>
        let ea := l.foldl (fun acc q => max acc q.lg) p.lg
        let lsb : Int := ea - (4 * (aWidth af : Int) - 2)
        let top : Nat := 2 ^ (4 * aWidth af - 1) - 1
        some (xs.map fun x =>
          let t := min (roundMag .rn false x.m.natAbs (x.e - lsb)) top
          ⟨if x.m < 0 then -(t : Int) else t, lsb⟩)

/-- CRC-32C (R359) of bytes, from a register value. -/
def crcBit : Nat → Nat → Nat
  | 0, r => r
  | n + 1, r => crcBit n (if r % 2 = 1 then (r / 2) ^^^ 0x82F63B78 else r / 2)
def crcByte (r b : Nat) : Nat := crcBit 8 (r ^^^ b)
def crcUpdate (r : Nat) (l : List Byte) : Nat := l.foldl (fun r b => crcByte r b.toNat) r
def crc32c (l : List Byte) : Nat := crcUpdate 0xFFFFFFFF l ^^^ 0xFFFFFFFF

end Sys2Proof.Num
end

