-- ==== Sys2Proof/Decode.lean ====
section
/-! DEFINITION. Instruction words: the layouts of R226 and R227, the decoder over the maps of R240 and R241, and
the encoder over the same tables. Decoding is total: a word that encodes no instruction answers none (ILLOP,
R242 steps 2 to 4). Words are little-endian in memory (R8). -/

namespace Sys2Proof

/-- The fields of word0 and of the extension word. `w22` is word0[21:0], `e27` is E[26:0]. Where X is 0 the
extension word counts as 0x7800_0000 (R228). -/
structure Raw where
  s : Bool
  m : Bool
  x : Bool
  op : Nat
  w22 : Nat
  neg : Bool
  gi : Nat
  e27 : Nat
  deriving DecidableEq, Repr

namespace Raw
def d (r : Raw) : Nat := r.w22 / 32768
def a (r : Raw) : Nat := r.w22 / 256 % 128
def b (r : Raw) : Nat := r.w22 / 2 % 128
def k (r : Raw) : Bool := r.w22 % 2 == 1
def fn (r : Raw) : Nat := r.e27 / 16777216
def tc (r : Raw) : Nat := r.e27 / 1048576 % 16
def c (r : Raw) : Nat := r.e27 / 8192 % 128
def md (r : Raw) : Nat := r.e27 % 8192

/-- The guard of E[31:27] (R229): index 15 is always; 12 to 14 and the rest are refused by `wf`. -/
def gd (r : Raw) : Guard := ⟨r.neg, if r.gi == 15 then none else some r.gi⟩
def hdr (r : Raw) : Hdr := ⟨r.m, r.x, r.gd⟩

/-- Split word0 and the word after it into fields. -/
def ofWords (w0 e : Nat) : Raw :=
  let x := bitOf w0 29
  { s := bitOf w0 31, m := bitOf w0 30, x := x, op := bits w0 28 22, w22 := bits w0 21 0,
    neg := x && bitOf e 31, gi := if x then bits e 30 27 else 15, e27 := if x then bits e 26 0 else 0 }

/-- word0 of the fields (R226). -/
def word0 (r : Raw) : Nat :=
  b2n r.s * 2147483648 + b2n r.m * 1073741824 + b2n r.x * 536870912 + r.op * 4194304 + r.w22
/-- The extension word of the fields (R227). -/
def wordE (r : Raw) : Nat := b2n r.neg * 2147483648 + r.gi * 134217728 + r.e27
end Raw

/-- word0[21:0] from its operand fields (R226). -/
def mkW (d a b : Nat) (k : Bool) : Nat := d * 32768 + a * 256 + b * 2 + b2n k
/-- E[26:0] from its fields (R227). -/
def mkE (fn ty c md : Nat) : Nat := fn * 16777216 + ty * 1048576 + c * 8192 + md

/-- Type codes of R232. -/
def Ty.code : Ty → Nat
  | .s32 => 0 | .z32 => 1 | .s16 => 2 | .z16 => 3 | .s8 => 4 | .z8 => 5 | .w64 => 6 | .w128 => 7
  | .f32 => 8 | .f16 => 9 | .bf16 => 10 | .e4m3 => 11 | .e5m2 => 12 | .e3m2 => 13 | .e2m3 => 14 | .e2m1 => 15
def Ty.ofCode : Nat → Ty
  | 0 => .s32 | 1 => .z32 | 2 => .s16 | 3 => .z16 | 4 => .s8 | 5 => .z8 | 6 => .w64 | 7 => .w128
  | 8 => .f32 | 9 => .f16 | 10 => .bf16 | 11 => .e4m3 | 12 => .e5m2 | 13 => .e3m2 | 14 => .e2m3 | _ => .e2m1
/-- Rounding codes of R175. -/
def Rm.code : Rm → Nat | .rn => 0 | .rz => 1 | .ru => 2 | .rd => 3
def Rm.ofCode : Nat → Rm | 0 => .rn | 1 => .rz | 2 => .ru | _ => .rd
/-- Scope codes of R113. -/
def Scope.code : Scope → Nat
  | .thr => 0 | .grp => 1 | .team => 2 | .clu => 3 | .dev => 4 | .dom => 5 | .sys => 6
def Scope.ofCode : Nat → Option Scope
  | 0 => some .thr | 1 => some .grp | 2 => some .team | 3 => some .clu | 4 => some .dev | 5 => some .dom
  | 6 => some .sys | _ => none
/-- Order codes of R115. -/
def Ord.code : Ord → Nat | .plain => 0 | .sync => 1 | .seq => 2
def Ord.ofCode : Nat → Option Ord | 0 => some .plain | 1 => some .sync | 2 => some .seq | _ => none
/-- Hint codes of R40. -/
def Hint.code : Hint → Nat | .none => 0 | .nl1 => 1 | .evf => 2 | .last => 3
def Hint.ofCode : Nat → Hint | 0 => .none | 1 => .nl1 | 2 => .evf | _ => .last
/-- Condition codes of R233. -/
def Cond.code : Cond → Nat | .eq => 0 | .ne => 1 | .lt => 2 | .le => 3 | .gt => 4 | .ge => 5
def Cond.ofCode : Nat → Option Cond
  | 0 => some .eq | 1 => some .ne | 2 => some .lt | 3 => some .le | 4 => some .gt | 5 => some .ge | _ => none
def FCond.code : FCond → Nat
  | .eq => 0 | .ne => 1 | .lt => 2 | .le => 3 | .gt => 4 | .ge => 5 | .num => 6 | .nan => 7
def FCond.ofCode : Nat → FCond
  | 0 => .eq | 1 => .ne | 2 => .lt | 3 => .le | 4 => .gt | 5 => .ge | 6 => .num | _ => .nan
/-- Saturation codes of R254. -/
def SatF.code : SatF → Nat | .wrap => 0 | .ssat => 1 | .usat => 2
def SatF.ofCode : Nat → Option SatF | 0 => some .wrap | 1 => some .ssat | 2 => some .usat | _ => none
/-- PLOG and UQLOG operations (R267). -/
def LogOp.code : LogOp → Nat | .and => 0 | .or => 1 | .xor => 2
def LogOp.ofCode : Nat → Option LogOp | 0 => some .and | 1 => some .or | 2 => some .xor | _ => none
/-- FSF functions (R272). -/
def FsfFn.code : FsfFn → Nat
  | .rcp => 0 | .rsq => 1 | .sqrt => 2 | .ex2 => 3 | .lg2 => 4 | .sin => 5 | .cos => 6 | .tanh => 7
def FsfFn.ofCode : Nat → FsfFn
  | 0 => .rcp | 1 => .rsq | 2 => .sqrt | 3 => .ex2 | 4 => .lg2 | 5 => .sin | 6 => .cos | _ => .tanh
/-- SHFL modes (R285). -/
def ShflMode.code : ShflMode → Nat | .rot => 0 | .xch => 1 | .bc => 2 | .rev => 3
def ShflMode.ofCode : Nat → Option ShflMode
  | 0 => some .rot | 1 => some .xch | 2 => some .bc | 3 => some .rev | _ => none
/-- VOTE forms (R286). -/
def VoteFn.code : VoteFn → Nat | .and => 0 | .or => 1 | .par => 2 | .mask => 3 | .cnt => 4
def VoteFn.ofCode : Nat → Option VoteFn
  | 0 => some .and | 1 => some .or | 2 => some .par | 3 => some .mask | 4 => some .cnt | _ => none
/-- REDG and SCAN operations (R288). -/
def RedOp.code : RedOp → Nat | .add => 0 | .min => 1 | .max => 2
def RedOp.ofCode : Nat → Option RedOp | 0 => some .add | 1 => some .min | 2 => some .max | _ => none
/-- ELECT choices (R287). -/
def ElectFn.code : ElectFn → Nat | .lo => 0 | .hi => 1 | .rr => 2
def ElectFn.ofCode : Nat → Option ElectFn | 0 => some .lo | 1 => some .hi | 2 => some .rr | _ => none
/-- MOVU forms (R291). -/
def MovuForm.code : MovuForm → Nat | .zx => 0 | .sx => 1 | .lo => 2 | .hi => 3
def MovuForm.ofCode : Nat → Option MovuForm
  | 0 => some .zx | 1 => some .sx | 2 => some .lo | 3 => some .hi | _ => none
/-- Atomic operations (R304). -/
def AtomOp.code : AtomOp → Nat
  | .add => 0 | .min => 1 | .max => 2 | .and => 3 | .or => 4 | .xor => 5 | .exch => 6
def AtomOp.ofCode : Nat → Option AtomOp
  | 0 => some .add | 1 => some .min | 2 => some .max | 3 => some .and | 4 => some .or | 5 => some .xor
  | 6 => some .exch | _ => none
/-- FENCE kinds (R234). -/
def FenceKind.code : FenceKind → Nat | .acq => 0 | .rel => 1 | .acqrel => 2 | .seq => 3
def FenceKind.ofCode : Nat → Option FenceKind
  | 0 => some .acq | 1 => some .rel | 2 => some .acqrel | 3 => some .seq | _ => none
/-- Fill fields (R236). -/
def FillF.code : FillF → Nat | .dflt => 0 | .trunc => 1 | .mid => 2
def FillF.ofCode : Nat → Option FillF | 0 => some .dflt | 1 => some .trunc | 2 => some .mid | _ => none

/-- A signed field of n bits, and its code (R230, R234, R238, R239). -/
def sfield (n : Nat) (v : Int) : Nat := wrapN n v

/-- "w/i" and "g/i" (R230). -/
def Raw.srcB (r : Raw) : Src := if r.k then .imm (sext 7 r.b) else .reg r.b
def Src.fld : Src → Nat | .reg n => n | .imm v => sfield 7 v
def Src.isImm : Src → Bool | .reg _ => false | .imm _ => true
/-- "w/none" (R230): K = 1 means no register, and B must then be 0. -/
def Raw.optB (r : Raw) : Option Nat := if r.k then none else some r.b
def Raw.optBok (r : Raw) : Bool := !r.k || r.b == 0
def optFld : Option Nat → Nat | some n => n | none => 0

/-- Answer the instruction when every unused field is zero (R231). -/
def need (c : Bool) (i : Instr) : Option Instr := if c then some i else none

namespace Raw
/-- Fields not used by a form, each zero. -/
def noX (r : Raw) : Bool := r.e27 == 0
def noW (r : Raw) : Bool := r.w22 == 0
def noDA (r : Raw) : Bool := r.w22 < 256
def noAB (r : Raw) : Bool := r.w22 % 32768 == 0
def noBK (r : Raw) : Bool := r.w22 % 256 == 0
def noCMd (r : Raw) : Bool := r.e27 % 1048576 == 0
def noTCMd (r : Raw) : Bool := r.e27 % 16777216 == 0
def noK (r : Raw) : Bool := !r.k

/-- The E fields of R234, with the offset. -/
def memX (r : Raw) : Option MemX := do
  let o ← Ord.ofCode r.fn
  let s ← Scope.ofCode (r.md / 1024)
  if r.c = 0 then some ⟨o, Ty.ofCode r.tc, s, Hint.ofCode (r.md / 256 % 4), sext 8 (r.md % 256)⟩ else none
/-- LDNF's E fields: C is the validity predicate (R293). -/
def memXc (r : Raw) : Option MemX := do
  let o ← Ord.ofCode r.fn
  let s ← Scope.ofCode (r.md / 1024)
  some ⟨o, Ty.ofCode r.tc, s, Hint.ofCode (r.md / 256 % 4), sext 8 (r.md % 256)⟩
/-- The E fields of an atomic; the low byte is the operation (R304), or zero for CAS and CASS. -/
def atomX (r : Raw) : Option AtomX := do
  let o ← Ord.ofCode r.fn
  let s ← Scope.ofCode (r.md / 1024)
  some ⟨o, Ty.ofCode r.tc, s, Hint.ofCode (r.md / 256 % 4)⟩
/-- The E fields of R235; the bits MD[4:1] belong to FESET and WAITA and are checked by the caller. -/
def feX (r : Raw) : Option FeX := do
  let s ← Scope.ofCode (r.md / 1024)
  let t := r.md % 2 == 1
  if (r.fn % 4 = 0 ∨ r.fn % 4 = 2) ∧ r.tc < 2 ∧ r.md / 32 % 8 = 0 ∧ (t ∨ r.c = 0) then
    some ⟨r.fn % 4 == 2, r.tc == 1, s, Hint.ofCode (r.md / 256 % 4), if t then some r.c else none⟩
  else none
/-- The address operands of R235; K is 0 and A is 0 in the scratchpad form. -/
def feA (r : Raw) : Option FeAddr :=
  if r.k then none
  else if r.fn / 4 % 2 = 0 then some (.glob r.a r.b)
  else if r.a = 0 then some (.spad r.b) else none
/-- Order, scope and hint of a plane access (R236). -/
def plX (r : Raw) : Option PlX := do
  let o ← Ord.ofCode r.fn
  let s ← Scope.ofCode (r.md / 1024)
  some ⟨o, s, Hint.ofCode (r.md / 256 % 4)⟩
/-- The E fields of an engine form (R237). -/
def engX (r : Raw) : Option EngX :=
  if r.e27 < 8192 ∧ r.md % 2 = 0 ∧ (bitOf r.md 1 ∨ r.md / 4 % 8 = 0) then
    some ⟨r.md / 32, if bitOf r.md 1 then some (r.md / 4 % 8) else none⟩
  else none
/-- A branch's word offset (R226): bit 0 is zero. -/
def off21 (r : Raw) : Int := sext 21 (r.w22 / 2)
def off21ok (r : Raw) : Bool := r.w22 % 2 == 0
end Raw

namespace Decode
open Raw

/-- Lane opcodes 0x00 to 0x0F (R240, R254, R259 to R261). -/
def lane0 (r : Raw) : Option Instr :=
  let h := r.hdr
  let ty := Ty.ofCode r.tc
  match r.op with
  | 0x00 => need (r.noW && r.noX) (.nop h)
  | 0x01 => (SatF.ofCode r.fn).bind fun f => need r.noCMd (.add h f ty r.d r.a r.srcB)
  | 0x02 => (SatF.ofCode r.fn).bind fun f => need r.noCMd (.sub h f ty r.d r.a r.srcB)
  | 0x03 => (SatF.ofCode r.fn).bind fun f => need r.noCMd (.mul h f ty r.d r.a r.srcB)
  | 0x04 => need (r.fn == 0 && r.noCMd) (.mulh h ty r.d r.a r.srcB)
  | 0x05 => (SatF.ofCode r.fn).bind fun f => need (r.md == 0) (.mad h f ty r.d r.a r.srcB r.c)
  | 0x06 => need (r.fn == 0 && r.noCMd) (.div h ty r.d r.a r.srcB)
  | 0x07 => need (r.fn == 0 && r.noCMd) (.rem h ty r.d r.a r.srcB)
  | 0x08 => need (r.fn == 0 && r.noCMd) (.min h ty r.d r.a r.srcB)
  | 0x09 => need (r.fn == 0 && r.noCMd) (.max h ty r.d r.a r.srcB)
  | 0x0A => need (r.fn < 2 && r.noCMd && r.noBK) (.abs h (r.fn == 1) ty r.d r.a)
  | 0x0B => need r.noAB (.li h r.d (sext 27 r.e27))
  | 0x0C => need (r.noAB && r.e27 / 65536 == 1) (.lih h r.d (r.e27 % 65536))
  | 0x0D => need (r.fn == 0 && r.noCMd && r.noBK) (.mov h ty r.d r.a)
  | 0x0E => need (r.fn == 0 && r.tc == 0 && r.md == 0) (.sel h r.d r.a r.srcB r.c)
  | 0x0F => (Cond.ofCode r.fn).bind fun cc => need r.noCMd (.setp h cc ty r.d r.a r.srcB)
  | _ => none

/-- Lane opcodes 0x10 to 0x1F (R262 to R268). -/
def lane1 (r : Raw) : Option Instr :=
  let h := r.hdr
  match r.op with
  | 0x10 => need r.noX (.and h r.d r.a r.srcB)
  | 0x11 => need r.noX (.or h r.d r.a r.srcB)
  | 0x12 => need r.noX (.xor h r.d r.a r.srcB)
  | 0x13 => need r.noX (.andn h r.d r.a r.srcB)
  | 0x14 => need r.noX (.shl h r.d r.a r.srcB)
  | 0x15 => need r.noX (.shr h r.d r.a r.srcB)
  | 0x16 => need r.noX (.sar h r.d r.a r.srcB)
  | 0x17 => need (r.fn < 2 && r.tc == 0 && r.md == 0) (.shf h (r.fn == 1) r.d r.a r.srcB r.c)
  | 0x18 => need (r.fn < 2 && r.tc == 0 && r.c == 0 && r.md < 64) (.bfx h (r.fn == 1) r.d r.a r.srcB r.md)
  | 0x19 => need (r.fn < 2 && r.tc == 0 && r.c == 0 && r.md < 64) (.bfi h (r.fn == 1) r.d r.a r.srcB r.md)
  | 0x1A => need (r.noX && r.noBK) (.popc h r.d r.a)
  | 0x1B => need (r.noX && r.noBK) (.clz h r.d r.a)
  | 0x1C => need (r.noX && r.noBK) (.brev h r.d r.a)
  | 0x1D => need (r.fn == 0 && r.tc == 0 && r.md == 0 && r.noK) (.prmt h r.d r.a r.b r.c)
  | 0x1E => (LogOp.ofCode r.fn).bind fun o =>
      need (r.tc == 0 && r.c == 0 && r.md < 4 && r.noK) (.plog h o (r.md % 2 == 1) (r.md / 2 == 1) r.d r.a r.b)
  | 0x1F =>
      if r.fn = 0 then need (r.noTCMd && r.noAB) (.pmovSave h r.d)
      else need (r.fn == 1 && r.noTCMd && r.d == 0 && r.noBK) (.pmovLoad h r.a)
  | _ => none

/-- Lane opcodes 0x20 to 0x2F (R269 to R280). -/
def lane2 (r : Raw) : Option Instr :=
  let h := r.hdr
  let ty := Ty.ofCode r.tc
  let rm := Rm.ofCode r.md
  let f2 := r.fn == 0 && r.c == 0 && r.noK
  let f3 := r.fn == 0 && r.noK
  match r.op with
  | 0x20 => need (f2 && r.md < 4) (.fadd h rm ty r.d r.a r.b)
  | 0x21 => need (f2 && r.md < 4) (.fsub h rm ty r.d r.a r.b)
  | 0x22 => need (f2 && r.md < 4) (.fmul h rm ty r.d r.a r.b)
  | 0x23 => need (f3 && r.md < 4) (.ffma h rm ty r.d r.a r.b r.c)
  | 0x24 => need (f2 && r.md == 0) (.fmin h ty r.d r.a r.b)
  | 0x25 => need (f2 && r.md == 0) (.fmax h ty r.d r.a r.b)
  | 0x26 => need (r.noCMd && r.noK) (.fsetp h (FCond.ofCode r.fn) ty r.d r.a r.b)
  | 0x27 => need (r.c == 0 && r.md < 4 && r.noBK) (.fsf h (FsfFn.ofCode r.fn) rm ty r.d r.a)
  | 0x28 => need (r.c == 0 && r.md < 4 && r.noBK) (.fcvt h rm ty (Ty.ofCode (r.fn + 8)) r.d r.a)
  | 0x29 => need (r.c == 0 && r.md < 4 && r.noBK) (.icvt h rm (r.fn / 4 == 1) ty (Ty.ofCode (r.fn % 4 + 8)) r.d r.a)
  | 0x2A => need (f3 && r.md < 4) (.fdot2 h rm ty r.d r.a r.b r.c)
  | 0x2B => need (f3 && r.md < 4) (.fdot4 h rm ty r.d r.a r.b r.c)
  | 0x2C => need (f3 && r.md < 64)
      (.mxdot h (Rm.ofCode (r.md / 4 % 4)) ty (r.md % 4) (r.md / 16) r.d r.a r.b r.c)
  | 0x2D =>
      if r.c == 0 && r.md < 16 && r.noBK then
        if r.tc = 0 then
          if r.fn = 0 then some (.qnt h (.pl r.md) r.d r.a)
          else if r.fn = 1 then need (r.md == 0) (.qnt h .tern r.d r.a)
          else need (r.fn == 2 && r.md == 0) (.qnt h .bin r.d r.a)
        else if r.tc = 4 then need (r.fn == 0 && r.md == 0) (.qnt h .mxint8 r.d r.a)
        else need (r.fn == 0 && r.md == 0) (.qnt h (.mx ty) r.d r.a)
      else none
  | 0x2E => need r.noCMd (.pack h ty r.fn r.d r.a r.srcB)
  | 0x2F => need (r.fn == 0 && r.noCMd) (.unpk h ty r.d r.a r.srcB)
  | _ => none

/-- Lane opcodes 0x30 to 0x3F (R281 to R291). -/
def lane3 (r : Raw) : Option Instr :=
  let h := r.hdr
  let ty := Ty.ofCode r.tc
  let rm := Rm.ofCode r.md
  match r.op with
  | 0x30 => need (r.fn < 2 && r.noCMd && r.noK) (.vadd2 h (r.fn == 1) ty r.d r.a r.b)
  | 0x31 => need (r.fn < 2 && r.noCMd && r.noK) (.vsub2 h (r.fn == 1) ty r.d r.a r.b)
  | 0x32 => need (r.fn == 0 && r.noCMd && r.noK) (.vmax2 h ty r.d r.a r.b)
  | 0x33 => need (r.fn == 0 && r.noCMd && r.noK) (.vmin2 h ty r.d r.a r.b)
  | 0x34 => (Cond.ofCode r.fn).bind fun cc => need (r.noCMd && r.noK) (.vcmp2 h cc ty r.d r.a r.b)
  | 0x35 => need (r.fn == 0 && r.c == 0 && r.md < 4 && r.noK) (.hadd2 h rm ty r.d r.a r.b)
  | 0x36 => need (r.fn == 0 && r.c == 0 && r.md < 4 && r.noK) (.hmul2 h rm ty r.d r.a r.b)
  | 0x37 => need (r.fn == 0 && r.md < 4 && r.noK) (.hfma2 h rm ty r.d r.a r.b r.c)
  | 0x38 => (ShflMode.ofCode r.fn).bind fun m =>
      need (r.tc == 0 && r.c == 0 && r.md < 8) (.shfl h m r.md r.d r.a r.srcB)
  | 0x39 => (VoteFn.ofCode r.fn).bind fun f => need (r.noTCMd && r.noBK) (.vote h f r.d r.a)
  | 0x3A => (RedOp.ofCode (r.fn % 4)).bind fun o =>
      need (r.noCMd && r.noBK) (.redg h (r.fn / 4 == 1) o ty r.d r.a)
  | 0x3B => (RedOp.ofCode (r.fn % 4)).bind fun o =>
      need (r.c == 0 && r.md < 2 && r.noBK) (.scan h (r.fn / 4 == 1) o (r.md == 1) ty r.d r.a)
  | 0x3C => (ElectFn.ofCode r.fn).bind fun f => need (r.noTCMd && r.noAB) (.elect h f r.d)
  | 0x3D => need (r.noX && r.noBK) (.movs h r.d r.a)
  | 0x3E => need (r.fn < 2 && r.noTCMd && r.noBK) (.movg h (r.fn == 1) r.d r.a)
  | 0x3F => (MovuForm.ofCode r.fn).bind fun f => need r.noTCMd (.movu h f r.d r.a r.srcB)
  | _ => none

/-- Lane opcodes 0x40 to 0x4F (R293, R304, R234, R235). -/
def lane4 (r : Raw) : Option Instr :=
  let h := r.hdr
  match r.op with
  | 0x40 => r.memX.bind fun x => need r.optBok (.ld h x r.d r.a r.optB)
  | 0x41 => r.memX.bind fun x => need r.optBok (.st h x r.d r.a r.optB)
  | 0x42 => r.memX.bind fun x => need (r.a == 0 && r.noK) (.lds h x r.d r.b)
  | 0x43 => r.memX.bind fun x => need (r.a == 0 && r.noK) (.sts h x r.d r.b)
  | 0x44 => r.memX.bind fun x => need (r.a == 0 && r.noK) (.ldl h x r.d r.b)
  | 0x45 => r.memX.bind fun x => need (r.a == 0 && r.noK) (.stl h x r.d r.b)
  | 0x46 => r.memXc.bind fun x => need r.optBok (.ldnf h x r.d r.a r.optB r.c)
  | 0x47 => need (r.e27 < 1024 && r.d == 0 && r.optBok)
      (.pref h (Hint.ofCode (r.md / 256)) (sext 8 (r.md % 256)) r.a r.optB)
  | 0x48 => r.atomX.bind fun x => (AtomOp.ofCode (r.md % 256)).bind fun o =>
      need r.optBok (.atom h o x r.d r.a r.optB r.c)
  | 0x49 => r.atomX.bind fun x => (AtomOp.ofCode (r.md % 256)).bind fun o =>
      need (r.a == 0 && r.noK) (.atoms h o x r.d r.b r.c)
  | 0x4A => r.atomX.bind fun x => need (r.md % 256 == 0 && r.optBok) (.cas h x r.d r.a r.optB r.c)
  | 0x4B => r.atomX.bind fun x => need (r.md % 256 == 0 && r.a == 0 && r.noK) (.cass h x r.d r.b r.c)
  | 0x4C => r.atomX.bind fun x => (AtomOp.ofCode (r.md % 256)).bind fun o =>
      need (r.c == 0 && r.optBok) (.red h o x r.d r.a r.optB)
  | 0x4D => (FenceKind.ofCode r.fn).bind fun f => (Scope.ofCode (r.md / 1024)).bind fun s =>
      need (r.noW && r.tc == 0 && r.c == 0 && r.md % 1024 == 0) (.fence h f s)
  | 0x4E => r.feX.bind fun x => r.feA.bind fun ad => (Cond.ofCode (r.md / 2 % 8)).bind fun cc =>
      need (!bitOf r.md 4) (.waita h cc x r.d ad)
  | 0x4F => need (r.e27 < 256 && r.d == 0 && r.optBok) (.pgreq h (sext 8 r.md) r.a r.optB)
  | _ => none

/-- Lane opcodes 0x50 to 0x67 (R235, R236, R309, R313). -/
def lane5 (r : Raw) : Option Instr :=
  let h := r.hdr
  let mid := r.md / 2 % 16 == 0
  match r.op with
  | 0x50 => r.feX.bind fun x => r.feA.bind fun ad => need mid (.ldwf h x r.d ad)
  | 0x51 => r.feX.bind fun x => r.feA.bind fun ad => need mid (.ldce h x r.d ad)
  | 0x52 => r.feX.bind fun x => r.feA.bind fun ad => need mid (.stwe h x r.d ad)
  | 0x53 => r.feX.bind fun x => r.feA.bind fun ad => need mid (.stfs h x r.d ad)
  | 0x54 => r.feX.bind fun x => r.feA.bind fun ad => need mid (.feget h x r.d ad)
  | 0x55 => r.feX.bind fun x => r.feA.bind fun ad =>
      if bitOf r.md 4 then need (r.d == 0 && r.md / 2 % 8 == 0) (.fesetFull h x ad)
      else need (r.d == 0 && mid) (.fesetEmpty h x ad)
  | 0x60 => r.plX.bind fun x => (FillF.ofCode (r.md / 16 % 16)).bind fun f =>
      need (r.tc == 0 && r.c == 0 && r.noK) (.pld h x (r.md % 16) f r.d r.a r.b)
  | 0x61 => r.plX.bind fun x => (FillF.ofCode (r.md / 16 % 16)).bind fun f =>
      need (r.tc == 0 && r.noK) (.prf h x (r.md % 16) f r.d r.a r.b r.c)
  | 0x62 =>
      if r.fn = 0 then need (r.noTCMd && r.noBK) (.ptagGet h r.d r.a)
      else need (r.fn == 1 && r.noTCMd && r.noBK) (.ptagSet h r.d r.a)
  | 0x63 => (FillF.ofCode (r.md / 16)).bind fun f =>
      need (r.fn == 0 && r.tc == 0 && r.c == 0 && r.noAB) (.ptrim h (r.md % 16) f r.d)
  | 0x64 => r.plX.bind fun x =>
      need (r.tc == 0 && r.c == 0 && r.md % 256 == 0 && r.noK) (.pst h x r.d r.a r.b)
  | _ => none

/-- Lane opcodes 0x68 to 0x7F (R238, R237, R335). -/
def lane6 (r : Raw) : Option Instr :=
  let h := r.hdr
  let n := r.noX
  match r.op with
  | 0x68 => need (n && r.off21ok) (.bra h r.off21)
  | 0x69 => need (n && r.off21ok) (.call h r.off21)
  | 0x6A => need (n && r.noW) (.ret h)
  | 0x6B => need (n && r.d == 0 && r.noBK) (.jmpr h r.a)
  | 0x6C => need (n && r.noW) (.exit h)
  | 0x6D => need (n && r.noDA && r.k) (.trap h (sext 7 r.b))
  | 0x6E => need (n && r.noW) (.bkpt h)
  | 0x6F => need (n && r.noW) (.yield h)
  | 0x70 => r.engX.bind fun x => need (r.noDA && r.noK) (.mma h x r.b)
  | 0x71 => r.engX.bind fun x => need (r.d == 0 && r.optBok) (.pcopy h x r.a r.optB)
  | 0x72 => r.engX.bind fun x => need (r.d == 0 && r.optBok) (.slice h x r.a r.optB)
  | 0x73 => need (n && r.noBK) (.launch h r.d r.a)
  | 0x74 => need (n && r.optBok) (.sqapp h r.d r.a r.optB)
  | 0x75 => need (n && r.optBok) (.sqret h r.d r.a r.optB)
  | 0x76 => need (n && r.optBok) (.sqfork h r.d r.a r.optB)
  | 0x77 => need (n && r.optBok) (.sqlook h r.d r.a r.optB)
  | 0x78 => need (n && r.a == 0) (.engst h r.d r.srcB)
  | 0x79 => need (n && r.noBK) (.mft h r.d r.a)
  | 0x7A => need (n && r.noBK) (.mtt h r.d r.a)
  | 0x7B => need (n && r.noW) (.tret h)
  | _ => none

/-- Uniform opcodes 0x00 to 0x15 (R241, R327 to R331). -/
def uni0 (r : Raw) : Option Instr :=
  let h := r.hdr
  let u := r.tc == 1
  let t := r.fn == 0 && r.tc < 2 && r.noCMd
  match r.op with
  | 0x00 => need (r.noW && r.noX) (.unop h)
  | 0x01 => need t (.uadd h u r.d r.a r.srcB)
  | 0x02 => need t (.usub h u r.d r.a r.srcB)
  | 0x03 => need t (.umul h u r.d r.a r.srcB)
  | 0x04 => need (r.fn == 0 && r.tc < 2 && r.md == 0) (.umad h u r.d r.a r.srcB r.c)
  | 0x05 => need t (.uand h u r.d r.a r.srcB)
  | 0x06 => need t (.uor h u r.d r.a r.srcB)
  | 0x07 => need t (.uxor h u r.d r.a r.srcB)
  | 0x08 => need t (.ushl h u r.d r.a r.srcB)
  | 0x09 => need t (.ushr h u r.d r.a r.srcB)
  | 0x0A => need t (.usar h u r.d r.a r.srcB)
  | 0x0B => need t (.umin h u r.d r.a r.srcB)
  | 0x0C => need t (.umax h u r.d r.a r.srcB)
  | 0x0D => need r.noAB (.uli h r.d (sext 27 r.e27))
  | 0x0E => need (r.noAB && r.e27 / 65536 < 4) (.ulih h r.d (r.e27 / 65536) (r.e27 % 65536))
  | 0x0F => need (t && r.noBK) (.umov h u r.d r.a)
  | 0x10 => (Cond.ofCode r.fn).bind fun cc => need (r.tc < 2 && r.noCMd) (.usetq h cc u r.d r.a r.srcB)
  | 0x11 => need (r.fn == 0 && r.tc == 0 && r.md == 0) (.usel h r.d r.a r.srcB r.c)
  | 0x12 => (LogOp.ofCode r.fn).bind fun o =>
      need (r.tc == 0 && r.c == 0 && r.md < 4 && r.noK) (.uqlog h o (r.md % 2 == 1) (r.md / 2 == 1) r.d r.a r.b)
  | 0x13 => need (r.noX && r.noBK) (.umovs h r.d r.a)
  | 0x14 => need (r.fn < 2 && r.tc == 0 && r.c == 0 && r.md < 128) (.ubfx h (r.fn == 1) r.d r.a r.srcB r.md)
  | 0x15 => need (t && r.noBK) (.upopc h u r.d r.a)
  | _ => none

/-- Uniform opcodes 0x20 to 0x7F (R241). -/
def uni1 (r : Raw) : Option Instr :=
  let h := r.hdr
  let n := r.noX
  match r.op with
  | 0x20 => need (n && r.off21ok) (.ubra h r.off21)
  | 0x21 => need (r.fn == 0 && r.tc == 0 && r.md == 0 && r.off21ok) (.uloop h r.off21 r.c)
  | 0x22 => need (n && r.d == 0 && r.noBK) (.ujmpr h r.a)
  | 0x30 => need (n && r.d == 0 && r.noBK) (.bar h r.a)
  | 0x31 => need (n && r.d == 0 && r.noBK) (.bara h r.a)
  | 0x32 => need (n && r.d == 0 && r.noBK) (.barw h r.a)
  | 0x33 => need (r.noW && r.e27 < 256) (.dwait h r.e27)
  | 0x34 => need (n && r.noW) (.racq h)
  | 0x35 => need (n && r.noW) (.rrel h)
  | 0x36 => need (n && r.noDA) (.usleep h r.srcB)
  | 0x40 => r.memX.bind fun x => need r.noBK (.uld h x r.d r.a)
  | 0x41 => r.memX.bind fun x => need r.noBK (.ust h x r.d r.a)
  | 0x42 => r.memX.bind fun x => need r.noBK (.ulds h x r.d r.a)
  | 0x43 => r.memX.bind fun x => need r.noBK (.usts h x r.d r.a)
  | 0x70 => need (n && r.d == 0 && r.noBK) (.tflsh h r.a)
  | 0x71 => need (n && r.d == 0 && r.noBK) (.tdrn h r.a)
  | 0x72 => need (n && r.noDA && r.k && r.b < 64) (.csplit h r.b)
  | _ => none

/-- The instruction whose layout the fields follow, before the operand checks of `Instr.wf`. -/
def cand (r : Raw) : Option Instr :=
  if r.s then
    if r.op < 0x20 then uni0 r else uni1 r
  else if r.op < 0x10 then lane0 r
  else if r.op < 0x20 then lane1 r
  else if r.op < 0x30 then lane2 r
  else if r.op < 0x40 then lane3 r
  else if r.op < 0x50 then lane4 r
  else if r.op < 0x68 then lane5 r
  else lane6 r

end Decode

/-- Steps 2 to 4 of R242 on the fields: none is ILLOP. -/
def decodeRaw (r : Raw) : Option Instr :=
  match Decode.cand r with
  | some i => if i.wf then some i else none
  | none => none

/-- The instruction that word0 and the word after it encode. -/
def decodeWords (w0 e : Nat) : Option Instr := decodeRaw (Raw.ofWords w0 e)

/-- Bytes of an instruction with word0 `w0` (R224). -/
def instrLen (w0 : Nat) : Nat := if bitOf w0 29 then 8 else 4

/-- A little-endian value of bytes (R8). -/
def leNat : List Byte → Nat
  | [] => 0
  | x :: l => x.toNat + 256 * leNat l
/-- The `n` little-endian bytes of a value (R8). -/
def leBytes : Nat → Nat → List Byte
  | 0, _ => []
  | n + 1, v => BitVec.ofNat 8 v :: leBytes n (v / 256)

/-- Decode the bytes at a program counter: the instruction and the bytes after it. Bytes that end early count as
zero, and are none's affair: `step` fetches what R224 asks for. -/
def decode (l : List Byte) : Option (Instr × List Byte) :=
  match decodeWords (leNat (l.take 4)) (leNat ((l.drop 4).take 4)) with
  | some i => some (i, l.drop (instrLen (leNat (l.take 4))))
  | none => none

/-- The decoder on an instruction of the opcode table: bit 0 is the least significant bit of word0, E follows at
bit 32, and bits above `nbits` are zero. -/
def decodeTableWord (nbits w : Nat) : Option Instr :=
  match decode (leBytes 8 (w % 2 ^ nbits)) with
  | some (i, _) => some i
  | none => none

/-! The encoder. -/

namespace Encode

/-- Fields of a lane (s = false) or uniform (s = true) instruction. -/
def mk (s : Bool) (h : Hdr) (op w22 e27 : Nat) : Raw :=
  { s := s, m := h.m, x := h.x, op := op, w22 := w22, neg := h.gd.neg, gi := h.gd.idx.getD 15, e27 := e27 }

def memMd (s : Scope) (h : Hint) (low : Nat) : Nat := s.code * 1024 + h.code * 256 + low
def memE (x : MemX) (c : Nat) : Nat := mkE x.ord.code x.ty.code c (memMd x.scope x.hint (sfield 8 x.off))
def atomE (x : AtomX) (c low : Nat) : Nat := mkE x.ord.code x.ty.code c (memMd x.scope x.hint low)
def optW (d a : Nat) (b : Option Nat) : Nat := mkW d a (optFld b) b.isNone
def srcW (d a : Nat) (b : Src) : Nat := mkW d a b.fld b.isImm
def feSp : FeAddr → Nat | .glob _ _ => 0 | .spad _ => 4
def feW (d : Nat) : FeAddr → Nat | .glob a b => mkW d a b false | .spad b => mkW d 0 b false
/-- E of a full/empty form; `mid` is MD[4:1] (R235). -/
def feE (x : FeX) (ad : FeAddr) (mid : Nat) : Nat :=
  mkE (feSp ad + (if x.seq then 2 else 0)) (b2n x.zty) (x.try?.getD 0)
    (memMd x.scope x.hint (mid * 2 + b2n x.try?.isSome))
def engE (x : EngX) : Nat := x.mask * 32 + (match x.set? with | some n => n * 4 + 2 | none => 0)
def plE (x : PlX) (c low : Nat) : Nat := mkE x.ord.code 0 c (memMd x.scope x.hint low)
def qntE : QntTgt → Nat
  | .pl m => mkE 0 0 0 m | .tern => mkE 1 0 0 0 | .bin => mkE 2 0 0 0
  | .mxint8 => mkE 0 4 0 0 | .mx ty => mkE 0 ty.code 0 0
def ubit (u : Bool) : Nat := mkE 0 (b2n u) 0 0
def offW (o : Int) : Nat := sfield 21 o * 2

end Encode

open Encode in
/-- The fields that encode an instruction (R226, R227, R240, R241); an event has none. -/
def toRaw : Instr → Option Raw
  | .nop h => some (mk false h 0x00 0 0)
  | .add h f ty d a b => some (mk false h 0x01 (srcW d a b) (mkE f.code ty.code 0 0))
  | .sub h f ty d a b => some (mk false h 0x02 (srcW d a b) (mkE f.code ty.code 0 0))
  | .mul h f ty d a b => some (mk false h 0x03 (srcW d a b) (mkE f.code ty.code 0 0))
  | .mulh h ty d a b => some (mk false h 0x04 (srcW d a b) (mkE 0 ty.code 0 0))
  | .mad h f ty d a b c => some (mk false h 0x05 (srcW d a b) (mkE f.code ty.code c 0))
  | .div h ty d a b => some (mk false h 0x06 (srcW d a b) (mkE 0 ty.code 0 0))
  | .rem h ty d a b => some (mk false h 0x07 (srcW d a b) (mkE 0 ty.code 0 0))
  | .min h ty d a b => some (mk false h 0x08 (srcW d a b) (mkE 0 ty.code 0 0))
  | .max h ty d a b => some (mk false h 0x09 (srcW d a b) (mkE 0 ty.code 0 0))
  | .abs h t ty d a => some (mk false h 0x0A (mkW d a 0 false) (mkE (b2n t) ty.code 0 0))
  | .li h d v => some (mk false h 0x0B (mkW d 0 0 false) (sfield 27 v))
  | .lih h d v => some (mk false h 0x0C (mkW d 0 0 false) (65536 + v))
  | .mov h ty d a => some (mk false h 0x0D (mkW d a 0 false) (mkE 0 ty.code 0 0))
  | .sel h d a b c => some (mk false h 0x0E (srcW d a b) (mkE 0 0 c 0))
  | .setp h cc ty d a b => some (mk false h 0x0F (srcW d a b) (mkE cc.code ty.code 0 0))
  | .and h d a b => some (mk false h 0x10 (srcW d a b) 0)
  | .or h d a b => some (mk false h 0x11 (srcW d a b) 0)
  | .xor h d a b => some (mk false h 0x12 (srcW d a b) 0)
  | .andn h d a b => some (mk false h 0x13 (srcW d a b) 0)
  | .shl h d a b => some (mk false h 0x14 (srcW d a b) 0)
  | .shr h d a b => some (mk false h 0x15 (srcW d a b) 0)
  | .sar h d a b => some (mk false h 0x16 (srcW d a b) 0)
  | .shf h l d a b c => some (mk false h 0x17 (srcW d a b) (mkE (b2n l) 0 c 0))
  | .bfx h sx d a b l => some (mk false h 0x18 (srcW d a b) (mkE (b2n sx) 0 0 l))
  | .bfi h f1 d a b l => some (mk false h 0x19 (srcW d a b) (mkE (b2n f1) 0 0 l))
  | .popc h d a => some (mk false h 0x1A (mkW d a 0 false) 0)
  | .clz h d a => some (mk false h 0x1B (mkW d a 0 false) 0)
  | .brev h d a => some (mk false h 0x1C (mkW d a 0 false) 0)
  | .prmt h d a b c => some (mk false h 0x1D (mkW d a b false) (mkE 0 0 c 0))
  | .plog h o na nb d a b => some (mk false h 0x1E (mkW d a b false) (mkE o.code 0 0 (b2n na + 2 * b2n nb)))
  | .pmovSave h d => some (mk false h 0x1F (mkW d 0 0 false) 0)
  | .pmovLoad h a => some (mk false h 0x1F (mkW 0 a 0 false) (mkE 1 0 0 0))
  | .fadd h rm ty d a b => some (mk false h 0x20 (mkW d a b false) (mkE 0 ty.code 0 rm.code))
  | .fsub h rm ty d a b => some (mk false h 0x21 (mkW d a b false) (mkE 0 ty.code 0 rm.code))
  | .fmul h rm ty d a b => some (mk false h 0x22 (mkW d a b false) (mkE 0 ty.code 0 rm.code))
  | .ffma h rm ty d a b c => some (mk false h 0x23 (mkW d a b false) (mkE 0 ty.code c rm.code))
  | .fmin h ty d a b => some (mk false h 0x24 (mkW d a b false) (mkE 0 ty.code 0 0))
  | .fmax h ty d a b => some (mk false h 0x25 (mkW d a b false) (mkE 0 ty.code 0 0))
  | .fsetp h cc ty d a b => some (mk false h 0x26 (mkW d a b false) (mkE cc.code ty.code 0 0))
  | .fsf h f rm ty d a => some (mk false h 0x27 (mkW d a 0 false) (mkE f.code ty.code 0 rm.code))
  | .fcvt h rm dst src d a => some (mk false h 0x28 (mkW d a 0 false) (mkE (src.code - 8) dst.code 0 rm.code))
  | .icvt h rm toF ity fty d a =>
      some (mk false h 0x29 (mkW d a 0 false) (mkE (b2n toF * 4 + (fty.code - 8)) ity.code 0 rm.code))
  | .fdot2 h rm ty d a b c => some (mk false h 0x2A (mkW d a b false) (mkE 0 ty.code c rm.code))
  | .fdot4 h rm ty d a b c => some (mk false h 0x2B (mkW d a b false) (mkE 0 ty.code c rm.code))
  | .mxdot h rm ty sa sb d a b c =>
      some (mk false h 0x2C (mkW d a b false) (mkE 0 ty.code c (sa + rm.code * 4 + sb * 16)))
  | .qnt h t d a => some (mk false h 0x2D (mkW d a 0 false) (qntE t))
  | .pack h ty sl d a b => some (mk false h 0x2E (srcW d a b) (mkE sl ty.code 0 0))
  | .unpk h ty d a b => some (mk false h 0x2F (srcW d a b) (mkE 0 ty.code 0 0))
  | .vadd2 h t ty d a b => some (mk false h 0x30 (mkW d a b false) (mkE (b2n t) ty.code 0 0))
  | .vsub2 h t ty d a b => some (mk false h 0x31 (mkW d a b false) (mkE (b2n t) ty.code 0 0))
  | .vmax2 h ty d a b => some (mk false h 0x32 (mkW d a b false) (mkE 0 ty.code 0 0))
  | .vmin2 h ty d a b => some (mk false h 0x33 (mkW d a b false) (mkE 0 ty.code 0 0))
  | .vcmp2 h cc ty d a b => some (mk false h 0x34 (mkW d a b false) (mkE cc.code ty.code 0 0))
  | .hadd2 h rm ty d a b => some (mk false h 0x35 (mkW d a b false) (mkE 0 ty.code 0 rm.code))
  | .hmul2 h rm ty d a b => some (mk false h 0x36 (mkW d a b false) (mkE 0 ty.code 0 rm.code))
  | .hfma2 h rm ty d a b c => some (mk false h 0x37 (mkW d a b false) (mkE 0 ty.code c rm.code))
  | .shfl h m seg d a b => some (mk false h 0x38 (srcW d a b) (mkE m.code 0 0 seg))
  | .vote h f d a => some (mk false h 0x39 (mkW d a 0 false) (mkE f.code 0 0 0))
  | .redg h g o ty d a => some (mk false h 0x3A (mkW d a 0 false) (mkE (o.code + 4 * b2n g) ty.code 0 0))
  | .scan h g o ex ty d a => some (mk false h 0x3B (mkW d a 0 false) (mkE (o.code + 4 * b2n g) ty.code 0 (b2n ex)))
  | .elect h f d => some (mk false h 0x3C (mkW d 0 0 false) (mkE f.code 0 0 0))
  | .movs h d sc => some (mk false h 0x3D (mkW d sc 0 false) 0)
  | .movg h hi d a => some (mk false h 0x3E (mkW d a 0 false) (mkE (b2n hi) 0 0 0))
  | .movu h f d a b => some (mk false h 0x3F (srcW d a b) (mkE f.code 0 0 0))
  | .ld h x d a b => some (mk false h 0x40 (optW d a b) (memE x 0))
  | .st h x d a b => some (mk false h 0x41 (optW d a b) (memE x 0))
  | .lds h x d b => some (mk false h 0x42 (mkW d 0 b false) (memE x 0))
  | .sts h x d b => some (mk false h 0x43 (mkW d 0 b false) (memE x 0))
  | .ldl h x d b => some (mk false h 0x44 (mkW d 0 b false) (memE x 0))
  | .stl h x d b => some (mk false h 0x45 (mkW d 0 b false) (memE x 0))
  | .ldnf h x d a b c => some (mk false h 0x46 (optW d a b) (memE x c))
  | .pref h hi o a b => some (mk false h 0x47 (optW 0 a b) (memMd .thr hi (sfield 8 o)))
  | .atom h o x d a b c => some (mk false h 0x48 (optW d a b) (atomE x c o.code))
  | .atoms h o x d b c => some (mk false h 0x49 (mkW d 0 b false) (atomE x c o.code))
  | .cas h x d a b c => some (mk false h 0x4A (optW d a b) (atomE x c 0))
  | .cass h x d b c => some (mk false h 0x4B (mkW d 0 b false) (atomE x c 0))
  | .red h o x d a b => some (mk false h 0x4C (optW d a b) (atomE x 0 o.code))
  | .fence h k sc => some (mk false h 0x4D 0 (mkE k.code 0 0 (sc.code * 1024)))
  | .waita h cc x d ad => some (mk false h 0x4E (feW d ad) (feE x ad cc.code))
  | .pgreq h o a b => some (mk false h 0x4F (optW 0 a b) (sfield 8 o))
  | .ldwf h x d ad => some (mk false h 0x50 (feW d ad) (feE x ad 0))
  | .ldce h x d ad => some (mk false h 0x51 (feW d ad) (feE x ad 0))
  | .stwe h x d ad => some (mk false h 0x52 (feW d ad) (feE x ad 0))
  | .stfs h x d ad => some (mk false h 0x53 (feW d ad) (feE x ad 0))
  | .feget h x d ad => some (mk false h 0x54 (feW d ad) (feE x ad 0))
  | .fesetEmpty h x ad => some (mk false h 0x55 (feW 0 ad) (feE x ad 0))
  | .fesetFull h x ad => some (mk false h 0x55 (feW 0 ad) (feE x ad 8))
  | .pld h x k f d a b => some (mk false h 0x60 (mkW d a b false) (plE x 0 (k + f.code * 16)))
  | .prf h x k f d a b c => some (mk false h 0x61 (mkW d a b false) (plE x c (k + f.code * 16)))
  | .ptagGet h d a => some (mk false h 0x62 (mkW d a 0 false) 0)
  | .ptagSet h d a => some (mk false h 0x62 (mkW d a 0 false) (mkE 1 0 0 0))
  | .ptrim h k f d => some (mk false h 0x63 (mkW d 0 0 false) (mkE 0 0 0 (k + f.code * 16)))
  | .pst h x d a b => some (mk false h 0x64 (mkW d a b false) (plE x 0 0))
  | .bra h o => some (mk false h 0x68 (offW o) 0)
  | .call h o => some (mk false h 0x69 (offW o) 0)
  | .ret h => some (mk false h 0x6A 0 0)
  | .jmpr h a => some (mk false h 0x6B (mkW 0 a 0 false) 0)
  | .exit h => some (mk false h 0x6C 0 0)
  | .trap h v => some (mk false h 0x6D (mkW 0 0 (sfield 7 v) true) 0)
  | .bkpt h => some (mk false h 0x6E 0 0)
  | .yield h => some (mk false h 0x6F 0 0)
  | .mma h x b => some (mk false h 0x70 (mkW 0 0 b false) (engE x))
  | .pcopy h x a b => some (mk false h 0x71 (optW 0 a b) (engE x))
  | .slice h x a b => some (mk false h 0x72 (optW 0 a b) (engE x))
  | .launch h d a => some (mk false h 0x73 (mkW d a 0 false) 0)
  | .sqapp h d a b => some (mk false h 0x74 (optW d a b) 0)
  | .sqret h d a b => some (mk false h 0x75 (optW d a b) 0)
  | .sqfork h d a b => some (mk false h 0x76 (optW d a b) 0)
  | .sqlook h d a b => some (mk false h 0x77 (optW d a b) 0)
  | .engst h d b => some (mk false h 0x78 (srcW d 0 b) 0)
  | .mft h d tc => some (mk false h 0x79 (mkW d tc 0 false) 0)
  | .mtt h tc a => some (mk false h 0x7A (mkW tc a 0 false) 0)
  | .tret h => some (mk false h 0x7B 0 0)
  | .unop h => some (mk true h 0x00 0 0)
  | .uadd h u d a b => some (mk true h 0x01 (srcW d a b) (ubit u))
  | .usub h u d a b => some (mk true h 0x02 (srcW d a b) (ubit u))
  | .umul h u d a b => some (mk true h 0x03 (srcW d a b) (ubit u))
  | .umad h u d a b c => some (mk true h 0x04 (srcW d a b) (mkE 0 (b2n u) c 0))
  | .uand h u d a b => some (mk true h 0x05 (srcW d a b) (ubit u))
  | .uor h u d a b => some (mk true h 0x06 (srcW d a b) (ubit u))
  | .uxor h u d a b => some (mk true h 0x07 (srcW d a b) (ubit u))
  | .ushl h u d a b => some (mk true h 0x08 (srcW d a b) (ubit u))
  | .ushr h u d a b => some (mk true h 0x09 (srcW d a b) (ubit u))
  | .usar h u d a b => some (mk true h 0x0A (srcW d a b) (ubit u))
  | .umin h u d a b => some (mk true h 0x0B (srcW d a b) (ubit u))
  | .umax h u d a b => some (mk true h 0x0C (srcW d a b) (ubit u))
  | .uli h d v => some (mk true h 0x0D (mkW d 0 0 false) (sfield 27 v))
  | .ulih h d hw v => some (mk true h 0x0E (mkW d 0 0 false) (hw * 65536 + v))
  | .umov h u d a => some (mk true h 0x0F (mkW d a 0 false) (ubit u))
  | .usetq h cc u d a b => some (mk true h 0x10 (srcW d a b) (mkE cc.code (b2n u) 0 0))
  | .usel h d a b c => some (mk true h 0x11 (srcW d a b) (mkE 0 0 c 0))
  | .uqlog h o na nb d a b => some (mk true h 0x12 (mkW d a b false) (mkE o.code 0 0 (b2n na + 2 * b2n nb)))
  | .umovs h d sc => some (mk true h 0x13 (mkW d sc 0 false) 0)
  | .ubfx h sx d a b l => some (mk true h 0x14 (srcW d a b) (mkE (b2n sx) 0 0 l))
  | .upopc h u d a => some (mk true h 0x15 (mkW d a 0 false) (ubit u))
  | .ubra h o => some (mk true h 0x20 (offW o) 0)
  | .uloop h o c => some (mk true h 0x21 (offW o) (mkE 0 0 c 0))
  | .ujmpr h a => some (mk true h 0x22 (mkW 0 a 0 false) 0)
  | .bar h b => some (mk true h 0x30 (mkW 0 b 0 false) 0)
  | .bara h b => some (mk true h 0x31 (mkW 0 b 0 false) 0)
  | .barw h b => some (mk true h 0x32 (mkW 0 b 0 false) 0)
  | .dwait h m => some (mk true h 0x33 0 m)
  | .racq h => some (mk true h 0x34 0 0)
  | .rrel h => some (mk true h 0x35 0 0)
  | .usleep h b => some (mk true h 0x36 (srcW 0 0 b) 0)
  | .uld h x d a => some (mk true h 0x40 (mkW d a 0 false) (memE x 0))
  | .ust h x d a => some (mk true h 0x41 (mkW d a 0 false) (memE x 0))
  | .ulds h x d a => some (mk true h 0x42 (mkW d a 0 false) (memE x 0))
  | .usts h x d a => some (mk true h 0x43 (mkW d a 0 false) (memE x 0))
  | .tflsh h a => some (mk true h 0x70 (mkW 0 a 0 false) 0)
  | .tdrn h a => some (mk true h 0x71 (mkW 0 a 0 false) 0)
  | .csplit h p => some (mk true h 0x72 (mkW 0 0 p true) 0)
  | _ => none

/-- The bytes of an encoded instruction, word0 first and E at the next 4 bytes when X is 1 (R224, R8). -/
def encode (i : Instr) : Option (List Byte) :=
  match toRaw i with
  | some r => some (leBytes 4 r.word0 ++ (if r.x then leBytes 4 r.wordE else []))
  | none => none

end Sys2Proof
end

