-- ==== Sys2Proof/Machine/State.lean ====
section
/-! DEFINITION. The state of one VXN2-A512 package as plain data: every piece of state the manual names, the
accesses, results, operations and flits in progress, and the model's own agenda. The machine right after reset. -/

namespace Sys2Proof.Machine

/-! ## Threads, groups, teams (R190 to R204) -/

/-- A plane tag with its hidden part (R73, R316). -/
structure Tag where
  k : Nat
  f : Bool
  gen : Nat
  v : Bool
  hm : Nat
  hsc : Nat
  deriving DecidableEq, Repr

/-- Tag 0 (R74, R75). -/
def Tag.zero : Tag := ⟨0, false, 0, false, 0, 0⟩

/-- A lane register with its tag, written together (R74). -/
structure LaneReg where
  val : Word
  tag : Tag
  deriving DecidableEq, Repr

def LaneReg.zero : LaneReg := ⟨0, Tag.zero⟩

/-- Trap causes of R391. -/
inductive Cause
  | illop | illreg | priv | divz | misalign | xlate | prot | rangelock | feretry | fenosup | udiverge | pendread
  | swtrap | bkpt | scratch | stack | engcmd | planerec | fabric
  deriving DecidableEq, Repr

/-- Trap and system registers 0 to 9 of R335, fields of R390. -/
structure TrapRegs where
  level : Nat
  cause1 : Byte
  epc1 : DWord
  addr1 : DWord
  cause2 : Byte
  epc2 : DWord
  addr2 : DWord
  vec : DWord
  save : DWord
  stat : BitVec 6
  deriving DecidableEq, Repr

/-- A trap as raised (R388, R391): cause, resume address, address value, XW, REM, DEF, GRP. -/
structure TrapInfo where
  cause : Cause
  epc : DWord
  addr : DWord
  xw : Bool
  rem : Bool
  dfr : Bool
  grp : Bool
  deriving DecidableEq, Repr

/-- Full/empty wait conditions (R93, R97). -/
inductive WCond
  | ldwf | ldce | empty | waita
  deriving DecidableEq, Repr

/-- How a thread comes to issue a waiting form again (R94, R98, R100). -/
inductive ReIssue
  | first | woken (entry : Nat) (counts : Bool) | retry
  deriving DecidableEq, Repr

/-- What a thread rests or waits on (R205). Lists name requests by id; xw and grp are what a trap raised at the end
of the rest writes to TRAP_STAT; prom says that a fence also waits for the promotions it asked for (R118, R126). -/
inductive TSt
  | run
  | ended
  | conv (xw : Bool)
  | proof
  | exiting
  | returning
  | trapping (i : TrapInfo)
  | feSent (req : Nat)
  | recWait (req : Nat)
  | feWait
  | feRest (until_ : Nat)
  | faultRest (fid : Nat) (xw grp : Bool)
  | slotRest (until_ : Nat)
  | yield (until_ : Nat) (m : Bool)
  | fence (reqs : List Nat) (acq : Bool) (rel : Bool) (sc : Scope) (m prom : Bool)
  deriving DecidableEq, Repr

/-- A thread (R190) in global thread slot `slot` (R26). `relF`: a release fence at group or team scope stands before
its writes (R118). `hbuf` holds host-window bytes that its present instruction has read (R484). -/
structure Thread where
  slot : Nat
  pc : DWord
  regs : List LaneReg
  preds : List Bool
  fpstat : BitVec 5
  trap : TrapRegs
  cdepth : Nat
  clockHi : Option Word
  retry : Nat
  re : ReIssue
  st : TSt
  readySince : Nat
  relF : Bool
  hbuf : List (Nat × List Byte)
  defer : List TrapInfo
  deriving DecidableEq, Repr

/-- What a group waits for (R208, R330 to R339). -/
inductive GWait
  | none
  | bar (b phase : Nat)
  | arrive (b phase : Nat) (wait : Bool)
  | dwait (mask : Nat)
  | racq
  | sleep (until_ : Nat)
  | flush (ctx epoch : Nat)
  | drain (ctx epoch : Nat)
  | acq (reqs : List Nat)
  deriving DecidableEq, Repr

/-- A group; `gslot` is core*64 + quadrant*16 + position (R26). `proof` is the rest of a uniform instruction with
M = 1 (R213); `racqAt` orders the requests of waiting RACQs (R196, R333). -/
structure Group where
  gslot : Nat
  team : Nat
  gid : Nat
  role : Nat
  base : Nat
  stk : Nat
  extOk : Bool
  ext : Bool
  g : List DWord
  q : List Bool
  haz : Bool
  cursor : Nat
  active : Bool
  since : Nat
  eligSince : Option Nat
  readySince : Option Nat
  holdUntil : Nat
  wait : GWait
  proof : Bool
  racqAt : Nat
  deriving DecidableEq, Repr

/-- A dependency slot with its status (R342, R344). -/
structure DSlot where
  cnt : Nat
  scode : Nat
  sat : Bool
  nan : Bool
  crc : Bool
  deriving DecidableEq, Repr

/-- A team barrier (R330): `last` pairs a group with the phase of its last arrival. -/
structure Bar where
  phase : Nat
  exp : Nat
  arr : Nat
  last : List (Nat × Nat)
  deriving DecidableEq, Repr

/-- A team resident on a core (R190, R203). `tiles` are its accumulator tiles in order; `ending` is set while the
team is being stopped for a switch-out (R397). -/
structure Team where
  uid : Nat
  ctx : Nat
  launch : Nat
  index : Nat
  core : Nat
  quad0 : Nat
  ngrp : Nat
  spBase : Nat
  spSize : Nat
  tiles : List Nat
  nacc : Nat
  x : Nat
  y : Nat
  z : Nat
  nx : Nat
  ny : Nat
  nz : Nat
  prio : Nat
  sys : Bool
  coset : Option Nat
  slots : List DSlot
  bars : List Bar
  outst : Nat
  ending : Bool
  deriving DecidableEq, Repr

/-! ## Cores (R35 to R42, R356) -/

/-- An L1 line: line address, way (R35), four sectors with data where valid, weight, last use (R39, R50). -/
structure L1Line where
  pa : Nat
  way : Nat
  sec : List (Option (List Byte))
  weight : Nat
  age : Nat
  deriving DecidableEq, Repr

/-- A range-lock entry (R356): intervals of one entry, in global or scratchpad addresses. -/
structure Lock where
  op : Nat
  ctx : Nat
  write : Bool
  spad : Bool
  ivs : List (Nat × Nat)
  deriving DecidableEq, Repr

/-- A core; `next` is the first cycle in which each quadrant's picker may issue again (R206), `badWays` are ways with an
uncorrectable error that no team held (R398), `users` the contexts with teams on it and since when (R434). -/
structure Core where
  idx : Nat
  ways : Nat
  pendSplit : Option Nat
  halted : Bool
  gated : Bool
  l1 : List L1Line
  badWays : List Nat
  users : List (Nat × Nat)
  ov : Bool
  racq : List Nat
  locks : List Lock
  next : List Nat
  deriving DecidableEq, Repr

/-! ## Contexts, translation, faults (06, R432) -/

/-- Kill reasons of R395. -/
inductive KillWhy
  | nest | dataue | host | late | state
  deriving DecidableEq, Repr

structure Ctx where
  id : Nat
  nalias : Bool
  period : Nat
  budget : Nat
  root : Nat
  localBase : Nat
  parkCnt : Nat
  parkBase : Nat
  trapVec : DWord
  trapSave : DWord
  swBase : Nat
  epoch : Nat
  acked : Nat
  unacked : List TlbTarget
  sweeps : List Nat
  killing : Option KillWhy
  deriving DecidableEq, Repr

/-- A leaf as translation delivers it (R142). `va` and `pa` are the page's and its frame's base. -/
structure Leaf where
  va : Nat
  pa : Nat
  sz : PageSize
  w : Bool
  x : Bool
  cp : Nat
  pl : Nat
  feb : Bool
  deriving DecidableEq, Repr

/-- The TLBs of R147, R149, R150. -/
inductive TlbUnit
  | instr (core quad : Nat) | data (core quad : Nat) | core (c : Nat) | peel (c : Nat) | remote
  deriving DecidableEq, Repr

structure TlbEntry where
  unit : TlbUnit
  ctx : Nat
  leaf : Leaf
  deriving DecidableEq, Repr

/-- An instruction word in a quadrant's instruction cache (R225). -/
structure CodeWord where
  core : Nat
  quad : Nat
  ctx : Nat
  va : Nat
  word : Nat
  deriving DecidableEq, Repr

/-- A walk-cache entry (R147): the table that a pointer at `level` with this prefix leads to. -/
structure WalkEntry where
  core : Nat
  ctx : Nat
  level : Nat
  tag : Nat
  table : Nat
  deriving DecidableEq, Repr

/-- Who rests on a fault or waits for an access (R109). -/
inductive Who
  | thread (t : Nat)
  | group (gslot : Nat)
  | op (o : Nat)
  | node (g n : Nat)
  | queue (q : Nat)
  | ring (q : Nat)
  | done (l : Nat)
  | remote (node eseq : Nat)
  | ual (port : Nat) (tag : Nat)
  deriving DecidableEq, Repr

/-- An open fault (R156): the accesses that joined it with their effective addresses. -/
structure FaultRec where
  fid : Nat
  ctx : Nat
  page : Nat
  typ : Nat
  joins : List (Who × Nat)
  deriving DecidableEq, Repr

/-- A ring block of R431. -/
structure Ring where
  base : Nat
  log2 : Nat
  prod : Nat
  cons : Nat
  deriving DecidableEq, Repr

def Ring.zero : Ring := ⟨0, 0, 0, 0⟩

/-- A Starter pool block of R161. -/
structure Pool where
  base : Nat
  loglen : Nat
  put : Nat
  zero : Nat
  take : Nat
  deriving DecidableEq, Repr

/-- The translation agent's fault side (R156 to R165); `later` are the accesses of other packages and of the command
processor that found 1024 faults open, with the cycle until which they rest. -/
structure Flt where
  faults : List FaultRec
  later : List (Who × Nat)
  nextFid : Nat
  ring : Ring
  held : List (List Byte)
  failHold : Bool
  pools : List Pool
  bad : List (List Nat)
  faq : List (List (Nat × Bool))
  deriving DecidableEq, Repr

/-! ## L2 metadata (R43 to R49, R85, R97, R126) -/

structure L2Line where
  pa : Nat
  valid : List Bool
  dirty : List Bool
  bv : Bool
  fe : List Bool
  feDirty : Bool
  tag : Nat
  weight : Nat
  touched : Bool
  stale : Bool
  ov : Bool
  age : Nat
  deriving DecidableEq, Repr

/-- A remembered release at group or team scope: the line, the core and the release's bytes (R126). -/
structure Prom where
  pa : Nat
  core : Nat
  bytes : List Nat
  reqs : List Nat
  asked : Bool
  deriving DecidableEq, Repr

/-- The slices' lines, filters and records; `clearedAt` is the cycle of the last clearing (R46, R49). -/
structure L2 where
  lines : List L2Line
  filter : List (Nat × Nat)
  clearedAt : Nat
  proms : List Prom
  deriving DecidableEq, Repr

/-! ## Accesses, results, waits -/

/-- Where an access is performed. Scratchpad offsets are physical offsets within a core's core store. -/
inductive Loc
  | mem (pa : Nat)
  | host (pa : Nat)
  | spad (core off : Nat)
  | remote (node va : Nat)
  deriving DecidableEq, Repr

/-- Destination of a pending result (R211). -/
inductive Dst
  | reg (t n : Nat)
  | pred (t n : Nat)
  | ureg (gslot n : Nat)
  deriving DecidableEq, Repr

/-- The value a pending result will write. -/
inductive PVal
  | none
  | reg (r : LaneReg)
  | pred (b : Bool)
  | ureg (v : DWord)
  deriving DecidableEq, Repr

/-- A pending long-latency result (R211): `fp` marks a flag setter (R180). -/
structure Pend where
  id : Nat
  dst : Dst
  val : PVal
  req : Nat
  fp : Bool
  since : Nat
  deriving DecidableEq, Repr

/-- What an access's result becomes: register words of a load (R297), LDNF's with its predicate (R300), a plane
value (R314, R315), the results of a full/empty form that waits, of a .try form and of FEGET (R310), a plane record read at another package or the host for an instruction (R312), an
instruction word from the host window (R224), other bytes from there that an instruction reads as it issues. -/
inductive LdForm
  | none
  | lane (ty : Ty) (t d : Nat)
  | uni (ty : Ty) (gslot d : Nat)
  | nf (ty : Ty) (t d p : Nat)
  | plane (t d k : Nat) (mid : Bool) (m e : Nat)
  | prf (t d k : Nat) (mid : Bool) (m e p : Nat) (old : LaneReg)
  | feTry (t : Nat) (d? : Option Nat) (p : Nat)
  | feGet (t p : Nat)
  | fe (t : Nat) (d? : Option Nat) (len : Nat) (m : Bool)
  | planeRec (i : Instr) (t len : Nat)
  | code (quad : Nat)
  | buf (t : Nat)
  deriving DecidableEq, Repr

/-- A plane word of a plane access, with what its own page's leaf says (R80). -/
structure Part where
  loc : Loc
  cp : Nat
  pl : Nat
  feb : Bool
  deriving DecidableEq, Repr

/-- An access that has issued: `va` its address as a trap reports it, `fill` the L1 sectors that its reply fills,
`parts` the plane words of a plane access, `after` the accesses it waits for. `co`
names the coalesced request it travels in, of `bytes` bytes (R41); `merged`: its miss merged into another (R47);
`nrel`: a narrow release fence makes it a release (R118); `xw`: its instruction has an extension word (R390). `done` is set when its home has performed it; a store then
owes its acknowledgement. -/
structure Req where
  id : Nat
  who : Who
  core : Nat
  ctx : Nat
  team : Nat
  epoch : Nat
  op : MemOp
  loc : Loc
  size : Nat
  ord : Ord
  scope : Scope
  hint : Hint
  cp : Nat
  pl : Nat
  feb : Bool
  va : Nat
  form : LdForm
  fill : List Nat
  parts : List Part
  after : List Nat
  co : Nat
  bytes : Nat
  merged : Bool
  nrel : Bool
  xw : Bool
  done : Bool
  since : Nat
  deriving DecidableEq, Repr

/-- State of a wait-table entry (R94). -/
inductive WaitSt
  | wait
  | woken (since : Nat)
  deriving DecidableEq, Repr

/-- Who waits in a wait-table entry (R91, R93): lanes of a group, or a remote request. -/
inductive Waiter
  | lanes (gslot : Nat) (ls : List Nat)
  | remote (node eseq : Nat)
  | ual (port tag : Nat)
  deriving DecidableEq, Repr

/-- A wait-table entry (R93); `table` is the slice (0-127) or 128 + core. -/
structure Wait where
  id : Nat
  table : Nat
  word : Loc
  cond : WCond
  who : Waiter
  ctx : Nat
  age : Nat
  st : WaitSt
  deriving DecidableEq, Repr

/-- A wake on its way to a quadrant (R95, R99, R103). -/
structure Wake where
  id : Nat
  gslot : Nat
  lanes : List Nat
  entry : Nat
  counts : Bool
  deriving DecidableEq, Repr

/-- An immediate sweep asked for under R99. -/
structure Sweep where
  id : Nat
  ctx : Nat
  word : Loc
  deriving DecidableEq, Repr

/-! ## Engine and Slicer operations (13, 14) -/

inductive OpKind
  | mma | peel | slice
  deriving DecidableEq, Repr

inductive OpSt
  | queued
  | running
  | resting (fid : Nat) (code : Nat)
  | later (until_ : Nat) (code : Nat)
  | failed (code : Nat)
  | draining
  deriving DecidableEq, Repr

/-- A span of a SLICE (R383, R384): its snapshot rests on a fault or till a cycle, it is claimed, its survivors are chosen (element
number and key blocks as read), its partial is held, or it has ended. Claimed and scored spans carry the epoch of
their snapshot. -/
inductive SpanSt
  | walking (fid? : Option Nat) (from_ : Nat)
  | claimed (epoch : Nat)
  | scored (epoch : Nat) (surv : List (Nat × List (List Byte)))
  | held (nan : Bool) (m l : Nat) (a : List Nat)
  | ended
  deriving DecidableEq, Repr

/-- The merged state of a SLICE (R385). -/
structure Merge where
  any : Bool
  nan : Bool
  reload : Bool
  mx : Nat
  l : Nat
  a : List Nat
  deriving DecidableEq, Repr

/-- An engine operation: who issued it, the block and records as read at issue (R129, R342). `cursor` counts finished
items, `sub` the words of the current item already written, `lines` the lines that it has asked its slices for, `rbuf` what it has read from other packages or the host,
`srcb` the source bytes that the CRC covers, `fin` that
STATUS is written. -/
structure Op where
  id : Nat
  kind : OpKind
  core : Nat
  team : Option Nat
  who : Who
  ctx : Nat
  epoch : Nat
  sys : Bool
  prio : Nat
  blkAddr : Nat
  blk : List Byte
  srcRec : List Byte
  dstRec : List Byte
  mask : Nat
  set? : Option Nat
  st : OpSt
  cursor : Nat
  sub : Nat
  lines : List Nat
  rbuf : List (Nat × Nat × List Byte)
  srcb : List (Nat × Byte)
  landed : Nat
  cwDone : Nat
  fin : Bool
  sat : Bool
  nan : Bool
  crcErr : Bool
  view : List (Nat × Nat)
  q : List Nat
  spans : List (Nat × SpanSt)
  merge : Merge
  snap : List (Nat × Leaf)
  deriving DecidableEq, Repr

/-! ## Command processor (17) -/

/-- A queue (R435): its descriptor, the last doorbell, whether it is still to be read, the entries read and not yet
served (R436). -/
structure Queue where
  base : Nat
  ctx : Nat
  en : Bool
  qlog : Nat
  head : Nat
  bell : Nat
  door : Bool
  ents : List (List Byte)
  deriving DecidableEq, Repr

/-- `done` and `failed` wait for NODE_COMPLETE, `finished` is past it. -/
inductive NodeSt
  | waiting | running | done | failed | finished
  deriving DecidableEq, Repr

/-- A node of a graph: its 64 bytes, its counter (a failed node's code), its state (R438, R439). -/
structure Node where
  rec_ : List Byte
  cnt : Nat
  st : NodeSt
  ready : Option Nat
  deriving DecidableEq, Repr

structure Graph where
  gid : Nat
  queue : Nat
  ctx : Nat
  addr : Nat
  token : Nat
  ser : Bool
  failed : Bool
  nodes : List Node
  deriving DecidableEq, Repr

/-- Who started a grid: a graph node or a thread's LAUNCH (R219, R440). -/
inductive Origin
  | node (g n : Nat)
  | device (thread : Nat) (recAddr : Nat)
  deriving DecidableEq, Repr

/-- A grid being launched (R197, R221): its place in the order of readiness, the record's bytes, teams placed and
ended. -/
structure Launch where
  lid : Nat
  ord : Nat
  ctx : Nat
  origin : Origin
  rec_ : List Byte
  placed : List Nat
  ended : Nat
  reported : Bool
  doneSent : Bool
  deriving DecidableEq, Repr

/-- The command processor; `snap` counts the held records up to the last of a snapshot (R429), `rbuf` is what it has read
from the host window for its work in hand (R484). -/
structure Cp where
  queues : List Queue
  quant : Nat
  cmd : Nat
  stat : Nat
  statId : Nat
  why : Nat
  graphs : List Graph
  launches : List Launch
  jnl : Ring
  jseq : Nat
  held : List (List Byte)
  snap : Nat
  irqs : List Nat
  rbuf : List (Who × Nat × List Byte)
  deriving DecidableEq, Repr

/-- A switched-out or pre-empted team with its groups and threads, the cells of its scratchpad window and tiles and
its empty words under the keys of its place (R397), and the cycle of the save. -/
structure Saved where
  team : Team
  groups : List Group
  threads : List Thread
  sp : List Host.Cell
  spEmpty : List Nat
  acc : List Host.Cell
  at_ : Nat
  deriving DecidableEq, Repr

/-! ## Rotor ports and UALink (16) -/

/-- An access merged into an entry: who issued it, its global address, whether its instruction has an extension
word (R390). -/
structure Issuer where
  who : Who
  addr : Nat
  xw : Bool
  deriving DecidableEq, Repr

/-- A write-combining entry (R412, R413). `body` none is a plain-store line; `who` are the accesses merged into
it. -/
structure Wc where
  id : Nat
  core : Nat
  ctx : Nat
  team : Nat
  peer : Nat
  line : Nat
  mask : Nat
  data : List Byte
  body : Option Body
  va : Nat
  who : List Issuer
  sent : Bool
  since : Nat
  deriving DecidableEq, Repr

/-- Where a flit's payload bytes come from: this package made them, a WRITE with its origin core, team and entry, or
they came with a relayed flit. -/
inductive Pay
  | made (core team entry : Nat)
  | given (bytes : List Byte)
  deriving DecidableEq, Repr

/-- A flit as it stands in a resend buffer or relay buffer; `cred` are the relay credits it returns. -/
structure Flit where
  hdr : FlitHdr
  body : Body
  cred : Nat
  pay : Pay
  deriving DecidableEq, Repr

/-- A relayed flit that waits for its second hop (R418): who sent it, and its place in the overflow region, none in the
SRAM. -/
structure Relayed where
  src : Nat
  flit : Flit
  at_ : Option Nat
  deriving DecidableEq, Repr

/-- A flit to a peer that no ACK or REPLY has answered (R419, R421): the intermediate it went by, when it was handed to
the path choice or last left, whether it has left under the present path generation, whether it is a resend, whether its wait is held. -/
structure E2E where
  eseq : Nat
  body : Body
  ctx : Nat
  via : Option Nat
  since : Nat
  sent : Bool
  again : Bool
  held : Bool
  wc : Option Nat
  req : Option Nat
  deriving DecidableEq, Repr

/-- State toward one peer package (R408 to R421): `resend` is the next flit of `unacked` to be resent, `high` the
ESEQ above the highest received, `seen` the ESEQs performed with their recorded ACK, none where a REPLY answered, `ctxs`
the contexts of the flits received, `rfails` the relayed flits dropped (ESEQ, PGEN, context), `moved` when a flit to the
peer last left or was answered. -/
structure Pair where
  peer : Nat
  hseqOut : Nat
  unacked : List Flit
  resend : Option Nat
  hseqIn : Nat
  nak : Bool
  eseq : Nat
  pgenOut : Nat
  pgenIn : Nat
  high : Nat
  seen : List (Nat × Option Nat)
  cache : List (Nat × Body)
  out : List E2E
  acks : List (Nat × Nat × Nat)
  replies : List Body
  rfails : List (Nat × Nat × Nat)
  ctxs : List (Nat × Nat)
  moved : Nat
  credit : Nat
  credRet : Nat
  fails : Nat
  unreach : Bool
  barred : List (Nat × Nat)
  deriving DecidableEq, Repr

/-- A rotor port (R401, R406): `srcs` are the sources that were live when it took its stripe, `rx` the stripe mask that
its peer announced, `times` the cycles of its last sends in the slot. -/
structure Port where
  live : List Bool
  badWl : List Bool
  stripe : List Bool
  srcs : Nat
  rx : Nat
  times : List Nat
  far : Option Nat
  trained : Bool
  muted : Bool
  quiet : Bool
  sent : Nat
  deriving DecidableEq, Repr

/-- A request on UALink without its response (R427); `carried` is set once a write that carries a request has its
response and the reply is still to come. `acc` is the accelerator that it is sent to (R426); its request address is
`addr` in bits 51 to 0, with every bit above 1 where `ones` says so (R425). -/
structure UalOut where
  id : Nat
  port : Nat
  peer : Nat
  line : Nat
  carried : Bool
  ctx : Nat
  body : Body
  wc : Option Nat
  req : Option Nat
  held : Bool
  acc : Nat
  addr : Nat
  ones : Bool
  deriving DecidableEq, Repr

/-- A request of another package that has not been performed: it rests on a fault, or behind one that does. -/
structure Incoming where
  who : Who
  ctx : Nat
  body : Body
  deriving DecidableEq, Repr

structure Fab where
  node : Nat
  en : Bool
  path : Nat
  dwait : Nat
  age : Nat
  rtmo : Nat
  utmo : Nat
  cal : List (Nat × Nat)
  cred : Nat
  ovsz : Nat
  ovbase : Nat
  slot : Nat
  slotCycle : Nat
  slotAt : Nat
  slotLost : Bool
  lostSlots : Nat
  goodPulses : Nat
  pulseAt : Nat
  ports : List Port
  pairs : List Pair
  wc : List Wc
  relay : List Relayed
  ring : Ring
  held : List (List Byte)
  dropped : Nat
  route : List Nat
  ualId : List Nat
  linkUp : List Bool
  ual : List UalOut
  incoming : List Incoming
  ualResp : List (Nat × Nat × Body)
  deriving DecidableEq, Repr

/-! ## Platform (R429, R446 to R451, R55) -/

structure Scrub where
  en : Bool
  passH : Nat
  cecnt : Nat
  running : Nat
  pos : Nat
  ceFrames : List Nat
  deriving DecidableEq, Repr

structure Dev where
  power : Bool
  ready : Bool
  bootfail : Bool
  fatal : Bool
  bcode : Nat
  pcap : Bool
  tcap : Bool
  pwrLim : Nat
  pwrWatts : Nat
  keep : Nat
  tj : Nat
  hot : Bool
  ilim : List Nat
  rail : List Nat
  attDone : Bool
  attBusy : Bool
  fw : BitVec 512
  nonce : BitVec 256
  nonceTaken : BitVec 256
  meas : BitVec 512
  sig : BitVec 512
  scrub : List Scrub
  marks : List Nat
  deriving DecidableEq, Repr

/-! ## The machine -/

/-- The structural resources of R205. -/
inductive Res
  | coalescer
  | uniformPipe
  | sfu
  | matrixPort
  deriving DecidableEq, Repr

/-- The bundle being issued (R206): threads in ascending lane order, all at one PC of one team. `last` are the sectors
that its .last loads have read from the L1 (R40), `busy` the structural resources taken while it is picked (R205). -/
structure Bundle where
  core : Nat
  quad : Nat
  threads : List Nat
  pc : DWord
  len : Nat
  last : List Nat
  busy : List Res
  deriving DecidableEq, Repr

/-- What a step does next (log 4): a picker's issue, also in a cycle in which some structural resources are taken (R205), an event, a host or firmware write of physical memory, one more
wrong bit in a granule of HBM4 (R54), an uncorrectable error in the state of a resident thread (R395) or in a core's scratchpad (R398), the loss
of a quadrant's cached instructions (R225), the write-back of a frame's lines that the host asks for (R155), a page move
of the command processor (R107), its reading on in a command ring (R436, R442), the end of an attestation request (R448), or a stretch of time alone. -/
inductive Act
  | issue (core quad : Nat)
  | issueBusy (core quad : Nat) (busy : List Res)
  | event (i : Instr)
  | hostWrite (pa : Nat) (data : List Byte)
  | upset (granule : Nat)
  | stateError (t : Nat)
  | spadError (core off : Nat)
  | dropCode (core quad : Nat)
  | writeBack (pa size : Nat)
  | moveFrame (src dst : Nat) (size : PageSize)
  | ringRead (q : Nat)
  | attest
  | idle
  deriving DecidableEq, Repr

structure Sched where
  dt : Nat
  act : Act
  deriving DecidableEq, Repr

structure State where
  cycle : Nat
  dev : Dev
  ctxs : List Ctx
  teams : List Team
  groups : List Group
  threads : List Thread
  cores : List Core
  mem : List Host.Cell
  spad : List Host.Cell
  spadE : List Nat
  acc : List Host.Cell
  ue : List Nat
  ce : List Nat
  l2 : L2
  tlb : List TlbEntry
  walks : List WalkEntry
  code : List CodeWord
  flt : Flt
  waits : List Wait
  wakes : List Wake
  sweeps : List Sweep
  reqs : List Req
  pend : List Pend
  ops : List Op
  cp : Cp
  saved : List Saved
  fab : Fab
  cur : Bundle
  agenda : List Sched
  nextId : Nat
  deriving DecidableEq, Repr

/-- Why a step stops. -/
inductive Fault
  /-- Raised by `step` when the rails are off after THERMTRIP (R451) and the agenda brings no event: nothing runs
  any more until a package reset. Safe. -/
  | noPower
  deriving DecidableEq, Repr

/-- Instructions without a meaning. -/
inductive Refusal
  /-- Raised by `exec` for an instruction the model gives no meaning. Safe. -/
  | notModelled (mnemonic : String)
  deriving DecidableEq, Repr

abbrev Out := Host.Outcome State Fault Refusal

/-! ## Reset -/

/-- A core after package reset: P = 4, L1 empty (R35). -/
def Core.reset (i : Nat) : Core :=
  { idx := i, ways := 4, pendSplit := none, halted := false, gated := false, l1 := [], badWays := [], users := [], ov := false, racq := [],
    locks := [], next := [0, 0, 0, 0] }

def Scrub.reset : Scrub := { en := true, passH := 24, cecnt := 0, running := 0, pos := 0, ceFrames := [] }

/-- The platform registers at reset (R55, R429, R448, R450; log 13). -/
def Dev.reset : Dev :=
  { power := true, ready := false, bootfail := false, fatal := false, bcode := 0, pcap := false, tcap := false,
    pwrLim := 1800, pwrWatts := 0, keep := 16, tj := 0, hot := false, ilim := [1800, 1800],
    rail := [0, 0, 0, 0, 0], attDone := false, attBusy := false, fw := 0, nonce := 0, nonceTaken := 0, meas := 0, sig := 0,
    scrub := List.replicate 8 Scrub.reset, marks := [] }

def Queue.reset : Queue := { base := 0, ctx := 0, en := false, qlog := 0, head := 0, bell := 0, door := false, ents := [] }

/-- The command processor at reset (R430, R431, R435). -/
def Cp.reset : Cp :=
  { queues := List.replicate 64 Queue.reset, quant := 2000, cmd := 0, stat := 1, statId := 0, why := 0,
    graphs := [], launches := [], jnl := Ring.zero, jseq := 0, held := [], snap := 0, irqs := [], rbuf := [] }

def Port.reset : Port :=
  { live := [true, true, true, true], badWl := List.replicate 16 false, stripe := [true, true, true, true], srcs := 15, rx := 0, times := [],
    far := none, trained := false, muted := false, quiet := false, sent := 0 }

/-- State toward a peer before any flit: the grant of relay credits is RLY_CFG's reset value (R418). -/
def Pair.reset (p : Nat) : Pair :=
  { peer := p, hseqOut := 0, unacked := [], resend := none, hseqIn := 0, nak := false, eseq := 0, pgenOut := 0,
    pgenIn := 0, high := 0, seen := [], cache := [], out := [], acks := [], replies := [], rfails := [],
    ctxs := [], moved := 0, credit := 1024, credRet := 0, fails := 0, unreach := false, barred := [] }

/-- The fabric registers at reset (R403, R404, R418, R423, R424, R426; log 13). -/
def Fab.reset : Fab :=
  { node := 0, en := false, path := 0, dwait := 2, age := 4, rtmo := 4, utmo := 3,
    cal := List.replicate 64 (0x3F, 2), cred := 1024, ovsz := 0, ovbase := 0, slot := 0, slotCycle := 0, slotAt := 0,
    slotLost := false, lostSlots := 0, goodPulses := 0, pulseAt := 0, ports := List.replicate 8 Port.reset, pairs := [],
    wc := [], relay := [], ring := Ring.zero, held := [], dropped := 0, route := List.replicate 64 0,
    ualId := List.replicate 64 0, linkUp := [true, true, true, true], ual := [], incoming := [], ualResp := [] }

/-- The translation agent at reset (R157, R158, R161, R165). -/
def Flt.reset : Flt :=
  { faults := [], later := [], nextFid := 0, ring := Ring.zero, held := [], failHold := false,
    pools := List.replicate 3 ⟨0, 0, 0, 0, 0⟩, bad := List.replicate 8 [], faq := List.replicate 8 [] }

def Bundle.none : Bundle := { core := 0, quad := 0, threads := [], pc := 0, len := 4, last := [], busy := [] }

/-- The machine right after package reset: nothing is resident, nothing is scheduled. -/
def State.reset : State :=
  { cycle := 0, dev := Dev.reset, ctxs := [], teams := [], groups := [], threads := [],
    cores := (List.range 192).map Core.reset, mem := [], spad := [], spadE := [], acc := [], ue := [], ce := [],
    l2 := { lines := [], filter := [], clearedAt := 0, proms := [] }, tlb := [], walks := [], code := [], flt := Flt.reset, waits := [],
    wakes := [], sweeps := [], reqs := [], pend := [], ops := [], cp := Cp.reset, saved := [], fab := Fab.reset,
    cur := Bundle.none, agenda := [], nextId := 1 }

end Sys2Proof.Machine
end

