-- ==== Sys2Proof/Machine/Access.lean ====
section
/-! DEFINITION. Reading and updating the state: bytes of physical memory, scratchpad and tiles, full/empty bits,
records looked up by their names, and one named update for each part of the state. -/

namespace Sys2Proof.Machine

/-! ## Canonical byte memory -/

namespace Memory
/-- Read of one byte: an unlisted address reads 0 (log 1). -/
def get : List Host.Cell → Nat → Byte
  | [], _ => 0
  | (x, v) :: l, a => if x = a then v else get l a
/-- Write of one byte; writing 0 removes the entry. -/
def set : List Host.Cell → Nat → Byte → List Host.Cell
  | [], a, b => if b = 0 then [] else [(a, b)]
  | (x, v) :: l, a, b =>
    if a < x then (if b = 0 then (x, v) :: l else (a, b) :: (x, v) :: l)
    else if a = x then (if b = 0 then l else (a, b) :: l)
    else (x, v) :: set l a b
/-- Addresses strictly rising, no entry 0. -/
def wf : List Host.Cell → Bool
  | [] => true
  | [(_, v)] => v != 0
  | (x, v) :: (y, w) :: l => v != 0 && x < y && wf ((y, w) :: l)
/-- Write of consecutive bytes. -/
def setMany : List Host.Cell → Nat → List Byte → List Host.Cell
  | m, _, [] => m
  | m, a, b :: l => setMany (set m a b) (a + 1) l
/-- The bytes from a on. -/
def getMany (m : List Host.Cell) (a : Nat) : Nat → List Byte
  | 0 => []
  | n + 1 => get m a :: getMany m (a + 1) n
end Memory

/-- A sorted set of naturals. -/
def insertNat (x : Nat) : List Nat → List Nat
  | [] => [x]
  | y :: l => if x < y then x :: y :: l else if x = y then y :: l else y :: insertNat x l
def eraseNat (x : Nat) (l : List Nat) : List Nat := l.filter fun y => y != x

/-- Replace the element at an index. -/
def setAt {α : Type} : List α → Nat → α → List α
  | [], _, _ => []
  | _ :: l, 0, y => y :: l
  | x :: l, n + 1, y => x :: setAt l n y
def updAt {α : Type} : List α → Nat → (α → α) → List α
  | [], _, _ => []
  | x :: l, 0, f => f x :: l
  | x :: l, n + 1, f => x :: updAt l n f

/-! ## Lookups -/

def TrapRegs.reset (vec save : DWord) : TrapRegs :=
  { level := 0, cause1 := 0, epc1 := 0, addr1 := 0, cause2 := 0, epc2 := 0, addr2 := 0, vec := vec, save := save,
    stat := 0 }
/-- A thread that does not run: what a slot without a resident thread reads as. -/
def Thread.none (t : Nat) : Thread :=
  { slot := t, pc := 0, regs := [], preds := [], fpstat := 0, trap := TrapRegs.reset 0 0, cdepth := 0,
    clockHi := Option.none, retry := 0, re := .first, st := .ended, readySince := 0, relF := false, hbuf := [], defer := [] }
def Group.none (gs : Nat) : Group :=
  { gslot := gs, team := 0, gid := 0, role := 0, base := 16, stk := 16, extOk := false, ext := false, g := [], q := [],
    haz := false, cursor := 31, active := false, since := 0, eligSince := Option.none, readySince := Option.none,
    holdUntil := 0, wait := .none, proof := false, racqAt := 0 }
def DSlot.zero : DSlot := ⟨0, 0, false, false, false⟩
def Bar.start (n : Nat) : Bar := ⟨0, n, 0, []⟩
def Team.none (u : Nat) : Team :=
  { uid := u, ctx := 16, launch := 0, index := 0, core := 0, quad0 := 0, ngrp := 0, spBase := 0, spSize := 0,
    tiles := [], nacc := 0, x := 0, y := 0, z := 0, nx := 0, ny := 0, nz := 0, prio := 0, sys := false,
    coset := Option.none, slots := [], bars := [], outst := 0, ending := false }
def Ctx.none (i : Nat) : Ctx :=
  { id := i, nalias := true, period := 16, budget := 64, root := 0, localBase := 0, parkCnt := 0, parkBase := 0,
    trapVec := 0, trapSave := 0, swBase := 0, epoch := 0, acked := 0, unacked := [], sweeps := [0, 0],
    killing := Option.none }

namespace State

def th (s : State) (t : Nat) : Thread := (s.threads.find? fun x => x.slot == t).getD (Thread.none t)
def gr (s : State) (gs : Nat) : Group := (s.groups.find? fun x => x.gslot == gs).getD (Group.none gs)
def tm (s : State) (u : Nat) : Team := (s.teams.find? fun x => x.uid == u).getD (Team.none u)
def co (s : State) (c : Nat) : Core := (s.cores.find? fun x => x.idx == c).getD (Core.reset c)
def cx (s : State) (i : Nat) : Ctx := (s.ctxs.find? fun x => x.id == i).getD (Ctx.none i)
def hasCtx (s : State) (i : Nat) : Bool := s.ctxs.any fun x => x.id == i
/-- Group, team, context and core of a thread slot (R26). -/
def grOf (s : State) (t : Nat) : Group := s.gr (t / 32)
def tmOf (s : State) (t : Nat) : Team := s.tm (s.grOf t).team
def cxOf (s : State) (t : Nat) : Ctx := s.cx (s.tmOf t).ctx
def req? (s : State) (r : Nat) : Option Req := s.reqs.find? fun x => x.id == r
def op? (s : State) (o : Nat) : Option Op := s.ops.find? fun x => x.id == o
def wait? (s : State) (w : Nat) : Option Wait := s.waits.find? fun x => x.id == w
def launch? (s : State) (l : Nat) : Option Launch := s.cp.launches.find? fun x => x.lid == l
def graph? (s : State) (g : Nat) : Option Graph := s.cp.graphs.find? fun x => x.gid == g

/-! ## Updates -/

def updThread (s : State) (t : Nat) (f : Thread → Thread) : State :=
  { s with threads := s.threads.map fun x => if x.slot = t then f x else x }
def updGroup (s : State) (gs : Nat) (f : Group → Group) : State :=
  { s with groups := s.groups.map fun x => if x.gslot = gs then f x else x }
def updTeam (s : State) (u : Nat) (f : Team → Team) : State :=
  { s with teams := s.teams.map fun x => if x.uid = u then f x else x }
def updCore (s : State) (c : Nat) (f : Core → Core) : State :=
  { s with cores := s.cores.map fun x => if x.idx = c then f x else x }
def updCtx (s : State) (i : Nat) (f : Ctx → Ctx) : State :=
  { s with ctxs := s.ctxs.map fun x => if x.id = i then f x else x }
def setThreads (s : State) (l : List Thread) : State := { s with threads := l }
def setCores (s : State) (l : List Core) : State := { s with cores := l }
def setGroups (s : State) (l : List Group) : State := { s with groups := l }
def setTeams (s : State) (l : List Team) : State := { s with teams := l }
def setCtxs (s : State) (l : List Ctx) : State := { s with ctxs := l }
def setMem (s : State) (m : List Host.Cell) : State := { s with mem := m }
def setSpad (s : State) (m : List Host.Cell) : State := { s with spad := m }
def setSpadE (s : State) (l : List Nat) : State := { s with spadE := l }
def setAcc (s : State) (m : List Host.Cell) : State := { s with acc := m }
def setUe (s : State) (l : List Nat) : State := { s with ue := l }
def setCe (s : State) (l : List Nat) : State := { s with ce := l }
def setL2 (s : State) (x : L2) : State := { s with l2 := x }
def setTlb (s : State) (l : List TlbEntry) : State := { s with tlb := l }
def setWalks (s : State) (l : List WalkEntry) : State := { s with walks := l }
def setCode (s : State) (l : List CodeWord) : State := { s with code := l }
def setFlt (s : State) (x : Flt) : State := { s with flt := x }
def setWaits (s : State) (l : List Wait) : State := { s with waits := l }
def setWakes (s : State) (l : List Wake) : State := { s with wakes := l }
def setSweeps (s : State) (l : List Sweep) : State := { s with sweeps := l }
def setReqs (s : State) (l : List Req) : State := { s with reqs := l }
def setPend (s : State) (l : List Pend) : State := { s with pend := l }
def setOps (s : State) (l : List Op) : State := { s with ops := l }
def setCp (s : State) (x : Cp) : State := { s with cp := x }
def setSaved (s : State) (l : List Saved) : State := { s with saved := l }
def setFab (s : State) (x : Fab) : State := { s with fab := x }
def setDev (s : State) (x : Dev) : State := { s with dev := x }
def setCur (s : State) (b : Bundle) : State := { s with cur := b }
def setAgenda (s : State) (l : List Sched) : State := { s with agenda := l }
def setCycle (s : State) (n : Nat) : State := { s with cycle := n }
/-- Take a fresh name. -/
def bump (s : State) : State := { s with nextId := s.nextId + 1 }

def updOp (s : State) (o : Nat) (f : Op → Op) : State :=
  s.setOps (s.ops.map fun x => if x.id = o then f x else x)
def updReq (s : State) (r : Nat) (f : Req → Req) : State :=
  s.setReqs (s.reqs.map fun x => if x.id = r then f x else x)

/-! ## Physical bytes (R18, R84, R483) -/

/-- Addresses that hold bytes: usable HBM4, the used part of the full/empty region, the host window. -/
def physHolds (pa : Nat) : Bool := pa < Config.feUnused || (Config.hostBase ≤ pa && pa < Config.physTop)
def rdB (s : State) (pa : Nat) : Byte := if physHolds pa then Memory.get s.mem pa else 0
def wrB (s : State) (pa : Nat) (b : Byte) : State :=
  if physHolds pa then s.setMem (Memory.set s.mem pa b) else s
def rdBytes (s : State) (pa n : Nat) : List Byte := (List.range n).map fun i => s.rdB (pa + i)
def wrBytes (s : State) (pa : Nat) : List Byte → State
  | [] => s
  | b :: l => wrBytes (s.wrB pa b) (pa + 1) l
def rdN (s : State) (pa n : Nat) : Nat := leNat (s.rdBytes pa n)

/-! ## Scratchpad and tiles (R19, R27, R35) -/

/-- A core store has 12 ways of 128 KiB; keys leave 2 MiB to a core. -/
def spKey (core off : Nat) : Nat := core * 2097152 + off
def rdSp (s : State) (core off : Nat) : Byte := Memory.get s.spad (spKey core off)
def rdSpBytes (s : State) (core off n : Nat) : List Byte := (List.range n).map fun i => s.rdSp core (off + i)
def wrSpBytes (s : State) (core off : Nat) (l : List Byte) : State :=
  s.setSpad (Memory.setMany s.spad (spKey core off) l)
/-- Accumulator memory of a core: 16 tiles of 16 KiB (R5, R27). -/
def accKey (core tile off : Nat) : Nat := core * 262144 + tile * 16384 + off
/-- The key of an offset into a team's tiles. -/
def tileKey (u : Team) (a : Nat) : Nat := accKey u.core (u.tiles.getD (a / 16384) 0) (a % 16384)
def rdAcc (s : State) (core tile off : Nat) : Nat := leNat (Memory.getMany s.acc (accKey core tile off) 4)
def wrAcc (s : State) (core tile off : Nat) (l : List Byte) : State :=
  s.setAcc (Memory.setMany s.acc (accKey core tile off) l)

/-! ## Full/empty bits (R82 to R85) -/

def lineOf (pa : Nat) : Nat := pa / 128 * 128
def l2Line? (s : State) (pa : Nat) : Option L2Line := s.l2.lines.find? fun l => l.pa == lineOf pa
/-- The bit in the full/empty region (R84). -/
def feRegion (s : State) (pa : Nat) : Bool := bitOf (s.rdB (Config.hbmTop + pa / 32)).toNat (pa / 4 % 8)
/-- The bit as its home sees it: the line's copy when BV is set, the region's otherwise (R85). -/
def feMem (s : State) (pa : Nat) : Bool :=
  match s.l2Line? pa with
  | some l => if l.bv then l.fe.getD (pa / 4 % 32) true else s.feRegion pa
  | none => s.feRegion pa
def updL2Line (s : State) (pa : Nat) (f : L2Line → L2Line) : State :=
  s.setL2 { s.l2 with lines := s.l2.lines.map fun l => if l.pa = lineOf pa then f l else l }
/-- Scratchpad side bits (R83): listed words are empty. -/
def feSp (s : State) (core off : Nat) : Bool := !s.spadE.contains (spKey core off / 4)
def setFeSp (s : State) (core off : Nat) (b : Bool) : State :=
  s.setSpadE (if b then eraseNat (spKey core off / 4) s.spadE else insertNat (spKey core off / 4) s.spadE)

/-! ## Geography (R26, R29, R43) -/

def coreOf (t : Nat) : Nat := t / 2048
def quadOf (t : Nat) : Nat := t / 512 % 4
def laneOf (t : Nat) : Nat := t % 32
def cluster (c : Nat) : Nat := c / 8
def rank (c : Nat) : Nat := c % 8
def dieOf (c : Nat) : Nat := c / 96
/-- Home stack, die and slice of a line (R43); slices count 0 to 127. -/
def stackOf (pa : Nat) : Nat := bits pa 10 8 ^^^ bits pa 23 21
def sliceOf (pa : Nat) : Nat := stackOf pa / 4 * 64 + (bits pa 16 11 ^^^ bits pa 29 24)
def setOf (pa : Nat) : Nat := bits pa 28 17

/-- An access is local when its NODE is the own id or the alias (R16). -/
def isLocal (s : State) (ctx a : Nat) : Bool :=
  let n := bits a 53 48
  n == s.fab.node || (n == 0x3F && (s.cx ctx).nalias)
/-- A VA of this package as a global address. -/
def ownEa (s : State) (va : Nat) : Nat := s.fab.node * 2 ^ 48 + va
def vaOf (a : Nat) : Nat := a % 2 ^ 48

end State

end Sys2Proof.Machine
end

