-- ==== Sys2Proof/Machine/Slices.lean ====
section
/-! DEFINITION. Home slices and base dies: errors and marks of granules, the queue of bad frames, lines with their
full/empty bits, the second-touch filter, and accesses without a page, the rings among them (R43 to R57, R84, R85,
R126, R431). -/

namespace Sys2Proof.Machine
namespace State

/-! ## Granules at their base die (R53 to R57) -/

/-- The granule's sector is valid in its home slice: an access is served there and does not reach the base die. -/
def inSlice (s : State) (g : Nat) : Bool :=
  match s.l2Line? (32 * g) with | some l => l.valid.getD (g % 4) false | none => false
/-- An access to the granule of 32 bytes meets an uncorrectable error (R54). -/
def ueAt (s : State) (pa : Nat) : Bool := s.ue.contains (pa / 32) && !s.inSlice (pa / 32)
/-- The bad granules that an access to n bytes meets. -/
def uesIn (s : State) (pa n : Nat) : List Nat :=
  (s.ue.filter fun g => pa / 32 ≤ g && g ≤ (pa + n - 1) / 32 && !s.inSlice g).map (32 * ·)
/-- There is one. -/
def ueIn (s : State) (pa n : Nat) : Bool := !(s.uesIn pa n).isEmpty
/-- Put a frame into its base die's fault-address queue (R57). -/
def queueBad (s : State) (pa : Nat) (ue : Bool) : State :=
  s.setFlt { s.flt with faq := updAt s.flt.faq (stackOf pa) fun l => l ++ [(pa / 4096 * 4096, ue)] }
/-- A correctable error is found, by the scrubber or by a demand access (both count, log 80): the second of a frame
within one pass is queued (R55, R57). -/
def ceFound (s : State) (pa : Nat) : State :=
  let k := stackOf pa
  let sc := s.dev.scrub.getD k Scrub.reset
  let frame := pa / 4096 * 4096
  let s := if (sc.ceFrames.filter fun f => f == frame).length = 1 then s.queueBad pa false else s
  s.setDev { s.dev with scrub := updAt s.dev.scrub k fun x =>
    { x with running := x.running + 1, ceFrames := frame :: x.ceFrames } }
/-- Queue the bad granules that an access met (R57). -/
def queueAll (s : State) (l : List Nat) : State := l.foldl (fun s pa => s.queueBad pa true) s
/-- An access to n bytes finds the correctable errors of the granules that it reaches at their base die. -/
def met (s : State) (pa n : Nat) : State :=
  (s.ce.filter fun g => pa / 32 ≤ g && g ≤ (pa + n - 1) / 32 && !s.inSlice g).foldl (fun s g => s.ceFound (32 * g)) s
/-- The base die writes the granules among n bytes that a test picks: the scrubber's marks go, granules that it merges
into are corrected, those that it replaces whole are free of errors (R53, R56, R399). -/
def dieWrites (s : State) (pa n : Nat) (p : Nat → Bool) : State :=
  let hit := fun g => pa / 32 ≤ g && g ≤ (pa + n - 1) / 32 && p g
  let s := s.setDev { s.dev with marks := s.dev.marks.filter fun g => !hit g }
  (s.setCe (s.ce.filter fun g => !hit g)).setUe (s.ue.filter fun g => !(hit g && pa ≤ 32 * g && 32 * g + 32 ≤ pa + n))
/-- A demand write: a sector that its slice holds takes it there, and reaches the base die when the line leaves. -/
def clearMarks (s : State) (pa n : Nat) : State := s.dieWrites pa n fun g => !s.inSlice g
/-- One more wrong bit in a granule: correctable alone, uncorrectable with another (R54). -/
def upset (s : State) (g : Nat) : State :=
  if Config.feUnused ≤ 32 * g || s.ue.contains g then s
  else if s.ce.contains g then (s.setCe (eraseNat g s.ce)).setUe (insertNat g s.ue)
  else s.setCe (insertNat g s.ce)

/-! ## Full/empty bits in their region (R84) -/

/-- A bit of the region is written. No page maps the region, so its own lines are allocated nowhere (R44). -/
def setFeRegion (s : State) (pa : Nat) (b : Bool) : State :=
  let a := Config.hbmTop + pa / 32
  let v := (s.rdB a).toNat
  let k := 2 ^ (pa / 4 % 8)
  (s.wrB a (BitVec.ofNat 8 (if bitOf v (pa / 4 % 8) then (if b then v else v - k) else (if b then v + k else v)))).clearMarks
    a 1
def setFeMem (s : State) (pa : Nat) (b : Bool) : State :=
  match s.l2Line? pa with
  | some l =>
    if l.bv then s.updL2Line pa fun x => { x with fe := setAt x.fe (pa / 4 % 32) b, feDirty := true }
    else s.setFeRegion pa b
  | none => s.setFeRegion pa b
/-- The granule of the region that holds a word's bit. -/
def feGranule (pa : Nat) : Nat := Config.hbmTop + pa / 32
/-- A test or change of a word's bit would reach a bad granule of the region: its line holds no bits (R54, R85). -/
def feUe (s : State) (pa : Nat) : Bool :=
  (match s.l2Line? pa with | some l => !l.bv | none => true) && s.ueAt (feGranule pa)

/-! ## Lines of the slices (R43 to R49, R85, R126) -/

/-- Eviction weight of a page's line tag (R48, R80, R81). -/
def plWeight (pl : Nat) : Nat := if 5 ≤ pl then pl - 4 else 0
def lineWeight (cp pl : Nat) (hint : Hint) : Nat := if cp = 4 ∨ hint = .evf then 15 else plWeight pl
def updL2 (s : State) (f : List L2Line → List L2Line) : State := s.setL2 { s.l2 with lines := f s.l2.lines }
def setProms (s : State) (f : List Prom → List Prom) : State := s.setL2 { s.l2 with proms := f s.l2.proms }
/-- A release record whose stores are still on their way (R126). -/
def promLive (s : State) (p : Prom) : Bool :=
  p.reqs.any fun i => (s.reqs.any fun r => r.id == i) || s.fab.wc.any fun e => e.id == i
/-- Such a record holds the line. -/
def promHolds (s : State) (pa : Nat) : Bool := s.l2.proms.any fun p => p.pa == pa && s.promLive p
/-- The slice asks the recorded cores of a line (R126). -/
def askProms (s : State) (pa : Nat) : State :=
  s.setProms fun l => l.map fun p => if p.pa = pa then { p with asked := true } else p
/-- The dirty bits of a line go back to the region; a bad granule there is queued and keeps its contents (R57, R85). -/
def writeBits (s : State) (l : L2Line) : State :=
  if l.bv && l.feDirty then
    if s.ueAt (feGranule l.pa) then s.queueBad (feGranule l.pa) true
    else (List.range 32).foldl (fun s i => s.setFeRegion (l.pa + 4 * i) (l.fe.getD i true)) s
  else s
/-- A line leaves its slice: its dirty sectors and bits are written back, its release records go; those whose stores are
on their way stay until the core has answered (R48, R85, R126). -/
def evictLine (s : State) (l : L2Line) : State :=
  let s := s.dieWrites l.pa 128 fun g => l.dirty.getD (g % 4) false
  (s.setL2 { s.l2 with lines := s.l2.lines.filter (fun x => x.pa != l.pa),
                       proms := s.l2.proms.filter (fun p => p.pa != l.pa || s.promLive p) }).writeBits l
def effWeight (l : L2Line) : Nat := if l.stale then 15 else l.weight
/-- The line that leaves: greatest weight, then least recently touched, then the one listed first (R48, log 9). -/
def l2Victim : List L2Line → Option L2Line
  | [] => none
  | x :: l => match l2Victim l with
    | none => some x
    | some y => if effWeight y < effWeight x || (effWeight x == effWeight y && x.age ≤ y.age) then some x else some y
/-- Make room in a full set: the best victim that no release record holds leaves; a better one that is held is asked
for (R48, R126). False where every line is held. -/
def l2Room (s : State) (mine : List L2Line) : State × Bool :=
  if mine.length < 24 then (s, true)
  else
    let s := match l2Victim mine with
      | some v => if s.promHolds v.pa then s.askProms v.pa else s
      | none => s
    match l2Victim (mine.filter fun l => !s.promHolds l.pa) with
    | some v => (s.evictLine v, true)
    | none => (s, false)
def rotl16 (x n : Nat) : Nat := (x * 2 ^ n + x / 2 ^ (16 - n)) % 65536
/-- The two indices of the second-touch filter (R46). -/
def filterIdx (pa : Nat) : Nat × Nat :=
  (bits pa 22 7 ^^^ bits pa 38 23, bits pa 38 23 ^^^ bits pa 51 39 ^^^ rotl16 (bits pa 22 7) 5)
/-- A line with its bits from the region (R85). -/
def loadBits (s : State) (l : L2Line) : L2Line :=
  { l with bv := true, feDirty := false, fe := (List.range 32).map fun i => s.feRegion (l.pa + 4 * i) }
/-- n bytes touch the sector at an address. -/
def spans (pa n a : Nat) : Bool := a < pa + n && pa < a + 32
def sectorsOf (pa n : Nat) (old : List Bool) : List Bool :=
  (List.range 4).map fun i => old.getD i false || spans pa n (lineOf pa + 32 * i)
/-- The misses that other requests to the line make while this one is outstanding merge into it (R47, log 81). -/
def mergeMisses (s : State) (pa : Nat) : State :=
  s.setReqs (s.reqs.map fun r =>
    match r.loc with
    | .mem p => if !r.done && lineOf p == lineOf pa then { r with merged := true } else r
    | _ => r)
/-- A miss that allocates puts its line into the set, with its bits where the page keeps some (R45, R85); where every line
of a full set is held it bypasses. -/
def l2Alloc (s : State) (pa n cp pl : Nat) (hint : Hint) (wr bits : Bool) : State :=
  let r := s.l2Room (s.l2.lines.filter fun l => sliceOf l.pa == sliceOf pa && setOf l.pa == setOf pa)
  if r.2 then
    let s := r.1
    let l : L2Line := { pa := lineOf pa, valid := sectorsOf pa n [], dirty := if wr then sectorsOf pa n [] else [],
                        bv := false, fe := [], feDirty := false, tag := pl, weight := lineWeight cp pl hint,
                        touched := true, stale := false, ov := false, age := s.cycle }
    let bad := s.ueAt (feGranule pa)
    let s := if bits then (if bad then s.queueBad (feGranule pa) true else s.met (feGranule pa) 4) else s
    s.updL2 fun ls => ls ++ [if bits && !bad then s.loadBits l else l]
  else r.1.mergeMisses pa
/-- What one request does to its home slice's tags: lookup, allocation by policy, eviction; and the errors that its
base die corrects (R44 to R49, R54, R85). -/
def l2Touch (s : State) (pa n cp pl : Nat) (hint : Hint) (wr fe feb merged : Bool) : State :=
  let s := s.met pa n
  match s.l2Line? pa with
  | some l =>
    if cp = 3 then s.evictLine l
    else
      let load := fe && !l.bv
      let s := if load then s.met (feGranule pa) 4 else s
      let l := if load then s.loadBits l else l
      let l := { l with touched := true, stale := false, age := s.cycle, valid := sectorsOf pa n l.valid,
                        dirty := if wr then sectorsOf pa n l.dirty else l.dirty }
      s.updL2 fun ls => ls.map fun x => if x.pa = l.pa then l else x
  | none =>
    let (h0, h1) := filterIdx pa
    let slice := sliceOf pa
    let seen := s.l2.filter.contains (slice, h0) && s.l2.filter.contains (slice, h1)
    if merged then s
    else if cp = 0 || cp = 4 || (cp = 1 && seen) then s.l2Alloc pa n cp pl hint wr (fe || feb)
    else if cp = 1 then
      (s.setL2 { s.l2 with filter := (slice, h0) :: (slice, h1) ::
        (s.l2.filter.filter fun x => x != (slice, h0) && x != (slice, h1)) }).mergeMisses pa
    else (if fe then s.met (feGranule pa) 4 else s).mergeMisses pa
/-- The filters clear, lines without a touch age (R46, R49). -/
def clearFilters (s : State) (at_ : Nat) : State :=
  s.setL2 { s.l2 with filter := [], clearedAt := at_, lines := s.l2.lines.map fun l =>
    { l with stale := l.stale || !l.touched, touched := false } }

/-! ## Accesses without a page (R44) -/

/-- Every line of usable HBM4 that n bytes touch is looked up at its slice; nothing is allocated (R44, R49, R54). -/
def look (s : State) (pa n : Nat) (wr : Bool) : State :=
  if Config.feUnused ≤ pa then s
  else (s.met pa n).updL2 fun ls => ls.map fun l =>
    if pa < l.pa + 128 && l.pa < pa + n then
      { l with touched := true, stale := false, age := s.cycle,
               valid := (List.range 4).map (fun i => l.valid.getD i false || spans pa n (l.pa + 32 * i)),
               dirty := if wr then (List.range 4).map fun i => l.dirty.getD i false || spans pa n (l.pa + 32 * i)
                        else l.dirty }
    else l
/-- Bytes that an agent reads without a page, where no granule of theirs is bad; the bad ones are queued (R44, R57). -/
def readPhys (s : State) (pa n : Nat) : State × Option (List Byte) :=
  match s.uesIn pa n with
  | [] => (s.look pa n false, some (s.rdBytes pa n))
  | l => (s.queueAll l, none)
/-- The bad granules that a write of n bytes would merge into (R53). -/
def uesWr (s : State) (pa n : Nat) : List Nat :=
  (s.uesIn pa n).filter fun a => !(pa ≤ a && a + 32 ≤ pa + n)
/-- Bytes written by an agent that uses no page: a ring's writer, the park sweeper, the host. A write that would merge
into a bad granule is not performed (R399). -/
def wrPhys (s : State) (pa : Nat) (d : List Byte) : State :=
  if d = [] then s
  else match s.uesWr pa d.length with
    | [] => ((s.look pa d.length true).wrBytes pa d).clearMarks pa d.length
    | l => s.queueAll l
/-- Every byte of a range holds one value. -/
def fillRange (lo n : Nat) (v : Byte) (m : List Host.Cell) : List Host.Cell :=
  (m.filter fun c => c.1 < lo) ++ (if v = 0 then [] else (List.range n).map fun i => (lo + i, v)) ++
    m.filter fun c => lo + n ≤ c.1
/-- n bytes from a copied to b. -/
def copyRange (a b n : Nat) (m : List Host.Cell) : List Host.Cell :=
  (m.filter fun c => c.1 < b) ++ ((m.filter fun c => a ≤ c.1 && c.1 < a + n).map fun c => (c.1 - a + b, c.2)) ++
    m.filter fun c => b + n ≤ c.1
/-- A frame of n bytes is filled with zero and its bits with full (R87). -/
def zeroFrame (s : State) (f n : Nat) : State :=
  let r := feGranule f
  let s := s.look f n true
  let s := s.setMem (fillRange r (n / 32) 255 (fillRange f n 0 s.mem))
  let s := (s.clearMarks f n).clearMarks r (n / 32)
  s.updL2 fun ls => ls.map fun l =>
    if f ≤ l.pa && l.pa < f + n && l.bv then { l with fe := List.replicate 32 true } else l

end State

/-! ## Journal, fault and event rings (R157, R424, R431, R441) -/

/-- A little-endian field list: (width in bits, value), packed from bit 0. -/
def packBits : List (Nat × Nat) → Nat
  | [] => 0
  | (w, v) :: l => v % 2 ^ w + 2 ^ w * packBits l
def packRec (n : Nat) (l : List (Nat × Nat)) : List Byte := leBytes n (packBits l)

namespace Ring
/-- The ring's range lies wholly in one of the two places it may lie (R431). -/
def on (r : Ring) : Bool :=
  6 ≤ r.log2 && r.log2 ≤ 20 &&
  (r.base + 32 * 2 ^ r.log2 ≤ Config.hbmTop ||
   (Config.hostBase ≤ r.base && r.base + 32 * 2 ^ r.log2 ≤ Config.physTop))
def room (r : Ring) : Bool := r.on && (r.prod + 2 ^ 32 - r.cons) % 2 ^ 32 < 2 ^ r.log2
def slot (r : Ring) : Nat := r.base + 32 * (r.prod % 2 ^ r.log2)
def adv (r : Ring) : Ring := { r with prod := (r.prod + 1) % 2 ^ 32 }
/-- CONS write (R431): ignored where it would put PROD - CONS above the size. -/
def setCons (r : Ring) (v : Nat) : Ring :=
  if 2 ^ r.log2 < (r.prod + 2 ^ 32 - v % 2 ^ 32) % 2 ^ 32 then r else { r with cons := v % 2 ^ 32 }
end Ring

namespace State

/-- Write held journal records while the ring has room (R431, R442). -/
def drainJnl : Nat → State → State
  | 0, s => s
  | k + 1, s =>
    match s.cp.held with
    | [] => s
    | r :: l =>
      if s.cp.jnl.room then
        drainJnl k ((s.wrPhys s.cp.jnl.slot r).setCp
          { s.cp with jnl := s.cp.jnl.adv, held := l, snap := s.cp.snap - 1 })
      else s
/-- Add a journal record of R441. -/
def journal (s : State) (type ctx queue code slot a0 a1 : Nat) : State :=
  let r := packRec 32 [(8, type), (4, ctx), (6, queue), (14, 0), (32, s.cp.jseq), (32, code), (32, slot), (64, a0),
    (64, a1)]
  let s := s.setCp { s.cp with jseq := (s.cp.jseq + 1) % 2 ^ 32, held := s.cp.held ++ [r] }
  s.drainJnl s.cp.held.length

def drainFlt : Nat → State → State
  | 0, s => s
  | k + 1, s =>
    match s.flt.held with
    | [] => s
    | r :: l =>
      if s.flt.ring.room then
        drainFlt k ((s.wrPhys s.flt.ring.slot r).setFlt { s.flt with ring := s.flt.ring.adv, held := l })
      else s
/-- Add a fault-ring record of R157; records of types 4 and 5 are dropped where the ring has no room. -/
def fltRecord (s : State) (type ctx : Nat) (wr fe eng ue lfull : Bool) (fid addr frame : Nat) : State :=
  let r := packRec 32 [(8, type), (4, ctx), (1, b2n wr), (1, b2n fe), (1, b2n eng), (1, b2n ue), (1, b2n lfull),
    (15, 0), (32, fid), (64, addr), (64, frame), (64, 0)]
  if (type = 4 ∨ type = 5) ∧ (!s.flt.ring.room || s.flt.held ≠ []) then s
  else
    let s := s.setFlt { s.flt with held := s.flt.held ++ [r] }
    s.drainFlt s.flt.held.length

def drainEvt : Nat → State → State
  | 0, s => s
  | k + 1, s =>
    match s.fab.held with
    | [] => s
    | r :: l =>
      if s.fab.ring.room then
        drainEvt k ((s.wrPhys s.fab.ring.slot r).setFab { s.fab with ring := s.fab.ring.adv, held := l })
      else s
/-- Add an event record of R424; past 256 held records it is dropped and counted. -/
def event (s : State) (type port peer before after count : Nat) : State :=
  let r := packRec 32 [(8, type), (3, port), (3, s.fab.slot), (6, peer), (4, before), (4, after), (4, 0),
    (32, s.fab.slotCycle), (32, count), (32, 0), (64, s.cycle), (64, 0)]
  if 256 ≤ s.fab.held.length then s.setFab { s.fab with dropped := min 0xFFFF (s.fab.dropped + 1) }
  else
    let s := s.setFab { s.fab with held := s.fab.held ++ [r] }
    s.drainEvt s.fab.held.length

end State
end Sys2Proof.Machine
end

