-- ==== Sys2Proof/Machine/Xlate.lean ====
section
/-! DEFINITION. Translation: the table walk, TLBs, Starter, replayable faults (R140 to R165). The walk and the
access it serves are one step (log 7), so a conditional write of Starter always finds the leaf it read. -/

namespace Sys2Proof.Machine
namespace State

def pageBytes : PageSize → Nat | .k4 => 4096 | .k64 => 65536 | .m2 => 2097152
/-- A page that holds a listed frame is retired in every part (R165). -/
def badPage (s : State) (pa : Nat) (sz : PageSize) : Bool :=
  s.flt.bad.any fun l => l.any fun f => pa ≤ f && f < pa + pageBytes sz

/-- What a walk finds (R140 to R146). -/
inductive Walk
  | bad
  | ue (pa : Nat)
  | leaf (st : Nat) (l : Leaf) (entry : Nat) (pte : Nat)
  deriving DecidableEq, Repr

/-- A frame lies where a leaf may map it (R18, R144). -/
def frameOk (pa : Nat) (sz : PageSize) : Bool :=
  pa + pageBytes sz ≤ Config.hbmTop || (Config.hostBase ≤ pa && pa + pageBytes sz ≤ Config.physTop)

/-- Judge a leaf of a size (R142 to R144). PA of an ST 1 leaf is not judged. -/
def leafOf (va e entry : Nat) (sz : PageSize) : Walk :=
  let pa := bits e 63 24 * 4096
  let st := bits e 4 3
  if bitOf e 13 || bits e 23 16 ≠ 0 || 5 ≤ bits e 7 5 || bits e 11 8 = 15 then .bad
  else if st ≠ 1 && (pa % pageBytes sz ≠ 0 || !frameOk pa sz) then .bad
  else .leaf st { va := va / pageBytes sz * pageBytes sz, pa := pa, sz := sz, w := bitOf e 1, x := bitOf e 2,
                  cp := bits e 7 5, pl := bits e 11 8, feb := bitOf e 12 } entry e

/-- The walk from a table; n is the number of levels left, 4 at the root. -/
def walkFrom (s : State) (va : Nat) : Nat → Nat → Walk
  | 0, _ => .bad
  | n + 1, table =>
    let a := table + (va / 2 ^ (12 + 9 * n) % 512) * 8
    if s.ueAt a then .ue a
    else
      let e := s.rdN a 8
      let sz := bits e 15 14
      if !bitOf e 0 then .bad
      else if sz = 3 then
        let t := bits e 63 24 * 4096
        if bits e 13 1 ≠ 0 || bits e 23 16 ≠ 0 || Config.hbmTop < t + 4096 then .bad
        else walkFrom s va n t
      else if n = 1 ∧ sz = 2 then leafOf va e a .m2
      else if n = 0 ∧ sz = 0 then leafOf va e a .k4
      else if n = 0 ∧ sz = 1 then
        let l := a / 128 * 128
        if s.ueIn l 128 then .ue l
        else if (List.range 16).all fun i => s.rdN (l + 8 * i) 8 == e then leafOf va e l .k64 else .bad
      else .bad

/-- Tables below the first that the walk of va passes, in its order. -/
def tablesOf (s : State) (va : Nat) : Nat → Nat → List (Nat × Nat)
  | 0, _ => []
  | n + 1, table =>
    let e := s.rdN (table + (va / 2 ^ (12 + 9 * n) % 512) * 8) 8
    if bitOf e 0 && bits e 15 14 == 3 then (n, bits e 63 24 * 4096) :: tablesOf s va n (bits e 63 24 * 4096) else []
/-- The entries that the walk reads are looked up at their slices (R44). -/
def walkLook (s : State) (va n table : Nat) : State :=
  ((n, table) :: s.tablesOf va n table).foldl (fun s p =>
    if p.1 = 0 then s else s.look (p.2 + (va / 2 ^ (12 + 9 * (p.1 - 1)) % 512) * 8) 8 false) s

/-- Where a core's walk may start: the deepest walk-cache entry that covers va (R147); any other walk starts at the
root. -/
def walkStart (s : State) (core? : Option Nat) (ctx va : Nat) : Nat × Nat :=
  match core? with
  | none => (4, (s.cx ctx).root)
  | some core =>
  let hit := fun n => (s.walks.find? fun w => w.core == core && w.ctx == ctx && w.level == n
    && w.tag == va / 2 ^ (12 + 9 * n)).map fun w => (n, w.table)
  match hit 1 with
  | some r => r
  | none => match hit 2 with
    | some r => r
    | none => match hit 3 with
      | some r => r
      | none => (4, (s.cx ctx).root)

/-- Capacity of a TLB (R147, R149, R150). -/
def tlbCap : TlbUnit → Nat
  | .instr _ _ => 32 | .data _ _ => 64 | .core _ => 2048 | .peel _ => 512 | .remote => 4096
/-- Put an entry into a TLB; the oldest entry of a full one leaves (log 10). -/
def tlbFill (s : State) (u : TlbUnit) (ctx : Nat) (l : Leaf) : State :=
  let mine := s.tlb.filter fun e => e.unit == u && !(e.ctx == ctx && e.leaf.va == l.va)
  let rest := s.tlb.filter fun e => !(e.unit == u)
  let mine := if tlbCap u ≤ mine.length then mine.drop 1 else mine
  s.setTlb (rest ++ mine ++ [⟨u, ctx, l⟩])
def tlbHit (s : State) (u : TlbUnit) (ctx va : Nat) : Option Leaf :=
  (s.tlb.find? fun e => e.unit == u && e.ctx == ctx && e.leaf.va ≤ va && va < e.leaf.va + pageBytes e.leaf.sz
    && !s.badPage e.leaf.pa e.leaf.sz).map (·.leaf)
def walkFill (s : State) (core ctx va : Nat) (l : List (Nat × Nat)) : State :=
  let new := (l.filter fun p => p.1 ≠ 0).map fun p => (⟨core, ctx, p.1, va / 2 ^ (12 + 9 * p.1), p.2⟩ : WalkEntry)
  let old := s.walks.filter fun w => !new.contains w
  let mine := old.filter fun w => w.core == core
  let rest := old.filter fun w => w.core != core
  s.setWalks (rest ++ mine.drop (mine.length + new.length - 64) ++ new)

/-! ### Starter (R160 to R162) -/

def poolIdx : PageSize → Nat | .k4 => 0 | .k64 => 1 | .m2 => 2
/-- Where slot i of a pool lies. -/
def slotPa (p : Pool) (i : Nat) : Nat := p.base + 8 * (i % 2 ^ p.loglen)
/-- A slot's frame, where it can be read and Starter may hand it out (R161). -/
def slotFrame (s : State) (p : Pool) (sz : PageSize) (i : Nat) : Option Nat :=
  let a := slotPa p i
  let f := bits (s.rdN a 8) 51 12 * 4096
  if !s.ueAt a ∧ f % pageBytes sz = 0 ∧ f + pageBytes sz ≤ Config.hbmTop ∧ !s.badPage f sz then some f else none
def poolOn (p : Pool) : Bool := 6 ≤ p.loglen && p.loglen ≤ 16
/-- The oldest ready frame and the next TAKE; slots whose frame cannot serve are passed. The frame is the one that the
slot names now, whatever stood there when it was zeroed (R161, log 45). -/
def takeFrame (s : State) (p : Pool) (sz : PageSize) : Nat → Nat → Option (Nat × Nat)
  | 0, _ => none
  | k + 1, i =>
    if i = p.zero then none
    else match s.slotFrame p sz i with
      | some f => some (f, (i + 1) % 2 ^ 32)
      | none => takeFrame s p sz k ((i + 1) % 2 ^ 32)
/-- Starter's reads of n slots from i on: lookups, and the errors they meet (R44, R57). -/
def readSlots (s : State) (p : Pool) (i n : Nat) : State :=
  (List.range n).foldl (fun s k => (s.readPhys (slotPa p (i + k)) 8).1) s
/-- Serve an ST 1 leaf; false when the pool is empty (R160, R162). The frame that is handed out is zero and its bits are
full, also where the host put another one into the slot after its zeroing (R87). -/
def starter (s : State) (ctx : Nat) (l : Leaf) (entry pte : Nat) : State × Bool :=
  let pi := poolIdx l.sz
  let p := s.flt.pools.getD pi ⟨0, 0, 0, 0, 0⟩
  if !poolOn p then (s, false)
  else
    let ready := (p.zero + 2 ^ 32 - p.take) % 2 ^ 32
    match s.takeFrame p l.sz (2 ^ p.loglen + 1) p.take with
    | none => (s.readSlots p p.take (min ready (2 ^ p.loglen)), false)
    | some (f, i) =>
      let v := pte % 2 ^ 24 - 8 + f / 4096 * 2 ^ 24
      let s := (s.readSlots p p.take ((i + 2 ^ 32 - p.take) % 2 ^ 32)).zeroFrame f (pageBytes l.sz)
      let s := if l.sz = .k64 then s.wrPhys entry ((List.range 16).flatMap fun _ => leBytes 8 v)
        else s.wrPhys entry (leBytes 8 v)
      let s := s.setFlt { s.flt with pools := setAt s.flt.pools pi { p with take := i } }
      (s.fltRecord 5 ctx false false false false false 0 l.va f, true)

/-! ### Outcomes of translation (R145, R146) -/

inductive Xl
  | ok (pa : Nat) (l : Leaf)
  | xlate
  | prot
  | fault (typ : Nat)
  | ue (pa : Nat)
  deriving DecidableEq, Repr

/-- What an access needs of a leaf (R145), and whether the walk is allowed to act (R146, R163). -/
structure Acc where
  wr : Bool
  fetch : Bool
  deriving DecidableEq, Repr
def Acc.rd : Acc := ⟨false, false⟩
def Acc.store : Acc := ⟨true, false⟩
def Acc.ifetch : Acc := ⟨false, true⟩
def permits (a : Acc) (l : Leaf) : Bool := (!a.wr || l.w) && (!a.fetch || l.x)

/-- Walk and act on the leaf; after Starter serves a leaf the access walks again (R160). -/
def walkAct (s : State) (core? : Option Nat) (ctx va : Nat) (a : Acc) : State × Xl :=
  let (n, t) := s.walkStart core? ctx va
  let s := s.walkLook va n t
  match s.walkFrom va n t with
  | .bad => (s, .xlate)
  | .ue pa => (s, .ue pa)
  | .leaf st l entry pte =>
    if !permits a l then (s, .prot)
    else if st = 0 then
      if s.badPage l.pa l.sz then (s, .fault 3)
      else
        let s := match core? with
          | some c => s.walkFill c ctx va (s.tablesOf va n t)
          | none => s
        (s, .ok (l.pa + va % pageBytes l.sz) l)
    else if st = 1 then
      match s.starter ctx l entry pte with
      | (s, false) => (s, .fault 2)
      | (s', true) =>
        match s'.walkFrom va n t with
        | .leaf 0 l' _ _ => (s', .ok (l'.pa + va % pageBytes l'.sz) l')
        | _ => (s', .xlate)
    else if st = 2 then (s, .fault 1)
    else (s, .fault 3)

/-- Translate through a chain of TLBs, filling each on the way back (R147 to R150). -/
def translate (s : State) (units : List TlbUnit) (core? : Option Nat) (ctx va : Nat) (a : Acc) : State × Xl :=
  match units.findSome? fun u => s.tlbHit u ctx va with
  | some l =>
    if permits a l then (units.foldl (fun s u => if (s.tlbHit u ctx va).isSome then s else s.tlbFill u ctx l) s,
      .ok (l.pa + va % pageBytes l.sz) l)
    else (s, .prot)
  | none =>
    match s.walkAct core? ctx va a with
    | (s, .ok pa l) => (units.foldl (fun s u => s.tlbFill u ctx l) s, .ok pa l)
    | r => r

def dataUnits (core quad : Nat) : List TlbUnit := [.data core quad, .core core]
def instrUnits (core quad : Nat) : List TlbUnit := [.instr core quad, .core core]

/-- Residency alone, with no action: what LDNF, PREF and walk-ahead see (R149, R163, R301), by the same walk that an
access would make. -/
def peek (s : State) (units : List TlbUnit) (core? : Option Nat) (ctx va : Nat) (a : Acc) : Option (Nat × Leaf) :=
  match units.findSome? fun u => s.tlbHit u ctx va with
  | some l => if permits a l then some (l.pa + va % pageBytes l.sz, l) else none
  | none =>
    match s.walkFrom va (s.walkStart core? ctx va).1 (s.walkStart core? ctx va).2 with
    | .leaf 0 l _ _ =>
      if permits a l && !s.badPage l.pa l.sz then some (l.pa + va % pageBytes l.sz, l) else none
    | _ => none

/-- The uncorrectable error that such a walk meets (R399). -/
def peekUe (s : State) (units : List TlbUnit) (core? : Option Nat) (ctx va : Nat) : Option Nat :=
  match units.findSome? fun u => s.tlbHit u ctx va with
  | some _ => none
  | none =>
    match s.walkFrom va (s.walkStart core? ctx va).1 (s.walkStart core? ctx va).2 with | .ue pa => some pa | _ => none
/-- The table reads of such a walk. -/
def peekLook (s : State) (units : List TlbUnit) (core? : Option Nat) (ctx va : Nat) : State :=
  match units.findSome? fun u => s.tlbHit u ctx va with
  | some _ => s
  | none => s.walkLook va (s.walkStart core? ctx va).1 (s.walkStart core? ctx va).2

/-! ### Replayable faults (R156 to R159) -/

/-- Join the page's open fault or open one; none when 1024 are open (R156). -/
def openFault (s : State) (who : Who) (ctx ea typ : Nat) (wr fe eng : Bool) : State × Option Nat :=
  let page := vaOf ea / 4096
  match s.flt.faults.find? fun f => f.ctx == ctx && f.page == page with
  | some f =>
    (s.setFlt { s.flt with faults := s.flt.faults.map fun g =>
      if g.fid = f.fid then { g with joins := g.joins ++ [(who, ea)] } else g }, some f.fid)
  | none =>
    if 1024 ≤ s.flt.faults.length then (s, none)
    else
      let fid := s.flt.nextFid
      let s := s.setFlt { s.flt with
        faults := s.flt.faults ++ [⟨fid, ctx, page, typ, [(who, ea)]⟩], nextFid := (fid + 1) % 2 ^ 32 }
      (s.fltRecord typ ctx wr fe eng false false fid ea 0, some fid)
/-- An access of another package or of the command processor rests on its page's fault, or for 256 cycles (R156). Its
record carries no engine mark (R157, R410, log 50). -/
def restWho (s : State) (who : Who) (ctx ea typ : Nat) (wr fe : Bool) : State :=
  match s.openFault who ctx ea typ wr fe false with
  | (s, some _) => s
  | (s, none) => s.setFlt { s.flt with later := s.flt.later ++ [(who, s.cycle + 256)] }
/-- Remove accesses from every fault (R159). -/
def dropJoins (s : State) (gone : Who → Bool) : State :=
  s.setFlt { s.flt with later := s.flt.later.filter fun x => !gone x.1, faults := s.flt.faults.map fun f =>
    { f with joins := f.joins.filter fun j => !gone j.1 } }

end State
end Sys2Proof.Machine
end

