-- ==== Sys2Proof/Machine/Waits.lean ====
section
/-! DEFINITION. Full/empty waiting: wait tables, wakes, park areas and sweeps (R92 to R104). -/

namespace Sys2Proof.Machine
namespace State

/-! ### Peer packages: where replies and acknowledgements are queued (R414, R488) -/

def pair (s : State) (n : Nat) : Pair := (s.fab.pairs.find? fun p => p.peer == n).getD (Pair.reset n)
def updPair (s : State) (n : Nat) (f : Pair → Pair) : State :=
  if s.fab.pairs.any fun p => p.peer == n then
    s.setFab { s.fab with pairs := s.fab.pairs.map fun p => if p.peer = n then f p else p }
  else s.setFab { s.fab with pairs := s.fab.pairs ++ [f (Pair.reset n)] }
/-- Queue a reply to a request of another package and keep it among the last 64 (R414). -/
def sendReply (s : State) (node eseq status : Nat) (data : List Byte) : State :=
  let b := Body.reply eseq status data
  s.updPair node fun p =>
    { p with replies := p.replies ++ [b],
             seen := (eseq, none) :: p.seen.filter fun c => c.1 != eseq,
             cache := ((eseq, b) :: p.cache.filter fun c => c.1 != eseq).take 64 }
/-- Queue the acknowledgement of a write, or of a wait that is held (R415, R488), and note it as performed (R419). -/
def sendAck (s : State) (node eseq status : Nat) : State :=
  s.updPair node fun p =>
    { p with acks := p.acks ++ [(eseq, status, s.cycle)],
             seen := (eseq, some status) :: p.seen.filter fun c => c.1 != eseq }
/-- The same over UALink: a response carrying the reply (R425). -/
def sendUal (s : State) (port tag status : Nat) (data : List Byte) : State :=
  s.setFab { s.fab with ualResp := s.fab.ualResp ++ [(port, tag, .reply tag status data)] }

/-- Requests that UALink has a form for; every other travels as a write carrying its fields (R425). -/
def ualNative : Body → Bool
  | .write _ _ _ => true
  | .read _ _ .load _ _ nf => !nf
  | .rmw _ _ (.atom _ ty _ _) _ _ => ty != .f32
  | .rmw _ _ (.cas _ _) _ _ => true
  | _ => false
/-- The address of a body; that of a cancel and of what answers is 0. -/
def bodyVa : Body → Nat
  | .write va _ _ => va
  | .opw va _ _ _ => va
  | .read va _ _ _ _ _ => va
  | .rmw va _ _ _ _ => va
  | .fereq va _ _ _ => va
  | _ => 0
/-- Queue a UALink request for the accelerator that UAL_ID gives for the node (R425, R426). -/
def sendUalReq (s : State) (port peer line ctx : Nat) (b : Body) (wc req : Option Nat) : State :=
  (s.setFab { s.fab with ual := s.fab.ual ++
    [⟨s.nextId, port, peer, line, false, ctx, b, wc, req, false, s.fab.ualId.getD peer 0,
      bodyVa b + 2 ^ 48 * (ctx % 16), !ualNative b⟩] }).bump
/-- Ask the targets to free the waits that these requests are held in, once each (R91). -/
def cancelHeld (s : State) (gone : Nat → Bool) : State :=
  let named := fun (r : Option Nat) => match r with | some i => gone i | none => false
  let s1 := s.fab.pairs.foldl (fun s p =>
    (p.out.filter fun e => e.held && named e.req && !(p.out.any fun x => x.body == .cancel e.eseq)).foldl (fun s e =>
      s.updPair p.peer fun q =>
        { q with out := q.out ++ [⟨q.eseq, .cancel e.eseq, e.ctx, none, s.cycle, false, false, false, none, none⟩],
                 eseq := (q.eseq + 1) % 2 ^ 24 }) s) s
  let s2 := (s.fab.ual.filter fun u => u.held && named u.req && !(s.fab.ual.any fun x => x.body == .cancel u.id)).foldl
    (fun s u => s.sendUalReq u.port u.peer u.line u.ctx (.cancel u.id) none none) s1
  s2.setReqs (s2.reqs.map fun r => if gone r.id then { r with done := true } else r)
/-- The target's wait for a request is on record at the origin (R91). -/
def heldReq (s : State) (r : Nat) : Bool :=
  (s.fab.pairs.any fun p => p.out.any fun e => e.held && e.req == some r) ||
  s.fab.ual.any fun u => u.held && u.req == some r

/-! ### Wait tables (R93, R94) -/

/-- The table of a word: its home slice, or the core's scratchpad table. -/
def tableOf : Loc → Nat
  | .mem pa => sliceOf pa
  | .spad c _ => 128 + c
  | _ => 0
def tableCap (t : Nat) : Nat := if t < 128 then 256 else 64
def tableRoom (s : State) (t : Nat) : Bool := (s.waits.filter fun w => w.table == t).length < tableCap t
/-- The word that holds a location. -/
def wordOf : Loc → Loc
  | .mem pa => .mem (pa / 4 * 4)
  | .spad c o => .spad c (o / 4 * 4)
  | l => l

/-- Tell a waiter that it is woken (R91, R95). -/
def sendWake (s : State) (who : Waiter) (entry : Nat) (counts : Bool) : State :=
  match who with
  | .lanes gs ls => (s.setWakes (s.wakes ++ [⟨s.nextId, gs, ls, entry, counts⟩])).bump
  | .remote n e => s.sendReply n e 0 []
  | .ual p t => s.sendUal p t 0 []

/-- Wake entries in age order: a resident group's entry becomes WOKEN, a remote one is freed (R91, R94). -/
def wakeOne (s : State) (w : Wait) : State :=
  let s : State := match w.who with
    | .lanes _ _ => s.setWaits (s.waits.map fun x => if x.id = w.id then { x with st := .woken s.cycle } else x)
    | _ => s.setWaits (s.waits.filter fun x => x.id != w.id)
  s.sendWake w.who w.id (decide (w.cond ≠ WCond.waita))
def waiting (s : State) (word : Loc) (c : WCond) : List Wait :=
  s.waits.filter fun w => w.word == wordOf word && w.cond == c && w.st == .wait

/-! ### Park areas (R96, R97) -/

/-- Where record i of the context's park area lies, when its page maps a resident frame of usable HBM4 that allows the
access. -/
def parkAddr (s : State) (ctx : Nat) (a : Acc) (i : Nat) : Option Nat :=
  match s.peek [] none ctx (vaOf ((s.cx ctx).parkBase + 16 * i)) a with
  | some (pa, _) => if pa + 16 ≤ Config.hbmTop then some pa else none
  | none => none
def condCode : WCond → Nat | .ldwf => 0 | .ldce => 1 | .empty => 2 | .waita => 3
def condOf : Nat → WCond | 0 => .ldwf | 1 => .ldce | 2 => .empty | _ => .waita

/-- A park record (R97). -/
structure ParkRec where
  cond : WCond
  word : Loc
  gslot : Nat
  lanes : List Nat
  deriving DecidableEq, Repr

def maskOf (ls : List Nat) : Nat := ls.foldl (fun m l => if bitOf m l then m else m + 2 ^ l) 0
def lanesOf (m : Nat) : List Nat := (List.range 32).filter fun l => bitOf m l
def packPark (r : ParkRec) : List Byte :=
  let (sp, addr, tc) := match r.word with
    | .mem pa => (0, pa / 4, 0)
    | .spad c o => (1, o / 4, c)
    | _ => (0, 0, 0)
  packRec 16 [(1, 1), (2, condCode r.cond), (1, sp), (4, 0), (8, r.gslot / 64), (2, r.gslot / 16 % 4),
    (4, r.gslot % 16), (10, 0), (32, maskOf r.lanes), (50, addr), (8, tc), (6, 0)]
/-- Read a record; none is a record that is not in use or that the sweeper treats as free (R97). -/
def readPark (l : List Byte) : Option ParkRec :=
  let v := leNat l
  let sp := bitOf v 3
  let core := bits v 15 8
  let tc := bits v 121 114
  if !bitOf v 0 || bits v 7 4 ≠ 0 || bits v 31 22 ≠ 0 || bits v 127 122 ≠ 0 || 191 < core || 191 < tc
     || (!sp && tc ≠ 0) then none
  else some { cond := condOf (bits v 2 1), word := if sp then .spad tc (bits v 82 64 * 4) else .mem (bits v 113 64 * 4),
              gslot := core * 64 + bits v 17 16 * 16 + bits v 21 18, lanes := lanesOf (bits v 63 32) }
/-- The records in use of a context's park area, with their places, in order; one in a bad granule is not read. -/
def parkList (s : State) (ctx : Nat) : List (Nat × ParkRec) :=
  (List.range ((s.cx ctx).parkCnt * 256)).filterMap fun i =>
    (s.parkAddr ctx .rd i).bind fun pa =>
      if s.ueAt pa then none else (readPark (s.rdBytes pa 16)).map fun r => (pa, r)
/-- The bad granules that reading record i meets: one of its page's walk, or its own (R54, R399). -/
def parkUe (s : State) (ctx : Nat) (a : Acc) (i : Nat) : List Nat :=
  match s.parkAddr ctx a i with
  | some pa => s.uesIn pa 16
  | none => (s.peekUe [] none ctx (vaOf ((s.cx ctx).parkBase + 16 * i))).toList
/-- Those that reading the whole area meets. -/
def parkUes (s : State) (ctx : Nat) : List Nat :=
  ((List.range ((s.cx ctx).parkCnt * 256)).flatMap fun i => s.parkUe ctx .rd i).eraseDups
/-- Same 128-byte line. -/
def sameLine : Loc → Loc → Bool
  | .mem a, .mem b => lineOf a == lineOf b
  | .spad c a, .spad d b => c == d && lineOf a == lineOf b
  | _, _ => false
/-- The same overflow bit: the line's, or that of the core's scratchpad table (R97). -/
def sameOv : Loc → Loc → Bool
  | .spad c _, .spad d _ => c == d
  | a, b => sameLine a b
/-- A record in use, in some context's area, under the overflow bit of a word. -/
def anyParked (s : State) (word : Loc) : Bool :=
  s.ctxs.any fun c => (s.parkList c.id).any fun p => sameOv word p.2.word

/-! ### Change events (R95, R99) -/

def setOv (s : State) : Loc → Bool → State
  | .mem pa, b => s.updL2Line pa fun l => { l with ov := b }
  | .spad c _, b => s.updCore c fun x => { x with ov := b }
  | _, _ => s
/-- The overflow bit that covers a word (R97). -/
def ovOf (s : State) : Loc → Bool
  | .mem pa => match s.l2Line? pa with | some l => l.ov | none => false
  | .spad c _ => (s.co c).ov
  | _ => false
/-- The home asks for an immediate sweep of the contexts that wait on a word's line, where OV is set; where no record of
that line or table is left the sweep finds none, and OV is cleared (R99). -/
def askSweep (s : State) (word : Loc) : State :=
  if s.ovOf word then
    if s.anyParked word then
      (s.ctxs.filter fun c => (s.parkList c.id).any fun p => sameLine word p.2.word).foldl
        (fun s c => (s.setSweeps (s.sweeps ++ [⟨s.nextId, c.id, wordOf word⟩])).bump) s
    else s.setOv word false
  else s

/-- The waits that a change of a word wakes: data bytes `wrote`, its bit became `bit` (R95). -/
def wakeHits (s : State) (word : Loc) (wrote : Bool) (bit : Option Bool) : List Wait :=
  let oldest := fun (w : Wait) => (s.waiting word w.cond).head?.map (·.id) == some w.id
  s.waits.filter fun w => w.word == wordOf word && w.st == .wait && (match w.cond with
    | .waita => wrote
    | .ldwf => bit == some true
    | .ldce => bit == some true && oldest w
    | .empty => bit == some false && oldest w)
/-- A word changed in one step: entries are woken in age order (R95), and the sweep is asked for (R99). -/
def onChange (s : State) (word : Loc) (wrote : Bool) (bit : Option Bool) : State :=
  if wrote || bit.isSome then ((s.wakeHits word wrote bit).foldl wakeOne s).askSweep word else s

/-- Take lanes out of an entry; an entry without lanes is free. -/
def dropLane (s : State) (gs lane : Nat) (entry : Nat → Bool) : State :=
  s.setWaits (s.waits.filterMap fun w =>
    match w.who with
    | .lanes g ls =>
      if g = gs ∧ entry w.id then
        let ls' := ls.filter fun x => x != lane
        if ls' = [] then none else some { w with who := .lanes g ls' }
      else some w
    | _ => some w)
/-! ### Parking (R97, R98) -/

/-- Where a wait can park: nowhere, at a record, or an uncorrectable error met on the way. -/
inductive Spot
  | full
  | free (pa : Nat)
  | bad
  deriving DecidableEq, Repr
/-- The first record whose V bit is 0; a page that maps no resident, writable frame of usable HBM4 counts as full (R96,
R98). The records before it are read, and their lines looked up (R44). -/
def firstFree (ctx : Nat) : Nat → Nat → State → State × Spot
  | 0, _, s => (s, .full)
  | k + 1, i, s =>
    match s.parkUe ctx .store i with
    | [] =>
      match s.parkAddr ctx .store i with
      | none => firstFree ctx k (i + 1) s
      | some pa =>
        let s := s.look pa 16 false
        if bitOf (s.rdB pa).toNat 0 then firstFree ctx k (i + 1) s else (s, .free pa)
    | l => (s.queueAll l, .bad)
/-- Write a park record and set OV, where there is a free one (R97, R98). -/
def park (s : State) (ctx : Nat) (r : ParkRec) : State × Spot :=
  match firstFree ctx ((s.cx ctx).parkCnt * 256) 0 s with
  | (s, .free pa) => ((s.wrPhys pa (packPark r)).setOv r.word true, .free pa)
  | x => x
def clearPark (s : State) (pa : Nat) : State :=
  let b := (s.rdB pa).toNat
  s.wrPhys pa [BitVec.ofNat 8 (if b % 2 = 1 then b - 1 else b)]

/-- A lane leaves the park records of its context. -/
def dropParkLane (s : State) (t : Nat) : State :=
  ((s.parkList (s.tmOf t).ctx).filter fun p => p.2.gslot == t / 32 && p.2.lanes.contains (laneOf t)).foldl (fun s p =>
    let ls := p.2.lanes.filter fun x => x != laneOf t
    if ls = [] then s.clearPark p.1 else s.wrPhys p.1 (packPark { p.2 with lanes := ls })) s
/-- A lane leaves every entry, every record and every wake in flight (R104). -/
def leaveWaits (s : State) (t : Nat) : State :=
  let s := (s.dropLane (t / 32) (laneOf t) fun _ => true).dropParkLane t
  s.setWakes (s.wakes.filterMap fun w =>
    if w.gslot = t / 32 then
      let ls := w.lanes.filter fun x => x != laneOf t
      if ls = [] then none else some { w with lanes := ls }
    else some w)

/-- The bit of a word at its home. -/
def feAt (s : State) : Loc → Bool
  | .mem pa => s.feMem pa
  | .spad c o => s.feSp c o
  | _ => true
/-- The sweeper's test of one record (R99): of several COND 1 records on a word only the first of a sweep is woken. -/
def sweepHit (s : State) (woken : List Loc) (r : ParkRec) : Bool :=
  match r.cond with
  | .ldwf => s.feAt r.word
  | .ldce => s.feAt r.word && !woken.contains r.word
  | .empty => !s.feAt r.word
  | .waita => true
def sweepOne (acc : State × List Loc) (p : Nat × ParkRec) : State × List Loc :=
  let (s, woken) := acc
  if s.sweepHit woken p.2 then
    ((s.clearPark p.1).sendWake (.lanes p.2.gslot p.2.lanes) 0 (decide (p.2.cond ≠ WCond.waita)),
      if p.2.cond = .ldce then p.2.word :: woken else woken)
  else acc
/-- The sweeper's reads look their lines up (R44). -/
def parkLook (s : State) (ctx : Nat) : State :=
  ((List.range ((s.cx ctx).parkCnt * 32)).filterMap fun k => s.parkAddr ctx .rd (8 * k)).foldl
    (fun s pa => s.look pa 128 false) s
/-- Every overflow bit that is set: a word of its line or table. -/
def ovWords (s : State) : List Loc :=
  (s.l2.lines.filter (·.ov)).map (fun l => Loc.mem l.pa) ++ (s.cores.filter (·.ov)).map fun c => Loc.spad c.idx 0
/-- Sweep a context's area, all of it or the records of one word's line; OV is cleared where no record is left. -/
def sweep (s : State) (ctx : Nat) (only : Option Loc) : State :=
  let recs := (s.parkList ctx).filter fun p =>
    match only with | none => true | some w => sameLine w p.2.word
  let s := (recs.foldl sweepOne (s.parkLook ctx, [])).1
  (match only with | some w => [w] | none => s.ovWords).foldl
    (fun s w => if s.anyParked w then s else s.setOv w false) s

/-- Free wait entries, with or without waking them (R103, R104). Spurious wakes do not count as retries. -/
def freeWaits (s : State) (p : Wait → Bool) (wake : Bool) : State :=
  let gone := s.waits.filter p
  let s := s.setWaits (s.waits.filter fun w => !p w)
  if wake then gone.foldl (fun s w => s.sendWake w.who 0 false) s else s
/-- Free the park records of a context that a test picks. -/
def freeParks (s : State) (ctx : Nat) (p : ParkRec → Bool) (wake : Bool) : State :=
  ((s.parkList ctx).filter fun r => p r.2).foldl (fun s r =>
    let s := s.clearPark r.1
    if wake then s.sendWake (.lanes r.2.gslot r.2.lanes) 0 false else s) s

end State
end Sys2Proof.Machine
end

