-- ==== Sys2Proof/Machine/Ops.lean ====
section
/-! DEFINITION. The named operations over registers and threads: reading and writing registers with their tags,
pending results, advancing, taking a trap and returning from one, killing a context, and the frame in which a lane
or a uniform instruction acts (R194, R211 to R216, R229, R242, R321, R388 to R396). -/

namespace Sys2Proof.Machine

/-- Codes of R391. -/
def Cause.code : Cause → Nat
  | .illop => 0x01 | .illreg => 0x02 | .priv => 0x03 | .divz => 0x04 | .misalign => 0x05 | .xlate => 0x06
  | .prot => 0x07 | .rangelock => 0x08 | .feretry => 0x09 | .fenosup => 0x0A | .udiverge => 0x0B
  | .pendread => 0x0C | .swtrap => 0x0D | .bkpt => 0x0E | .scratch => 0x0F | .stack => 0x10 | .engcmd => 0x11
  | .planerec => 0x12 | .fabric => 0x13
/-- The cause a status code names (R410); others do not occur. -/
def Cause.ofCode : Nat → Cause
  | 0x05 => .misalign | 0x06 => .xlate | 0x07 => .prot | 0x08 => .rangelock | 0x0A => .fenosup | 0x0F => .scratch
  | 0x12 => .planerec | _ => .fabric

/-- An operand whose pending write matters (R214): lane register, predicate, uniform register, uniform predicate. -/
inductive Opd
  | w (n : Nat) | p (n : Nat) | g (n : Nat) | q (n : Nat)
  deriving DecidableEq, Repr

/-- What an instruction names: every register read or written in field order D, A, B, C, and what it reads. -/
structure Uses where
  held : List Nat
  reads : List Opd
  deriving DecidableEq, Repr

/-- The thread waits at a convergence point. -/
def TSt.isConv : TSt → Bool | .conv _ => true | _ => false

namespace State

/-! ## Registers -/

def wreg (s : State) (t n : Nat) : LaneReg := (s.th t).regs.getD n LaneReg.zero
/-- A lane register as a natural below 2^32. -/
def rw (s : State) (t n : Nat) : Nat := (s.wreg t n).val.toNat
def rp (s : State) (t n : Nat) : Bool := (s.th t).preds.getD n false
/-- g0 reads 0 (R230). -/
def rg (s : State) (gs n : Nat) : Nat := if n = 0 then 0 else ((s.gr gs).g.getD n 0).toNat
def rq (s : State) (gs n : Nat) : Bool := (s.gr gs).q.getD n false

def setReg (s : State) (t n : Nat) (r : LaneReg) : State :=
  s.updThread t fun x => { x with regs := setAt x.regs n r }
/-- wr of R243: the tag of a lane register becomes 0 (R75). -/
def setW (s : State) (t n v : Nat) : State := s.setReg t n ⟨BitVec.ofNat 32 v, Tag.zero⟩
def setP (s : State) (t n : Nat) (b : Bool) : State := s.updThread t fun x => { x with preds := setAt x.preds n b }
/-- Writes to g0 are discarded (R230). -/
def setG (s : State) (gs n v : Nat) : State :=
  if n = 0 then s else s.updGroup gs fun x => { x with g := setAt x.g n (BitVec.ofNat 64 v) }
def setQ (s : State) (gs n : Nat) (b : Bool) : State := s.updGroup gs fun x => { x with q := setAt x.q n b }
def setSt (s : State) (t : Nat) (st : TSt) : State := s.updThread t fun x => { x with st := st }

/-- The group holds the register (R194). -/
def holds (g : Group) (n : Nat) : Bool := n < g.base || (64 ≤ n && n < 128 && g.ext)

/-! ## Pending results (R211 to R213) -/

/-- A pending result of the thread: its own, or one of a uniform register of its group (R212, R213). -/
def Pend.ofThread (t : Nat) (p : Pend) : Bool :=
  match p.dst with | .reg u _ => u == t | .pred u _ => u == t | .ureg g _ => g == t / 32
def Pend.ofGroup (gs : Nat) (p : Pend) : Bool :=
  match p.dst with | .reg u _ => u / 32 == gs | .pred u _ => u / 32 == gs | .ureg g _ => g == gs
def threadPend (s : State) (t : Nat) : Bool := s.pend.any (Pend.ofThread t)
def groupPend (s : State) (gs : Nat) : Bool := s.pend.any (Pend.ofGroup gs)
def dstPend (s : State) (d : Dst) : Bool := s.pend.any fun p => p.dst == d
/-- A long-latency result whose value is known at issue. -/
def addPend (s : State) (d : Dst) (v : PVal) (req : Nat) (fp : Bool) : State :=
  (s.setPend (s.pend ++ [⟨s.nextId, d, v, req, fp, s.cycle⟩])).bump
def longW (s : State) (t n v : Nat) : State := s.addPend (.reg t n) (.reg ⟨BitVec.ofNat 32 v, Tag.zero⟩) 0 false

/-! ## Flush and kill (R151, R154, R396) -/

def allTargets : List TlbTarget :=
  (List.range 192).map TlbTarget.core ++ (List.range 192).map TlbTarget.peel ++ [.remote]
/-- Raise the context's epoch and send the invalidations (R151, R154). -/
def startFlush (s : State) (ctx : Nat) : State :=
  s.updCtx ctx fun c => { c with epoch := c.epoch + 1, unacked := allTargets }
/-- The freeing part of a drain: waits and records of the context end, its lanes woken spuriously (R103). -/
def drainWaits (s : State) (ctx : Nat) : State :=
  (s.freeParks ctx (fun _ => true) true).freeWaits (fun w => w.ctx == ctx) true

def ctxOfThread (s : State) (t : Nat) : Nat := (s.tmOf t).ctx
def ctxOfWho (s : State) : Who → Nat
  | .thread t => s.ctxOfThread t
  | .group gs => (s.tm (s.gr gs).team).ctx
  | .op o => match s.op? o with | some x => x.ctx | none => 16
  | .node g _ => match s.graph? g with | some x => x.ctx | none => 16
  | .queue q => (s.cp.queues.getD q Queue.reset).ctx
  | .done l => match s.launch? l with | some x => x.ctx | none => 16
  | _ => 16

/-- Operations that return nothing: a kill lets those issued be performed or not (R396). -/
def isStoreOp : MemOp → Bool
  | .store _ | .wline _ _ | .planeWrite _ _ _ _ _ | .engWord _ _ _ | .atom _ _ _ false => true
  | .fe .stfs _ _ _ _ | .fe .fesetFull _ _ _ _ | .fe .fesetEmpty _ _ _ _ => true
  | _ => false
/-- Waits of a killed context that are held for other packages are answered with FABRIC (R91). -/
def answerWaits (s : State) (ctx : Nat) : State :=
  (s.waits.filter fun w => w.ctx == ctx).foldl (fun s w => match w.who with
    | .remote n e => s.sendReply n e 0x13 []
    | .ual p t => s.sendUal p t 0x13 []
    | .lanes _ _ => s) s
/-- Reads of other packages that are dropped with a killed context are answered with FABRIC. -/
def answerReqs (s : State) (ctx : Nat) : State :=
  (s.reqs.filter fun r => r.ctx == ctx && !isStoreOp r.op).foldl (fun s r => match r.who with
    | .remote n e => s.sendReply n e 0x13 []
    | .ual p t => s.sendUal p t 0x13 []
    | _ => s) s
/-- Requests of other packages that rest are answered with FABRIC in a killed context. -/
def answerIncoming (s : State) (ctx : Nat) : State :=
  let mine := s.fab.incoming.filter fun i => i.ctx == ctx
  let s := s.dropJoins fun w => mine.any fun i => i.who == w
  mine.foldl (fun s i => match i.who with
    | .remote n e => match i.body with
      | .write _ _ _ => s.sendAck n e 0x13
      | .opw _ _ _ _ => s.sendAck n e 0x13
      | _ => s.sendReply n e 0x13 []
    | .ual p t => s.sendUal p t 0x13 []
    | _ => s) (s.setFab { s.fab with incoming := s.fab.incoming.filter fun i => i.ctx != ctx })
/-- Stop a context (R396): its threads stop, its waits, records, faults and engine operations are freed, and the
flush and drain begin. What is left ends at KILL_COMPLETE. -/
def stopCtx (s : State) (ctx : Nat) (why : KillWhy) : State :=
  if !s.hasCtx ctx || (s.cx ctx).killing.isSome then s
  else
    let mine := fun t => s.ctxOfThread t == ctx
    let gone := fun w => s.ctxOfWho w == ctx
    let s1 := s.setThreads (s.threads.map fun x => if mine x.slot then { x with st := .ended, defer := [] } else x)
    let s2 := s1.setPend (s1.pend.filter fun p => match p.dst with
      | .reg t _ => !mine t | .pred t _ => !mine t | .ureg g _ => !mine (g * 32))
    let s3 := s2.setWakes (s2.wakes.filter fun w => !mine (w.gslot * 32))
    let s4 := (s3.freeParks ctx (fun _ => true) false).setSweeps (s3.sweeps.filter fun w => w.ctx != ctx)
    let s5 := (s4.answerWaits ctx).setWaits (s4.waits.filter fun w => w.ctx != ctx)
    let s6 := (s5.dropJoins gone).cancelHeld fun i => s5.reqs.any fun r => r.id == i && r.ctx == ctx
    let s7 := ((s6.answerReqs ctx).answerIncoming ctx).setReqs (s6.reqs.filter fun r => !(r.ctx == ctx && !isStoreOp r.op))
    let s8 := s7.setOps (s7.ops.filterMap fun o =>
      if o.ctx = ctx then (if o.kind = .slice then some { o with st := .draining } else none) else some o)
    let ids := s8.ops.map (·.id)
    let s9 := s8.setCores (s8.cores.map fun c => { c with locks := c.locks.filter fun l => ids.contains l.op })
    let s10 := s9.updCtx ctx fun c => { c with killing := some why }
    s10.startFlush ctx
/-- The queue that a launch came from; a grid that a thread launched came from none (R441). -/
def queueOfLaunch (s : State) (l : Nat) : Nat :=
  match s.launch? l with
  | some x => match x.origin with
    | .node g _ => ((s.graph? g).map (·.queue)).getD 0
    | .device _ _ => 0
  | none => 0
/-- The queue of the KILL record (R441, R482), from whoever met the event. -/
def queueOfWho (s : State) : Who → Nat
  | .thread t => s.queueOfLaunch (s.tmOf t).launch
  | .group gs => s.queueOfLaunch (s.tm (s.gr gs).team).launch
  | .op o => match s.op? o with
    | some x => match x.who with
      | .thread t => s.queueOfLaunch (s.tmOf t).launch
      | .node g _ => ((s.graph? g).map (·.queue)).getD 0
      | _ => 0
    | none => 0
  | .node g _ => ((s.graph? g).map (·.queue)).getD 0
  | .queue q => q
  | .done l => s.queueOfLaunch l
  | _ => 0
def slotOfWho : Who → Nat | .thread t => t | .group gs => gs * 32 | _ => 0
def KillWhy.code : KillWhy → Nat | .nest => 1 | .dataue => 2 | .host => 3 | .late => 4 | .state => 5
/-- Kill a context (R395): the KILL record is written first. -/
def kill (s : State) (ctx : Nat) (why : KillWhy) (w : Who) (cause epc addr : Nat) : State :=
  if !s.hasCtx ctx || (s.cx ctx).killing.isSome then s
  else (s.stopCtx ctx why).journal 5 ctx (s.queueOfWho w) (KillWhy.code why + cause * 256) (slotOfWho w) epc addr

/-! ## Traps (R388 to R392, R337) -/

/-- TRAP_STAT of a trap raised at a level (R390). -/
def statOf (lvl : Nat) (i : TrapInfo) : BitVec 6 :=
  BitVec.ofNat 6 (lvl + 4 * b2n i.xw + 8 * b2n i.rem + 16 * b2n i.dfr + 32 * b2n i.grp)
/-- The registers that entry at level L + 1 writes (R388). -/
def TrapRegs.enter (r : TrapRegs) (i : TrapInfo) : TrapRegs :=
  if r.level = 0 then
    { r with level := 1, cause1 := BitVec.ofNat 8 i.cause.code, epc1 := i.epc, addr1 := i.addr, stat := statOf 0 i }
  else
    { r with level := 2, cause2 := BitVec.ofNat 8 i.cause.code, epc2 := i.epc, addr2 := i.addr, stat := statOf 1 i }
/-- Where a handler starts (R388): TRAP_VEC + 0x100 * (L' - 1). -/
def trapPc (r : TrapRegs) : DWord := r.vec + BitVec.ofNat 64 (0x100 * r.level)
/-- Take a trap: enter the next level, or kill the context at level 2 (R388). -/
def takeTrap (s : State) (t : Nat) (i : TrapInfo) : State :=
  if 2 ≤ (s.th t).trap.level then
    s.kill (s.ctxOfThread t) .nest (.thread t) i.cause.code i.epc.toNat i.addr.toNat
  else
    s.updThread t fun x =>
      { x with pc := trapPc x.trap, trap := TrapRegs.enter x.trap i, st := .run, retry := 0, re := .first, hbuf := [] }
/-- Raise a cause, unless a kill ended the thread: a lane that waited leaves its wait (R104), pending results land first (R388). -/
def raiseInfo (s : State) (t : Nat) (i : TrapInfo) : State :=
  if (s.th t).st = .ended then s else
  let s := if (s.th t).re = .first then s else s.leaveWaits t
  if s.threadPend t then s.updThread t fun x => { x with st := .trapping i, retry := 0, re := .first }
  else s.takeTrap t i
/-- Raise a cause at the instruction of the bundle (R389, R391). -/
def raise (s : State) (t : Nat) (c : Cause) (addr : Nat) : State :=
  s.raiseInfo t ⟨c, (s.th t).pc, BitVec.ofNat 64 addr, s.cur.len == 8, false, false, false⟩
/-- A uniform instruction traps every thread of the group that has not ended (R321). -/
def raiseGrp (s : State) (c : Cause) (addr : Nat) : State :=
  s.cur.threads.foldl (fun s t =>
    s.raiseInfo t ⟨c, (s.th t).pc, BitVec.ofNat 64 addr, s.cur.len == 8, false, false, true⟩) s

/-- A thread rests on the page's fault, or for 256 cycles where 1024 are open (R156). -/
def restFault (s : State) (t ea typ : Nat) (wr fe grp : Bool) : State :=
  match s.openFault (.thread t) (s.ctxOfThread t) ea typ wr fe false with
  | (s, some f) => s.setSt t (.faultRest f (s.cur.len == 8) grp)
  | (s, none) => s.setSt t (.slotRest (s.cycle + 256))
/-- An uncorrectable error in data that a thread reads kills its context and queues the granule (R399, R57). -/
def dataUe (s : State) (t pa ea : Nat) : State :=
  (s.queueBad pa true).kill (s.ctxOfThread t) .dataue (.thread t) 0 (s.th t).pc.toNat ea

/-- Return from the current trap level (R337), once pending results have landed. -/
def trapReturn (s : State) (t : Nat) : State :=
  s.updThread t fun x =>
    { x with pc := if x.trap.level = 1 then x.trap.epc1 else x.trap.epc2,
             trap := { x.trap with level := x.trap.level - 1 }, st := .run }

/-! ## Advancing and ending -/

/-- The next instruction in sequence (R224). -/
def advance (s : State) (t : Nat) : State :=
  s.updThread t fun x =>
    { x with pc := x.pc + BitVec.ofNat 64 s.cur.len, st := .run, retry := 0, re := .first, hbuf := [] }
def goto (s : State) (t : Nat) (pc : DWord) : State :=
  s.updThread t fun x => { x with pc := pc, st := .run, retry := 0, re := .first, hbuf := [] }
/-- The proof bit's rest (R213), for a thread that the instruction leaves able to issue. -/
def restM (s : State) (m : Bool) (t : Nat) : State :=
  if m && (s.th t).st == .run && s.threadPend t then s.setSt t .proof else s

/-- Threads of a group that have not ended, in lane order. -/
def live (s : State) (gs : Nat) : List Nat :=
  ((List.range 32).map fun l => gs * 32 + l).filter fun t => (s.th t).st != .ended
/-- UDIVERGE (R216): every thread not ended waits at a convergence point and the points differ. -/
def checkConv (s : State) (gs : Nat) : State :=
  let l := s.live gs
  let pcs := l.map fun t => (s.th t).pc
  if l ≠ [] && (l.all fun t => (s.th t).st.isConv) && (pcs.any fun p => p != pcs.headD 0) then
    l.foldl (fun s t => s.raiseInfo t ⟨.udiverge, (s.th t).pc, 0, (s.th t).st == .conv true, false, false, false⟩) s
  else s

/-! ## Barriers (R330, R331) -/

def releaseBar (s : State) (team b ph : Nat) : State :=
  s.setGroups (s.groups.map fun g =>
    if g.team = team && (g.wait == .bar b ph) then { g with wait := .none } else g)
/-- The groups that had arrived already arrive in the new phase (R330). -/
def pendingArrivals (s : State) (team b ph : Nat) : List Group :=
  s.groups.filter fun g => g.team == team && (g.wait == .arrive b ph true || g.wait == .arrive b ph false)
/-- One arrival; a completion releases the waiters and lets the groups held back arrive, with fuel for the chain. -/
def arriveN : Nat → State → Nat → Nat → Bool → State
  | 0, s, _, _, _ => s
  | k + 1, s, gs, b, waits =>
    let g := s.gr gs
    let u := g.team
    let br := (s.tm u).bars.getD b (Bar.start 0)
    if br.last.any fun x => x.1 == g.gid && x.2 == br.phase then
      s.updGroup gs fun x => { x with wait := .arrive b br.phase waits }
    else
      let last := (g.gid, br.phase) :: br.last.filter fun x => x.1 != g.gid
      let s := if waits then s.updGroup gs fun x => { x with wait := .bar b br.phase }
               else s.updGroup gs fun x => { x with wait := .none }
      let br := { br with arr := br.arr + 1, last := last }
      let s := s.updTeam u fun x => { x with bars := setAt x.bars b br }
      if br.arr = br.exp ∧ br.exp ≠ 0 then
        let s := (s.updTeam u fun x => { x with bars := setAt x.bars b { br with phase := br.phase + 1, arr := 0 } })
        let held := s.pendingArrivals u b br.phase
        let s := s.releaseBar u b br.phase
        held.foldl (fun s h => arriveN k s h.gslot b (h.wait == .arrive b br.phase true)) s
      else s
def arrive (s : State) (gs b : Nat) (waits : Bool) : State := arriveN 40 s gs b waits
/-- A group ends: every barrier expects one less, and loses the group's arrival in the current phase (R331). -/
def barGone (s : State) (u gid b : Nat) : State :=
  let br := (s.tm u).bars.getD b (Bar.start 0)
  let had := br.last.any fun x => x.1 == gid && x.2 == br.phase
  let br := { br with exp := br.exp - 1, arr := if had then br.arr - 1 else br.arr }
  if br.exp ≠ 0 ∧ br.arr = br.exp then
    let s := s.updTeam u fun x => { x with bars := setAt x.bars b { br with phase := br.phase + 1, arr := 0 } }
    let held := s.pendingArrivals u b br.phase
    let s := s.releaseBar u b br.phase
    held.foldl (fun s h => s.arrive h.gslot b (h.wait == .arrive b br.phase true)) s
  else s.updTeam u fun x => { x with bars := setAt x.bars b br }
def groupEnd (s : State) (gs : Nat) : State :=
  let g := s.gr gs
  let s := (List.range 16).foldl (fun s b => s.barGone g.team g.gid b) s
  s.updGroup gs fun x => { x with ext := false, active := false, wait := .none }
/-- A thread ends (R192, R325): it leaves its waits, and the last of a group ends the group. -/
def endThread (s : State) (t : Nat) : State :=
  let s := (s.setSt t .ended).leaveWaits t
  if s.live (t / 32) = [] then s.groupEnd (t / 32) else s.checkConv (t / 32)

/-! ## Settling after a result lands -/

/-- A thread that rested on its pending results goes on, ends, returns or traps once none is left (R213). TRAP_ENTRY
is an event of its own. -/
def settleThread (s : State) (t : Nat) : State :=
  if s.threadPend t then s
  else match (s.th t).st with
    | .proof => s.setSt t .run
    | .exiting => if (s.th t).defer = [] then s.endThread t else s
    | .returning => s.trapReturn t
    | _ => s
def settleGroup (s : State) (gs : Nat) : State :=
  if (s.gr gs).proof && !s.groupPend gs then s.updGroup gs fun g => { g with proof := false } else s

/-! ## Reads from the host window (R484) -/

/-- The epoch under which a unit's translation was made: one that has not acknowledged the last flush may still use the
entries of the flush before (R148, R152). -/
def unitEpoch (s : State) (ctx : Nat) (u : TlbTarget) : Nat :=
  if (s.cx ctx).unacked.contains u then (s.cx ctx).acked else (s.cx ctx).epoch
def whoUnit (w : Who) (core : Nat) : TlbTarget := match w with | .op _ => .peel core | _ => .core core

/-- A read, at the host or at another package, of bytes that an instruction, a fetch or the command processor needs: a
request of its own, which a completion or its timeout, or a reply, ends. -/
def askBytes (s : State) (w : Who) (core team ctx : Nat) (l : Loc) (va n : Nat) (form : LdForm) : State :=
  let r : Req := { id := s.nextId, who := w, core := core, ctx := ctx, team := team,
                   epoch := s.unitEpoch ctx (whoUnit w core), op := .load, loc := l, size := n, ord := .plain, scope := .thr, hint := .none, cp := 2,
                   pl := 0, feb := false, va := va, form := form, fill := [], parts := [], after := [],
                   co := s.nextId, bytes := n, merged := false, nrel := false, xw := s.cur.len == 8, done := false,
                   since := s.cycle }
  (s.setReqs (s.reqs ++ [r])).bump

/-! ## Instruction caches (R225) -/

/-- The word that the quadrant's instruction cache holds for an address (R225). -/
def cachedWord (s : State) (core quad ctx va : Nat) : Option Nat :=
  (s.code.find? fun w => w.core == core && w.quad == quad && w.ctx == ctx && w.va == va).map (·.word)
def cacheWord (s : State) (core quad ctx va w : Nat) : State := s.setCode (s.code ++ [⟨core, quad, ctx, va, w⟩])
/-- The instruction caches of a core's quadrants that a test picks lose what they hold. -/
def dropCode (s : State) (core : Nat) (quad : Nat → Bool) : State :=
  s.setCode (s.code.filter fun w => !(w.core == core && quad w.quad))

/-! ## The frame of a lane instruction (R229, R242) -/

def opdPend (s : State) (t : Nat) : Opd → Bool
  | .w n => s.dstPend (.reg t n)
  | .p n => s.dstPend (.pred t n)
  | .g n => n != 0 && s.dstPend (.ureg (t / 32) n)
  | .q _ => false
/-- TRAP_ADDR of PENDREAD (R214). -/
def opdCode : Opd → Nat
  | .w n => n | .p n => 256 + n | .g n => 512 + n | .q n => 768 + n

/-- The thread's guard (R229). -/
def guardT (s : State) (t : Nat) (g : Guard) : Bool :=
  match g.idx with | none => true | some i => s.rp t i != g.neg
/-- The group's guard. -/
def guardG (s : State) (gs : Nat) (g : Guard) : Bool :=
  match g.idx with | none => true | some i => s.rq gs i != g.neg
def guardPend (s : State) (t : Nat) (g : Guard) : Option Nat :=
  match g.idx with
  | some i => if s.dstPend (.pred t i) then some i else none
  | none => none

/-- Steps 6 to 8 of R242, then the body, in a thread that no kill ended: ILLREG, the guard, PENDREAD, the effect, the rest of M = 1. -/
def laneOne (haz : Nat → Bool) (h : Hdr) (u : Uses) (body : State → Nat → State) (s : State) (t : Nat) : State :=
  if (s.th t).st = .ended then s else
  let g := s.grOf t
  match u.held.find? fun n => !holds g n with
  | some n => s.raise t .illreg n
  | none =>
    match (if haz t then s.guardPend t h.gd else none) with
    | some i => s.raise t .pendread (opdCode (.p i))
    | none =>
      if !s.guardT t h.gd then (s.advance t).restM h.m t
      else
        match (if haz t then u.reads.find? (s.opdPend t) else none) with
        | some o => s.raise t .pendread (opdCode o)
        | none => (body s t).restM h.m t
/-- HAZTRAP of a thread's group (R214). -/
def hazOf (s : State) (t : Nat) : Bool := (s.grOf t).haz
/-- A lane instruction acts in each thread of the bundle, in ascending lane order (R253, R295), under the HAZTRAP that
stood before it. -/
def laneOp (h : Hdr) (u : Uses) (body : State → Nat → State) (s : State) : State :=
  s.cur.threads.foldl (laneOne s.hazOf h u body) s

/-- The thread passes steps 6 to 8, with a true guard: it takes part in a group operation (R284); one that raises PENDREAD
does not (R277, log 73). -/
def takesPart (s : State) (h : Hdr) (u : Uses) (t : Nat) : Bool :=
  (u.held.all fun n => holds (s.grOf t) n) &&
  !((s.grOf t).haz && ((s.guardPend t h.gd).isSome || u.reads.any (s.opdPend t))) && s.guardT t h.gd
/-- The participants of t: threads of its group in the bundle with a true guard (R284). -/
def participants (s : State) (h : Hdr) (u : Uses) (t : Nat) : List Nat :=
  s.cur.threads.filter fun x => x / 32 == t / 32 && s.takesPart h u x

/-! ## The frame of a uniform instruction (R321) -/

def curGroup (s : State) : Nat := s.cur.threads.headD 0 / 32
def advanceAll (s : State) : State := s.cur.threads.foldl advance s
/-- M = 1 on a uniform instruction: the whole group rests until all its results are in (R213). -/
def restG (s : State) (m : Bool) (gs : Nat) : State :=
  if m && s.groupPend gs then s.updGroup gs fun g => { g with proof := true } else s
/-- A uniform instruction acts once for its group: PENDREAD, guard, body. The body advances the threads. -/
def uniOp (h : Hdr) (reads : List Opd) (body : State → Nat → State) (s : State) : State :=
  let gs := s.curGroup
  if !s.guardG gs h.gd then (s.advanceAll).restG h.m gs
  else
    match (if (s.gr gs).haz then reads.find? (s.opdPend (gs * 32)) else none) with
    | some o => s.raiseGrp .pendread (opdCode o)
    | none => (body s gs).restG h.m gs

end State
end Sys2Proof.Machine
end

