-- ==== Sys2Proof/Machine/Operands.lean ====
section
/-! DEFINITION. Operand forms: register and immediate sources, integer and float operands and results under a type,
pairs and quads, special registers, effective addresses, the trap base (R29 to R32, R167, R230, R251, R393). -/

/-! ## What an instruction names (R194, R214, R230) -/

namespace Sys2Proof
open Machine

/-- Lane registers that a "w/i" operand names. -/
def Src.w : Src → List Nat | .reg n => [n] | .imm _ => []
def Src.opd : Src → List Opd | .reg n => [.w n] | .imm _ => []
/-- Uniform registers that a "g/i" operand names. -/
def Src.gs : Src → List Opd | .reg n => [.g n] | .imm _ => []

end Sys2Proof

namespace Sys2Proof.Machine

def optW : Option Nat → List Nat | some n => [n] | none => []
/-- Registers of a memory data operand: one, a pair, a quad (R230). -/
def tyRegs (ty : Ty) (n : Nat) : List Nat :=
  match ty with | .w64 => [n, n + 1] | .w128 => [n, n + 1, n + 2, n + 3] | _ => [n]
/-- D written, the listed lane registers read. -/
def useD (d : Nat) (rs : List Nat) : Uses := ⟨d :: rs, rs.map .w⟩
/-- Lane registers read, none written. -/
def useR (rs : List Nat) : Uses := ⟨rs, rs.map .w⟩

namespace State

/-! ## Sources -/

/-- A "w/i" operand as a natural below 2^32 (R230). -/
def srcW (s : State) (t : Nat) : Src → Nat
  | .reg n => s.rw t n
  | .imm v => wrapN 32 v
/-- A "g/i" operand as a natural below 2^64 (R230). -/
def srcG (s : State) (gs : Nat) : Src → Nat
  | .reg n => s.rg gs n
  | .imm v => wrapN 64 v
/-- A "w/none" operand: an absent one contributes zero (R32). -/
def optIdx (s : State) (t : Nat) : Option Nat → Nat
  | some n => s.rw t n
  | none => 0
/-- The 64-bit value of a pair, low word first (R230). -/
def rdPair (s : State) (t n : Nat) : Nat := s.rw t n + 2 ^ 32 * s.rw t (n + 1)
/-- Write consecutive registers from n on. -/
def setRun (s : State) (t n : Nat) : List Nat → State
  | [] => s
  | v :: l => setRun (s.setW t n v) t (n + 1) l
def setPair (s : State) (t n v : Nat) : State := (s.setW t n (v % 2 ^ 32)).setW t (n + 1) (v / 2 ^ 32 % 2 ^ 32)
/-- The bytes of a memory data operand of a type (R230, R303). -/
def dataBytes (s : State) (t : Nat) (ty : Ty) (d size : Nat) : List Byte :=
  (leBytes 16 ((tyRegs ty d).foldr (fun n acc => s.rw t n + 2 ^ 32 * acc) 0)).take size

end State

/-! ## Integer types (R167, R251) -/

def tyBits : Ty → Nat | .s32 | .z32 => 32 | .s16 | .z16 => 16 | .s8 | .z8 => 8 | _ => 32
/-- A register operand under an integer type. -/
def rdInt (ty : Ty) (x : Nat) : Int := if ty.isSigned then sext (tyBits ty) x else (x % 2 ^ tyBits ty : Nat)
/-- An n-bit result extended to 32 bits. -/
def extInt (ty : Ty) (v : Int) : Nat :=
  if ty.isSigned then wrapN 32 (sext (tyBits ty) (wrapN (tyBits ty) v)) else wrapN (tyBits ty) v
/-- The least and the greatest value of an integer type. -/
def tyMin (ty : Ty) : Int := if ty.isSigned then -(2 : Int) ^ (tyBits ty - 1) else 0
def tyMax (ty : Ty) : Int := if ty.isSigned then (2 : Int) ^ (tyBits ty - 1) - 1 else (2 : Int) ^ tyBits ty - 1
/-- One narrowing of an exact result (R255). -/
def narrow (sf : SatF) (ty : Ty) (x : Int) : Int :=
  match sf with
  | .wrap => x
  | .ssat => sat x (-(2 : Int) ^ (tyBits ty - 1)) ((2 : Int) ^ (tyBits ty - 1) - 1)
  | .usat => sat x 0 ((2 : Int) ^ tyBits ty - 1)
/-- Conditions of R233. -/
def holdsI (cc : Cond) (a b : Int) : Bool :=
  match cc with
  | .eq => a == b | .ne => a != b | .lt => a < b | .le => a ≤ b | .gt => b < a | .ge => b ≤ a

/-- Access size in bytes of a memory type (R232). -/
def tySize : Ty → Nat
  | .s16 | .z16 | .f16 | .bf16 => 2
  | .s8 | .z8 | .e4m3 | .e5m2 => 1
  | .w64 => 8 | .w128 => 16
  | _ => 4
/-- A loaded value extended to its register words (R297): the words of D. -/
def loadWords (ty : Ty) (v : Nat) : List Nat :=
  match ty with
  | .w64 => [v % 2 ^ 32, v / 2 ^ 32 % 2 ^ 32]
  | .w128 => [v % 2 ^ 32, v / 2 ^ 32 % 2 ^ 32, v / 2 ^ 64 % 2 ^ 32, v / 2 ^ 96 % 2 ^ 32]
  | _ => [extInt ty v]

namespace State

/-! ## Bodies of lane instructions -/

/-- A fixed-latency result into a lane register, and the next instruction. -/
def fixW (d : Nat) (f : State → Nat → Nat) (s : State) (t : Nat) : State := (s.setW t d (f s t)).advance t
/-- A fixed-latency result into a predicate. -/
def fixP (d : Nat) (f : State → Nat → Bool) (s : State) (t : Nat) : State := (s.setP t d (f s t)).advance t

/-! ## Effective addresses (R32, R393) -/

/-- The trap base that takes the place of g0 at trap level 1 or 2 (R393). -/
def trapBase (s : State) (t : Nat) : Nat :=
  let r := (s.th t).trap
  let b := r.save.toNat
  if r.level = 1 then (b + 512 * t) % 2 ^ 64
  else if r.level = 2 then (b + 0x0C000000 + 256 * t) % 2 ^ 64 else 0
/-- What a thread reads from a uniform register: where a result for it is on its way, the old value or the new one, each
thread for itself (R212, R290, log 6). -/
def rgSeen (s : State) (t n : Nat) : Nat :=
  match s.pend.find? fun p => n != 0 && p.dst == .ureg (t / 32) n with
  | some p => match p.val with
    | .ureg v => if Config.pendPick p.id t then v.toNat else s.rg (t / 32) n
    | _ => s.rg (t / 32) n
  | none => s.rg (t / 32) n
/-- A global effective address; `tb` says that the instruction is one of R393. -/
def eaGlobal (s : State) (tb : Bool) (t a : Nat) (b : Option Nat) (off : Int) (size : Nat) : Nat :=
  let base := if tb ∧ a = 0 then s.trapBase t else s.rgSeen t a
  wrapN 64 (base + sext 32 (s.optIdx t b) + off * size)
/-- A scratchpad or stack effective address, modulo 2^32. -/
def eaLocal (s : State) (t b : Nat) (off : Int) (size : Nat) : Nat := wrapN 32 (s.rw t b + off * size)

/-! ## Special registers (R29 to R31) -/

/-- Codes 2 to 13 and 16 to 18, the same for MOVS and UMOVS. -/
def specialReg (s : State) (gs sc : Nat) : Nat :=
  let g := s.gr gs
  let u := s.tm g.team
  let c := gs / 64
  match sc with
  | 2 => g.gid
  | 3 => u.x | 4 => u.y | 5 => u.z
  | 6 => u.nx | 7 => u.ny | 8 => u.nz
  | 9 => g.role
  | 10 => c | 11 => rank c | 12 => cluster c
  | 13 => s.fab.node
  | 16 => s.fab.slot + 8 * (s.fab.slotCycle % 2 ^ 29)
  | 17 => dieOf c
  | 18 => u.prio
  | _ => 0
/-- The package cycle counter has 64 bits (R30). -/
def clock (s : State) : Nat := s.cycle % 2 ^ 64

end State
end Sys2Proof.Machine
end

