-- ==== Sys2Proof/Machine/Flags.lean ====
section
/-! DEFINITION. Flag computations: FPSTAT bits are ORed in and never cleared by arithmetic (R179, R180). The only
flags of the machine are FPSTAT's; integer, bit, predicate and group operations set none (R252). -/

namespace Sys2Proof.Machine
namespace State

/-- OR flags into the thread's FPSTAT (R180). -/
def orFlags (s : State) (t : Nat) (f : Num.Flags) : State :=
  s.updThread t fun x => { x with fpstat := x.fpstat ||| f }
/-- Write a fixed-latency float result with its flags. -/
def setF (s : State) (t d : Nat) (r : Nat × Num.Flags) : State := (s.setW t d r.1).orFlags t r.2
/-- A long-latency float result; its flags are set with it (R180, R211). -/
def longF (s : State) (t d : Nat) (r : Nat × Num.Flags) : State :=
  (s.addPend (.reg t d) (.reg ⟨BitVec.ofNat 32 r.1, Tag.zero⟩) 0 true).orFlags t r.2

end State
end Sys2Proof.Machine
end

