-- ==== Sys2Proof/Machine/Arith.lean ====
section
/-! DEFINITION. Lane integer arithmetic, constants, moves and selection (R254 to R261). -/

namespace Sys2Proof.Machine

/-- An integer result of two operands under a type (R251, R255). -/
def int2 (ty : Ty) (a : Nat) (b : Src) (f : Int → Int → Int) (s : State) (t : Nat) : Nat :=
  extInt ty (f (rdInt ty (s.rw t a)) (rdInt ty (s.srcW t b)))

/-- NOP (R259). -/
def execNop (h : Hdr) (s : State) : Out := .next (State.laneOp h (useR []) State.advance s)
/-- ADD (R255). -/
def execAdd (h : Hdr) (sf : SatF) (ty : Ty) (d a : Nat) (b : Src) (s : State) : Out :=
  .next (State.laneOp h (useD d (a :: b.w)) (State.fixW d (int2 ty a b fun x y => narrow sf ty (x + y))) s)
/-- SUB (R255). -/
def execSub (h : Hdr) (sf : SatF) (ty : Ty) (d a : Nat) (b : Src) (s : State) : Out :=
  .next (State.laneOp h (useD d (a :: b.w)) (State.fixW d (int2 ty a b fun x y => narrow sf ty (x - y))) s)
/-- MUL (R255). -/
def execMul (h : Hdr) (sf : SatF) (ty : Ty) (d a : Nat) (b : Src) (s : State) : Out :=
  .next (State.laneOp h (useD d (a :: b.w)) (State.fixW d (int2 ty a b fun x y => narrow sf ty (x * y))) s)
/-- MULH: the upper n bits of the exact product (R256). -/
def execMulh (h : Hdr) (ty : Ty) (d a : Nat) (b : Src) (s : State) : Out :=
  .next (State.laneOp h (useD d (a :: b.w))
    (State.fixW d (int2 ty a b fun x y => (x * y) / (2 : Int) ^ tyBits ty)) s)
/-- MAD: one narrowing of the exact a * b + c (R255). -/
def execMad (h : Hdr) (sf : SatF) (ty : Ty) (d a : Nat) (b : Src) (c : Nat) (s : State) : Out :=
  .next (State.laneOp h (useD d (a :: b.w ++ [c]))
    (State.fixW d fun s t => int2 ty a b (fun x y => narrow sf ty (x * y + rdInt ty (s.rw t c))) s t) s)

/-- Quotient and remainder of R257 for b not 0. -/
def quotRem (ty : Ty) (a b : Int) : Int × Int :=
  if ty.isSigned && a == tyMin ty && b == -1 then (a, 0) else (Int.tdiv a b, Int.tmod a b)
/-- DIV and REM: DIVZ, or a long-latency result (R257). -/
def divBody (rem : Bool) (ty : Ty) (d a : Nat) (b : Src) (s : State) (t : Nat) : State :=
  let x := rdInt ty (s.rw t a)
  let y := rdInt ty (s.srcW t b)
  if y = 0 then s.raise t .divz 0
  else (s.longW t d (extInt ty (if rem then (quotRem ty x y).2 else (quotRem ty x y).1))).advance t
/-- DIV (R257). -/
def execDiv (h : Hdr) (ty : Ty) (d a : Nat) (b : Src) (s : State) : Out :=
  .next (State.laneOp h (useD d (a :: b.w)) (divBody false ty d a b) s)
/-- REM (R257). -/
def execRem (h : Hdr) (ty : Ty) (d a : Nat) (b : Src) (s : State) : Out :=
  .next (State.laneOp h (useD d (a :: b.w)) (divBody true ty d a b) s)
/-- MIN (R258). -/
def execMin (h : Hdr) (ty : Ty) (d a : Nat) (b : Src) (s : State) : Out :=
  .next (State.laneOp h (useD d (a :: b.w)) (State.fixW d (int2 ty a b min)) s)
/-- MAX (R258). -/
def execMax (h : Hdr) (ty : Ty) (d a : Nat) (b : Src) (s : State) : Out :=
  .next (State.laneOp h (useD d (a :: b.w)) (State.fixW d (int2 ty a b max)) s)
/-- |a|, with the most negative value as R258 gives it. -/
def absInt (st : Bool) (ty : Ty) (x : Int) : Int := if st then min x.natAbs (tyMax ty) else x.natAbs
/-- ABS (R258). -/
def execAbs (h : Hdr) (st : Bool) (ty : Ty) (d a : Nat) (s : State) : Out :=
  .next (State.laneOp h (useD d [a]) (State.fixW d fun s t => extInt ty (absInt st ty (rdInt ty (s.rw t a)))) s)

/-- LI (R239). -/
def execLi (h : Hdr) (d : Nat) (v : Int) (s : State) : Out :=
  .next (State.laneOp h (useD d []) (State.fixW d fun _ _ => wrapN 32 v) s)
/-- LIH: bits 31:16 replaced, the rest kept (R239). -/
def execLih (h : Hdr) (d v : Nat) (s : State) : Out :=
  .next (State.laneOp h ⟨[d], [.w d]⟩ (State.fixW d fun s t => v % 65536 * 65536 + s.rw t d % 65536) s)
/-- MOV of one, two or four registers (R260). -/
def execMov (h : Hdr) (ty : Ty) (d a : Nat) (s : State) : Out :=
  .next (State.laneOp h ⟨tyRegs ty d ++ tyRegs ty a, (tyRegs ty a).map .w⟩
    (fun s t => (s.setRun t d ((tyRegs ty a).map (s.rw t))).advance t) s)
/-- SEL (R261). -/
def execSel (h : Hdr) (d a : Nat) (b : Src) (c : Nat) (s : State) : Out :=
  .next (State.laneOp h ⟨d :: a :: b.w, .w a :: b.opd ++ [.p c]⟩
    (State.fixW d fun s t => if s.rp t c then s.rw t a else s.srcW t b) s)
/-- SETP (R261). -/
def execSetp (h : Hdr) (cc : Cond) (ty : Ty) (d a : Nat) (b : Src) (s : State) : Out :=
  .next (State.laneOp h (useR (a :: b.w))
    (State.fixP d fun s t => holdsI cc (rdInt ty (s.rw t a)) (rdInt ty (s.srcW t b))) s)

end Sys2Proof.Machine
end

