-- ==== Sys2Proof/Machine/Fetch.lean ====
section
/-! DEFINITION. The picker and the fetch: which threads are ready, the bundle that issues, its instruction, and the
wait at a convergence point (R205, R206, R215, R216, R224, R242). -/

namespace Sys2Proof.Machine
namespace State

/-! ## Ready threads (R205) -/

/-- The core takes issues: powered, neither gated nor halted, and the device not stopped by a fatal record. -/
def coreRuns (s : State) (c : Nat) : Bool :=
  !(s.co c).halted && !(s.co c).gated && !s.dev.fatal
/-- The group may issue in this cycle (R205, R208, R209). -/
def groupRuns (s : State) (g : Group) : Bool :=
  g.active && g.wait == .none && !g.proof && g.holdUntil ≤ s.cycle && s.coreRuns (g.gslot / 64) &&
  (s.cx (s.tm g.team).ctx).killing.isNone && !(s.tm g.team).ending
/-- A word of the thread's next instruction is on its way from the host window (R205, R484). -/
def fetching (s : State) (x : Thread) : Bool :=
  s.reqs.any fun r => match r.form with
    | .code q => r.core == coreOf x.slot && q == quadOf x.slot && r.ctx == s.ctxOfThread x.slot &&
        (r.va == x.pc.toNat || r.va == (x.pc.toNat + 4) % 2 ^ 64)
    | _ => false
/-- The structural resource that an instruction needs (R41, R205). -/
def resOf (i : Instr) : Option Res :=
  match i with
  | .ld _ _ _ _ _ | .st _ _ _ _ _ | .ldl _ _ _ _ | .stl _ _ _ _ | .ldnf _ _ _ _ _ _ | .pref _ _ _ _ _
  | .atom _ _ _ _ _ _ _ | .cas _ _ _ _ _ _ | .red _ _ _ _ _ _ => some .coalescer
  | .fsf _ _ _ _ _ _ => some .sfu
  | .mma _ _ _ => some .matrixPort
  | i => match toRaw i with | some r => if r.s then some .uniformPipe else none | none => none
/-- The instruction that the thread issues next, where its quadrant's instruction cache holds it. -/
def nextInstr (s : State) (x : Thread) : Option Instr :=
  let word := fun a => s.cachedWord (coreOf x.slot) (quadOf x.slot) (s.ctxOfThread x.slot) (vaOf a)
  (word x.pc.toNat).bind fun w0 =>
    if instrLen w0 = 8 then (word ((x.pc.toNat + 4) % 2 ^ 64)).bind (decodeWords w0) else decodeWords w0 0
/-- A resource that it needs is taken in this cycle. -/
def blocked (s : State) (x : Thread) : Bool :=
  s.cur.busy != [] && ((s.nextInstr x).bind resOf).any s.cur.busy.contains
/-- The thread could issue if its group did. -/
def runnable (s : State) (x : Thread) : Bool := x.st == .run && x.defer == [] && !s.fetching x && !s.blocked x
def ready (s : State) (x : Thread) : Bool := s.runnable x && s.groupRuns (s.gr (x.slot / 32))
/-- A group whose threads not ended all wait at one convergence point (R215). -/
def convDone (s : State) (gs : Nat) : Bool :=
  let l := s.live gs
  l ≠ [] && (l.all fun t => (s.th t).st.isConv && (s.th t).defer == [] && (s.th t).pc == (s.th (l.headD 0)).pc)
/-- A group with work, whether or not it is in the active set (R209). -/
def groupReady (s : State) (g : Group) : Bool :=
  g.wait == .none && !g.proof &&
  ((s.threads.any fun x => x.slot / 32 == g.gslot && s.runnable x) || s.convDone g.gslot)
/-- The complete convergence points that may issue. -/
def convReady (s : State) : List Group :=
  s.groups.filter fun g => s.groupRuns g && s.convDone g.gslot && !s.blocked (s.th ((s.live g.gslot).headD 0))

/-! ## Ages (R206, R208, R210) -/

/-- Results of the thread, or of its group, outstanding for more than 512 cycles (R208). -/
def longOut (s : State) (p : Pend → Bool) : Bool := s.pend.any fun x => p x && x.since + 512 < s.cycle
/-- Threads that the rules of R208 let leave the active set: what each waits for. A group at TFLSH or TDRN stays
(R339). -/
def parked (s : State) (g : Group) (x : Thread) : Bool :=
  match x.st with
  | .feWait | .feRest _ | .faultRest _ _ _ | .slotRest _ => true
  | .feSent r => s.heldReq r
  | .proof | .exiting | .returning | .trapping _ => s.longOut (Pend.ofThread x.slot)
  | .run => match g.wait with
    | .none => g.proof && s.longOut (Pend.ofGroup g.gslot)
    | .flush _ _ | .drain _ _ | .acq _ => false
    | _ => true
  | _ => false
def eligible (s : State) (g : Group) : Bool :=
  g.active && !s.groupReady g &&
  s.threads.all fun x => x.slot / 32 != g.gslot || x.st == .ended || s.parked g x
/-- Bring the ages of readiness and eligibility up to the present cycle: a thread's counts the cycles in which it was
ready and did not issue (R206), a pending group's those in which it had a ready thread (R210). -/
def refresh (s : State) : State :=
  let cs := s.convReady.map (·.gslot)
  let s' := s.setThreads (s.threads.map fun x =>
    { x with readySince := if s.ready x || cs.contains (x.slot / 32)
        then max x.readySince (s.gr (x.slot / 32)).holdUntil else s.cycle })
  s'.setGroups (s'.groups.map fun g =>
    { g with readySince := (if !g.active && s.groupReady g then some (g.readySince.getD s.cycle) else none),
             eligSince := (if s.eligible g then some (g.eligSince.getD s.cycle) else none) })

/-! ## Candidates (R206) -/

/-- A candidate bundle: threads in lane order at one PC of one team, or those of one group at its complete convergence
point. -/
structure Cand where
  threads : List Nat
  pc : DWord
  conv : Bool
  deriving DecidableEq, Repr

/-- The one of two threads that takes a lane position: ready longest, then lower GID. -/
def wins (s : State) (x y : Thread) : Bool :=
  x.readySince < y.readySince ||
  (x.readySince == y.readySince && (s.gr (x.slot / 32)).gid ≤ (s.gr (y.slot / 32)).gid)
def winner (s : State) : List Thread → Option Thread
  | [] => none
  | x :: l => match winner s l with
    | none => some x
    | some y => if s.wins x y then some x else some y
/-- The candidate of a (team, PC) pair among ready threads. -/
def candOf (s : State) (rs : List Thread) (u : Nat) (pc : DWord) : Cand :=
  let mine := rs.filter fun x => (s.gr (x.slot / 32)).team == u && x.pc == pc
  ⟨(List.range 32).filterMap fun l => (s.winner (mine.filter fun x => laneOf x.slot == l)).map (·.slot), pc, false⟩
def pairsOf (s : State) : List Thread → List (Nat × DWord)
  | [] => []
  | x :: l =>
    let r := pairsOf s l
    let k := ((s.gr (x.slot / 32)).team, x.pc)
    if r.contains k then r else k :: r
/-- The candidates of a quadrant. A complete convergence point competes as the threads that wait there, ready since it
became complete (log 82). -/
def cands (s : State) (c q : Nat) : List Cand :=
  let rs := s.threads.filter fun x => coreOf x.slot == c && quadOf x.slot == q && s.ready x
  let cs := s.convReady.filter fun g => g.gslot / 64 == c && g.gslot / 16 % 4 == q
  ((s.pairsOf rs).map fun k => s.candOf rs k.1 k.2) ++
  cs.map fun g => ⟨s.live g.gslot, (s.th ((s.live g.gslot).headD 0)).pc, true⟩
/-- Cycles for which the thread passed over longest has been passed over. -/
def passedMost (s : State) (k : Cand) : Nat := k.threads.foldl (fun m t => max m (s.cycle - (s.th t).readySince)) 0
def oldest (s : State) (k : Cand) : Nat := k.threads.foldl (fun m t => min m (s.th t).readySince) s.cycle
/-- The picker's order between two candidates; `force` when some ready thread was passed over 64 times. -/
def prefer (s : State) (force : Bool) (x y : Cand) : Bool :=
  if force then
    s.passedMost y < s.passedMost x || (s.passedMost x == s.passedMost y && x.pc.toNat ≤ y.pc.toNat)
  else
    y.threads.length < x.threads.length ||
    (x.threads.length == y.threads.length &&
      (s.oldest x < s.oldest y || (s.oldest x == s.oldest y && x.pc.toNat ≤ y.pc.toNat)))
/-- The first candidate; of two teams' candidates alike in all that R206 compares, the one listed first (log 90). -/
def best (s : State) (force : Bool) : List Cand → Option Cand
  | [] => none
  | x :: l => match best s force l with
    | none => some x
    | some y => if s.prefer force x y then some x else some y
def pick (s : State) (c q : Nat) : Option Cand :=
  let l := s.cands c q
  s.best (s.threads.any fun x => coreOf x.slot == c && quadOf x.slot == q && s.ready x && x.readySince + 64 ≤ s.cycle
    || l.any fun k => 64 ≤ s.passedMost k) l
/-- The quadrants, core * 4 + quadrant, that have a candidate in this cycle. -/
def readyQuads (s : State) : List Nat :=
  ((s.groups.filter fun g => s.groupReady g && s.groupRuns g &&
    (s.co (g.gslot / 64)).next.getD (g.gslot / 16 % 4) 0 ≤ s.cycle).map fun g => g.gslot / 16).eraseDups
/-- For an empty agenda they take turns (R222, log 4). -/
def firstReady (s : State) : Option (Nat × Nat) :=
  let l := s.readyQuads
  l[s.cycle / 2 % max 1 l.length]?.map fun k => (k / 4, k % 4)

/-! ## Fetch (R224, R225) -/

/-- What fetching a word gives. -/
inductive Fetched
  | word (w : Nat)
  | trap (c : Cause)
  | fault (typ : Nat)
  | ue (pa : Nat)
  | wait
  deriving DecidableEq, Repr

/-- Fetch the word at a global address for a thread's context. An address that is not local names no instruction
memory (R322): XLATE. -/
def fetchWord (s : State) (t a : Nat) : State × Fetched :=
  let ctx := s.ctxOfThread t
  let core := coreOf t
  let quad := quadOf t
  if 2 ^ 54 ≤ a || !s.isLocal ctx a then (s, .trap .xlate)
  else
    match s.translate (instrUnits core quad) (some core) ctx (vaOf a) .ifetch with
    | (s, .ok pa l) =>
      match s.cachedWord core quad ctx (vaOf a) with
      | some w => (s, .word w)
      | none =>
        if Config.hostBase ≤ pa then (s.askBytes (.thread t) core (s.grOf t).team ctx (.host pa) a 4 (.code quad), .wait)
        else if s.ueAt pa then (s, .ue pa)
        else
          ((s.l2Touch pa 4 l.cp l.pl .none false false l.feb false).cacheWord core quad ctx (vaOf a) (s.rdN pa 4),
            .word (s.rdN pa 4))
    | (s, .xlate) => (s, .trap .xlate)
    | (s, .prot) => (s, .trap .prot)
    | (s, .fault ty) => (s, .fault ty)
    | (s, .ue pa) => (s, .ue pa)

/-- A fetch that failed: every thread of the bundle traps, rests or is killed. -/
def failFetch (s : State) (a : Nat) : Fetched → State
  | .trap c => s.cur.threads.foldl (fun s t => s.raise t c a) s
  | .fault ty => s.cur.threads.foldl (fun s t => s.restFault t a ty false false false) s
  | .ue pa => s.dataUe (s.cur.threads.headD 0) pa a
  | .word _ | .wait => s

/-- Uniform instructions, QNT, REDG and SCAN with .g (R215). -/
def isConv (i : Instr) : Bool :=
  match i with
  | .qnt _ _ _ _ => true
  | .redg _ g _ _ _ _ => g
  | .scan _ g _ _ _ _ _ => g
  | i => match toRaw i with | some r => r.s | none => false

/-- Arrive at a convergence point; the group of the bundle's first thread goes on once all its threads are there. -/
def converge (s : State) : State × Bool :=
  let gs := s.cur.threads.headD 0 / 32
  let s := s.cur.threads.foldl (fun s t => s.setSt t (.conv (s.cur.len == 8))) s
  let s := (s.cur.threads.map fun t => t / 32).foldl (fun s g => s.checkConv g) s
  if s.convDone gs then (s.setCur { s.cur with threads := s.live gs }, true) else (s, false)

/-- Word0 of a uniform instruction, well formed or not: S = 1 and an assigned opcode (R226, R241). -/
def uniWord (w0 : Nat) : Bool :=
  bitOf w0 31 && (bits w0 28 22 ≤ 0x15 ||
    [0x20, 0x21, 0x22, 0x30, 0x31, 0x32, 0x33, 0x34, 0x35, 0x36, 0x40, 0x41, 0x42, 0x43, 0x70, 0x71, 0x72].contains
      (bits w0 28 22))
/-- ILLOP: of a uniform instruction in every thread of the group, once it has converged (R242, R321). -/
def illop (s : State) (w0 : Nat) : State :=
  if uniWord w0 then
    match s.converge with
    | (s, true) => s.raiseGrp .illop 0
    | (s, false) => s
  else s.cur.threads.foldl (fun s t => s.raise t .illop 0) s

/-- Fetch and decode for the bundle in `cur`: the instruction that executes now, if one does. -/
def fetchCur (s : State) : State × Option Instr :=
  let t := s.cur.threads.headD 0
  let a := s.cur.pc.toNat
  match s.fetchWord t a with
  | (s, .word w0) =>
    let s := s.setCur { s.cur with len := instrLen w0 }
    let (s, f) := if instrLen w0 = 8 then s.fetchWord t ((a + 4) % 2 ^ 64) else (s, .word 0)
    match f with
    | .word e =>
      match decodeWords w0 e with
      | none => (s.illop w0, none)
      | some i =>
        if isConv i then
          match s.converge with
          | (s, true) => (s, some i)
          | (s, false) => (s, none)
        else (s, some i)
    | f => (s.failFetch ((a + 4) % 2 ^ 64) f, none)
  | (s, f) => ((s.setCur { s.cur with len := 4 }).failFetch a f, none)

/-- The picker's next cycle is the one after (R206). -/
def pickedAt (s : State) (c q : Nat) : State :=
  s.updCore c fun x => { x with next := setAt x.next q (s.cycle + 1) }
/-- Threads that issue are ready again from the next cycle on, as are those of the quadrant whose resource is taken in
this one. -/
def issued (s : State) (c q : Nat) (k : Cand) : State :=
  s.setThreads (s.threads.map fun x =>
    if k.threads.contains x.slot || (coreOf x.slot == c && quadOf x.slot == q && s.blocked x)
    then { x with readySince := s.cycle + 1 } else x)

/-- The picker of a quadrant issues, at most once in a cycle: the state with the bundle and, where one executes, the
instruction. The resources in `busy` are taken (R205). -/
def issueAt (s : State) (c q : Nat) (busy : List Res) : State × Option Instr :=
  if s.cycle < (s.co c).next.getD q 0 then (s, none)
  else
    let s := s.setCur { s.cur with busy := busy }
    match s.pick c q with
    | none => (s.setCur { s.cur with busy := [] }, none)
    | some k =>
      (((s.pickedAt c q).issued c q k).setCur
        { core := c, quad := q, threads := k.threads, pc := k.pc, len := 4, last := [], busy := [] }).fetchCur

end State
end Sys2Proof.Machine
end

