-- ==== Sys2Proof/Machine/Bits.lean ====
section
/-! DEFINITION. Bits and bytes, predicates, packing and packed 16-bit integers (R262 to R268, R279 to R282). -/

namespace Sys2Proof.Machine

/-- A result of two 32-bit patterns (R262). -/
def pat2 (a : Nat) (b : Src) (f : Nat → Nat → Nat) (s : State) (t : Nat) : Nat := f (s.rw t a) (s.srcW t b)
def not32 (x : Nat) : Nat := 2 ^ 32 - 1 - x % 2 ^ 32
/-- Shifts of R262; s is the whole 32-bit B. -/
def shl32 (x n : Nat) : Nat := if 32 ≤ n then 0 else x * 2 ^ n % 2 ^ 32
def shr32 (x n : Nat) : Nat := if 32 ≤ n then 0 else x / 2 ^ n
def sar32 (x n : Nat) : Nat := wrapN 32 (sext 32 x / (2 : Int) ^ min n 31)
/-- Funnel shift of R263. -/
def shf32 (left : Bool) (a c n : Nat) : Nat :=
  let k := min n 32
  if left then bits ((a * 2 ^ 32 + c) * 2 ^ k) 63 32 else bits ((c * 2 ^ 32 + a) / 2 ^ k) 31 0
/-- BFX of R264. -/
def bfx32 (sx : Bool) (a b len : Nat) : Nat :=
  let f := a / 2 ^ (b % 32) % 2 ^ len
  if sx then wrapN 32 (sext len f) else f
/-- BFI of R264: bits of the field above bit 31 are dropped. -/
def bfi32 (d a b len : Nat) : Nat :=
  let p := b % 32
  (d % 2 ^ p + a % 2 ^ len * 2 ^ p + d / 2 ^ (p + len) * 2 ^ (p + len)) % 2 ^ 32
def popc (n x : Nat) : Nat := ((List.range n).filter fun i => bitOf x i).length
def clz32 (x : Nat) : Nat := if x = 0 then 32 else 31 - Nat.log2 x
def brev32 (x : Nat) : Nat := (List.range 32).foldl (fun r i => 2 * r + b2n (bitOf x i)) 0
/-- One halfword of PRMT under its control byte (R266). -/
def prmtHalf (x ctl : Nat) : Nat :=
  let hw := x / 2 ^ (16 * (ctl % 4)) % 65536
  let hw := if bitOf ctl 2 then hw % 256 * 256 + hw / 256 else hw
  match bits ctl 4 3 with
  | 0 => hw
  | 1 => 0
  | 2 => if bitOf hw 15 then 65535 else 0
  | _ => hw % 256 * 257
def prmt32 (a b c : Nat) : Nat :=
  let x := a + 2 ^ 32 * b
  prmtHalf x (c % 256) + 65536 * prmtHalf x (c / 256 % 256)

/-- AND (R262). -/
def execAnd (h : Hdr) (d a : Nat) (b : Src) (s : State) : Out :=
  .next (State.laneOp h (useD d (a :: b.w)) (State.fixW d (pat2 a b fun x y => x &&& y)) s)
/-- OR (R262). -/
def execOr (h : Hdr) (d a : Nat) (b : Src) (s : State) : Out :=
  .next (State.laneOp h (useD d (a :: b.w)) (State.fixW d (pat2 a b fun x y => x ||| y)) s)
/-- XOR (R262). -/
def execXor (h : Hdr) (d a : Nat) (b : Src) (s : State) : Out :=
  .next (State.laneOp h (useD d (a :: b.w)) (State.fixW d (pat2 a b fun x y => x ^^^ y)) s)
/-- ANDN (R262). -/
def execAndn (h : Hdr) (d a : Nat) (b : Src) (s : State) : Out :=
  .next (State.laneOp h (useD d (a :: b.w)) (State.fixW d (pat2 a b fun x y => x &&& not32 y)) s)
/-- SHL (R262). -/
def execShl (h : Hdr) (d a : Nat) (b : Src) (s : State) : Out :=
  .next (State.laneOp h (useD d (a :: b.w)) (State.fixW d (pat2 a b shl32)) s)
/-- SHR (R262). -/
def execShr (h : Hdr) (d a : Nat) (b : Src) (s : State) : Out :=
  .next (State.laneOp h (useD d (a :: b.w)) (State.fixW d (pat2 a b shr32)) s)
/-- SAR (R262). -/
def execSar (h : Hdr) (d a : Nat) (b : Src) (s : State) : Out :=
  .next (State.laneOp h (useD d (a :: b.w)) (State.fixW d (pat2 a b sar32)) s)
/-- SHF (R263). -/
def execShf (h : Hdr) (left : Bool) (d a : Nat) (b : Src) (c : Nat) (s : State) : Out :=
  .next (State.laneOp h (useD d (a :: b.w ++ [c]))
    (State.fixW d fun s t => shf32 left (s.rw t a) (s.rw t c) (s.srcW t b)) s)
/-- BFX (R264). -/
def execBfx (h : Hdr) (sx : Bool) (d a : Nat) (b : Src) (len : Nat) (s : State) : Out :=
  .next (State.laneOp h (useD d (a :: b.w)) (State.fixW d fun s t => bfx32 sx (s.rw t a) (s.srcW t b) len) s)
/-- BFI (R264): FN 0 and FN 1 write the same (log 17). -/
def execBfi (h : Hdr) (_fn1 : Bool) (d a : Nat) (b : Src) (len : Nat) (s : State) : Out :=
  .next (State.laneOp h ⟨d :: a :: b.w, .w d :: .w a :: b.opd⟩
    (State.fixW d fun s t => bfi32 (s.rw t d) (s.rw t a) (s.srcW t b) len) s)
/-- POPC (R265). -/
def execPopc (h : Hdr) (d a : Nat) (s : State) : Out :=
  .next (State.laneOp h (useD d [a]) (State.fixW d fun s t => popc 32 (s.rw t a)) s)
/-- CLZ (R265). -/
def execClz (h : Hdr) (d a : Nat) (s : State) : Out :=
  .next (State.laneOp h (useD d [a]) (State.fixW d fun s t => clz32 (s.rw t a)) s)
/-- BREV (R265). -/
def execBrev (h : Hdr) (d a : Nat) (s : State) : Out :=
  .next (State.laneOp h (useD d [a]) (State.fixW d fun s t => brev32 (s.rw t a)) s)
/-- PRMT (R266). -/
def execPrmt (h : Hdr) (d a b c : Nat) (s : State) : Out :=
  .next (State.laneOp h (useD d [a, b, c]) (State.fixW d fun s t => prmt32 (s.rw t a) (s.rw t b) (s.rw t c)) s)

/-- The operation of PLOG and UQLOG (R267). -/
def logOp (op : LogOp) (x y : Bool) : Bool :=
  match op with | .and => x && y | .or => x || y | .xor => x != y
/-- PLOG (R267). -/
def execPlog (h : Hdr) (op : LogOp) (na nb : Bool) (d a b : Nat) (s : State) : Out :=
  .next (State.laneOp h ⟨[], [.p a, .p b]⟩
    (State.fixP d fun s t => logOp op (s.rp t a != na) (s.rp t b != nb)) s)
/-- PMOV.save (R268). -/
def execPmovSave (h : Hdr) (d : Nat) (s : State) : Out :=
  .next (State.laneOp h ⟨[d], (List.range 12).map .p⟩
    (State.fixW d fun s t => (List.range 12).foldr (fun i r => b2n (s.rp t i) + 2 * r) 0) s)
/-- PMOV.load (R268). -/
def execPmovLoad (h : Hdr) (a : Nat) (s : State) : Out :=
  .next (State.laneOp h (useR [a])
    (fun s t => ((List.range 12).foldl (fun x i => x.setP t i (bitOf (s.rw t a) i)) s).advance t) s)

/-! ## Packing (R279, R280) -/

/-- Slot width of R279. -/
def slotBits : Ty → Nat
  | .s16 | .z16 | .f16 | .bf16 => 16
  | .e3m2 | .e2m3 => 6
  | .e2m1 => 4
  | _ => 8
/-- PACK of R279. -/
def packSlot (ty : Ty) (slot a b : Nat) : Nat :=
  let w := slotBits ty
  let code := if ty.isInt then wrapN w (sat (sext 32 b) (tyMin ty) (tyMax ty)) else b % 2 ^ w
  let lo := w * slot
  (a % 2 ^ lo + code * 2 ^ lo + a / 2 ^ (lo + w) * 2 ^ (lo + w)) % 2 ^ 32
/-- PACK (R279). -/
def execPack (h : Hdr) (ty : Ty) (slot d a : Nat) (b : Src) (s : State) : Out :=
  .next (State.laneOp h (useD d (a :: b.w)) (State.fixW d (pat2 a b (packSlot ty slot))) s)
/-- UNPK of R280: the value and its flags. -/
def unpkSlot (ty : Ty) (a b : Nat) : Nat × Num.Flags :=
  let code := a / 2 ^ (slotBits ty * (b % ty.slots)) % 2 ^ slotBits ty
  if ty.isInt then (extInt ty code, Num.fNone)
  else
    match Num.unpack (Num.fmtOf ty) code with
    | .nan sg => (0x7FC00000, if sg then Num.fInv else Num.fNone)
    | v => ((Num.cvtF Num.f32 .rn v).1, Num.fNone)
/-- UNPK (R280). -/
def execUnpk (h : Hdr) (ty : Ty) (d a : Nat) (b : Src) (s : State) : Out :=
  .next (State.laneOp h (useD d (a :: b.w))
    (fun s t => (s.setF t d (unpkSlot ty (s.rw t a) (s.srcW t b))).advance t) s)

/-! ## Packed 16-bit integers (R281, R282) -/

/-- Both halves, each on its own. -/
def halves (f : Nat → Nat → Nat) (a b : Nat) : Nat :=
  f (a % 65536) (b % 65536) % 65536 + 65536 * (f (a / 65536) (b / 65536) % 65536)
def half2 (st : Bool) (ty : Ty) (f : Int → Int → Int) (x y : Nat) : Nat :=
  let v := f (rdInt ty x) (rdInt ty y)
  wrapN 16 (if st then sat v (tyMin ty) (tyMax ty) else v)
/-- VADD2 (R281). -/
def execVadd2 (h : Hdr) (st : Bool) (ty : Ty) (d a b : Nat) (s : State) : Out :=
  .next (State.laneOp h (useD d [a, b])
    (State.fixW d fun s t => halves (half2 st ty (· + ·)) (s.rw t a) (s.rw t b)) s)
/-- VSUB2 (R281). -/
def execVsub2 (h : Hdr) (st : Bool) (ty : Ty) (d a b : Nat) (s : State) : Out :=
  .next (State.laneOp h (useD d [a, b])
    (State.fixW d fun s t => halves (half2 st ty (· - ·)) (s.rw t a) (s.rw t b)) s)
/-- VMAX2 (R281). -/
def execVmax2 (h : Hdr) (ty : Ty) (d a b : Nat) (s : State) : Out :=
  .next (State.laneOp h (useD d [a, b])
    (State.fixW d fun s t => halves (half2 false ty max) (s.rw t a) (s.rw t b)) s)
/-- VMIN2 (R281). -/
def execVmin2 (h : Hdr) (ty : Ty) (d a b : Nat) (s : State) : Out :=
  .next (State.laneOp h (useD d [a, b])
    (State.fixW d fun s t => halves (half2 false ty min) (s.rw t a) (s.rw t b)) s)
/-- VCMP2 (R282). -/
def execVcmp2 (h : Hdr) (cc : Cond) (ty : Ty) (d a b : Nat) (s : State) : Out :=
  .next (State.laneOp h (useD d [a, b])
    (State.fixW d fun s t =>
      halves (fun x y => if holdsI cc (rdInt ty x) (rdInt ty y) then 65535 else 0) (s.rw t a) (s.rw t b)) s)

end Sys2Proof.Machine
end

