-- ==== Sys2Proof/Machine/Remote.lean ====
section
/-! DEFINITION. The sender's side of remote memory: routes, write combining, requests to other packages, deferred
failures (R17, R135, R392, R412 to R415, R421, R427). -/

namespace Sys2Proof.Machine
namespace State

/-! ## Routes (R17, R426) -/

inductive Route
  | rotor
  | ual (port : Nat)
  deriving DecidableEq, Repr

/-- The way to a node, none where neither fabric reaches it. -/
def routeOf (s : State) (node : Nat) : Option Route :=
  let r := s.fab.route.getD node 0
  if 1 ≤ r ∧ r ≤ 8 then some (.ual ((r - 1) % 4))
  else if s.fab.en && node != s.fab.node && s.fab.cal.any (fun e => e.1 == node && e.2 == 0) then some .rotor
  else none
/-- The node is unreachable, or the UALink port that leads to it is down (R421, R427). -/
def unreach (s : State) (node : Nat) : Bool :=
  match s.routeOf node with
  | some (.ual p) => !s.fab.linkUp.getD p true
  | _ => (s.pair node).unreach

/-! ## Deferred failures (R392) -/

/-- The thread takes a deferred trap before its next issue; one that has ended kills its context (LATE). -/
def deferTrap (s : State) (t : Nat) (c : Cause) (addr : Nat) (xw grp : Bool) : State :=
  if (s.th t).st = .ended then s.kill (s.ctxOfThread t) .late (.thread t) c.code (s.th t).pc.toNat addr
  else s.updThread t fun x =>
    { x with defer := x.defer ++ [⟨c, 0, BitVec.ofNat 64 addr, xw, true, true, grp⟩] }
/-- A graph node's operation has ended: the node is told, with its code (R440). -/
def nodeEnds (s : State) (g n code : Nat) : State :=
  s.setCp { s.cp with graphs := s.cp.graphs.map fun x =>
    if x.gid = g then { x with nodes := updAt x.nodes n fun y =>
      { y with st := if code = 0 then .done else .failed, cnt := code } } else x }
/-- The DONE address of a launch record (R197). -/
def doneAddr (l : Launch) : Nat := bits (leNat l.rec_) 255 192
/-- A launch is over, with the cause that its DONE write met, or 0 (R202); one that ends with a kill writes no record
(R445). -/
def launchOver (s : State) (lid code : Nat) : State :=
  match s.launch? lid with
  | none => s
  | some l =>
    let s := s.setCp { s.cp with launches := s.cp.launches.filter fun x => x.lid != lid }
    match l.origin with
    | .node g n => s.nodeEnds g n code
    | .device t a => if code = 0 ∨ (s.cx l.ctx).killing.isSome then s else s.journal 13 l.ctx 0 (2 + 256 * code) t a (doneAddr l)
/-- Report a failure found away from the issuing core to whoever issued the access. Engine operations are told by
their own events. -/
def deferWho (s : State) (w : Who) (c : Cause) (addr : Nat) (xw : Bool) : State :=
  match w with
  | .thread t => s.deferTrap t c addr xw false
  | .group gs =>
    match s.live gs with
    | [] => s.deferTrap (gs * 32) c addr xw true
    | l => l.foldl (fun s t => s.deferTrap t c addr xw true) s
  | .op o => s.updOp o fun x => match x.st with | .failed _ => x | _ => { x with st := .failed c.code, fin := false }
  | .node g n => s.nodeEnds g n c.code
  | .queue _ | .ring _ => s.setCp { s.cp with rbuf := s.cp.rbuf ++ [(w, addr, [])] }
  | .done l => s.launchOver l c.code
  | _ => s
/-- A status byte of a reply (R410): 0x20 is an uncorrectable error at the target, which kills the requester's
context (R399) or stops its engine operation with that code. -/
def failWho (s : State) (w : Who) (status addr : Nat) (xw : Bool) : State :=
  if status = 0x20 then
    match w with
    | .op o => s.updOp o fun x => match x.st with | .failed _ => x | _ => { x with st := .failed 0x20, fin := false }
    | .ring _ => s.deferWho w .fabric addr xw
    | .thread t => s.kill (s.ctxOfThread t) .dataue w 0 (s.th t).pc.toNat addr
    | .group gs => s.kill (s.ctxOfWho w) .dataue w 0 (s.th (gs * 32)).pc.toNat addr
    | _ => s.kill (s.ctxOfWho w) .dataue w 0 0 addr
  else s.deferWho w (Cause.ofCode status) addr xw

/-! ## Sending (R412 to R414, R427) -/

/-- Where the plane words of a block lie (R60). -/
def planeVas : MemOp → List Nat
  | .planeRead p0 stride k => (List.range (k + 1)).map fun p => vaOf (p0 + p * stride)
  | .planeWrite p0 stride _ ws _ => (List.range ws.length).map fun p => vaOf (p0 + p * stride)
  | _ => []
/-- The lines that an access touches: those of a plane access are its own and its planes' (R136, R137). -/
def accLines (va : Nat) (op : MemOp) : List Nat := (vaOf va :: planeVas op).map fun v => v / 128 * 128
/-- The lines that the access of a body touches. -/
def bodyLines : Body → List Nat
  | .write va _ _ => [va / 128 * 128]
  | .opw va op _ _ => accLines va op
  | .read va _ op _ _ _ => accLines va op
  | .rmw va _ op _ _ => accLines va op
  | .fereq va op _ _ => accLines va op
  | _ => []
/-- Two bodies access one line. -/
def shareLine (a b : Body) : Bool := (bodyLines a).any fun l => (bodyLines b).contains l
/-- The lines of an entry. -/
def wcLines (e : Wc) : List Nat := e.line :: (match e.body with | some b => bodyLines b | none => [])
def updWc (s : State) (f : List Wc → List Wc) : State := s.setFab { s.fab with wc := f s.fab.wc }
def lower (s : State) (team : Nat) : State := s.updTeam team fun u => { u with outst := u.outst - 1 }
/-- Give an entry up: its issuers are told, it leaves the buffer, the team's count falls (R421). -/
def giveUpWc (s : State) (e : Wc) : State :=
  let s := (s.updWc fun l => l.filter fun x => x.id != e.id).lower e.team
  e.who.foldl (fun s i => s.deferWho i.who .fabric i.addr i.xw) s
/-- Queue a body for a peer: an E2E flit of its own ESEQ, or a UALink request. -/
def enqueue (s : State) (peer line ctx : Nat) (body : Body) (wc req : Option Nat) : State :=
  match s.routeOf peer with
  | some (.ual p) =>
    s.sendUalReq p peer line ctx body wc req
  | _ =>
    s.updPair peer fun p =>
      { p with out := p.out ++ [⟨p.eseq, body, ctx, none, s.cycle, false, false, false, wc, req⟩], eseq := (p.eseq + 1) % 2 ^ 24 }
/-- Hand an entry to the path choice (R413). -/
def sendOne (s : State) (e : Wc) : State :=
  if s.unreach e.peer then s.giveUpWc e
  else
    let s := s.updWc fun l => l.map fun x => if x.id = e.id then { x with sent := true } else x
    s.enqueue e.peer e.line e.ctx (e.body.getD (.write e.line e.mask e.data)) (some e.id) none
/-- Send the open entries that a test picks, in the order of their allocation. -/
def sendOpen (s : State) (p : Wc → Bool) : State :=
  (s.fab.wc.filter fun e => !e.sent && p e).foldl sendOne s
/-- Close the lines of an access: their open entries are sent first. -/
def closeLines (s : State) (core peer : Nat) (ls : List Nat) : State :=
  s.sendOpen fun e => e.core == core && e.peer == peer && (wcLines e).any ls.contains
/-- Send the open entries that a test picks; those of one core, peer and line that were allocated before go first
(R413). -/
def sendLines (s : State) (p : Wc → Bool) : State :=
  let es := s.fab.wc.filter fun e => !e.sent && p e
  s.sendOpen fun x => es.any fun e =>
    x.id ≤ e.id && x.core == e.core && x.peer == e.peer && (wcLines x).any (wcLines e).contains
/-- A release or fence at domain or system scope sends every open entry of its core (R413). -/
def closeCore (s : State) (core : Nat) : State := s.sendOpen fun e => e.core == core
def byOp (e : Wc) : Bool := e.who.any fun w => match w.who with | .op _ => true | _ => false
/-- The write-combining buffer has room: 64 entries, an engine's lines apart (R412, R474, log 92). -/
def wcRoom (s : State) (core : Nat) : Bool := (s.fab.wc.filter fun e => e.core == core && !byOp e).length < 64
/-- At most 64 unreplied requests to one node (R414). -/
def reqRoom (s : State) (node : Nat) : Bool :=
  ((s.pair node).out.filter fun e => e.req.isSome).length +
    (s.fab.ual.filter fun u => u.peer == node && u.req.isSome).length < 64

/-- Merge bytes into a line image. -/
def putBytes (line : List Byte) (at_ : Nat) : List Byte → List Byte
  | [] => line
  | b :: l => putBytes (setAt line at_ b) (at_ + 1) l
def maskBits (at_ n m : Nat) : Nat := (List.range n).foldl (fun m i => if bitOf m (at_ + i) then m else m + 2 ^ (at_ + i)) m

/-- The OPEN entry that a plain store merges into (R412). -/
def wcOpen (s : State) (core ctx team ea : Nat) : Option Wc :=
  s.fab.wc.find? fun e => !e.sent && e.body.isNone && e.core == core && e.ctx == ctx && e.team == team &&
    e.peer == bits ea 53 48 && e.line == vaOf ea / 128 * 128
/-- A plain store to another package (R412). -/
def wcStore (s : State) (core ctx team : Nat) (w : Who) (ea : Nat) (data : List Byte) : State :=
  let peer := bits ea 53 48
  let line := vaOf ea / 128 * 128
  let off := vaOf ea % 128
  if s.unreach peer then s.deferWho w .fabric ea (s.cur.len == 8)
  else
    match s.wcOpen core ctx team ea with
    | some e =>
      let e' := { e with mask := maskBits off data.length e.mask, data := putBytes e.data off data,
                         who := e.who ++ [⟨w, ea, s.cur.len == 8⟩] }
      let s := s.updWc fun l => l.map fun x => if x.id = e.id then e' else x
      if e'.mask = 2 ^ 128 - 1 then s.sendLines (·.id == e.id) else s
    | none =>
      let e : Wc := { id := s.nextId, core := core, ctx := ctx, team := team, peer := peer, line := line,
                      mask := maskBits off data.length 0, data := putBytes (List.replicate 128 0) off data,
                      body := none, va := vaOf ea, who := [⟨w, ea, s.cur.len == 8⟩], sent := false, since := s.cycle }
      ((s.updWc fun l => l ++ [e]).updTeam team fun u => { u with outst := u.outst + 1 }).bump
/-- RED, STFS, FESET and whole-block writes to another package take an entry of their own (R412). -/
def wcOp (s : State) (core ctx team : Nat) (w : Who) (ea size : Nat) (op : MemOp) (sc : Scope) : State :=
  let peer := bits ea 53 48
  let line := vaOf ea / 128 * 128
  if s.unreach peer then s.deferWho w .fabric ea (s.cur.len == 8)
  else
    let s := s.closeLines core peer (accLines ea op)
    let e : Wc := { id := s.nextId, core := core, ctx := ctx, team := team, peer := peer, line := line, mask := 0,
                    data := [], body := some (.opw (vaOf ea) op size sc), va := vaOf ea, who := [⟨w, ea, s.cur.len == 8⟩],
                    sent := false, since := s.cycle }
    ((s.updWc fun l => l ++ [e]).updTeam team fun u => { u with outst := u.outst + 1 }).bump
/-- The body that carries a request (R410). -/
def bodyOf (r : Req) : Body :=
  let va := vaOf r.va
  match r.op with
  | .atom _ _ _ _ => .rmw va r.size r.op r.ord r.scope
  | .cas _ _ => .rmw va r.size r.op r.ord r.scope
  | .fe _ _ _ _ _ => .fereq va r.op (r.ord == .seq) r.scope
  | _ => .read va r.size r.op r.ord r.scope (match r.form with | .nf _ _ _ _ => true | _ => false)
/-- Send a request that the access in the list waits for (R414). -/
def sendReq (s : State) (r : Req) : State :=
  let peer := bits r.va 53 48
  let line := vaOf r.va / 128 * 128
  (s.closeLines r.core peer (accLines r.va r.op)).enqueue peer line r.ctx (bodyOf r) none (some r.id)

end State
end Sys2Proof.Machine
end

