-- ==== Sys2Proof/Machine/Home.lean ====
section
/-! DEFINITION. The L1 of a core, and what an operation does at its home (R38 to R41, R50 to R53, R88 to R95, R303 to
R306). -/

namespace Sys2Proof.Machine
namespace State

/-! ## L1 (R39, R40, R50, R123, R124) -/

/-- The page's policy lets a load allocate in the L1, and the hint does not forbid it (R41, R45). -/
def allocates (cp : Nat) (hint : Hint) : Bool := cp ≤ 1 && hint != .nl1
def l1Line? (s : State) (core pa : Nat) : Option L1Line := (s.co core).l1.find? fun l => l.pa == lineOf pa
def l1Sector (s : State) (core pa : Nat) : Option (List Byte) :=
  match s.l1Line? core pa with
  | some l => l.sec.getD (pa / 32 % 4) none
  | none => none
/-- Bytes from the L1; an access lies in one sector. -/
def l1Read (s : State) (core pa n : Nat) : Option (List Byte) :=
  (s.l1Sector core pa).map fun b => (b.drop (pa % 32)).take n
def updL1 (s : State) (core : Nat) (f : List L1Line → List L1Line) : State :=
  s.updCore core fun c => { c with l1 := f c.l1 }
def l1Touch (s : State) (core pa : Nat) : State :=
  s.updL1 core fun ls => ls.map fun l => if l.pa = lineOf pa then { l with age := s.cycle } else l
/-- A store updates the valid sector it touches (R39), a .nl1 store too, and leaves the line's age (log 8). -/
def l1Store (s : State) (core pa : Nat) (d : List Byte) : State :=
  s.updL1 core fun ls => ls.map fun l =>
    if l.pa = lineOf pa then { l with sec := updAt l.sec (pa / 32 % 4) fun x => x.map fun b => putBytes b (pa % 32) d }
    else l
/-- Invalidate the sectors that n bytes touch; a line without a valid sector leaves its way free. -/
def l1Inval (s : State) (core pa n : Nat) : State :=
  s.updL1 core fun ls => (ls.map fun l =>
    { l with sec := (List.range 4).map fun i =>
        if l.pa + 32 * i < pa + n && pa < l.pa + 32 * i + 32 then none else l.sec.getD i none }).filter
    fun l => l.sec.any (·.isSome)
def l1Clear (s : State) (core : Nat) : State := s.updL1 core fun _ => []
/-- The line of a set that leaves: greatest weight, then least recently used, then the one listed first (R50, log 8). -/
def l1Victim : List L1Line → Option L1Line
  | [] => none
  | x :: l => match l1Victim l with
    | none => some x
    | some y => if y.weight < x.weight || (x.weight == y.weight && x.age ≤ y.age) then some x else some y
/-- Bytes of a sector as its core sees them: memory with the stores that the core has sent laid over it (R124). -/
def sectorNow (s : State) (core pa : Nat) : List Byte :=
  s.reqs.foldl (fun b r =>
    if r.core = core ∧ !r.done then
      match r.op, r.loc with
      | .store d, .mem p => (List.range 32).zipWith (fun i x =>
          if p ≤ pa + i ∧ pa + i < p + d.length then d.getD (pa + i - p) x else x) b
      | _, _ => b
    else b) (s.rdBytes pa 32)
/-- The way that a new line of a set takes: the lowest free one, else the victim's (R35, R50). -/
def l1Way (c : Core) (mine : List L1Line) : Nat :=
  match ((List.range 12).filter fun w => c.ways ≤ w).find? fun w => !(mine.any fun l => l.way == w) with
  | some w => w
  | none => ((l1Victim mine).map (·.way)).getD c.ways
/-- Fill one sector, allocating its line where it is absent (R39, R50). -/
def l1Fill (s : State) (core weight pa : Nat) : State :=
  let data := s.sectorNow core pa
  match s.l1Line? core pa with
  | some _ => s.updL1 core fun ls => ls.map fun l =>
      if l.pa = lineOf pa then { l with sec := setAt l.sec (pa / 32 % 4) (some data), age := s.cycle } else l
  | none =>
    let mine := (s.co core).l1.filter fun l => l.pa / 128 % 1024 == pa / 128 % 1024
    let way := l1Way (s.co core) mine
    let new : L1Line := ⟨lineOf pa, way, setAt [none, none, none, none] (pa / 32 % 4) (some data), weight, s.cycle⟩
    s.updL1 core fun ls => (ls.filter fun l => !(mine.contains l && l.way == way)) ++ [new]

/-! ## Bytes at a home -/

def rdLoc (s : State) : Loc → Nat → List Byte
  | .mem pa, n => s.rdBytes pa n
  | .host pa, n => s.rdBytes pa n
  | .spad c o, n => s.rdSpBytes c o n
  | .remote _ _, _ => []
def addLoc : Loc → Nat → Loc
  | .mem pa, i => .mem (pa + i)
  | .host pa, i => .host (pa + i)
  | .spad c o, i => .spad c (o + i)
  | .remote n va, i => .remote n (va + i)
def locAddr : Loc → Nat
  | .mem pa => pa | .host pa => pa | .spad _ o => o | .remote _ va => va
/-- The words that n bytes touch. -/
def wordsOf (l : Loc) (n : Nat) : List Loc :=
  let a := locAddr l % 4
  (List.range ((a + n + 3) / 4)).map fun i => wordOf (addLoc l (4 * i))
/-- Put bytes where they lie. -/
def putLoc (s : State) (l : Loc) (d : List Byte) : State :=
  match l with
  | .mem pa => (s.wrBytes pa d).clearMarks pa d.length
  | .host pa => s.wrBytes pa d
  | .spad c o => s.wrSpBytes c o d
  | .remote _ _ => s
/-- Write bytes at their home; every WAITA entry on a word written is woken in the same step (R95). -/
def wrLoc (s : State) (l : Loc) (d : List Byte) : State :=
  (wordsOf l d.length).foldl (fun s w => s.onChange w true none) (s.putLoc l d)
/-- The bad granules that a read of n bytes meets, or a write that would merge into them. -/
def ueHits (s : State) (l : Loc) (n : Nat) (wr : Bool) : List Nat :=
  match l with
  | .mem pa => if wr then s.uesWr pa n else s.uesIn pa n
  | _ => []
/-- The first of them. -/
def ueHit (s : State) (l : Loc) (n : Nat) (wr : Bool) : Option Nat := (s.ueHits l n wr).head?
def setFeLoc (s : State) (l : Loc) (b : Bool) : State :=
  match l with
  | .mem pa => s.setFeMem pa b
  | .spad c o => s.setFeSp c o b
  | _ => s
/-- Set a word's bit; a change of it is an event of R95. -/
def putFe (s : State) (l : Loc) (b : Bool) : State :=
  if s.feAt l = b then s else (s.setFeLoc l b).onChange l false (some b)
/-- Write bytes of one word and its bit as one change of the word (R95). -/
def wrFe (s : State) (l : Loc) (d : List Byte) (b : Bool) : State :=
  if s.feAt l = b then s.wrLoc l d else ((s.putLoc l d).setFeLoc l b).onChange l true (some b)

/-! ## Operations at the home (R88, R303 to R306) -/

/-- The new value of an atomic (R304). -/
def atomNew (op : AtomOp) (ty : Ty) (x c : Nat) : Nat :=
  let w := if ty = .w64 then 64 else 32
  match op with
  | .exch => c
  | .and => x &&& c
  | .or => x ||| c
  | .xor => x ^^^ c
  | .add => if ty = .f32 then (Num.fadd Num.f32 .rn x c).1 else (x + c) % 2 ^ w
  | .min => if ty = .f32 then (Num.fminmax Num.f32 false x c).1 else if rdInt ty x ≤ rdInt ty c then x else c
  | .max => if ty = .f32 then (Num.fminmax Num.f32 true x c).1 else if rdInt ty x ≤ rdInt ty c then c else x
/-- The form proceeds (R88). -/
def feGoes (s : State) (f : FeForm) (l : Loc) (v : Word) (cond : Cond) (sgn : Bool) : Bool :=
  match f with
  | .ldwf | .ldce => s.feAt l
  | .stwe => !s.feAt l
  | .waita =>
    let ty := if sgn then Ty.s32 else Ty.z32
    holdsI cond (rdInt ty (leNat (s.rdLoc l 4))) (rdInt ty v.toNat)
  | .stfs | .feget | .fesetFull | .fesetEmpty => true
/-- The data effect and bit change of a form that proceeds (R88). -/
def feDo (s : State) (f : FeForm) (l : Loc) (v : Word) : State :=
  match f with
  | .ldwf | .waita | .feget => s
  | .ldce => s.putFe l false
  | .stwe | .stfs => s.wrFe l (leBytes 4 v.toNat) true
  | .fesetFull => s.putFe l true
  | .fesetEmpty => s.putFe l false
/-- Header and plane words of a plane read: 2 header bytes, then 4 bytes of the sign plane and of each plane read. -/
def planeBytes (s : State) (hdr : Loc) (parts : List Loc) : List Byte :=
  s.rdLoc hdr 2 ++ (parts.map fun p => s.rdLoc p 4).flatten
/-- A word of an engine write: the bytes that the mask picks and the word's bit, in one step (R105). -/
def putWord (s : State) (l : Loc) (mask : Nat) (d : List Byte) (bit : Option Bool) : State :=
  let new := ((s.rdLoc l 4).zipIdx).map fun p => if bitOf mask p.2 then d.getD p.2 p.1 else p.1
  match bit with
  | some b => s.wrFe l new b
  | none => s.wrLoc l new
/-- The bytes of whole granules that a mask picks: a granule written whole at once, another word by word (R53, R111,
R415). -/
def putLine (s : State) (l : Loc) (mask : Nat) (d : List Byte) : State :=
  (List.range (d.length / 32)).foldl (fun s g =>
    if mask / 2 ^ (32 * g) % 2 ^ 32 = 2 ^ 32 - 1 then s.wrLoc (addLoc l (32 * g)) ((d.drop (32 * g)).take 32)
    else (List.range 8).foldl (fun s i =>
      let o := 32 * g + 4 * i
      let m := mask / 2 ^ o % 16
      if m = 0 then s else s.putWord (addLoc l o) m ((d.drop o).take 4) none) s) s
/-- One operation at its home, as one indivisible step: the bytes it returns, and whether it proceeded. -/
def perform (s : State) (op : MemOp) (l : Loc) (parts : List Loc) (size : Nat) : State × List Byte × Bool :=
  match op with
  | .load => (s, s.rdLoc l size, true)
  | .store d => (s.wrLoc l d, [], true)
  | .atom f ty c _ =>
    let x := s.rdLoc l size
    (s.wrLoc l (leBytes size (atomNew f ty (leNat x) c)), x, true)
  | .cas c w =>
    let x := s.rdLoc l size
    (if leNat x = c then s.wrLoc l (leBytes size w) else s, x, true)
  | .fe f _ v cond sgn =>
    if s.feGoes f l v cond sgn then
      let x := if f = .feget then [BitVec.ofNat 8 (b2n (s.feAt l))] else s.rdLoc l 4
      (s.feDo f l v, x, true)
    else (s, [], false)
  | .planeRead _ _ _ => (s, s.planeBytes l parts, true)
  | .planeWrite _ _ sc ws full =>
    let gen := (leNat (s.rdLoc l 2) / 256 + 1) % 256
    let put := fun (s : State) (p : Loc) (d : List Byte) => if full then s.wrFe p d true else s.wrLoc p d
    let s := put s l [sc, BitVec.ofNat 8 gen]
    ((List.zip parts ws).foldl (fun s p => put s p.1 (leBytes 4 p.2.toNat)) s, [], true)
  | .engWord mask d bit => (s.putWord l mask d bit, [], true)
  | .wline mask d => (s.putLine l mask d, [], true)
  | .pgreq => (s, [], true)
def writes : MemOp → Bool
  | .load => false | .planeRead _ _ _ => false | .pgreq => false
  | .fe f _ _ _ _ => match f with | .ldwf | .feget | .waita => false | _ => true
  | _ => true
/-- Two locations share a byte. -/
def overlaps (a n b m : Nat) : Bool := a < b + m && b < a + n
def locOverlap : Loc → Nat → Loc → Nat → Bool
  | .mem a, n, .mem b, m => overlaps a n b m
  | .host a, n, .host b, m => overlaps a n b m
  | .spad c a, n, .spad d b, m => c == d && overlaps a n b m
  | _, _, _, _ => false
/-- Everything an access touches: its own bytes, and the plane words of a plane access. -/
def locsOf (r : Req) : List (Loc × Nat) := (r.loc, max r.size 1) :: r.parts.map fun p => (p.loc, 4)
def touches (r : Req) (l : Loc) (n : Nat) : Bool := (locsOf r).any fun x => locOverlap x.1 x.2 l n
def isFe : MemOp → Bool | .fe _ _ _ _ _ => true | _ => false
def returns : MemOp → Bool
  | .store _ => false
  | .planeWrite _ _ _ _ _ => false
  | .engWord _ _ _ => false
  | .wline _ _ => false
  | .atom _ _ _ r => r
  | .fe .stfs _ _ _ _ => false
  | .fe .fesetFull _ _ _ _ => false
  | .fe .fesetEmpty _ _ _ _ => false
  | _ => true

end State
end Sys2Proof.Machine
end

