-- ==== Sys2Proof/Machine/Issue.lean ====
section
/-! DEFINITION. Issuing an access: the checks of R34 in their order, the standing of an access in the memory model,
the request and the pending results it leaves (R14 to R25, R34, R111 to R117, R211, R296, R356). -/

namespace Sys2Proof

def Scope.rank : Scope → Nat | .thr => 0 | .grp => 1 | .team => 2 | .clu => 3 | .dev => 4 | .dom => 5 | .sys => 6
/-- The scope includes cores other than the issuing one. -/
def Scope.wide (x : Scope) : Bool := 3 ≤ Scope.rank x
/-- The scope includes other packages. -/
def Scope.far (x : Scope) : Bool := 5 ≤ Scope.rank x

end Sys2Proof

namespace Sys2Proof.Machine

/-- A uniform load writes one register, so its bytes come together (log 18). -/
def LdForm.isUni : LdForm → Bool | .uni _ _ _ => true | _ => false

/-! ## The standing of an access (R113 to R116, R127) -/

def isRel (op : MemOp) (o : Ord) : Bool :=
  match op with
  | .store _ | .planeWrite _ _ _ _ _ | .atom _ _ _ _ | .cas _ _ => o != .plain
  | .fe .stwe _ _ _ _ | .fe .stfs _ _ _ _ | .fe .fesetFull _ _ _ _ => true
  | _ => false
def isAcq (op : MemOp) (o : Ord) : Bool :=
  match op with
  | .load | .planeRead _ _ _ | .atom _ _ _ _ | .cas _ _ => o != .plain
  | .fe .ldwf _ _ _ _ | .fe .ldce _ _ _ _ | .fe .waita _ _ _ _ => true
  | _ => false
/-- The scope at which an access acts (R114, R126). -/
def effScope (l : Loc) (leaf : Leaf) (op : MemOp) (o : Ord) (x : Scope) : Scope :=
  match l with
  | .spad _ _ => if Scope.rank x ≤ 3 then x else .clu
  | .remote _ _ => match x with | .grp | .team | .clu | .dev => .dom | x => x
  | .host _ => if x = .thr then .thr else .sys
  | .mem _ =>
    if isRel op o && (x == .clu || (leaf.cp == 3 && (x == .grp || x == .team))) then .dev else x

namespace State

/-- The access counts as one of this agent's: its own, or a uniform one of its group (R329). -/
def sameAgent (a b : Who) : Bool :=
  a == b || (match a, b with
    | .thread t, .group gs => t / 32 == gs
    | .group gs, .thread t => t / 32 == gs
    | _, _ => false)
/-- A thread issues no memory access while an acquire of its own is incomplete (R117). -/
def acqBlocked (s : State) (w : Who) : Bool :=
  s.reqs.any fun r => sameAgent w r.who && !r.done && isAcq r.op r.ord && r.scope != .thr
/-- The writes of a core to other packages that are not acknowledged (R120, R124, R126). -/
def coreRemote (s : State) (core : Nat) : List Nat := (s.fab.wc.filter fun e => e.core == core).map (·.id)
/-- The agent's own ones (R117, R135). -/
def ownRemote (s : State) (w : Who) : List Nat :=
  (s.fab.wc.filter fun e => e.who.any fun i => sameAgent w i.who).map (·.id)
/-- What a release at cluster scope or wider waits for: every access of its agent, every write of its core, local or to
another package (R117, R120, R124). -/
def wideAfter (s : State) (w : Who) (core : Nat) : List Nat :=
  (s.reqs.filter fun r => sameAgent w r.who || (r.core == core && writes r.op && !s.heldReq r.id)).map (·.id) ++
    s.coreRemote core
/-- The accesses that a release, or a seq read, waits for (R117, R122, R124). -/
def afterOf (s : State) (w : Who) (core : Nat) (op : MemOp) (o : Ord) (x : Scope) : List Nat :=
  if x = .thr then []
  else if isRel op o && x.wide then s.wideAfter w core
  else if o = .seq then (s.reqs.filter fun r => sameAgent w r.who).map (·.id) ++ s.ownRemote w
  else if isRel op o then (s.reqs.filter fun r => sameAgent w r.who && !writes r.op).map (·.id)
  else []
/-- A release fence at group or team scope stands before the agent's writes; a uniform access is one of each thread of its
group (R118, R329). -/
def narrowFence (s : State) : Who → Bool
  | .thread t => (s.th t).relF
  | .group gs => s.threads.any fun x => x.slot / 32 == gs && x.relF
  | _ => false
/-- An access is still on its way; a wait that another package holds is none. -/
def pending (s : State) (i : Nat) : Bool := (s.reqs.any fun r => r.id == i && !s.heldReq i) || s.fab.wc.any fun e => e.id == i

/-! ## Checks (R34) -/

/-- What an access asks of its address: W (R145), a full/empty bit (R86), how a read-mode lock sees it (R356),
and whether the host window can serve it (R307). -/
structure Want where
  wr : Bool
  fe : Bool
  lockWr : Bool
  host : Bool
  deriving DecidableEq, Repr
def Want.load : Want := ⟨false, false, false, true⟩
def Want.store : Want := ⟨true, false, true, true⟩

inductive Chk
  | go (l : Loc) (leaf : Leaf)
  | trap (c : Cause) (addr : Nat)
  | fault (ea typ : Nat)
  | ue (pa ea : Nat)
  deriving DecidableEq, Repr

/-- What an access without a page carries in a leaf's place. -/
def noLeaf : Leaf := ⟨0, 0, .k4, true, false, 0, 0, true⟩
/-- The team of a lock's operation is resident: a scratchpad lock of a switched-out one covers its saved window. -/
def lockHere (s : State) (k : Lock) : Bool :=
  match s.op? k.op with
  | some o => (match o.team with | some u => s.teams.any fun x => x.uid == u | none => true)
  | none => true
/-- A range lock refuses the access (R356). -/
def locked (s : State) (core ctx : Nat) (spad wr : Bool) (a n : Nat) : Bool :=
  (s.co core).locks.any fun k => k.ctx == ctx && k.spad == spad && (k.write || wr) && (!spad || s.lockHere k) &&
    k.ivs.any fun i => overlaps a n i.1 (i.2 - i.1)
/-- A global address with NODE 0x3F resolved (R356). -/
def normAddr (s : State) (ctx ea : Nat) : Nat := if s.isLocal ctx ea then s.fab.node * 2 ^ 48 + vaOf ea else ea
/-- Step 5 for a local global address. -/
def chkPage (s : State) (core quad ctx ea : Nat) (w : Want) : State × Chk :=
  match s.translate (dataUnits core quad) (some core) ctx (vaOf ea) ⟨w.wr, false⟩ with
  | (s, .ok pa leaf) =>
    let host := Config.hostBase ≤ pa
    if host && !w.host then (s, .trap .prot ea)
    else if w.fe && (host || !leaf.feb) then (s, .trap .fenosup ea)
    else (s, .go (if host then .host pa else .mem pa) leaf)
  | (s, .xlate) => (s, .trap .xlate ea)
  | (s, .prot) => (s, .trap .prot ea)
  | (s, .fault ty) => (s, .fault ea ty)
  | (s, .ue pa) => (s, .ue pa ea)
/-- Steps 5 and 6 for a local global address. -/
def chkLocal (s : State) (core quad ctx ea n : Nat) (w : Want) : State × Chk :=
  match s.chkPage core quad ctx ea w with
  | (s, .go l leaf) =>
    if s.locked core ctx false w.lockWr (s.normAddr ctx ea) n then (s, .trap .rangelock ea) else (s, .go l leaf)
  | c => c
/-- The checks of a global access (R34). A remote one meets the issuer's range locks before the target's step 5 (log 93). -/
def chkGlobal (s : State) (core quad ctx ea n : Nat) (w : Want) : State × Chk :=
  if 2 ^ 54 ≤ ea then (s, .trap .xlate ea)
  else if ea % n ≠ 0 then (s, .trap .misalign ea)
  else if s.isLocal ctx ea then s.chkLocal core quad ctx ea n w
  else
    let node := bits ea 53 48
    if (s.routeOf node).isNone then (s, .trap .fabric ea)
    else if s.locked core ctx false w.lockWr ea n then (s, .trap .rangelock ea)
    else (s, .go (.remote node (vaOf ea)) noLeaf)
/-- The team whose window a scratchpad address names (R21). -/
def spadTeam (s : State) (u : Team) (rk : Nat) : Option Team :=
  if rk = rank u.core then some u
  else if u.coset.isNone then none
  else s.teams.find? fun v => v.launch == u.launch && v.coset == u.coset && v.core == u.core - rank u.core + rk
/-- The checks of a scratchpad access (R19 to R21). -/
def chkSpad (s : State) (u : Team) (ea n : Nat) (lockWr : Bool) : State × Chk :=
  if 2 ^ 24 ≤ ea then (s, .trap .scratch ea)
  else
    let off := bits ea 20 0
    match s.spadTeam u (bits ea 23 21) with
    | some v =>
      if v.spSize < off + n then (s, .trap .scratch ea)
      else if ea % n ≠ 0 then (s, .trap .misalign ea)
      else if s.locked v.core v.ctx true lockWr (v.spBase + off) n then (s, .trap .rangelock ea)
      else (s, .go (.spad v.core (v.spBase + off)) noLeaf)
    | none => if ea % n ≠ 0 then (s, .trap .misalign ea) else (s, .trap .scratch ea)
/-- The backing address of a stack offset (R23). It lies on the local node whatever NODE LOCAL_BASE carries (log 83). -/
def backing (s : State) (t o : Nat) : Nat :=
  ((s.cxOf t).localBase + t / 32 * (s.grOf t).stk * 32 + o / 4 * 128 + t % 32 * 4 + o % 4) % 2 ^ 64
/-- One backing word: format and translation (R14, R23, R34). Range locks hold effective global addresses, and a stack
offset is none (R319, R356, log 43). -/
def chkWord (s : State) (t a : Nat) (wr : Bool) : State × Chk :=
  if 2 ^ 54 ≤ a then (s, .trap .xlate a)
  else s.chkPage (coreOf t) (quadOf t) (s.ctxOfThread t) a ⟨wr, false, wr, true⟩
/-- Check the backing words of a stack access in ascending order (R24). -/
def chkWords (s : State) (t : Nat) (wr : Bool) : List Nat → State × List (Loc × Leaf × Nat) × Option Chk
  | [] => (s, [], none)
  | o :: l =>
    let a := s.backing t o
    match s.chkWord t a wr with
    | (s, .go loc leaf) =>
      match chkWords s t wr l with
      | (s, r, c) => (s, (loc, leaf, a) :: r, c)
    | (s, c) => (s, [], some c)
/-- The checks of a stack access of n bytes at offset o: its words, or the first failure (R22 to R24). -/
def chkStack (s : State) (t o n : Nat) (wr : Bool) : State × List (Loc × Leaf × Nat) × Option Chk :=
  if (s.grOf t).stk < o + n then (s, [], some (.trap .stack o))
  else if o % n ≠ 0 then (s, [], some (.trap .misalign o))
  else s.chkWords t wr ((List.range ((n + 3) / 4)).map fun i => o + 4 * i)

/-- A check that failed: the thread, or every thread of the group, traps or rests, or the context is killed. -/
def failChk (s : State) (w : Who) (wr fe : Bool) (c : Chk) : State :=
  match w, c with
  | .thread t, .trap c a => s.raise t c a
  | .thread t, .fault ea ty => s.restFault t ea ty wr fe false
  | .thread t, .ue pa ea => s.dataUe t pa ea
  | .group _, .trap c a => s.raiseGrp c a
  | .group _, .fault ea ty => s.cur.threads.foldl (fun s t => s.restFault t ea ty wr fe true) s
  | .group gs, .ue pa ea => s.dataUe (gs * 32) pa ea
  | _, _ => s

/-! ## Pending results -/

/-- The value of a uniform load (R328). -/
def uniExt (ty : Ty) (v : Nat) : DWord :=
  if ty = .w64 then BitVec.ofNat 64 v
  else if ty.isSigned then BitVec.ofInt 64 (sext (tyBits ty) v) else BitVec.ofNat 64 (v % 2 ^ tyBits ty)
def enum {α : Type} (n : Nat) : List α → List (Nat × α)
  | [] => []
  | x :: l => (n, x) :: enum (n + 1) l
def laneVals (ty : Ty) (t d v : Nat) : List (Dst × PVal) :=
  (enum d (loadWords ty v)).map fun p => (.reg t p.1, .reg ⟨BitVec.ofNat 32 p.2, Tag.zero⟩)
/-- Sign and magnitude bits 1 to k of an element from a plane read's bytes (R60, R63). -/
def planeBits (b : List Byte) (k e : Nat) : Bool × List Bool :=
  let w := fun i => bitOf (leNat ((b.drop (2 + 4 * i)).take 4)) (e % 32)
  (w 0, (List.range k).map fun i => w (i + 1))
/-- The register that a plane read of k planes delivers (R314, R63, R64, R73). -/
def planeReg (b : List Byte) (k m : Nat) (mid : Bool) (e : Nat) : LaneReg :=
  let sc := (b.getD 0 0).toNat
  let gen := (b.getD 1 0).toNat
  let (s, bs) := planeBits b k e
  ⟨BitVec.ofNat 32 (Num.planeVal s (Num.planeMag bs) k m sc mid), ⟨k, mid, gen, true, m, sc⟩⟩
/-- The old magnitude that a refine may merge with (R77). -/
def prfOld (old : LaneReg) (gen m sc : Nat) : Option Num.Dy :=
  if !(old.tag.v && old.tag.gen == gen && old.tag.hm == m && old.tag.hsc == sc) then none
  else if sc = 0xFF then some Num.Dy.zero
  else
    match Num.oldMag old.val.toNat old.tag.f old.tag.k m sc with
    | some u => if Num.isMultiple u old.tag.k && (Num.Dy.zero).le u && u.lt ⟨2, 0⟩ then some u else none
    | none => none
/-- What a refine delivers, and its reload indicator (R77). -/
def prfReg (b : List Byte) (k m : Nat) (mid : Bool) (e : Nat) (old : LaneReg) : LaneReg × Bool :=
  let sc := (b.getD 0 0).toNat
  let gen := (b.getD 1 0).toNat
  match prfOld old gen m sc with
  | none => (planeReg b k m mid e, true)
  | some u =>
    let (_, bs) := planeBits b k e
    let kept := bs.take old.tag.k
    let new := Num.planeMag (kept.map (fun _ => false) ++ bs.drop old.tag.k)
    let neg := bitOf old.val.toNat 31
    (⟨BitVec.ofNat 32 (Num.planeVal neg (u.add new) k m sc mid), ⟨k, mid, gen, true, m, sc⟩⟩, false)
/-- The results that an access's bytes give (R297, R300, R310, R314, R315). -/
def formVals (f : LdForm) (b : List Byte) (ok : Bool) : List (Dst × PVal) :=
  match f with
  | .none => []
  | .lane ty t d => laneVals ty t d (leNat b)
  | .uni ty gs d => [(.ureg gs d, .ureg (uniExt ty (leNat b)))]
  | .nf ty t d p => laneVals ty t d (leNat b) ++ [(.pred t p, .pred ok)]
  | .plane t d k mid m e => [(.reg t d, .reg (planeReg b k m mid e))]
  | .prf t d k mid m e p old =>
    let r := prfReg b k m mid e old
    [(.reg t d, .reg r.1), (.pred t p, .pred r.2)]
  | .feTry t d? p =>
    (match d?, ok with | some d, true => laneVals .s32 t d (leNat b) | _, _ => []) ++ [(.pred t p, .pred ok)]
  | .feGet t p => [(.pred t p, .pred (leNat b % 2 == 1))]
  | .fe t d? _ _ => match d? with | some d => laneVals .s32 t d (leNat b) | none => []
  | .planeRec _ _ _ | .code _ | .buf _ => []
/-- Destinations of a form. -/
def formDsts (f : LdForm) : List Dst :=
  match f with
  | .fe _ _ _ _ => []
  | .feTry t d? p => (match d? with | some d => [.reg t d] | none => []) ++ [.pred t p]
  | f => (formVals f [] true).map (·.1)
/-- Give the pending results of an access their values; a destination without one keeps what it holds. -/
def fillPend (s : State) (rid : Nat) (vs : List (Dst × PVal)) : State :=
  s.setPend (s.pend.filterMap fun p =>
    if p.req = rid ∧ rid ≠ 0 then (vs.find? fun v => v.1 == p.dst).map fun v => { p with val := v.2 } else some p)
def dropPend (s : State) (rid : Nat) : State := s.setPend (s.pend.filter fun p => p.req != rid)

/-! ## Requests -/

/-- The units in which an access of a type is performed (R111): offset and size. -/
def unitsOf (l : Loc) (op : MemOp) (form : LdForm) (size : Nat) : List (Nat × Nat) :=
  let whole := [(0, size)]
  if form.isUni then whole else
  match op with
  | .load | .store _ =>
    match l with
    | .mem _ => if size = 16 then [(0, 8), (8, 8)] else whole
    | .spad _ _ | .host _ => if 4 < size then (List.range (size / 4)).map fun i => (4 * i, 4) else whole
    | .remote _ _ => whole
  | _ => whole
def unitForm (f : LdForm) (size o n : Nat) : LdForm :=
  match f with
  | .lane _ t d => if n = size then f else .lane (if n = 8 then .w64 else .s32) t (d + o / 4)
  | .nf _ t d p => if n = size then f
      else if o + n < size then .lane (if n = 8 then .w64 else .s32) t (d + o / 4)
      else .nf (if n = 8 then .w64 else .s32) t (d + o / 4) p
  | f => f
def unitOp (op : MemOp) (o n : Nat) : MemOp :=
  match op with | .store d => .store ((d.drop o).take n) | op => op

/-- An access to be issued, after its checks. -/
structure Access where
  who : Who
  core : Nat
  ctx : Nat
  team : Nat
  op : MemOp
  loc : Loc
  leaf : Leaf
  size : Nat
  ord : Ord
  scope : Scope
  hint : Hint
  ea : Nat
  form : LdForm
  parts : List Part
  deriving DecidableEq, Repr

/-- Append the request and its pending results. A write behind a narrow release fence on a MEMSIDE page is a release at
device scope from the outset (R118, R126). -/
def addReq (s : State) (a : Access) : State :=
  let x := effScope a.loc a.leaf a.op a.ord a.scope
  let nrel := writes a.op && s.narrowFence a.who
  let r : Req := { id := s.nextId, who := a.who, core := a.core, ctx := a.ctx, team := a.team,
                   epoch := s.unitEpoch a.ctx (whoUnit a.who a.core), op := a.op, loc := a.loc, size := a.size,
                   ord := a.ord, scope := x, hint := a.hint, cp := a.leaf.cp, pl := a.leaf.pl, feb := a.leaf.feb,
                   va := a.ea, form := a.form, fill := [], parts := a.parts,
                   after := (if nrel && a.leaf.cp == 3 then s.wideAfter a.who a.core
                             else s.afterOf a.who a.core a.op a.ord x),
                   co := s.nextId, bytes := a.size, merged := false, nrel := nrel, xw := s.cur.len == 8,
                   done := false, since := s.cycle }
  let s := (s.setReqs (s.reqs ++ [r])).bump
  (formDsts a.form).foldl (fun s d => s.addPend d .none r.id false) s
/-- An access of the core on its way keeps a plain read of the bytes from the L1: one that will change them and is no
plain store, or an earlier read of the same agent, which the read may not overtake (R112, R123, R134). -/
def l1Behind (s : State) (w : Who) (core : Nat) (l : Loc) (n : Nat) : Bool :=
  s.reqs.any fun r => r.core == core && !r.done && touches r l n &&
    (if writes r.op then (match r.op with | .store _ => false | _ => true) else sameAgent w r.who)
/-- The L1 answers a load at team scope or narrower that may allocate there, when its sector is valid (R39, R41, R45,
R116, R123). -/
def l1Hit (s : State) (a : Access) (x : Scope) : Option (List Byte) :=
  match a.op, a.loc with
  | .load, .mem pa =>
    if !x.wide && allocates a.leaf.cp a.hint && !s.l1Behind a.who a.core a.loc a.size then s.l1Read a.core pa a.size
    else none
  | _, _ => none
/-- Invalidate in a core's L1 what an access touches. -/
def l1Drop (s : State) (core : Nat) (l : List (Loc × Nat)) : State :=
  l.foldl (fun s x => match x.1 with | .mem pa => s.l1Inval core pa x.2 | _ => s) s
/-- One unit of a local access. -/
def localUnit (s : State) (a : Access) : State :=
  let x := effScope a.loc a.leaf a.op a.ord a.scope
  match s.l1Hit a x with
  | some b =>
    let s := (formVals a.form b true).foldl (fun s v => s.addPend v.1 v.2 0 false) s
    match a.loc with
    | .mem pa =>
      let s := s.l1Touch a.core pa
      if a.hint = .last then s.setCur { s.cur with last := pa :: s.cur.last } else s
    | _ => s
  | none =>
    let s := match a.op, a.loc with
      | .store d, .mem pa => s.l1Store a.core pa d
      | .load, _ => s
      | .planeRead _ _ _, _ => s
      | .pgreq, _ => s
      | _, l => s.l1Drop a.core ((l, a.size) :: a.parts.map fun (p : Part) => (p.loc, 4))
    s.addReq a
/-- A remote release, and a remote seq access, waits before it is sent (R117, R122, R136). -/
def remoteRelOk (s : State) (a : Access) : Bool :=
  let x := effScope a.loc a.leaf a.op a.ord a.scope
  (!(isRel a.op a.ord && x.wide) || (s.tm a.team).outst == 0) && s.afterOf a.who a.core a.op a.ord x == []
/-- Issue an access that passed its checks; false leaves its thread where it is, to issue again (R117, R412, R414). -/
def access (s : State) (a : Access) : State × Bool :=
  let x := effScope a.loc a.leaf a.op a.ord a.scope
  let s := if isRel a.op a.ord && x.far then s.closeCore a.core else s
  match a.loc with
  | .remote node _ =>
    if !s.remoteRelOk a then (s, false)
    else if returns a.op then
      if s.unreach node then (if a.op == .pgreq then s else s.deferWho a.who .fabric a.ea (s.cur.len == 8), true)
      else if !s.reqRoom node then (s, false)
      else
        let s := s.addReq a
        match s.reqs.getLast? with
        | some r => (s.sendReq r, true)
        | none => (s, true)
    else
      match a.op with
      | .store d =>
        if !s.wcRoom a.core && (s.wcOpen a.core a.ctx a.team a.ea).isNone then (s, false)
        else (s.wcStore a.core a.ctx a.team a.who a.ea d, true)
      | op =>
        if !s.wcRoom a.core then (s, false)
        else (s.wcOp a.core a.ctx a.team a.who a.ea a.size op x, true)
  | l =>
    ((unitsOf l a.op a.form a.size).foldl (fun s u =>
      s.localUnit { a with op := unitOp a.op u.1 u.2, loc := addLoc l u.1, size := u.2, ea := a.ea,
                           form := unitForm a.form a.size u.1 u.2 }) s, true)

/-! ## The coalescer (R40, R41) -/

/-- Loads, stores and atomics of HBM4 travel in coalesced requests (R41); each access of the host window is a PCIe request
of its own (log 7). -/
def coalesces (r : Req) : Option Nat :=
  match r.op, r.loc with
  | .load, .mem pa | .store _, .mem pa | .atom _ _ _ _, .mem pa | .cas _ _, .mem pa => some pa
  | _, _ => none
def allocLoad (r : Req) : Bool := r.op == .load && allocates r.cp r.hint
/-- Bytes of the request that covers one half of a line, from the accesses in it: start and size. -/
def halfSize (l : List (Nat × Nat)) (small : Bool) : Nat :=
  match l with
  | [] => 0
  | (x, _) :: _ =>
    if small && l.all (fun p => x / 16 == p.1 / 16 && x / 16 == (p.1 + p.2 - 1) / 16) then 16
    else if l.all (fun p => x / 32 == p.1 / 32 && x / 32 == (p.1 + p.2 - 1) / 32) then 32 else 64
/-- The requests among `l` in the half line of an address. -/
def inHalf (l : List Req) (a : Nat) : List Req :=
  l.filter fun r => match coalesces r with | some p => p / 64 == a / 64 | none => false
def halfOf (l : List Req) (a : Nat) : Nat :=
  let h := inHalf l a
  halfSize (h.filterMap fun r => (coalesces r).map fun p => (p, r.size)) (!(h.any allocLoad))
/-- Both halves of a line by requests of 64 bytes: one of 128. -/
def wholeLine (l : List Req) (a : Nat) : Bool := halfOf l (lineOf a) == 64 && halfOf l (lineOf a + 64) == 64
/-- The sectors that the reply to an allocating load's request fills. -/
def sectorsIn (a bytes : Nat) : List Nat :=
  let b := max bytes 32
  (List.range (b / 32)).map fun i => a / b * b + 32 * i
/-- One of a bundle's requests `l` with the coalesced request it travels in, the fills on its first allocating load. No
request of a bundle waits for another. -/
def coReq (l : List Req) (n : Nat) (r : Req) : Req :=
  match coalesces r with
  | none => { r with after := r.after.filter fun i => i < n }
  | some pa =>
    let whole := wholeLine l pa
    let mates := if whole then inHalf l (lineOf pa) ++ inHalf l (lineOf pa + 64) else inHalf l pa
    let bytes := if whole then 128 else halfOf l pa
    let first := fun (p : Req → Bool) => (mates.filter p).foldl (fun m x => min m x.id) r.id
    { r with after := r.after.filter (fun i => i < n), co := first fun _ => true, bytes := bytes,
             fill := if allocLoad r && first allocLoad == r.id then sectorsIn pa bytes else [] }
/-- Requests in ascending order of their lines, those of one line in the order of their lanes. -/
def byLine (r : Req) : List Req → List Req
  | [] => [r]
  | x :: l =>
    match coalesces r, coalesces x with
    | some a, some b => if lineOf b < lineOf a then x :: byLine r l else r :: x :: l
    | _, _ => r :: x :: l
/-- The requests of a bundle, those named from n on, leave the coalescer (R41); the sectors that its .last loads read
from the L1 become invalid (R40). -/
def coalesce (s : State) (n : Nat) : State :=
  let new := s.reqs.filter fun r => n ≤ r.id
  let s := s.setReqs ((s.reqs.filter fun r => r.id < n) ++ (new.map (coReq new n)).foldr byLine [])
  (s.cur.last.foldl (fun s pa => s.l1Inval s.cur.core pa 1) s).setCur { s.cur with last := [] }

/-! ## Reads within an issue -/

/-- The bytes of local memory as a plain read at thread scope sees them at this moment, the L1 answering where the page
lets it (R45); none while an access of the core on its way stands before it (R112, R123). -/
def plainRead (s : State) (w : Who) (core pa n : Nat) (l : Leaf) : Option (List Byte) :=
  if s.l1Behind w core (.mem pa) n then none
  else some ((List.range n).map fun i =>
    let held := if allocates l.cp .none then s.l1Sector core (pa + i) else none
    let sec := match held with | some b => b | none => s.sectorNow core ((pa + i) / 32 * 32)
    sec.getD ((pa + i) % 32) 0)
/-- The sectors of a line at a that n bytes touch and that its core's L1 does not answer. -/
def coldSectors (s : State) (core pa n : Nat) (l : Leaf) (a : Nat) : List Nat :=
  ((List.range 4).map fun i => a + 32 * i).filter fun x =>
    spans pa n x && !(allocates l.cp .none && (s.l1Sector core x).isSome)
/-- What such a read brings in from one line: one lookup at its slice for the sectors that the L1 does not answer, which
fill by the page's policy. -/
def fillLine (s : State) (core pa n : Nat) (l : Leaf) (a : Nat) : State :=
  let hot := allocates l.cp .none && (s.l1Line? core a).isSome
  match s.coldSectors core pa n l a with
  | [] => if hot then s.l1Touch core a else s
  | x :: t =>
    let s := s.l2Touch x (t.getLastD x + 32 - x) l.cp l.pl .none false false l.feb false
    if allocates l.cp .none then (x :: t).foldl (fun s y => s.l1Fill core (lineWeight l.cp l.pl .none) y) s else s
/-- What such a read brings in, line by line (R41, R44, R46). -/
def plainFill (s : State) (core pa n : Nat) (l : Leaf) : State :=
  (List.range ((pa + n - 1) / 128 + 1 - pa / 128)).foldl (fun s i => s.fillLine core pa n l (lineOf pa + 128 * i)) s

/-- Bytes that an instruction reads as it issues (R312, R324, R342): a plain read of local memory, or a request to the
host for which the thread rests and issues again. None: not yet. -/
def issueRead (s : State) (t : Nat) (l : Loc) (leaf : Leaf) (ea n : Nat) : State × Option (List Byte) :=
  match l with
  | .host pa =>
    match (s.th t).hbuf.find? fun x => x.1 == ea with
    | some x => (s, some x.2)
    | none => ((s.askBytes (.thread t) (coreOf t) (s.grOf t).team (s.ctxOfThread t) (.host pa) ea n (.buf t)).setSt t
        (.recWait s.nextId), none)
  | .mem pa =>
    match s.plainRead (.thread t) (coreOf t) pa n leaf with
    | some b => (s.plainFill (coreOf t) pa n leaf, some b)
    | none => (s, none)
  | _ => (s, none)

end State
end Sys2Proof.Machine
end

