-- ==== Sys2Proof/Machine/Memory.lean ====
section
/-! DEFINITION. Lane memory instructions: loads, stores, prefetch, residency requests, atomics, fences (R293 to R308,
R163, R164). -/

namespace Sys2Proof.Machine
namespace State

/-- Issue an access whose check has been made, and go on to the next instruction. -/
def memGo (s : State) (t : Nat) (w : Want) (c : State × Chk) (mk : Loc → Leaf → Access) : State :=
  if s.acqBlocked (.thread t) then s
  else match c with
    | (s', .go l f) => match s'.access (mk l f) with
      | (s', true) => s'.advance t
      | (s', false) => s'
    | (s', c) => s'.failChk (.thread t) w.wr w.fe c
/-- A lane's access. -/
def laneAcc (s : State) (t : Nat) (op : MemOp) (size : Nat) (ord : Ord) (sc : Scope) (hint : Hint) (ea : Nat)
    (form : LdForm) (l : Loc) (f : Leaf) : Access :=
  { who := .thread t, core := coreOf t, ctx := s.ctxOfThread t, team := (s.grOf t).team, op := op, loc := l, leaf := f,
    size := size, ord := ord, scope := sc, hint := hint, ea := ea, form := form, parts := [] }
/-- The checks of a lane's global access. -/
def chkG (s : State) (t ea n : Nat) (w : Want) : State × Chk :=
  s.chkGlobal (coreOf t) (quadOf t) (s.ctxOfThread t) ea n w
/-- A lane's global access. -/
def laneGlobal (s : State) (t ea size : Nat) (op : MemOp) (ord : Ord) (sc : Scope) (hint : Hint) (form : LdForm)
    (w : Want) : State :=
  s.memGo t w (s.chkG t ea size w) (s.laneAcc t op size ord sc hint ea form)
/-- A lane's scratchpad access (R19 to R21). -/
def laneSpad (s : State) (t ea size : Nat) (op : MemOp) (ord : Ord) (sc : Scope) (form : LdForm) (w : Want) : State :=
  s.memGo t w (s.chkSpad (s.tmOf t) ea size w.lockWr) (s.laneAcc t op size ord sc .none ea form)

/-- Issue the words of a stack access one after another (R24). -/
def stackWords (s : State) (t n : Nat) (hint : Hint) (op : Nat → MemOp) (form : Nat → LdForm) :
    Nat → List (Loc × Leaf × Nat) → State
  | _, [] => s
  | i, (l, f, a) :: rest =>
    stackWords (s.access (s.laneAcc t (op i) n .plain .thr hint a (form i) l f)).1 t n hint op form (i + 1) rest
/-- A stack access of n bytes at offset o (R22 to R25). -/
def laneStack (s : State) (t o n : Nat) (wr : Bool) (hint : Hint) (op : Nat → MemOp) (form : Nat → LdForm) : State :=
  if s.acqBlocked (.thread t) then s
  else match s.chkStack t o n wr with
    | (s', _, some c) => s'.failChk (.thread t) wr false c
    | (s', ws, none) => (s'.stackWords t (min n 4) hint op form 0 ws).advance t

/-- The operand of an atomic, from a register or a pair. -/
def atomOpd (s : State) (t : Nat) (ty : Ty) (c : Nat) : Nat := if ty = .w64 then s.rdPair t c else s.rw t c
/-- The host window serves FetchAdd and Swap (R307). -/
def hostAtom (op : AtomOp) (ty : Ty) : Bool :=
  match op with | .add => ty != .f32 | .exch => true | _ => false
def Want.atom (host : Bool) : Want := ⟨true, false, true, host⟩

/-! ## Residency (R163, R164, R300 to R302) -/

/-- What LDNF delivers where no data is resident: zeros and a false predicate. -/
def ldnfNone (s : State) (ty : Ty) (t d p : Nat) : State :=
  (((tyRegs ty d).foldl (fun s r => s.addPend (.reg t r) (.reg LaneReg.zero) 0 false) s).addPend (.pred t p)
    (.pred false) 0 false).advance t
def ldnfBody (ty : Ty) (hint : Hint) (sc : Scope) (off : Int) (d a : Nat) (b : Option Nat) (c : Nat) (s : State)
    (t : Nat) : State :=
  let n := tySize ty
  let ea := s.eaGlobal true t a b off n
  let ctx := s.ctxOfThread t
  let form := LdForm.nf ty t d c
  if s.acqBlocked (.thread t) then s
  else if !s.isLocal ctx ea || 2 ^ 54 ≤ ea || ea % n ≠ 0 then s.laneGlobal t ea n .load .plain sc hint form .load
  else
    let s := s.peekLook (dataUnits (coreOf t) (quadOf t)) (some (coreOf t)) ctx (vaOf ea)
    match s.peekUe (dataUnits (coreOf t) (quadOf t)) (some (coreOf t)) ctx (vaOf ea) with
    | some pa => s.dataUe t pa ea
    | none =>
      if s.locked (coreOf t) ctx false false (s.normAddr ctx ea) n then s.raise t .rangelock ea
      else match s.peek (dataUnits (coreOf t) (quadOf t)) (some (coreOf t)) ctx (vaOf ea) .rd with
        | some _ => s.laneGlobal t ea n .load .plain sc hint form .load
        | none => s.ldnfNone ty t d c
/-- Bring a line in (R301): the home's tags, and the L1 where policy and hint let a load allocate there. -/
def prefetch (s : State) (core : Nat) (hint : Hint) (pa : Nat) (l : Leaf) : State :=
  let s := s.l2Touch (lineOf pa) 128 l.cp l.pl hint false false l.feb false
  if allocates l.cp hint then
    (List.range 4).foldl (fun s i =>
      if s.ueAt (lineOf pa + 32 * i) then s
      else s.l1Fill core (lineWeight l.cp l.pl hint) (lineOf pa + 32 * i)) s
  else s
def prefBody (hint : Hint) (off : Int) (a : Nat) (b : Option Nat) (s : State) (t : Nat) : State :=
  let ea := s.eaGlobal true t a b off 4
  let ctx := s.ctxOfThread t
  let us := dataUnits (coreOf t) (quadOf t)
  if 2 ^ 54 ≤ ea || !s.isLocal ctx ea then s.advance t
  else
    let s := s.peekLook us (some (coreOf t)) ctx (vaOf ea)
    match s.peekUe us (some (coreOf t)) ctx (vaOf ea) with
    | some pa => s.dataUe t pa ea
    | none => match s.peek us (some (coreOf t)) ctx (vaOf ea) .rd with
      | some (pa, l) =>
        if pa < Config.hbmTop && !s.locked (coreOf t) ctx false false (s.normAddr ctx ea) 1 then
          (s.prefetch (coreOf t) hint pa l).advance t
        else s.advance t
      | none => s.advance t
/-- R164 at the package that holds the page: the state, or the uncorrectable error that the walk met. -/
def pageRequest (s : State) (ctx ea : Nat) : State × Option Nat :=
  let s := s.walkLook (vaOf ea) 4 (s.cx ctx).root
  match s.walkFrom (vaOf ea) 4 (s.cx ctx).root with
  | .bad => (s, none)
  | .ue pa => (s, some pa)
  | .leaf st l entry pte =>
    if st = 0 then (s, none)
    else if st = 1 then
      match s.starter ctx l entry pte with
      | (s, true) => (s, none)
      | (s, false) => (s.fltRecord 4 ctx false false false false false 0 ea 0, none)
    else (s.fltRecord 4 ctx false false false false false 0 ea 0, none)
def pgreqBody (off : Int) (a : Nat) (b : Option Nat) (s : State) (t : Nat) : State :=
  let ea := s.eaGlobal false t a b off 4
  let ctx := s.ctxOfThread t
  if 2 ^ 54 ≤ ea then s.raise t .xlate ea
  else if s.isLocal ctx ea then
    match s.pageRequest ctx ea with
    | (s, some pa) => s.dataUe t pa ea
    | (s, none) => s.advance t
  else if (s.routeOf (bits ea 53 48)).isNone then s.advance t
  else
    match s.access (s.laneAcc t .pgreq 1 .plain .thr .none ea .none (.remote (bits ea 53 48) (vaOf ea)) noLeaf) with
    | (s', true) => s'.advance t
    | (s', false) => s'

/-! ## Fences (R117, R124, R136, R308) -/

def FenceKind.acq : FenceKind → Bool | .rel => false | _ => true
def FenceKind.rel : FenceKind → Bool | .acq => false | _ => true
/-- The accesses a fence waits for. -/
def fenceAfter (s : State) (t : Nat) (k : FenceKind) (sc : Scope) : List Nat :=
  if FenceKind.rel k && sc.wide then s.wideAfter (.thread t) (coreOf t)
  else (s.reqs.filter fun r => sameAgent (.thread t) r.who && returns r.op).map (·.id)
/-- Stores of other cores that narrow releases wait for: a read before an acquire fence at device scope or wider may have
read such a release, which is promoted before the fence is complete (R118, R126). -/
def promPending (s : State) (core : Nat) : List Nat :=
  ((s.l2.proms.filter fun p => p.core != core).flatMap (·.reqs)).filter s.pending
/-- A fence retires once what it waits for is done. -/
def settleFence (s : State) (t : Nat) : State :=
  match (s.th t).st with
  | .fence rs acq rel sc m prom =>
    if rs.any s.pending || (rel && sc.far && (s.tmOf t).outst != 0) then s
    else if acq && 4 ≤ Scope.rank sc && !prom && s.promPending (coreOf t) != [] then
      (s.setProms fun l => l.map fun p => if p.core != coreOf t then { p with asked := true } else p).setSt t
        (.fence (s.promPending (coreOf t)) acq rel sc m true)
    else
      let s := if acq && sc.wide then s.l1Clear (coreOf t) else s
      (s.setSt t .run).restM m t
  | _ => s
def fenceBody (m : Bool) (k : FenceKind) (sc : Scope) (s : State) (t : Nat) : State :=
  if sc = .thr then s.advance t
  else
    let s := if FenceKind.rel k && sc.far then s.closeCore (coreOf t) else s
    let s := if FenceKind.rel k then s.updThread t fun x => { x with relF := !sc.wide } else s
    ((s.advance t).setSt t (.fence (s.fenceAfter t k sc) (FenceKind.acq k) (FenceKind.rel k) sc m false)).settleFence t

end State

/-! ## Meanings -/

/-- A bundle's memory instruction: its requests leave the coalescer together (R41). -/
def memOp (h : Hdr) (u : Uses) (body : State → Nat → State) (s : State) : Out :=
  .next ((State.laneOp h u body s).coalesce s.nextId)

/-- LD (R297). -/
def execLd (h : Hdr) (x : MemX) (d a : Nat) (b : Option Nat) (s : State) : Out :=
  memOp h ⟨tyRegs x.ty d ++ optW b, .g a :: (optW b).map .w⟩ (fun s t =>
    s.laneGlobal t (s.eaGlobal true t a b x.off (tySize x.ty)) (tySize x.ty) .load x.ord x.scope x.hint
      (.lane x.ty t d) .load) s
/-- ST (R297). -/
def execSt (h : Hdr) (x : MemX) (d a : Nat) (b : Option Nat) (s : State) : Out :=
  memOp h ⟨tyRegs x.ty d ++ optW b, (tyRegs x.ty d).map .w ++ .g a :: (optW b).map .w⟩ (fun s t =>
    s.laneGlobal t (s.eaGlobal true t a b x.off (tySize x.ty)) (tySize x.ty)
      (.store (s.dataBytes t x.ty d (tySize x.ty))) x.ord x.scope x.hint .none .store) s
/-- LDS (R297). -/
def execLds (h : Hdr) (x : MemX) (d b : Nat) (s : State) : Out :=
  memOp h ⟨tyRegs x.ty d ++ [b], [.w b]⟩ (fun s t =>
    s.laneSpad t (s.eaLocal t b x.off (tySize x.ty)) (tySize x.ty) .load x.ord x.scope (.lane x.ty t d) .load) s
/-- STS (R297). -/
def execSts (h : Hdr) (x : MemX) (d b : Nat) (s : State) : Out :=
  memOp h (useR (tyRegs x.ty d ++ [b])) (fun s t =>
    s.laneSpad t (s.eaLocal t b x.off (tySize x.ty)) (tySize x.ty)
      (.store (s.dataBytes t x.ty d (tySize x.ty))) x.ord x.scope .none .store) s
/-- LDL: thread scope and plain whatever it names (R114, R297). -/
def execLdl (h : Hdr) (x : MemX) (d b : Nat) (s : State) : Out :=
  memOp h ⟨tyRegs x.ty d ++ [b], [.w b]⟩ (fun s t =>
    let n := tySize x.ty
    s.laneStack t (s.eaLocal t b x.off n) n false x.hint (fun _ => .load)
      (fun i => .lane (if 4 < n then .s32 else x.ty) t (d + i))) s
/-- STL (R297). -/
def execStl (h : Hdr) (x : MemX) (d b : Nat) (s : State) : Out :=
  memOp h (useR (tyRegs x.ty d ++ [b])) (fun s t =>
    let n := tySize x.ty
    s.laneStack t (s.eaLocal t b x.off n) n true x.hint
      (fun i => .store (((s.dataBytes t x.ty d n).drop (4 * i)).take 4)) (fun _ => .none)) s
/-- LDNF (R300, R163). -/
def execLdnf (h : Hdr) (x : MemX) (d a : Nat) (b : Option Nat) (c : Nat) (s : State) : Out :=
  memOp h ⟨tyRegs x.ty d ++ optW b, .g a :: (optW b).map .w⟩ (State.ldnfBody x.ty x.hint x.scope x.off d a b c) s
/-- PREF (R301). -/
def execPref (h : Hdr) (hint : Hint) (off : Int) (a : Nat) (b : Option Nat) (s : State) : Out :=
  .next (State.laneOp h ⟨optW b, .g a :: (optW b).map .w⟩ (State.prefBody hint off a b) s)
/-- ATOM (R305). -/
def execAtom (h : Hdr) (op : AtomOp) (x : AtomX) (d a : Nat) (b : Option Nat) (c : Nat) (s : State) : Out :=
  memOp h ⟨tyRegs x.ty d ++ optW b ++ tyRegs x.ty c,
      .g a :: (optW b ++ tyRegs x.ty c).map .w⟩ (fun s t =>
    s.laneGlobal t (s.eaGlobal true t a b 0 (tySize x.ty)) (tySize x.ty)
      (.atom op x.ty (s.atomOpd t x.ty c) true) x.ord x.scope x.hint (.lane x.ty t d)
      (.atom (State.hostAtom op x.ty))) s
/-- ATOMS (R305). -/
def execAtoms (h : Hdr) (op : AtomOp) (x : AtomX) (d b c : Nat) (s : State) : Out :=
  memOp h ⟨[d, b, c], [.w b, .w c]⟩ (fun s t =>
    s.laneSpad t (s.eaLocal t b 0 4) 4 (.atom op x.ty (s.rw t c) true) x.ord x.scope (.lane x.ty t d) (.atom true)) s
/-- CAS: compare with C, swap in D, old value out (R306). -/
def execCas (h : Hdr) (x : AtomX) (d a : Nat) (b : Option Nat) (c : Nat) (s : State) : Out :=
  memOp h (⟨tyRegs x.ty d ++ optW b ++ tyRegs x.ty c,
      (tyRegs x.ty d).map .w ++ .g a :: (optW b ++ tyRegs x.ty c).map .w⟩) (fun s t =>
    s.laneGlobal t (s.eaGlobal true t a b 0 (tySize x.ty)) (tySize x.ty)
      (.cas (s.atomOpd t x.ty c) (s.atomOpd t x.ty d)) x.ord x.scope x.hint (.lane x.ty t d) (.atom true)) s
/-- CASS (R306). -/
def execCass (h : Hdr) (x : AtomX) (d b c : Nat) (s : State) : Out :=
  memOp h (useR [d, b, c]) (fun s t =>
    s.laneSpad t (s.eaLocal t b 0 4) 4 (.cas (s.rw t c) (s.rw t d)) x.ord x.scope (.lane x.ty t d) (.atom true)) s
/-- RED: an atomic that returns nothing (R305). -/
def execRed (h : Hdr) (op : AtomOp) (x : AtomX) (d a : Nat) (b : Option Nat) (s : State) : Out :=
  memOp h ⟨tyRegs x.ty d ++ optW b, (tyRegs x.ty d).map .w ++ .g a :: (optW b).map .w⟩ (fun s t =>
    s.laneGlobal t (s.eaGlobal true t a b 0 (tySize x.ty)) (tySize x.ty)
      (.atom op x.ty (s.atomOpd t x.ty d) false) x.ord x.scope x.hint .none (.atom (State.hostAtom op x.ty))) s
/-- FENCE (R308). -/
def execFence (h : Hdr) (kind : FenceKind) (scope : Scope) (s : State) : Out :=
  .next (State.laneOp h ⟨[], []⟩ (State.fenceBody h.m kind scope) s)
/-- PGREQ (R302). -/
def execPgreq (h : Hdr) (off : Int) (a : Nat) (b : Option Nat) (s : State) : Out :=
  .next (State.laneOp h ⟨optW b, .g a :: (optW b).map .w⟩ (State.pgreqBody off a b) s)

end Sys2Proof.Machine
end

