-- ==== Sys2Proof/Machine/FullEmpty.lean ====
section
/-! DEFINITION. Issue of the full/empty forms and WAITA (R86 to R90, R309, R310). The test itself is made at the
home, by HOME_ACCESS or at the target package. -/

namespace Sys2Proof.Machine
namespace State

/-- The forms that write (R145); a read-mode lock refuses the same ones (R356). -/
def feWrites : FeForm → Bool | .ldwf | .feget | .waita => false | _ => true
def feWant (f : FeForm) : Want := ⟨feWrites f, true, feWrites f, true⟩
def feEa (s : State) (t : Nat) : FeAddr → Nat
  | .glob a b => s.eaGlobal false t a (some b) 0 4
  | .spad b => s.eaLocal t b 0 4
def feChk (s : State) (t : Nat) (ad : FeAddr) (w : Want) : State × Chk :=
  match ad with
  | .glob _ _ => s.chkG t (s.feEa t ad) 4 w
  | .spad _ => s.chkSpad (s.tmOf t) (s.feEa t ad) 4 w.lockWr
def feAcc (s : State) (t : Nat) (ad : FeAddr) (op : MemOp) (seq : Bool) (sc : Scope) (hint : Hint) (form : LdForm)
    (l : Loc) (f : Leaf) : Access :=
  s.laneAcc t op 4 (if seq then .seq else .plain) sc hint (s.feEa t ad) form l f
/-- A form that never waits: STFS, FEGET, FESET and the .try variants (R88, R89). -/
def feGo (s : State) (t : Nat) (f : FeForm) (ad : FeAddr) (op : MemOp) (seq : Bool) (sc : Scope) (hint : Hint)
    (form : LdForm) : State :=
  s.memGo t (feWant f) (s.feChk t ad (feWant f)) (s.feAcc t ad op seq sc hint form)
/-- A form that may wait: its thread rests at the instruction until its home has tested the word (R92). -/
def feSend (s : State) (t : Nat) (f : FeForm) (ad : FeAddr) (op : MemOp) (seq : Bool) (sc : Scope) (hint : Hint)
    (form : LdForm) : State :=
  if s.acqBlocked (.thread t) then s
  else match s.feChk t ad (feWant f) with
    | (s', .go l leaf) =>
      let rid := s'.nextId
      let s'' := (s'.access (s.feAcc t ad op seq sc hint form l leaf)).1
      if (s''.req? rid).isSome then s''.setSt t (.feSent rid) else s''
    | (s', c) => s'.failChk (.thread t) (feWrites f) true c
/-- LDWF, LDCE, STWE and WAITA: the .try variant delivers its predicate and does not wait. -/
def feWaiting (m : Bool) (f : FeForm) (x : FeX) (ad : FeAddr) (d? : Option Nat) (v : State → Nat → Word) (cc : Cond)
    (s : State) (t : Nat) : State :=
  let op := MemOp.fe f x.try?.isSome (v s t) cc (!x.zty)
  match x.try? with
  | some p => s.feGo t f ad op x.seq x.scope x.hint (.feTry t d? p)
  | none => s.feSend t f ad op x.seq x.scope x.hint (.fe t d? s.cur.len m)

end State

def FeAddr.ws : FeAddr → List Nat | .glob _ b => [b] | .spad b => [b]
def FeAddr.opds : FeAddr → List Opd | .glob a b => [.g a, .w b] | .spad b => [.w b]
/-- D is written, or D is read. -/
def feDst (d : Nat) (ad : FeAddr) : Uses := ⟨d :: FeAddr.ws ad, FeAddr.opds ad⟩
def feSrc (d : Nat) (ad : FeAddr) : Uses := ⟨d :: FeAddr.ws ad, .w d :: FeAddr.opds ad⟩
def dataW (d : Nat) (s : State) (t : Nat) : Word := BitVec.ofNat 32 (s.rw t d)

/-- WAITA: compares the word with D, then loads it (R102, R310). -/
def execWaita (h : Hdr) (cc : Cond) (x : FeX) (d : Nat) (ad : FeAddr) (s : State) : Out :=
  memOp h (feSrc d ad) (State.feWaiting h.m .waita x ad (some d) (dataW d) cc) s
/-- LDWF (R88). -/
def execLdwf (h : Hdr) (x : FeX) (d : Nat) (ad : FeAddr) (s : State) : Out :=
  memOp h (feDst d ad) (State.feWaiting h.m .ldwf x ad (some d) (fun _ _ => 0) .eq) s
/-- LDCE (R88). -/
def execLdce (h : Hdr) (x : FeX) (d : Nat) (ad : FeAddr) (s : State) : Out :=
  memOp h (feDst d ad) (State.feWaiting h.m .ldce x ad (some d) (fun _ _ => 0) .eq) s
/-- STWE (R88). -/
def execStwe (h : Hdr) (x : FeX) (d : Nat) (ad : FeAddr) (s : State) : Out :=
  memOp h (feSrc d ad) (State.feWaiting h.m .stwe x ad none (dataW d) .eq) s
/-- STFS (R88). -/
def execStfs (h : Hdr) (x : FeX) (d : Nat) (ad : FeAddr) (s : State) : Out :=
  memOp h (feSrc d ad) (fun s t =>
    s.feGo t .stfs ad (.fe .stfs false (dataW d s t) .eq false) x.seq x.scope x.hint .none) s
/-- FEGET: the bit into a predicate (R88). -/
def execFeget (h : Hdr) (x : FeX) (d : Nat) (ad : FeAddr) (s : State) : Out :=
  memOp h ⟨FeAddr.ws ad, FeAddr.opds ad⟩ (fun s t =>
    s.feGo t .feget ad (.fe .feget false 0 .eq false) x.seq x.scope x.hint (.feGet t d)) s
/-- FESET.empty (R88). -/
def execFesetEmpty (h : Hdr) (x : FeX) (ad : FeAddr) (s : State) : Out :=
  memOp h ⟨FeAddr.ws ad, FeAddr.opds ad⟩ (fun s t =>
    s.feGo t .fesetEmpty ad (.fe .fesetEmpty false 0 .eq false) x.seq x.scope x.hint .none) s
/-- FESET.full (R88). -/
def execFesetFull (h : Hdr) (x : FeX) (ad : FeAddr) (s : State) : Out :=
  memOp h ⟨FeAddr.ws ad, FeAddr.opds ad⟩ (fun s t =>
    s.feGo t .fesetFull ad (.fe .fesetFull false 0 .eq false) x.seq x.scope x.hint .none) s
end Sys2Proof.Machine
end

