-- ==== Sys2Proof/Machine/Planes.lean ====
section
/-! DEFINITION. Plane records and the plane instructions PLD, PRF, PTAG, PTRIM and PST (R59 to R79, R312 to R318). -/

namespace Sys2Proof.Machine

/-- A plane record's fields (R66). -/
structure PlaneRec where
  m : Nat
  spad : Bool
  fill : Bool
  count : Nat
  hdr : Nat
  pbase : Nat
  stride : Nat
  deriving DecidableEq, Repr

/-- Read a record; none is a malformed one (R67). -/
def PlaneRec.ofBytes (l : List Byte) : Option PlaneRec :=
  let v := leNat l
  let r : PlaneRec := { m := bits v 15 8, spad := bitOf v 16, fill := bitOf v 17, count := bits v 63 32,
                        hdr := bits v 127 64, pbase := bits v 191 128, stride := bits v 255 192 }
  if bits v 7 0 ≠ 0x50 || r.m = 0 || 12 < r.m || bits v 31 18 ≠ 0 || bits v 511 256 ≠ 0 || r.count = 0 ||
      r.count % 1024 ≠ 0 || r.hdr % 64 ≠ 0 || r.pbase % 128 ≠ 0 || r.stride = 0 ||
      r.stride % (if r.spad then 4096 else 2097152) ≠ 0 || r.stride < r.count / 8 ||
      (!r.spad && bits r.hdr 53 48 ≠ bits r.pbase 53 48) || (r.spad && (2 ^ 32 ≤ r.hdr || 2 ^ 32 ≤ r.pbase)) then none
  else some r
/-- The header of the block of element n (R61, R312). -/
def PlaneRec.hdrAt (r : PlaneRec) (n : Nat) : Nat := (r.hdr + n / 1024 * 64 + 2 * (n / 32 % 32)) % 2 ^ 64
/-- The block's word in plane p (R60, R312). -/
def PlaneRec.planeAt (r : PlaneRec) (n p : Nat) : Nat :=
  (r.pbase + p * r.stride + n / 1024 * 128 + 4 * (n / 32 % 32)) % 2 ^ 64
def FillF.eff (f : FillF) (dflt : Bool) : Bool := match f with | .dflt => dflt | .trunc => false | .mid => true

/-! ## Tags (R73, R316) -/

def Tag.word (g : Tag) : Nat :=
  g.k + 16 * b2n g.f + 32 * (g.gen % 256) + 8192 * b2n g.v + 16384 * (g.hm % 16) + 262144 * (g.hsc % 256)
/-- The tag that PTAG.set writes. -/
def Tag.ofWord (v : Nat) : Tag :=
  let g : Tag := ⟨bits v 3 0, bitOf v 4, bits v 12 5, bitOf v 13, bits v 17 14, bits v 25 18⟩
  if g.v && 1 ≤ g.k && g.k ≤ 12 && 1 ≤ g.hm && g.hm ≤ 12 && g.k ≤ g.hm then g else Tag.zero
/-- PTRIM (R317). -/
def trimReg (r : LaneReg) (k : Nat) (fill : FillF) : LaneReg :=
  if !r.tag.v then r
  else
    let k' := min r.tag.k k
    let f' := FillF.eff fill r.tag.f
    let tag := { r.tag with k := k', f := f' }
    if r.tag.hsc = 0xFF then ⟨r.val, tag⟩
    else match Num.oldMag r.val.toNat r.tag.f r.tag.k r.tag.hm r.tag.hsc with
      | none => ⟨r.val, tag⟩
      | some u =>
        let u := if u.lt Num.Dy.zero then Num.Dy.zero else u
        ⟨BitVec.ofNat 32 (Num.planeVal (bitOf r.val.toNat 31) (Num.truncTo u k') k' r.tag.hm r.tag.hsc f'), tag⟩

namespace State

/-! ## Checks of a block's addresses (R312) -/

def chkPlane (s : State) (t : Nat) (spad wr : Bool) (a n : Nat) : State × Chk :=
  if spad then s.chkSpad (s.tmOf t) a n wr else s.chkG t a n ⟨wr, false, wr, true⟩
/-- Header, plane 0, plane 1 and upward; the first failure decides. -/
def chkBlock (s : State) (t : Nat) (spad wr : Bool) : List (Nat × Nat) → State × List (Loc × Leaf) × Option Chk
  | [] => (s, [], none)
  | (a, n) :: rest =>
    match s.chkPlane t spad wr a n with
    | (s, .go l f) =>
      match chkBlock s t spad wr rest with
      | (s, r, c) => (s, (l, f) :: r, c)
    | (s, c) => (s, [], some c)
/-- The addresses of the block of element n in planes 0 to k. -/
def blockAddrs (r : PlaneRec) (n k : Nat) : List (Nat × Nat) :=
  (r.hdrAt n, 2) :: (List.range (k + 1)).map fun p => (r.planeAt n p, 4)
/-- A plane word with its own page's policy and line tag (R80). -/
def partOf (p : Loc × Leaf) : Part := ⟨p.1, p.2.cp, p.2.pl, p.2.feb⟩
/-- How many plane words lie on the node of the header: STRIDE may carry the later ones to other nodes (log 31). -/
def onNode (r : PlaneRec) (n k : Nat) : Nat :=
  ((List.range (k + 1)).takeWhile fun p => r.spad || bits (r.planeAt n p) 53 48 == bits (r.hdrAt n) 53 48).length
/-- Bytes that no one access reaches: those of another package come by a request for which the thread rests. -/
def gatherOne (s : State) (t : Nat) (x : PlX) (a n : Nat) (l : Loc) (f : Leaf) : State × Option (List Byte) :=
  match l with
  | .remote _ _ =>
    match (s.th t).hbuf.find? fun y => y.1 == a with
    | some y => (s, some y.2)
    | none =>
      let rid := s.nextId
      let s' := (s.access (s.laneAcc t .load n .plain x.scope .none a (.buf t) l f)).1
      (if (s'.req? rid).isSome then s'.setSt t (.recWait rid) else s', none)
  | l => s.issueRead t l f a n
def gather (s : State) (t : Nat) (x : PlX) : List ((Nat × Nat) × (Loc × Leaf)) → State × Option (List Byte)
  | [] => (s, some [])
  | p :: rest =>
    match s.gatherOne t x p.1.1 p.1.2 p.2.1 p.2.2 with
    | (s, some b) =>
      match gather s t x rest with
      | (s, some r) => (s, some (b ++ r))
      | r => r
    | r => r
/-- Issue accesses one after another while they are taken. -/
def issueAll (s : State) : List Access → State × Bool
  | [] => (s, true)
  | a :: l => match s.access a with
    | (s, true) => issueAll s l
    | r => r
/-- A block over more than one node: its words are read one by one; written, each later plane's word is a store of its
own, before the access to the header and the planes beside it (log 31). -/
def blockNodes (s : State) (t : Nat) (n : Nat) (r : PlaneRec) (op : MemOp) (x : PlX) (form : LdForm)
    (ps : List ((Nat × Nat) × (Loc × Leaf))) : State :=
  match op with
  | .planeWrite p0 stride sc ws full =>
    let q := onNode r n r.m
    let word := fun (y : Word × ((Nat × Nat) × (Loc × Leaf))) =>
      s.laneAcc t (.store (leBytes 4 y.1.toNat)) 4 x.ord x.scope x.hint y.2.1.1 form y.2.2.1 y.2.2.2
    let rest := ((ws.zip (ps.drop 1)).drop q).map word
    match ps with
    | [] => s
    | h :: _ =>
      match s.issueAll (rest ++ [{ s.laneAcc t (.planeWrite p0 stride sc (ws.take q) full) 2 x.ord x.scope x.hint
          h.1.1 form h.2.1 h.2.2 with parts := ((ps.drop 1).take q).map fun p => partOf p.2 }]) with
      | (s, true) => s.advance t
      | (s, false) => s
  | _ =>
    match s.gather t x ps with
    | (s, some b) => ((formVals form b true).foldl (fun s v => s.addPend v.1 v.2 0 false) s).advance t
    | (s, none) => s
/-- Check the block and issue its access. -/
def blockGo (s : State) (t : Nat) (r : PlaneRec) (n k : Nat) (wr : Bool) (op : MemOp) (x : PlX) (form : LdForm) :
    State :=
  let ea := r.hdrAt n
  match s.chkBlock t r.spad wr (blockAddrs r n k) with
  | (s', _, some c) => s'.failChk (.thread t) wr false c
  | (s', [], none) => s'
  | (s', (l, f) :: ps, none) =>
    if onNode r n k ≤ k then s'.blockNodes t n r op x form ((blockAddrs r n k).zip ((l, f) :: ps))
    else s'.memGo t ⟨wr, false, wr, true⟩ (s', .go l f)
      (fun l f => { s'.laneAcc t op 2 x.ord x.scope x.hint ea form l f with parts := ps.map partOf })

/-! ## The record (R312) -/

/-- The effect of a plane instruction once its record has been read. -/
def planeGo (s : State) (t ga : Nat) (i : Instr) (b : List Byte) : State :=
  match PlaneRec.ofBytes b with
  | none => s.raise t .planerec ga
  | some r =>
    match i with
    | .pld _ x k fill d _ rb =>
      let n := s.rw t rb
      if r.count ≤ n then s.raise t .planerec ga
      else
        let k' := min k r.m
        s.blockGo t r n k' false (.planeRead (r.planeAt n 0) r.stride k') x
          (.plane t d k' (FillF.eff fill r.fill) r.m (n % 1024))
    | .prf _ x k fill d _ rb c =>
      let n := s.rw t rb
      if r.count ≤ n then s.raise t .planerec ga
      else
        let k' := min k r.m
        s.blockGo t r n k' false (.planeRead (r.planeAt n 0) r.stride k') x
          (.prf t d k' (FillF.eff fill r.fill) r.m (n % 1024) c (s.wreg t d))
    | .pst _ x d _ rb =>
      let n := s.rw t rb
      if r.count ≤ n then s.raise t .planerec ga
      else
        let run := (List.range (r.m + 2)).map (d + ·)
        match run.find? fun n => 128 ≤ n || !holds (s.grOf t) n with
        | some w => s.raise t .illreg (w % 128)
        | none =>
          match (if (s.grOf t).haz then run.find? fun n => s.dstPend (.reg t n) else none) with
          | some w => s.raise t .pendread w
          | none =>
            s.blockGo t r n r.m true
              (.planeWrite (r.planeAt n 0) r.stride (BitVec.ofNat 8 (s.rw t d))
                ((run.drop 1).map fun n => BitVec.ofNat 32 (s.rw t n)) false) x .none
    | _ => s
/-- Read the record afresh, as a plain read at thread scope, and go on with it. -/
def planeBody (i : Instr) (a : Nat) (s : State) (t : Nat) : State :=
  let ga := s.rgSeen t a
  let ctx := s.ctxOfThread t
  if s.acqBlocked (.thread t) then s
  else if 2 ^ 54 ≤ ga then s.raise t .xlate ga
  else if ga % 64 ≠ 0 then s.raise t .planerec ga
  else if s.isLocal ctx ga then
    match s.translate (dataUnits (coreOf t) (quadOf t)) (some (coreOf t)) ctx (vaOf ga) .rd with
    | (s', .ok pa l) =>
      if s'.ueIn pa 64 then s'.dataUe t pa ga
      else match s'.issueRead t (if Config.hostBase ≤ pa then .host pa else .mem pa) l ga 64 with
        | (s', some b) => s'.planeGo t ga i b
        | (s', none) => s'
    | (s', .xlate) => s'.raise t .xlate ga
    | (s', .prot) => s'.raise t .prot ga
    | (s', .fault ty) => s'.restFault t ga ty false false false
    | (s', .ue pa) => s'.dataUe t pa ga
  else
    let node := bits ga 53 48
    if (s.routeOf node).isNone then s.raise t .fabric ga
    else
      let rid := s.nextId
      let s' := (s.access (s.laneAcc t .load 64 .plain .thr .none ga (.planeRec i t s.cur.len)
        (.remote node (vaOf ga)) noLeaf)).1
      if (s'.req? rid).isSome then s'.setSt t (.recWait rid) else s'

def prfBody (i : Instr) (k d a c : Nat) (s : State) (t : Nat) : State :=
  let g := (s.wreg t d).tag
  if g.v && k ≤ g.k then (s.addPend (.pred t c) (.pred false) 0 false).advance t
  else s.planeBody i a t

end State

/-- PLD (R314). -/
def execPld (h : Hdr) (x : PlX) (k : Nat) (fill : FillF) (d a b : Nat) (s : State) : Out :=
  memOp h ⟨[d, b], [.g a, .w b]⟩ (State.planeBody (.pld h x k fill d a b) a) s
/-- PRF (R315, R77, R78). -/
def execPrf (h : Hdr) (x : PlX) (k : Nat) (fill : FillF) (d a b c : Nat) (s : State) : Out :=
  memOp h ⟨[d, b], [.w d, .g a, .w b]⟩ (State.prfBody (.prf h x k fill d a b c) k d a c) s
/-- PTAG.get (R316). -/
def execPtagGet (h : Hdr) (d a : Nat) (s : State) : Out :=
  .next (State.laneOp h (useD d [a]) (fun s t => (s.longW t d (Tag.word (s.wreg t a).tag)).advance t) s)
/-- PTAG.set: the value kept is the one it reads (R316). -/
def execPtagSet (h : Hdr) (d a : Nat) (s : State) : Out :=
  .next (State.laneOp h (useR [d, a]) (fun s t =>
    (s.addPend (.reg t d) (.reg ⟨(s.wreg t d).val, Tag.ofWord (s.rw t a)⟩) 0 false).advance t) s)
/-- PTRIM (R317). -/
def execPtrim (h : Hdr) (k : Nat) (fill : FillF) (d : Nat) (s : State) : Out :=
  .next (State.laneOp h (useR [d]) (fun s t =>
    let r := s.wreg t d
    (if r.tag.v then s.addPend (.reg t d) (.reg (trimReg r k fill)) 0 false else s).advance t) s)
/-- PST (R318). -/
def execPst (h : Hdr) (x : PlX) (d a b : Nat) (s : State) : Out :=
  memOp h ⟨[d, b], [.g a, .w b]⟩ (State.planeBody (.pst h x d a b) a) s
end Sys2Proof.Machine
end

