-- ==== Sys2Proof/Machine/Control.lean ====
section
/-! DEFINITION. Lane control flow and the trap and system registers: branches, calls, EXIT, TRAP, BKPT, YIELD, MFT,
MTT, TRET (R322 to R325, R335 to R337). -/

namespace Sys2Proof.Machine
namespace State

/-! ## Branches (R238, R322) -/

/-- PC + 4 * off, wrapping modulo 2^48 within VA; NODE stays. -/
def relPc (pc : DWord) (off : Int) : DWord :=
  BitVec.ofNat 64 (pc.toNat / 2 ^ 48 * 2 ^ 48 + wrapN 48 ((pc.toNat % 2 ^ 48 : Nat) + 4 * off))
/-- Go to a target, or raise MISALIGN at the branch. -/
def jump (s : State) (t : Nat) (pc : Nat) : State :=
  if pc % 4 ≠ 0 then s.raise t .misalign pc else s.goto t (BitVec.ofNat 64 pc)
def jmprTarget (pc : DWord) (w : Nat) : Nat := pc.toNat / 2 ^ 32 * 2 ^ 32 + w

/-! ## The call stack (R324) -/

def callBody (off : Int) (s : State) (t : Nat) : State :=
  let d := (s.th t).cdepth
  let size := (s.grOf t).stk
  if s.acqBlocked (.thread t) then s
  else if size < 8 * (d + 1) then s.raise t .stack (wrapN 32 ((size : Int) - 8 * (d + 1)))
  else
    let ret := ((s.th t).pc + BitVec.ofNat 64 s.cur.len).toNat
    match s.chkStack t (size - 8 * (d + 1)) 8 true with
    | (s', _, some c) => s'.failChk (.thread t) true false c
    | (s', ws, none) =>
      let s'' := s'.stackWords t 4 .none (fun i => .store (((leBytes 8 ret).drop (4 * i)).take 4)) (fun _ => .none) 0 ws
      (s''.updThread t fun x => { x with cdepth := d + 1 }).goto t (relPc (s.th t).pc off)
/-- The words of a return address, each as a plain read sees it now; none while one of them is on its way. -/
def frameWords (s : State) (t : Nat) : List (Loc × Leaf × Nat) → State × Option (List Byte)
  | [] => (s, some [])
  | (l, f, a) :: rest =>
    match s.issueRead t l f a 4 with
    | (s, none) => (s, none)
    | (s, some w) => match frameWords s t rest with
      | (s, some b) => (s, some (w ++ b))
      | (s, none) => (s, none)
def frameUe (s : State) (ws : List (Loc × Leaf × Nat)) : Option (Nat × Nat) :=
  ws.findSome? fun w => (s.ueHit w.1 4 false).map fun pa => (pa, w.2.2)
def retBody (s : State) (t : Nat) : State :=
  let d := (s.th t).cdepth
  let size := (s.grOf t).stk
  if s.acqBlocked (.thread t) then s
  else if d = 0 then s.raise t .stack (wrapN 32 size)
  else
    match s.chkStack t (size - 8 * d) 8 false with
    | (s', _, some c) => s'.failChk (.thread t) false false c
    | (s', ws, none) =>
      match s'.frameUe ws with
      | some (pa, ea) => s'.dataUe t pa ea
      | none =>
        match s'.frameWords t ws with
        | (s', none) => s'
        | (s', some b) =>
          let target := leNat b
          if target % 4 ≠ 0 then s'.raise t .misalign target
          else (s'.updThread t fun x => { x with cdepth := d - 1 }).goto t (BitVec.ofNat 64 target)

/-! ## Ending, trapping, returning (R325, R337) -/

def exitBody (s : State) (t : Nat) : State := if s.threadPend t then s.setSt t .exiting else s.endThread t
def swTrap (imm : Int) (s : State) (t : Nat) : State :=
  s.raiseInfo t ⟨.swtrap, (s.th t).pc + BitVec.ofNat 64 s.cur.len, BitVec.ofInt 64 imm, s.cur.len == 8, false, false,
    false⟩
def yieldBody (m : Bool) (s : State) (t : Nat) : State :=
  (s.advance t).updThread t fun x => { x with st := .yield (s.cycle + 64) m }
def tretBody (s : State) (t : Nat) : State :=
  let r := (s.th t).trap
  let pc := if r.level = 1 then r.epc1 else r.epc2
  if r.level = 0 then s.raise t .priv 0
  else if pc.toNat % 4 ≠ 0 then s.raise t .misalign pc.toNat
  else if s.threadPend t then s.setSt t .returning
  else s.trapReturn t

/-! ## Trap and system registers (R179, R214, R335, R336, R390) -/

def wideTc (tc : Nat) : Bool := tc == 2 || tc == 3 || tc == 5 || tc == 6 || tc == 7 || tc == 8
/-- Registers that the lane side of the move names. -/
def tcRegs (tc n : Nat) : List Nat := if wideTc tc then [n, n + 1] else [n]
def readTc (s : State) (t tc : Nat) : Nat :=
  let x := s.th t
  match tc with
  | 0 => x.trap.level
  | 1 => x.trap.cause1.toNat
  | 2 => x.trap.epc1.toNat
  | 3 => x.trap.addr1.toNat
  | 4 => x.trap.cause2.toNat
  | 5 => x.trap.epc2.toNat
  | 6 => x.trap.addr2.toNat
  | 7 => x.trap.vec.toNat
  | 8 => x.trap.save.toNat
  | 9 => x.trap.stat.toNat
  | 10 => x.fpstat.toNat
  | _ => b2n (s.grOf t).haz
/-- The value that a write leaves in registers 1 to 9: bits that the map gives as zero are ignored. -/
def TrapRegs.put (r : TrapRegs) (tc v : Nat) : TrapRegs :=
  match tc with
  | 1 => { r with cause1 := BitVec.ofNat 8 v }
  | 2 => { r with epc1 := BitVec.ofNat 64 v }
  | 3 => { r with addr1 := BitVec.ofNat 64 v }
  | 4 => { r with cause2 := BitVec.ofNat 8 v }
  | 5 => { r with epc2 := BitVec.ofNat 64 v }
  | 6 => { r with addr2 := BitVec.ofNat 64 v }
  | 7 => { r with vec := BitVec.ofNat 64 (v / 256 * 256) }
  | 8 => { r with save := BitVec.ofNat 64 (v / 4096 * 4096) }
  | 9 => { r with stat := BitVec.ofNat 6 v }
  | _ => r
def writeTc (s : State) (t tc v : Nat) : State :=
  if tc = 10 then s.updThread t fun x => { x with fpstat := BitVec.ofNat 5 v }
  else if tc = 11 then s.updGroup (t / 32) fun g => { g with haz := v % 2 == 1 }
  else s.updThread t fun x => { x with trap := TrapRegs.put x.trap tc v }
/-- A flag setter of the thread has not written its result (R180). -/
def flagPend (s : State) (t : Nat) : Bool := s.pend.any fun p => p.fp && Pend.ofThread t p
def mftBody (d tc : Nat) (s : State) (t : Nat) : State :=
  if tc = 10 ∧ s.flagPend t then s
  else
    let v := s.readTc t tc
    (if wideTc tc then s.setPair t d v else s.setW t d v).advance t
def mttBody (tc a : Nat) (s : State) (t : Nat) : State :=
  if tc ≤ 9 ∧ (s.th t).trap.level = 0 then s.raise t .priv 0
  else (s.writeTc t tc (if wideTc tc then s.rdPair t a else s.rw t a)).advance t

end State

/-- BRA (R322). -/
def execBra (h : Hdr) (off : Int) (s : State) : Out :=
  .next (State.laneOp h ⟨[], []⟩ (fun s t => s.goto t (State.relPc (s.th t).pc off)) s)
/-- CALL (R324). -/
def execCall (h : Hdr) (off : Int) (s : State) : Out := memOp h ⟨[], []⟩ (State.callBody off) s
/-- RET (R324). -/
def execRet (h : Hdr) (s : State) : Out := .next (State.laneOp h ⟨[], []⟩ State.retBody s)
/-- JMPR (R322). -/
def execJmpr (h : Hdr) (a : Nat) (s : State) : Out :=
  .next (State.laneOp h (useR [a]) (fun s t => s.jump t (State.jmprTarget (s.th t).pc (s.rw t a))) s)
/-- EXIT (R325, R213). -/
def execExit (h : Hdr) (s : State) : Out := .next (State.laneOp h ⟨[], []⟩ State.exitBody s)
/-- TRAP (R325). -/
def execTrap (h : Hdr) (imm : Int) (s : State) : Out := .next (State.laneOp h ⟨[], []⟩ (State.swTrap imm) s)
/-- BKPT (R325). -/
def execBkpt (h : Hdr) (s : State) : Out := .next (State.laneOp h ⟨[], []⟩ (fun s t => s.raise t .bkpt 0) s)
/-- YIELD (R325). -/
def execYield (h : Hdr) (s : State) : Out := .next (State.laneOp h ⟨[], []⟩ (State.yieldBody h.m) s)
/-- MFT (R335, R336). -/
def execMft (h : Hdr) (d tc : Nat) (s : State) : Out :=
  .next (State.laneOp h ⟨State.tcRegs tc d, []⟩ (State.mftBody d tc) s)
/-- MTT (R335, R336). -/
def execMtt (h : Hdr) (tc a : Nat) (s : State) : Out :=
  .next (State.laneOp h (useR (State.tcRegs tc a)) (State.mttBody tc a) s)
/-- TRET (R337). -/
def execTret (h : Hdr) (s : State) : Out := .next (State.laneOp h ⟨[], []⟩ State.tretBody s)

end Sys2Proof.Machine
end

