-- ==== Sys2Proof/Machine/Uniform.lean ====
section
/-! DEFINITION. Uniform instructions on g and q registers, uniform branches, uniform loads and stores (R321 to R329). -/

namespace Sys2Proof.Machine

/-- A result into gD, and the next instruction (R321). -/
def uniG (d : Nat) (f : State → Nat → Nat) (s : State) (gs : Nat) : State := (s.setG gs d (f s gs)).advanceAll
def uniQ (d : Nat) (f : State → Nat → Bool) (s : State) (gs : Nat) : State := (s.setQ gs d (f s gs)).advanceAll
/-- A result of a and b modulo 2^64 (R326). -/
def uni2 (a : Nat) (b : Src) (f : Nat → Nat → Nat) (s : State) (gs : Nat) : Nat := f (s.rg gs a) (s.srcG gs b) % 2 ^ 64
def uniOp2 (h : Hdr) (d a : Nat) (b : Src) (f : Nat → Nat → Nat) (s : State) : Out :=
  .next (State.uniOp h (.g a :: b.gs) (uniG d (uni2 a b f)) s)
/-- A 64-bit value under TY 0 or 1 (R326). -/
def int64 (uns : Bool) (x : Nat) : Int := if uns then (x : Int) else sext 64 x
def shl64 (x n : Nat) : Nat := if 64 ≤ n then 0 else x * 2 ^ n
def shr64 (x n : Nat) : Nat := if 64 ≤ n then 0 else x / 2 ^ n
def sar64 (x n : Nat) : Nat := wrapN 64 (sext 64 x / (2 : Int) ^ min n 63)
def minmax64 (uns mx : Bool) (x y : Nat) : Nat := if decide (int64 uns x ≤ int64 uns y) != mx then x else y

/-- UNOP (R325). -/
def execUnop (h : Hdr) (s : State) : Out := .next (State.uniOp h [] (fun s _ => s.advanceAll) s)
/-- UADD (R326). -/
def execUadd (h : Hdr) (_uns : Bool) (d a : Nat) (b : Src) (s : State) : Out := uniOp2 h d a b (· + ·) s
/-- USUB (R326). -/
def execUsub (h : Hdr) (_uns : Bool) (d a : Nat) (b : Src) (s : State) : Out :=
  uniOp2 h d a b (fun x y => x + 2 ^ 64 - y) s
/-- UMUL (R326). -/
def execUmul (h : Hdr) (_uns : Bool) (d a : Nat) (b : Src) (s : State) : Out := uniOp2 h d a b (· * ·) s
/-- UMAD (R326). -/
def execUmad (h : Hdr) (_uns : Bool) (d a : Nat) (b : Src) (c : Nat) (s : State) : Out :=
  .next (State.uniOp h (.g a :: b.gs ++ [.g c])
    (uniG d fun s gs => (s.rg gs a * s.srcG gs b + s.rg gs c) % 2 ^ 64) s)
/-- UAND (R326). -/
def execUand (h : Hdr) (_uns : Bool) (d a : Nat) (b : Src) (s : State) : Out := uniOp2 h d a b (· &&& ·) s
/-- UOR (R326). -/
def execUor (h : Hdr) (_uns : Bool) (d a : Nat) (b : Src) (s : State) : Out := uniOp2 h d a b (· ||| ·) s
/-- UXOR (R326). -/
def execUxor (h : Hdr) (_uns : Bool) (d a : Nat) (b : Src) (s : State) : Out := uniOp2 h d a b (· ^^^ ·) s
/-- USHL (R326). -/
def execUshl (h : Hdr) (_uns : Bool) (d a : Nat) (b : Src) (s : State) : Out := uniOp2 h d a b shl64 s
/-- USHR (R326). -/
def execUshr (h : Hdr) (_uns : Bool) (d a : Nat) (b : Src) (s : State) : Out := uniOp2 h d a b shr64 s
/-- USAR (R326). -/
def execUsar (h : Hdr) (_uns : Bool) (d a : Nat) (b : Src) (s : State) : Out := uniOp2 h d a b sar64 s
/-- UMIN (R326). -/
def execUmin (h : Hdr) (uns : Bool) (d a : Nat) (b : Src) (s : State) : Out := uniOp2 h d a b (minmax64 uns false) s
/-- UMAX (R326). -/
def execUmax (h : Hdr) (uns : Bool) (d a : Nat) (b : Src) (s : State) : Out := uniOp2 h d a b (minmax64 uns true) s
/-- ULI (R239). -/
def execUli (h : Hdr) (d : Nat) (v : Int) (s : State) : Out :=
  .next (State.uniOp h [] (uniG d fun _ _ => wrapN 64 v) s)
/-- ULIH: one 16-bit field replaced, the rest kept (R239). -/
def execUlih (h : Hdr) (d hw v : Nat) (s : State) : Out :=
  .next (State.uniOp h [.g d] (uniG d fun s gs =>
    let x := s.rg gs d
    x / 2 ^ (16 * hw + 16) * 2 ^ (16 * hw + 16) + v % 65536 * 2 ^ (16 * hw) + x % 2 ^ (16 * hw)) s)
/-- UMOV (R326). -/
def execUmov (h : Hdr) (_uns : Bool) (d a : Nat) (s : State) : Out :=
  .next (State.uniOp h [.g a] (uniG d fun s gs => s.rg gs a) s)
/-- USETQ (R327). -/
def execUsetq (h : Hdr) (cc : Cond) (uns : Bool) (d a : Nat) (b : Src) (s : State) : Out :=
  .next (State.uniOp h (.g a :: b.gs)
    (uniQ d fun s gs => holdsI cc (int64 uns (s.rg gs a)) (int64 uns (s.srcG gs b))) s)
/-- USEL (R327). -/
def execUsel (h : Hdr) (d a : Nat) (b : Src) (c : Nat) (s : State) : Out :=
  .next (State.uniOp h (.g a :: b.gs) (uniG d fun s gs => if s.rq gs c then s.rg gs a else s.srcG gs b) s)
/-- UQLOG (R327, R267). -/
def execUqlog (h : Hdr) (op : LogOp) (na nb : Bool) (d a b : Nat) (s : State) : Out :=
  .next (State.uniOp h [] (uniQ d fun s gs => logOp op (s.rq gs a != na) (s.rq gs b != nb)) s)
/-- UMOVS (R327, R30). -/
def execUmovs (h : Hdr) (d sc : Nat) (s : State) : Out :=
  .next (State.uniOp h [] (uniG d fun s gs =>
    if sc = 14 then s.clock else if sc = 15 then s.clock / 2 ^ 32 else s.specialReg gs sc) s)
/-- UBFX (R327). -/
def execUbfx (h : Hdr) (sx : Bool) (d a : Nat) (b : Src) (len : Nat) (s : State) : Out :=
  .next (State.uniOp h (.g a :: b.gs) (uniG d fun s gs =>
    let f := s.rg gs a / 2 ^ (s.srcG gs b % 64) % 2 ^ len
    if sx then wrapN 64 (sext len f) else f) s)
/-- UPOPC (R326). -/
def execUpopc (h : Hdr) (_uns : Bool) (d a : Nat) (s : State) : Out :=
  .next (State.uniOp h [.g a] (uniG d fun s gs => popc 64 (s.rg gs a)) s)

namespace State

/-! ## Uniform branches (R322, R323) -/

def gotoAll (s : State) (pc : DWord) : State := s.cur.threads.foldl (fun s t => s.goto t pc) s

/-! ## Uniform memory (R328, R329) -/

/-- Every access of the threads of the group counts: an acquire of any of them holds a uniform access back. -/
def uniAcc (s : State) (gs : Nat) (op : MemOp) (size : Nat) (x : MemX) (ea : Nat) (form : LdForm) (l : Loc) (f : Leaf) :
    Access :=
  { who := .group gs, core := gs / 64, ctx := (s.tm (s.gr gs).team).ctx, team := (s.gr gs).team, op := op, loc := l,
    leaf := f, size := size, ord := x.ord, scope := x.scope, hint := x.hint, ea := ea, form := form, parts := [] }
def uniGo (s : State) (gs : Nat) (w : Want) (c : State × Chk) (mk : Loc → Leaf → Access) : State :=
  if s.acqBlocked (.group gs) then s
  else match c with
    | (s', .go l f) => match s'.access (mk l f) with
      | (s', true) => s'.advanceAll
      | (s', false) => s'
    | (s', c) => s'.failChk (.group gs) w.wr w.fe c
def uniGlobal (s : State) (gs a : Nat) (x : MemX) (op : MemOp) (form : LdForm) (w : Want) : State :=
  let n := tySize x.ty
  let ea := wrapN 64 ((s.rg gs a : Int) + x.off * n)
  s.uniGo gs w (s.chkGlobal (gs / 64) (gs / 16 % 4) (s.tm (s.gr gs).team).ctx ea n w) (s.uniAcc gs op n x ea form)
def uniSpad (s : State) (gs a : Nat) (x : MemX) (op : MemOp) (form : LdForm) (w : Want) : State :=
  let n := tySize x.ty
  let ea := wrapN 32 ((s.rg gs a : Int) + x.off * n)
  if 2 ^ 32 ≤ s.rg gs a then s.raiseGrp .scratch ea
  else s.uniGo gs w (s.chkSpad (s.tm (s.gr gs).team) ea n w.lockWr) (s.uniAcc gs op n x ea form)
def uniData (s : State) (gs : Nat) (ty : Ty) (d : Nat) : List Byte := (leBytes 8 (s.rg gs d)).take (tySize ty)

end State

/-- UBRA (R322). -/
def execUbra (h : Hdr) (off : Int) (s : State) : Out :=
  .next (State.uniOp h [] (fun s _ => s.gotoAll (State.relPc s.cur.pc off)) s)
/-- ULOOP: count down and branch while not zero (R323). -/
def execUloop (h : Hdr) (off : Int) (c : Nat) (s : State) : Out :=
  .next (State.uniOp h [.g c] (fun s gs =>
    let v := (s.rg gs c + 2 ^ 64 - 1) % 2 ^ 64
    let s' := s.setG gs c v
    if v ≠ 0 then s'.gotoAll (State.relPc s.cur.pc off) else s'.advanceAll) s)
/-- UJMPR (R322). -/
def execUjmpr (h : Hdr) (a : Nat) (s : State) : Out :=
  .next (State.uniOp h [.g a] (fun s gs =>
    let pc := s.rg gs a
    if pc % 4 ≠ 0 then s.raiseGrp .misalign pc else s.gotoAll (BitVec.ofNat 64 pc)) s)
/-- ULD (R328). -/
def execUld (h : Hdr) (x : MemX) (d a : Nat) (s : State) : Out :=
  .next ((State.uniOp h [.g a] (fun s gs => s.uniGlobal gs a x .load (.uni x.ty gs d) .load) s).coalesce s.nextId)
/-- UST (R328). -/
def execUst (h : Hdr) (x : MemX) (d a : Nat) (s : State) : Out :=
  .next (State.uniOp h [.g d, .g a] (fun s gs =>
    s.uniGlobal gs a x (.store (s.uniData gs x.ty d)) .none .store) s)
/-- ULDS (R328). -/
def execUlds (h : Hdr) (x : MemX) (d a : Nat) (s : State) : Out :=
  .next (State.uniOp h [.g a] (fun s gs => s.uniSpad gs a x .load (.uni x.ty gs d) .load) s)
/-- USTS (R328). -/
def execUsts (h : Hdr) (x : MemX) (d a : Nat) (s : State) : Out :=
  .next (State.uniOp h [.g d, .g a] (fun s gs =>
    s.uniSpad gs a x (.store (s.uniData gs x.ty d)) .none .store) s)

end Sys2Proof.Machine
end

