-- ==== Sys2Proof/Machine/Groups.lean ====
section
/-! DEFINITION. Barriers, dependency waits, register blocks, sleep and the privileged instructions (R196, R330 to
R334, R338 to R340). -/

namespace Sys2Proof.Machine
namespace State

/-! ## Arrivals (R330, R331) -/

/-- The reads of the group's threads that have not been performed: an arrival is a release of them (R117, R331). -/
def groupReads (s : State) (gs : Nat) : Bool :=
  s.reqs.any fun r => sameAgent (.group gs) r.who && returns r.op
/-- The phase of the group's last arrival at b. -/
def lastArr (s : State) (gs b : Nat) : Option Nat :=
  let g := s.gr gs
  (((s.tm g.team).bars.getD b (Bar.start 0)).last.find? fun x => x.1 == g.gid).map (·.2)
def barPhase (s : State) (gs b : Nat) : Nat := ((s.tm (s.gr gs).team).bars.getD b (Bar.start 0)).phase
def barBody (b : Nat) (waits : Bool) (s : State) (gs : Nat) : State :=
  if s.groupReads gs then s else s.advanceAll.arrive gs b waits
def barwBody (b : Nat) (s : State) (gs : Nat) : State :=
  let s' := s.advanceAll
  if s.lastArr gs b = some (s.barPhase gs b) then s'.updGroup gs fun g => { g with wait := .bar b (s.barPhase gs b) }
  else s'

/-! ## Dependency slots (R332) -/

def slotsClear (s : State) (team mask : Nat) : Bool :=
  (List.range 8).all fun i => !bitOf mask i || ((s.tm team).slots.getD i DSlot.zero).cnt == 0
/-- Groups of a team that wait at DWAIT go on once every named slot is zero. -/
def settleDwait (s : State) (team : Nat) : State :=
  s.setGroups (s.groups.map fun g =>
    match g.wait with
    | .dwait m => if g.team = team && s.slotsClear team m then { g with wait := .none } else g
    | _ => g)

/-! ## Extended blocks (R194 to R196) -/

def rowsUsed (s : State) (core quad : Nat) : Nat :=
  (s.groups.filter fun g => g.gslot / 64 == core && g.gslot / 16 % 4 == quad).foldl
    (fun n g => n + g.base + (if g.ext then 64 else 0)) 0
def rowsFree (s : State) (core quad : Nat) : Nat := 1536 - s.rowsUsed core quad
/-- w64 to w127 read 0 with tag 0. -/
def clearExt (s : State) (gs : Nat) : State :=
  s.setThreads (s.threads.map fun x =>
    if x.slot / 32 = gs then { x with regs := x.regs.take 64 ++ List.replicate 64 LaneReg.zero } else x)
def grantExt (s : State) (gs : Nat) : State :=
  (s.clearExt gs).updGroup gs fun g => { g with ext := true, wait := if g.wait = .racq then .none else g.wait }
/-- The groups of a quadrant that wait at RACQ, in the order in which they began. -/
def racqQueue (s : State) (core quad : Nat) : List Nat := (s.co core).racq.filter fun g => g / 16 % 4 == quad
def racqBody (s : State) (gs : Nat) : State :=
  let g := s.gr gs
  let core := gs / 64
  let quad := gs / 16 % 4
  if !g.extOk then s.raiseGrp .illreg 64
  else if g.ext then s.advanceAll
  else if 64 ≤ s.rowsFree core quad && s.racqQueue core quad == [] then s.advanceAll.grantExt gs
  else ((s.advanceAll.updGroup gs fun g => { g with wait := .racq, racqAt := s.nextId }).updCore core fun c =>
    { c with racq := c.racq ++ [gs] }).bump
/-- A waiter that comes back after a pre-emption takes its place in the grant order again (R333). -/
def insRacq (s : State) (gs : Nat) : List Nat → List Nat
  | [] => [gs]
  | x :: l => if (s.gr gs).racqAt < (s.gr x).racqAt then gs :: x :: l else x :: insRacq s gs l
def dropExt (s : State) (gs : Nat) : State :=
  ((s.clearExt gs).setPend (s.pend.filter fun p =>
    match p.dst with | .reg t n => !(t / 32 == gs && 64 ≤ n) | _ => true)).updGroup gs fun g => { g with ext := false }
def rrelBody (s : State) (gs : Nat) : State := if (s.gr gs).ext then (s.dropExt gs).advanceAll else s.advanceAll

/-! ## Sleep (R334) -/

def usleepBody (b : Src) (s : State) (gs : Nat) : State :=
  let n := min (s.srcG gs b) (2 ^ 24)
  let s' := s.advanceAll
  if n = 0 then s' else s'.updGroup gs fun g => { g with wait := .sleep (s.cycle + n) }

/-! ## Privileged instructions (R338 to R340) -/

/-- Step 5 of R242: PRIV whatever the guard holds. -/
def sysOp (h : Hdr) (reads : List Opd) (body : State → Nat → State) (s : State) : State :=
  if (s.tm (s.gr s.curGroup).team).sys then uniOp h reads body s else s.raiseGrp .priv 0
/-- What a release at device scope of the group's threads waits for is not yet performed (R124, R339). -/
def groupUndone (s : State) (gs : Nat) : Bool := (s.wideAfter (.group gs) (gs / 64)).any s.pending
/-- A group acquires at device scope: narrow releases of other cores, which its threads may have read, are promoted
first (R126, R339). -/
def startAcq (s : State) (gs : Nat) (g : Group) : Group := { g with wait := .acq (s.promPending (gs / 64)) }
def askOthers (s : State) (core : Nat) : State :=
  s.setProms fun l => l.map fun p => if p.core != core then { p with asked := true } else p
/-- Groups whose acquire has nothing left to wait for go on (R124). -/
def settleAcqs (s : State) : State :=
  (s.groups.filter fun g => match g.wait with | .acq rs => !rs.any s.pending | _ => false).foldl (fun s g =>
    (s.l1Clear (g.gslot / 64)).updGroup g.gslot fun x => { x with wait := .none }) s
def tflshBody (a : Nat) (s : State) (gs : Nat) : State :=
  let v := s.rg gs a
  if 16 ≤ v then s.raiseGrp .engcmd v
  else if s.groupUndone gs then s
  else if !s.hasCtx v then s.advanceAll
  else
    let s' := s.startFlush v
    s'.advanceAll.updGroup gs fun g => { g with wait := .flush v (s'.cx v).epoch }
def tdrnBody (a : Nat) (s : State) (gs : Nat) : State :=
  let v := s.rg gs a
  if 16 ≤ v then s.raiseGrp .engcmd v
  else if !s.hasCtx v then ((s.advanceAll.updGroup gs (s.startAcq gs)).askOthers (gs / 64)).settleAcqs
  else s.advanceAll.updGroup gs fun g => { g with wait := .drain v (s.cx v).epoch }
def csplitBody (p : Nat) (s : State) (gs : Nat) : State :=
  (s.updCore (gs / 64) fun c => { c with pendSplit := if c.ways = p then none else some p }).advanceAll

end State

/-- BAR (R330). -/
def execBar (h : Hdr) (b : Nat) (s : State) : Out := .next (State.uniOp h [] (State.barBody b true) s)
/-- BARA (R330). -/
def execBara (h : Hdr) (b : Nat) (s : State) : Out := .next (State.uniOp h [] (State.barBody b false) s)
/-- BARW (R330). -/
def execBarw (h : Hdr) (b : Nat) (s : State) : Out := .next (State.uniOp h [] (State.barwBody b) s)
/-- DWAIT (R332). -/
def execDwait (h : Hdr) (mask : Nat) (s : State) : Out :=
  .next (State.uniOp h [] (fun s gs =>
    let s' := s.advanceAll
    if s.slotsClear (s.gr gs).team mask then s' else s'.updGroup gs fun g => { g with wait := .dwait mask }) s)
/-- RACQ (R196, R333). -/
def execRacq (h : Hdr) (s : State) : Out := .next (State.uniOp h [] State.racqBody s)
/-- RREL (R196, R333). -/
def execRrel (h : Hdr) (s : State) : Out := .next (State.uniOp h [] State.rrelBody s)
/-- USLEEP (R334). -/
def execUsleep (h : Hdr) (b : Src) (s : State) : Out := .next (State.uniOp h b.gs (State.usleepBody b) s)
/-- TFLSH (R339). -/
def execTflsh (h : Hdr) (a : Nat) (s : State) : Out := .next (State.sysOp h [.g a] (State.tflshBody a) s)
/-- TDRN (R339). -/
def execTdrn (h : Hdr) (a : Nat) (s : State) : Out := .next (State.sysOp h [.g a] (State.tdrnBody a) s)
/-- CSPLIT (R340). -/
def execCsplit (h : Hdr) (p : Nat) (s : State) : Out := .next (State.sysOp h [] (State.csplitBody p) s)

end Sys2Proof.Machine
end

