-- ==== Sys2Proof/Machine/HomeEvents.lean ====
section
/-! DEFINITION. Events of the memory system: an access performed at its home, full/empty waits and wakes, results and
acknowledgements returning, promotion, second-touch filter and scrubber (R44 to R57, R88 to R102, R123 to R126, R211). -/

namespace Sys2Proof.Machine
namespace State

/-! ## The order of accesses (R112, R117, R126, R295) -/

/-- The core number of accesses that come from other packages: none of the 192. -/
def remoteCore : Nat := 200
/-- Two accesses of one other package to one line, which are performed in the order of their arrival (R137, R414). -/
def sameRemoteLine (a r : Req) : Bool :=
  a.core == remoteCore && r.core == remoteCore &&
  (match a.who, r.who with | .remote n _, .remote m _ => n == m | .ual p _, .ual q _ => p == q | _, _ => false) &&
  (locsOf a).any fun x => (locsOf r).any fun y =>
    match x.1, y.1 with | .mem x, .mem y => lineOf x == lineOf y | .host x, .host y => lineOf x == lineOf y | _, _ => false
/-- An earlier access of the same core that must be performed first; the accesses of one coalesced request are
performed together, in their order. -/
def before (a r : Req) : Bool :=
  a.id < r.id && !a.done && a.co != r.co && a.core == r.core && (sameRemoteLine a r ||
  ((sameAgent a.who r.who || writes a.op || writes r.op) && (locsOf r).any fun y => touches a y.1 y.2))
/-- The access reads or writes a byte of a release that another core performed. -/
def meetsProm (r : Req) (p : Prom) : Bool :=
  p.core != r.core && p.bytes.any fun b => touches r (.mem b) 1
/-- A narrow release of another core that an acquire at device scope or wider reads holds it until it is promoted. -/
def promBlocks (s : State) (r : Req) : Bool :=
  isAcq r.op r.ord && 4 ≤ Scope.rank r.scope && s.l2.proms.any (meetsProm r)
/-- A MEMSIDE access to a line that a release record holds waits until the slice may drop the line (R45, R126). -/
def memsideBlocks (s : State) (r : Req) : Bool :=
  (r.cp == 3 && (match r.loc with | .mem pa => s.promHolds (lineOf pa) | _ => false)) ||
  r.parts.any fun p => p.cp == 3 && (match p.loc with | .mem pa => s.promHolds (lineOf pa) | _ => false)
/-- One access may be performed: what it waits for is (R112, R117, R136), and no record holds it. -/
def reqReady (s : State) (r : Req) : Bool :=
  !r.done && !(r.after.any s.pending) && !(s.reqs.any fun a => before a r) &&
  !(isRel r.op r.ord && r.scope.far && (s.tm r.team).outst != 0) && !s.promBlocks r && !s.memsideBlocks r
/-- The accesses of a coalesced request that have not been performed, in their order (R41). -/
def mates (s : State) (r : Req) : List Req := s.reqs.filter fun x => x.co == r.co && !x.done
def matesReady (s : State) (r : Req) : Bool := !r.done && (s.mates r).all s.reqReady

/-! ## Errors found by check codes (R54, R57, R398, R399) -/

/-- Where whoever met an event stands. -/
def epcOfWho (s : State) : Who → Nat
  | .thread t => (s.th t).pc.toNat
  | .group gs => (s.th (gs * 32)).pc.toNat
  | _ => 0
/-- An uncorrectable error in a core's scratchpad: the context whose team is resident there is killed, otherwise the way
is noted for its next placement (R395, R398). -/
def spadUe (s : State) (core off : Nat) (w : Who) (addr : Nat) : State :=
  match s.teams.find? fun u => u.core == core && u.spBase ≤ off && off < u.spBase + u.spSize with
  | some u => s.kill u.ctx .state w 0 (s.epcOfWho w) addr
  | none => s.updCore core fun c => { c with badWays := insertNat (off / 131072) c.badWays }
/-- What the check code of the accessed granule or word reports. -/
def eccAt (s : State) (r : Req) (e : Ecc) : State :=
  match r.loc, e with
  | .mem pa, .ce => if s.inSlice (pa / 32) then s else s.ceFound pa
  | .mem pa, .ue => if s.inSlice (pa / 32) then s else s.setUe (insertNat (pa / 32) s.ue)
  | .spad c o, .ue => s.spadUe c o r.who r.va
  | _, _ => s
/-- Granules of the region that a full/empty form needs. -/
def bitUes (s : State) (l : Loc) : List Nat :=
  match l with | .mem pa => if s.feUe pa then [feGranule pa] else [] | _ => []
/-- Every bad granule that the access meets, of its data and of its bits. -/
def reqUes (s : State) (r : Req) : List Nat :=
  match r.op, r.loc with
  | .wline m d, .mem pa => ((List.range (d.length / 32)).filter fun g =>
      s.ueAt (pa + 32 * g) && m / 2 ^ (32 * g) % 2 ^ 32 != 0 && m / 2 ^ (32 * g) % 2 ^ 32 != 2 ^ 32 - 1).map fun g => pa + 32 * g
  | .fe _ _ _ _ _, l => s.ueHits l r.size (writes r.op) ++ s.bitUes l
  | .engWord _ _ (some _), l => s.ueHits l r.size true ++ s.bitUes l
  | _, _ => (locsOf r).flatMap fun x => s.ueHits x.1 x.2 (writes r.op)
/-- A request whose stores cover a bad granule between them replaces it whole (R53). -/
def coverWhole (s : State) (l : List Req) : State :=
  let covers := fun (a : Nat) => l.any fun r => match r.op, r.loc with
    | .store d, .mem p => p ≤ a && a < p + d.length
    | _, _ => false
  s.setUe (s.ue.filter fun g => s.inSlice g || !((List.range 32).all fun i => covers (32 * g + i)))

/-! ## Finishing a request -/

def dropReq (s : State) (rid : Nat) : State := s.setReqs (s.reqs.filter fun r => r.id != rid)
/-- Fences, and groups at the end of a drain, that waited for a request look again (R308, R339). -/
def settleFences (s : State) : State :=
  (s.threads.foldl (fun s x => match x.st with | .fence _ _ _ _ _ _ => s.settleFence x.slot | _ => s) s).settleAcqs
/-- The thread, or the group, that a destination belongs to. -/
def dstOwner : Dst → Bool × Nat | .reg t _ => (false, t) | .pred t _ => (false, t) | .ureg gs _ => (true, gs)
def dstGroup : Dst → Nat | .reg t _ => t / 32 | .pred t _ => t / 32 | .ureg gs _ => gs
/-- After a result: the rests that waited for it (R213). -/
def settleDst (s : State) (d : Dst) : State :=
  let s := match d with
    | .reg t _ => s.settleThread t
    | .pred t _ => s.settleThread t
    | .ureg gs _ => (s.live gs).foldl settleThread s
  s.settleGroup (dstGroup d)
/-- Pending results that are never written: the rests that waited for them end (R392). -/
def dropResults (s : State) (rid : Nat) : State :=
  let gone := s.pend.filter fun p => p.req == rid
  gone.foldl (fun s p => s.settleDst p.dst) (s.dropPend rid)
/-- Answer another package's request (R414, R415, R425); a failed whole-block write that has an address to report is
answered by a REPLY (R312, log 31). -/
def answer (s : State) (w : Who) (op : MemOp) (status : Nat) (b : List Byte) : State :=
  match w with
  | .remote n e => if returns op || b != [] then s.sendReply n e status b else s.sendAck n e status
  | .ual p t => s.sendUal p t status b
  | _ => s
def isRemote : Who → Bool | .remote _ _ => true | .ual _ _ => true | _ => false
/-- A thread that waits at its instruction for a request that failed goes on: its next instruction is the one after
(R392). -/
def unstick (s : State) (r : Req) : State :=
  let free := fun (t len : Nat) =>
    if (s.th t).st = .feSent r.id ∨ (s.th t).st = .recWait r.id then
      s.updThread t fun x =>
        { x with pc := x.pc + BitVec.ofNat 64 len, st := .run, retry := 0, re := .first, hbuf := [] }
    else s
  match r.form with
  | .fe t _ len _ => free t len
  | .planeRec _ t len => free t len
  | .buf t => free t (if r.xw then 8 else 4)
  | _ => s
/-- The access failed: its results are never written, and whoever issued it is told; PGREQ reports an uncorrectable
error alone (R302, R399). -/
def reqFails (s : State) (r : Req) (status : Nat) : State :=
  if isRemote r.who then (s.dropReq r.id).answer r.who r.op status []
  else if r.op == .pgreq && status != 0x20 then (s.dropReq r.id).settleFences
  else ((((s.unstick r).dropReq r.id).failWho r.who status r.va r.xw).dropResults r.id).settleFences
/-- Destination bytes that an engine's write to another package or the host carries (R353). -/
def engBytes : MemOp → Nat
  | .engWord m _ _ => ((List.range 4).filter fun i => bitOf m i).length
  | .planeWrite _ _ _ ws _ => 2 + 4 * ws.length
  | _ => 0
/-- Bytes from the host window reach what asked for them: a quadrant's instruction cache, or a thread that issues again
(R484). -/
def hostBytes (s : State) (r : Req) (b : List Byte) : Option State :=
  match r.form with
  | .code q => some ((s.dropReq r.id).cacheWord r.core q r.ctx (vaOf r.va) (leNat b))
  | .buf t => some ((s.dropReq r.id).updThread t fun x =>
      { x with hbuf := x.hbuf ++ [(r.va, b)], st := if x.st = .recWait r.id then .run else x.st })
  | _ => none
/-- A request's results are known: a returning one leaves the list, the others owe their acknowledgement. -/
def reqDone (s : State) (r : Req) (b : List Byte) (ok : Bool) : State :=
  match r.who with
  | .op o => (s.dropReq r.id).updOp o fun x =>
      if returns r.op then { x with rbuf := x.rbuf ++ [(r.va, (if isFe r.op then 0 else r.size), b)] }
      else { x with landed := x.landed + engBytes r.op }
  | .remote _ _ => (s.dropReq r.id).answer r.who r.op 0 (if ok then b else [])
  | .ual _ _ => (s.dropReq r.id).answer r.who r.op 0 (if ok then b else [])
  | .node _ _ | .queue _ | .ring _ | .done _ =>
    (s.dropReq r.id).setCp { s.cp with rbuf := s.cp.rbuf ++ [(r.who, r.va, b)] }
  | _ =>
    match s.hostBytes r b with
    | some s' => s'
    | none =>
      if returns r.op then ((s.dropReq r.id).fillPend r.id (formVals r.form b ok)).settleFences
      else s.updReq r.id fun x => { x with done := true }
/-- Remember a write that releases at group or team scope, by itself or behind a fence, at the slice of every line it
writes (R118, R126, R134). -/
def remember (s : State) (r : Req) : State :=
  if writes r.op && ((r.nrel && r.cp != 3) || (isRel r.op r.ord && (r.scope == .grp || r.scope == .team))) then
    let before := ((s.reqs.filter fun x => x.core == r.core && writes x.op && x.id != r.id).map (·.id) ++
      s.coreRemote r.core).filter fun i => i < r.id
    (locsOf r).foldl (fun s x => match x.1 with
      | .mem pa => s.setProms fun l => l ++ [⟨lineOf pa, r.core, (List.range x.2).map (pa + ·), r.id :: before, false⟩]
      | _ => s) s
  else s
/-- The L1 of the issuing core once the access is performed: a wide acquire empties it; an allocating load fills it; any
other access but a plain store drops the sectors it touches, which may have been filled before it was performed and hold
older bytes (R39 to R41, R112, R124). -/
def l1After (s : State) (r : Req) : State :=
  if isAcq r.op r.ord && r.scope.wide then s.l1Clear r.core
  else
    match r.op with
    | .store _ | .pgreq => s
    | .load =>
      if allocLoad r then
        let s := (r.fill.filter fun p => !s.ueAt p).foldl
          (fun s p => s.l1Fill r.core (lineWeight r.cp r.pl r.hint) p) s
        if r.hint = .last then s.l1Drop r.core (locsOf r) else s
      else s.l1Drop r.core (locsOf r)
    | _ => s.l1Drop r.core (locsOf r)
/-- The home slices' tags: a coalesced request's line once, at its first access performed; every line that another access
touches, by the policy of its own page. A host-window or scratchpad access touches none. -/
def homeTags (s : State) (r : Req) : State :=
  match coalesces r with
  | some pa =>
    let b := max r.bytes 1
    s.l2Touch (pa / b * b) b r.cp r.pl r.hint (writes r.op) false r.feb r.merged
  | none =>
    let s := match r.loc with
      | .mem pa => s.l2Touch pa (max r.size 1) r.cp r.pl r.hint (writes r.op) (isFe r.op) r.feb r.merged
      | _ => s
    r.parts.foldl (fun s p => match p.loc with
      | .mem pa => s.l2Touch pa 4 p.cp p.pl r.hint (writes r.op) false p.feb r.merged
      | _ => s) s

/-! ## Waiting forms (R92 to R101) -/

def condOfForm : FeForm → WCond | .ldwf => .ldwf | .ldce => .ldce | .stwe => .empty | _ => .waita
/-- The lane goes on: its result is pending, it leaves the entry that woke it. -/
def feProceed (s : State) (t : Nat) (d? : Option Nat) (len : Nat) (m : Bool) (b : List Byte) : State :=
  let s := match (s.th t).re with
    | .woken e _ =>
      let s := s.dropLane (t / 32) (laneOf t) fun i => i == e
      s.setWaits (s.waits.map fun (w : Wait) =>
        if w.id = e then { w with st := match w.st with | .woken _ => .woken s.cycle | x => x } else w)
    | _ => s
  let s := match d? with
    | some d => s.addPend (.reg t d) (.reg ⟨BitVec.ofNat 32 (leNat b), Tag.zero⟩) 0 false
    | none => s
  (s.updThread t fun x =>
    { x with pc := x.pc + BitVec.ofNat 64 len, st := .run, retry := 0, re := .first, hbuf := [] }).restM m t
/-- This failure counts under R100. -/
def feCounts (s : State) (t : Nat) (f : FeForm) : Bool :=
  match (s.th t).re with | .first => false | .woken _ c => c | .retry => f != .waita
/-- A waiting lane enters the table, or a park record, or rests for 256 cycles (R94, R97, R98). A lane that waits anew while
its group's entry on the word is WOKEN takes another entry (log 40). An uncorrectable error in the park area kills the
context (R399, log 61). -/
def feWaitAt (s : State) (t ctx : Nat) (f : FeForm) (l : Loc) : State :=
  let gs := t / 32
  let lane := laneOf t
  let word := wordOf l
  let cond := condOfForm f
  let add := fun (w : Wait) => match w.who with
    | .lanes g ls => { w with who := .lanes g (if ls.contains lane then ls else insertNat lane ls), st := .wait }
    | _ => w
  let mine := fun (w : Wait) => w.word == word && w.cond == cond && (match w.who with | .lanes g _ => g == gs | _ => false)
  let old : Option Wait := match (s.th t).re with
    | .woken e _ => s.waits.find? fun w => w.id == e && mine w
    | _ => none
  let s : State := if old.isSome then s else s.dropLane gs lane fun _ => true
  let at_ : Option Wait := match old with
    | some w => some w
    | none => s.waits.find? fun w => mine w && w.st == .wait
  match at_ with
  | some w => (s.setWaits (s.waits.map fun x => if x.id = w.id then add x else x)).setSt t .feWait
  | none =>
    if s.tableRoom (tableOf word) then
      ((s.setWaits (s.waits ++ [⟨s.nextId, tableOf word, word, cond, .lanes gs [lane], ctx, s.nextId, .wait⟩])).bump).setSt
        t .feWait
    else
      match s.park ctx ⟨cond, word, gs, [lane]⟩ with
      | (s, .free _) => s.setSt t .feWait
      | (s, .full) => s.updThread t fun x => { x with st := .feRest (s.cycle + 256), re := .retry }
      | (s, .bad) => s.kill ctx .dataue (.thread t) 0 (s.th t).pc.toNat (s.cx ctx).parkBase
/-- A failed test: the budget (R100, R101), then the wait. -/
def feFail (s : State) (t ctx : Nat) (f : FeForm) (l : Loc) (ea len : Nat) : State :=
  let n := (s.th t).retry + b2n (s.feCounts t f)
  let budget := (s.cx ctx).budget
  if s.feCounts t f && f != .waita && budget != 0 && budget ≤ n then
    s.raiseInfo t ⟨.feretry, (s.th t).pc, BitVec.ofNat 64 ea, len == 8, false, false, false⟩
  else (s.updThread t fun x => { x with retry := n }).feWaitAt t ctx f l
/-- A waiting form tested at its home. -/
def feHome (s : State) (r : Req) (t : Nat) (d? : Option Nat) (len : Nat) (m : Bool) (f : FeForm) : State :=
  let (s', b, ok) := s.perform r.op r.loc (r.parts.map (·.loc)) r.size
  let s' := s'.dropReq r.id
  if (s.th t).st != .feSent r.id then s.dropReq r.id
  else if ok then (((s'.remember r).l1After r).feProceed t d? len m b).settleFences
  else (s'.feFail t r.ctx f r.loc r.va len).settleFences

/-- A form of another package that does not proceed is held in the word's wait table, or answered as not held
(R91, R98). -/
def holdRemote (s : State) (r : Req) (f : FeForm) : State :=
  let s := s.dropReq r.id
  let word := wordOf r.loc
  let add := fun (who : Waiter) =>
    (s.setWaits (s.waits ++ [⟨s.nextId, tableOf word, word, condOfForm f, who, r.ctx, s.nextId, .wait⟩])).bump
  let room := s.tableRoom (tableOf word)
  match r.who with
  | .remote n e => if room then (add (.remote n e)).sendAck n e 0 else s.sendReply n e 0xFF []
  | .ual p t =>
    if room then (add (.ual p t)).setFab { (add (.ual p t)).fab with ualResp := s.fab.ualResp ++ [(p, t, .ack [(t, 0)])] }
    else s.sendUal p t 0xFF []
  | _ => s
/-- A waiting or .try form of another package. -/
def feRemote (s : State) (r : Req) (f : FeForm) (try_ : Bool) : State :=
  let (s', b, ok) := s.perform r.op r.loc (r.parts.map (·.loc)) r.size
  if ok ∨ try_ then s'.reqDone r b ok else s'.holdRemote r f
/-- What an access does at its home; a .try form that does not proceed is no event (R110, R128). -/
def homeEffect (s : State) (r : Req) : State :=
  let (s, b, ok) := s.perform r.op r.loc (r.parts.map (·.loc)) r.size
  (if ok then (s.remember r).l1After r else s).reqDone r b ok
/-- A peer-rank access reaches a core on which its co-scheduled team no longer holds the bytes (R21). -/
def spadGone (s : State) (r : Req) : Bool :=
  let u := s.tm r.team
  (locsOf r).any fun x => match x.1 with
    | .spad c o => c != r.core && !(s.teams.any fun v => v.core == c && v.launch == u.launch && v.coset.isSome &&
        v.coset == u.coset && v.spBase ≤ o && o + x.2 ≤ v.spBase + v.spSize)
    | _ => false
/-- The units of one scratchpad access that have not been performed. -/
def spadUnits (s : State) (r : Req) : List Req :=
  s.reqs.filter fun x => x.who == r.who && x.va == r.va && x.since == r.since && !x.done &&
    (match x.loc with | .spad _ _ => true | _ => false)
/-- A range lock of the core that a peer-rank access reaches refuses it (R356). -/
def spadLocked (s : State) (r : Req) : Bool :=
  (locsOf r).any fun x => match x.1 with
    | .spad c o => s.locked c r.ctx true (writes r.op) o x.2
    | _ => false
/-- What a peer-rank access of a thread meets when its first unit reaches the target: none of its units is performed
where one of them fails (R21, R356). -/
def spadCheck (s : State) (r : Req) : Option Cause :=
  match r.loc with
  | .spad c _ =>
    if c = r.core ∨ r.merged then none
    else if (s.spadUnits r).any s.spadGone then some .scratch
    else if (s.spadUnits r).any s.spadLocked then some .rangelock
    else none
  | _ => none
/-- The other units of an access that failed at its target go with it. -/
def spadFails (s : State) (r : Req) (c : Cause) : State :=
  (((s.spadUnits r).filter fun x => x.id != r.id).foldl (fun s x => (s.dropReq x.id).dropResults x.id) s).reqFails r c.code
/-- The check at the target is made once for all units (R21). -/
def spadPassed (s : State) (r : Req) : State :=
  match r.loc with
  | .spad _ _ => let l := (s.spadUnits r).map (·.id)
    s.setReqs (s.reqs.map fun x => if l.contains x.id then { x with merged := true } else x)
  | _ => s
/-- One access performed at its home: every bad granule it meets is queued and fails it (R57, R399). -/
def homeReq (s : State) (r : Req) : State :=
  match s.spadCheck r with
  | some c => s.spadFails r c
  | none =>
  let s := s.spadPassed r
  match s.reqUes r with
  | pa :: l => (s.queueAll (pa :: l)).reqFails r 0x20
  | [] =>
    match r.form, r.op with
    | .fe t d? len m, .fe f _ _ _ _ => s.feHome r t d? len m f
    | .none, .fe f tr _ _ _ => if isRemote r.who then s.feRemote r f tr else s.homeEffect r
    | _, _ => s.homeEffect r

/-- Lines that a MEMSIDE access finds in their slices leave them first (R45). -/
def memsideOut (s : State) (r : Req) : State :=
  let out := fun (s : State) (cp : Nat) (l : Loc) => match l with
    | .mem pa => if cp = 3 then (match s.l2Line? pa with | some x => s.evictLine x | none => s) else s
    | _ => s
  r.parts.foldl (fun s p => out s p.cp p.loc) (out s r.cp r.loc)
/-- A coalesced request is performed at its home as one step: its tags once, its accesses in lane order (R38, R41,
R52). -/
def homeMates (s : State) (r : Req) : State :=
  let l := s.mates r
  let s := (l.foldl memsideOut s).coverWhole l
  l.foldl (fun s x => match s.req? x.id with | some y => s.homeReq y | none => s)
    (if l.any fun x => s.reqUes x != [] then s else s.homeTags r)

/-! ## Results -/

def landDst (s : State) (d : Dst) (v : PVal) : State :=
  match d, v with
  | .reg t n, .reg r => s.setReg t n r
  | .pred t n, .pred b => s.setP t n b
  | .ureg gs n, .ureg x => s.setG gs n x.toNat
  | _, _ => s
def landPend (s : State) (p : Pend) : State :=
  ((s.setPend (s.pend.filter fun x => x.id != p.id)).landDst p.dst p.val).settleDst p.dst

/-- The value of a pending result, or of another that the same instruction left its thread or group, is not yet known: a
load that reads several granules delivers none of them where one is bad (R399). -/
def unread (s : State) (p : Pend) : Bool :=
  p.val == .none || s.pend.any fun x => x.val == .none && x.since == p.since && dstOwner x.dst == dstOwner p.dst
/-- The granule that a scrubber's position names: PA[10:8] follows from the stack (R43). -/
def scrubPa (stack pos : Nat) : Nat :=
  let hi := pos / 8 * 2048
  hi + (stack ^^^ bits hi 23 21) * 256 + pos % 8 * 32
/-- The next granule; a pass ends after the stack's 2^31 granules. -/
def scrubNext (x : Scrub) : Scrub :=
  if x.pos + 1 < 2 ^ 31 then { x with pos := x.pos + 1 }
  else { x with pos := 0, cecnt := min 0xFFFF x.running, running := 0, ceFrames := [] }

end State

/-! ## Meanings -/

/-- A pending result lands with its tag (R211, R74), once every unit of its access has been read (R399). -/
def execLoadResultReturn (k : Nat) (s : State) : Out :=
  match s.pend.find? fun p => p.id == k with
  | some p => .next (if s.unread p then s else s.landPend p)
  | none => .next s
/-- A home's acknowledgement reaches the core (R124). -/
def execStoreAcknowledge (r : Nat) (s : State) : Out :=
  match s.req? r with
  | some q => .next (if q.done && !State.returns q.op then (s.dropReq r).settleFences else s)
  | none => .next s
/-- A request is performed at its home (R52). -/
def execHomeAccess (r : Nat) (ecc : Ecc) (s : State) : Out :=
  match s.req? r with
  | some q =>
    match q.loc with
    | .mem _ => .next (if s.matesReady q then (s.eccAt q ecc).homeMates q else s)
    | .spad _ _ =>
      .next (if s.matesReady q then
        let s' := s.eccAt q ecc
        if (s'.req? r).isSome && !(ecc == .ue) then s'.homeMates q else s'
      else s)
    | _ => .next s
  | none => .next s
/-- 256 cycles without a free fault have passed (R156). -/
def execFaultSlotRetry (t : Nat) (s : State) : Out :=
  match (s.th t).st with
  | .slotRest u => .next (if u ≤ s.cycle then s.setSt t .run else s)
  | _ => .next s
/-- The filters clear and lines age when bits [19:0] of the cycle counter become zero (R46, R49). -/
def execFilterClear (s : State) : Out :=
  .next (if s.cycle % 2 ^ 20 = 0 ∧ s.l2.clearedAt ≠ s.cycle then s.clearFilters s.cycle else s)
/-- The scrubber reads one granule (R55, R56, R57). -/
def execScrubRead (stack : Nat) (ecc : Ecc) (s : State) : Out :=
  let sc := s.dev.scrub.getD stack Scrub.reset
  let pa := State.scrubPa stack sc.pos
  .next (if 8 ≤ stack ∨ !sc.en ∨ sc.passH = 0 then s
    else
      let s' :=
        if ecc = .ue ∨ s.ue.contains (pa / 32) then (s.setUe (insertNat (pa / 32) s.ue)).queueBad pa true
        else if ecc = .ce ∨ s.ce.contains (pa / 32) then
          let s' := s.ceFound pa
          s'.setDev { s'.dev with marks := insertNat (pa / 32) s'.dev.marks }
        else s
      s'.setDev { s'.dev with scrub := updAt s'.dev.scrub stack State.scrubNext })
/-- A scrub write lands where its mark survives: the whole corrected granule, free of any error (R56). -/
def execScrubWrite (granule : Nat) (s : State) : Out :=
  .next (if s.dev.marks.contains granule then
    ((s.setDev { s.dev with marks := eraseNat granule s.dev.marks }).setCe (eraseNat granule s.ce)).setUe
      (eraseNat granule s.ue)
  else s)
/-- A home slice asks the recorded cores; the record of a core whose stores are complete is cleared (R126). -/
def execPromotionRequest (line : Nat) (s : State) : Out :=
  .next ((s.setProms fun l => l.filter fun p => p.pa != line || s.promLive p).askProms line)
/-- A wake reaches its quadrant: the lanes that wait issue again (R95). -/
def execFeWake (w : Nat) (s : State) : Out :=
  match s.wakes.find? fun x => x.id == w with
  | some k =>
    .next (k.lanes.foldl (fun s l =>
        let t := k.gslot * 32 + l
        if (s.th t).st = .feWait then s.updThread t fun x => { x with st := .run, re := .woken k.entry k.counts } else s)
      (s.setWakes (s.wakes.filter fun x => x.id != w)))
  | none => .next s
/-- A woken entry without a re-issue for 8192 cycles is free (R94). -/
def execFeWokenTimeout (w : Nat) (s : State) : Out :=
  match s.wait? w with
  | some e =>
    match e.st with
    | .woken since => .next (if since + 8192 ≤ s.cycle then s.setWaits (s.waits.filter fun x => x.id != w) else s)
    | .wait => .next s
  | none => .next s
/-- A waiter that could not park issues again (R98). -/
def execFeParkRetry (t : Nat) (s : State) : Out :=
  match (s.th t).st with
  | .feRest u => .next (if u ≤ s.cycle then s.setSt t .run else s)
  | _ => .next s
/-- The sweeper meets an uncorrectable error, or sweeps (R99, R399, log 61). -/
def sweepOrUe (s : State) (ctx : Nat) (only : Option Loc) : State :=
  match s.parkUes ctx with
  | [] => s.sweep ctx only
  | l => (s.queueAll l).kill ctx .dataue (.node 0 0) 0 0 (s.cx ctx).parkBase
/-- A sweep of a context's park area, once per period and die (R99). -/
def execParkSweep (die ctx : Nat) (s : State) : Out :=
  let c := s.cx ctx
  let period := 256 * (if c.period = 0 then 16 else c.period)
  .next (if s.hasCtx ctx ∧ die < 2 ∧ c.sweeps.getD die 0 + period ≤ s.cycle ∧
      (s.teams.any fun u => u.ctx == ctx && State.dieOf u.core == die) then
    (sweepOrUe s ctx none).updCtx ctx fun x => { x with sweeps := setAt x.sweeps die s.cycle }
  else s)
/-- A sweep limited to the records of one line (R99). -/
def execParkSweepImmediate (k : Nat) (s : State) : Out :=
  match s.sweeps.find? fun x => x.id == k with
  | some w => .next (sweepOrUe (s.setSweeps (s.sweeps.filter fun x => x.id != k)) w.ctx (some w.word))
  | none => .next s

end Sys2Proof.Machine
end

