-- ==== Sys2Proof/Machine/EngineIssue.lean ====
section
/-! DEFINITION. Issuing engine operations: parameter blocks and records with their checks, range locks, queues,
dependency slots; MMA and ENGST (R341 to R349, R352 to R356, R105, R106). -/

namespace Sys2Proof.Machine

/-! ## Fields of a block -/

/-- Four 32-bit values from a bit on. -/
def vec4 (v lo : Nat) : List Nat := (List.range 4).map fun d => bits v (lo + 32 * d + 31) (lo + 32 * d)
/-- The float types of codes 8 to 15 (R232). -/
def tyOfF : Nat → Ty
  | 9 => .f16 | 10 => .bf16 | 11 => .e4m3 | 12 => .e5m2 | 13 => .e3m2 | 14 => .e2m3 | 15 => .e2m1 | _ => .f32
/-- ESZ of the memory float types 8 to 12. -/
def eszOf (ty : Nat) : Option Nat :=
  if ty = 8 then some 2 else if ty = 9 ∨ ty = 10 then some 1 else if ty = 11 ∨ ty = 12 then some 0 else none

/-- A PCOPY parameter block (R353). -/
structure PeelBlk where
  func : Nat
  fem : Nat
  crc : Bool
  chk : Bool
  trn : Bool
  fmt : Nat
  kb : Nat
  fl : Nat
  rm : Rm
  seq : Nat
  src : Nat
  dst : Nat
  cw : Nat
  sorg : List Nat
  dorg : List Nat
  box : List Nat
  arg1 : Nat
  arg2 : Nat
  exp : Nat
  deriving DecidableEq, Repr

def rmOf : Nat → Rm | 0 => .rn | 1 => .rz | 2 => .ru | _ => .rd
def PeelBlk.ofNat (v : Nat) : PeelBlk :=
  { func := bits v 10 8, fem := bits v 12 11, crc := bitOf v 13, chk := bitOf v 14, trn := bitOf v 15,
    fmt := bits v 23 16, kb := bits v 27 24, fl := bits v 29 28, rm := rmOf (bits v 31 30), seq := bits v 63 32,
    src := bits v 127 64, dst := bits v 191 128, cw := bits v 255 192, sorg := vec4 v 256, dorg := vec4 v 384,
    box := vec4 v 512, arg1 := bits v 703 640, arg2 := bits v 767 704, exp := bits v 927 896 }
def PeelBlk.count (b : PeelBlk) : Nat := b.box.foldl (· * ·) 1

/-- A tensor record (R352). -/
structure Tens where
  space : Nat
  esz : Nat
  rank : Nat
  base : Nat
  ext : List Nat
  str : List Nat
  deriving DecidableEq, Repr

def Tens.n (t : Tens) : Nat := 2 ^ t.esz
/-- Σ x_d * STR_d with strides read as signed. -/
def Tens.dot (t : Tens) (x : List Nat) : Int :=
  (List.zipWith (fun (a b : Nat) => (a : Int) * sext 64 b) x t.str).foldl (· + ·) 0
/-- The address of element x in its space. -/
def Tens.addr (t : Tens) (x : List Nat) : Nat :=
  wrapN (if t.space = 0 then 64 else if t.space = 1 then 32 else 18) (t.base + t.dot x)
/-- Lowest and past-the-end byte of a box, without wrap. -/
def Tens.span (t : Tens) (org box : List Nat) : Int × Int :=
  let far := List.zipWith (fun (b s : Nat) => ((b - 1 : Nat) : Int) * sext 64 s) box t.str
  let at0 := (t.base : Int) + t.dot org
  (at0 + (far.map fun d => min d 0).foldl (· + ·) 0, at0 + (far.map fun d => max d 0).foldl (· + ·) 0 + t.n)
/-- Read a tensor record; none is a malformed one. `nacc` is the team's grant of tiles. -/
def Tens.ofBytes (nacc : Nat) (l : List Byte) : Option Tens :=
  let v := leNat l
  let t : Tens := { space := bits v 9 8, esz := bits v 11 10, rank := bits v 14 12, base := bits v 127 64,
                    ext := vec4 v 128, str := (List.range 4).map fun d => bits v (319 + 64 * d) (256 + 64 * d) }
  let tail := (List.range 4).all fun d => d < t.rank || (t.ext.getD d 0 == 1 && t.str.getD d 0 == 0)
  if bits v 7 0 ≠ 0x54 || t.space = 3 || t.rank = 0 || 4 < t.rank || bits v 63 15 ≠ 0 ||
      (t.space ≠ 0 && 2 ^ 32 ≤ t.base) || (t.ext.any (· == 0)) || (t.str.any fun x => x % t.n != 0) || !tail ||
      t.base % t.n ≠ 0 || (t.space = 2 && t.esz ≠ 2) ||
      (t.space = 2 && (let w := t.span [0, 0, 0, 0] t.ext; w.1 < 0 || nacc * 16384 < w.2)) then none
  else some t

/-- An operand's record. -/
inductive Opnd
  | none
  | tens (t : Tens)
  | plane (r : PlaneRec)
  deriving DecidableEq, Repr

def srcIsPlane (b : PeelBlk) : Bool := b.func == 2 || b.func == 3
def srcIsNone (b : PeelBlk) : Bool := b.func == 1 || b.func == 7
def dstIsPlane (b : PeelBlk) : Bool := b.func == 2 || (b.func == 4 && 0x40 ≤ b.fmt && b.fmt ≤ 0x42)
def dstIsNone (b : PeelBlk) : Bool := b.func == 6
def opndOf (plane empty : Bool) (nacc : Nat) (l : List Byte) : Option Opnd :=
  if empty then some .none
  else if plane then (PlaneRec.ofBytes l).map .plane
  else (Tens.ofBytes nacc l).map .tens

/-- The Sifter's target of QUANT (R358) and RSEND (R361). -/
def quantTgt (b : PeelBlk) (m : Nat) : Option QntTgt :=
  if b.func = 6 then some .mxint8
  else if b.fmt = 0x40 then some (.pl m) else if b.fmt = 0x41 then some .tern else if b.fmt = 0x42 then some .bin
  else if b.fmt = 0x44 then some .mxint8
  else if 0x4B ≤ b.fmt ∧ b.fmt ≤ 0x4F then some (.mx (tyOfF (b.fmt - 0x40)))
  else none
/-- Bits of one code of a target that goes to a tensor (R170, R172). -/
def codeBits : QntTgt → Nat | .mx ty => Num.mxWidth ty | _ => 8
/-- Destination box of a tensor: dimensions 0 and 1 swapped under TRN, packed bytes for a QUANT of codes (log 21). -/
def dstBox (b : PeelBlk) : List Nat :=
  if b.trn then [b.box.getD 1 1, b.box.getD 0 1] ++ b.box.drop 2
  else if b.func = 4 then
    match quantTgt b 1 with
    | some t => b.box.getD 0 1 * codeBits t / 8 :: b.box.drop 1
    | none => b.box
  else b.box
/-- Planes that the operation reads or copies. -/
def peelK (b : PeelBlk) (r : PlaneRec) : Nat := min b.kb r.m

/-! ## Where an operation issues -/

/-- The place of issue: a thread's core and quadrant with its team, or a core chosen for a graph node. -/
structure IssEnv where
  who : Who
  core : Nat
  quad : Nat
  ctx : Nat
  team : Option Nat
  deriving DecidableEq, Repr

/-- The end of an issue check: bytes read, or how the issue fails. `stay` issues again, `bad` is ENGCMD. -/
inductive Iss (α : Type)
  | ok (x : α)
  | stay
  | bad
  | trap (c : Cause) (a : Nat)
  | fault (ea typ : Nat)
  | ue (pa ea : Nat)
  deriving DecidableEq

/-- Go on where the check before succeeded. -/
def Iss.bind {α β : Type} (r : State × Iss α) (f : State → α → State × Iss β) : State × Iss β :=
  match r with
  | (s, .ok x) => f s x
  | (s, .stay) => (s, .stay)
  | (s, .bad) => (s, .bad)
  | (s, .trap c x) => (s, .trap c x)
  | (s, .fault x ty) => (s, .fault x ty)
  | (s, .ue p x) => (s, .ue p x)

namespace State

/-- The team name of engine traffic, which no team has: a team counts its threads' stores alone (R135). -/
def engTeam : Nat := 2 ^ 64
/-- The core whose write-combining buffer the command processor's own writes take: none of the 192. -/
def cpCore : Nat := 192
/-- Bytes of the host window or of another package that the command processor reads: those that have come, or a request
for them; none: not yet (R414, R484). -/
def cpAway (s : State) (w : Who) (ctx : Nat) (l : Loc) (va n : Nat) : State × Option (List Byte) :=
  match s.cp.rbuf.find? fun x => x.1 == w && x.2.1 == va with
  | some x => (s, some x.2.2)
  | none =>
    if s.reqs.any fun r => r.who == w then (s, none)
    else
      let asked := s.askBytes w cpCore engTeam ctx l va n .none
      match l, asked.reqs.getLast? with
      | .remote p _, some r => (if s.reqRoom p then asked.sendReq r else s, none)
      | _, _ => (asked, none)
/-- What it has read for a piece of work is dropped with the work. -/
def cpForget (s : State) (w : Who) : State := s.setCp { s.cp with rbuf := s.cp.rbuf.filter fun x => x.1 != w }
/-- The units in which an issuer's translations are held. -/
def issUnits (e : IssEnv) : List TlbUnit × Option Nat :=
  match e.who with | .thread _ => (dataUnits e.core e.quad, some e.core) | _ => ([], none)
/-- Bytes that an issuer reads, once their page is known. -/
def issBytes (s : State) (e : IssEnv) (l : Loc) (leaf : Leaf) (ea n : Nat) : State × Option (List Byte) :=
  match e.who, l with
  | .thread t, l => s.issueRead t l leaf ea n
  | w, .host pa => s.cpAway w e.ctx (.host pa) ea n
  | _, .mem pa => (s.l2Touch pa n leaf.cp leaf.pl .none false false leaf.feb false, some (s.rdBytes pa n))
  | _, _ => (s, none)
/-- Read a block, or a record that it names, in global memory of the local node as the issuer's own plain read (R129,
R342). The steps of R34 come before the alignment; a record that is misaligned or on another node gives no bytes, which
no record matches; on a node without a route it raises FABRIC (R34, R220, log 58). -/
def issRead (s : State) (e : IssEnv) (blk : Bool) (a al n : Nat) : State × Iss (List Byte) :=
  let never : Iss (List Byte) := if blk then .bad else .ok []
  if 2 ^ 54 ≤ a then (s, .trap .xlate a)
  else if !s.isLocal e.ctx a then
    (s, if blk && (s.routeOf (bits a 53 48)).isNone then .trap .fabric a else never)
  else
    let go := fun (s : State) (v : Nat) => s.translate (issUnits e).1 (issUnits e).2 e.ctx v .rd
    match go s (vaOf a) with
    | (s, .ok pa leaf) =>
      if a % al ≠ 0 then
        let v := vaOf (a + n - 1)
        if !blk || vaOf a / 4096 == v / 4096 then (s, never)
        else match go s v with
          | (s, .ok _ _) => (s, never)
          | (s, .xlate) => (s, .trap .xlate a)
          | (s, .prot) => (s, .trap .prot a)
          | (s, .fault ty) => (s, .fault (a / 2 ^ 48 * 2 ^ 48 + v) ty)
          | (s, .ue pa) => (s, .ue pa a)
      else if s.ueIn pa n then (s, .ue pa a)
      else match s.issBytes e (if Config.hostBase ≤ pa then .host pa else .mem pa) leaf a n with
        | (s, some b) => (s, .ok b)
        | (s, none) => (s, .stay)
    | (s, .xlate) => (s, .trap .xlate a)
    | (s, .prot) => (s, .trap .prot a)
    | (s, .fault ty) => (s, .fault a ty)
    | (s, .ue pa) => (s, .ue pa a)

/-! ## Range locks of an operation (R356) -/

/-- A team's own window holds the bytes: their offset in the core store. -/
def ownSpad (s : State) (team : Option Nat) (core a n : Nat) : Option Nat :=
  match team with
  | some u =>
    let v := s.tm u
    if a < 2 ^ 24 ∧ bits a 23 21 = rank core ∧ bits a 20 0 + n ≤ v.spSize then some (v.spBase + bits a 20 0) else none
  | none => none
/-- Lowest and past-the-end byte of some pieces. -/
def hull : List (Nat × Nat) → Option (Nat × Nat)
  | [] => none
  | p :: l => some (match hull l with
    | some (lo, hi) => (min p.1 lo, max (p.1 + p.2) hi)
    | none => (p.1, p.1 + p.2))
/-- The pieces of an operand that lie in the own rank, each of them in one rank: the interval of the core store that
they span, none where there is none. Malformed where one lies beyond the team's window or is no scratchpad address
(R349); pieces of a peer rank are checked at their core (R362), and are malformed where `own` (R346). -/
def spadPieces (s : State) (e : IssEnv) (own : Bool) (ps : List (Nat × Nat)) : Option (Option (Nat × Nat)) :=
  match e.team with
  | none => none
  | some u =>
    let v := s.tm u
    let mine := ps.filter fun p => bits p.1 23 21 == rank e.core
    if (ps.any fun p => 2 ^ 24 ≤ p.1) || (own && mine.length != ps.length) ||
        mine.any (fun p => v.spSize < bits p.1 20 0 + p.2) then none
    else some ((hull (mine.map fun p => (bits p.1 20 0, p.2))).map fun w => (v.spBase + w.1, v.spBase + w.2))
/-- One lock-table entry to take: write mode, scratchpad, intervals. -/
abbrev LockReq := Bool × Bool × List (Nat × Nat)
/-- The interval of an operand in its space: in global memory its span, in the scratchpad that of its own-rank pieces,
none in accumulator memory (R356). -/
def lockIv (s : State) (e : IssEnv) (own : Bool) (space : Nat) (lo hi : Int) (ps : List (Nat × Nat)) :
    Option (Option (Nat × Nat)) :=
  if space = 0 then
    some (if lo < 0 then none else some (s.normAddr e.ctx lo.toNat, s.normAddr e.ctx lo.toNat + (hi - lo).toNat))
  else if space = 1 then s.spadPieces e own ps
  else if e.team.isSome then some none else none
def lockEntry (wr : Bool) (space : Nat) (iv : Option (Nat × Nat)) : List LockReq :=
  match iv with | some i => [(wr, space == 1, [i])] | none => []
/-- Bytes in a row, cut where a rank ends. -/
def rowPieces (a n : Nat) : List (Nat × Nat) :=
  (List.range (n / 2 ^ 21 + 2)).filterMap fun i =>
    let lo := max a ((a / 2 ^ 21 + i) * 2 ^ 21)
    let hi := min (a + n) ((a / 2 ^ 21 + i + 1) * 2 ^ 21)
    if lo < hi then some (lo, hi - lo) else none
def lockRow (s : State) (e : IssEnv) (wr : Bool) (space a n : Nat) : Option (List LockReq) :=
  (s.lockIv e false space a (a + n : Nat) (rowPieces a n)).map (lockEntry wr space)
/-- Header interval and strided planes of tiles t0 to t1 (R356). -/
def lockPlanes (s : State) (e : IssEnv) (own wr : Bool) (r : PlaneRec) (t0 t1 k : Nat) : Option (List LockReq) :=
  let space := b2n r.spad
  let row := fun (a n : Nat) => s.lockIv e own space a (a + n : Nat) (rowPieces a n)
  let pl := (List.range (k + 1)).map fun p => row (r.pbase + p * r.stride + 128 * t0) (128 * (t1 + 1 - t0))
  match row (r.hdr + 64 * t0) (64 * (t1 + 1 - t0)) with
  | none => none
  | some h =>
    if pl.any (·.isNone) then none
    else
      let ivs := pl.filterMap fun x => x.join
      some (lockEntry wr space h ++ (if ivs = [] then [] else [(wr, r.spad, ivs)]))
/-- Element i of a box in index order, dimension 0 fastest. -/
def boxAt (box : List Nat) (i : Nat) : List Nat :=
  let b0 := box.getD 0 1
  let b1 := box.getD 1 1
  let b2 := box.getD 2 1
  [i % b0, i / b0 % b1, i / (b0 * b1) % b2, i / (b0 * b1 * b2)]
def addIdx (a b : List Nat) : List Nat := List.zipWith (· + ·) a b
def lockTens (s : State) (e : IssEnv) (wr : Bool) (t : Tens) (org box : List Nat) : Option (List LockReq) :=
  let w := t.span org box
  let ps := if t.space = 1 then (List.range (box.foldl (· * ·) 1)).map fun i => (t.addr (addIdx org (boxAt box i)), t.n)
    else []
  (s.lockIv e false t.space w.1 w.2 ps).map (lockEntry wr t.space)

/-! ## The checks of PCOPY (R106, R349, R354, R357 to R361) -/

def opndNode (s : State) (ctx : Nat) : Opnd → Bool
  | .tens t => t.space = 0 && !s.isLocal ctx t.base
  | .plane r => !r.spad && !s.isLocal ctx r.hdr
  | .none => false
/-- FEM 1 on a COPY (R106). A source in accumulator memory, which has no full/empty bits, is accepted (log 84). -/
def fem1Ok (b : PeelBlk) (s d : Tens) : Bool :=
  let lay := fun (t : Tens) => t.str.getD 0 0 == t.n && t.base % 4 == 0 && (t.str.drop 1).all (· % 4 == 0)
  b.fmt == 0 &&
  (2 ≤ s.esz || (!b.trn && lay s && lay d &&
    [b.sorg.getD 0 0, b.dorg.getD 0 0, b.box.getD 0 0].all fun x => x * s.n % 4 == 0))
def boxIn (org box ext : List Nat) : Bool :=
  (List.range 4).all fun d => org.getD d 0 + box.getD d 0 ≤ ext.getD d 0
/-- What holds of every function. -/
def peelCommon (s : State) (ctx : Nat) (v : Nat) (b : PeelBlk) (so do_ : Opnd) : Bool :=
  let dAcc := match do_ with | .tens t => t.space == 2 | _ => false
  let argRem := (b.func == 5 || b.func == 6 || b.func == 7) && !s.isLocal ctx b.arg1
  let qRem := match do_ with | .tens t => b.func == 4 && t.space == 0 && !s.isLocal ctx b.arg1 | _ => false
  let dRem := s.opndNode ctx do_ || qRem
  bits v 7 0 == 0x43 && bits v 1023 928 == 0 &&
  !(b.chk && !b.crc) && (!b.trn || b.func == 0 || b.func == 3) &&
  (b.fem != 1 || b.func == 0 || b.func == 2) &&
  (if b.fem == 3 then b.cw != 0 && b.cw % 4 == 0 else b.cw == 0) && !(b.fem != 0 && dAcc) &&
  (if b.func == 2 || b.func == 3 then 1 ≤ b.kb && b.kb ≤ 12 else b.kb == 0) &&
  (if b.func == 3 then b.fl ≤ 2 else b.fl == 0) &&
  (b.func == 0 || b.func == 3 || b.func == 4 || b.fmt == 0) &&
  (if b.func == 5 then b.box.all (· == 0) && b.sorg.all (· == 0) else b.box.all (1 ≤ ·)) &&
  b2n (s.opndNode ctx so) + b2n dRem + b2n argRem ≤ 1
/-- Patch arguments: NP, PH, PW (R360). -/
def patchArgs (b : PeelBlk) : Nat × Nat × Nat := (bits b.arg2 15 0, bits b.arg2 23 16, bits b.arg2 31 24)
/-- The checks of one function, with the locks it takes; none is malformed. -/
def peelFunc (s : State) (e : IssEnv) (b : PeelBlk) (so do_ : Opnd) : Option (List LockReq) :=
  let n := b.count
  match so, do_ with
  | .tens a, .tens d =>
    if b.func = 0 then
      let fOk := if b.fmt = 0 then a.esz == d.esz
        else eszOf (b.fmt / 16) == some a.esz && eszOf (b.fmt % 16) == some d.esz
      if fOk && (b.fem != 1 || fem1Ok b a d) && boxIn b.sorg b.box a.ext && boxIn b.dorg (dstBox b) d.ext then do
        let x ← s.lockTens e false a b.sorg b.box
        let y ← s.lockTens e true d b.dorg (dstBox b)
        some (x ++ y)
      else none
    else if b.func = 4 then
      match quantTgt b 1 with
      | some tg =>
        if a.esz = 2 && d.esz = 0 && n % 32 = 0 && b.box.getD 0 0 * codeBits tg % 8 = 0 &&
            boxIn b.sorg b.box a.ext && boxIn b.dorg (dstBox b) d.ext then do
          let x ← s.lockTens e false a b.sorg b.box
          let y ← s.lockTens e true d b.dorg (dstBox b)
          -- the table of R356 gives the scales no entry; they lie in the window all the same
          let _ ← s.lockRow e true d.space b.arg1 (n / 32)
          some (x ++ y)
        else none
      | none => none
    else if b.func = 5 then
      let (np, ph, pw) := patchArgs b
      let row := ph * pw * a.ext.getD 0 0
      let dbox := [row, np, 1, 1]
      if a.rank = 3 && d.rank = 2 && a.esz = d.esz && np ≠ 0 && ph ≠ 0 && pw ≠ 0 && b.arg2 < 2 ^ 32 &&
          boxIn b.dorg dbox d.ext then do
        let x ← s.lockTens e false a [0, 0, 0, 0] a.ext
        let y ← s.lockTens e true d b.dorg dbox
        let z ← s.lockRow e false 0 b.arg1 (4 * np)
        some (x ++ y ++ z)
      else none
    else none
  | .none, .tens d =>
    if b.func = 1 then
      if b.src = 0 && boxIn b.dorg b.box d.ext then s.lockTens e true d b.dorg b.box else none
    else
      let ns := bits b.arg2 15 0
      let pitch := bits b.arg2 63 32
      if b.src = 0 && d.esz = 2 && n % 32 = 0 && 1 ≤ ns && ns ≤ 64 && bits b.arg2 31 16 = 0 && pitch % 128 = 0 &&
          n + n / 32 ≤ pitch && boxIn b.dorg b.box d.ext then do
        let x ← s.lockTens e true d b.dorg b.box
        let y ← s.lockRow e true 0 b.arg1 ((ns - 1) * pitch + n + n / 32)
        some (x ++ y)
      else none
  | .tens a, .none =>
    if b.dst = 0 && a.esz = 2 && n % 32 = 0 && b.arg2 = 0 && boxIn b.sorg b.box a.ext then do
      let x ← s.lockTens e false a b.sorg b.box
      let y ← s.lockRow e true 0 b.arg1 (n + n / 32)
      some (x ++ y)
    else none
  | .plane r, .plane q =>
    let t0 := b.sorg.getD 0 0
    let u0 := b.dorg.getD 0 0
    let nt := b.box.getD 0 0
    if r.m = q.m && (b.box.drop 1).all (· == 1) && (t0 + nt) * 1024 ≤ r.count && (u0 + nt) * 1024 ≤ q.count then do
      let x ← s.lockPlanes e false false r t0 (t0 + nt - 1) (peelK b r)
      let y ← s.lockPlanes e false true q u0 (u0 + nt - 1) q.m
      some (x ++ y)
    else none
  | .plane r, .tens d =>
    let n0 := b.sorg.getD 0 0
    if eszOf b.fmt = some d.esz && n0 % 32 = 0 && n0 + n ≤ r.count && boxIn b.dorg (dstBox b) d.ext then do
      let x ← s.lockPlanes e false false r (n0 / 1024) ((n0 + n - 1) / 1024) (peelK b r)
      let y ← s.lockTens e true d b.dorg (dstBox b)
      some (x ++ y)
    else none
  | .tens a, .plane q =>
    let d0 := b.dorg.getD 0 0
    if a.esz = 2 && n % 32 = 0 && d0 % 32 = 0 && d0 + n ≤ q.count && boxIn b.sorg b.box a.ext then do
      let x ← s.lockTens e false a b.sorg b.box
      let y ← s.lockPlanes e false true q (d0 / 1024) ((d0 + n - 1) / 1024) q.m
      some (x ++ y)
    else none
  | _, _ => none

/-- What an accepted block leaves: its bytes, the two records and the locks to take. -/
structure Accepted where
  blk : List Byte
  srcRec : List Byte
  dstRec : List Byte
  locks : List LockReq
  deriving DecidableEq, Repr

def nacc (s : State) (team : Option Nat) : Nat := match team with | some u => (s.tm u).nacc | none => 0
/-- Read a PCOPY block and every record it names, then check them (R342, R349). -/
def peelAccept (s : State) (e : IssEnv) (a : Nat) : State × Iss Accepted :=
  Iss.bind (s.issRead e true a 128 128) fun s blk =>
    let v := leNat blk
    let b := PeelBlk.ofNat v
    Iss.bind (if srcIsNone b then (s, .ok []) else s.issRead e false b.src 64 64) fun s sr =>
    Iss.bind (if dstIsNone b then (s, .ok []) else s.issRead e false b.dst 64 64) fun s dr =>
    match opndOf (srcIsPlane b) (srcIsNone b) (s.nacc e.team) sr,
        opndOf (dstIsPlane b) (dstIsNone b) (s.nacc e.team) dr with
    | some so, some do_ =>
      if s.peelCommon e.ctx v b so do_ then
        match s.peelFunc e b so do_ with
        | some l => (s, .ok ⟨blk, sr, dr, l⟩)
        | none => (s, .bad)
      else (s, .bad)
    | _, _ => (s, .bad)

end State

/-! ## The MMA block (R346 to R349) -/

structure MmaBlk where
  af : Nat
  bf : Nat
  it : Bool
  zero : Bool
  rm : Rm
  fl : Nat
  kb : Nat
  acc : Nat
  k : Nat
  abase : Nat
  astr : Nat
  asc : Nat
  ascs : Nat
  brec : Nat
  bn0 : Nat
  kpitch : Nat
  csc : Nat
  deriving DecidableEq, Repr

def MmaBlk.ofNat (v : Nat) : MmaBlk :=
  { af := bits v 11 8, bf := bits v 13 12, it := bitOf v 14, zero := bitOf v 15, rm := rmOf (bits v 17 16),
    fl := bits v 19 18, kb := bits v 23 20, acc := bits v 27 24, k := bits v 47 32, abase := bits v 95 64,
    astr := bits v 127 96, asc := bits v 159 128, ascs := bits v 175 160, brec := bits v 223 192,
    bn0 := bits v 255 224, kpitch := bits v 271 256, csc := bits v 319 288 }
/-- Bytes of a packed row of A, and blocks of 32 along K. -/
def MmaBlk.rowLen (b : MmaBlk) : Nat := (b.k * Num.aBits b.af + 7) / 8
def MmaBlk.blocks (b : MmaBlk) : Nat := (b.k + 31) / 32
def MmaBlk.planes (b : MmaBlk) (r : PlaneRec) : Nat := if b.bf < 2 then min b.kb r.m else if b.bf = 2 then 1 else 0
/-- Fields of the block alone. -/
def MmaBlk.fieldsOk (b : MmaBlk) (v nacc : Nat) : Bool :=
  bits v 7 0 == 0x4D && b.fl != 3 && 1 ≤ b.k && b.k ≤ 16384 && b.acc < nacc && bits v 31 28 == 0 &&
  bits v 63 48 == 0 && bits v 191 176 == 0 && bits v 287 272 == 0 && bits v 511 320 == 0 &&
  (if b.bf < 2 then 1 ≤ b.kb && b.kb ≤ 12 else b.kb == 0) && b.astr % 16 == 0 && b.rowLen ≤ b.astr &&
  (if Num.aIsMx b.af then b.blocks ≤ b.ascs else b.asc == 0 && b.ascs == 0) && (b.bf == 1 || b.csc == 0) &&
  (!b.it || b.af < 2) && b.bn0 % 32 == 0 && b.kpitch % 32 == 0 && b.k ≤ b.kpitch

namespace State

/-- Bounds and locks of an MMA; none is malformed. -/
def mmaLocks (s : State) (e : IssEnv) (b : MmaBlk) (r : PlaneRec) : Option (List LockReq) :=
  let last := b.bn0 + 63 * b.kpitch + b.k - 1
  let own := fun (lo n : Nat) => (s.ownSpad e.team e.core lo n).map fun o => [(false, true, [(o, o + n)])]
  if !r.spad || r.count ≤ last || (b.bf = 2 && r.m ≠ 1) then none
  else do
    let x ← own b.abase (63 * b.astr + b.rowLen)
    let y ← if Num.aIsMx b.af then own b.asc (63 * b.ascs + b.blocks) else some []
    let z ← if b.bf = 1 then own b.csc 64 else some []
    let w ← s.lockPlanes e true false r (b.bn0 / 1024) (last / 1024) (b.planes r)
    some (x ++ y ++ z ++ w)
/-- An earlier store of the thread, or of the core, to these scratchpad bytes is still on its way (R120, R129). -/
def spadBusy (s : State) (t core off n : Nat) : Bool :=
  s.reqs.any fun r => (sameAgent (.thread t) r.who || r.core == core) && !r.done && writes r.op &&
    touches r (.spad core off) n
/-- Read and check an MMA block (R342, R349). -/
def mmaAccept (s : State) (e : IssEnv) (t a : Nat) : State × Iss Accepted :=
  let u := s.tm (e.team.getD 0)
  if bits a 23 21 ≠ rank e.core then (s, .bad)
  else if 2 ^ 24 ≤ a || u.spSize < bits a 20 0 + 64 then (s, .trap .scratch a)
  else if a % 64 ≠ 0 then (s, .bad)
  else
    let off := u.spBase + bits a 20 0
    if s.spadBusy t e.core off 64 then (s, .stay)
    else
      let blk := s.rdSpBytes e.core off 64
      let b := MmaBlk.ofNat (leNat blk)
      match s.ownSpad e.team e.core b.brec 64 with
      | none => (s, .bad)
      | some ro =>
        if s.spadBusy t e.core ro 64 then (s, .stay)
        else
          let rb := s.rdSpBytes e.core ro 64
          match PlaneRec.ofBytes rb with
          | none => (s, .bad)
          | some r =>
            if !b.fieldsOk (leNat blk) u.nacc || b.brec % 64 ≠ 0 then (s, .bad)
            else match s.mmaLocks e b r with
              | some l => (s, .ok ⟨blk, rb, [], l⟩)
              | none => (s, .bad)

/-! ## Queues, slots and the table -/

/-- Operations of a kind that wait in a core's queue. -/
def queued (s : State) (k : OpKind) (core : Nat) : Nat :=
  (s.ops.filter fun o => o.kind == k && o.st == .queued && (k == .slice && dieOf o.core == dieOf core || o.core == core)).length
def opQueueCap : OpKind → Nat | .mma => 16 | .peel => 32 | .slice => 64
/-- The operation must wait at issue (R342). -/
def issueFull (s : State) (k : OpKind) (e : IssEnv) (x : EngX) (nlocks : Nat) : Bool :=
  opQueueCap k ≤ s.queued k e.core || 64 < (s.co e.core).locks.length + nlocks ||
  (match x.set?, e.team with
    | some n, some u => 255 ≤ ((s.tm u).slots.getD n DSlot.zero).cnt
    | _, _ => false)
/-- Append an operation, take its locks and raise its slot. -/
def enqueueOp (s : State) (k : OpKind) (e : IssEnv) (x : EngX) (a : Nat) (c : Accepted) : State :=
  let u := s.tm (e.team.getD 0)
  let o : Op :=
    { id := s.nextId, kind := k, core := e.core, team := e.team, who := e.who, ctx := e.ctx,
      epoch := (s.cx e.ctx).epoch, sys := if e.team.isSome then u.sys else false,
      prio := if e.team.isSome then u.prio else 0, blkAddr := a, blk := c.blk, srcRec := c.srcRec, dstRec := c.dstRec,
      mask := x.mask, set? := x.set?, st := .queued, cursor := 0, sub := 0, lines := [], rbuf := [], srcb := [],
      landed := 0, cwDone := 0, fin := false, sat := false, nan := false, crcErr := false, view := [], q := [],
      spans := [], merge := ⟨false, false, false, 0xFF800000, 0, []⟩, snap := [] }
  let s := (s.setOps (s.ops ++ [o])).bump
  let s := s.updCore e.core fun q => { q with locks := q.locks ++ (c.locks.map fun l =>
    (⟨o.id, e.ctx, l.1, l.2.1, l.2.2⟩ : Lock)) }
  match x.set?, e.team with
  | some n, some u => s.updTeam u fun v => { v with slots := updAt v.slots n fun d => { d with cnt := d.cnt + 1 } }
  | _, _ => s
def laneEnv (s : State) (t : Nat) : IssEnv :=
  { who := .thread t, core := coreOf t, quad := quadOf t, ctx := s.ctxOfThread t, team := some (s.grOf t).team }
/-- The end of a lane's issue of an engine operation. -/
def issueOp (_s : State) (t : Nat) (k : OpKind) (x : EngX) (a : Nat) (r : State × Iss Accepted) : State :=
  match r with
  | (s', .ok c) =>
    let e := s'.laneEnv t
    if s'.issueFull k e x c.locks.length then s' else (s'.enqueueOp k e x a c).advance t
  | (s', .stay) => s'
  | (s', .bad) => s'.raise t .engcmd a
  | (s', .trap c v) => s'.raise t c v
  | (s', .fault ea ty) => s'.restFault t ea ty false false false
  | (s', .ue pa ea) => s'.dataUe t pa ea

def mmaBody (x : EngX) (b : Nat) (s : State) (t : Nat) : State :=
  if s.acqBlocked (.thread t) then s
  else s.issueOp t .mma x (s.rw t b) (s.mmaAccept (s.laneEnv t) t (s.rw t b))
/-! ## ENGST (R345) -/

def DSlot.word (d : DSlot) : Nat :=
  d.cnt % 256 + 256 * (d.scode % 256) + 65536 * b2n d.sat + 131072 * b2n d.nan + 262144 * b2n d.crc
def engstBody (d : Nat) (b : Src) (s : State) (t : Nat) : State :=
  let n := s.srcW t b
  if 7 < n then s.raise t .engcmd n
  else
    let u := (s.grOf t).team
    let x := (s.tm u).slots.getD n DSlot.zero
    ((s.longW t d (DSlot.word x)).updTeam u fun v =>
      { v with slots := updAt v.slots n fun y => { y with scode := 0, sat := false, nan := false, crc := false } }).advance t

end State

/-- MMA (R341, R342, R346). -/
def execMma (h : Hdr) (x : EngX) (b : Nat) (s : State) : Out :=
  .next (State.laneOp h (useR [b]) (State.mmaBody x b) s)
/-- ENGST (R345). -/
def execEngst (h : Hdr) (d : Nat) (b : Src) (s : State) : Out :=
  .next (State.laneOp h ⟨d :: b.w, b.opd⟩ (State.engstBody d b) s)

end Sys2Proof.Machine
end

