-- ==== Sys2Proof/Machine/GroupOps.lean ====
section
/-! DEFINITION. QNT, the group operations and the moves between register files (R277, R278, R284 to R291). Every
value a participant supplies is read from the state before the instruction issued. -/

namespace Sys2Proof.Machine

/-- A group operation: a lane instruction whose body sees the state before issue (R284). -/
def grpOp (h : Hdr) (u : Uses) (body : State → State → Nat → State) (s : State) : State :=
  State.laneOp h u (body s) s

/-- The register that QNT writes (R278). -/
def qntWord (tgt : QntTgt) (scale : Nat) (c : Bool × Nat) : Nat :=
  match tgt with
  | .pl m =>
    ((List.range 12).filter fun i => i < m && bitOf c.2 (m - 1 - i)).foldl (fun r i => r + 2 ^ i) 0 + 4096 * b2n c.1
      + 65536 * scale
  | .tern => c.2 % 2 + 4096 * b2n c.1 + 65536 * scale
  | .bin => 4096 * b2n c.1 + 65536 * scale
  | .mxint8 => wrapN 8 (if c.1 then -(c.2 : Int) else c.2) + 65536 * scale
  | .mx ty => (if c.1 then 2 ^ (Num.mxWidth ty - 1) else 0) + c.2 + 65536 * scale
/-- The block of a group: lanes that take part hold their A, the others +0 (R277). -/
def qntBlock (s : State) (ps : List Nat) (a gs : Nat) : List Num.FVal :=
  (List.range 32).map fun l =>
    if ps.contains (gs * 32 + l) then Num.unpack Num.f32 (s.rw (gs * 32 + l) a) else .fin false Num.Dy.zero
/-- QNT (R277, R278). -/
def execQnt (h : Hdr) (tgt : QntTgt) (d a : Nat) (s : State) : Out :=
  let u := useD d [a]
  let gs := s.curGroup
  let r := Num.sift tgt (qntBlock s (s.participants h u (gs * 32)) a gs)
  .next (grpOp h u (fun _ s t =>
    ((s.setW t d (qntWord tgt r.scale (r.codes.getD (State.laneOf t) (false, 0)))).orFlags t r.flags).advance t) s)

/-- Source lane of SHFL (R285). -/
def shflLane (mode : ShflMode) (seg lane d : Nat) : Nat :=
  let w := 2 ^ seg
  let base := lane - lane % w
  let q := lane % w
  match mode with
  | .rot => base + (q + d) % w
  | .xch => base + (q ^^^ d % w)
  | .bc => base + d % w
  | .rev => base + (w - 1 - q)
/-- B is not read by .rev (R285), so its pending write matters to no one; the group must hold it all the same (R194,
log 26). -/
def shflReads (mode : ShflMode) (a : Nat) (b : Src) : List Opd :=
  .w a :: (match mode with | .rev => [] | _ => b.opd)
/-- SHFL (R285). -/
def execShfl (h : Hdr) (mode : ShflMode) (seg d a : Nat) (b : Src) (s : State) : Out :=
  let u : Uses := ⟨d :: a :: b.w, shflReads mode a b⟩
  .next (grpOp h u (fun s0 s t =>
    let src := t / 32 * 32 + shflLane mode seg (State.laneOf t) (s0.srcW t b % 32)
    let from_ := if (s0.participants h u t).contains src then src else t
    (s.setW t d (s0.rw from_ a)).advance t) s)

/-- The value that VOTE combines: the lanes that take part and those whose pA is true (R286). -/
def voteWord (fn : VoteFn) (ps ts : List Nat) : Nat :=
  match fn with
  | .and => b2n (ps.all fun t => ts.contains t)
  | .or => b2n (ts ≠ [])
  | .par => ts.length % 2
  | .mask => ts.foldl (fun m t => m + 2 ^ State.laneOf t) 0
  | .cnt => ts.length + 256 * ps.length + 65536 * State.laneOf (ts.headD 0) + (if ts = [] then 2 ^ 21 else 0)
/-- VOTE (R286). -/
def execVote (h : Hdr) (fn : VoteFn) (d a : Nat) (s : State) : Out :=
  let toW := match fn with | .mask | .cnt => true | _ => false
  let u : Uses := ⟨if toW then [d] else [], [.p a]⟩
  .next (grpOp h u (fun s0 s t =>
    let ps := s0.participants h u t
    let v := voteWord fn ps (ps.filter fun x => s0.rp x a)
    (if toW then s.setW t d v else s.setP t d (v == 1)).advance t) s)

/-- Min and max over FP32 values by R270; no values give the identity of R289. -/
def combineF (mx : Bool) : List Nat → Nat
  | [] => if mx then 0xFF800000 else 0x7F800000
  | [x] => (Num.fminmax Num.f32 mx x x).1
  | x :: l => (Num.fminmax Num.f32 mx x (combineF mx l)).1
/-- The combination of R288; no values give the identity of R289. -/
def reduce (op : RedOp) (ty : Ty) (l : List Nat) : Nat :=
  match op, ty with
  | .add, .f32 => if l = [] then 0 else Num.sumF32 l
  | .min, .f32 => combineF false l
  | .max, .f32 => combineF true l
  | .add, _ => l.foldl (fun a b => (a + b) % 2 ^ 32) 0
  | .min, ty => extInt ty (l.foldl (fun a b => min a (rdInt ty b)) (tyMax ty))
  | .max, ty => extInt ty (l.foldl (fun a b => max a (rdInt ty b)) (tyMin ty))
/-- REDG (R288), long-latency. -/
def execRedg (h : Hdr) (_g : Bool) (op : RedOp) (ty : Ty) (d a : Nat) (s : State) : Out :=
  let u := useD d [a]
  .next (grpOp h u (fun s0 s t =>
    (s.longW t d (reduce op ty ((s0.participants h u t).map fun x => s0.rw x a))).advance t) s)
/-- SCAN (R289), long-latency. -/
def execScan (h : Hdr) (_g : Bool) (op : RedOp) (excl : Bool) (ty : Ty) (d a : Nat) (s : State) : Out :=
  let u := useD d [a]
  .next (grpOp h u (fun s0 s t =>
    let ps := (s0.participants h u t).filter fun x => x < t || (!excl && x == t)
    (s.longW t d (reduce op ty (ps.map fun x => s0.rw x a))).advance t) s)

/-- The participant that ELECT chooses (R287); participants are in ascending lane order. -/
def elected (fn : ElectFn) (cursor : Nat) (ps : List Nat) : Nat :=
  match fn with
  | .lo => ps.headD 0
  | .hi => ps.getLastD 0
  | .rr => ((ps.filter fun x => cursor < State.laneOf x).headD (ps.headD 0))
/-- ELECT (R287); .rr moves the group's cursor to the lane chosen. -/
def execElect (h : Hdr) (fn : ElectFn) (d : Nat) (s : State) : Out :=
  let u : Uses := ⟨[], []⟩
  .next (grpOp h u (fun s0 s t =>
    let c := elected fn (s0.gr (t / 32)).cursor (s0.participants h u t)
    let s := if fn = .rr ∧ t = c then s.updGroup (t / 32) fun g => { g with cursor := State.laneOf t } else s
    (s.setP t d (t == c)).advance t) s)

/-- The value of MOVS (R29, R30). -/
def movsVal (sc : Nat) (s : State) (t : Nat) : Nat :=
  match sc with
  | 0 => State.laneOf t
  | 1 => (s.grOf t).gid * 32 + State.laneOf t
  | 14 => s.clock % 2 ^ 32
  | 15 => ((s.th t).clockHi.getD (BitVec.ofNat 32 (s.clock / 2 ^ 32))).toNat
  | _ => s.specialReg (t / 32) sc % 2 ^ 32
/-- MOVS (R290); CLOCKLO latches the upper half for the thread (R30). -/
def execMovs (h : Hdr) (d sc : Nat) (s : State) : Out :=
  .next (State.laneOp h (useD d []) (fun s t =>
    let s' := s.setW t d (movsVal sc s t)
    (if sc = 14 then s'.updThread t fun x => { x with clockHi := some (BitVec.ofNat 32 (s.clock / 2 ^ 32)) }
     else s').advance t) s)
/-- MOVG (R290). -/
def execMovg (h : Hdr) (hi : Bool) (d a : Nat) (s : State) : Out :=
  .next (State.laneOp h ⟨[d], [.g a]⟩
    (State.fixW d fun s t => if hi then s.rgSeen t a / 2 ^ 32 else s.rgSeen t a % 2 ^ 32) s)
/-- gD after MOVU (R291). -/
def movuVal (form : MovuForm) (old v : Nat) : Nat :=
  match form with
  | .zx => v
  | .sx => wrapN 64 (sext 32 v)
  | .lo => old / 2 ^ 32 * 2 ^ 32 + v
  | .hi => old % 2 ^ 32 + 2 ^ 32 * v
/-- MOVU (R291). Where participants choose different lanes, the last write stands (log 73). -/
def execMovu (h : Hdr) (form : MovuForm) (d a : Nat) (b : Src) (s : State) : Out :=
  let u : Uses := ⟨a :: b.w, (match form with | .lo | .hi => [.g d] | _ => []) ++ (.w a :: b.opd)⟩
  .next (grpOp h u (fun s0 s t =>
    let src := t / 32 * 32 + s0.srcW t b % 32
    (if (s0.participants h u t).contains src then
      s.setG (t / 32) d (movuVal form (s0.rg (t / 32) d) (s0.rw src a))
     else s).advance t) s)

end Sys2Proof.Machine
end

