-- ==== Sys2Proof/Machine/EngineRun.lean ====
section
/-! DEFINITION. Engine operations at work: reads and writes of the Peel engine, its functions, completion words, and
the matrix array (R130, R131, R182 to R185, R343, R344, R347 to R351, R355, R357 to R362, R485). -/

namespace Sys2Proof.Machine

/-- Why an engine's access does not happen now: it waits for a reply or for room, rests on a fault, rests because 1024
are open, or stops the operation with a code of R344. -/
inductive EngStop
  | wait
  | rest (fid : Nat)
  | later
  | fail (code : Nat)
  deriving DecidableEq, Repr

/-- An engine access or computation: the state after it, and what it gave. -/
abbrev EngR (α : Type) := State × Except EngStop α

def EngR.bind {α β : Type} (r : EngR α) (f : State → α → EngR β) : EngR β :=
  match r with
  | (s, .ok x) => f s x
  | (s, .error e) => (s, .error e)

namespace State

/-- The core on which an operation was issued: the Slicers work for it from their die (R381); a graph node's SLICE was
issued on none. -/
def issuer (o : Op) : Nat :=
  match o.who with | .thread t => coreOf t | _ => if o.kind = .slice then cpCore else o.core

/-! ## Accesses of the Peel engine (R149, R156 to R158, R344, R362) -/

/-- Bad granules that a table walk, a partial write or a change of a bit meets are queued, and the context is killed
(R57, R399). -/
def engUe (s : State) (o : Op) (l : List Nat) (ea : Nat) : State :=
  (l.foldl (fun s pa => s.queueBad pa true) s).kill o.ctx .dataue (.op o.id) 0 0 ea
/-- An access of an operation rests on its page's fault, or for 256 cycles where 1024 are open (R156). -/
def engFault {α : Type} (s : State) (o : Op) (ea typ : Nat) (wr : Bool) : EngR α :=
  match s.openFault (.op o.id) o.ctx ea typ wr false (o.kind == .peel) with
  | (s, some f) => (s, .error (.rest f))
  | (s, none) => (s, .error .later)
/-- Translate one global address of an operation. `fe` asks for full/empty bits (R106). A Peel engine walks by its
core's walk cache (log 85). -/
def engLoc (s : State) (o : Op) (a : Nat) (wr fe : Bool) : EngR (Loc × Leaf) :=
  if 2 ^ 54 ≤ a then (s, .error (.fail 0x06))
  else if s.isLocal o.ctx a then
    match s.translate (if o.kind = .slice then [] else [.peel o.core]) (if o.kind = .slice then none else some o.core)
        o.ctx (vaOf a) ⟨wr, false⟩ with
    | (s, .ok pa l) =>
      let host := Config.hostBase ≤ pa
      if fe && (host || !l.feb) then (s, .error (.fail 0x0A))
      else (s, .ok (if host then .host pa else .mem pa, l))
    | (s, .xlate) => (s, .error (.fail 0x06))
    | (s, .prot) => (s, .error (.fail 0x07))
    | (s, .fault ty) => s.engFault o a ty wr
    | (s, .ue pa) => (s.engUe o [pa] a, .error .wait)
  else
    let n := bits a 53 48
    if (s.routeOf n).isNone || s.unreach n then (s, .error (.fail 0x13))
    else (s, .ok (.remote n (vaOf a), noLeaf))
/-- The core store that a scratchpad address of an operation reaches (R20, R21, R362). -/
def engSpad (s : State) (o : Op) (a n : Nat) : Option Loc :=
  match o.team with
  | none => none
  | some u =>
    if 2 ^ 24 ≤ a then none
    else match s.spadTeam (s.tm u) (bits a 23 21) with
      | some v => if v.spSize < bits a 20 0 + n then none else some (.spad v.core (v.spBase + bits a 20 0))
      | none => none
/-- A request of an operation to another package or the host. -/
def engReq (s : State) (o : Op) (a size : Nat) (op : MemOp) (loc : Loc) (leaf : Leaf) (parts : List Part) : State :=
  let s := s.addReq { who := .op o.id, core := o.core, ctx := o.ctx, team := engTeam, op := op, loc := loc,
                      leaf := leaf, size := size, ord := .plain, scope := .thr, hint := .none, ea := a, form := .none,
                      parts := parts }
  match loc, s.reqs.getLast? with
  | .remote _ _, some r => s.sendReq r
  | _, _ => s
/-- Bytes that come by a request: those that have come, or wait for them, asking if nobody has asked. `key` tells
the requests of one address apart. -/
def engAsk (s : State) (o : Op) (a key size : Nat) (op : MemOp) (loc : Loc) (leaf : Leaf) (parts : List Part) :
    EngR (List Byte) :=
  match o.rbuf.find? fun x => x.1 == a && x.2.1 == key with
  | some x => (s, .ok x.2.2)
  | none =>
    if s.reqs.any fun r => r.who == .op o.id && returns r.op then (s, .error .wait)
    else
      match loc with
      | .remote n _ => if s.reqRoom n then (s.engReq o a size op loc leaf parts, .error .wait) else (s, .error .wait)
      | _ => (s.engReq o a size op loc leaf parts, .error .wait)
/-- The operation's next access to a line is a request of its own; those of one item to it travel together (R47). -/
def freshLines (s : State) (o : Nat) : State := s.updOp o fun x => { x with lines := [] }
/-- The home slice's tags and the error checks of an access to n bytes, and to their bits where it needs them; a write
of a `whole` granule merges with nothing (R53, R54, R57). -/
def engHome (s : State) (o : Op) (pa n : Nat) (l : Leaf) (wr fe whole : Bool) : EngR Unit :=
  let bad := (if whole then [] else s.ueHits (.mem pa) n wr) ++ (if fe then s.bitUes (.mem pa) else [])
  if bad ≠ [] then
    if wr then (s.engUe o bad pa, .error .wait)
    else (bad.foldl (fun s p => s.queueBad p true) s, .error (.fail 0x20))
  else
    let seen := ((s.op? o.id).map (·.lines)).getD []
    ((s.l2Touch pa n l.cp l.pl .none wr fe l.feb (seen.contains (lineOf pa))).updOp o.id fun x =>
      { x with lines := if seen.contains (lineOf pa) then seen else lineOf pa :: seen }, .ok ())
/-- Read n bytes of global memory. What the issuing core's L1 holds of them goes, so that a later load of the thread
returns no older write (R112, R130, log 91). -/
def engGlobal (s : State) (o : Op) (a n : Nat) (fe : Bool) : EngR (List Byte) :=
  (s.engLoc o a false fe).bind fun s p =>
    match p.1 with
    | .mem pa => (s.engHome o pa n p.2 false fe false).bind fun s _ => (s.l1Inval (issuer o) pa n, .ok (s.rdBytes pa n))
    | l => s.engAsk o a n n .load l p.2 []
/-- Elements below 4 bytes come by their aligned word, which is read once (R111). -/
def engSub (s : State) (o : Op) (a n : Nat) (fe : Bool) : EngR (List Byte) :=
  let w := a / 4 * 4
  let part := fun (b : List Byte) => (b.drop (a % 4)).take n
  match ((s.op? o.id).getD o).rbuf.find? fun x => x.1 == w && x.2.1 == 4 with
  | some x => (s, .ok (part x.2.2))
  | none => (s.engGlobal o w 4 fe).bind fun s b =>
    (s.updOp o.id fun x => { x with rbuf := x.rbuf ++ [(w, 4, b)] }, .ok (part b))
/-- Read n bytes in a space: 0 global, 1 scratchpad, 2 accumulator memory. -/
def engRead (s : State) (o : Op) (space a n : Nat) (fe : Bool) : EngR (List Byte) :=
  if space = 2 then
    (s, .ok (Memory.getMany s.acc (tileKey (s.tm (o.team.getD 0)) a) n))
  else if space = 1 then
    match s.engSpad o a n with
    | some l => (s, .ok (s.rdLoc l n))
    | none => (s, .error (.fail 0x0F))
  else if n < 4 then s.engSub o a n fe
  else s.engGlobal o a n fe
/-- Read the full/empty bit of a source word (R105, FEM 1). A word of accumulator memory has none: a free value
(log 84). -/
def engBit (s : State) (o : Op) (space a : Nat) : EngR Bool :=
  if space = 2 then (s, .ok (Config.accBit o.id a))
  else if space = 1 then
    match s.engSpad o a 4 with
    | some l => (s, .ok (s.feAt l))
    | none => (s, .error (.fail 0x0F))
  else
    (s.engLoc o a false true).bind fun s p =>
      match p.1 with
      | .mem pa => (s, .ok (s.feAt (.mem pa)))
      | l => (s.engAsk o a 0 4 (.fe .feget false 0 .eq false) l p.2 []).bind fun s b => (s, .ok (leNat b % 2 == 1))
/-- Note source bytes for the CRC (R359). -/
def insByte (a : Nat) (b : Byte) : List (Nat × Byte) → List (Nat × Byte)
  | [] => [(a, b)]
  | (x, v) :: l => if a < x then (a, b) :: (x, v) :: l else if a = x then (a, b) :: l else (x, v) :: insByte a b l
def noteSrc (s : State) (o : Op) (crc : Bool) (a : Nat) (l : List Byte) : State :=
  if crc then s.updOp o.id fun x => { x with srcb := (l.zipIdx).foldl (fun r p => insByte (a + p.2) p.1 r) x.srcb } else s
/-- Global bytes are ordered by their VA within one node, and one place has one key whatever its NODE says (R16, R359). -/
def srcKey (s : State) (o : Op) (a : Nat) : Nat := if s.isLocal o.ctx a then s.ownEa (vaOf a) else a % 2 ^ 54
/-- Read source bytes. -/
def engSrc (s : State) (o : Op) (b : PeelBlk) (space a n : Nat) : EngR (List Byte) :=
  (s.engRead o space a n (b.fem == 1 && space == 0)).bind fun s l =>
    (s.noteSrc o b.crc (if space = 0 then s.srcKey o a else a) l, .ok l)
/-- Header and plane words of one block, as one plane read (R70). -/
def engPlane (s : State) (o : Op) (b : PeelBlk) (r : PlaneRec) (n k : Nat) : EngR (List Byte) :=
  let addrs := blockAddrs r n k
  let key := fun (a : Nat) => if r.spad then vaOf a else s.srcKey o a
  let note := fun (s : State) (l : List Byte) =>
    ((s.noteSrc o b.crc (key (r.hdrAt n)) (l.take 2)),
      (List.range (k + 1)).map fun p => (r.planeAt n p, (l.drop (2 + 4 * p)).take 4))
  let done := fun (s : State) (l : List Byte) =>
    let (s, ps) := note s l
    ((ps.foldl (fun s p => s.noteSrc o b.crc (key p.1) p.2) s, .ok l) : EngR (List Byte))
  let each : EngR (List Byte) := addrs.foldl (fun acc x => acc.bind fun s l =>
    (s.engRead o 0 x.1 x.2 false).bind fun s b => (s, .ok (l ++ b))) (s, .ok [])
  let locs : EngR (List (Loc × Leaf)) := addrs.foldl (fun acc x =>
    acc.bind fun s ls =>
      if r.spad then
        match s.engSpad o x.1 x.2 with
        | some l => (s, .ok (ls ++ [(l, noLeaf)]))
        | none => (s, .error (.fail 0x0F))
      else (s.engLoc o x.1 false false).bind fun s p => (s, .ok (ls ++ [p]))) (s, .ok [])
  if onNode r n k ≤ k then each.bind done
  else locs.bind fun s ls =>
    match ls with
    | [] => (s, .error .wait)
    | (h, lf) :: ps =>
      match h with
      | .remote _ _ => (s.engAsk o (r.hdrAt n) 2 2 (.planeRead (r.planeAt n 0) r.stride k) h lf []).bind done
      | .host _ => (s.engAsk o (r.hdrAt n) 2 2 (.planeRead (r.planeAt n 0) r.stride k) h lf
          (ps.map partOf)).bind done
      | _ =>
        let chk : EngR Unit := (ls.zip addrs).foldl (fun acc x => acc.bind fun s _ =>
          match x.1.1 with
          | .mem pa => s.engHome o pa x.2.2 x.1.2 false false false
          | _ => (s, .ok ())) (s, .ok ())
        chk.bind fun s _ =>
          done (s.l1Drop (issuer o) ((ls.zip addrs).map fun x => (x.1.1, x.2.2))) (s.planeBytes h (ps.map (·.1)))

/-- One word, or one block of a plane set, that an operation writes. -/
inductive EW
  | word (space a mask : Nat) (d : List Byte) (bit : Option Bool)
  | block (r : PlaneRec) (n : Nat) (sc : Byte) (ws : List Word) (full : Bool)
  deriving DecidableEq, Repr

/-- Send a write to another package: it is acknowledged before the operation completes (R354). Open entries of its
lines go first (R412). -/
def engSend (s : State) (o : Op) (a size : Nat) (op : MemOp) (sc : Scope) : EngR Unit :=
  let s := s.closeLines o.core (bits a 53 48) (accLines a op)
  let e : Wc := { id := s.nextId, core := o.core, ctx := o.ctx, team := engTeam, peer := bits a 53 48,
                  line := vaOf a / 128 * 128, mask := 0, data := [], body := some (.opw (vaOf a) op size sc),
                  va := vaOf a, who := [⟨.op o.id, a, false⟩], sent := false, since := s.cycle }
  ((((s.updWc fun l => l ++ [e]).bump).sendOne e), .ok ())
/-- An operation's open line entries go to the path choice. -/
def closeOp (s : State) (o : Nat) : State :=
  s.sendLines fun e => e.body.isNone && e.who.any fun w => w.who == .op o
/-- A node may be handed a further flit: at most 4096 toward it are unacknowledged (R419, R474). -/
def handRoom (s : State) (peer : Nat) : Bool := ((s.pair peer).out.filter fun e => !e.held).length < 4096
/-- A data word for another package: words of one line travel as one WRITE flit, which takes no room in the core's
buffer (R474, log 92). -/
def engLine (s : State) (o : Op) (a mask : Nat) (d : List Byte) : EngR Unit :=
  let peer := bits a 53 48
  let line := vaOf a / 128 * 128
  let off := vaOf a % 128
  let ks := (List.range 4).filter fun k => bitOf mask k
  let put := fun (e : Wc) => { e with
    mask := ks.foldl (fun m k => maskBits (off + k) 1 m) e.mask
    data := ks.foldl (fun l k => setAt l (off + k) (d.getD k 0)) e.data }
  let mine := fun (e : Wc) => !e.sent && e.body.isNone && e.peer == peer && e.line == line && e.who.any fun w => w.who == .op o.id
  match s.fab.wc.find? mine with
  | some e =>
    let e' := put e
    let s := s.updWc fun l => l.map fun x => if x.id = e.id then e' else x
    (if e'.mask = 2 ^ 128 - 1 then s.sendLines (·.id == e.id) else s, .ok ())
  | none =>
    let s := s.closeOp o.id
    if !s.handRoom peer then (s, .error .wait)
    else
    let e : Wc := { id := s.nextId, core := o.core, ctx := o.ctx, team := engTeam, peer := peer, line := line,
                    mask := 0, data := List.replicate 128 0, body := none, va := a, who := [⟨.op o.id, a, false⟩],
                    sent := false, since := s.cycle }
    ((s.updWc fun l => l ++ [put e]).bump, .ok ())
def maskCount (m : Nat) : Nat := ((List.range 4).filter fun i => bitOf m i).length
def landed (s : State) (o n : Nat) : State := s.updOp o fun x => { x with landed := x.landed + n }
/-- A word that an operation writes in memory, its bit with it. A write to the package invalidates the sector in the
issuing core's L1 (R131). -/
def engMem (s : State) (o : Op) (pa mask : Nat) (d : List Byte) (bit : Option Bool) (whole : Bool) : State :=
  let s := (s.putWord (.mem pa) mask d bit).l1Inval (issuer o) pa 4
  if whole then s.setUe (s.ue.filter fun g => g != pa / 32) else s
/-- Write one word in a space. -/
def engWord (s : State) (o : Op) (space a mask : Nat) (d : List Byte) (bit : Option Bool) (whole : Bool) : EngR Unit :=
  if space = 2 then
    let key := tileKey (s.tm (o.team.getD 0)) a
    let old := Memory.getMany s.acc key 4
    let new := (old.zipIdx).map fun p => if bitOf mask p.2 then d.getD p.2 p.1 else p.1
    ((s.setAcc (Memory.setMany s.acc key new)).landed o.id (maskCount mask), .ok ())
  else if space = 1 then
    match s.engSpad o a 4 with
    | some l => ((s.putWord l mask d bit).landed o.id (maskCount mask), .ok ())
    | none => (s, .error (.fail 0x0F))
  else
    (s.engLoc o a true bit.isSome).bind fun s p =>
      match p.1 with
      | .mem pa => (s.engHome o pa 4 p.2 true bit.isSome whole).bind fun s _ =>
        ((s.engMem o pa mask d bit whole).landed o.id (maskCount mask), .ok ())
      | .remote _ _ => if bit.isSome then s.engSend o a 4 (.engWord mask d bit) .thr else s.engLine o a mask d
      | l => (s.engReq o a 4 (.engWord mask d bit) l p.2 [], .ok ())
/-- A block's words on other nodes than its header are words of their own (log 31). -/
def splitBlock : EW → List EW
  | .block r n sc ws full =>
    let q := onNode r n (ws.length - 1)
    ((ws.zipIdx).drop q).map (fun x => .word 0 (r.planeAt n x.2) 15 (leBytes 4 x.1.toNat) (if full then some true else none)) ++
      [.block r n sc (ws.take q) full]
  | w => [w]
/-- Land one word or block. -/
def engWrite (s : State) (o : Op) (whole : Bool) : EW → EngR Unit
  | .word space a mask d bit => s.engWord o space a mask d bit whole
  | .block r n sc ws full =>
    let addrs := blockAddrs r n (ws.length - 1)
    let op := MemOp.planeWrite (r.planeAt n 0) r.stride sc ws full
    let locs : EngR (List (Loc × Leaf)) := addrs.foldl (fun acc x =>
      acc.bind fun s ls =>
        if r.spad then
          match s.engSpad o x.1 x.2 with
          | some l => (s, .ok (ls ++ [(l, noLeaf)]))
          | none => (s, .error (.fail 0x0F))
        else (s.engLoc o x.1 true full).bind fun s p => (s, .ok (ls ++ [p]))) (s, .ok [])
    locs.bind fun s ls =>
      match ls with
      | [] => (s, .error .wait)
      | (h, lf) :: ps =>
        match h with
        | .remote _ _ => s.engSend o (r.hdrAt n) 2 op .thr
        | .host _ => (s.engReq o (r.hdrAt n) 2 op h lf (ps.map partOf), .ok ())
        | _ =>
          let chk : EngR Unit := (ls.zip addrs).foldl (fun acc x => acc.bind fun s _ =>
            match x.1.1 with
            | .mem pa => s.engHome o pa x.2.2 x.1.2 true full false
            | _ => (s, .ok ())) (s, .ok ())
          chk.bind fun s _ =>
            let s := (s.perform op h (ps.map (·.1)) 2).1
            let s := s.l1Drop (issuer o) ((ls.zip addrs).map fun x => (x.1.1, x.2.2))
            (s.landed o.id (2 + 4 * ws.length), .ok ())

end State

/-! ## Values (R357 to R361) -/

def swapT (b : PeelBlk) (x : List Nat) : List Nat :=
  if b.trn then [x.getD 1 0, x.getD 0 0] ++ x.drop 2 else x
/-- Flags that a written code raises: NAN and SAT of R344. -/
def codeFlags (ty : Ty) (code : Nat) (fl : Num.Flags) : Bool × Bool :=
  (Num.isNan (Num.unpack (Num.fmtOf ty) code), fl &&& Num.fOvf ≠ 0)
def orFl (a b : Bool × Bool) : Bool × Bool := (a.1 || b.1, a.2 || b.2)
/-- Group bytes written in one space into words, each with its bit. -/
def addByte (space : Nat) (bit : Option Bool) (a : Nat) (x : Byte) : List State.EW → List State.EW
  | [] => [.word space (a / 4 * 4) (2 ^ (a % 4)) (setAt [0, 0, 0, 0] (a % 4) x) bit]
  | .word sp w m d f :: l =>
    if sp = space ∧ w = a / 4 * 4 then
      .word sp w (if bitOf m (a % 4) then m else m + 2 ^ (a % 4)) (setAt d (a % 4) x) f :: l
    else .word sp w m d f :: addByte space bit a x l
  | e :: l => e :: addByte space bit a x l
/-- The bit that FEM 2 and 3 leave with a word (R105). -/
def femBit (b : PeelBlk) : Option Bool := if b.fem = 2 ∨ b.fem = 3 then some true else none
/-- The value of a converted source element (R357). -/
def convert (b : PeelBlk) (n : Nat) (l : List Byte) : List Byte × (Bool × Bool) :=
  if b.fmt = 0 then (l, (false, false))
  else
    let ty := tyOfF (b.fmt % 16)
    let (c, fl) := Num.fcvt (Num.fmtOf ty) (Num.fmtOf (tyOfF (b.fmt / 16))) b.rm (leNat l)
    (leBytes n c, codeFlags ty c fl)
/-- An element of a block of planes, exact (R63); none is a NaN block's (R72). -/
def planeExact (bytes : List Byte) (k m : Nat) (mid : Bool) (e : Nat) : Option (Bool × Num.Dy) :=
  let sc := (bytes.getD 0 0).toNat
  if sc = 0xFF then none
  else
    let (s, bs) := State.planeBits bytes k e
    let u := Num.planeMag bs
    let u := if mid && k < m then u.add ⟨1, -(k : Int)⟩ else u
    some (s, (if s then u.neg else u).scale ((sc : Int) - 127))
def fillMid (fl : Nat) (r : PlaneRec) : Bool := if fl = 0 then r.fill else fl == 2
/-- EXPAND of one element (R358). -/
def expandVal (b : PeelBlk) (r : PlaneRec) (bytes : List Byte) (e n : Nat) : List Byte × (Bool × Bool) :=
  let ty := tyOfF b.fmt
  let v := match planeExact bytes (peelK b r) r.m (fillMid b.fl r) e with
    | none => Num.FVal.nan false
    | some (s, x) => Num.FVal.fin s x
  let (c, fl) := Num.cvtF (Num.fmtOf ty) b.rm v
  (leBytes n c, codeFlags ty c fl)
/-- Bit of plane p of a Sifter code (R186, R277). -/
def planeBitOf (t : QntTgt) (p c : Nat) : Bool :=
  match t with | .pl m => p ≤ m && bitOf c (m - p) | .tern => p == 1 && bitOf c 0 | _ => false
/-- The sign word and magnitude words that a quantised block writes (R69, R358). -/
def blockWords (t : QntTgt) (m : Nat) (cs : List (Bool × Nat)) : List Word :=
  let word := fun (f : Bool × Nat → Bool) =>
    BitVec.ofNat 32 ((cs.zipIdx).foldl (fun acc c => if f c.1 then acc + 2 ^ c.2 else acc) 0)
  word (·.1) :: (List.range m).map fun i => word fun c => planeBitOf t (i + 1) c.2
/-- Packed codes of a block (R170, R172). -/
def packCodes (t : QntTgt) (cs : List (Bool × Nat)) : List Byte :=
  let w := codeBits t
  leBytes (32 * w / 8) ((cs.zipIdx).foldl (fun acc c => acc + (qntWord t 0 c.1 % 2 ^ w) * 2 ^ (w * c.2)) 0)
def siftFlags (fl : Num.Flags) : Bool × Bool := (fl &&& Num.fInv ≠ 0, fl &&& Num.fOvf ≠ 0)

/-- What an item gives: the words to write, the flags NAN and SAT. -/
structure Item where
  ews : List State.EW
  fl : Bool × Bool
  deriving DecidableEq, Repr

namespace State

/-! ## Items: what an operation does in order (R357 to R361) -/

def opTens (s : State) (o : Op) (l : List Byte) : Tens :=
  (Tens.ofBytes (s.nacc o.team) l).getD ⟨0, 2, 1, 0, [1, 1, 1, 1], [0, 0, 0, 0]⟩
def opPlane (l : List Byte) : PlaneRec := (PlaneRec.ofBytes l).getD ⟨1, false, false, 1024, 0, 0, 2097152⟩
/-- The number of pieces that an operation works through: elements, blocks of 32, or 4-byte words of the copied
regions. -/
def itemCount (s : State) (o : Op) (b : PeelBlk) : Nat :=
  if b.func = 2 then (48 + 32 * peelK b (opPlane o.srcRec)) * b.box.getD 0 1
  else if b.func = 3 ∨ b.func = 4 ∨ b.func = 6 then (b.count + 31) / 32
  else if b.func = 5 then
    let (np, ph, pw) := patchArgs b
    np * ph * pw * (s.opTens o o.srcRec).ext.getD 0 1
  else b.count
/-- The destination address of element i. -/
def elemDst (s : State) (o : Op) (b : PeelBlk) (i : Nat) : Nat :=
  let d := s.opTens o o.dstRec
  if b.func = 5 then
    let (_, ph, pw) := patchArgs b
    let row := ph * pw * (s.opTens o o.srcRec).ext.getD 0 1
    d.addr (addIdx b.dorg [i % row, i / row, 0, 0])
  else d.addr (addIdx b.dorg (swapT b (boxAt b.box i)))
/-- The source address of element i of a COPY. -/
def elemSrc (s : State) (o : Op) (b : PeelBlk) (i : Nat) : Nat :=
  (s.opTens o o.srcRec).addr (addIdx b.sorg (boxAt b.box i))
/-- PLANECOPY: the region, source and destination of word i. -/
def regionWord (b : PeelBlk) (r q : PlaneRec) (i : Nat) : Nat × Nat × Nat :=
  let nt := b.box.getD 0 1
  let ts := b.sorg.getD 0 0
  let td := b.dorg.getD 0 0
  if i < 48 * nt then
    let t := i / 48
    let w := i % 48
    if w < 16 then (0, r.hdr + 64 * (ts + t) + 4 * w, q.hdr + 64 * (td + t) + 4 * w)
    else (0, r.pbase + 128 * (ts + t) + 4 * (w - 16), q.pbase + 128 * (td + t) + 4 * (w - 16))
  else
    let j := (i - 48 * nt) / (32 * nt) + 1
    let w := (i - 48 * nt) % (32 * nt)
    (j, r.pbase + j * r.stride + 128 * ts + 4 * w, q.pbase + j * q.stride + 128 * td + 4 * w)
def seqBytes (space a n : Nat) : List (Nat × Nat) := (List.range n).map fun k => (space, (a + k) % 2 ^ 64)
/-- The destination bytes of piece i, in order: space and address. -/
def pieceDst (s : State) (o : Op) (b : PeelBlk) (i : Nat) : List (Nat × Nat) :=
  let d := s.opTens o o.dstRec
  if b.func = 2 then
    let q := opPlane o.dstRec
    seqBytes (b2n q.spad) (regionWord b (opPlane o.srcRec) q i).2.2 4
  else if b.func = 3 then
    ((List.range 32).filter fun e => 32 * i + e < b.count).flatMap fun e => seqBytes d.space (s.elemDst o b (32 * i + e)) d.n
  else if b.func = 6 then seqBytes 0 (b.arg1 + 32 * i) 32 ++ seqBytes 0 (b.arg1 + b.count + i) 1
  else if b.func = 4 then
    let w := codeBits ((quantTgt b 1).getD .mxint8)
    ((List.range (4 * w)).map fun k =>
      (d.space, d.addr (addIdx b.dorg (boxAt (b.box.getD 0 1 * w / 8 :: b.box.drop 1) (4 * w * i + k))))) ++
      seqBytes d.space (b.arg1 + i) 1
  else seqBytes d.space (s.elemDst o b i) d.n
/-- One element's bytes with its flags (R357, R360, R361). -/
def elemVal (s : State) (o : Op) (b : PeelBlk) (i : Nat) : EngR (List Byte × (Bool × Bool)) :=
  let d := s.opTens o o.dstRec
  if b.func = 0 then
    let a := s.opTens o o.srcRec
    (s.engSrc o b a.space (s.elemSrc o b i) a.n).bind fun s l => (s, .ok (convert b d.n l))
  else if b.func = 1 then (s, .ok (leBytes d.n b.arg1, (false, false)))
  else if b.func = 5 then
    let a := s.opTens o o.srcRec
    let (_, _, pw) := patchArgs b
    let c := a.ext.getD 0 1
    let row := c * pw * (bits b.arg2 23 16)
    (s.engRead o 0 ((b.arg1 + 4 * (i / row)) % 2 ^ 64) 4 false).bind fun s e =>
      let v := leNat e
      let x := bits v 15 0 + i % row / c % pw
      let y := bits v 31 16 + i % row / c / pw
      if y < a.ext.getD 2 1 ∧ x < a.ext.getD 1 1 then
        (s.engSrc o b a.space (a.addr [i % c, x, y, 0]) a.n).bind fun s l => (s, .ok (l, (false, false)))
      else (s, .ok (List.replicate d.n 0, (false, false)))
  else
    -- RSUM
    let ns := bits b.arg2 15 0
    let pitch := bits b.arg2 63 32
    let n := b.count
    (s.engRead o d.space (s.elemDst o b i) 4 false).bind fun s x =>
      let slots : EngR (List (Nat × Nat)) := (List.range ns).foldl (fun acc k => acc.bind fun s l =>
        let at_ := (b.arg1 + k * pitch) % 2 ^ 64
        (s.engSrc o b 0 ((at_ + i) % 2 ^ 64) 1).bind fun s c =>
          (s.engSrc o b 0 ((at_ + n + i / 32) % 2 ^ 64) 1).bind fun s e =>
            (s, .ok (l ++ [(leNat e, leNat c)]))) (s, .ok [])
      slots.bind fun s l =>
        let xv := Num.unpack Num.f32 (leNat x)
        let (c, fl) :=
          if l.any (fun p => p.1 == 0xFF) || Num.isNan xv then (0x7FC00000, Num.fNone)
          else Num.sumRnd Num.f32 b.rm (some xv :: l.map fun p =>
            some (Num.scaleV ((p.1 : Int) - 127) (Num.mxElem .s8 p.2)))
        (s, .ok (leBytes 4 c, codeFlags .f32 c fl))
/-- EXPAND of block i (R358). -/
def expandVal32 (s : State) (o : Op) (b : PeelBlk) (i : Nat) : EngR (List Byte × (Bool × Bool)) :=
  let r := opPlane o.srcRec
  let d := s.opTens o o.dstRec
  (s.engPlane o b r (b.sorg.getD 0 0 + 32 * i) (peelK b r)).bind fun s bytes =>
    let vs := ((List.range 32).filter fun e => 32 * i + e < b.count).map fun e => expandVal b r bytes e d.n
    (s, .ok (vs.flatMap (·.1), vs.foldl (fun f v => orFl f v.2) (false, false)))
/-- The 32 source elements of block i of QUANT or RSEND. -/
def quantSrc (s : State) (o : Op) (b : PeelBlk) (i : Nat) : EngR (List Num.FVal) :=
  let a := s.opTens o o.srcRec
  (List.range 32).foldl (fun acc e => acc.bind fun s l =>
    (s.engSrc o b a.space (s.elemSrc o b (32 * i + e)) 4).bind fun s v =>
      (s, .ok (l ++ [Num.unpack Num.f32 (leNat v)]))) (s, .ok [])
/-- The codes and the scale byte of block i (R358, R361). -/
def quantVal (s : State) (o : Op) (b : PeelBlk) (i : Nat) : EngR (List Byte × (Bool × Bool)) :=
  (s.quantSrc o b i).bind fun s vs =>
    let t := (quantTgt b 1).getD .mxint8
    let z := Num.sift t vs
    (s, .ok (packCodes t z.codes ++ [BitVec.ofNat 8 z.scale], siftFlags z.flags))
/-- The values of a piece's destination bytes, with its flags. -/
def pieceVal (s : State) (o : Op) (b : PeelBlk) (i : Nat) : EngR (List Byte × (Bool × Bool)) :=
  if b.func = 2 then
    let r := opPlane o.srcRec
    (s.engSrc o b (b2n r.spad) (regionWord b r (opPlane o.dstRec) i).2.1 4).bind fun s l => (s, .ok (l, (false, false)))
  else if b.func = 3 then s.expandVal32 o b i
  else if b.func = 4 ∨ b.func = 6 then s.quantVal o b i
  else s.elemVal o b i
/-- QUANT of block i to a plane set: one whole-block write (R358). -/
def quantBlock (s : State) (o : Op) (b : PeelBlk) (i : Nat) : EngR Item :=
  (s.quantSrc o b i).bind fun s vs =>
    let q := opPlane o.dstRec
    let t := (quantTgt b q.m).getD .tern
    let z := Num.sift t vs
    (s, .ok ⟨[.block q (b.dorg.getD 0 0 + 32 * i) (BitVec.ofNat 8 z.scale) (blockWords t q.m z.codes)
      (b.fem == 2 || b.fem == 3)], siftFlags z.flags⟩)

/-! ## Destination units (R53, R105, R111, R397) -/

/-- The 128-byte unit of a destination byte. -/
def unitOf (x : Nat × Nat) : Nat × Nat := (x.1, x.2 / 128)
/-- The units that piece i is the first to write. They land whole, with the bytes that later pieces put into them, so
that each word lands with its bit in one step and a granule written whole merges with nothing. -/
def firstUnits (s : State) (o : Op) (b : PeelBlk) (i : Nat) : List (Nat × Nat) :=
  ((s.pieceDst o b i).map unitOf).eraseDups.filter fun u =>
    !((List.range i).any fun j => (s.pieceDst o b j).any fun x => unitOf x == u)
/-- The bit that lands with a word of piece i: under FEM 1 that of the source word (R105). -/
def wordBit (s : State) (o : Op) (b : PeelBlk) (i a : Nat) : EngR (Option Bool) :=
  if b.fem ≠ 1 then (s, .ok (femBit b))
  else
    let r := opPlane o.srcRec
    let src := if b.func = 2 then (b2n r.spad, (regionWord b r (opPlane o.dstRec) i).2.1)
      else ((s.opTens o o.srcRec).space, s.elemSrc o b i + (a - s.elemDst o b i))
    (s.engBit o src.1 (src.2 / 4 * 4)).bind fun s x => (s, .ok (some x))
/-- The words of the units `us`, from the pieces that write into them. -/
def unitWords (s : State) (o : Op) (b : PeelBlk) (us : List (Nat × Nat)) (js : List Nat) : EngR Item :=
  let land := fun (r : List EW × (Bool × Bool)) (j : Nat) (s : State) (v : List Byte × (Bool × Bool)) =>
    (((s.pieceDst o b j).zip v.1).filter fun x => us.contains (unitOf x.1)).foldl (fun (acc : EngR (List EW × (Bool × Bool))) x =>
      acc.bind fun s r =>
        let old := r.1.any fun w => match w with | .word sp a _ _ _ => sp == x.1.1 && a == x.1.2 / 4 * 4 | _ => false
        if old then (s, .ok (addByte x.1.1 none x.1.2 x.2 r.1, r.2))
        else (s.wordBit o b j (x.1.2 / 4 * 4)).bind fun s bit => (s, .ok (addByte x.1.1 bit x.1.2 x.2 r.1, r.2)))
      (s, .ok (r.1, orFl r.2 v.2))
  let all : EngR (List EW × (Bool × Bool)) := js.foldl (fun acc j => acc.bind fun s r =>
    (s.pieceVal o b j).bind fun s v => land r j s v) (s, .ok ([], (false, false)))
  all.bind fun s r => (s, .ok ⟨r.1, r.2⟩)
/-- What an operation does at piece i. -/
def peelItem (s : State) (o : Op) (b : PeelBlk) (n i : Nat) : EngR Item :=
  if b.func = 4 && dstIsPlane b then
    (s.quantBlock o b i).bind fun s x => (s, .ok { x with ews := x.ews.flatMap splitBlock })
  else
    let us := s.firstUnits o b i
    if us = [] then (s, .ok ⟨[], (false, false)⟩)
    else s.unitWords o b us (((List.range n).drop i).filter fun j => (s.pieceDst o b j).any fun x => us.contains (unitOf x))

/-! ## Walking ahead (R149) -/

/-- PATCH: its list entry, and the element that the entry names once its page is known (R360). -/
def patchVas (s : State) (o : Op) (b : PeelBlk) (a : Tens) (i : Nat) : List Nat :=
  let (_, _, pw) := patchArgs b
  let c := a.ext.getD 0 1
  let row := c * pw * bits b.arg2 23 16
  let at_ := (b.arg1 + 4 * (i / row)) % 2 ^ 64
  let el := fun (v : Nat) =>
    let x := bits v 15 0 + i % row / c % pw
    let y := bits v 31 16 + i % row / c / pw
    if a.space = 0 && y < a.ext.getD 2 1 && x < a.ext.getD 1 1 then [a.addr [i % c, x, y, 0]] else []
  at_ :: (if s.isLocal o.ctx at_ then
    (match s.peek [.peel o.core] (some o.core) o.ctx (vaOf at_) .rd with | some (pa, _) => el (s.rdN pa 4) | none => [])
    else [])
/-- The global addresses of a piece, sources before destinations: where it reads and where it writes. -/
def pieceVas (s : State) (o : Op) (b : PeelBlk) (i : Nat) : List (Nat × Bool) :=
  let a := s.opTens o o.srcRec
  let r := opPlane o.srcRec
  let src :=
    if b.func = 2 then (if r.spad then [] else [(regionWord b r (opPlane o.dstRec) i).2.1])
    else if b.func = 3 then
      (if r.spad then [] else (blockAddrs r (b.sorg.getD 0 0 + 32 * i) (peelK b r)).map (·.1))
    else if (b.func = 4 || b.func = 6) && a.space = 0 then (List.range 32).map fun e => s.elemSrc o b (32 * i + e)
    else if b.func = 0 && a.space = 0 then [s.elemSrc o b i]
    else if b.func = 5 then s.patchVas o b a i
    else []
  let dst :=
    if b.func = 4 && dstIsPlane b then
      let q := opPlane o.dstRec
      if q.spad then [] else (blockAddrs q (b.dorg.getD 0 0 + 32 * i) q.m).map (·.1)
    else ((s.pieceDst o b i).filter fun x => x.1 == 0).map (·.2)
  src.map (·, false) ++ dst.map (·, true)
/-- Quietly translate the first pages of a list that are not yet counted: no trap, no fault, no Starter. -/
def walkPages (s : State) (o : Op) : Nat → List Nat → List (Nat × Bool) → State
  | _, _, [] => s
  | k, seen, (a, wr) :: l =>
    let va := vaOf a
    if k = 0 then s
    else if seen.contains (va / 4096) || 2 ^ 54 ≤ a || !s.isLocal o.ctx a then walkPages s o k seen l
    else
      let u := [TlbUnit.peel o.core]
      let s' := if (s.tlbHit (.peel o.core) o.ctx va).isSome then s
        else match s.peek u (some o.core) o.ctx va ⟨wr, false⟩ with
          | some (_, lf) => (s.peekLook u (some o.core) o.ctx va).tlbFill (.peel o.core) o.ctx lf
          | none => s.peekLook u (some o.core) o.ctx va
      walkPages s' o (k - 1) (va / 4096 :: seen) l
/-- A Peel engine translates up to 32 pages ahead of its current access. -/
def walkAhead (s : State) (id : Nat) : State :=
  match s.op? id with
  | some o =>
    let b := PeelBlk.ofNat (leNat o.blk)
    s.walkPages o 32 [] (((List.range (s.itemCount o b)).drop o.cursor).flatMap (s.pieceVas o b))
  | none => s
/-- A PCOPY is issued, and its engine walks ahead. -/
def pcopyIssue (s : State) (e : IssEnv) (x : EngX) (a : Nat) (c : Accepted) : State :=
  (s.enqueueOp .peel e x a c).walkAhead s.nextId

/-! ## Progress -/

/-- The item replaces the granule of an address whole (R53). -/
def granWhole (l : List EW) (space a : Nat) : Bool :=
  (List.range 8).all fun k => l.any fun w => match w with
    | .word sp x m _ _ => sp == space && x == a / 32 * 32 + 4 * k && m == 15
    | .block _ _ _ _ _ => false
def wordWhole (l : List EW) : EW → Bool
  | .word sp a _ _ _ => granWhole l sp a
  | .block _ _ _ _ _ => false
/-- Land the words of an item from the one at which it stood. -/
def landWords (s : State) (o : Op) (all : List EW) : List EW → EngR Unit
  | [] => (s, .ok ())
  | w :: l => (s.engWrite o (wordWhole all w) w).bind fun s _ =>
    landWords (s.updOp o.id fun x => { x with sub := x.sub + 1 }) o all l
/-- Accesses of an operation that have no reply yet. -/
def outstanding (s : State) (o : Nat) : Bool :=
  (s.reqs.any fun r => r.who == .op o) || s.fab.wc.any fun e => e.who.any fun w => w.who == .op o
/-- How an access that did not happen leaves the operation. -/
def opStops (s : State) (o : Nat) (code : Nat) : EngStop → State
  | .wait => s
  | .rest f => s.updOp o fun x => { x with st := .resting f code }
  | .later => s.updOp o fun x => { x with st := .later (s.cycle + 256) code }
  | .fail c => s.updOp o fun x => { x with st := .failed c, fin := false }
/-- Where a resting operation goes on: a SLICE that has read nothing waits to start again. -/
def resume (x : Op) : Nat → OpSt
  | 0 => if x.kind = .slice && x.q == [] && x.sub == 0 then .queued else .running
  | c => .failed c
/-- An operation that rested for want of a free fault walks again after 256 cycles (R156). -/
def wakeOp (s : State) (o : Nat) : State :=
  s.updOp o fun x => match x.st with
    | .later u c => if u ≤ s.cycle then { x with st := resume x c } else x
    | _ => x
/-- Stores of the issuing core that no home has acknowledged, held waits apart: a release at device scope waits for
them (R124). -/
def coreStores (s : State) (core : Nat) : Bool :=
  s.reqs.any fun r => r.core == core && writes r.op && !s.heldReq r.id
/-- Write a completion word by the rules of STFS, as a release at device scope, or at domain scope on another package
(R124, R131, R136, R485). -/
def writeCw (s : State) (o : Op) (a v : Nat) : EngR Unit :=
  ((s.freshLines o.id).engLoc o a true true).bind fun s p =>
    if s.coreStores (issuer o) then (s, .error .wait)
    else match p.1 with
      | .mem pa => (s.engHome o pa 4 p.2 true true false).bind fun s _ =>
        (s.engMem o pa 15 (leBytes 4 v) (some true) false, .ok ())
      | _ =>
        let s := s.closeCore (issuer o)
        if (match o.team with | some u => (s.tm u).outst | none => 0) ≠ 0 then (s, .error .wait)
        else s.engSend o a 4 (.fe .stfs false (BitVec.ofNat 32 v) .eq false) .dom
/-- Completion words of the operation, and those due before item i (R357). -/
def cwCount (o : Op) (b : PeelBlk) : Nat :=
  if b.fem ≠ 3 then 0 else if b.func = 2 then peelK b (opPlane o.srcRec) + 1 else 1
def cwDue (b : PeelBlk) (i : Nat) : Nat :=
  let nt := b.box.getD 0 1
  if b.fem ≠ 3 ∨ b.func ≠ 2 then 0 else if i < 48 * nt then 0 else (i - 48 * nt) / (32 * nt) + 1
def cwAddr (b : PeelBlk) (j : Nat) : Nat := (b.cw + 4 * j) % 2 ^ 64
/-- What lands without being destination bytes is not counted (R353, R355). -/
def keepLanded {α : Type} (o : Op) (r : EngR α) : EngR α :=
  (r.1.updOp o.id fun x => { x with landed := o.landed }, r.2)
/-- STATUS, CRCV and DONEB (R353). A stopped operation leaves CRCV as it is (log 22). -/
def writeStatus (s : State) (o : Op) (crc : Option Nat) (code : Nat) : EngR Unit :=
  let word := fun (r : EngR Unit) (off v : Nat) => r.bind fun s _ =>
    keepLanded o (s.engWord o 0 ((o.blkAddr + off) % 2 ^ 64) 15 (leBytes 4 v) none false)
  let r := word (s, .ok ()) 96 (code + 256 * b2n o.sat + 512 * b2n o.nan + 1024 * b2n o.crcErr)
  let r := match crc with | some c => word r 100 c | none => r
  word (word r 104 (o.landed % 2 ^ 32)) 108 (o.landed / 2 ^ 32 % 2 ^ 32)

/-! ## The end of an operation (R343, R344, R356) -/

/-- Lower a slot: the last action of an operation. -/
def slotLower (s : State) (o : Op) (code : Nat) : State :=
  match o.team, o.set? with
  | some u, some n =>
    (s.updTeam u fun v => { v with slots := updAt v.slots n fun d =>
      { cnt := d.cnt - 1, scode := if code = 0 then d.scode else code, sat := d.sat || o.sat, nan := d.nan || o.nan,
        crc := d.crc || o.crcErr } }).settleDwait u
  | _, _ => s
/-- Remove an operation, release its locks, lower its slot, tell its node. -/
def opEnds (s : State) (o : Op) (code : Nat) : State :=
  let s := s.setOps (s.ops.filter fun x => x.id != o.id)
  let s := s.updCore o.core fun c => { c with locks := c.locks.filter fun k => k.op != o.id }
  let s := s.slotLower o code
  match o.who with
  | .node g n => s.nodeEnds g n code
  | _ => s

/-- Source elements are smaller than a word: words read for an item may hold elements of later ones (R111). -/
def subWord (s : State) (o : Op) (b : PeelBlk) : Bool := b.func == 7 || ((b.func == 0 || b.func == 5) && (s.opTens o o.srcRec).n < 4)
/-- One unit of work of a running Peel operation, and whether it went on (R355, R357, R485). -/
def peelUnit (s : State) (o : Op) : State × Bool :=
  let closed := s.closeOp o.id
  let b := PeelBlk.ofNat (leNat o.blk)
  let n := s.itemCount o b
  let stop := fun (r : EngR Unit) => match r with
    | (s, .ok ()) => (s, true)
    | (s, .error .wait) => (s, false)
    | (s, .error e) => (s.opStops o.id 0 e, false)
  let skip := fun (s : State) => s.updOp o.id fun x => { x with cwDone := x.cwDone + 1 }
  let cw := fun (s : State) =>
    match s.writeCw o (cwAddr b o.cwDone) b.seq with
    | (s, .error (.fail c)) => ((skip s).opStops o.id 0 (.fail c), false)
    | r => stop (r.bind fun s _ => (skip s, .ok ()))
  if o.cwDone < cwDue b o.cursor ∧ o.cursor < n then
    if closed.outstanding o.id then (closed, false) else cw s
  else if o.cursor < n then
    stop ((s.peelItem o b n o.cursor).bind fun s r =>
      (s.landWords o r.ews (r.ews.drop o.sub)).bind fun s _ =>
        ((s.updOp o.id fun x => { x with cursor := x.cursor + 1, sub := 0, lines := [],
                                         rbuf := x.rbuf.filter fun y => y.2.1 == 4 && s.subWord x b,
                                         nan := x.nan || r.fl.1, sat := x.sat || r.fl.2 }).walkAhead o.id, .ok ()))
  else if closed.outstanding o.id then (closed, false)
  else if !o.fin then
    let crc := if b.crc then some (Num.crc32c (o.srcb.map (·.2))) else none
    let o' := { o with crcErr := b.chk && crc != some b.exp }
    stop ((s.writeStatus o' crc 0).bind fun s _ =>
      (s.updOp o.id fun x => { x with fin := true, crcErr := o'.crcErr }, .ok ()))
  else if o.cwDone < cwCount o b then cw s
  else (s.opEnds o 0, false)
/-- Units of work of an operation, while it goes on. -/
def peelRun : Nat → State → Nat → State
  | 0, s, _ => s
  | k + 1, s, id =>
    match s.op? id with
    | some o =>
      if o.st = .running then
        match s.peelUnit o with
        | (s', true) => peelRun k s' id
        | (s', false) => s'
      else s
    | none => s
/-- A stopped operation: STATUS, then 0xFFFF_FFFF into the completion words not written, then its end (R355, R485). -/
def peelStopRun : Nat → State → Nat → Nat → State
  | 0, s, _, _ => s
  | k + 1, s, id, code =>
    match s.op? id with
    | none => s
    | some o =>
      let b := PeelBlk.ofNat (leNat o.blk)
      let s := s.closeOp id
      if s.outstanding id then s
      else if !o.fin then
        match s.writeStatus o none code with
        | (s', .error (.rest f)) => s'.opStops id code (.rest f)
        | (s', .error .later) => s'.opStops id code .later
        | (s', .error .wait) => s'
        | (s', _) => peelStopRun k (s'.updOp id fun x => { x with fin := true }) id code
      else if o.cwDone < cwCount o b then
        match s.writeCw o (cwAddr b o.cwDone) 0xFFFFFFFF with
        | (s', .error (.rest f)) => s'.opStops id code (.rest f)
        | (s', .error .later) => s'.opStops id code .later
        | (s', .error .wait) => s'
        | (s', _) => peelStopRun k (s'.updOp id fun x => { x with cwDone := x.cwDone + 1 }) id code
      else s.opEnds o code

end State

/-! ## The matrix array (R182 to R185, R347, R348) -/

/-- Codes of a packed row (R167, R170). -/
def rowCodes (af : Nat) (l : List Byte) (n : Nat) : List Nat :=
  let w := Num.aBits af
  let v := leNat l
  (List.range n).map fun i => v / 2 ^ (w * i) % 2 ^ w

namespace State

def mmaByte (s : State) (o : Op) (a : Nat) : Byte :=
  s.rdSp o.core ((s.tm (o.team.getD 0)).spBase + bits a 20 0)
def mmaBytes (s : State) (o : Op) (a n : Nat) : List Byte := (List.range n).map fun i => s.mmaByte o (a + i)
/-- Block q of row i of A, aligned: 32 values, zero beyond K; none is a NaN block. -/
def mmaA (s : State) (o : Op) (b : MmaBlk) (i q : Nat) : Option (List Num.Dy) :=
  let row := rowCodes b.af (s.mmaBytes o (b.abase + i * b.astr) b.rowLen) b.k
  let codes := ((row.drop (32 * q)).take 32) ++ List.replicate (32 - (b.k - 32 * q)) 0
  Num.alignA b.af codes (if Num.aIsMx b.af then (s.mmaByte o (b.asc + i * b.ascs + q)).toNat else 0)
/-- The plane read of one block of B: scale byte, generation, sign word and magnitude words. -/
def mmaB (s : State) (o : Op) (b : MmaBlk) (r : PlaneRec) (j q : Nat) : List Byte :=
  let n := b.bn0 + j * b.kpitch + 32 * q
  s.mmaBytes o (r.hdrAt n) 2 ++
    ((List.range (b.planes r + 1)).map fun p => s.mmaBytes o (r.planeAt n p) 4).flatten
/-- The value of an element of B (R173): none is a NaN element. In an INT32 tile scales and fill are ignored (R185). -/
def mmaBval (s : State) (o : Op) (b : MmaBlk) (r : PlaneRec) (j : Nat) (bytes : List Byte) (e : Nat) : Option Num.Dy :=
  let k := b.planes r
  let (sg, bs) := planeBits bytes k e
  let sc := if b.bf = 1 then (s.mmaByte o (b.csc + j)).toNat else (bytes.getD 0 0).toNat
  let mid := b.bf < 2 && fillMid b.fl r && k < r.m
  let m := if b.bf = 3 then ⟨1, 0⟩ else Num.planeMag bs
  if b.it then
    let v : Num.Dy := if b.bf = 3 then m else ⟨m.m, 0⟩
    some (if sg then v.neg else v)
  else if sc = 0xFF then none
  else
    let m := if mid then m.add ⟨1, -(k : Int)⟩ else m
    some ((if sg then m.neg else m).scale ((sc : Int) - 127))
/-- The aligned blocks of row i of A, and the values of column j of B, block by block, up to K. -/
def mmaRow (s : State) (o : Op) (b : MmaBlk) (i : Nat) : List (Option (List Num.Dy)) :=
  (List.range b.blocks).map (s.mmaA o b i)
def mmaCol (s : State) (o : Op) (b : MmaBlk) (r : PlaneRec) (j : Nat) : List (List (Option Num.Dy)) :=
  (List.range b.blocks).map fun q =>
    let bytes := s.mmaB o b r j q
    (List.range (min 32 (b.k - 32 * q))).map (s.mmaBval o b r j bytes)
/-- One product of a sum; none is a poisoned sum. -/
def mmaAdd (acc : Option Num.Dy) (p : Num.Dy × Option Num.Dy) : Option Num.Dy :=
  match acc, p.2 with | some x, some v => some (x.add (p.1.mul v)) | _, _ => none
/-- The exact sum of an element; none is a poisoned element (R183). -/
def mmaSum (row : List (Option (List Num.Dy))) (col : List (List (Option Num.Dy))) : Option Num.Dy :=
  (row.zip col).foldl (fun acc x => match x.1 with | some as => (as.zip x.2).foldl mmaAdd acc | none => none)
    (some Num.Dy.zero)
/-- The new element of a tile with its flags NAN and SAT (R183, R185). An exact zero of acc + s has the sign that R181
gives a lane's sum (log 44). -/
def mmaElem (b : MmaBlk) (old : Nat) (x : Option Num.Dy) : Nat × (Bool × Bool) :=
  let old := if b.zero then 0 else old
  if b.it then
    let v := sext 32 old + (x.getD Num.Dy.zero).align 0
    let w := sat v (-(2 : Int) ^ 31) (2 ^ 31 - 1)
    (wrapN 32 w, (false, w != v))
  else
    let c := match Num.unpack Num.f32 old, x with
      | .nan _, _ => 0x7FC00000
      | _, none => 0x7FC00000
      | .inf _, some _ => old
      | .fin _ d, some y => if y.m = 0 then old else (Num.rnd Num.f32 b.rm (d.add y) (b.rm == .rd)).1
    (c, (Num.isNan (Num.unpack Num.f32 c), false))
/-- All 4096 elements are written together (R348). -/
def mmaWrite (s : State) (o : Op) : State :=
  let b := MmaBlk.ofNat (leNat o.blk)
  let r := opPlane o.srcRec
  let tile := (s.tm (o.team.getD 0)).tiles.getD b.acc 0
  let cols := (List.range 64).map (s.mmaCol o b r)
  let res := ((List.range 64).map fun i =>
    let row := s.mmaRow o b i
    (cols.zipIdx).map fun c =>
      (64 * i + c.2, mmaElem b (s.rdAcc o.core tile (4 * (64 * i + c.2))) (mmaSum row c.1))).flatten
  let s' := res.foldl (fun s x => s.wrAcc o.core tile (4 * x.1) (leBytes 4 x.2.1)) s
  let fl := res.foldl (fun f x => orFl f x.2.2) (false, false)
  s'.updOp o.id fun q => { q with nan := fl.1, sat := fl.2 }

/-! ## Starting (R343, R351, R355) -/

/-- The operation's team is resident. -/
def teamHere (s : State) (o : Op) : Bool := match o.team with | some u => s.teams.any fun x => x.uid == u | none => true
/-- Its team is resident and not being stopped: a switch-out pauses its operations, a Peel operation once its current
destination unit has landed (R397). -/
def opHere (s : State) (o : Op) : Bool :=
  match o.team with
  | some u => s.teams.any fun x => x.uid == u && (!x.ending || (o.kind == .peel && o.sub != 0))
  | none => true
/-- What stands before an operation is performed: the accesses of its issuer, and every write that its core issued
before it, since a release at team scope carries those (R113, R120, R129; log 86); its wait slots are zero. -/
def mayStart (s : State) (o : Op) : Bool :=
  o.st == .queued && s.opHere o && (match o.team with | some u => s.slotsClear u o.mask | none => true) &&
  !(s.reqs.any fun r => r.id < o.id && !s.heldReq r.id &&
    (sameAgent o.who r.who || (r.core == issuer o && writes r.op && !r.done))) &&
  !(s.fab.wc.any fun e => e.id < o.id &&
    e.who.any fun w => sameAgent o.who w.who || (e.core == issuer o && (match w.who with | .op _ => false | _ => true)))
def engRunning : OpSt → Bool | .queued => false | _ => true
/-- Earliest issued of its class among those that may start, none of the class started (R351). -/
def mmaReady (s : State) (o : Op) : Bool :=
  s.mayStart o && !(s.ops.any fun p => p.kind == .mma && p.core == o.core && p.prio == o.prio &&
    (engRunning p.st || (p.id < o.id && s.mayStart p)))
/-- A started MMA completes while no higher class holds the array. -/
def mmaHolds (s : State) (o : Op) : Bool :=
  o.st == .running && !(s.ops.any fun p => p.kind == .mma && p.core == o.core && p.st == .running && o.prio < p.prio)
/-- Up to four Peel operations of a core at once, in issue order (R355). -/
def peelReady (s : State) (o : Op) : Bool :=
  s.mayStart o && (s.ops.filter fun p => p.kind == .peel && p.core == o.core && engRunning p.st).length < 4 &&
  !(s.ops.any fun p => p.kind == .peel && p.core == o.core && p.id < o.id && s.mayStart p)
def opRuns (s : State) (o : Nat) : State := s.updOp o fun x => { x with st := .running }

end State

namespace State

/-! ## PCOPY (R341, R342, R353) -/

def pcopyBody (x : EngX) (a : Nat) (b : Option Nat) (s : State) (t : Nat) : State :=
  let ea := s.eaGlobal false t a b 0 1
  if s.acqBlocked (.thread t) then s
  else
    let r := s.peelAccept (s.laneEnv t) ea
    match r with
    | (s', .ok c) =>
      if s'.issueFull .peel (s'.laneEnv t) x c.locks.length then s'
      else (s'.pcopyIssue (s'.laneEnv t) x ea c).advance t
    | r => s.issueOp t .peel x ea r

end State

/-! ## Meanings -/

/-- PCOPY (R341, R342, R353). -/
def execPcopy (h : Hdr) (x : EngX) (a : Nat) (b : Option Nat) (s : State) : Out :=
  .next (State.laneOp h ⟨optW b, .g a :: (optW b).map .w⟩ (State.pcopyBody x a b) s)
/-- A queued MMA takes the array (R343, R351). -/
def execMmaStart (o : Nat) (s : State) : Out :=
  match s.op? o with
  | some p => .next (if p.kind = .mma ∧ s.mmaReady p then s.opRuns o else s)
  | none => .next s
/-- An MMA rounds into its tile, releases its locks and lowers its slot (R348). -/
def execMmaComplete (o : Nat) (s : State) : Out :=
  match s.op? o with
  | some p =>
    .next (if p.kind = .mma ∧ s.teamHere p ∧ s.mmaHolds p then
      let s' := s.mmaWrite p
      s'.opEnds ((s'.op? o).getD p) 0
    else s)
  | none => .next s
/-- A queued Peel operation starts (R355). -/
def execPeelStart (o : Nat) (s : State) : Out :=
  match s.op? o with
  | some p => .next (if p.kind = .peel ∧ s.peelReady p then (s.opRuns o).walkAhead o else s)
  | none => .next s
/-- A Peel operation works through units of its transfer and at its end completes (R355). -/
def execPeelComplete (o units : Nat) (s : State) : Out :=
  match s.op? o with
  | some p => .next (if p.kind = .peel ∧ s.opHere p then (s.wakeOp o).peelRun units o else s)
  | none => .next s
/-- A Peel operation that met a failure stops (R355, R485). -/
def execPeelStop (o : Nat) (s : State) : Out :=
  match (s.wakeOp o).op? o with
  | some p =>
    match p.kind, p.st with
    | .peel, .failed code => .next (if s.opHere p then (s.wakeOp o).peelStopRun 32 o code else s)
    | _, _ => .next s
  | none => .next s

end Sys2Proof.Machine
end

