-- ==== Sys2Proof/Machine/Sequences.lean ====
section
/-! DEFINITION. The sequence table units: pools, sequence records and views, and the SQ instructions, each one
indivisible step at the pool's home (R363 to R380, R486). -/

namespace Sys2Proof.Machine

/-- Why a unit's instruction changes nothing: it must be issued again, a record is malformed (ENGCMD), or a failure
of translation. -/
inductive TxStop
  | stay
  | bad
  | trap (c : Cause) (a : Nat)
  | fault (ea typ : Nat)
  | ue (l : List Nat) (ea : Nat)
  | host (pa ea n : Nat)
  deriving DecidableEq, Repr

/-- A transaction: reads of the state with a list of writes to make at its end (R370), each with its page's leaf. -/
structure TxSt where
  s : State
  ws : List (Nat × Leaf × List Byte)
  seen : List Nat
abbrev Tx (α : Type) := EStateM TxStop TxSt α

/-- For whom a unit works: who issued, the context, and the core whose accesses these are. -/
structure TxEnv where
  who : Who
  ctx : Nat
  core : Nat
  deriving DecidableEq, Repr

namespace Tx

def ask {α : Type} (f : State → α) : Tx α := do return f (← get).s
def need (b : Bool) : Tx Unit := if b then pure () else throw .bad
/-- The physical place of n bytes that lie in one page of the local node (R370). -/
def loc (e : TxEnv) (a : Nat) (wr : Bool) : Tx (Nat × Leaf) := do
  if 2 ^ 54 ≤ a then throw (.trap .xlate a)
  let t ← get
  need (t.s.isLocal e.ctx a)
  let r := t.s.translate [] none e.ctx (State.vaOf a) ⟨wr, false⟩
  set { t with s := r.1 }
  match r.2 with
  | .ok pa l => return (pa, l)
  | .xlate => throw (.trap .xlate a)
  | .prot => throw (.trap .prot a)
  | .fault ty => throw (.fault a ty)
  | .ue pa => throw (.ue [pa] a)
/-- Bytes of the host window that have come for whoever issued (R484). -/
def fromHost (s : State) (w : Who) (ea : Nat) : Option (List Byte) :=
  match w with
  | .thread t => ((s.th t).hbuf.find? fun x => x.1 == ea).map (·.2)
  | .op o => (s.op? o).bind fun x => (x.rbuf.find? fun y => y.1 == ea).map (·.2.2)
  | w => (s.cp.rbuf.find? fun x => x.1 == w && x.2.1 == ea).map (·.2.2)
/-- Read n bytes at their home slice. Earlier writes of the core to them are performed first, and a narrow release of
another core that they carry is promoted first (R112, R126). -/
def rd (e : TxEnv) (a n : Nat) : Tx (List Byte) := do
  let (pa, l) ← loc e a false
  let s ← ask id
  if Config.hostBase ≤ pa then
    match fromHost s e.who a with
    | some b => return b
    | none => throw (.host pa a n)
  let bad := s.ueHits (.mem pa) n false
  if bad ≠ [] then throw (.ue bad a)
  if s.reqs.any fun r => r.core == e.core && !r.done && State.writes r.op && State.touches r (.mem pa) n then throw .stay
  if s.l2.proms.any fun p => p.core != e.core && p.bytes.any fun b => pa ≤ b && b < pa + n then throw .stay
  modify fun t => { t with
    s := (t.s.l2Touch pa n l.cp l.pl .none false false l.feb (t.seen.contains (State.lineOf pa))).l1Inval e.core pa n
    seen := State.lineOf pa :: t.seen }
  return s.rdBytes pa n
def rdN (e : TxEnv) (a n : Nat) : Tx Nat := do return leNat (← rd e a n)
/-- Note a write: its address is translated now, its bytes land at the end, after every earlier access of the core to
them. -/
def wr (e : TxEnv) (a : Nat) (d : List Byte) : Tx Unit := do
  let (pa, l) ← loc e a true
  let s ← ask id
  if pa < Config.hostBase then
    let bad := s.ueHits (.mem pa) d.length true
    if bad ≠ [] then throw (.ue bad a)
    if s.reqs.any fun r => r.core == e.core && !r.done && State.touches r (.mem pa) d.length then throw .stay
  modify fun t => { t with ws := t.ws ++ [(pa, l, d)] }

end Tx

/-! ## Records (R363, R366, R367) -/

structure Pool57 where
  addr : Nat
  home : Nat
  nl : Nat
  nh : Nat
  hd : Nat
  ngroup : Nat
  ftop : Nat
  free : Nat
  krec : PlaneRec
  vrec : PlaneRec
  kbytes : List Byte
  vbytes : List Byte
  raw : List Byte
  deriving DecidableEq, Repr

structure Seq where
  addr : Nat
  home : Nat
  shift : Bool
  dead : Bool
  depth : Nat
  child : Nat
  infl : Nat
  nslot : Nat
  plim : Nat
  nextpos : Nat
  ecap : Nat
  parent : Nat
  pool : Nat
  ent : Nat
  live : Nat
  deriving DecidableEq, Repr

def Seq.ofNat (a v : Nat) : Seq :=
  { addr := a, home := bits v 8 8, shift := bitOf v 9, dead := bitOf v 10, depth := bits v 18 16, child := bits v 31 24,
    infl := bits v 63 32, nslot := bits v 95 64, plim := bits v 127 96, nextpos := bits v 159 128,
    ecap := bits v 191 160, parent := bits v 255 192, pool := bits v 319 256, ent := bits v 383 320,
    live := bits v 415 384 }
def Seq.toBytes (r : Seq) : List Byte :=
  packRec 64 [(8, 0x56), (1, r.home), (1, b2n r.shift), (1, b2n r.dead), (5, 0), (3, r.depth), (5, 0), (8, r.child),
    (32, r.infl), (32, r.nslot), (32, r.plim), (32, r.nextpos), (32, r.ecap), (64, r.parent), (64, r.pool),
    (64, r.ent), (32, r.live), (96, 0)]

/-- An entry (R367). -/
structure Ent where
  st : Nat
  own : Bool
  sh : Bool
  tag : Nat
  len : Nat
  group : Nat
  pos0 : Nat
  deriving DecidableEq, Repr

def Ent.ofNat (v : Nat) : Ent :=
  { st := bits v 1 0, own := bitOf v 2, sh := bitOf v 3, tag := bits v 6 4, len := bits v 14 8, group := bits v 63 32,
    pos0 := bits v 95 64 }
def Ent.toBytes (e : Ent) : List Byte :=
  packRec 16 [(2, e.st), (1, b2n e.own), (1, b2n e.sh), (3, e.tag), (1, 0), (7, e.len), (17, 0), (32, e.group),
    (32, e.pos0), (32, 0)]
def Ent.absent : Ent := ⟨0, false, false, 0, 0, 0, 0⟩

namespace Tx

/-- Read and check a plane record of a pool (R364, R369). -/
def planeRec (e : TxEnv) (a need_ : Nat) : Tx (PlaneRec × List Byte) := do
  need (a % 64 == 0)
  let b ← rd e a 64
  match PlaneRec.ofBytes b with
  | none => throw .bad
  | some r =>
    let s ← ask id
    need (!r.spad && need_ ≤ r.count && s.isLocal e.ctx r.hdr)
    return (r, b)
/-- Read and check a pool (R363, R369). -/
def pool (e : TxEnv) (a : Nat) : Tx Pool57 := do
  need (a % 64 == 0)
  let raw ← rd e a 64
  let v := leNat raw
  let nl := bits v 23 16
  let nh := bits v 31 24
  let ng := bits v 95 64
  let hd := 16 * 2 ^ bits v 34 32
  need (bits v 7 0 == 0x57 && bits v 15 9 == 0 && bits v 63 35 == 0 && bits v 511 320 == 0 && bits v 34 32 ≤ 4 &&
    1 ≤ nl && nl ≤ 128 && 1 ≤ nh && nh ≤ 64 && 1 ≤ ng && bits v 127 96 ≤ ng && bits v 319 256 % 4 == 0)
  let k ← planeRec e (bits v 191 128) (ng * nl * nh * 64 * hd)
  let w ← planeRec e (bits v 255 192) (ng * nl * nh * 64 * hd)
  return { addr := a, home := bits v 8 8, nl := nl, nh := nh, hd := hd, ngroup := ng, ftop := bits v 127 96,
           free := bits v 319 256, krec := k.1, vrec := w.1, kbytes := k.2, vbytes := w.2, raw := raw }
/-- Read and check a sequence record; a child's fields that SQFORK writes are not judged (R369, R377). -/
def seqRec (e : TxEnv) (a : Nat) (child : Bool) : Tx (Seq × Pool57) := do
  need (a % 64 == 0)
  let v ← rdN e a 64
  let r := Seq.ofNat a v
  need (bits v 7 0 == 0x56 && bits v 15 11 == 0 && bits v 23 19 == 0 && bits v 511 416 == 0 && 1 ≤ r.ecap &&
    r.ecap ≤ 2 ^ 20 && r.ent % 16 == 0 && (child || (1 ≤ r.depth && r.depth ≤ 4 && r.nslot ≤ r.ecap)))
  let p ← pool e r.pool
  need (r.home == p.home)
  return (r, p)
/-- The records of a chain, the record itself first, at most four (R368, R369). -/
def parents (e : TxEnv) (pool_ : Nat) : Nat → Nat → Tx (List Seq)
  | 0, _ => return []
  | k + 1, a => do
    if a = 0 then return []
    let (r, _) ← seqRec e a false
    need (r.pool == pool_)
    return r :: (← parents e pool_ k r.parent)
def chain (e : TxEnv) (a : Nat) : Tx (List Seq × Seq × Pool57) := do
  let (r, p) ← seqRec e a false
  let ps ← parents e r.pool 3 r.parent
  return (r :: ps, r, p)
def ent (e : TxEnv) (r : Seq) (j : Nat) : Tx Ent := do
  return Ent.ofNat (← rdN e ((r.ent + 16 * j) % 2 ^ 64) 16)
def putEnt (e : TxEnv) (r : Seq) (j : Nat) (x : Ent) : Tx Unit := wr e ((r.ent + 16 * j) % 2 ^ 64) (Ent.toBytes x)
/-- Resolution of a slot (R368): the entry, the record that holds it, the level. -/
def resolve (e : TxEnv) (j : Nat) : Nat → List Seq → Tx (Option (Ent × Seq) × Nat)
  | _, [] => return (none, 3)
  | lvl, r :: l => do
    let x ← ent e r j
    if x.st ≠ 0 then return (some (x, r), lvl)
    if r.plim ≤ j ∨ r.parent = 0 then return (none, lvl)
    if l = [] then return (none, 3)
    resolve e j (lvl + 1) l
/-- The live slots of a view in slot order. -/
def viewFrom (e : TxEnv) (c : List Seq) : Nat → Nat → Tx (List (Nat × Ent × Seq))
  | 0, _ => return []
  | k + 1, j => do
    let (x, _) ← resolve e j 0 c
    let rest ← viewFrom e c k (j + 1)
    match x with
    | some (y, r) => return if y.st = 1 then (j, y, r) :: rest else rest
    | none => return rest
def putSeq (e : TxEnv) (r : Seq) : Tx Unit := wr e r.addr (Seq.toBytes r)
/-- FTOP is the only field of a pool that the unit writes (R365). -/
def putTop (e : TxEnv) (p : Pool57) (ftop : Nat) : Tx Unit := wr e (p.addr + 12) (leBytes 4 ftop)
/-- Pop a group (R365): none when the stack is empty. -/
def pop (e : TxEnv) (p : Pool57) : Tx (Option Nat) := do
  if p.ftop = 0 then return none
  let g ← rdN e ((p.free + 4 * (p.ftop - 1)) % 2 ^ 64) 4
  need (g < p.ngroup)
  putTop e p (p.ftop - 1)
  return some g
/-- Push groups in order (R365). -/
def push (e : TxEnv) (p : Pool57) : Nat → List Nat → Tx Unit
  | top, [] => if top = p.ftop then pure () else putTop e p top
  | top, g :: l => do
    wr e ((p.free + 4 * top) % 2 ^ 64) (leBytes 4 g)
    push e p (top + 1) l
/-- Copy one block's header and plane bytes (R376). -/
def copyBlock (e : TxEnv) (r : PlaneRec) (src dst : Nat) : Tx Unit := do
  for x in (State.blockAddrs r src r.m).zip (State.blockAddrs r dst r.m) do
    wr e x.2.1 (← rd e x.1.1 x.1.2)
/-- Copy on append (R376): none is NOPAGE. -/
def copyOnAppend (e : TxEnv) (p : Pool57) (x : Ent) : Tx (Option Nat) := do
  match ← pop e p with
  | none => return none
  | some g =>
    for lh in List.range (p.nl * p.nh) do
      let a := (x.group * p.nl * p.nh + lh) * 64 * p.hd
      let b := (g * p.nl * p.nh + lh) * 64 * p.hd
      for r in [p.krec, p.vrec] do
        for q in List.range ((x.len * p.hd + 31) / 32) do
          copyBlock e r (a + 32 * q) (b + 32 * q)
    return some g

/-! ## The command block (R373, R374, R486) -/

structure Cmd where
  tag : Nat
  drop : Bool
  mask : Nat
  n : Nat
  seq : Nat
  arg : Nat
  deriving DecidableEq, Repr

def cmd (e : TxEnv) (a opc : Nat) : Tx Cmd := do
  if 2 ^ 54 ≤ a then throw (.trap .xlate a)
  need (a % 64 == 0)
  let v ← rdN e a 64
  let c : Cmd := { tag := bits v 18 16, drop := bitOf v 19, mask := bits v 31 24, n := bits v 63 32,
                   seq := bits v 127 64, arg := bits v 191 128 }
  need (bits v 7 0 == 0x51 && bits v 9 8 == opc && bits v 15 10 == 0 && bits v 23 20 == 0 && bits v 511 384 == 0 &&
    (opc == 0 || c.tag == 0) && (opc == 1 || (!c.drop && c.mask == 0)) && (opc != 1 || c.n == 0) &&
    (opc == 2 || c.arg == 0) && (!c.drop || c.mask == 0xFF))
  return c
/-- OUTA, OUTB and OUTC. -/
def out (e : TxEnv) (a : Nat) (l : List Nat) : Tx Unit := wr e (a + 24) ((l.map (leBytes 8)).flatten)

/-- SQAPP (R375). -/
def sqapp (e : TxEnv) (a : Nat) : Tx Nat := do
  let c ← cmd e a 0
  let (ch, r, p) ← chain e c.seq
  if r.dead then return 7
  if r.child ≠ 0 then return 3
  if c.n = 0 ∨ 64 < c.n then return 5
  let tail ← if r.nslot = 0 then pure none else do
    let (x, _) ← resolve e (r.nslot - 1) 0 ch
    pure x
  let fin := fun (j o g grp : Nat) (r : Seq) => (do
    out e a [r.nextpos + j * 2 ^ 32, grp + o * 2 ^ 32 + g * 2 ^ 40, grp * p.nl * p.nh * 64 * p.hd + o * p.hd]
    putSeq e { r with nextpos := (r.nextpos + g) % 2 ^ 32, live := (r.live + g) % 2 ^ 32 }
    return 0 : Tx Nat)
  let room : Option (Ent × Seq) := match tail with
    | some (x, w) => if x.st = 1 ∧ x.tag = c.tag ∧ x.len < 64 then some (x, w) else none
    | none => none
  match room with
  | some (x, w) =>
    let g := min c.n (64 - x.len)
    if x.sh || w.addr != r.addr then
      match ← copyOnAppend e p x with
      | none => return 1
      | some g' =>
        putEnt e r (r.nslot - 1) { x with st := 1, own := true, sh := false, group := g', len := x.len + g }
        fin (r.nslot - 1) x.len g g' r
    else
      putEnt e r (r.nslot - 1) { x with len := x.len + g }
      fin (r.nslot - 1) x.len g x.group r
  | none =>
    if r.nslot = r.ecap then return 4
    match ← pop e p with
    | none => return 1
    | some grp =>
      let g := min c.n 64
      putEnt e r r.nslot ⟨1, true, false, c.tag, g, grp, r.nextpos⟩
      fin r.nslot 0 g grp { r with nslot := r.nslot + 1 }

/-- The parent of a dropped record has one child less (R378). -/
def unchild (e : TxEnv) (r : Seq) : Tx Unit := do
  if r.parent = 0 then return ()
  let v ← rdN e r.parent 64
  wr e (r.parent + 3) (leBytes 1 (bits v 31 24 - 1))
/-- SQRET (R378, R379). -/
def sqret (e : TxEnv) (a : Nat) : Tx Nat := do
  let c ← cmd e a 1
  let (ch, r, p) ← chain e c.seq
  if r.dead then return 7
  if r.child ≠ 0 then return 3
  if c.mask = 0 then
    out e a [0, 0, 0]
    return 0
  let view ← viewFrom e ch r.nslot 0
  let gone := view.filter fun v => bitOf c.mask v.2.1.tag
  let mine := gone.filter fun v => v.2.2.addr == r.addr && v.2.1.own
  let h := (gone.map fun v => v.2.1.len).foldl (· + ·) 0
  for v in gone do
    let x := v.2.1
    if v.2.2.addr = r.addr ∧ x.own then putEnt e r v.1 { x with st := if r.infl = 0 then 2 else 3 }
    else putEnt e r v.1 { x with st := 2, own := false, sh := false }
  if r.infl = 0 then push e p p.ftop (mine.map fun v => v.2.1.group)
  putSeq e { r with live := (r.live + 2 ^ 32 - h % 2 ^ 32) % 2 ^ 32,
                    nextpos := if r.shift then (r.nextpos + 2 ^ 32 - h % 2 ^ 32) % 2 ^ 32 else r.nextpos,
                    dead := c.drop }
  if c.drop ∧ r.infl = 0 then unchild e r
  let n := mine.length
  out e a [h, if r.infl = 0 then n else 0, if r.infl = 0 then 0 else n]
  return 0

/-- The fork point: the first slot at which the sum of LEN reaches ft, and the tokens kept of it (R377). -/
def forkAt : Nat → List (Nat × Ent × Seq) → Option (Nat × Ent × Nat)
  | _, [] => none
  | ft, (j, x, _) :: l => if ft ≤ x.len then some (j, x, ft) else forkAt (ft - x.len) l
/-- SQFORK (R377); the child, the parent and their pools are compared as places, whichever name of the node an address
bears (R16). -/
def sqfork (e : TxEnv) (a : Nat) : Tx Nat := do
  let c ← cmd e a 2
  let (ch, r, _) ← chain e c.seq
  need (State.vaOf c.arg != State.vaOf c.seq)
  let (k, _) ← seqRec e c.arg true
  need (State.vaOf k.pool == State.vaOf r.pool)
  if r.dead || k.dead then return 7
  if r.depth = 4 then return 2
  if r.child = 255 then return 3
  if r.live < c.n then return 5
  let view ← viewFrom e ch r.nslot 0
  let pt := if c.n = 0 then none else forkAt c.n view
  if c.n ≠ 0 ∧ pt.isNone then return 5
  let plim := match pt with | some x => x.1 + 1 | none => 0
  if k.ecap < plim then return 4
  for j in List.range plim do
    match pt with
    | some (f, x, u) =>
      if j = f ∧ u < x.len then putEnt e k j { x with st := 1, own := false, sh := true, len := u }
      else putEnt e k j Ent.absent
    | none => putEnt e k j Ent.absent
  let (f, pos, u) := match pt with | some (f, x, u) => (f, (x.pos0 + u) % 2 ^ 32, u) | none => (0, 0, 0)
  putSeq e { k with depth := r.depth + 1, parent := r.addr, plim := plim, nslot := plim, nextpos := pos, live := c.n,
                    child := 0, infl := 0, dead := false }
  putSeq e { r with child := r.child + 1 }
  out e a [f, u]
  return 0

/-- SQLOOK (R380). -/
def sqlook (e : TxEnv) (a : Nat) : Tx Nat := do
  let c ← cmd e a 3
  let (ch, r, _) ← chain e c.seq
  if r.dead then return 7
  if r.nslot ≤ c.n then return 6
  let (x, lvl) ← resolve e c.n 0 ch
  match x with
  | some (y, w) =>
    let raw ← rdN e ((w.ent + 16 * c.n) % 2 ^ 64) 8
    out e a [raw, y.pos0 + lvl * 2 ^ 32, w.addr]
    return 0
  | none =>
    out e a [0, lvl * 2 ^ 32, 0]
    return 0

/-- Lower INFL, and at zero free what was pending (R386, R487). The whole chain is judged first (R369). -/
def inflDone (e : TxEnv) (seq : Nat) : Tx Unit := do
  let (_, r, p) ← chain e seq
  let n := (r.infl + 2 ^ 32 - 1) % 2 ^ 32
  if n = 0 then
    let mut gs : List Nat := []
    for j in List.range r.nslot do
      let x ← ent e r j
      if x.st = 3 then
        putEnt e r j { x with st := 2 }
        gs := gs ++ [x.group]
    push e p p.ftop gs
    if r.dead then unchild e r
  putSeq e { r with infl := n }

end Tx

namespace State

/-- A write of a unit lands: in memory through its home slice, as one request with what the unit has read or written of
its line (R47); the issuing core's L1 keeps nothing of it (R130, R381, log 91). -/
def txWrite (core : Nat) (r : State × List Nat) (w : Nat × Leaf × List Byte) : State × List Nat :=
  if w.1 < Config.hostBase then
    (((r.1.l2Touch w.1 w.2.2.length w.2.1.cp w.2.1.pl .none true false w.2.1.feb (r.2.contains (lineOf w.1))).wrLoc
      (.mem w.1) w.2.2).l1Inval core w.1 w.2.2.length, lineOf w.1 :: r.2)
  else (r.1.wrLoc (.host w.1) w.2.2, r.2)
/-- Run a unit's instruction: its writes land together at the end, or nothing is written (R370). -/
def runTx {α : Type} (s : State) (core : Nat) (t : Tx α) : State × Except TxStop α :=
  match t.run ⟨s, [], []⟩ with
  | .ok x st => ((st.ws.foldl (txWrite core) (st.s, st.seen)).1, .ok x)
  | .error e st => (st.s, .error e)
/-- A release at device scope waits for these: the thread's own accesses, and the stores of its core (R117, R124, R371). -/
def agentBusy (s : State) (t : Nat) : Bool :=
  (s.reqs.any fun r => sameAgent (.thread t) r.who) || s.ownRemote (.thread t) != [] || s.coreStores (coreOf t)
/-- A thread's instruction needs bytes of the host window: it rests until they have come, and issues again (R484). -/
def restHost (s : State) (t pa ea n : Nat) : State :=
  (s.askBytes (.thread t) (coreOf t) (s.grOf t).team (s.ctxOfThread t) (.host pa) ea n (.buf t)).setSt t (.recWait s.nextId)
/-- Bad granules that a thread's instruction met (R57, R399). -/
def dataUes (s : State) (t : Nat) (l : List Nat) (ea : Nat) : State :=
  (l.foldl (fun s pa => s.queueBad pa true) s).kill (s.ctxOfThread t) .dataue (.thread t) 0 (s.th t).pc.toNat ea
/-- An SQ instruction of one thread (R370 to R374); `rel` says that it releases (R371, R380). -/
def sqBody (rel : Bool) (d a : Nat) (b : Option Nat) (f : TxEnv → Nat → Tx Nat) (s : State) (t : Nat) : State :=
  let ea := s.eaGlobal false t a b 0 1
  if s.acqBlocked (.thread t) || (rel && s.agentBusy t) then s
  else
    match s.runTx (coreOf t) (f ⟨.thread t, s.ctxOfThread t, coreOf t⟩ ea) with
    | (s', .ok st) => (((s'.l1Clear (coreOf t)).longW t d st).advance t)
    | (s', .error .stay) => s'
    | (s', .error .bad) => s'.raise t .engcmd ea
    | (s', .error (.trap c x)) => s'.raise t c x
    | (s', .error (.fault x ty)) => s'.restFault t x ty false false false
    | (s', .error (.ue l x)) => s'.dataUes t l x
    | (s', .error (.host pa x n)) => s'.restHost t pa x n

end State

def sqUses (d : Nat) (a : Nat) (b : Option Nat) : Uses := ⟨d :: optW b, .g a :: (optW b).map .w⟩
/-- SQAPP (R375, R376). -/
def execSqapp (h : Hdr) (d a : Nat) (b : Option Nat) (s : State) : Out :=
  .next (State.laneOp h (sqUses d a b) (State.sqBody true d a b Tx.sqapp) s)
/-- SQRET (R378). -/
def execSqret (h : Hdr) (d a : Nat) (b : Option Nat) (s : State) : Out :=
  .next (State.laneOp h (sqUses d a b) (State.sqBody true d a b Tx.sqret) s)
/-- SQFORK (R377). -/
def execSqfork (h : Hdr) (d a : Nat) (b : Option Nat) (s : State) : Out :=
  .next (State.laneOp h (sqUses d a b) (State.sqBody true d a b Tx.sqfork) s)
/-- SQLOOK (R380). -/
def execSqlook (h : Hdr) (d a : Nat) (b : Option Nat) (s : State) : Out :=
  .next (State.laneOp h (sqUses d a b) (State.sqBody false d a b Tx.sqlook) s)

end Sys2Proof.Machine
end

