-- ==== Sys2Proof/Machine/Slicer.lean ====
section
/-! DEFINITION. SLICE: the view taken at issue, spans and their snapshots, scores, survivors and refinement, merging,
output and completion (R381 to R387, R487). -/

namespace Sys2Proof.Machine

/-- A SLICE parameter block (R382). -/
structure SliceBlk where
  sel : Bool
  det : Bool
  fl : Nat
  ks : Nat
  kr : Nat
  kv : Nat
  nsl : Nat
  layer : Nat
  head : Nat
  span : Nat
  sv : Nat
  qsc : Nat
  seq : Nat
  q : Nat
  o : Nat
  view : Nat
  vcap : Nat
  cw : Nat
  seqv : Nat
  deriving DecidableEq, Repr

def SliceBlk.ofNat (v : Nat) : SliceBlk :=
  { sel := bitOf v 8, det := bitOf v 9, fl := bits v 11 10, ks := bits v 15 12, kr := bits v 19 16, kv := bits v 23 20,
    nsl := bits v 27 24, layer := bits v 38 32, head := bits v 45 39, span := bits v 55 48, sv := bits v 95 64,
    qsc := bits v 127 96, seq := bits v 191 128, q := bits v 255 192, o := bits v 319 256, view := bits v 383 320,
    vcap := bits v 415 384, cw := bits v 575 512, seqv := bits v 607 576 }
/-- Fields of the block alone. -/
def SliceBlk.fieldsOk (b : SliceBlk) (v : Nat) : Bool :=
  bits v 7 0 == 0x53 && bits v 31 28 == 0 && bits v 47 46 == 0 && bits v 63 56 == 0 && bits v 1023 608 == 0 &&
  b.fl != 3 && 1 ≤ b.ks && b.ks ≤ 12 && b.ks ≤ b.kr && b.kr ≤ 12 && 1 ≤ b.kv && b.kv ≤ 12 && 1 ≤ b.nsl && 1 ≤ b.span &&
  (b.sel || (1 ≤ b.sv && b.sv ≤ 4096)) && b.q % 4 == 0 && b.o % 4 == 0 && b.view % 8 == 0 && b.cw % 4 == 0

namespace Tx

/-- Check the records and take the view, in one step (R381, R382). -/
def takeView (e : TxEnv) (a : Nat) (b : SliceBlk) : Tx (Pool57 × List (Nat × Nat)) := do
  let s ← ask id
  need (s.isLocal e.ctx b.q && s.isLocal e.ctx b.o && s.isLocal e.ctx b.view)
  let (ch, r, p) ← chain e b.seq
  need (!r.dead && b.layer < p.nl && b.head < p.nh)
  let view ← viewFrom e ch r.nslot 0
  need (view.length ≤ b.vcap)
  for x in view.zipIdx do
    wr e ((b.view + 8 * x.2) % 2 ^ 64) (leBytes 8 (x.1.2.1.group + x.1.2.1.len * 2 ^ 32))
  wr e (a + 52) (leBytes 8 ((view.length + b.span - 1) / b.span * 2 ^ 32))
  putSeq e { r with infl := (r.infl + 1) % 2 ^ 32 }
  return (p, view.map fun x => (x.2.1.group, x.2.1.len))

end Tx

namespace State

/-! ## Issue (R381, R382) -/

def txIss {α : Type} (w : Who) (ctx : Nat) (r : State × Except TxStop α) : State × Iss α :=
  match r with
  | (s, .ok x) => (s, .ok x)
  | (s, .error .stay) => (s, .stay)
  | (s, .error .bad) => (s, .bad)
  | (s, .error (.trap c x)) => (s, .trap c x)
  | (s, .error (.fault x ty)) => (s, .fault x ty)
  | (s, .error (.ue l x)) => (l.tail.foldl (fun s pa => s.queueBad pa true) s, .ue (l.headD 0) x)
  | (s, .error (.host pa x n)) => (match w with
      | .thread t => s.restHost t pa x n
      | w => (s.cpAway w ctx (.host pa) x n).1, .stay)
/-- Read and check a block, take the view, and enqueue at the pool's home die. -/
def sliceIssue (s : State) (e : IssEnv) (x : EngX) (a : Nat) : State × Iss Unit :=
  Iss.bind (s.issRead e true a 128 128) fun s blk =>
    let v := leNat blk
    let b := SliceBlk.ofNat v
    if !b.fieldsOk v then (s, .bad)
    else
      Iss.bind (txIss e.who e.ctx (s.runTx e.core (Tx.takeView ⟨e.who, e.ctx, e.core⟩ a b))) fun s' r =>
        let e' := { e with core := 96 * r.1.home }
        if s.issueFull .slice e' x 0 then (s, .stay)
        else
          let s2 := s'.enqueueOp .slice e' x a ⟨blk, r.1.kbytes ++ r.1.vbytes, r.1.raw, []⟩
          (s2.setOps (s2.ops.map fun o => if o.id + 1 = s2.nextId then { o with view := r.2 } else o), .ok ())
/-- SLICE in one thread: the accesses that happen before it, the stores of its core among them, are performed before
the view is taken (R120, R129). -/
def sliceBody (x : EngX) (a : Nat) (b : Option Nat) (s : State) (t : Nat) : State :=
  let ea := s.eaGlobal false t a b 0 1
  if s.acqBlocked (.thread t) || s.agentBusy t then s
  else
    match s.sliceIssue (s.laneEnv t) x ea with
    | (s', .ok _) => s'.advance t
    | (s', .stay) => s'
    | (s', .bad) => s'.raise t .engcmd ea
    | (s', .trap c v) => s'.raise t c v
    | (s', .fault x ty) => s'.restFault t x ty false false false
    | (s', .ue pa x) => s'.dataUe t pa x

/-! ## What an operation knows -/

def sliceBlk (o : Op) : SliceBlk := SliceBlk.ofNat (leNat o.blk)
def sliceK (o : Op) : PlaneRec := opPlane (o.srcRec.take 64)
def sliceV (o : Op) : PlaneRec := opPlane (o.srcRec.drop 64)
def sliceHd (o : Op) : Nat := 16 * 2 ^ bits (leNat o.dstRec) 34 32
def sliceSpans (o : Op) : Nat := (o.view.length + (sliceBlk o).span - 1) / (sliceBlk o).span
/-- The first element of token i of a group (R364). -/
def tokenBase (o : Op) (g i : Nat) : Nat :=
  let p := leNat o.dstRec
  let b := sliceBlk o
  ((g * bits p 23 16 + b.layer) * bits p 31 24 + b.head) * 64 * sliceHd o + i * sliceHd o
/-- Tokens of a span by the elements at which they begin, in ordinal order. -/
def spanTokens (o : Op) (c : Nat) : List Nat :=
  (((o.view.drop (c * (sliceBlk o).span)).take (sliceBlk o).span).map fun x =>
    (List.range x.2).map fun i => tokenBase o x.1 i).flatten
/-- The blocks that hold a token's elements: their first elements. -/
def tokenBlocks (o : Op) (n : Nat) : List Nat :=
  let hd := sliceHd o
  (List.range ((n + hd - 1) / 32 - n / 32 + 1)).map fun i => (n / 32 + i) * 32
/-- Every address of a span: keys at KR planes, values at KV planes (R383). -/
def spanAddrs (o : Op) (c : Nat) : List Nat :=
  let b := sliceBlk o
  ((spanTokens o c).map fun n => ((tokenBlocks o n).map fun m =>
    ((blockAddrs (sliceK o) m (min b.kr (sliceK o).m)) ++ (blockAddrs (sliceV o) m (min b.kv (sliceV o).m))).map (·.1)).flatten).flatten

/-! ## Snapshots (R383) -/

def snapLeaf (o : Op) (c va : Nat) : Option Leaf :=
  (o.snap.find? fun x => x.1 == c && x.2.va ≤ va && va < x.2.va + pageBytes x.2.sz).map (·.2)
/-- Walk the pages of a span; the leaves found are the snapshot. -/
def walkSpan (s : State) (o : Op) (c : Nat) : List Nat → EngR Unit
  | [] => (s, .ok ())
  | a :: l =>
    match s.op? o.id with
    | none => (s, .error .wait)
    | some o' =>
      if (snapLeaf o' c (vaOf a)).isSome then walkSpan s o c l
      else if !s.isLocal o.ctx a || 2 ^ 54 ≤ a then (s, .error (.fail 0x06))
      else match s.translate [] none o.ctx (vaOf a) .rd with
        | (s, .ok _ lf) => walkSpan (s.updOp o.id fun x => { x with snap := x.snap ++ [(c, lf)] }) o c l
        | (s, .xlate) => (s, .error (.fail 0x06))
        | (s, .prot) => (s, .error (.fail 0x07))
        | (s, .fault ty) => s.engFault o a ty false
        | (s, .ue pa) => (s.engUe o [pa] a, .error .wait)
/-- A snapshot is held from the claim until the span ends (R152, R383). -/
def spanHolds : SpanSt → Bool | .ended => false | .walking _ _ => false | _ => true
def setSpan (s : State) (o c : Nat) (x : SpanSt) : State :=
  s.updOp o fun p => { p with spans := (p.spans.filter fun y => y.1 != c) ++ [(c, x)],
                              snap := if spanHolds x then p.snap else p.snap.filter fun y => y.1 != c }
/-- Take a span's snapshot, or rest; a rested walk holds no translation and begins anew (R152). -/
def takeSnap (s : State) (o : Op) (c : Nat) : State :=
  match s.walkSpan o c (spanAddrs o c) with
  | (s', .ok _) => s'.setSpan o.id c (.claimed (s'.cx o.ctx).epoch)
  | (s', .error (.fail k)) => s'.opStops o.id 0 (.fail k)
  | (s', .error (.rest f)) => s'.setSpan o.id c (.walking (some f) 0)
  | (s', .error .later) => s'.setSpan o.id c (.walking none (s'.cycle + 256))
  | (s', .error .wait) => s'.setSpan o.id c (.walking none 0)
/-- A span whose walk rested may walk again: its fault is answered, its time is over. -/
def spanWalks (s : State) : SpanSt → Bool
  | .walking f u => u ≤ s.cycle && !(match f with | some k => s.flt.faults.any fun x => x.fid == k | none => false)
  | _ => false
/-- A Slicer works on the span. -/
def spanBusy : SpanSt → Bool | .ended => false | _ => true
def opBusy (o : Op) : Nat := (o.spans.filter fun x => spanBusy x.2).length
/-- The operation wants a Slicer. -/
def wantsSlicer (s : State) (o : Op) : Bool :=
  o.kind == .slice && o.st == .running && s.opHere o && !o.fin && opBusy o < (sliceBlk o).nsl
/-- A free Slicer of the die serves the operation (R383): 16 Slicers, the earliest-started operation first. -/
def slicerFree (s : State) (o : Op) : Bool :=
  ((s.ops.filter fun p => p.kind == .slice && p.core == o.core).foldl (fun n p => n + opBusy p) 0) < 16 &&
  !(s.ops.any fun p => p.core == o.core && p.cursor < o.cursor && s.wantsSlicer p)
/-- Increment CTR: what it held. In the host window this is an atomic of its own (R383, R484). -/
def takeCtr (s : State) (o : Op) : EngR Nat :=
  let a := (o.blkAddr + 52) % 2 ^ 64
  ((s.freshLines o.id).engLoc o a true false).bind fun s p =>
    match p.1 with
    | .mem pa => (s.engHome o pa 4 p.2 true false false).bind fun s _ =>
      let c := leNat (s.rdLoc (.mem pa) 4)
      (s.engMem o pa 15 (leBytes 4 (c + 1)) none false, .ok c)
    | l => (s.engAsk o a 4 4 (.atom .add .s32 1 true) l p.2 []).bind fun s b =>
      (s.updOp o.id fun x => { x with rbuf := x.rbuf.filter fun y => y.1 != a }, .ok (leNat b))
/-- Claim a span by an atomic increment of CTR (R383). -/
def claim (s : State) (o : Op) : State :=
  match s.takeCtr o with
  | (s, .ok c) =>
    let s := s.updOp o.id fun x => { x with fin := sliceSpans o ≤ c + 1 }
    if sliceSpans o ≤ c then s else (s.setSpan o.id c (.walking none 0)).takeSnap o c
  | (s, .error e) => s.opStops o.id 0 e

/-! ## Scores and partials (R384) -/

end State

namespace Slice

/-- An exact sum of products as a value, with the special cases of R181. -/
def sumV (ts : List (Option Num.FVal)) : Num.FVal :=
  let s := ts.foldl Num.SumSt.term Num.SumSt.init
  if s.nan || s.bad || (s.pinf && s.ninf) then .nan false
  else if s.pinf then .inf false
  else if s.ninf then .inf true
  else .fin (if s.x.m = 0 then (if s.mixed then false else s.allZ.getD false) else s.x.m < 0) s.x
def rn (v : Num.FVal) : Nat := (Num.cvtF Num.f32 .rn v).1
def f (c : Nat) : Num.FVal := Num.unpack Num.f32 c
def mulV (a b : Num.FVal) : Num.FVal := (Num.prod a b).getD (.nan false)
/-- Element values of a token from its blocks (R63). -/
def vals (r : PlaneRec) (fl k hd n : Nat) (bs : List (List Byte)) : List Num.FVal :=
  (List.range hd).map fun d =>
    match planeExact (bs.getD ((n + d) / 32 - n / 32) []) (min k r.m) r.m (fillMid fl r) ((n + d) % 32) with
    | some (s, x) => .fin s x
    | none => .nan false
def score (qsc : Nat) (q : List Nat) (k : List Num.FVal) : Nat :=
  rn (mulV (f qsc) (sumV (List.zipWith (fun a b => Num.prod (f a) b) q k)))
def isNan (c : Nat) : Bool := Num.isNan (f c)
/-- a ranks above b: NaN above every number (R384). -/
def above (a b : Nat) : Bool := if isNan b then false else isNan a || Num.ltV (f b) (f a)
/-- Insert by rank, after the equals: ties go to the lower ordinal. -/
def ins {α : Type} (x : Nat × α) : List (Nat × α) → List (Nat × α)
  | [] => [x]
  | y :: l => if above x.1 y.1 then x :: y :: l else y :: ins x l
def select {α : Type} (sel : Bool) (sv : Nat) (l : List (Nat × α)) : List α :=
  if sel then (l.filter fun x => isNan x.1 || (!isNan sv && !Num.ltV (f x.1) (f sv))).map (·.2)
  else ((l.foldl (fun acc x => ins x acc) []).take sv).map (·.2)
def ex2 (c : Nat) : Nat := (Num.fsf32 .ex2 .rn c).1
def sub (a b : Nat) : Nat := (Num.fsub Num.f32 .rn a b).1
def maxF (a b : Nat) : Nat := (Num.fminmax Num.f32 true a b).1
/-- A block held at k planes and read anew: what the refined element is taken from, and whether it was reloaded (R77,
R78). -/
def refine (k : Nat) (old new : List Byte) : List Byte × Bool :=
  if old.take 2 = new.take 2 then (old ++ new.drop (2 + 4 * (k + 1)), false) else (new, true)
/-- x / y correctly rounded (R385). -/
def div (x y : Nat) : Nat :=
  match f x, f y with
  | .nan _, _ => 0x7FC00000
  | _, .nan _ => 0x7FC00000
  | .inf _, .inf _ => 0x7FC00000
  | .inf a, .fin b _ => Num.infCode Num.f32 (a != b)
  | .fin a _, .inf b => Num.withSign Num.f32 (a != b) 0
  | .fin a d, .fin b e =>
    if e.m = 0 then (if d.m = 0 then 0x7FC00000 else Num.infCode Num.f32 (a != b))
    else if d.m = 0 then Num.withSign Num.f32 (a != b) 0
    else (Num.rnd Num.f32 .rn (Num.quotient (a != b) d.m.natAbs e.m.natAbs (d.e - e.e)) false).1
/-- Merge a partial into the state (R385); one marked NaN merges all the same, and its mark decides every O(d) (log 68). -/
def merge (g : Merge) (nan : Bool) (m l : Nat) (a : List Nat) : Merge :=
  let mx := maxF g.mx m
  let f1 := f (ex2 (sub g.mx mx))
  let f2 := f (ex2 (sub m mx))
  let comb := fun x y => rn (sumV [Num.prod (f x) f1, Num.prod (f y) f2])
  { g with any := true, nan := g.nan || nan, mx := mx, l := comb g.l l, a := List.zipWith comb g.a a }

end Slice

namespace State

/-- The place of an address in a span's snapshot. -/
def snapPa (o : Op) (c a : Nat) : Option (Nat × Leaf) := (snapLeaf o c (vaOf a)).map fun lf => (lf.pa + (vaOf a - lf.va), lf)
/-- A block whose header lies in the host window comes by a request (R484). -/
def blockAway (o : Op) (c : Nat) (r : PlaneRec) (n : Nat) : Bool :=
  match snapPa o c (r.hdrAt n) with | some p => Config.hostBase ≤ p.1 | none => false
def snapLoc (x : Nat × Leaf) : Loc × Leaf := (if Config.hostBase ≤ x.1 then .host x.1 else .mem x.1, x.2)
/-- Ask for such blocks, one plane read each. -/
def fetchBlocks (s : State) (o : Op) (c : Nat) (bs : List (PlaneRec × Nat × Nat)) : EngR Unit :=
  (bs.filter fun x => blockAway o c x.1 x.2.1).foldl (fun acc x => acc.bind fun s _ =>
    match (blockAddrs x.1 x.2.1 x.2.2).filterMap fun y => (snapPa o c y.1).map snapLoc with
    | (h, lf) :: ps => (s.engAsk ((s.op? o.id).getD o) (x.1.hdrAt x.2.1) 2 2
        (.planeRead (x.1.planeAt x.2.1 0) x.1.stride x.2.2) h lf (ps.map partOf)).bind fun s _ => (s, .ok ())
    | [] => (s, .ok ())) (s, .ok ())
/-- What has come for them is used up. -/
def dropBlocks (s : State) (o : Op) (bs : List (PlaneRec × Nat × Nat)) : State :=
  s.updOp o.id fun x => { x with rbuf := x.rbuf.filter fun y => !(bs.any fun z => z.1.hdrAt z.2.1 == y.1) }
/-- Read a block through a span's snapshot: the bytes of one plane read, or the granules in error. -/
def snapBlock (s : State) (o : Op) (c : Nat) (r : PlaneRec) (n k : Nat) : Except (List Nat) (List Byte) :=
  if blockAway o c r n then
    .ok (((((s.op? o.id).getD o).rbuf.find? fun y => y.1 == r.hdrAt n && y.2.1 == 2).map (·.2.2)).getD [])
  else
    let ps := (blockAddrs r n k).filterMap fun x => (snapPa o c x.1).map fun p => (p.1, x.2)
    let bad := ps.flatMap fun p => s.ueHits (.mem p.1) p.2 false
    if bad ≠ [] then .error bad else .ok (ps.flatMap fun p => s.rdBytes p.1 p.2)
/-- The lookups of a span's reads at their home slices: those of one line travel together (R44, R47). -/
def snapLook (s : State) (o : Op) (c : Nat) (as : List (Nat × Nat)) : State :=
  (as.foldl (fun (r : State × List Nat) x => match snapPa o c x.1 with
    | some (pa, lf) =>
      if pa < Config.hbmTop then
        (r.1.l2Touch pa x.2 lf.cp lf.pl .none false false lf.feb (r.2.contains (lineOf pa)), lineOf pa :: r.2)
      else r
    | none => r) (s, [])).1
def snapToken (s : State) (o : Op) (c : Nat) (r : PlaneRec) (n k : Nat) : Except (List Nat) (List (List Byte)) :=
  (tokenBlocks o n).foldl (fun acc m =>
    match acc with
    | .error e => .error e
    | .ok l => match s.snapBlock o c r m (min k r.m) with
      | .ok b => .ok (l ++ [b])
      | .error e => .error e) (.ok [])
/-- Score every token of a span and choose the survivors. -/
def scoreSpan (s : State) (o : Op) (c : Nat) : Except (List Nat) (List (Nat × List (List Byte))) :=
  let b := sliceBlk o
  let r := sliceK o
  let toks := (spanTokens o c).foldl (fun acc n =>
    match acc with
    | .error e => .error e
    | .ok l => match s.snapToken o c r n b.ks with
      | .ok bs => .ok (l ++ [(Slice.score b.qsc o.q (Slice.vals r b.fl b.ks (sliceHd o) n bs), (n, bs))])
      | .error e => .error e) (Except.ok [])
  match toks with
  | .ok l => .ok (Slice.select b.sel b.sv l)
  | .error e => .error e
/-- A survivor's key blocks are read again: KR is above the planes they hold (R77). -/
def rereads (o : Op) : Bool := min (sliceBlk o).ks (sliceK o).m < (sliceBlk o).kr
/-- Refine the survivors and compute the partial: reload indicator, NaN mark, m, l, a. -/
def partialOf (s : State) (o : Op) (c : Nat) (surv : List (Nat × List (List Byte))) :
    Except (List Nat) (Bool × Bool × Nat × Nat × List Nat) :=
  let b := sliceBlk o
  let kr := sliceK o
  let vr := sliceV o
  let hd := sliceHd o
  let rows := surv.foldl (fun acc t =>
    match acc with
    | .error e => .error e
    | .ok l =>
      match (if rereads o then s.snapToken o c kr t.1 b.kr else .ok t.2), s.snapToken o c vr t.1 b.kv with
      | .ok nb, .ok vb =>
        let ref := if rereads o then List.zipWith (Slice.refine (min b.ks kr.m)) t.2 nb else t.2.map (·, false)
        .ok (l ++ [(ref.any (·.2), Slice.score b.qsc o.q (Slice.vals kr b.fl b.kr hd t.1 (ref.map (·.1))),
          Slice.vals vr b.fl b.kv hd t.1 vb)])
      | .error e, _ => .error e
      | _, .error e => .error e) (Except.ok [])
  match rows with
  | .error e => .error e
  | .ok l =>
    let reload := l.any (·.1)
    let rs := l.map (·.2.1)
    let nan := (rs.any fun c => match Slice.f c with | .fin _ _ => false | _ => true) ||
      l.any fun x => x.2.2.any Num.isNan
    let m := rs.foldl Slice.maxF 0xFF800000
    let ps := rs.map fun r => Slice.f (Slice.ex2 (Slice.sub r m))
    let a := (List.range hd).map fun d =>
      Slice.rn (Slice.sumV (List.zipWith (fun p x => Num.prod p (x.2.2.getD d (.nan false))) ps l))
    .ok (reload, nan, m, Slice.rn (Slice.sumV (ps.map some)), a)

/-- A read met an uncorrectable error: the operation stops (R399). -/
def sliceUe (s : State) (o : Op) (l : List Nat) : State :=
  (l.foldl (fun s pa => s.queueBad pa true) s).opStops o.id 0 (.fail 0x20)
/-- Spans below have merged or yielded none (R385). -/
def spanTurn (o : Op) (c : Nat) : Bool :=
  !(sliceBlk o).det || (List.range c).all fun k => o.spans.any fun x => x.1 == k && x.2 == .ended
/-- Merge a partial when its turn has come, else hold it. -/
def mergeOr (s : State) (o : Op) (c : Nat) (nan : Bool) (m l : Nat) (a : List Nat) : State :=
  if spanTurn o c then
    (s.setSpan o.id c .ended).updOp o.id fun x => { x with merge := Slice.merge x.merge nan m l a }
  else s.setSpan o.id c (.held nan m l a)
/-- The plane reads of every block of some tokens. -/
def tokenReads (o : Op) (r : PlaneRec) (k : Nat) (ns : List Nat) : List (PlaneRec × Nat × Nat) :=
  ns.flatMap fun n => (tokenBlocks o n).map fun m => (r, m, min k r.m)
/-- The plane reads of a step on a span: keys at KS planes, then keys at KR and values at KV planes. -/
def spanReads (o : Op) (c : Nat) : SpanSt → List (PlaneRec × Nat × Nat)
  | .claimed _ => tokenReads o (sliceK o) (sliceBlk o).ks (spanTokens o c)
  | .scored _ l => (if rereads o then tokenReads o (sliceK o) (sliceBlk o).kr (l.map (·.1)) else []) ++
      tokenReads o (sliceV o) (sliceBlk o).kv (l.map (·.1))
  | _ => []
def readAddrs (bs : List (PlaneRec × Nat × Nat)) : List (Nat × Nat) := bs.flatMap fun x => blockAddrs x.1 x.2.1 x.2.2
/-- One step of a Slicer on a span, once its blocks have come: scores, then the refined partial, then the merge. -/
def spanGo (s : State) (o : Op) (c : Nat) (x : SpanSt) : State :=
  match x with
  | .claimed e =>
    match s.scoreSpan o c with
    | .ok l =>
      let s := (s.snapLook o c (readAddrs (spanReads o c x))).dropBlocks o (spanReads o c x)
      if l = [] then s.setSpan o.id c .ended else s.setSpan o.id c (.scored e l)
    | .error bad => s.sliceUe o bad
  | .scored _ l =>
    match s.partialOf o c l with
    | .ok (rl, nan, m, z, a) =>
      let s := (s.snapLook o c (readAddrs (spanReads o c x))).dropBlocks o (spanReads o c x)
      (s.updOp o.id fun x => { x with merge := { x.merge with reload := x.merge.reload || rl } }).mergeOr o c nan m z a
    | .error bad => s.sliceUe o bad
  | .held nan m l a => s.mergeOr o c nan m l a
  | _ => s
def spanStep (s : State) (o : Op) (c : Nat) (x : SpanSt) : State :=
  match s.fetchBlocks o c (spanReads o c x) with
  | (s, .ok _) => s.spanGo o c x
  | (s, .error _) => s

/-! ## Output and end (R385, R386, R487) -/

def outWords (o : Op) : List Nat :=
  let g := o.merge
  let hd := sliceHd o
  (if g.nan then List.replicate hd 0x7FC00000
   else if !g.any then List.replicate hd 0
   else g.a.map fun x => Slice.div x g.l) ++ [g.mx, g.l]
/-- Write the output: every page is translated before the first word is written. -/
def writeOut (s : State) (o : Op) : EngR Unit :=
  let ws := (outWords o).zipIdx
  let at_ := fun (i : Nat) => ((sliceBlk o).o + 4 * i) % 2 ^ 64
  let chk : EngR Unit := ws.foldl (fun acc w => acc.bind fun s _ =>
    (s.engLoc o (at_ w.2) true false).bind fun s _ => (s, .ok ())) (s, .ok ())
  chk.bind fun s _ => ws.foldl (fun acc w => acc.bind fun s _ =>
    s.engWord o 0 (at_ w.2) 15 (leBytes 4 w.1) none false) (s, .ok ())
/-- The output stands: nothing stopped the operation, or nothing but its completion word (R487). -/
def outStands (o : Op) (code : Nat) : Bool := code == 0 || o.cwDone == 1
/-- A completion word that was sent to another node and failed there: STATUS is written again (R487). -/
def cwFailed (o : Op) : Op := if o.cwDone = 3 then { o with cwDone := 1, sub := 0 } else o
/-- STATUS: the code, and the flags of an output that stands. -/
def sliceStatus (s : State) (o : Op) (code : Nat) : EngR Unit :=
  let v := code + if outStands o code
    then 256 * b2n (!o.merge.any) + 512 * b2n o.merge.nan + 1024 * b2n o.merge.reload else 0
  s.engWord o 0 ((o.blkAddr + 60) % 2 ^ 64) 15 (leBytes 4 v) none false
/-- The step that lowers INFL: what else it leaves is whether it is over. -/
def lowerInfl (s : State) (o : Op) : EngR Unit :=
  match s.runTx (issuer o) (Tx.inflDone ⟨.op o.id, o.ctx, issuer o⟩ (sliceBlk o).seq) with
  | (s, .ok _) => (s, .ok ())
  | (s, .error (.fault ea ty)) => s.engFault o ea ty true
  | (s, .error .stay) => (s, .error .wait)
  | (s, .error (.ue l ea)) => (s.engUe o l ea, .ok ())
  | (s, .error (.host pa ea n)) =>
    (s.engAsk o ea n n .load (.host pa) noLeaf []).bind fun s _ => (s, .error .wait)
  | (s, .error _) => (s, .ok ())
/-- The end of an operation with a code, phase by phase: output, STATUS, completion word, INFL, slot. -/
def sliceEnd : Nat → State → Nat → Nat → State
  | 0, s, _, _ => s
  | k + 1, s, id, code =>
    match s.op? id with
    | none => s
    | some o =>
      let b := sliceBlk o
      let next := fun (s : State) => sliceEnd k ((s.freshLines id).updOp id fun x => { x with sub := x.sub + 1 }) id code
      let phase := fun (r : EngR Unit) (fails : State → Nat → State) =>
        match r with
        | (s, .ok _) => next s
        | (s, .error (.rest f)) => s.opStops id code (.rest f)
        | (s, .error .later) => s.opStops id code .later
        | (s, .error .wait) => s
        | (s, .error (.fail c)) => fails s c
      let sent := fun (r : EngR Unit) => r.bind fun s _ =>
        (s.updOp id fun x => { x with cwDone := if code = 0 then 3 else 2 }, .ok ())
      let s := s.closeOp id
      if s.outstanding id then s
      else if o.sub = 0 then
        if code ≠ 0 then next s
        else phase (s.writeOut o) fun s c => s.opStops id 0 (.fail c)
      else if o.sub = 1 then
        phase (s.sliceStatus o code) fun s _ => next s
      else if o.sub = 2 then
        if b.cw = 0 || o.cwDone ≠ 0 then next s
        else phase (sent (s.writeCw o b.cw (if code = 0 then b.seqv else 0xFFFFFFFF))) fun s c =>
          if code = 0 then (s.updOp id fun x => { x with cwDone := 1, sub := 0 }).opStops id 0 (.fail c)
          else sliceEnd k (s.updOp id fun x => { x with cwDone := 2, sub := 3 }) id code
      else if o.sub = 3 then phase (s.lowerInfl o) fun s _ => next s
      else s.opEnds { o with nan := o.merge.nan && outStands o code } code
/-- The spans of a stopped SLICE are abandoned: the faults they rest on concern it no more (R386). -/
def dropSpans (s : State) (o : Op) : State :=
  if o.spans = [] then s
  else (s.dropJoins fun w => w == .op o.id).updOp o.id fun x => { x with spans := [], snap := [] }
/-- A killed context's SLICE lowers INFL and leaves (R396). -/
def sliceDrain (s : State) (o : Op) : State :=
  let s' := s.dropSpans o
  if o.sub ≥ 4 then s'.setOps (s'.ops.filter fun x => x.id != o.id)
  else match s'.lowerInfl o with
    | (s, .ok _) => s.setOps (s.ops.filter fun x => x.id != o.id)
    | (s, .error (.fail _)) => s.setOps (s.ops.filter fun x => x.id != o.id)
    | (s, _) => s

end State

/-! ## Meanings -/

/-- SLICE (R381, R382). -/
def execSlice (h : Hdr) (x : EngX) (a : Nat) (b : Option Nat) (s : State) : Out :=
  .next (State.laneOp h ⟨optW b, .g a :: (optW b).map .w⟩ (State.sliceBody x a b) s)
/-- A SLICE reads its query and is handed to Slicers (R383). -/
def execSliceStart (o : Nat) (s0 : State) : Out :=
  let s := s0.wakeOp o
  match s.op? o with
  | some p =>
    .next (if p.kind = .slice ∧ s.mayStart p then
      let q : EngR (List Nat) := (List.range (State.sliceHd p)).foldl (fun acc d => acc.bind fun s l =>
        (s.engRead p 0 (((State.sliceBlk p).q + 4 * d) % 2 ^ 64) 4 false).bind fun s x => (s, .ok (l ++ [leNat x])))
        (s, .ok [])
      match q with
      | (s', .ok l) =>
        let empty := State.sliceSpans p == 0
        let acc0 := List.replicate (State.sliceHd p) 0
        (s'.updOp o fun y => { y with
          st := .running, q := l, cursor := s'.nextId, lines := [], rbuf := [], fin := empty,
          merge := { y.merge with a := acc0 } }).bump
      | (s', .error .wait) => s'
      | (s', .error e) => s'.opStops o 0 e
    else s)
  | none => .next s
/-- A Slicer whose walk rested walks again, or a free Slicer claims the next span (R383). -/
def execSpanClaim (o : Nat) (s0 : State) : Out :=
  let s := s0.wakeOp o
  match s.op? o with
  | some p =>
    match p.spans.find? fun x => s.spanWalks x.2 with
    | some x => .next (if p.st = .running ∧ s.opHere p then s.takeSnap p x.1 else s)
    | none => .next (if s.wantsSlicer p && s.slicerFree p then s.claim p else s)
  | none => .next s
/-- A Slicer works on its span; its partial merges when its turn has come (R384, R385). -/
def execPartialMerge (o span : Nat) (s : State) : Out :=
  match s.op? o with
  | some p =>
    match p.spans.find? fun x => x.1 == span with
    | some x => .next (if p.st = .running then s.spanStep p span x.2 else s)
    | none => .next s
  | none => .next s
/-- The last Slicer writes the output, STATUS and CW, lowers INFL and the slot (R385, R386). -/
def execSliceComplete (o : Nat) (s0 : State) : Out :=
  let s := s0.wakeOp o
  match s.op? o with
  | some p => .next (if p.kind = .slice ∧ p.st = .running ∧ p.fin ∧ s.opHere p ∧ State.opBusy p = 0 then s.sliceEnd 8 o 0 else s)
  | none => .next s
/-- A stopped SLICE abandons its spans, writes its code and CW, lowers INFL and its slot (R386, R396). -/
def execSliceStop (o : Nat) (s0 : State) : Out :=
  let s := s0.wakeOp o
  match s.op? o with
  | some p =>
    match p.kind, p.st with
    | .slice, .failed code =>
      .next (if s.opHere p then ((s.dropSpans p).updOp o State.cwFailed).sliceEnd 12 o code else s)
    | .slice, .draining => .next (s.sliceDrain p)
    | _, _ => .next s
  | none => .next s

end Sys2Proof.Machine
end

