-- ==== Sys2Proof/Machine/Teams.lean ====
section
/-! DEFINITION. Launch records and placement, team ends and completion words, and what the machine does for threads
and groups of itself: traps that waited, the active set, RACQ, sleep (R191 to R204, R208 to R210, R219 to R221,
R325, R334, R340, R388, R392). -/

namespace Sys2Proof.Machine

/-! ## Launch records (R197 to R199) -/

/-- A role descriptor (R198). -/
structure RoleRec where
  entry : Nat
  first : Nat
  count : Nat
  base : Nat
  ext : Bool
  stk : Nat
  zeros : Bool
  deriving DecidableEq, Repr

/-- A launch record (R197). -/
structure LaunchRec where
  prio : Nat
  cosched : Bool
  sys : Bool
  htrap : Bool
  split : Nat
  ngrp : Nat
  spw : Nat
  nacc : Nat
  cset : Nat
  nx : Nat
  ny : Nat
  nz : Nat
  param : Nat
  done : Nat
  roles : List RoleRec
  deriving DecidableEq, Repr

def RoleRec.ofNat (v : Nat) : RoleRec :=
  { entry := bits v 63 0, first := bits v 68 64, count := bits v 74 69, base := 16 * (bits v 76 75 + 1),
    ext := bitOf v 77, stk := 16 * bits v 92 80, zeros := bits v 79 78 == 0 && bits v 127 93 == 0 }
def LaunchRec.ofNat (v : Nat) : LaunchRec :=
  { prio := bits v 9 8, cosched := bitOf v 10, sys := bitOf v 11, htrap := bitOf v 12, split := bits v 19 16,
    ngrp := bits v 29 24, spw := bits v 40 32, nacc := bits v 52 48, cset := bits v 59 56, nx := bits v 79 64,
    ny := bits v 95 80, nz := bits v 111 96, param := bits v 191 128, done := bits v 255 192,
    roles := (List.range 4).map fun r => RoleRec.ofNat (bits v (383 + 128 * r) (256 + 128 * r)) }
def LaunchRec.total (r : LaunchRec) : Nat := r.nx * r.ny * r.nz
def Launch.parsed (l : Launch) : LaunchRec := LaunchRec.ofNat (leNat l.rec_)
/-- Present roles follow one another from FIRST = 0; the number of groups they take, none where they do not. -/
def rolesSum : List RoleRec → Nat → Option Nat
  | [], n => some n
  | r :: l, n => if r.count = 0 then rolesSum l n else if r.first = n then rolesSum l (n + r.count) else none
/-- The record is not malformed, SYS apart (R199). An ENTRY against R198 is taken as malformed. -/
def LaunchRec.ok (r : LaunchRec) (v node : Nat) : Bool :=
  bits v 7 0 == 0x4C && bits v 15 13 == 0 && bits v 23 20 == 0 && bits v 31 30 == 0 && bits v 47 41 == 0 &&
  bits v 55 53 == 0 && bits v 63 60 == 0 && bits v 127 112 == 0 && bits v 1023 768 == 0 &&
  r.split != 1 && r.split ≤ 10 && 1 ≤ r.ngrp && r.ngrp ≤ 32 && r.spw ≤ 320 && r.nacc ≤ 16 && r.total != 0 &&
  (if r.cosched then 2 ≤ r.cset && r.cset ≤ 8 else r.cset == 0) && r.done % 4 == 0 &&
  rolesSum r.roles 0 == some r.ngrp &&
  r.roles.all fun x => x.count == 0 || (x.count ≤ 32 && x.zeros && 16 ≤ x.stk && x.stk ≤ 65536 && x.entry % 4 == 0 &&
    x.entry < 2 ^ 54 && (bits x.entry 53 48 == node || bits x.entry 53 48 == 0x3F))

namespace State

/-- Someone's access rests on an open fault, or for want of one (R156). -/
def joined (s : State) (w : Who) : Bool :=
  (s.flt.faults.any fun f => f.joins.any fun j => j.1 == w) || s.flt.later.any fun x => x.1 == w && s.cycle < x.2
/-- Room in the journal: while it is full or off the command processor starts nothing (R442). -/
def cpRoom (s : State) : Bool := s.cp.held == [] && s.cp.jnl.room && s.dev.ready && !s.dev.fatal

def updQueue (s : State) (q : Nat) (f : Queue → Queue) : State :=
  s.setCp { s.cp with queues := updAt s.cp.queues q f }
def queue (s : State) (q : Nat) : Queue := s.cp.queues.getD q Queue.reset
/-- A queue is served no more: what is still to be read of its ring is not (R435, R436). -/
def queueOff (s : State) (q : Nat) : State :=
  ((s.setReqs (s.reqs.filter fun r => r.who != .ring q)).cpForget (.ring q)).updQueue q fun x =>
    { x with en := false, door := false }
/-- The context exists and is not being killed. -/
def ctxLives (s : State) (c : Nat) : Bool := s.hasCtx c && (s.cx c).killing.isNone

/-! ## Accesses of the command processor (R202, R438, R489) -/

/-- Uncorrectable errors kill the context (R57, R399). -/
def cpUe (s : State) (who : Who) (ctx : Nat) (l : List Nat) (ea : Nat) : State :=
  (l.foldl (fun s pa => s.queueBad pa true) s).kill ctx .dataue who 0 0 ea
/-- Translate an access of the command processor in a context: the place, a failure's cause, or a rest. -/
def cpLoc (s : State) (who : Who) (ctx a : Nat) (wr fe : Bool) : EngR (Loc × Leaf) :=
  if 2 ^ 54 ≤ a then (s, .error (.fail 0x06))
  else if s.isLocal ctx a then
    match s.translate [] none ctx (vaOf a) ⟨wr, false⟩ with
    | (s, .ok pa l) =>
      let host := Config.hostBase ≤ pa
      if fe && (host || !l.feb) then (s, .error (.fail 0x0A)) else (s, .ok (if host then .host pa else .mem pa, l))
    | (s, .xlate) => (s, .error (.fail 0x06))
    | (s, .prot) => (s, .error (.fail 0x07))
    | (s, .fault ty) => (s.restWho who ctx a ty wr fe, .error .wait)
    | (s, .ue pa) => (s.cpUe who ctx [pa] a, .error .wait)
  else
    let n := bits a 53 48
    if (s.routeOf n).isNone || s.unreach n then (s, .error (.fail 0x13)) else (s, .ok (.remote n (vaOf a), noLeaf))
/-- Read bytes in a context. A read at another package that failed has left no bytes (log 88). -/
def cpRead (s : State) (who : Who) (ctx a n : Nat) : EngR (List Byte) :=
  (s.cpLoc who ctx a false false).bind fun s p =>
    match p.1 with
    | .mem pa =>
      match s.ueHits (.mem pa) n false with
      | [] => (s.l2Touch pa n p.2.cp p.2.pl .none false false p.2.feb false, .ok (s.rdBytes pa n))
      | l => (s.cpUe who ctx l a, .error .wait)
    | l =>
      match s.cpAway who ctx l a n with
      | (s, some []) => (s, .error (.fail 0x06))
      | (s, some b) => (s, .ok b)
      | (s, none) => (s, .error .wait)
/-- Write a word of 4 or 8 bytes as a release; true where an acknowledgement is still to come. -/
def cpWrite (s : State) (who : Who) (ctx a : Nat) (d : List Byte) (fe : Bool) : EngR Bool :=
  (s.cpLoc who ctx a true fe).bind fun s p =>
    match p.1 with
    | .mem pa =>
      match s.ueHits (.mem pa) d.length true ++ (if fe then s.bitUes (.mem pa) else []) with
      | [] =>
        let s := s.l2Touch pa d.length p.2.cp p.2.pl .none true fe p.2.feb false
        (if fe then s.wrFe (.mem pa) d true else s.wrLoc (.mem pa) d, .ok false)
      | l => (s.cpUe who ctx l a, .error .wait)
    | .remote n va =>
      if !s.wcRoom cpCore then (s, .error .wait)
      else
        let body := if fe then Body.opw va (.fe .stfs false (BitVec.ofNat 32 (leNat d)) .eq false) 4 .dom
          else .write (va / 128 * 128) (maskBits (va % 128) d.length 0) (putBytes (List.replicate 128 0) (va % 128) d)
        let e : Wc := { id := s.nextId, core := cpCore, ctx := ctx, team := engTeam, peer := n, line := va / 128 * 128,
                        mask := 0, data := [], body := some body, va := va, who := [⟨who, a, false⟩], sent := false,
                        since := s.cycle }
        (((s.updWc fun l => l ++ [e]).bump).sendOne e, .ok true)
    | l => (s.wrLoc l d, .ok false)

/-! ## Device-side launch (R219 to R221) -/

/-- Entries of a context's device launch queue: grids with a team still to place (R221). -/
def launchQueue (s : State) (ctx : Nat) : Nat :=
  (s.cp.launches.filter fun l => l.ctx == ctx && l.placed.length < l.parsed.total &&
    (match l.origin with | .device _ _ => true | _ => false)).length
/-- A grid joins those to be placed; `n` is its place in the order of readiness, now where it has none yet. -/
def addLaunch (s : State) (ctx : Nat) (o : Origin) (r : List Byte) (n : Option Nat) : State :=
  (s.setCp { s.cp with launches := s.cp.launches ++ [⟨s.nextId, n.getD s.nextId, ctx, o, r, [], 0, false, false⟩] }).bump
/-- LAUNCH in one thread: the release waits at the instruction, then the record is read and enqueued (R220). -/
def launchBody (d a : Nat) (s : State) (t : Nat) : State :=
  let ea := s.rgSeen t a
  if s.acqBlocked (.thread t) || s.afterOf (.thread t) (coreOf t) (.store []) .sync .dev ≠ [] then s
  else
    match s.issRead (s.laneEnv t) true ea 128 128 with
    | (s', .ok b) =>
      let v := leNat b
      let r := LaunchRec.ofNat v
      let ctx := s'.ctxOfThread t
      if !r.ok v s'.fab.node then s'.raise t .engcmd ea
      else if r.sys && !(s'.tmOf t).sys then s'.raise t .priv 0
      else if 256 ≤ s'.launchQueue ctx then (s'.longW t d 1).advance t
      else ((s'.addLaunch ctx (.device t ea) b none).longW t d 0).advance t
    | (s', .stay) => s'
    | (s', .bad) => s'.raise t .engcmd ea
    | (s', .trap c v) => s'.raise t c v
    | (s', .fault x ty) => s'.restFault t x ty false false false
    | (s', .ue pa x) => s'.dataUe t pa x

/-! ## Placement (R195, R200, R203, R204, R221) -/

def teamsOn (s : State) (c : Nat) : List Team := s.teams.filter fun u => u.core == c
/-- The lowest residency position free in a quadrant. -/
def freePos (s : State) (c q : Nat) : Option Nat :=
  ((List.range 16).map fun p => c * 64 + q * 16 + p).find? fun gs => !(s.groups.any fun g => g.gslot == gs)
/-- The lowest base of a free window of n bytes (R36). -/
def freeWindow (s : State) (c n : Nat) : Option Nat :=
  let us := (s.teamsOn c).filter fun u => u.spSize != 0
  let ok := fun b => b + n ≤ (s.co c).ways * 131072 && us.all fun u => b + n ≤ u.spBase || u.spBase + u.spSize ≤ b
  let at_ := (0 :: us.map fun u => u.spBase + u.spSize).filter ok
  match at_ with
  | [] => if n = 0 then some 0 else none
  | x :: l => some (l.foldl min x)
def freeTiles (s : State) (c : Nat) : List Nat :=
  (List.range 16).filter fun i => !((s.teamsOn c).any fun u => u.tiles.contains i)
/-- The role of a group (R193). -/
def roleIdx (r : LaunchRec) (gid : Nat) : Nat :=
  ((List.range 4).find? fun i => match r.roles[i]? with
    | some x => x.count != 0 && x.first ≤ gid && gid < x.first + x.count
    | none => false).getD 0
def activeIn (s : State) (c q : Nat) : Nat :=
  (s.groups.filter fun g => g.gslot / 64 == c && g.gslot / 16 % 4 == q && g.active).length
/-- Place one group with its 32 threads (R200); none where a position or rows are missing. -/
def placeGroup (s : State) (r : LaunchRec) (u ctx c h gid : Nat) : Option State :=
  let q := (h + gid) % 4
  let k := roleIdx r gid
  let x := r.roles.getD k (RoleRec.ofNat 0)
  match s.freePos c q with
  | none => none
  | some gs =>
    if s.rowsFree c q < x.base then none
    else
      let g : Group := { Group.none gs with
        team := u, gid := gid, role := k, base := x.base, stk := x.stk, extOk := x.ext,
        g := setAt (List.replicate 64 0) 1 (BitVec.ofNat 64 r.param), q := List.replicate 8 false, haz := r.htrap,
        active := s.activeIn c q < 8, since := s.cycle }
      let cx := s.cx ctx
      let ts := (List.range 32).map fun l => { Thread.none (gs * 32 + l) with
        pc := BitVec.ofNat 64 x.entry, regs := List.replicate 128 LaneReg.zero, preds := List.replicate 12 false,
        trap := TrapRegs.reset cx.trapVec cx.trapSave, st := .run, readySince := s.cycle }
      some ((s.setGroups (s.groups ++ [g])).setThreads (s.threads ++ ts))
def placeGroups (r : LaunchRec) (u ctx c h : Nat) : List Nat → State → Option State
  | [], s => some s
  | gid :: l, s => (s.placeGroup r u ctx c h gid).bind (placeGroups r u ctx c h l)
/-- Fill the side bits of a window (R83). -/
def fillSide (s : State) (c base n : Nat) : State :=
  s.setSpadE (s.spadE.filter fun k => !(spKey c base / 4 ≤ k && k < (spKey c base + n) / 4))
/-- The ways with an uncorrectable error that a new window touches are filled with zero, but for other teams' windows
(R398). -/
def zeroWays (s : State) (c base n : Nat) : State :=
  let ws := (s.co c).badWays.filter fun w => n != 0 && w * 131072 < base + n && base < (w + 1) * 131072
  let held := fun o => (s.teamsOn c).any fun u => u.spBase ≤ o && o < u.spBase + u.spSize
  if ws = [] then s
  else
    (s.setSpad (s.spad.filter fun x => !(spKey c 0 ≤ x.1 && x.1 < spKey (c + 1) 0 &&
      ws.contains ((x.1 - spKey c 0) / 131072) && !held (x.1 - spKey c 0)))).updCore c fun k =>
        { k with badWays := k.badWays.filter fun w => !ws.contains w }
/-- The contexts with teams on a core, each with the cycle since when (R434). -/
def stampUsers (s : State) (c : Nat) : State :=
  let cs := (s.teamsOn c).foldl (fun l u => if l.contains u.ctx then l else l ++ [u.ctx]) []
  s.updCore c fun k => { k with users := cs.map fun x => (x, ((k.users.find? fun y => y.1 == x).map (·.2)).getD s.cycle) }
/-- Place the team of a linear index on a core (R200, R203); the start is an acquire at device scope (R138), and empties
the instruction caches of its quadrants (R225). -/
def placeTeam (s : State) (l : Launch) (i c h : Nat) : Option State :=
  let r := l.parsed
  let k := s.co c
  let tiles := (s.freeTiles c).take r.nacc
  if 192 ≤ c || 4 ≤ h || k.gated || k.pendSplit.isSome || (r.split != 0 && k.ways != r.split) ||
     tiles.length < r.nacc then none
  else
    match s.freeWindow c (r.spw * 4096) with
    | none => none
    | some b =>
      let u : Team := { Team.none s.nextId with
        ctx := l.ctx, launch := l.lid, index := i, core := c, quad0 := h, ngrp := r.ngrp, spBase := b,
        spSize := r.spw * 4096, tiles := tiles, nacc := r.nacc, x := i % r.nx, y := i / r.nx % r.ny,
        z := i / r.nx / r.ny, nx := r.nx, ny := r.ny, nz := r.nz, prio := r.prio, sys := r.sys,
        coset := if r.cosched then some (i / r.cset) else none, slots := List.replicate 8 DSlot.zero,
        bars := List.replicate 16 (Bar.start r.ngrp) }
      let quads := fun (q : Nat) => (List.range r.ngrp).any fun g => (h + g) % 4 == q
      let s := s.zeroWays c b (r.spw * 4096)
      ((((((s.setTeams (s.teams ++ [u])).bump).stampUsers c).fillSide c b (r.spw * 4096)).l1Clear c).dropCode c quads |>
        placeGroups r u.uid l.ctx c h (List.range r.ngrp))
def placeTeams (l : Launch) : List (Nat × Nat × Nat) → State → Option State
  | [], s => some s
  | (i, c, h) :: m, s => (s.placeTeam l i c h).bind (placeTeams l m)
/-- A core could hold a team of the record if nothing were resident (R203). -/
def couldHold (s : State) (r : LaunchRec) (c : Nat) : Bool :=
  let k := s.co c
  (r.split == 0 || k.ways == r.split) && r.spw * 4096 ≤ k.ways * 131072
/-- The linear indices placed next: one, or a whole set (R204). -/
def nextTeams (l : Launch) : List Nat :=
  let r := l.parsed
  let n := l.placed.length
  (List.range (min (if r.cosched then r.cset else 1) (r.total - n))).map (n + ·)
/-- Some cores can hold the next teams under the current splits. -/
def placeable (s : State) (l : Launch) : Bool :=
  let r := l.parsed
  let m := (nextTeams l).length
  (List.range 24).any fun k => m ≤ ((List.range 8).filter fun i => s.couldHold r (8 * k + i)).length
/-- A kernel node of the context that was ready before a place in the order, and has not started. -/
def nodeAhead (s : State) (ctx ord : Nat) : Bool :=
  s.cp.graphs.any fun g => g.ctx == ctx && !g.failed && g.nodes.any fun n =>
    bits (leNat n.rec_) 9 8 == 0 && n.st == .waiting && (match n.ready with | some k => k < ord | none => false)
/-- Grids of the context that became ready earlier have begun, or cannot be placed (R221). -/
def mayBegin (s : State) (l : Launch) : Bool :=
  l.placed != [] || (!s.nodeAhead l.ctx l.ord &&
    s.cp.launches.all fun m => l.ord ≤ m.ord || m.ctx != l.ctx || m.placed != [] || !s.placeable m)
def updLaunch (s : State) (lid : Nat) (f : Launch → Launch) : State :=
  s.setCp { s.cp with launches := s.cp.launches.map fun x => if x.lid = lid then f x else x }
/-- Record a grid that no core can hold, once (R203, R221). -/
def reportUnplaceable (s : State) (l : Launch) : State :=
  let s := s.updLaunch l.lid fun x => { x with reported := true }
  match l.origin with
  | .node g n => match s.graph? g with
    | some q => s.journal 4 l.ctx q.queue 0 n q.addr 0
    | none => s
  | .device t a => s.journal 13 l.ctx 0 1 t a (doneAddr l)
/-- All different, and in one cluster. -/
def oneCluster (l : List (Nat × Nat)) : Bool :=
  match l with
  | [] => true
  | (c, _) :: m => m.all fun x => cluster x.1 == cluster c
def distinct : List Nat → Bool
  | [] => true
  | x :: l => !l.contains x && distinct l

/-! ## The end of a team (R104, R192, R201) -/

def teamGroups (s : State) (u : Nat) : List Group := s.groups.filter fun g => g.team == u
/-- All groups ended, engine operations complete, accesses performed, remote stores acknowledged (R192). -/
def teamOver (s : State) (u : Nat) : Bool :=
  (s.teams.any fun x => x.uid == u) && (s.cx (s.tm u).ctx).killing.isNone && ((s.teamGroups u).all fun g => s.live g.gslot == []) &&
  !(s.ops.any fun o => o.team == some u) && !(s.reqs.any fun r => r.team == u) && (s.tm u).outst == 0
/-- Waits of the team, and waits of others on words of its window, end; those are woken (R104). -/
def freeTeamWaits (s : State) (u : Team) : State :=
  let mine := fun gs => s.groups.any fun g => g.team == u.uid && g.gslot == gs
  let own := fun (w : Wait) => match w.who with | .lanes gs _ => mine gs | _ => false
  let inWin := fun (l : Loc) => match l with
    | .spad c o => c == u.core && u.spBase ≤ o && o < u.spBase + u.spSize
    | _ => false
  let s := (s.freeWaits own false).freeParks u.ctx (fun r => mine r.gslot) false
  (s.freeWaits (fun w => inWin w.word) true).freeParks u.ctx (fun r => inWin r.word) true
/-- Remove a team with its groups and threads from its core, and the results that were to come to them (R200). -/
def dropTeam (s : State) (u : Nat) : State :=
  let gone := fun gs => s.groups.any fun g => g.team == u && g.gslot == gs
  let s0 := s.setPend (s.pend.filter fun p => !gone (dstGroup p.dst))
  let s1 := s0.setThreads (s0.threads.filter fun x => !gone (x.slot / 32))
  let s2 := s1.setWakes (s1.wakes.filter fun w => !gone w.gslot)
  let s3 := s2.setCores (s2.cores.map fun c => { c with racq := c.racq.filter fun gs => !gone gs })
  let s4 := s3.setGroups (s3.groups.filter fun g => g.team != u)
  (s4.setTeams (s4.teams.filter fun x => x.uid != u)).stampUsers (s.tm u).core
/-- The launch counts an ended team; one without a DONE word is over with its last team. -/
def teamCounted (s : State) (lid : Nat) : State :=
  let s := s.updLaunch lid fun x => { x with ended := x.ended + 1 }
  match s.launch? lid with
  | some l => if l.ended = l.parsed.total ∧ doneAddr l = 0 then s.launchOver lid 0 else s
  | none => s

/-! ## The active set (R208 to R210) -/

def sameQuad (a b : Nat) : Bool := a / 16 == b / 16
/-- A quadrant admits at most one group per cycle. -/
def admitted (s : State) (gs : Nat) : Bool :=
  s.groups.any fun g => sameQuad g.gslot gs && g.active && g.holdUntil == s.cycle + 8
/-- A pending group with a ready thread, none of its quadrant pending longer. -/
def mayEnter (s : State) (gs : Nat) : Bool :=
  let g := s.gr gs
  (s.groups.any fun x => x.gslot == gs) && !g.active && s.groupReady g && !s.admitted gs &&
  s.groups.all fun x => !sameQuad x.gslot gs || x.active || !s.groupReady x || g.since ≤ x.since
def eligTime (s : State) (g : Group) : Nat := g.eligSince.getD s.cycle
/-- An active group may leave: eligible, and no other eligible one earlier. -/
def mayLeave (s : State) (gs : Nat) : Bool :=
  let g := s.gr gs
  (s.groups.any fun x => x.gslot == gs) && s.eligible g &&
  s.groups.all fun x => !sameQuad x.gslot gs || !s.eligible x || s.eligTime g ≤ s.eligTime x
/-- A group enters the active set, and issues nothing for 8 cycles. -/
def enter (s : State) (gs : Nat) : State :=
  s.updGroup gs fun g => { g with active := true, since := s.cycle, holdUntil := s.cycle + 8 }
def leave (s : State) (gs : Nat) : State :=
  s.updGroup gs fun g => { g with active := false, since := s.cycle, holdUntil := s.cycle + 8, eligSince := none }
/-- The group of the quadrant that has been active longest; of several, the one listed first (R210, log 72). -/
def longestActive (s : State) (gs : Nat) : Option Nat :=
  let l := s.groups.filter fun g => sameQuad g.gslot gs && g.active
  (l.find? fun g => l.all fun x => g.since ≤ x.since).map (·.gslot)

/-! ## Traps that waited (R388, R392) -/

/-- The thread takes its first deferred trap: it is between instructions, or waits where it would issue again. A rest
of R13 runs its time first. -/
def mayDefer (s : State) (t : Nat) : Bool :=
  match (s.th t).st with
  | .run | .conv _ | .proof | .exiting | .feWait | .faultRest _ _ _ => true
  | .feSent r => s.heldReq r
  | _ => false
def takeDeferred (s : State) (t : Nat) : State :=
  match (s.th t).defer with
  | [] => s
  | i :: l =>
    let s := match (s.th t).st with
      | .feSent r => s.cancelHeld fun x => x == r
      | .faultRest _ _ _ => s.dropJoins fun w => w == Who.thread t
      | .feWait => s.leaveWaits t
      | _ => s
    ((s.updThread t fun x => { x with defer := l }).setSt t .run).raiseInfo t { i with epc := (s.th t).pc }

end State

/-! ## Meanings -/

/-- LAUNCH (R219, R220); it acts as if it carried M = 1 (R213). -/
def execLaunch (h : Hdr) (d a : Nat) (s : State) : Out :=
  .next (State.laneOp { h with m := true } ⟨[d], [.g a]⟩ (State.launchBody d a) s)
/-- A trap whose pending results have landed is entered (R388). -/
def execTrapEntry (t : Nat) (s : State) : Out :=
  match (s.th t).st with
  | .trapping i => .next (if s.threadPend t then s else s.takeTrap t i)
  | _ => .next s
/-- A failure found away from the core is taken before the next issue (R392). -/
def execDeferredTrap (t : Nat) (s : State) : Out := .next (if s.mayDefer t then s.takeDeferred t else s)
/-- An eligible active group and a ready pending group change places (R209). -/
def execGroupSwap (out inn : Nat) (s : State) : Out :=
  .next (if State.sameQuad out inn && s.mayLeave out && s.mayEnter inn then (s.leave out).enter inn else s)
/-- A ready pending group enters an active set that is not full (R209). -/
def execGroupAdmit (g : Nat) (s : State) : Out :=
  .next (if s.mayEnter g && decide (s.activeIn (g / 64) (g / 16 % 4) < 8) then s.enter g else s)
/-- A group with 4096 cycles of readiness enters where no active group is eligible (R210). -/
def execGroupForcedEntry (g : Nat) (s : State) : Out :=
  let x := s.gr g
  let due : Bool := match x.readySince with | some c => decide (c + 4096 ≤ s.cycle) | none => false
  match s.longestActive g with
  | some o =>
    .next (if due ∧ s.groupReady x ∧ !x.active ∧ !s.admitted g ∧ 8 ≤ s.activeIn (g / 64) (g / 16 % 4) ∧
        !(s.groups.any fun y => State.sameQuad y.gslot g && s.eligible y) then (s.leave o).enter g
      else s)
  | none => .next s
/-- The first group that waits at RACQ is granted its block (R196). -/
def execRacqGrant (core quad : Nat) (s : State) : Out :=
  match s.racqQueue core quad with
  | gs :: _ =>
    .next (if 64 ≤ s.rowsFree core quad then
      (s.grantExt gs).updCore core fun c => { c with racq := c.racq.filter fun x => x != gs }
    else s)
  | [] => .next s
/-- A sleep is over (R334). -/
def execUsleepEnd (g : Nat) (s : State) : Out :=
  match (s.gr g).wait with
  | .sleep u => .next (if u ≤ s.cycle then s.updGroup g fun x => { x with wait := .none } else s)
  | _ => .next s
/-- A yielding thread is ready again (R325). -/
def execYieldEnd (t : Nat) (s : State) : Out :=
  match (s.th t).st with
  | .yield u m => .next (if u ≤ s.cycle then (s.setSt t .run).restM m t else s)
  | _ => .next s
/-- A team that is over releases its resources (R192). -/
def execTeamEnd (u : Nat) (s : State) : Out :=
  .next (if s.teamOver u then
    ((s.freeTeamWaits (s.tm u)).dropTeam u).teamCounted (s.tm u).launch
  else s)
/-- DONE is written with 1 by the rules of STFS, or its failure is reported (R201, R202). -/
def execLaunchDoneWrite (l : Nat) (s : State) : Out :=
  match s.launch? l with
  | some x =>
    .next (if x.ended = x.parsed.total ∧ State.doneAddr x ≠ 0 ∧ !x.doneSent ∧ !s.joined (.done l) ∧
        (s.cx x.ctx).killing.isNone then
      match s.cpWrite (.done l) x.ctx (State.doneAddr x) (leBytes 4 1) true with
      | (s', .ok false) => s'.launchOver l 0
      | (s', .ok true) => s'.updLaunch l fun y => { y with doneSent := true }
      | (s', .error (.fail c)) => s'.launchOver l c
      | (s', _) => s'
    else s)
  | none => .next s
/-- A ready team or set is placed on cores with room and starts; a grid that no core can hold is recorded (R203). -/
def execTeamPlace (l : Nat) (at_ : List (Nat × Nat)) (s : State) : Out :=
  match s.launch? l with
  | some x =>
    let ix := State.nextTeams x
    .next (if (s.cx x.ctx).killing.isSome ∨ ix = [] then s
      else if at_ = [] then (if !s.placeable x && !x.reported then s.reportUnplaceable x else s)
      else if ix.length = at_.length ∧ State.oneCluster at_ ∧ State.distinct (at_.map (·.1)) ∧ s.mayBegin x then
        match s.placeTeams x (ix.zip at_) with
        | some s' => s'.updLaunch l fun y => { y with placed := y.placed ++ ix }
        | none => s
      else s)
  | none => .next s
/-- A pending split takes effect on a core without resident teams (R42, R83, R340). -/
def execSplitChange (core : Nat) (s : State) : Out :=
  match (s.co core).pendSplit with
  | some p =>
    .next (if s.teamsOn core ≠ [] ∨ (s.saved.any fun v => v.team.core == core) then s
      else
        let lo := State.spKey core (min p (s.co core).ways * 131072)
        let hi := State.spKey (core + 1) 0
        let s1 := s.setSpad (s.spad.filter fun c => c.1 < lo || hi ≤ c.1)
        let s2 := s1.setSpadE (s1.spadE.filter fun k => k < lo / 4 || hi / 4 ≤ k)
        (s2.updCore core fun c => { c with ways := p, pendSplit := none, l1 := c.l1.filter fun l => p ≤ l.way }).journal 6 0 0 p core 0 0)
  | none => .next s

end Sys2Proof.Machine
end

