-- ==== Sys2Proof/Machine/Contexts.lean ====
section
/-! DEFINITION. Whole contexts and cores: pre-emption, switch-out and restore, the end of a kill, fatal records,
flush and drain, bad frames and Starter's zeroing, power gating and the debugger (R104, R149 to R165, R218, R396,
R397, R400, R444, R445). -/

namespace Sys2Proof.Machine
namespace State

/-! ## Stopping teams (R218, R397) -/

def inTeams (s : State) (us : List Nat) (t : Nat) : Bool := us.contains (s.grOf t).team
/-- A waiting form, or an access that rests on a fault, is removed, and a lane woken but not re-issued leaves its entry:
the thread will issue it as a first issue (R100, R104, R159). -/
def unwait (s : State) (t : Nat) : State :=
  let again := fun (s : State) => s.updThread t fun x => { x with st := .run, retry := 0, re := .first }
  match (s.th t).st with
  | .run => if (s.th t).re = .first then s else again (s.leaveWaits t)
  | .feWait | .feRest _ => again (s.leaveWaits t)
  | .slotRest _ => again (s.leaveWaits t)
  | .faultRest _ _ _ => again ((s.leaveWaits t).dropJoins fun w => w == Who.thread t)
  | .feSent r => if s.heldReq r then again (s.cancelHeld fun x => x == r) else s
  | _ => s
/-- An operation that rests on a fault leaves it, and walks again when its team has come back (R159). -/
def pauseOp (now : Nat) (o : Op) : Op :=
  { o with rbuf := if o.kind = .peel ∧ o.sub = 0 then [] else o.rbuf,
           st := (match o.st with | .resting _ c => .later now c | x => x),
           spans := o.spans.map fun x => (x.1, match x.2 with | .walking _ _ => .walking none now | y => y) }
def pauseOps (s : State) (us : List Nat) : State :=
  let mine := fun (o : Op) => us.contains (o.team.getD engTeam)
  let ids := (s.ops.filter mine).map (·.id)
  (s.dropJoins fun w => match w with | .op i => ids.contains i | _ => false).setOps
    (s.ops.map fun o => if mine o then pauseOp s.cycle o else o)
/-- Stop the teams: nothing of theirs issues, waits are removed, write-combining entries are sent. -/
def stopTeams (s : State) (us : List Nat) : State :=
  let s1 := s.setTeams (s.teams.map fun u => if us.contains u.uid then { u with ending := true } else u)
  let s2 := s1.threads.foldl (fun s x => if s.inTeams us x.slot then s.unwait x.slot else s) s1
  (s2.pauseOps us).sendOpen fun e => us.contains e.team
/-- The thread stands at an instruction boundary. -/
def atBoundary (x : Thread) : Bool :=
  match x.st with
  | .run | .ended | .conv _ | .yield _ _ => true
  | _ => false
def spanActive : SpanSt → Bool | .claimed _ => true | .scored _ _ => true | _ => false
/-- What is in progress for the teams has completed or paused (R397). -/
def teamsDrained (s : State) (us : List Nat) : Bool :=
  (s.threads.all fun x => !s.inTeams us x.slot || atBoundary x) &&
  (s.groups.all fun g => !us.contains g.team || (!g.proof && !s.groupPend g.gslot)) &&
  !(s.reqs.any fun r => us.contains r.team) && (s.teams.all fun u => !us.contains u.uid || u.outst == 0) &&
  s.ops.all fun o => !us.contains (o.team.getD engTeam) ||
    (!(o.kind == .mma && o.st == .running) && !(o.kind == .peel && o.st == .running && o.sub != 0) &&
      !s.outstanding o.id && !(o.spans.any fun x => spanActive x.2))
/-- Cells of a key range. -/
def cellsIn (lo hi : Nat) (l : List Host.Cell) : List Host.Cell := l.filter fun c => lo ≤ c.1 && c.1 < hi
def tileCells (u : Team) (l : List Host.Cell) : List Host.Cell :=
  l.filter fun c => u.tiles.any fun i => accKey u.core i 0 ≤ c.1 && c.1 < accKey u.core (i + 1) 0
/-- A context without a resident team holds no entry in any core or Peel engine (R153). -/
def forgetCtx (s : State) (ctx : Nat) : State :=
  if s.teams.any fun u => u.ctx == ctx then s
  else (s.setTlb (s.tlb.filter fun e => e.ctx != ctx || e.unit == .remote)).setWalks (s.walks.filter fun w => w.ctx != ctx)
/-- Core c's part of a context's switch area: its address and size (R432). -/
def swArea (s : State) (ctx c : Nat) : Nat := (s.cx ctx).swBase + 3 * 2 ^ 20 * c
def swBytes : Nat := 3 * 2 ^ 20
/-- The save is written to the switch area, in the command processor's own format (R397, R432, log 59). -/
def writeSave (s : State) (ctx c : Nat) : State :=
  let s := (s.look (s.swArea ctx c) swBytes true).clearMarks (s.swArea ctx c) swBytes
  (s.setMem (Memory.setMany s.mem (s.swArea ctx c) ((Config.swImage s.nextId).take swBytes))).bump
/-- Save a team and free its place (R397). -/
def saveTeam (s : State) (u : Nat) : State :=
  let x := s.tm u
  let lo := spKey x.core x.spBase
  let hi := lo + x.spSize
  let v : Saved :=
    { team := { x with ending := false }, groups := s.teamGroups u,
      threads := s.threads.filter fun t => (s.grOf t.slot).team == u,
      sp := cellsIn lo hi s.spad, spEmpty := s.spadE.filter fun k => lo / 4 ≤ k && k < hi / 4,
      acc := tileCells x s.acc, at_ := s.cycle }
  (((s.setSaved (s.saved ++ [v])).dropTeam u).forgetCtx x.ctx).writeSave x.ctx x.core
/-- Switch teams out: stop them, and save them once they are drained. -/
def switchOut (s : State) (us : List Nat) : State :=
  let s' := s.stopTeams us
  if s'.teamsDrained us then us.foldl saveTeam s' else s'
/-- The team with the others of its co-scheduled set (R204). -/
def setOfTeam (s : State) (u : Nat) : List Nat :=
  let x := s.tm u
  if !(s.teams.any fun v => v.uid == u) then []
  else if x.coset.isNone then [u]
  else (s.teams.filter fun v => v.launch == x.launch && v.coset == x.coset).map (·.uid)

/-! ## Time-sharing (R434) -/

def prioOn (s : State) (ctx c : Nat) : Nat := ((s.teamsOn c).filter fun u => u.ctx == ctx).foldl (fun n u => max n u.prio) 0
/-- The context's teams have held the core for the quantum: CP_QUANT microseconds of 940 cycles. -/
def heldLong (s : State) (ctx c : Nat) : Bool :=
  (s.co c).users.any fun x => x.1 == ctx && x.2 + 940 * s.cp.quant ≤ s.cycle
/-- Some other context waits for the core: a saved team of its, or a grid with a team that the core could hold and has
no room for. -/
def coreWanted (s : State) (ctx c : Nat) : Bool :=
  (s.saved.any fun v => v.team.ctx != ctx && v.team.core == c && (s.cx v.team.ctx).killing.isNone) ||
  s.cp.launches.any fun l => l.ctx != ctx && s.ctxLives l.ctx && s.couldHold l.parsed c &&
    (nextTeams l).any fun i => (List.range 4).all fun h => (s.placeTeam l i c h).isNone
/-- Who is switched out for a core: a context whose quantum is over, none of a lower class beside it. -/
def quantumOver (s : State) (ctx : Nat) : Bool :=
  (List.range 192).any fun c => s.heldLong ctx c && s.coreWanted ctx c &&
    (s.co c).users.all fun x => x.1 == ctx || !s.heldLong x.1 c || s.prioOn ctx c ≤ s.prioOn x.1 c
/-- A switch-out of the context has begun. -/
def switching (s : State) (ctx : Nat) : Bool :=
  (s.teams.any fun u => u.ctx == ctx) && s.teams.all fun u => u.ctx != ctx || u.ending

/-! ## Restore (R218) -/

/-- The place that the team left is free. -/
def placeFree (s : State) (v : Saved) : Bool :=
  let u := v.team
  !(s.co u.core).gated &&
  (v.groups.all fun g => !(s.groups.any fun x => x.gslot == g.gslot)) &&
  ((List.range 4).all fun q =>
    (v.groups.filter fun g => g.gslot / 16 % 4 == q).foldl (fun n g => n + g.base + (if g.ext then 64 else 0)) 0 ≤
      s.rowsFree u.core q) &&
  (s.teamsOn u.core).all fun x =>
    (x.spSize == 0 || u.spSize == 0 || x.spBase + x.spSize ≤ u.spBase || u.spBase + u.spSize ≤ x.spBase) &&
    x.tiles.all fun i => !u.tiles.contains i
/-- Cells put back where a range of keys was cleared. -/
def putCells (l : List Host.Cell) (m : List Host.Cell) : List Host.Cell := l.foldl (fun m c => Memory.set m c.1 c.2) m
def restoreTeam (s : State) (v : Saved) : State :=
  let u := v.team
  let lo := spKey u.core u.spBase
  let hi := lo + u.spSize
  let s1 := ((s.setSaved (s.saved.filter fun x => x.team.uid != u.uid)).setTeams (s.teams ++ [u])).stampUsers u.core
  let s2 := s1.setSpad (putCells v.sp (s1.spad.filter fun c => !(lo ≤ c.1 && c.1 < hi)))
  let s3 := s2.setSpadE (v.spEmpty.foldl (fun l k => insertNat k l) (s2.spadE.filter fun k => !(lo / 4 ≤ k && k < hi / 4)))
  let s4 := s3.setAcc (putCells v.acc (s3.acc.filter fun c => !(tileCells u [c] == [c])))
  let s5 := v.groups.foldl (fun s g =>
    let act := s.activeIn (g.gslot / 64) (g.gslot / 16 % 4) < 8 &&
      v.threads.any fun t => t.slot / 32 == g.gslot && t.st != .ended
    let w := match g.wait with | .sleep e => GWait.sleep (e + (s.cycle - v.at_)) | w => w
    let s := s.setGroups (s.groups ++ [{ g with
      active := act, since := s.cycle, holdUntil := 0, eligSince := none, readySince := none, wait := w }])
    if g.wait = .racq then s.updCore u.core fun c => { c with racq := s.insRacq g.gslot c.racq } else s) s4
  (s5.setThreads (s5.threads ++ v.threads.map fun t => { t with readySince := s5.cycle, clockHi := none })).settleAcqs
/-- Sets of saved teams: each alone, or its co-scheduled set. -/
def savedMates (s : State) (v : Saved) : List Saved :=
  if v.team.coset.isNone then [v]
  else s.saved.filter fun x => x.team.launch == v.team.launch && x.team.coset == v.team.coset
/-- Restore what of a context finds its places free; a save with an uncorrectable error kills it (R399). -/
def restoreCtx (s : State) (ctx : Nat) : State :=
  (s.saved.filter fun v => v.team.ctx == ctx).foldl (fun s v =>
    if (s.saved.any fun x => x.team.uid == v.team.uid) && (s.savedMates v).all (s.placeFree ·) then
      match (s.savedMates v).flatMap fun x => s.uesIn (s.swArea ctx x.team.core) swBytes with
      | [] => (s.savedMates v).foldl restoreTeam s
      | l => (s.queueAll l).kill ctx .dataue (.node 0 0) 0 0 (s.swArea ctx v.team.core)
    else s) s

/-! ## Flush and drain (R147 to R153, R339) -/

def targetUnits : TlbTarget → TlbUnit → Bool
  | .core c, .instr k _ => c == k
  | .core c, .data k _ => c == k
  | .core c, .core k => c == k
  | .peel c, .peel k => c == k
  | .remote, .remote => true
  | _, _ => false
/-- A target forgets the context. The walk cache of a core serves its Peel engine too, so either target's acknowledgement drops it (R147, R151). -/
def tlbForget (s : State) (ctx : Nat) (t : TlbTarget) : State :=
  (s.setTlb (s.tlb.filter fun e => !(e.ctx == ctx && targetUnits t e.unit))).setWalks
    (s.walks.filter fun w => !(w.ctx == ctx && (t == .core w.core || t == .peel w.core)))
/-- Accesses and spans of the context that hold a translation of an epoch before e. -/
def oldAccess (s : State) (ctx e : Nat) : Bool :=
  (s.reqs.any fun r => r.ctx == ctx && r.epoch < e && !r.done &&
    (match r.loc with | .remote _ _ => false | _ => true)) ||
  s.ops.any fun o => o.ctx == ctx && o.spans.any fun x => match x.2 with
    | .claimed k => k < e
    | .scored k _ => k < e
    | _ => false
/-- The groups that a test picks acquire at device scope, a switched-out one once it is back (R339). -/
def acquireGroups (s : State) (mine : Group → Bool) : State :=
  let go := fun (g : Group) => if mine g then s.startAcq g.gslot g else g
  let cores := ((s.groups ++ (s.saved.map (·.groups)).flatten).filter mine).map fun g => g.gslot / 64
  ((cores.foldl askOthers s).setGroups (s.groups.map go)).setSaved
    (s.saved.map fun v => { v with groups := v.groups.map go }) |>.settleAcqs
/-- Groups whose drain is through go on; the drain ends with an acquire of their threads. -/
def drainDone (s : State) (ctx : Nat) : State :=
  let acked := (s.cx ctx).acked
  s.acquireGroups fun g => match g.wait with | .drain c e => c == ctx && e ≤ acked | _ => false
def drainWanted (s : State) (ctx : Nat) : Option Nat :=
  let es := (s.groups ++ (s.saved.map (·.groups)).flatten).filterMap fun g => match g.wait with
    | .drain c e => if c = ctx ∧ e ≤ (s.cx ctx).acked then some e else none
    | _ => none
  match es with
  | [] => none
  | e :: l => some (l.foldl max e)
/-- Waits of the context end with spurious wakes; waits held at other packages are cancelled (R91, R103). -/
def drainFree (s : State) (ctx : Nat) : State :=
  let mine := fun (i : Nat) => s.reqs.any fun r => r.id == i && r.ctx == ctx && s.heldReq i
  let s1 := (s.drainWaits ctx).cancelHeld mine
  s1.setThreads (s1.threads.map fun x => match x.st with
    | .feSent r => if mine r then { x with st := .run, re := .woken 0 false } else x
    | _ => x)
/-- Empty the TLBs of a core. -/
def tlbEmpty (s : State) (c : Nat) : State :=
  (s.setTlb (s.tlb.filter fun e => !(targetUnits (.core c) e.unit || targetUnits (.peel c) e.unit))).setWalks
    (s.walks.filter fun w => w.core != c)

/-! ## The end of a kill (R396, R445) -/

/-- Everything issued for the context has been performed, acknowledged or given up, and the flush is through. -/
def killSettled (s : State) (ctx : Nat) : Bool :=
  let c := s.cx ctx
  c.killing.isSome && c.unacked == [] && !(s.reqs.any fun r => r.ctx == ctx) && !(s.ops.any fun o => o.ctx == ctx) &&
  !(s.fab.wc.any fun e => e.ctx == ctx && e.sent) && !(s.fab.ual.any fun u => u.ctx == ctx) &&
  !(s.fab.pairs.any fun p => p.out.any fun e => e.ctx == ctx)
/-- The queues of the context are disabled, its graphs report, its launches and teams go. -/
def killEnds (s : State) (ctx : Nat) : State :=
  let gs := s.cp.graphs.filter fun g => g.ctx == ctx
  let s := ((List.range 64).filter fun q => (s.queue q).ctx == ctx).foldl queueOff s
  let s1 := s.setCp { s.cp with
    rbuf := s.cp.rbuf.filter (fun x => s.ctxOfWho x.1 != ctx)
    queues := s.cp.queues.map fun q => if q.ctx = ctx then { q with ents := [] } else q,
    graphs := s.cp.graphs.filter (fun g => g.ctx != ctx), launches := s.cp.launches.filter (fun l => l.ctx != ctx) }
  let s2 := gs.foldl (fun s g => s.journal 1 ctx g.queue 3 0 g.token 0) s1
  let s3 := (s2.teams.filter fun u => u.ctx == ctx).foldl (fun s u => (s.freeTeamWaits u).dropTeam u.uid) s2
  let s4 := s3.setSaved (s3.saved.filter fun v => v.team.ctx != ctx)
  s4.updWc fun l => l.filter fun e => e.ctx != ctx
/-- The id is free again; a KILL command is done; nobody waits for its flush any more. -/
def freeCtx (s : State) (ctx : Nat) : State :=
  let s1 := s.setCtxs (s.ctxs.filter fun c => c.id != ctx)
  let s2 := s1.setGroups (s1.groups.map fun g => match g.wait with
    | .flush c _ => if c = ctx then { g with wait := .none } else g
    | _ => g) |>.acquireGroups fun g => match g.wait with | .drain c _ => c == ctx | _ => false
  s2.setCp { s2.cp with stat := if s2.cp.stat = 0 ∧ s2.cp.statId = ctx then 1 else s2.cp.stat }

end State

/-! ## Meanings -/

/-- The command processor pre-empts a team, with its co-scheduled set (R397, R204). -/
def execTeamPreempt (u : Nat) (s : State) : Out := .next (s.switchOut (s.setOfTeam u))
/-- The teams of a context whose quantum is over are stopped, drained and saved (R397, R434). -/
def execContextSwitchOut (ctx : Nat) (s : State) : Out :=
  .next (if s.switching ctx || s.quantumOver ctx then s.switchOut ((s.teams.filter fun u => u.ctx == ctx).map (·.uid))
    else s)
/-- Switched-out teams return to the places they left (R218). -/
def execContextRestore (ctx : Nat) (s : State) : Out :=
  .next (if (s.cx ctx).killing.isNone then s.restoreCtx ctx else s)
/-- The last part of a kill (R396, R445). -/
def execKillComplete (ctx : Nat) (s : State) : Out :=
  .next (if s.killSettled ctx then
    let s' := s.killEnds ctx
    if s'.cp.held = [] then s'.freeCtx ctx else s'
  else s)
/-- A shared unit fails: a FATAL record, and every context stops (R400, R444). -/
def execFatal (code : Nat) (s : State) : Out :=
  .next (if s.dev.fatal ∨ code = 0 ∨ 4 < code then s
    else
      let s1 := (s.journal 10 0 0 code 0 0 0).setDev { s.dev with fatal := true }
      s1.ctxs.foldl (fun s c => if c.killing.isSome then s else s.stopCtx c.id .host) s1)
/-- A target invalidates a context's entries and acknowledges (R151). -/
def execTlbInvalidate (ctx : Nat) (tgt : TlbTarget) (s : State) : Out :=
  .next (if (s.cx ctx).unacked.contains tgt then
    (s.tlbForget ctx tgt).updCtx ctx fun c => { c with unacked := c.unacked.filter fun t => t != tgt }
  else s)
/-- Every target has acknowledged: the flush is complete (R151, R154, R339). -/
def execFlushComplete (ctx : Nat) (s : State) : Out :=
  let c := s.cx ctx
  .next (if s.hasCtx ctx ∧ c.unacked = [] ∧ c.acked < c.epoch then
    let s1 := s.updCtx ctx fun c => { c with acked := c.epoch }
    let go := fun (g : Group) => match g.wait with
      | .flush x e => if x = ctx ∧ e ≤ c.epoch then { g with wait := .none } else g
      | _ => g
    (s1.setGroups (s1.groups.map go)).setSaved (s1.saved.map fun v => { v with groups := v.groups.map go })
  else s)
/-- A drain completes (R152, R153, R339). -/
def execDrainComplete (ctx : Nat) (s : State) : Out :=
  match s.drainWanted ctx with
  | some e => .next (if s.oldAccess ctx e then s else (s.drainFree ctx).drainDone ctx)
  | none => .next s
/-- Starter zeroes the frame at ZERO and fills its bits (R87, R161). -/
def execStarterZero (sz : PageSize) (s : State) : Out :=
  let i := State.poolIdx sz
  let p := s.flt.pools.getD i ⟨0, 0, 0, 0, 0⟩
  .next (if !State.poolOn p ∨ p.zero = p.put then s
    else
      let s1 := s.setFlt { s.flt with pools := setAt s.flt.pools i { p with zero := (p.zero + 1) % 2 ^ 32 } }
      let s2 := s1.readSlots p p.zero 1
      match s.slotFrame p sz p.zero with
      | some f => s2.zeroFrame f (State.pageBytes sz)
      | none => s2)
/-- The translation agent takes an entry of a base die's fault-address queue (R165). -/
def execBadpageDrain (stack : Nat) (s : State) : Out :=
  match s.flt.faq.getD stack [] with
  | [] => .next s
  | (f, ue) :: l =>
    let list := s.flt.bad.getD stack []
    let full := decide (512 ≤ list.length) && !list.contains f
    let bad := if full ∨ list.contains f then s.flt.bad else setAt s.flt.bad stack (list ++ [f])
    .next ((s.setFlt { s.flt with faq := setAt s.flt.faq stack l, bad := bad }).fltRecord 6 0 false false false ue full
      0 f 0)
/-- An idle core is power-gated, which empties its TLBs (R153). -/
def execCorePowerGate (c : Nat) (s : State) : Out :=
  .next (if s.teamsOn c ≠ [] ∨ (s.reqs.any fun r => r.core == c) ∨ (s.ops.any fun o => o.core == c && o.kind != .slice) then s
    else (s.tlbEmpty c).updCore c fun k => { k with gated := true, l1 := [] })
/-- A gated core wakes with its TLBs empty (R153). -/
def execCoreWake (c : Nat) (s : State) : Out :=
  .next (if (s.co c).gated then (s.tlbEmpty c).updCore c fun k => { k with gated := false } else s)
/-- A debugger halts a core: issue stops (R153). -/
def execDebuggerHalt (c : Nat) (s : State) : Out := .next (s.updCore c fun k => { k with halted := true })
/-- A debugger lets a core issue again (R153). -/
def execDebuggerResume (c : Nat) (s : State) : Out := .next (s.updCore c fun k => { k with halted := false })

end Sys2Proof.Machine
end

