-- ==== Sys2Proof/Machine/CommandProcessor.lean ====
section
/-! DEFINITION. The command processor: contexts, queues and doorbells, task graphs and their nodes, the journal's
snapshot and the host's CONS writes (R430 to R443, R489). -/

namespace Sys2Proof.Machine
namespace State

/-! ## Contexts (R430, R432, R433) -/

/-- The context that a record creates. Bits that TRAP_VEC and TRAP_SAVE hold at zero are dropped (R390). -/
def ctxOf (id v : Nat) : Ctx :=
  { Ctx.none id with
    nalias := bitOf v 64, period := bits v 103 96, budget := bits v 143 128, root := bits v 243 204 * 4096,
    localBase := bits v 319 256, parkCnt := bits v 331 320, parkBase := bits v 383 332 * 4096,
    trapVec := BitVec.ofNat 64 (bits v 447 392 * 256), trapSave := BitVec.ofNat 64 (bits v 511 460 * 4096),
    swBase := bits v 575 512 }
/-- The bytes of a context record; none where it does not lie in usable HBM4 or holds an uncorrectable error (R432). -/
def ctxRecord (s : State) (pa : Nat) : State × Option (List Byte) :=
  if Config.hbmTop < pa + 128 then (s, none) else s.readPhys pa 128
/-- Why a CREATE is refused: the WHY of R430, 0 where it is not (R432, R433). -/
def createWhy (s : State) (id : Nat) (b : Option (List Byte)) : Nat :=
  let v := leNat (b.getD [])
  let sw := bits v 575 512
  let lb := bits v 319 256
  let root := bits v 255 192
  let park := bits v 383 320
  if s.hasCtx id then 1
  else if bits v 7 0 ≠ 0x58 ∨ bits v 63 12 ≠ 0 ∨ bits v 191 160 ≠ 0 ∨
      bits v 1023 576 ≠ 0 ∨ lb % 4096 ≠ 0 ∨ sw % 2 ^ 21 ≠ 0 ∨ Config.hbmTop < sw + 576 * 2 ^ 20 then 2
  else if bits v 11 8 ≠ id then 4
  else if bits v 95 65 ≠ 0 ∨ bits v 127 104 ≠ 0 ∨ bits v 159 144 ≠ 0 ∨ root % 4096 ≠ 0 ∨ 2 ^ 52 ≤ root ∨
      Config.hbmTop < root + 4096 ∨ 2 ^ 54 ≤ park ∨
      (bits park 53 48 ≠ s.fab.node ∧ bits park 53 48 ≠ 0x3F) ∨ 2 ^ 36 < bits park 47 12 + bits park 11 0 then 3
  else 0
/-- Carry out a CREATE: the context, CTX_STAT, the journal record. -/
def create (s : State) (id pa : Nat) : State :=
  let (s, b) := s.ctxRecord pa
  let why := s.createWhy id b
  let s' := s.setCp { s.cp with stat := if why = 0 then 1 else 2, statId := id, why := why }
  if why = 0 then (s'.setCtxs (s'.ctxs ++ [ctxOf id (leNat (b.getD []))])).journal 7 id 0 0 0 0 0
  else s'.journal 8 id 0 why 0 0 0
/-- The value that CTX_CMD holds after a command. -/
def cmdVal (op id rpa : Nat) : Nat := op + 16 * id + 4096 * rpa

/-! ## Queues (R435 to R437) -/

/-- A malformed entry disables its queue (R437). -/
def queueErr (s : State) (q : Nat) : State := (s.queueOff q).journal 9 (s.queue q).ctx q 0 0 0 0
def entryOk (e : Nat) : Bool := bits e 7 0 ≤ 1 && bits e 31 9 == 0 && bits e 63 44 == 0 && bits e 511 192 == 0
def popEntry (s : State) (q : Nat) : State := (s.updQueue q fun x => { x with ents := x.ents.drop 1 }).cpForget (.queue q)
/-- The entry that a queue serves next: its queue is enabled, its context resident, no submission rests. -/
def nextEntry (s : State) (q : Nat) : Option Nat :=
  let x := s.queue q
  if x.en && s.ctxLives x.ctx && !s.joined (.queue q) && !s.dev.fatal then x.ents.head?.map leNat else none
/-- The command ring's place in physical memory (R435). -/
def ringPlace (base n : Nat) : Bool :=
  base + 64 * n ≤ Config.hbmTop || (Config.hostBase ≤ base && base + 64 * n ≤ Config.physTop)

/-- An entry of a command ring: its bytes, none yet, or the error that its read met (R436, R484, log 61). -/
def ringEntry (s : State) (q pa : Nat) : State × Option (Option (List Byte)) :=
  if Config.hostBase ≤ pa then
    match s.cpAway (.ring q) (s.queue q).ctx (.host pa) pa 64 with
    | (s, some []) => (s, some none)
    | (s, some b) => (s.cpForget (.ring q), some (some b))
    | (s, none) => (s, none)
  else
    match s.readPhys pa 64 with
    | (s, b) => (s, some b)
/-- Read the entries from HEAD on in order (R436); `k` bounds their number. -/
def readRing (q : Nat) : Nat → State → State
  | 0, s => s
  | k + 1, s =>
    let x := s.queue q
    if x.head = x.bell then s.updQueue q fun y => { y with door := false }
    else
      match s.ringEntry q (x.base + 64 * (x.head % 2 ^ x.qlog)) with
      | (s, some (some b)) =>
        readRing q k (s.updQueue q fun y => { y with head := (y.head + 1) % 2 ^ 32, ents := y.ents ++ [b] })
      | (s, some none) => s.queueErr q
      | (s, none) => s
/-- The doorbell is read once the journal has room, as an acquire at system scope (R139, R436, R442). -/
def serveDoor (s : State) (q : Nat) : State :=
  let x := s.queue q
  let n := (x.bell + 2 ^ 32 - x.head) % 2 ^ 32
  if !x.door ∨ !x.en ∨ !s.cpRoom then s
  else if 2 ^ x.qlog < n then s.queueErr q
  else readRing q (n + 1) s

/-! ## Graphs (R438 to R440) -/

def nodeType (v : Nat) : Nat := bits v 9 8
def nodeArg (v : Nat) : Nat := bits v 255 192
def nodeSuc (v : Nat) : List Nat := (List.range (bits v 35 32)).map fun k => bits v (79 + 16 * k) (64 + 16 * k)
/-- A node's 64 bytes are in order (R438). -/
def nodeOk (v n : Nat) : Bool :=
  bits v 7 0 == 0x4E && bits v 15 10 == 0 && bits v 63 42 == 0 && bits v 511 320 == 0 && bits v 35 32 ≤ 8 &&
  (nodeSuc v).all (fun i => i < n) &&
  ((List.range 8).all fun k => k < bits v 35 32 || bits v (79 + 16 * k) (64 + 16 * k) == 0) &&
  nodeArg v % (if nodeType v = 3 then 8 else 128) == 0
/-- Read and check the nodes from i on: the nodes, or the first that fails. -/
def readNodes (q ctx a n : Nat) : Nat → State → Nat → List Node → EngR (Except Nat (List Node))
  | 0, s, _, l => (s, .ok (.ok l))
  | k + 1, s, i, l =>
    match s.cpRead (.queue q) ctx ((a + 64 * i) % 2 ^ 64) 64 with
    | (s, .ok b) =>
      if nodeOk (leNat b) n then readNodes q ctx a n k s (i + 1) (l ++ [⟨b, bits (leNat b) 31 16, .waiting, none⟩])
      else (s, .ok (.error i))
    | (s, .error (.fail _)) => (s, .ok (.error i))
    | (s, .error e) => (s, .error e)
def malformed (s : State) (q i a : Nat) : State := s.journal 3 (s.queue q).ctx q 0 i a 0
/-- Roots of a serial graph wait until the earlier graphs of its queue are over (R437). -/
def graphTurn (s : State) (x : Graph) : Bool :=
  !x.ser || !(s.cp.graphs.any fun h => h.queue == x.queue && h.gid < x.gid)
/-- Nodes that have become ready take the next places in the order of readiness (R221, R439). -/
def markReady (s : State) : State :=
  s.cp.graphs.foldl (fun s g =>
    if s.graphTurn g then
      (List.range g.nodes.length).foldl (fun s n =>
        match g.nodes[n]? with
        | some y =>
          if y.ready.isNone && y.st == .waiting && y.cnt == 0 then
            (s.setCp { s.cp with graphs := s.cp.graphs.map fun x =>
              if x.gid = g.gid then { x with nodes := updAt x.nodes n fun z => { z with ready := some s.nextId } } else x }).bump
          else s
        | none => s) s
    else s) s
/-- Serve a SUBMIT entry. -/
def submitEntry (s : State) (q e : Nat) : State :=
  let ctx := (s.queue q).ctx
  let n := bits e 43 32
  let a := bits e 127 64
  if n = 0 ∨ a % 64 ≠ 0 then (s.popEntry q).malformed q 0 a
  else
    match readNodes q ctx a n n s 0 [] with
    | (s', .ok (.ok l)) =>
      let g : Graph := { gid := s'.nextId, queue := q, ctx := ctx, addr := a, token := bits e 191 128, ser := bitOf e 8,
                         failed := false, nodes := l }
      (((s'.popEntry q).setCp { (s'.popEntry q).cp with graphs := s'.cp.graphs ++ [g] }).bump).markReady
    | (s', .ok (.error i)) => (s'.popEntry q).malformed q i a
    | (s', .error _) => s'
def updNode (s : State) (g n : Nat) (f : Node → Node) : State :=
  s.setCp { s.cp with graphs := s.cp.graphs.map fun x =>
    if x.gid = g then { x with nodes := updAt x.nodes n f } else x }
def nodeRuns (s : State) (g n : Nat) : State := (s.updNode g n fun x => { x with st := .running }).cpForget (.node g n)
def runningNodes (s : State) : Nat :=
  s.cp.graphs.foldl (fun k g => k + (g.nodes.filter fun x => x.st == .running).length) 0
/-- The node of a type that may start: its graph, its bytes (R437, R439, R440, R442). -/
def startable (s : State) (g n ty : Nat) : Option (Graph × Nat) :=
  match s.graph? g with
  | none => none
  | some x =>
    match x.nodes[n]? with
    | none => none
    | some y =>
      let v := leNat y.rec_
      if nodeType v = ty && y.st == .waiting && y.cnt == 0 && !x.failed && s.graphTurn x && s.ctxLives x.ctx && s.cpRoom &&
         !s.joined (.node g n) && s.runningNodes < 1024 then some (x, v) else none
/-- The issue of a PEEL or SLICE block by a node: what came of it (R489). -/
def nodeIssue {α : Type} (s : State) (g n ctx : Nat) (r : State × Iss α) (go : State → α → State) : State :=
  match r with
  | (s', .ok x) => go s' x
  | (s', .stay) => s'
  | (s', .bad) => s'.nodeEnds g n 0x11
  | (s', .trap c _) => s'.nodeEnds g n c.code
  | (s', .fault ea ty) => s'.restWho (.node g n) ctx ea ty false false
  | (s', .ue pa ea) => s'.cpUe (.node g n) ctx [pa] ea
/-- A SIGNAL node has written its value: its vector is raised if asked (R440). -/
def signalDone (s : State) (g n : Nat) : State :=
  match (s.graph? g).bind fun x => x.nodes[n]? with
  | some y =>
    let v := leNat y.rec_
    let s' := s.nodeEnds g n 0
    if nodeType v = 3 ∧ bitOf v 41 then s'.setCp { s'.cp with irqs := s'.cp.irqs ++ [bits v 40 36] } else s'
  | none => s
/-- One decrement of a successor's counter (R439). -/
def lowerNode (s : State) (g m : Nat) : State :=
  match s.graph? g with
  | none => s
  | some x =>
    match x.nodes[m]? with
    | some y =>
      if y.st = .waiting ∧ y.cnt ≠ 0 then s.updNode g m fun z => { z with cnt := z.cnt - 1 }
      else s.journal 11 x.ctx x.queue 0 0 x.addr 0
    | none => s
def nodeBusy : NodeSt → Bool | .running => true | .done => true | .failed => true | _ => false
/-- The graph ends: all nodes are over, or it has failed and none runs any more (R440). -/
def graphEnds (s : State) (g : Nat) : State :=
  match s.graph? g with
  | none => s
  | some x =>
    if (x.nodes.all fun y => y.st == .finished) || (x.failed && !(x.nodes.any fun y => nodeBusy y.st)) then
      let s' := (s.setCp { s.cp with graphs := s.cp.graphs.filter fun y => y.gid != g }).dropJoins fun w =>
        match w with | .node h _ => h == g | _ => false
      (s'.journal 1 x.ctx x.queue (b2n x.failed) 0 x.token 0).markReady
    else s

/-! ## Snapshot (R443) -/

def snapshot (s : State) : State :=
  let qs := (List.range 64).filter fun q => (s.queue q).en
  let s1 := qs.foldl (fun s q => s.journal 12 (s.queue q).ctx q (s.queue q).head 0 0
    (s.cp.graphs.filter fun g => g.queue == q).length) s
  (((s1.ctxs.filter fun c => c.killing.isNone).map (·.id)).foldl (fun s c => s.journal 7 c 0 0 0 0 0) s1)

end State

/-! ## Meanings -/

/-- CTX_CMD CREATE (R430, R433); it waits while the journal has no room (R442). -/
def execCtxCreate (id rpa : Nat) (s : State) : Out :=
  let c := State.cmdVal 1 id rpa
  .next (if !s.dev.ready ∨ s.dev.fatal ∨ 16 ≤ id then s
    else if s.cp.stat = 0 then (if s.cp.cmd = c && s.cpRoom then s.create id (rpa * 4096) else s)
    else
      let s' := s.setCp { s.cp with cmd := c, stat := 0, statId := id, why := 0 }
      if s.cpRoom then s'.create id (rpa * 4096) else s')
/-- CTX_CMD KILL (R395, R433); done at once for an id not in use. RPA is what the host wrote last (R430, log 23). -/
def execCtxKill (id : Nat) (s : State) : Out :=
  .next (if !s.dev.ready ∨ s.dev.fatal ∨ 16 ≤ id ∨ s.cp.stat = 0 then s
    else
      let s' := s.setCp { s.cp with cmd := State.cmdVal 2 id (s.cp.cmd / 4096), stat := if s.hasCtx id then 0 else 1, statId := id, why := 0 }
      s'.kill id .host (.queue 0) 0 0 0)
/-- A doorbell is written: the command processor reads it and the new entries as soon as it may (R436, R442). -/
def execDoorbell (q tail : Nat) (s : State) : Out :=
  let x := s.queue q
  .next (if 64 ≤ q ∨ !x.en ∨ tail = x.bell ∨ 2 ^ 32 ≤ tail ∨ !s.dev.ready then s
    else (s.updQueue q fun y => { y with bell := tail, door := true }).serveDoor q)
/-- A NOP entry is consumed; a malformed entry disables the queue (R437). -/
def execQueueNop (q : Nat) (s : State) : Out :=
  match s.nextEntry q with
  | some e =>
    .next (if !State.entryOk e then (s.popEntry q).queueErr q
      else if bits e 7 0 = 0 then s.popEntry q else s)
  | none => .next s
/-- A SUBMIT entry reads and checks its graph, or rests (R438); a malformed entry disables the queue (R437). -/
def execSubmit (q : Nat) (s : State) : Out :=
  match s.nextEntry q with
  | some e =>
    .next (if !State.entryOk e then (s.popEntry q).queueErr q
      else if bits e 7 0 = 1 then s.submitEntry q e else s)
  | none => .next s
/-- A KERNEL node launches its record (R440, R489). -/
def execKernelNodeStart (g n : Nat) (s : State) : Out :=
  match s.startable g n 0 with
  | some (x, v) =>
    let a := State.nodeArg v
    .next (if a < 2 ^ 54 ∧ !s.isLocal x.ctx a then s.nodeEnds g n 0x11
      else match s.cpRead (.node g n) x.ctx a 128 with
        | (s', .ok b) =>
          if (LaunchRec.ofNat (leNat b)).ok (leNat b) s'.fab.node then
            (s'.addLaunch x.ctx (.node g n) b (x.nodes[n]?.bind (·.ready))).nodeRuns g n
          else s'.nodeEnds g n 0x11
        | (s', .error (.fail c)) => s'.nodeEnds g n c
        | (s', .error _) => s')
  | none => .next s
/-- A PEEL node issues its block on a core (R440, R489). -/
def execPeelNodeStart (g n core : Nat) (s : State) : Out :=
  match s.startable g n 1 with
  | some (x, v) =>
    let a := State.nodeArg v
    let e : IssEnv := { who := .node g n, core := core, quad := 0, ctx := x.ctx, team := none }
    .next (if 192 ≤ core ∨ (s.co core).gated then s
      else s.nodeIssue g n x.ctx (s.peelAccept e a) fun s' c =>
        if s'.issueFull .peel e ⟨0, none⟩ c.locks.length then s
        else (s'.pcopyIssue e ⟨0, none⟩ a c).nodeRuns g n)
  | none => .next s
/-- A SLICE node issues its block on the Slicers (R440, R489). -/
def execSliceNodeStart (g n : Nat) (s : State) : Out :=
  match s.startable g n 2 with
  | some (x, v) =>
    let e : IssEnv := { who := .node g n, core := State.cpCore, quad := 0, ctx := x.ctx, team := none }
    .next (s.nodeIssue g n x.ctx (s.sliceIssue e ⟨0, none⟩ (State.nodeArg v)) fun s' _ => s'.nodeRuns g n)
  | none => .next s
/-- A SIGNAL node writes SIGVAL and raises its vector (R440, R489). -/
def execSignalNodeStart (g n : Nat) (s : State) : Out :=
  match s.startable g n 3 with
  | some (x, v) =>
    .next (match s.cpWrite (.node g n) x.ctx (State.nodeArg v) (leBytes 8 (bits v 319 256)) false with
      | (s', .ok false) => s'.signalDone g n
      | (s', .ok true) => s'.nodeRuns g n
      | (s', .error (.fail c)) => s'.nodeEnds g n c
      | (s', .error _) => s')
  | none => .next s
/-- A completed node lowers its successors' counters; a failed one writes NODE_FAIL (R439, R440). -/
def execNodeComplete (g n : Nat) (s : State) : Out :=
  match s.graph? g with
  | none => .next s
  | some x =>
    match x.nodes[n]? with
    | none => .next s
    | some y =>
      let passed := fun (s : State) => s.updNode g n fun z => { z with st := .finished }
      .next (if !s.ctxLives x.ctx then s
        else match y.st with
          | .done => ((State.nodeSuc (leNat y.rec_)).foldl (fun s m => s.lowerNode g m) (passed s)).markReady.graphEnds g
          | .failed =>
            let s1 := (passed s).journal 2 x.ctx x.queue y.cnt n x.addr 0
            (s1.setCp { s1.cp with graphs := s1.cp.graphs.map fun z =>
              if z.gid = g then { z with failed := true } else z }).graphEnds g
          | _ => s)
/-- DEV_STAT.SNAP (R429, R443); it has no effect while records of an earlier request are held. -/
def execSnap (s : State) : Out :=
  .next (if !s.dev.ready ∨ s.cp.snap ≠ 0 then s
    else s.snapshot.setCp { s.snapshot.cp with snap := s.snapshot.cp.held.length })
/-- The host takes records out of a ring (R431): held ones are written. -/
def execRingConsWrite (r : RingId) (v : Nat) (s : State) : Out :=
  .next (if s.dev.bootfail then s else match r with
    | .jnl => (s.setCp { s.cp with jnl := s.cp.jnl.setCons v }).drainJnl s.cp.held.length
    | .flt => (s.setFlt { s.flt with ring := s.flt.ring.setCons v }).drainFlt s.flt.held.length
    | .evt => (s.setFab { s.fab with ring := s.fab.ring.setCons v }).drainEvt s.fab.held.length)

end Sys2Proof.Machine
end

