-- ==== Sys2Proof/Machine/Crypto.lean ====
section
/-! DEFINITION. SHA-512 and Ed25519, which the boot checks and the attestation of R446 to R448 name (FIPS 180-4 and
RFC 8032; log 15). -/

namespace Sys2Proof.Machine.Crypto

/-! ## SHA-512 -/

/-- The k-th root of n, rounded down, where it has at most b bits above r. -/
def root (k n : Nat) : Nat → Nat → Nat
  | 0, r => r
  | b + 1, r => root k n b (if (r + 2 ^ b) ^ k ≤ n then r + 2 ^ b else r)
def isPrime (n : Nat) : Bool := 2 ≤ n && (List.range n).all fun d => d < 2 || n % d != 0
def primes : List Nat := (List.range 410).filter isPrime
/-- First 64 bits of the fractional parts of cube roots of the first 80 primes. -/
def shaK : List DWord := primes.map fun p => BitVec.ofNat 64 (root 3 (p * 2 ^ 192) 67 0)
/-- First 64 bits of the fractional parts of square roots of the first 8 primes. -/
def shaInit : List DWord := (primes.take 8).map fun p => BitVec.ofNat 64 (root 2 (p * 2 ^ 128) 67 0)
def big (x : DWord) (a b c : Nat) : DWord := x.rotateRight a ^^^ x.rotateRight b ^^^ x.rotateRight c
def small (x : DWord) (a b c : Nat) : DWord := x.rotateRight a ^^^ x.rotateRight b ^^^ x >>> c
/-- The message schedule, latest word first, continued by n words. -/
def schedule : Nat → List DWord → List DWord
  | 0, w => w
  | n + 1, w => schedule n ((small (w.getD 1 0) 19 61 6 + w.getD 6 0 + small (w.getD 14 0) 1 8 7 + w.getD 15 0) :: w)
def round (v : List DWord) (kw : DWord × DWord) : List DWord :=
  match v with
  | [a, b, c, d, e, f, g, h] =>
    let t1 := h + big e 14 18 41 + (e &&& f ^^^ ~~~e &&& g) + kw.1 + kw.2
    [t1 + (big a 28 34 39 + (a &&& b ^^^ a &&& c ^^^ b &&& c)), a, b, c, d + t1, e, f, g]
  | _ => v
/-- A number in n bytes, the most significant first. -/
def beBytes (n v : Nat) : List Byte := (leBytes n v).reverse
def beWord (b : List Byte) : DWord := BitVec.ofNat 64 (leNat b.reverse)
def block (h : List DWord) (b : List Byte) : List DWord :=
  let w := schedule 64 ((List.range 16).map fun i => beWord ((b.drop (8 * i)).take 8)).reverse
  List.zipWith (· + ·) h ((shaK.zip w.reverse).foldl round h)
def blocks : Nat → List DWord → List Byte → List DWord
  | 0, h, _ => h
  | n + 1, h, b => blocks n (block h (b.take 128)) (b.drop 128)
/-- SHA-512 of a byte string, 64 bytes. -/
def sha512 (m : List Byte) : List Byte :=
  let p := m ++ 0x80 :: List.replicate ((239 - m.length % 128) % 128) 0 ++ beBytes 16 (8 * m.length)
  (blocks (p.length / 128) shaInit p).flatMap fun x => beBytes 8 x.toNat

/-! ## Ed25519 -/

def fp : Nat := 2 ^ 255 - 19
def order : Nat := 2 ^ 252 + 27742317777372353535851937790883648493
/-- b to the power of e's low n bits, modulo m. -/
def powMod (m : Nat) : Nat → Nat → Nat → Nat
  | 0, _, _ => 1 % m
  | n + 1, b, e => let r := powMod m n (b * b % m) (e / 2); if e % 2 = 1 then b * r % m else r
def inv (x : Nat) : Nat := powMod fp 255 x (fp - 2)
def sub (x y : Nat) : Nat := (x + (fp - y % fp)) % fp
def curveD : Nat := sub 0 (121665 * inv 121666 % fp)
/-- A point in extended coordinates X, Y, Z, T. -/
structure Pt where
  x : Nat
  y : Nat
  z : Nat
  t : Nat
  deriving DecidableEq, Repr

namespace Pt
def zero : Pt := ⟨0, 1, 1, 0⟩
def add (p q : Pt) : Pt :=
  let a := sub p.y p.x * sub q.y q.x % fp
  let b := (p.y + p.x) * (q.y + q.x) % fp
  let c := 2 * p.t * q.t * curveD % fp
  let d := 2 * p.z * q.z % fp
  let e := sub b a
  let f := sub d c
  let g := (d + c) % fp
  let h := (b + a) % fp
  ⟨e * f % fp, g * h % fp, f * g % fp, e * h % fp⟩
/-- n's low k bits times a point. -/
def mul : Nat → Nat → Pt → Pt
  | 0, _, _ => zero
  | k + 1, n, p => let r := mul k (n / 2) (p.add p); if n % 2 = 1 then p.add r else r
def same (p q : Pt) : Bool := p.x * q.z % fp == q.x * p.z % fp && p.y * q.z % fp == q.y * p.z % fp
/-- The x of a curve point with this y and sign; none where there is no such point. -/
def recoverX (y sign : Nat) : Option Nat :=
  let u := sub (y * y) 1
  let v := (curveD * y * y + 1) % fp
  let r := u * powMod fp 2 v 3 * powMod fp 253 (u * powMod fp 3 v 7) ((fp - 5) / 8) % fp
  let x := if v * r * r % fp = u % fp then some r
    else if v * r * r % fp = sub 0 u then some (r * powMod fp 255 2 ((fp - 1) / 4) % fp) else none
  match x with
  | none => none
  | some x => if x = 0 ∧ sign = 1 then none else some (if x % 2 = sign then x else sub 0 x)
def encode (p : Pt) : List Byte :=
  let z := inv p.z
  leBytes 32 (p.y * z % fp + p.x * z % fp % 2 * 2 ^ 255)
def decode (b : List Byte) : Option Pt :=
  let y := leNat b % 2 ^ 255
  if b.length ≠ 32 ∨ fp ≤ y then none
  else (recoverX y (leNat b / 2 ^ 255)).map fun x => ⟨x, y, 1, x * y % fp⟩
/-- The base point: y is 4/5, x even. -/
def base : Pt :=
  let y := 4 * inv 5 % fp
  let x := (recoverX y 0).getD 0
  ⟨x, y, 1, x * y % fp⟩
end Pt

def scalar (b : List Byte) : Nat := leNat (sha512 b) % order
/-- The Ed25519 signature of a message under a 32-byte private key. -/
def sign (key msg : List Byte) : List Byte :=
  let h := sha512 key
  let a := leNat (h.take 32) % 2 ^ 254 / 8 * 8 + 2 ^ 254
  let pub := (Pt.mul 255 a Pt.base).encode
  let r := scalar (h.drop 32 ++ msg)
  let rp := (Pt.mul 255 r Pt.base).encode
  rp ++ leBytes 32 ((r + scalar (rp ++ pub ++ msg) * a) % order)
/-- A signature verifies under a public key. -/
def verify (pub msg sig : List Byte) : Bool :=
  let s := leNat (sig.drop 32)
  match Pt.decode pub, Pt.decode (sig.take 32) with
  | some a, some r =>
    sig.length == 64 && s < order &&
    (Pt.mul 258 (8 * s) Pt.base).same ((Pt.mul 4 8 r).add (Pt.mul 4 8 (Pt.mul 255 (scalar (sig.take 32 ++ pub ++ msg)) a)))
  | _, _ => false

end Sys2Proof.Machine.Crypto
end

