-- ==== Sys2Proof/Machine/Platform.lean ====
section
/-! DEFINITION. The management space as the host reads and writes it, attestation, boot, power and temperature, and
PCIe completions (R428 to R431, R435, R446 to R451, R55, R161, R484). -/

namespace Sys2Proof.Machine
namespace State

/-- Bits [31:0] and [63:32] of a 64-bit register replaced by a 4-byte write. -/
def putLo (old v : Nat) : Nat := old / 2 ^ 32 * 2 ^ 32 + v % 2 ^ 32
def putHi (old v : Nat) : Nat := old % 2 ^ 32 + v % 2 ^ 32 * 2 ^ 32

/-! ## Writes of registers without behaviour of their own (R428) -/

/-- A queue descriptor (R435): while EN is 1 a write changes only EN. -/
def writeQueue (s : State) (q w v : Nat) : State :=
  let x := s.queue q
  if w = 2 then
    if x.en then (if bitOf v 4 then s else s.queueOff q)
    else
      let ql := bits v 9 5
      let ok := 4 ≤ ql ∧ ql ≤ 16 ∧ x.base % 4096 = 0 ∧ ringPlace x.base (2 ^ ql)
      s.updQueue q fun y => { y with ctx := bits v 3 0, qlog := ql, en := bitOf v 4 && decide ok }
  else if x.en then s
  else if w = 0 then s.updQueue q fun y => { y with base := putLo y.base v }
  else if w = 1 then s.updQueue q fun y => { y with base := putHi y.base v }
  else s
/-- A word of a ring block (R431): BASE, then LOG2; CONS has an event of its own. -/
def writeRing (r : Ring) (w v : Nat) : Ring :=
  if w = 0 then { r with base := putLo r.base (v / 4096 * 4096) }
  else if w = 1 then { r with base := putHi r.base v }
  else if w = 2 then { r with log2 := v % 32 }
  else r
/-- A word of a Starter pool block (R161). -/
def writePool (p : Pool) (w v : Nat) : Pool :=
  if w = 0 then { p with base := putLo p.base (v / 4096 * 4096) }
  else if w = 1 then { p with base := putHi p.base (v % 2 ^ 20) }
  else if w = 2 then { p with loglen := v % 256 }
  else if w = 3 then { p with put := v % 2 ^ 32 }
  else p
/-- Eight UAL_ROUTE entries; a value of 10 to 15 leaves its entry (R426). -/
def writeRoute (s : State) (k v : Nat) : State :=
  s.setFab { s.fab with route := (s.fab.route.zipIdx).map fun x =>
    let e := v / 2 ^ (4 * (x.2 % 8)) % 16
    if x.2 / 8 = k ∧ e < 10 then e else x.1 }
def clamp (lo hi v : Nat) : Nat := max lo (min hi v)
/-- CTX_CMD without a command: its upper half, or a lower half with OP 0; OP 3 changes nothing, and CREATE and KILL are
events of their own (R430, log 23). -/
def writeCmd (s : State) (hi : Bool) (v : Nat) : State :=
  if s.cp.stat = 0 then s
  else if hi then s.setCp { s.cp with cmd := putHi s.cp.cmd v }
  else if v % 4 = 0 then s.setCp { s.cp with cmd := putLo s.cp.cmd (v / 4096 * 4096 + bits v 7 4 * 16) }
  else s
/-- A naturally aligned 4-byte write of the management space. After a failed boot only DEV and attestation answer. -/
def mgmtWrite4 (s : State) (off v : Nat) : State :=
  let v := v % 2 ^ 32
  if s.dev.bootfail ∧ 0x1000 ≤ off ∧ off / 4096 ≠ 8 then s
  else if off = 0x10 then (if v % 65536 = 0 then s else s.setCp { s.cp with quant := v % 65536 })
  else if off = 0x18 then s.writeCmd false v
  else if off = 0x1C then s.writeCmd true v
  else if 0x1000 ≤ off ∧ off < 0x2000 then s.writeQueue ((off - 0x1000) / 64) (off % 64 / 4) v
  else if 0x3000 ≤ off ∧ off < 0x3020 then
    (s.setCp { s.cp with jnl := writeRing s.cp.jnl (off % 32 / 4) v }).drainJnl s.cp.held.length
  else if 0x3100 ≤ off ∧ off < 0x3120 then
    (s.setFlt { s.flt with ring := writeRing s.flt.ring (off % 32 / 4) v }).drainFlt s.flt.held.length
  else if 0x3200 ≤ off ∧ off < 0x3260 then
    s.setFlt { s.flt with pools := updAt s.flt.pools ((off - 0x3200) / 32) fun p => writePool p (off % 32 / 4) v }
  else if 0x41C0 ≤ off ∧ off < 0x41E0 then
    (s.setFab { s.fab with ring := writeRing s.fab.ring (off % 32 / 4) v }).drainEvt s.fab.held.length
  else if 0x5000 ≤ off ∧ off < 0x5020 then s.writeRoute ((off - 0x5000) / 4) v
  else if 0x5100 ≤ off ∧ off < 0x5200 then
    s.setFab { s.fab with ualId := setAt s.fab.ualId ((off - 0x5100) / 4) v }
  else if 0x6000 ≤ off ∧ off < 0x6020 then
    s.setDev { s.dev with scrub := updAt s.dev.scrub ((off - 0x6000) / 4) fun x =>
      { x with en := bitOf v 0, passH := bits v 15 8 } }
  else if off = 0x7000 then s.setDev { s.dev with pwrLim := clamp 300 1800 (v % 4096) }
  else if off = 0x7010 ∨ off = 0x7014 then
    s.setDev { s.dev with ilim := setAt s.dev.ilim ((off - 0x7010) / 4) (clamp 100 1800 (v % 2048)) }
  else if 0x8020 ≤ off ∧ off < 0x8040 then
    let i := (off - 0x8020) / 4
    let old := s.dev.nonce.toNat
    let new := old % 2 ^ (32 * i) + v * 2 ^ (32 * i) + old / 2 ^ (32 * i + 32) * 2 ^ (32 * i + 32)
    s.setDev { s.dev with nonce := BitVec.ofNat 256 new }
  else s
/-- 4- and 8-byte aligned writes; any other has no effect (R428). -/
def mgmtWrite (s : State) (off size v : Nat) : State :=
  if 2 ^ 20 ≤ off ∨ off % size ≠ 0 then s
  else if size = 4 then s.mgmtWrite4 off v
  else if size = 8 ∧ off = 0x18 ∧ v % 4 ≠ 0 then s
  else if size = 8 then (s.mgmtWrite4 off v).mgmtWrite4 (off + 4) (v / 2 ^ 32)
  else s

/-! ## Reads (R428 to R431, R435, R448, R450) -/

def ringWord (r : Ring) (w : Nat) : Nat :=
  match w with
  | 0 => r.base % 2 ^ 32 | 1 => r.base / 2 ^ 32 | 2 => r.log2 | 3 => r.prod | 4 => r.cons | _ => 0
def queueWord (q : Queue) (w : Nat) : Nat :=
  match w with
  | 0 => q.base % 2 ^ 32 | 1 => q.base / 2 ^ 32 | 2 => q.ctx + 16 * b2n q.en + 32 * q.qlog | 3 => q.head | _ => 0
def poolWord (p : Pool) (w : Nat) : Nat :=
  match w with
  | 0 => p.base % 2 ^ 32 | 1 => p.base / 2 ^ 32 | 2 => p.loglen | 3 => p.put | 4 => p.zero | 5 => p.take | _ => 0
/-- DEV_STAT (R429). -/
def devStat (s : State) : Nat :=
  b2n s.dev.ready + 2 * b2n s.dev.bootfail + 4 * b2n s.dev.fatal + 16 * s.dev.bcode + 256 * b2n s.dev.pcap +
    512 * b2n s.dev.tcap
def bitsOfList (l : List Bool) : Nat := (l.zipIdx).foldl (fun n x => n + b2n x.1 * 2 ^ x.2) 0
/-- ROT_CTL (R423). -/
def rotCtl (s : State) : Nat :=
  s.fab.node + 64 * b2n s.fab.en + 128 * s.fab.path + 512 * s.fab.dwait + 4096 * s.fab.age + 2 ^ 20 * s.fab.rtmo +
    2 ^ 24 * s.fab.utmo
/-- Wavelengths of a port's stripe (R401): four for each group. -/
def stripeWidth (x : Port) : Nat := 4 * (x.stripe.filter id).length
def portWord (s : State) (p : Nat) : Nat :=
  match s.fab.ports[p]? with
  | some x => bitsOfList x.live + 16 * stripeWidth x + (if p = 0 then 65536 * s.fab.dropped else 0)
  | none => 0
/-- The 4 bytes at an aligned offset of the management space. -/
def mgmtRead4 (s : State) (off : Nat) : Nat :=
  let at_ := fun (base : Nat) => (off - base) / 4
  if s.dev.bootfail ∧ 0x1000 ≤ off ∧ off / 4096 ≠ 8 then 0
  else if off = 0 then 0x56320A51
  else if off = 0x8 then s.devStat
  else if off = 0x10 then s.cp.quant
  else if off = 0x18 then s.cp.cmd % 2 ^ 32
  else if off = 0x1C then s.cp.cmd / 2 ^ 32
  else if off = 0x20 then s.cp.stat + 16 * s.cp.statId + 256 * s.cp.why
  else if 0x1000 ≤ off ∧ off < 0x2000 then queueWord (s.queue (at_ 0x1000 / 16)) (at_ 0x1000 % 16)
  else if 0x2000 ≤ off ∧ off < 0x2100 then (s.queue (at_ 0x2000)).bell
  else if 0x3000 ≤ off ∧ off < 0x3020 then ringWord s.cp.jnl (at_ 0x3000)
  else if 0x3100 ≤ off ∧ off < 0x3120 then ringWord s.flt.ring (at_ 0x3100)
  else if 0x3200 ≤ off ∧ off < 0x3260 then
    poolWord (s.flt.pools.getD (at_ 0x3200 / 8) ⟨0, 0, 0, 0, 0⟩) (at_ 0x3200 % 8)
  else if 0x4000 ≤ off ∧ off < 0x4100 then
    let e := s.fab.cal.getD (at_ 0x4000) (0x3F, 2)
    e.1 + 64 * e.2
  else if off = 0x4100 then s.rotCtl
  else if 0x4140 ≤ off ∧ off < 0x4160 then s.portWord (at_ 0x4140)
  else if off = 0x4180 then s.fab.cred
  else if off = 0x4184 then s.fab.ovsz
  else if off = 0x4188 then s.fab.ovbase % 2 ^ 32
  else if off = 0x418C then s.fab.ovbase / 2 ^ 32
  else if 0x41C0 ≤ off ∧ off < 0x41E0 then ringWord s.fab.ring (at_ 0x41C0)
  else if 0x5000 ≤ off ∧ off < 0x5020 then
    (((s.fab.route.drop (8 * at_ 0x5000)).take 8).zipIdx).foldl (fun n x => n + x.1 * 2 ^ (4 * x.2)) 0
  else if 0x5100 ≤ off ∧ off < 0x5200 then s.fab.ualId.getD (at_ 0x5100) 0
  else if 0x6000 ≤ off ∧ off < 0x6020 then
    let x := s.dev.scrub.getD (at_ 0x6000) Scrub.reset
    b2n x.en + 256 * x.passH + 65536 * x.cecnt
  else if off = 0x7000 then s.dev.pwrLim
  else if off = 0x7004 then s.dev.pwrWatts + 4096 * s.dev.keep
  else if off = 0x7008 then s.dev.tj + 256 * b2n s.dev.hot
  else if off = 0x7010 ∨ off = 0x7014 then s.dev.ilim.getD (at_ 0x7010) 0
  else if 0x7020 ≤ off ∧ off < 0x7034 then s.dev.rail.getD (at_ 0x7020) 0
  else if off = 0x8000 then 2 * b2n s.dev.attDone + 4 * b2n s.dev.attBusy
  else if 0x8020 ≤ off ∧ off < 0x8040 then s.dev.nonce.toNat / 2 ^ (32 * at_ 0x8020) % 2 ^ 32
  else if 0x8040 ≤ off ∧ off < 0x8080 then s.dev.meas.toNat / 2 ^ (32 * at_ 0x8040) % 2 ^ 32
  else if 0x8080 ≤ off ∧ off < 0x80C0 then s.dev.sig.toNat / 2 ^ (32 * at_ 0x8080) % 2 ^ 32
  else if off = 0x80C0 then Config.certLen.val
  else if 0x8100 ≤ off ∧ off < 0x9000 then leNat ((List.range 4).map fun i =>
    if off - 0x8100 + i < Config.certLen.val then Config.certByte (off - 0x8100 + i) else 0)
  else 0
/-- What the host reads: zero for any access that is not 4 or 8 aligned bytes (R428). -/
def mgmtRead (s : State) (off size : Nat) : Nat :=
  if 2 ^ 20 ≤ off ∨ off % size ≠ 0 then 0
  else if size = 4 then s.mgmtRead4 off
  else if size = 8 then s.mgmtRead4 off + 2 ^ 32 * s.mgmtRead4 (off + 4)
  else 0

/-! ## Boot and power (R446, R449 to R451) -/

/-- The firmware digest: SHA-512 of the image (R446). -/
def imageDigest (i : BootImage) : List Byte := Crypto.sha512 i.bytes
/-- The BCODE of the first boot check that fails, 0 where none does (R429, R446). -/
def bootCode (b : BootIn) : Nat :=
  match b.image with
  | none => 1
  | some i =>
    if Crypto.sha512 i.key ≠ leBytes 64 Config.keyDigest.toNat then 2
    else if !Crypto.verify i.key (imageDigest i) i.sig then 3
    else if i.version < Config.rollback then 4
    else if !b.bringup then 5
    else 0
/-- The machine as reset leaves it, with what outlives a reset: the bad-page lists (R444), memory (the fields whose
Reset is a dash, R11) with its wrong bits, and the model's agenda and names. -/
def cleared (s : State) : State :=
  { State.reset with flt := { State.reset.flt with bad := s.flt.bad }, agenda := s.agenda, nextId := s.nextId,
                     mem := s.mem, ue := s.ue, ce := s.ce }
/-- Without power HBM4 is as at power-on; the host's own memory stays (R451, log 1). -/
def powerLost (s : State) : State :=
  { s.cleared with mem := s.mem.filter fun c => Config.hostBase ≤ c.1, ue := [], ce := [],
                   dev := { s.cleared.dev with power := false } }
/-- The measurement: SHA-512 over the firmware digest, the rollback counter and the fuses (R447, R448). -/
def measure (s : State) : BitVec 512 :=
  BitVec.ofNat 512 (leNat (Crypto.sha512 (leBytes 64 s.dev.fw.toNat ++ Config.rollbackBytes ++ Config.fuseConfig)))
/-- The signature over SHA-512 of the nonce taken, a measurement and DEV_ID (R447, R448). -/
def attestSig (s : State) (m : BitVec 512) : BitVec 512 :=
  BitVec.ofNat 512 (leNat (Crypto.sign (leBytes 32 Config.identityKey.toNat)
    (Crypto.sha512 (leBytes 32 s.dev.nonceTaken.toNat ++ leBytes 64 m.toNat ++ leBytes 4 0x56320A51))))
/-- The end of a request: MEAS and SIG, BUSY clears and DONE sets (R448). -/
def attest (s : State) : State :=
  if s.dev.attBusy then
    s.setDev { s.dev with meas := s.measure, sig := s.attestSig s.measure, attBusy := false, attDone := true }
  else s
/-- The status of a completion that failed: an atomic that the completer refuses raises PROT (R307), any other
access meets an uncorrectable error (R399, R484). -/
def refused (op : MemOp) : Nat := match op with | .atom _ _ _ _ => 0x07 | .cas _ _ => 0x07 | _ => 0x20
/-- A host-window request ends: performed, or with the status of its failure. -/
def hostEnds (s : State) (r : Nat) (fails : Option (MemOp → Nat)) : State :=
  match s.req? r with
  | some q =>
    match q.loc with
    | .host _ =>
      if !s.reqReady q then s else match fails with | none => s.homeReq q | some f => s.reqFails q (f q.op)
    | _ => s
  | none => s

end State

/-! ## Meanings -/

/-- A host write of a management register (R428). -/
def execMgmtRegWrite (off size v : Nat) (s : State) : Out := .next (s.mgmtWrite off size v)
/-- ATT_CTL.GO (R447, R448): a request begins with NONCE as it stands; one in progress goes on. -/
def execAttGo (s : State) : Out :=
  .next (if s.dev.attBusy then s
    else s.setDev { s.dev with nonceTaken := s.dev.nonce, attDone := false, attBusy := true })
/-- A package reset and the boot that follows (R444, R446). With BOOTFAIL the firmware digest counts as zero (R448). -/
def execPackageReset (b : BootIn) (s : State) : Out :=
  let s' := s.cleared
  let c := State.bootCode b
  let fw := match b.image with | some i => if c = 0 then leNat (State.imageDigest i) else 0 | none => 0
  .next (s'.setDev { s'.dev with ready := c == 0, bootfail := c != 0, bcode := c, fw := BitVec.ofNat 512 fw })
/-- At 115 °C the rails go and every context is lost (R451). -/
def execThermtrip (s : State) : Out := .next (if s.dev.tj < 115 then s else s.powerLost)
/-- Power, current and temperature are judged; the clock skips edges where a limit would be exceeded (R449 to R451). -/
def execClockThrottle (m : PowerMeas) (s : State) : Out :=
  let tooMuch := s.dev.pwrLim < m.demand ∨ s.dev.ilim.getD 0 0 < m.peaks.getD 0 0 ∨ s.dev.ilim.getD 1 0 < m.peaks.getD 1 0
  let hot := decide (105 < m.tj)
  let keep := if tooMuch ∨ hot then State.clamp 8 15 m.keep else 16
  .next (s.setDev { s.dev with
    pwrWatts := m.watts % 4096, tj := m.tj % 256, hot := hot, tcap := hot, pcap := decide tooMuch, keep := keep,
    rail := (List.range 5).map fun i => m.rails.getD i 0 % 65536 })
/-- A PCIe completion arrives for a host-window access (R484). -/
def execHostCompletion (r : Nat) (ok : Bool) (s : State) : Out := .next (s.hostEnds r (if ok then none else some State.refused))
/-- The completion timeout of a host-window access expires (R484, R399). -/
def execHostCompletionTimeout (r : Nat) (s : State) : Out := .next (s.hostEnds r (some fun _ => 0x20))

end Sys2Proof.Machine
end

