-- ==== Sys2Proof/Machine/Incoming.lean ====
section
/-! DEFINITION. Requests of other packages at their target, and answers to this package's own requests at their
origin, over the rotor ports and over UALink alike (R90, R91, R98, R135, R150, R392, R410, R414, R415, R421, R425,
R427). -/

namespace Sys2Proof.Machine
namespace State

/-! ## Bodies (R410) -/

def inLine (va n : Nat) : Bool := va < 2 ^ 48 && 1 ≤ n && va % 128 + n ≤ 128
/-- The forms that a payload can hold (R410): a body of no such form is no flit. -/
def Body.ok : Body → Bool
  | .idle => true
  | .write va m d => va < 2 ^ 48 && va % 128 == 0 && m < 2 ^ 128 && d.length == 128
  | .opw va op n _ => inLine va n && writes op && !returns op &&
      (match op with | .store _ => false | .wline _ _ => false | _ => true)
  | .read va n op _ _ _ => inLine va n && (match op with | .load => true | .planeRead _ _ _ => true | .pgreq => true | _ => false)
  | .rmw va n op _ _ => inLine va n && (match op with | .atom _ _ _ r => r | .cas _ _ => true | _ => false)
  | .fereq va op _ _ => inLine va 4 && (match op with
      | .fe f _ _ _ _ => (match f with | .stfs | .fesetFull | .fesetEmpty => false | _ => true)
      | _ => false)
  | .cancel e => e < 2 ^ 24
  | .reply e st d => e < 2 ^ 24 && st < 256 && d.length ≤ 128
  | .ack l => l.length ≤ 44
  | .rfail l => l.length ≤ 44
  | .unknown ty => 9 ≤ ty && ty ≤ 15

/-- An access of another package as its body states it. -/
structure Ask where
  va : Nat
  size : Nat
  op : MemOp
  ord : Ord
  scope : Scope
  nf : Bool
  deriving DecidableEq, Repr
def askOf : Body → Option Ask
  | .write va m d => some ⟨va, d.length, .wline m d, .plain, .thr, false⟩
  | .opw va op n sc => some ⟨va, n, op, .plain, sc, false⟩
  | .read va n op o sc nf => some ⟨va, n, op, o, sc, nf⟩
  | .rmw va n op o sc => some ⟨va, n, op, o, sc, false⟩
  | .fereq va op q sc => some ⟨va, 4, op, if q then .seq else .plain, sc, false⟩
  | _ => none

/-! ## At the target (R90, R91, R150, R414, R415) -/

/-- The access needs full/empty bits (R87, R106). -/
def opFe : MemOp → Bool
  | .fe _ _ _ _ _ => true
  | .engWord _ _ b => b.isSome
  | .planeWrite _ _ _ _ full => full
  | _ => false
/-- PCIe carries the operation (R307). -/
def hostCan : MemOp → Bool
  | .atom op ty _ _ => hostAtom op ty
  | _ => true
/-- What translating the addresses of a request comes to. -/
inductive InRes
  | ok (l : List (Loc × Leaf))
  | status (code va : Nat)
  | rest (ea typ : Nat)
  deriving DecidableEq, Repr
/-- Translate by the remote TLB: first failure decides, with the address that met it. -/
def inXlate (s : State) (ctx : Nat) (op : MemOp) : List Nat → State × InRes
  | [] => (s, .ok [])
  | va :: l =>
    match s.translate [.remote] none ctx va ⟨writes op, false⟩ with
    | (s, .ok pa leaf) =>
      let host := Config.hostBase ≤ pa
      if opFe op && (host || !leaf.feb) then (s, .status 0x0A va)
      else if host && !hostCan op then (s, .status 0x07 va)
      else match inXlate s ctx op l with
        | (s, .ok r) => (s, .ok ((if host then .host pa else .mem pa, leaf) :: r))
        | r => r
    | (s, .xlate) => (s, .status 0x06 va)
    | (s, .prot) => (s, .status 0x07 va)
    | (s, .fault ty) => (s, .rest (s.ownEa va) ty)
    | (s, .ue pa) => (s.queueBad pa true, .status 0x20 va)
/-- Earlier requests of one origin on one line go first (R137). -/
def sameOrigin : Who → Who → Bool
  | .remote n _, .remote m _ => n == m
  | .ual p _, .ual q _ => p == q
  | _, _ => false
def behindSame (s : State) (i : Incoming) : Bool :=
  s.fab.incoming.any fun j => sameOrigin j.who i.who && shareLine j.body i.body
/-- An LDNF that finds no resident page, and a PGREQ: they rest on nothing (R163, R164). -/
def neverRests (s : State) (i : Incoming) (a : Ask) : Bool :=
  a.op == .pgreq || a.nf && (s.peek [.remote] none i.ctx a.va .rd).isNone
def keepIncoming (s : State) (i : Incoming) : State := s.setFab { s.fab with incoming := s.fab.incoming ++ [i] }
/-- The access goes to its home, where HOME_ACCESS or a PCIe completion performs it. -/
def inReq (s : State) (i : Incoming) (a : Ask) (l : Loc) (leaf : Leaf) (parts : List Part) : State :=
  let r : Req := { id := s.nextId, who := i.who, core := remoteCore, ctx := i.ctx, team := engTeam,
                   epoch := s.unitEpoch i.ctx .remote, op := a.op, loc := l, size := a.size, ord := a.ord, scope := a.scope,
                   hint := .none, cp := leaf.cp, pl := leaf.pl, feb := leaf.feb, va := s.ownEa a.va, form := .none,
                   fill := [], parts := parts, after := [], co := s.nextId, bytes := a.size, merged := false,
                   nrel := false, xw := false, done := false, since := s.cycle }
  (s.setReqs (s.reqs ++ [r])).bump
/-- Serve a request of another package; the reply to a plane read that fails says which address did (log 31): answered at once, at its home, or kept while it rests on a fault. -/
def serve (s : State) (i : Incoming) : State :=
  match askOf i.body with
  | none => s
  | some a =>
    if s.joined i.who || s.behindSame i && !s.neverRests i a then s.keepIncoming i
    else if !s.hasCtx i.ctx then
      s.answer i.who a.op (if a.nf || a.op == .pgreq then 0 else 0x06) []
    else if (s.cx i.ctx).killing.isSome then s.answer i.who a.op 0x13 []
    else if a.op = .pgreq then
      match s.pageRequest i.ctx (s.ownEa a.va) with
      | (s', some pa) => (s'.queueBad pa true).answer i.who a.op 0x20 []
      | (s', none) => s'.answer i.who a.op 0 []
    else if a.nf && (s.peek [.remote] none i.ctx a.va .rd).isNone then
      match s.peekUe [.remote] none i.ctx a.va with
      | some pa => (s.queueBad pa true).answer i.who a.op 0x20 []
      | none => s.answer i.who a.op 0 []
    else
      match s.inXlate i.ctx a.op (a.va :: planeVas a.op) with
      | (s', .ok ((l, f) :: ps)) => s'.inReq i a l f (ps.map partOf)
      | (s', .ok []) => s'
      | (s', .status c va) => s'.answer i.who a.op c (if planeVas a.op = [] then [] else leBytes 8 va)
      | (s', .rest ea ty) => (s'.restWho i.who i.ctx ea ty (writes a.op) (isFe a.op)).keepIncoming i
/-- Every kept request is tried again, in order. -/
def retryIncoming (s : State) : State := s.fab.incoming.foldl serve (s.setFab { s.fab with incoming := [] })
/-- A cancel (R91): the entry, or the request that has not come so far, is freed and answered without data. -/
def freeRemote (s : State) (w : Who) (x : Waiter) : State :=
  let held := s.waits.any fun e => e.who == x
  let pending := (s.reqs.any fun r => r.who == w) || s.fab.incoming.any fun i => i.who == w
  let s1 := (s.setWaits (s.waits.filter fun e => e.who != x)).setReqs (s.reqs.filter fun r => r.who != w)
  let s2 := s1.dropJoins fun j => j == w
  let s3 := s2.setFab { s2.fab with incoming := s2.fab.incoming.filter fun i => i.who != w }
  if held || pending then
    match w with
    | .remote n e => s3.sendReply n e 0 []
    | .ual p t => s3.sendUal p t 0 []
    | _ => s3
  else s3

/-! ## At the origin (R16, R91, R98, R392, R415, R421) -/

def hdrM : Instr → Bool
  | .pld h _ _ _ _ _ _ => h.m
  | .prf h _ _ _ _ _ _ _ => h.m
  | .pst h _ _ _ _ => h.m
  | _ => false
/-- A plane record has come from its package: the instruction goes on with it (R312). -/
def recordComes (s : State) (r : Req) (i : Instr) (t len : Nat) (b : List Byte) : State :=
  if (s.th t).st ≠ .recWait r.id then s
  else
    let s := (s.setSt t .run).setCur { core := coreOf t, quad := quadOf t, threads := [t], pc := (s.th t).pc, len := len, last := [], busy := [] }
    (s.planeGo t r.va i b).restM (hdrM i) t
/-- A failed test at the target (R100, R101): `give` frees the request where the budget is used up. -/
def feFails (s : State) (r : Req) (t len : Nat) (f : FeForm) (rest give : State → State) : State :=
  let n := (s.th t).retry + b2n (s.feCounts t f)
  let budget := (s.cx r.ctx).budget
  if s.feCounts t f && f != .waita && budget != 0 && budget ≤ n then
    (give s).raiseInfo t ⟨.feretry, (s.th t).pc, BitVec.ofNat 64 r.va, len == 8, false, false, false⟩
  else (rest s).updThread t fun x => { x with retry := n }
/-- The target holds the wait (R91). A request that is gone, and a thread that no longer waits, cancel it. -/
def heldNow (s : State) (rid : Nat) : State :=
  match s.req? rid with
  | none => s.cancelHeld (· == rid)
  | some r =>
    match r.form, r.op with
    | .fe t _ len _, .fe f _ _ _ _ =>
      let cancel := fun (s : State) => s.cancelHeld fun i => i == rid
      if (s.th t).st ≠ .feSent rid then cancel s
      else s.feFails r t len f (fun s => s) cancel
    | _, _ => s
/-- Bytes and success of a reply without error (R300, R310). -/
def replyOk (f : LdForm) (b : List Byte) : Bool :=
  match f with
  | .nf _ _ _ _ => b != []
  | .feTry _ _ _ => b != []
  | _ => true
/-- The address that a failed plane access reports: the plane's where the reply says so (R312, log 31). -/
def failedVa (op : MemOp) (va : Nat) (b : List Byte) : Nat :=
  if planeVas op ≠ [] && b.length == 8 then bits va 53 48 * 2 ^ 48 + vaOf (leNat b) else va
def failedAt (r : Req) (b : List Byte) : Req := { r with va := failedVa r.op r.va b }
/-- The reply to a request arrives: a status other than 0 is reported, 0xFF is not held. A reply without data to a
waiting form is its wake, taken as a real one (R91, R95; log 40). -/
def replied (s : State) (rid status : Nat) (b : List Byte) : State :=
  match s.req? rid with
  | none => s
  | some r =>
    if r.done then (s.dropReq rid).settleFences
    else
      match r.form, r.op with
      | .fe t d? len m, .fe f _ _ _ _ =>
        if (s.th t).st ≠ .feSent rid then (s.dropReq rid).settleFences
        else if status = 0xFF then
          (s.dropReq rid).feFails r t len f
            (fun s => s.updThread t fun x => { x with st := .feRest (s.cycle + 256), re := .retry }) (fun s => s)
        else if status ≠ 0 then s.reqFails r status
        else if b = [] then
          ((s.dropReq rid).updThread t fun x => { x with st := .run, re := .woken 0 (f != .waita) }).settleFences
        else (((s.dropReq rid).l1After r).feProceed t d? len m b).settleFences
      | .planeRec i t len, _ =>
        if status ≠ 0 then s.reqFails r status else ((s.dropReq rid).recordComes r i t len b).settleFences
      | _, _ =>
        if status ≠ 0 then s.reqFails (failedAt r b) status
        else (if replyOk r.form b then s.l1After r else s).reqDone r b (replyOk r.form b)
/-- A write failed at its target: an engine's partial write that met an uncorrectable error kills its context (R399). -/
def writeFails (s : State) (e : Wc) (i : Issuer) (status : Nat) (b : List Byte) : State :=
  let addr := match e.body with | some (.opw _ op _ _) => failedVa op i.addr b | _ => i.addr
  match i.who with
  | .op o => if status = 0x20 then s.kill (s.ctxOfWho i.who) .dataue (.op o) 0 0 addr else s.failWho i.who status addr i.xw
  | w => s.failWho w status addr i.xw
/-- The target has performed a write, or failed it: its entry is free (R415). -/
def acked (s : State) (w status : Nat) (b : List Byte) : State :=
  match s.fab.wc.find? fun e => e.id == w with
  | none => s
  | some e =>
    let s := (s.updWc fun l => l.filter fun x => x.id != w).lower e.team
    let bytes := match e.body with
      | some (.opw _ op _ _) => engBytes op
      | _ => ((List.range 128).filter fun k => bitOf e.mask k).length
    (e.who.foldl (fun s x =>
      if status ≠ 0 then s.writeFails e x status b
      else match x.who with
        | .op o => s.landed o bytes
        | .node g n => s.signalDone g n
        | .done l => s.launchOver l 0
        | _ => s) s).settleFences
/-- What a body was sent for has its answer. -/
def settled (s : State) (wc req : Option Nat) (status : Nat) (b : List Byte) : State :=
  match wc, req with
  | some w, _ => s.acked w status b
  | none, some r => s.replied r status b
  | none, none => s
/-- A request or write is given up: its node is unreachable, or its fabric is off (R421). -/
def gaveUp (s : State) (wc req : Option Nat) : State :=
  match wc, req with
  | some w, _ => match s.fab.wc.find? fun e => e.id == w with | some e => (s.giveUpWc e).settleFences | none => s
  | none, some r => match s.req? r with
    | some q => if q.done then (s.dropReq r).settleFences else s.reqFails q 0x13
    | none => s
  | none, none => s

/-! ## UALink (R425, R427) -/

/-- The response to a carrying write is the answer itself where nothing returns. -/
def ualEnds (b : Body) : Bool := ualNative b || (match b with | .opw _ _ _ _ => true | _ => false)
/-- Requests of one line are sent one after the response to the other: the first of its line is outstanding. -/
def ualFirst (s : State) (u : UalOut) : Bool :=
  !(s.fab.ual.any fun v => v.id < u.id && v.peer == u.peer && (v.line == u.line || shareLine v.body u.body) && !v.carried)
def updUal (s : State) (k : Nat) (f : UalOut → UalOut) : State :=
  s.setFab { s.fab with ual := s.fab.ual.map fun u => if u.id = k then f u else u }
def dropUal (s : State) (k : Nat) : State := s.setFab { s.fab with ual := s.fab.ual.filter fun u => u.id != k }
/-- A response: it answers the request, or says that the write carrying it has landed. -/
def ualAnswer (s : State) (k status : Nat) (b : List Byte) : State :=
  match s.fab.ual.find? fun u => u.id == k with
  | none => s
  | some u =>
    if u.carried || !s.ualFirst u then s
    else if ualEnds u.body || status ≠ 0 then (s.dropUal k).settled u.wc u.req status b
    else s.updUal k fun x => { x with carried := true }
/-- A reply, or the target's word that it holds the wait, comes as a write of the peer. -/
def ualCarried (s : State) (p : Nat) (b : Body) : State :=
  match b with
  | .reply k st d =>
    match s.fab.ual.find? fun u => u.id == k && u.port == p with
    | some u => (s.dropUal k).settled u.wc u.req st d
    | none => s
  | .ack l => l.foldl (fun s x =>
      match s.fab.ual.find? fun u => u.id == x.1 && u.port == p with
      | some u =>
        if x.2 = 0 then
          match u.req with
          | some r => (s.updUal x.1 fun y => { y with held := true, carried := true }).heldNow r
          | none => s
        else (s.dropUal x.1).settled u.wc u.req x.2 []
      | none => s) s
  | _ => s
/-- Bytes of a range that lie in the line of a. -/
def linePieces : Nat → Nat → Nat → Nat → List (Nat × Nat × Nat)
  | 0, _, _, _ => []
  | k + 1, va, n, at_ =>
    if n = 0 then []
    else
      let m := min n (128 - va % 128)
      (va, m, at_) :: linePieces k (va + m) (n - m) (at_ + m)
/-- One line of a write with byte enables. -/
def ualLine (va m at_ mask : Nat) (d : List Byte) : Body :=
  let off := va % 128
  .write (va / 128 * 128) (mask / 2 ^ at_ % 2 ^ m * 2 ^ off)
    (putBytes (List.replicate 128 0) off (((d ++ List.replicate m 0).drop at_).take m))
/-- The unsupported-request response (R425). -/
def ualNo (s : State) (p code : Nat) : State :=
  (s.setFab { s.fab with ualResp := s.fab.ualResp ++ [(p, 2 * s.nextId, .unknown code)] }).bump
/-- A UALink request arrives at a port: performed line by line, or answered as unsupported. -/
def ualReq (s : State) (p : Nat) (q : UalReq) : State :=
  let who := Who.ual p (2 * s.nextId)
  match q with
  | .read va n ctx =>
    if n = 0 ∨ 256 < n ∨ 2 ^ 48 < va + n then s.ualNo p 0
    else (linePieces 3 va n 0).foldl (fun s x => s.serve ⟨who, ctx, .read x.1 x.2.1 .load .plain .thr false⟩) s.bump
  | .write va ctx mask d =>
    if d.length = 0 ∨ 256 < d.length ∨ 2 ^ 48 < va + d.length then s.ualNo p 0
    else (linePieces 3 va d.length 0).foldl (fun s x => s.serve ⟨who, ctx, ualLine x.1 x.2.1 x.2.2 mask d⟩) s.bump
  | .atomic va n ctx op =>
    if Body.ok (.rmw va n op .plain .thr) ∧ (n = 4 ∨ n = 8) ∧ va % n = 0 then
      s.bump.serve ⟨who, ctx, .rmw va n op .plain .thr⟩
    else s.ualNo p 0
  | .carried ctx tag b =>
    if !Body.ok b then s.ualNo p 0
    else
      let back := fun (s : State) => s.setFab { s.fab with ualResp := s.fab.ualResp ++ [(p, 2 * tag + 1, .idle)] }
      let who := Who.ual p (2 * tag + 1)
      match b with
      | .cancel e => ((back s).freeRemote (.ual p (2 * e + 1)) (.ual p (2 * e + 1))).sendUal p (2 * tag + 1) 0 []
      | .reply _ _ _ => (back s).ualCarried p b
      | .ack _ => (back s).ualCarried p b
      | .opw _ _ _ _ => s.serve ⟨who, ctx, b⟩
      | _ => if (askOf b).isSome then (back s).serve ⟨who, ctx, b⟩ else s.ualNo p 0
  | .other code => s.ualNo p code
/-- A port's link goes down: its outstanding requests are given up. -/
def ualDown (s : State) (p : Nat) : State :=
  let mine := s.fab.ual.filter fun u => u.port == p
  mine.foldl (fun s u => s.gaveUp u.wc u.req)
    (s.setFab { s.fab with linkUp := setAt s.fab.linkUp p false, ual := s.fab.ual.filter fun u => u.port != p })

end State

/-! ## Meanings -/

/-- An incoming UALink request (R425). -/
def execUalinkRequest (p : Nat) (q : UalReq) (s : State) : Out :=
  .next (if p < 4 ∧ s.fab.linkUp.getD p false then s.ualReq p q else s)
/-- A UALink response to the request r (R427). -/
def execUalinkResponse (r status : Nat) (data : List Byte) (s : State) : Out := .next (s.ualAnswer r status data)
/-- A UALink port's link goes down (R427). -/
def execUalinkLinkDown (p : Nat) (s : State) : Out :=
  .next (if p < 4 ∧ s.fab.linkUp.getD p false then s.ualDown p else s)
/-- The link of a UALink port is up again (R427). -/
def execUalinkLinkUp (p : Nat) (s : State) : Out :=
  .next (if p < 4 then s.setFab { s.fab with linkUp := setAt s.fab.linkUp p true } else s)

end Sys2Proof.Machine
end

