-- ==== Sys2Proof/Machine/FaultReply.lean ====
section
/-! DEFINITION. The host's reply to a replayable fault (R156, R158, R202, R344, R370, R383, R438, R485, R487, R489). -/

namespace Sys2Proof.Machine
namespace State

/-! ## FAIL = 0: the accesses walk again -/

/-- A resting operation goes on where it stood; a Slicer's walk sees by itself that its fault is over. -/
def opAgain (s : State) (o : Nat) : State :=
  s.updOp o fun x => match x.st with
    | .resting _ c => { x with st := resume x c }
    | _ => x
def walkAgain (s : State) (w : Who) : State :=
  match w with
  | .thread t => match (s.th t).st with | .faultRest _ _ _ => s.setSt t .run | _ => s
  | .op o => s.opAgain o
  | _ => s

/-! ## FAIL = 1: XLATE -/

/-- A Peel operation stops with XLATE; a completion word that faulted counts as written (R485). -/
def peelXlate (s : State) (o : Op) (code : Nat) : State :=
  let b := PeelBlk.ofNat (leNat o.blk)
  let n := s.itemCount o b
  let atCw := decide ((o.cwDone < cwDue b o.cursor ∧ o.cursor < n) ∨ (n ≤ o.cursor ∧ o.fin ∧ o.cwDone < cwCount o b))
  if code = 0 then
    s.updOp o.id fun x => { x with st := .failed 0x06, fin := false, cwDone := if atCw then x.cwDone + 1 else x.cwDone }
  else s.updOp o.id fun x => { x with st := .failed code, cwDone := if x.fin then x.cwDone + 1 else x.cwDone, fin := true }
/-- A SLICE: its output or its read stops it; a completion word or INFL that cannot be written is passed over
(R386, R487). -/
def sliceXlate (s : State) (o : Op) (code : Nat) : State :=
  let st := fun (c : Nat) => if c = 0 then OpSt.running else .failed c
  if o.sub = 3 then s.updOp o.id fun x => { x with sub := 4, st := st code }
  else if o.sub = 2 then
    if code = 0 then s.updOp o.id fun x => { x with cwDone := 1, sub := 0, st := .failed 0x06 }
    else s.updOp o.id fun x => { x with cwDone := 2, sub := 3, st := .failed code }
  else if code = 0 then s.updOp o.id fun x => { x with st := .failed 0x06, sub := 0 }
  else s.updOp o.id fun x => { x with sub := x.sub + 1, st := .failed code }
def opXlate (s : State) (id : Nat) : State :=
  match s.op? id with
  | none => s
  | some o =>
    match o.st with
    | .resting _ code => if o.kind = .peel then s.peelXlate o code else s.sliceXlate o code
    | .running => s.updOp id fun x => { x with st := .failed 0x06 }
    | .draining => s.updOp id fun x => { x with sub := 4 }
    | _ => s
/-- One access of the fault fails. -/
def joinFails (s : State) (w : Who) (ea : Nat) : State :=
  match w with
  | .thread t =>
    match (s.th t).st with
    | .faultRest _ xw grp => s.raiseInfo t ⟨.xlate, (s.th t).pc, BitVec.ofNat 64 ea, xw, false, false, grp⟩
    | _ => s
  | .op o => s.opXlate o
  | .node g n => s.nodeEnds g n 0x06
  | .queue q =>
    match (s.queue q).ents.head?.map leNat with
    | some e => (s.popEntry q).malformed q ((ea - bits e 127 64) / 64) (bits e 127 64)
    | none => s
  | .done l => s.launchOver l 0x06
  | .remote _ _ | .ual _ _ =>
    match s.fab.incoming.find? fun i => i.who == w with
    | some i =>
      let s := s.setFab { s.fab with incoming := s.fab.incoming.filter fun x => x != i }
      match askOf i.body with
      | some a => if a.nf then s.answer w a.op 0 [] else s.answer w a.op 0x06 (if planeVas a.op = [] then [] else leBytes 8 (vaOf ea))
      | none => s
    | none => s
  | .group _ | .ring _ => s

/-- The agent's receipt of a reply: the fault is over, its accesses walk again or fail (R158). -/
def faultReply (s : State) (fid : Nat) (fail : Bool) : State :=
  match s.flt.faults.find? fun f => f.fid == fid with
  | none => s
  | some f =>
    let s := s.setFlt { s.flt with faults := s.flt.faults.filter fun x => x.fid != fid }
    (f.joins.foldl (fun s j => if fail then s.joinFails j.1 j.2 else s.walkAgain j.1) s).retryIncoming

end State

/-! ## Meaning -/

/-- A write of FLT_REPLY: whole, its upper word alone, or its lower word (R158). -/
def execFltReply (w : ReplyWrite) (s : State) : Out :=
  .next (if s.dev.bootfail then s else match w with
    | .whole fid fail => (s.setFlt { s.flt with failHold := fail }).faultReply fid fail
    | .high fail => s.setFlt { s.flt with failHold := fail }
    | .low fid => s.faultReply fid s.flt.failHold)

end Sys2Proof.Machine
end

