-- ==== Sys2Proof/Machine/Rotor.lean ====
section
/-! DEFINITION. The rotor ports: calendar, slots, training, flits sent and received, path choice, relays, loss of light
and of the slot clock (R401 to R424, R488). -/

namespace Sys2Proof.Machine
namespace State

/-! ## The bytes of a flit (R407 to R410) -/

/-- TYPE of a flit (R410). -/
def Body.type : Body → Nat
  | .idle => 0
  | .write _ _ _ => 1
  | .opw _ _ _ _ => 2
  | .read _ _ _ _ _ _ => 3
  | .rmw _ _ _ _ _ => 4
  | .fereq _ _ _ _ => 5
  | .cancel _ => 5
  | .reply _ _ _ => 6
  | .ack _ => 7
  | .rfail _ => 8
  | .unknown ty => ty
/-- Bytes 0 to 7 of a flit (R8, R407, R408). -/
def headBytes (h : FlitHdr) (ty : Nat) : List Byte :=
  packRec 8 [(4, ty), (6, h.src), (6, h.dst), (1, b2n h.rly), (4, h.ctx), (4, h.pgen), (24, h.eseq), (15, h.hseq)]
def readHead (l : List Byte) : FlitHdr :=
  let v := leNat l
  ⟨bits v 9 4, bits v 15 10, bitOf v 16, bits v 20 17, bits v 24 21, bits v 48 25, bits v 63 49⟩
/-- Bytes 184 to 187 of a flit (R407, R409). -/
def trailBytes (t : Trailer) : List Byte := packRec 4 [(15, t.hack), (1, b2n t.nak), (12, t.cred), (4, 0)]
def readTrail (l : List Byte) : Trailer := ⟨bits (leNat l) 14 0, bitOf (leNat l) 15, bits (leNat l) 27 16⟩
/-- The 176 bytes of a payload, zeros where it says nothing. -/
def fill176 (l : List Byte) : List Byte := (l ++ List.replicate 176 0).take 176
/-- The payload of a flit: as it came, or as this package makes it (R410, log 87). -/
def payload (f : Flit) : List Byte :=
  match f.pay with
  | .given l => fill176 l
  | .made core team entry => fill176 (match f.body with
    | .idle => []
    | .write va mask d =>
      leBytes 8 va ++ leBytes 16 mask ++ d ++ leBytes 4 (Config.originTag core team entry).toNat
    | .ack l => l.flatMap fun a => packRec 4 [(24, a.1), (8, a.2)]
    | b => Config.flitBody b)
/-- The 192 bytes of a flit, its CRC-32C over the first 188 (R407). -/
def flitBytes (h : FlitHdr) (t : Trailer) (ty : Nat) (pay : List Byte) : List Byte :=
  let l := headBytes h ty ++ pay ++ trailBytes t
  l ++ leBytes 4 (Num.crc32c l)
/-- The fields of a received flit. -/
def rxHdr (f : FlitRx) : FlitHdr := readHead (f.bytes.take 8)
def rxType (f : FlitRx) : Nat := leNat (f.bytes.take 1) % 16
def rxPay (f : FlitRx) : List Byte := (f.bytes.drop 8).take 176
def rxTrail (f : FlitRx) : Trailer := readTrail ((f.bytes.drop 184).take 4)
/-- It is whole and its CRC is good (R407, R411). -/
def rxGood (f : FlitRx) : Bool :=
  f.bytes.length == 192 && leNat (f.bytes.drop 188) == Num.crc32c (f.bytes.take 188)
/-- Its payload is what its body says, where R410 places the fields. -/
def placed (f : FlitRx) : Bool :=
  let l := rxPay f
  match f.body with
  | .write va mask d => leNat (l.take 8) == va && leNat ((l.drop 8).take 16) == mask && (l.drop 24).take 128 == d
  | .ack es => l == fill176 (es.flatMap fun a => packRec 4 [(24, a.1), (8, a.2)])
  | _ => true
/-- Its bytes are a flit of its body's type. -/
def fits (f : FlitRx) : Bool := rxType f == Body.type f.body && placed f

/-! ## Calendar and ports (R401, R403 to R406) -/

/-- ROT_CAL[p][sl] as the package uses it: its own id with KIND 0 counts as KIND 2 (R404). -/
def calAt (s : State) (p sl : Nat) : Nat × Nat :=
  let e := s.fab.cal.getD (8 * p + sl) (0x3F, 2)
  if e.2 = 0 ∧ e.1 = s.fab.node then (e.1, 2) else e
/-- The (port, slot) entries that name a node with KIND 0. -/
def facing (s : State) (n : Nat) : List (Nat × Nat) :=
  ((List.range 64).map fun i => (i / 8, i % 8)).filter fun x => s.calAt x.1 x.2 == (n, 0)
/-- A node that the package faces on one port only. -/
def onlyOn (s : State) (p n : Nat) : Bool := s.facing n != [] && (s.facing n).all fun x => x.1 == p
def port (s : State) (p : Nat) : Port := s.fab.ports.getD p { Port.reset with stripe := [] }
def updPort (s : State) (p : Nat) (f : Port → Port) : State :=
  s.setFab { s.fab with ports := updAt s.fab.ports p f }
/-- The wavelengths that a port can use: groups of four with a live source and no failed wavelength (R401). -/
def wlUsable (x : Port) : List Bool :=
  (List.range 4).map fun j => x.live.getD j false && ((List.range 4).all fun k => !x.badWl.getD (4 * j + k) false)
def liveMask (x : Port) : Nat := bitsOfList x.live
/-- The stripe mask of a port: its wavelengths (R401, R475). -/
def stripeMask (x : Port) : Nat :=
  bitsOfList ((List.range 16).map fun w => x.stripe.getD (w / 4) false)
/-- Flits that the usable part of a slot holds (R403). -/
def slotFlits (stripe : Nat) : Nat :=
  if stripe = 16 then 2533 else if stripe = 12 then 1900 else if stripe = 8 then 1266 else if stripe = 4 then 633 else 0
/-- Time since the slot's edge, in 60160ths of a slot of 2.56 µs. -/
def slotTime (s : State) : Nat := 25 * (s.cycle - s.fab.slotAt)
/-- The usable part of the slot: from 128 ns on, to its end (R403). -/
def usable (s : State) : Bool := 3008 ≤ s.slotTime && s.slotTime < 60160
/-- The training part of the guard: 80 to 128 ns from the edge. -/
def training (s : State) : Bool := 1880 ≤ s.slotTime && s.slotTime < 3008
/-- The far end of a port that may send a flit now. -/
def sendTo (s : State) (p : Nat) : Option Nat :=
  let x := s.port p
  if s.fab.en && !s.fab.slotLost && s.usable && x.trained && !x.quiet && !x.muted && x.sent < slotFlits (stripeWidth x)
  then x.far else none

/-! ## Acknowledgement of hops (R409, R411) -/

/-- The acknowledgement field sent to a peer. -/
def trailer (s : State) (x : Nat) : Trailer :=
  let q := s.pair x
  ⟨(q.hseqIn + 2 ^ 15 - 1) % 2 ^ 15, q.nak, min 4095 q.credRet⟩
/-- Flits up to the one that HACK names leave the resend buffer; on NAK the rest is sent again. -/
def hopAck (q : Pair) (hack : Nat) (nak : Bool) : Pair :=
  let n := match q.unacked.findIdx? fun f => f.hdr.hseq == hack with | some i => i + 1 | none => 0
  let l := q.unacked.drop n
  { q with unacked := l,
           resend := if nak && l != [] then some 0
             else match q.resend with | some i => if n ≤ i then some (i - n) else some 0 | none => none }
/-- The hop acknowledgement of a peer, and the relay credits it returns: those of a flit that is discarded come again
with its resend (R409, R411). -/
def hopTrailer (s : State) (x : Nat) (t : Trailer) : State := s.updPair x fun q => hopAck q t.hack t.nak
def addCredit (s : State) (x n : Nat) : State := s.updPair x fun q => { q with credit := q.credit + n }
/-- A flit of a node arrives: an unreachable node is reachable again (R421). -/
def heard (s : State) (p n : Nat) : State :=
  if (s.pair n).unreach then (s.updPair n fun q => { q with unreach := false, fails := 0 }).event 8 p n 0 0 0 else s

/-! ## Failed paths (R419 to R421) -/

/-- A path of the pair fails: a new generation, and what left under the old one is sent again. -/
def pathFail (s : State) (d : Nat) : State :=
  let n := ((s.pair d).out.filter fun e => e.sent && !e.held).length
  (s.updPair d fun q => { q with
    pgenOut := (q.pgenOut + 1) % 16,
    out := q.out.map fun e => if e.sent && !e.held then
      { e with sent := false, again := true, via := none, since := s.cycle } else e }).event 5 0 d 0 0 n
/-- Everything outstanding toward a node is given up; `mark` where the node is found unreachable (R421, R423). -/
def giveUpPair (s : State) (d : Nat) (mark : Bool) : State :=
  let es := (s.pair d).out
  let ws := s.fab.wc.filter fun e => e.peer == d && !(es.any fun x => x.wc == some e.id) &&
    !(s.fab.ual.any fun x => x.wc == some e.id)
  let s1 := s.updPair d fun q => { q with out := [], unreach := q.unreach || mark, fails := 0 }
  let s2 := es.foldl (fun s e => s.gaveUp e.wc e.req) s1
  let s3 := ws.foldl (fun s e => s.giveUpWc e) s2
  let s4 := s3.settleFences
  if mark then s4.event 7 0 d 0 0 (es.length + ws.length) else s4
def rtmo (s : State) : Nat := if s.fab.rtmo = 0 then 4 else s.fab.rtmo
def utmo (s : State) : Nat := if s.fab.utmo = 0 then 3 else s.fab.utmo
/-- A flit of the pair has waited RTMO slot cycles of 20.48 µs since it left; before that, since it was handed over and
nothing of the pair left or was answered (R421, log 53). -/
def timedOut (s : State) (d : Nat) : Bool :=
  let q := s.pair d
  q.out.any fun e => !e.held && 96256 * s.rtmo ≤ 5 * (s.cycle - (if e.sent then e.since else max e.since q.moved))
def timeOut (s : State) (d : Nat) : State :=
  let n := (s.pair d).fails + 1
  let s1 := (s.updPair d fun q => { q with fails := n }).pathFail d
  if s.utmo ≤ n then s1.giveUpPair d true else s1
/-- Nodes that the rotor ports reach. -/
def rotorNodes (s : State) : List Nat := (List.range 64).filter fun n =>
  n != s.fab.node && (s.facing n != [] || s.fab.pairs.any fun q => q.peer == n)

/-- What goes to the node goes, or went, by the rotor ports. -/
def byRotor (s : State) (d : Nat) : Bool := s.routeOf d == some .rotor || (s.pair d).out != []

/-! ## Sending (R416, R417, R488) -/

/-- The time until the usable part of the next slot in which the package faces a node with KIND 0, in 60160ths of a
slot, 0 while it can send to it now (R416). -/
def waitFor (s : State) (d : Nat) : Option Nat :=
  ((s.facing d).map fun x =>
    let k := (x.2 + 8 - s.fab.slot) % 8
    if k = 0 ∧ s.sendTo x.1 = some d then 0
    else (if k = 0 ∧ 3008 ≤ s.slotTime then 8 else k) * 60160 + 3008 - s.slotTime).min?
/-- The path that a flit without an earlier one takes now: none is direct (R416). -/
def choosePath (s : State) (d : Nat) : Option Nat :=
  let near : Bool := match s.waitFor d with | some w => decide (w ≤ s.fab.dwait * 60160) | none => false
  if s.fab.path = 1 ∨ near then none
  else ((List.range 8).filterMap s.sendTo).find? fun x =>
    x != d && 0 < (s.pair x).credit && !((s.pair d).barred.any fun b => b.1 == x && s.fab.slotCycle < b.2)
/-- The earlier flit that pins e (R416). -/
def pinOf (q : Pair) (e : E2E) : Option E2E :=
  q.out.find? fun o => o.sent && !o.held && o.eseq != e.eseq &&
    (shareLine o.body e.body || (o.again && e.again))
def pathOf (s : State) (d : Nat) (e : E2E) : Option Nat :=
  match pinOf (s.pair d) e with | some o => o.via | none => s.choosePath d
/-- The flits toward a node that may leave next: no earlier one of their line waits, resends leave in order; at most
4096 that have left are unacknowledged (R419). -/
def leaving (q : Pair) : List E2E :=
  let room := decide ((q.out.filter fun e => (e.sent || e.again) && !e.held).length < 4096)
  (q.out.zipIdx.filter fun x => !x.1.sent && (room || x.1.again) && !((q.out.take x.2).any fun o => !o.sent &&
    (shareLine o.body x.1.body || (o.again && x.1.again)))).map (·.1)
def hopRoom (s : State) (x : Nat) : Bool := (s.pair x).unacked.length < 4096
/-- A flit leaves by a port. -/
def countSent (s : State) (p : Nat) : State := s.updPort p fun x =>
  { x with sent := x.sent + 1, times := (x.times.filter fun t => s.cycle ≤ t + 98) ++ [s.cycle] }
/-- A new flit leaves port p toward x with the next HSEQ, and stays in the resend buffer. -/
def transmit (s : State) (p x : Nat) (h : FlitHdr) (b : Body) (pay : Pay) : State :=
  (s.updPair x fun q =>
    let c := min 4095 q.credRet
    { q with hseqOut := (q.hseqOut + 1) % 2 ^ 15, credRet := q.credRet - c,
             unacked := q.unacked ++ [⟨{ h with hseq := q.hseqOut }, b, c, pay⟩] }).countSent p
/-- The header of a flit of this package to a node (R408). -/
def headTo (s : State) (d ctx eseq : Nat) (rly : Bool) : FlitHdr :=
  ⟨s.fab.node, d, rly, ctx, (s.pair d).pgenOut, eseq, 0⟩
def useCredit (s : State) (x : Nat) : State := s.updPair x fun q => { q with credit := q.credit - 1 }
/-- The origin of what a flit carries: its write-combining entry's core, team and place (R410). -/
def originOf (s : State) (e : E2E) : Pay :=
  match s.fab.wc.find? fun w => e.wc == some w.id with
  | some w => .made w.core w.team (w.id % 64)
  | none => .made 0 0 0
/-- Send an end-to-end flit to d by the far end of the port. -/
def sendE2E (s : State) (p d : Nat) (e : E2E) (via : Option Nat) : State :=
  let s1 := s.transmit p (via.getD d) (s.headTo d e.ctx e.eseq via.isSome) e.body (s.originOf e)
  let s2 := match via with | some x => s1.useCredit x | none => s1
  s2.updPair d fun q => { q with moved := s.cycle, out := q.out.map fun o =>
    if o.eseq = e.eseq then { o with sent := true, via := via, since := s.cycle } else o }
/-- The ESEQ and the context in the header of an answer: those of what it answers, of its first entry (log 47). -/
def backHead (q : Pair) : Body → Nat × Nat
  | .reply k _ _ => (k, ((q.ctxs.find? fun c => c.1 == k).map (·.2)).getD 0)
  | .ack ((k, _) :: _) => (k, ((q.ctxs.find? fun c => c.1 == k).map (·.2)).getD 0)
  | .rfail ((k, _) :: _) => (k, ((q.rfails.head?).map (·.2.2)).getD 0)
  | _ => (0, 0)
/-- The acknowledgements, replies and relay failures queued for a node, one flit of them (R410, R488). -/
def backFlit (q : Pair) : Option (Body × Pair) :=
  if q.acks ≠ [] then
    some (.ack ((q.acks.take 44).map fun a => (a.1, a.2.1)), { q with acks := q.acks.drop 44 })
  else match q.replies with
    | b :: l => some (b, { q with replies := l })
    | [] =>
      if q.rfails ≠ [] then
        some (.rfail ((q.rfails.take 44).map fun r => (r.1, r.2.1)), { q with rfails := q.rfails.drop 44 })
      else none
def sendBack (s : State) (p d : Nat) (via : Option Nat) : Option State :=
  (backFlit (s.pair d)).map fun r =>
    let (k, c) := backHead (s.pair d) r.1
    let s1 := (s.updPair d fun _ => r.2).transmit p (via.getD d) (s.headTo d c k via.isSome) r.1 (.made 0 0 0)
    match via with | some x => s1.useCredit x | none => s1
/-- An ACK entry for the node has waited a full slot cycle (R488). -/
def lateAck (q : Pair) (now : Nat) : Bool := q.acks.any fun a => 96256 ≤ 5 * (now - a.2.2)
/-- A node whose answers may go by x: acknowledgements by any path that R416 does not bar, a REPLY or an RFAIL by the
path that it chooses (R416, R488). -/
def relayedBack (s : State) (x : Nat) (late : Bool) : Option Nat :=
  ((s.fab.pairs.filter fun q => q.peer != x && (backFlit q).isSome && (!late || lateAck q s.cycle) && (if q.acks ≠ [] then
    s.fab.path != 1 && !(q.barred.any fun b => b.1 == x && s.fab.slotCycle < b.2)
    else s.choosePath q.peer == some x)).map (·.peer)).head?
/-- Priority 1: the next flit of the resend buffer. -/
def sendAgain (s : State) (p x : Nat) : Option State :=
  match (s.pair x).resend with
  | some i =>
    if i < (s.pair x).unacked.length then
      some ((s.updPair x fun q => { q with resend := if i + 1 < q.unacked.length then some (i + 1) else none }).countSent p)
    else none
  | none => none
/-- The bytes of a relayed flit in the overflow region (log 53). -/
def spillBytes (f : Flit) : List Byte := flitBytes f.hdr ⟨0, false, 0⟩ (Body.type f.body) (payload f)
/-- A relayed flit leaves the buffer, sent or dropped: its credit goes back (R418). -/
def leaveRelay (s : State) (i : Nat) (r : Relayed) : State :=
  (s.setFab { s.fab with relay := s.fab.relay.take i ++ s.fab.relay.drop (i + 1) }).updPair r.src fun q =>
    { q with credRet := q.credRet + 1 }
/-- Priority 2: the oldest flit of the relay buffer for the far end; its credit goes back. One that its place in the
overflow region no longer holds is dropped (log 53). -/
def relayedFrom (p x : Nat) : Nat → State → Option State
  | 0, _ => none
  | k + 1, s =>
    (s.fab.relay.findIdx? fun r => r.flit.hdr.dst == x).bind fun i =>
      (s.fab.relay[i]?).bind fun r =>
        let go := fun (s : State) => (s.leaveRelay i r).transmit p x { r.flit.hdr with rly := false } r.flit.body r.flit.pay
        match r.at_ with
        | none => some (go s)
        | some pa => match s.readPhys pa 192 with
          | (s, some b) => if b = spillBytes r.flit then some (go s) else
              let s := s.leaveRelay i r
              some ((relayedFrom p x k s).getD s)
          | (s, none) =>
            let s := s.leaveRelay i r
            some ((relayedFrom p x k s).getD s)
def sendRelayed (s : State) (p x : Nat) : Option State := relayedFrom p x s.fab.relay.length s
/-- Priority 3: a direct flit for the far end. -/
def sendDirect (s : State) (p x : Nat) : Option State :=
  ((leaving (s.pair x)).find? fun e => s.pathOf x e == none).map fun e => s.sendE2E p x e none
/-- Priority 4: a flit whose first hop is the far end. -/
def sendFirstHop (s : State) (p x : Nat) : Option State :=
  if (s.pair x).credit = 0 then none
  else ((s.fab.pairs.filter fun q => q.peer != x).findSome? fun q =>
      ((leaving q).find? fun e => s.pathOf q.peer e == some x).map fun e => (q.peer, e)).map fun r =>
    s.sendE2E p r.1 r.2 (some x)
/-- Priority 5, and of it what has waited a full slot cycle, which goes ahead of priority 3 (R488). -/
def sendAnswers (s : State) (p x : Nat) (late : Bool) : Option State :=
  (if late && !lateAck (s.pair x) s.cycle then none else s.sendBack p x none).orElse fun _ =>
    if (s.pair x).credit = 0 then none else (s.relayedBack x late).bind fun d => s.sendBack p d (some x)
/-- Priority 6: a trailer alone; it takes no HSEQ. -/
def sendIdle (s : State) (p x : Nat) : State :=
  (s.updPair x fun q => { q with credRet := q.credRet - min 4095 q.credRet }).countSent p
/-- A port sends its next flit (R417). -/
def sendFlit (s : State) (p : Nat) : State :=
  match s.sendTo p with
  | none => s
  | some x =>
    let new := if s.hopRoom x then
        (s.sendRelayed p x).orElse fun _ =>
        (s.sendAnswers p x true).orElse fun _ =>
        (s.sendDirect p x).orElse fun _ => (s.sendFirstHop p x).orElse fun _ => s.sendAnswers p x false
      else none
    ((s.sendAgain p x).orElse fun _ => new).getD (s.sendIdle p x)

/-! ## Receiving (R411, R414, R419) -/

/-- Which event a flit is: a relayed one on its first hop belongs to the relay buffer (R408, R410). -/
inductive FlitKind
  | idle | write | opw | read | rmw | fereq | cancel | reply | ack | rfail | relay | unknown
  deriving DecidableEq, Repr
def kindOf (own : Nat) (f : FlitRx) : FlitKind :=
  if 9 ≤ rxType f then .unknown
  else if (rxHdr f).rly && (rxHdr f).dst != own then .relay
  else match f.body with
    | .idle => .idle
    | .write _ _ _ => .write
    | .opw _ _ _ _ => .opw
    | .read _ _ _ _ _ _ => .read
    | .rmw _ _ _ _ _ => .rmw
    | .fereq _ _ _ _ => .fereq
    | .cancel _ => .cancel
    | .reply _ _ _ => .reply
    | .ack _ => .ack
    | .rfail _ => .rfail
    | .unknown _ => .unknown
/-- A request that has come and has no answer yet. -/
def inHand (s : State) (w : Who) : Bool :=
  (s.reqs.any fun r => r.who == w) || s.fab.incoming.any fun i => i.who == w
/-- ESEQs 4096 and more below the highest count as performed (R419): `high` is the ESEQ above the highest. -/
def behind (high e : Nat) : Nat := (high + 2 ^ 24 - e) % 2 ^ 24
def ahead (high e : Nat) : Bool := (e + 2 ^ 24 - high) % 2 ^ 24 < 2 ^ 23
/-- A cached REPLY is sent again. -/
def replyAgain (s : State) (n e : Nat) : State :=
  match (s.pair n).cache.find? fun c => c.1 == e with
  | some c => s.updPair n fun q => { q with replies := q.replies ++ [c.2] }
  | none => s
/-- A request is taken once: one performed before, or below the bitmap, has its answer sent again (R414, R419). Its
context is noted for its answer's header. -/
def once (s : State) (n e ctx : Nat) (act : State → State) : State :=
  let q := s.pair n
  let note := fun (q : Pair) => { q with ctxs := (e, ctx) :: q.ctxs.filter fun c => c.1 != e && behind q.high c.1 ≤ 4097 }
  if ahead q.high e then
    let h := (e + 1) % 2 ^ 24
    act (s.updPair n fun q => note { q with high := h, seen := q.seen.filter fun x => behind h x.1 ≤ 4097 })
  else if 4097 < behind q.high e then s.replyAgain n e
  else
    match q.seen.find? fun x => x.1 == e with
    | some (_, some st) => s.updPair n fun q => { q with acks := q.acks ++ [(e, st, s.cycle)] }
    | some (_, none) => s.replyAgain n e
    | none => if s.inHand (.remote n e) then s else act (s.updPair n note)
/-- An ACK entry of a node. -/
def ackOne (s : State) (n : Nat) (a : Nat × Nat) : State :=
  match (s.pair n).out.find? fun e => e.eseq == a.1 with
  | none => s
  | some e =>
    let s := s.updPair n fun q => { q with fails := 0, moved := s.cycle }
    match e.wc, e.req with
    | none, some r =>
      if a.2 = 0 then
        (s.updPair n fun q => { q with out := q.out.map fun o => if o.eseq = a.1 then { o with held := true } else o }).heldNow r
      else (s.updPair n fun q => { q with out := q.out.filter fun o => o.eseq != a.1 }).settled none e.req a.2 []
    | _, _ => (s.updPair n fun q => { q with out := q.out.filter fun o => o.eseq != a.1 }).settled e.wc e.req a.2 []
/-- A REPLY of a node. -/
def replyOne (s : State) (n k st : Nat) (d : List Byte) : State :=
  match (s.pair n).out.find? fun e => e.eseq == k with
  | none => s
  | some e =>
    (s.updPair n fun q => { q with fails := 0, moved := s.cycle, out := q.out.filter fun o => o.eseq != k }).settled e.wc e.req st d
/-- Relayed flits were dropped at x: it is barred as a relay toward their destinations, whose paths fail (R420). -/
def rfailed (s : State) (x : Nat) (l : List (Nat × Nat)) : State :=
  let hit := s.fab.pairs.filter fun q => q.out.any fun e => e.sent && e.via == some x && l.contains (e.eseq, q.pgenOut)
  hit.foldl (fun s q => (s.updPair q.peer fun z =>
    { z with barred := (x, s.fab.slotCycle + s.rtmo) :: z.barred.filter fun b => b.1 != x }).pathFail q.peer) s
/-- What a flit does at its final node. -/
def deliver (s : State) (h : FlitHdr) (body : Body) : State :=
  let n := h.src
  let d := (h.pgen + 16 - (s.pair n).pgenIn) % 16
  if 8 ≤ d then s
  else
    let s := s.updPair n fun q => { q with pgenIn := h.pgen % 16 }
    match body with
    | .idle | .unknown _ => s
    | .cancel k => s.once n h.eseq h.ctx fun s =>
        (s.freeRemote (.remote n k) (.remote n k)).sendReply n h.eseq 0 []
    | .reply k st b => s.replyOne n k st b
    | .ack l => l.foldl (fun s a => s.ackOne n a) s
    | .rfail l => s.rfailed n l
    | b => s.once n h.eseq h.ctx fun s => s.serve ⟨.remote n h.eseq, h.ctx, b⟩
/-- Flits that the 16 MiB relay buffer holds; a further one spills to the overflow region (R418). -/
def sramFlits : Nat := 16 * 2 ^ 20 / 192
/-- The place of a flit that comes: the SRAM, or the first free one of the overflow region that lies wholly in usable
HBM4; none where both are full. -/
def relayPlace (s : State) : Option (Option Nat) :=
  if (s.fab.relay.filter fun r => r.at_.isNone).length < sramFlits then some none
  else (((List.range (min (s.fab.ovsz * 2 ^ 20 / 192) (s.fab.relay.length + 1))).map fun k => s.fab.ovbase + 192 * k).find?
    fun pa => pa + 192 ≤ Config.hbmTop && !(s.fab.relay.any fun r => r.at_ == some pa)).map some
/-- A first-hop flit from x enters the relay buffer; one that finds no place is dropped, and its credit goes back. -/
def relayIn (s : State) (x : Nat) (f : FlitRx) : State :=
  let fl : Flit := ⟨rxHdr f, f.body, 0, .given (rxPay f)⟩
  match s.relayPlace with
  | some at_ =>
    let s := match at_ with | some pa => s.wrPhys pa (spillBytes fl) | none => s
    s.setFab { s.fab with relay := s.fab.relay ++ [⟨x, fl, at_⟩] }
  | none => s.updPair x fun q => { q with credRet := q.credRet + 1 }
/-- A flit arrives at a port, as the event of its kind (R411). -/
def receive (s : State) (p : Nat) (f : FlitRx) (k : FlitKind) : State :=
  let h := rxHdr f
  match (s.port p).far with
  | none => s
  | some x =>
    if !s.fab.en || s.fab.slotLost || !(s.port p).trained || (s.port p).rx == 0 then s
    else if !rxGood f then s.updPair x fun q => { q with nak := true }
    else if kindOf s.fab.node f ≠ k ∨ !Body.ok f.body ∨ !fits f ∨ h.src = s.fab.node then s
    else
      let s := ((s.hopTrailer x (rxTrail f)).heard p x).heard p h.src
      if k = .idle then s.addCredit x (rxTrail f).cred
      else if h.hseq ≠ (s.pair x).hseqIn then s.updPair x fun q => { q with nak := true }
      else
        let s := (s.updPair x fun q => { q with hseqIn := (q.hseqIn + 1) % 2 ^ 15, nak := false }).addCredit x (rxTrail f).cred
        if k = .relay then s.relayIn x f
        else if k = .unknown then s.event 11 p x 0 0 0
        else if h.dst ≠ s.fab.node then s
        else s.deliver h f.body

/-! ## Slots and training (R402, R403, R406, R422) -/

/-- The training word that a port sends in the guard: own id, stripe mask, and HACK and NAK for the node it faces: the
entry's, or the one learnt (R406). -/
def ownWord (s : State) (p : Nat) : TrainWord :=
  let (peer, kind) := s.calAt p s.fab.slot
  let t := s.trailer (if kind = 0 then peer else (s.port p).far.getD peer)
  ⟨s.fab.node, stripeMask (s.port p), t.hack, t.nak⟩
/-- A port's peer sends its word in the training part: the port is trained, or sends nothing in the slot (R406). -/
def trainPort (s : State) (p : Nat) (w : TrainWord) : State :=
  let (peer, kind) := s.calAt p s.fab.slot
  let x := s.port p
  if !s.fab.en || s.fab.slotLost || !s.training || kind == 2 || x.trained || x.quiet || stripeWidth x == 0 then s
  else if kind = 0 ∧ w.node ≠ peer then (s.updPort p fun y => { y with quiet := true }).event 4 p peer 0 0 0
  else if w.node = s.fab.node ∨ 64 ≤ w.node then s
  else (s.updPort p fun y => { y with far := some w.node, rx := w.stripe % 2 ^ 16, trained := true }).updPair w.node fun q =>
    hopAck q w.hack w.nak
/-- No word came for a port: it sends nothing in the slot (R406). -/
def noWord (s : State) (p : Nat) : State :=
  if s.slotTime < 1880 then s else s.updPort p fun x => { x with quiet := x.quiet || !x.trained }
/-- The port is dark (R420): flits that left by it are sent again, relayed ones for nodes it alone faces are dropped;
their origins are told, and those of relayed flits in its hop-resend buffers. -/
def darkPort (s : State) (p : Nat) : State :=
  let hit := (s.fab.pairs.filter fun q => q.out.any fun e =>
    e.sent && !e.held && s.onlyOn p (e.via.getD q.peer)).map (·.peer)
  let s1 := hit.foldl pathFail s
  let gone := s1.fab.relay.filter fun r => s1.onlyOn p r.flit.hdr.dst
  let left := (s1.fab.pairs.filter fun q => s1.onlyOn p q.peer).flatMap fun q =>
    (q.unacked.filter fun f => f.hdr.src != s1.fab.node).map (·.hdr)
  let s2 := s1.setFab { s1.fab with relay := s1.fab.relay.filter fun r => !s1.onlyOn p r.flit.hdr.dst }
  let s3 := gone.foldl (fun s r => s.updPair r.src fun q => { q with credRet := q.credRet + 1 }) s2
  let s4 := (gone.map (·.flit.hdr) ++ left).foldl (fun s h => s.updPair h.src fun q =>
    { q with rfails := q.rfails ++ [(h.eseq, h.pgen, h.ctx)] }) s3
  ((gone.map (·.flit.hdr.dst)).eraseDups).foldl (fun s d =>
    s.event 6 p d 0 0 (gone.filter fun r => r.flit.hdr.dst == d).length) s4
/-- The stripe takes its new width in the training part of a guard in which the port trains (R420, R475). -/
def restripe (s : State) (p : Nat) : State :=
  let x := s.port p
  let w := wlUsable x
  let (peer, kind) := s.calAt p s.fab.slot
  if kind = 2 ∨ w = x.stripe ∨ !s.fab.en ∨ s.fab.slotLost ∨ s.slotTime < 1880 ∨ x.trained ∨ x.quiet then s
  else
    let s1 := (s.updPort p fun y => { y with stripe := w, srcs := liveMask x }).event 3 p peer x.srcs (liveMask x) 0
    if bitsOfList w = 0 then s1.darkPort p else s1
/-- Every port turns to its entry of the new slot. -/
def turnPorts (s : State) : State :=
  s.setFab { s.fab with ports := s.fab.ports.map fun x =>
    { x with far := none, rx := 0, times := [], trained := false, muted := false, quiet := false, sent := 0 } }
/-- A slot opens: SLOT counts on, the ports turn. -/
def openSlot (s : State) (sl cyc : Nat) : State :=
  (s.setFab { s.fab with slot := sl, slotCycle := cyc, slotAt := s.cycle }).turnPorts
def slotEdge (s : State) (long : Bool) : State :=
  if s.fab.slotLost then
    if long then s.setFab { s.fab with goodPulses := s.fab.goodPulses + 1, pulseAt := s.cycle } else s
  else s.openSlot (if long then 0 else (s.fab.slot + 1) % 8) (if long then s.fab.slotCycle + 1 else s.fab.slotCycle)
/-- One slot by the package's own clock; 64 slots, 8 cycles, after the last edge every pair is unreachable (R422). -/
def ownStep (s : State) : State :=
  let s1 := s.openSlot ((s.fab.slot + 1) % 8) (s.fab.slotCycle + b2n (decide (s.fab.slot = 7)))
  let n := s1.fab.lostSlots + 1
  let s2 := s1.setFab { s1.fab with lostSlots := n }
  if n = 64 then
    (s2.rotorNodes.filter s2.byRotor).foldl (fun s d => if (s.pair d).unreach then s else s.giveUpPair d true) s2
  else s2

/-! ## Control (R404, R418, R423) -/

def writeCal (s : State) (p sl v : Nat) : State :=
  let kind := bits v 7 6
  if s.fab.en ∨ 8 ≤ p ∨ 8 ≤ sl ∨ kind = 3 then s
  else s.setFab { s.fab with cal := setAt s.fab.cal (8 * p + sl) (if kind = 1 then 0x3F else bits v 5 0, kind) }
/-- ROT_CTL: clearing EN gives up what is outstanding over the rotor ports. -/
def writeCtl (s : State) (v : Nat) : State :=
  let en := bitOf v 6
  let s1 := s.setFab { s.fab with
    node := if !s.fab.en && s.ctxs == [] then bits v 5 0 else s.fab.node, en := en,
    path := if bits v 8 7 < 2 then bits v 8 7 else s.fab.path, dwait := bits v 11 9, age := bits v 19 12,
    rtmo := bits v 23 20, utmo := bits v 27 24 }
  if s.fab.en && !en then
    ((s.rotorNodes.filter s.byRotor).foldl
      (fun s d => s.giveUpPair d false) s1).turnPorts
  else s1
/-- Relay space for 63 peers fits the buffer and its overflow region (R418). -/
def rlyFits (cred ovsz : Nat) : Bool := cred != 0 && 63 * cred * 192 ≤ (16 + ovsz) * 2 ^ 20
/-- A 4-byte word of RLY_CFG. -/
def writeRly4 (s : State) (w v : Nat) : State :=
  let v := v % 2 ^ 32
  let cred := if w = 0 then v % 4096 else s.fab.cred
  let ovsz := if w = 1 then v else s.fab.ovsz
  if (w = 0 ∨ w = 1) ∧ !rlyFits cred ovsz then s
  else s.setFab { s.fab with
    cred := cred, ovsz := ovsz,
    ovbase := if w = 2 then putLo s.fab.ovbase (v / 4096 * 4096)
      else if w = 3 then putHi s.fab.ovbase (v % 2 ^ 20) else s.fab.ovbase }
/-- An 8-byte write changes CRED and OVSZ together. -/
def writeRly (s : State) (off size v : Nat) : State :=
  let w := (off - 0x4180) / 4
  if off < 0x4180 ∨ 0x4190 ≤ off ∨ off % size ≠ 0 then s
  else if size = 4 then s.writeRly4 w v
  else if size = 8 then
    if w = 0 then
      if rlyFits (v % 4096) (v / 2 ^ 32 % 2 ^ 32) then
        s.setFab { s.fab with cred := v % 4096, ovsz := v / 2 ^ 32 % 2 ^ 32 }
      else s
    else (s.writeRly4 w v).writeRly4 (w + 1) (v / 2 ^ 32)
  else s

end State

/-! ## Meanings -/

/-- A calendar entry is written (R404). -/
def execRotCalWrite (p sl v : Nat) (s : State) : Out := .next (if s.dev.bootfail then s else s.writeCal p sl v)
/-- ROT_CTL is written (R423). -/
def execRotCtlWrite (v : Nat) (s : State) : Out := .next (if s.dev.bootfail then s else s.writeCtl v)
/-- RLY_CFG is written (R418). -/
def execRlyCfgWrite (off size v : Nat) (s : State) : Out := .next (if s.dev.bootfail then s else s.writeRly off size v)
/-- A training word in the guard, or none (R406). -/
def execTrainingWord (p : Nat) (w : Option TrainWord) (s : State) : Out :=
  .next (if 8 ≤ p then s else match w with
    | some w => (s.restripe p).trainPort p w
    | none => (s.restripe p).noWord p)
/-- A port sends a flit (R417). -/
def execFlitSend (p : Nat) (s : State) : Out := .next (s.sendFlit p)
/-- An OPEN write-combining entry has its age (R413): AGE µs at 940 cycles each. -/
def execWcAgeExpiry (e : Nat) (s : State) : Out :=
  .next (match s.fab.wc.find? fun x => x.id == e with
    | some x => if !x.sent ∧ x.since + max 1 (940 * s.fab.age) ≤ s.cycle then (s.sendLines (·.id == e)).settleFences else s
    | none => s)
/-- WRITE arrives (R410, R415). -/
def execWrite (p : Nat) (f : FlitRx) (s : State) : Out := .next (s.receive p f .write)
/-- OPW arrives. -/
def execOpw (p : Nat) (f : FlitRx) (s : State) : Out := .next (s.receive p f .opw)
/-- READ arrives (R414). -/
def execRead (p : Nat) (f : FlitRx) (s : State) : Out := .next (s.receive p f .read)
/-- RMW arrives. -/
def execRmw (p : Nat) (f : FlitRx) (s : State) : Out := .next (s.receive p f .rmw)
/-- FEREQ arrives (R90, R91). -/
def execFereq (p : Nat) (f : FlitRx) (s : State) : Out := .next (s.receive p f .fereq)
/-- A cancelling FEREQ arrives (R91). -/
def execFereqCancel (p : Nat) (f : FlitRx) (s : State) : Out := .next (s.receive p f .cancel)
/-- REPLY arrives at its origin. -/
def execReply (p : Nat) (f : FlitRx) (s : State) : Out := .next (s.receive p f .reply)
/-- ACK arrives at its origin (R415, R488). -/
def execAck (p : Nat) (f : FlitRx) (s : State) : Out := .next (s.receive p f .ack)
/-- RFAIL arrives (R420). -/
def execRfail (p : Nat) (f : FlitRx) (s : State) : Out := .next (s.receive p f .rfail)
/-- IDLE arrives: its trailer alone counts (R409). -/
def execIdle (p : Nat) (f : FlitRx) (s : State) : Out := .next (s.receive p f .idle)
/-- A first-hop flit enters the relay buffer (R418). -/
def execRelayFlit (p : Nat) (f : FlitRx) (s : State) : Out := .next (s.receive p f .relay)
/-- A flit of an unknown type is discarded with an event (R410). -/
def execUnknownFlit (p : Nat) (f : FlitRx) (s : State) : Out := .next (s.receive p f .unknown)
/-- A laser source is lost (R420): COUNT are the flits of the slot that had not left whole when it went dark, 100 ns ago
(R475, R477). -/
def execSourceLost (p j : Nat) (s : State) : Out :=
  let x := s.port p
  let w := 625 * State.stripeWidth x
  let n := (x.times.filter fun c => w * s.cycle < w * (c + 94) + 9024).length
  let y := { x with live := setAt x.live j false, muted := true }
  .next (if 8 ≤ p ∨ !x.live.getD j false then s
    else (s.updPort p fun _ => y).event 1 p (x.far.getD (s.calAt p s.fab.slot).1) (State.liveMask x) (State.liveMask y) n)
/-- A source is live again; it joins the stripe at a guard (R420). -/
def execSourceLive (p j : Nat) (s : State) : Out :=
  let x := s.port p
  let y := { x with live := setAt x.live j true }
  .next (if 8 ≤ p ∨ 4 ≤ j ∨ x.live.getD j true then s
    else (s.updPort p fun _ => y).event 2 p (x.far.getD (s.calAt p s.fab.slot).1) (State.liveMask x) (State.liveMask y) 0)
/-- RTMO has passed without an answer (R421). -/
def execPathTimeout (peer : Nat) (s : State) : Out := .next (if s.timedOut peer then s.timeOut peer else s)
/-- 5.12 µs without an edge of SLOTREF (R422). -/
def execSlotClockLost (s : State) : Out :=
  .next (if s.fab.slotLost ∨ 5 * (s.cycle - s.fab.slotAt) < 24064 then s
    else ((s.setFab { s.fab with slotLost := true, lostSlots := 2, goodPulses := 0 }).turnPorts).event 9 0 0 0 0 0)
/-- SLOTREF is regained after 8 good cycle pulses: the last of them opened slot 0; the cycle count is the one carried
forward (R422). -/
def execSlotClockRegained (s : State) : Out :=
  .next (if !s.fab.slotLost ∨ s.fab.goodPulses < 8 ∨ 60160 ≤ 25 * (s.cycle - s.fab.pulseAt) then s
    else ((s.setFab { s.fab with slotLost := false, slot := 0, slotAt := s.fab.pulseAt }).turnPorts).event 10 0 0 0 0 0)
/-- An edge of SLOTREF opens a slot (R402, R403). -/
def execSlotrefEdge (long : Bool) (s : State) : Out := .next (s.slotEdge long)
/-- A slot passes by the package's own clock (R422). -/
def execOwnClockSlotStep (s : State) : Out := .next (if s.fab.slotLost then s.ownStep else s)
/-- A wavelength fails: its group of four leaves the stripe (R401). -/
def execWavelengthFailure (p w : Nat) (s : State) : Out :=
  .next (if p < 8 ∧ w < 16 then s.updPort p fun x => { x with badWl := setAt x.badWl w true } else s)

end Sys2Proof.Machine
end

