-- ==== Sys2Proof/Machine/Auto.lean ====
section
/-! DEFINITION. What happens of itself: time, the stores of the host, and the events among which an empty agenda
finds the one it runs next (log 4, log 5). -/

namespace Sys2Proof.Machine
namespace State

/-- The filters clear in the cycles in which the low 20 bits of the counter become zero: what is left of them before time
leaves such a cycle. After two clears without a touch between them more change nothing (R46, R49). -/
def passClears (s : State) (dt : Nat) : State :=
  let now := s.cycle
  let first := if now % 2 ^ 20 = 0 ∧ s.l2.clearedAt ≠ now then now else (now / 2 ^ 20 + 1) * 2 ^ 20
  let last := (now + dt - 1) / 2 ^ 20 * 2 ^ 20
  if dt = 0 ∨ last < first then s
  else
    let s := s.clearFilters first
    if first < last then s.clearFilters last else s
/-- Accesses that rested for want of a free fault walk again after 256 cycles (R156). -/
def retryLater (s : State) : State :=
  if s.flt.later.any fun x => x.2 ≤ s.cycle then
    (s.setFlt { s.flt with later := s.flt.later.filter fun x => s.cycle < x.2 }).retryIncoming
  else s
/-- A thread's rest ends as soon as its time has run (R13). -/
def restOver (s : State) (x : Thread) : State :=
  let go := fun (u : Nat) (m : Bool) =>
    if u ≤ s.cycle then (s.updThread x.slot fun y => { y with st := .run, readySince := s.cycle }).restM m x.slot else s
  match x.st with
  | .yield u m => go u m
  | .feRest u => go u false
  | .slotRest u => go u false
  | _ => s
/-- A group's sleep ends so too (R334). -/
def sleepOver (g : Group) (now : Nat) : Group :=
  match g.wait with
  | .sleep u => if u ≤ now then { g with wait := .none } else g
  | _ => g
def endRests (s : State) : State :=
  let s := s.threads.foldl restOver s
  let woken := (s.groups.filter fun g => sleepOver g s.cycle != g).map (·.gslot)
  (s.setGroups (s.groups.map fun g => sleepOver g s.cycle)).setThreads (s.threads.map fun x =>
    if woken.contains (x.slot / 32) then { x with readySince := s.cycle } else x)
/-- Time passes (R30): what is due by it happens. -/
def passTime (s : State) (dt : Nat) : State := (((s.passClears dt).setCycle (s.cycle + dt)).endRests).retryLater
/-- The cycles at which something changes of itself: rests, sleeps and swaps end, results turn old (R205 to R210). -/
def dueTimes (s : State) : List Nat :=
  (s.threads.filterMap fun x => match x.st with | .yield u _ | .feRest u | .slotRest u => some u | _ => none) ++
  (s.groups.flatMap fun g => g.holdUntil :: (match g.wait with | .sleep u => [u] | _ => [])) ++
  s.pend.map (fun p => p.since + 513) ++ s.flt.later.map (·.2)
/-- The first of them within dt cycles. -/
def nextDue (s : State) (dt : Nat) : Option Nat :=
  (s.dueTimes.filter fun u => s.cycle < u && u < s.cycle + dt).foldl (fun m u => some (min u (m.getD u))) none
/-- Time passes in pieces, the ages brought up to date at the end of each; `k` bounds their number. -/
def elapseN : Nat → Nat → State → State
  | 0, dt, s => (s.passTime dt).refresh
  | k + 1, dt, s =>
    match s.nextDue dt with
    | some u => elapseN k (s.cycle + dt - u) (s.passTime (u - s.cycle)).refresh
    | none => (s.passTime dt).refresh
def elapse (s : State) (dt : Nat) : State := elapseN s.dueTimes.length dt s.refresh

/-- A write of the host or of firmware to usable HBM4: one that would merge into a bad granule is not performed (R53, R95,
R139, R399). -/
def hostMem (s : State) (pa : Nat) (l : List Byte) : State :=
  if l = [] then s
  else match s.ueHits (.mem pa) l.length true with
    | [] => (s.look pa l.length true).wrLoc (.mem pa) l
    | bad => bad.foldl (fun s g => s.queueBad g true) s
/-- One to the full/empty region writes the region's copy of the bits, whatever a line holds (R107, R108). -/
def hostBits (s : State) (pa : Nat) (l : List Byte) : State :=
  match s.ueHits (.mem pa) l.length true with
  | [] => s.wrPhys pa l
  | bad => bad.foldl (fun s g => s.queueBad g true) s
/-- A write of the host or of firmware by physical address: usable HBM4, the bits above it, or the host window; the
reserved range takes nothing (R483). -/
def hostStore (s : State) (pa : Nat) (l : List Byte) : State :=
  let s := s.hostMem pa (l.take (Config.hbmTop - pa))
  let l := l.drop (Config.hbmTop - pa)
  let pa := max pa Config.hbmTop
  if l = [] then s
  else if Config.hostBase ≤ pa then (if pa + l.length ≤ Config.physTop then s.wrLoc (.host pa) l else s)
  else s.hostBits pa (l.take (Config.feUnused - pa))
/-- The translation agent writes back and invalidates the lines of n bytes (R108, R155): one that a release record
holds is asked for first (R126). -/
def writeBack (s : State) (pa n : Nat) : State :=
  (s.l2.lines.filter fun l => pa ≤ l.pa + 127 && l.pa < pa + n).foldl
    (fun s l => if s.promHolds l.pa then s.askProms l.pa else s.evictLine l) s

/-- A page move by the command processor: the lines of both frames leave their slices, then data and bits are copied
together; from a bad granule nothing is (R107, R399). -/
def movePage (s : State) (src dst : Nat) (sz : PageSize) : State :=
  let n := pageBytes sz
  let r := feGranule
  if src % n ≠ 0 ∨ dst % n ≠ 0 ∨ Config.hbmTop < src + n ∨ Config.hbmTop < dst + n ∨ src = dst then s
  else
    let s := (s.writeBack src n).writeBack dst n
    match s.uesIn src n ++ s.uesIn (r src) (n / 32) with
    | [] => ((((s.look src n false).look dst n true).setMem
        (copyRange (r src) (r dst) (n / 32) (copyRange src dst n s.mem))).clearMarks dst n).clearMarks (r dst) (n / 32)
    | l => s.queueAll l

/-! ## Events that nobody outside the package chooses -/

/-- Accesses at their homes, acknowledgements, results and wakes: each of them ends something, so they go first. -/
def flowEvents (s : State) : List Instr :=
  (s.reqs.filter fun r => !r.done).map (fun r => Instr.homeAccess r.id .ok) ++
  (s.reqs.filter fun r => r.done).map (fun r => Instr.storeAcknowledge r.id) ++
  (s.pend.filter fun p => p.val != .none).map (fun p => Instr.loadResultReturn p.id) ++
  s.wakes.map (fun w => Instr.feWake w.id)
/-- The rest of memory and translation. -/
def memEvents (s : State) : List Instr :=
  (s.l2.proms.filter fun p => !p.asked || !s.promHolds p.pa).map (fun p => Instr.promotionRequest p.pa) ++
  s.waits.map (fun w => Instr.feWokenTimeout w.id) ++ s.sweeps.map (fun w => Instr.parkSweepImmediate w.id) ++
  (s.ctxs.filter fun c => c.parkCnt != 0).flatMap (fun c => [Instr.parkSweep 0 c.id, Instr.parkSweep 1 c.id]) ++
  [Instr.starterZero .k4, .starterZero .k64, .starterZero .m2] ++ (List.range 8).map (fun k => Instr.badpageDrain k) ++
  s.ctxs.flatMap (fun c => c.unacked.map fun t => Instr.tlbInvalidate c.id t) ++
  s.ctxs.flatMap fun c => [Instr.flushComplete c.id, .drainComplete c.id, .killComplete c.id]
/-- Threads and groups. -/
def threadEvents (s : State) : List Instr :=
  s.threads.flatMap (fun x => match x.st with
    | .trapping _ => [Instr.trapEntry x.slot]
    | .slotRest _ => [Instr.faultSlotRetry x.slot]
    | .feRest _ => [Instr.feParkRetry x.slot]
    | .yield _ _ => [Instr.yieldEnd x.slot]
    | _ => []) ++
  (s.threads.filter fun x => x.defer != []).map (fun x => Instr.deferredTrap x.slot) ++
  s.groups.map (fun g => Instr.usleepEnd g.gslot) ++ s.groups.map (fun g => Instr.groupAdmit g.gslot) ++
  (s.groups.filter fun g => g.active).flatMap (fun g =>
    (s.groups.filter fun h => !h.active && h.gslot / 16 == g.gslot / 16).map fun h => Instr.groupSwap g.gslot h.gslot) ++
  (s.groups.filter fun g => !g.active).map (fun g => Instr.groupForcedEntry g.gslot) ++
  (s.groups.filter fun g => g.wait == .racq).map (fun g => Instr.racqGrant (g.gslot / 64) (g.gslot / 16 % 4))
/-- Engines and Slicers. -/
def opEvents (o : Op) : List Instr :=
  match o.kind with
  | .mma => [.mmaStart o.id, .mmaComplete o.id]
  | .peel => [.peelStart o.id, .peelComplete o.id 64, .peelStop o.id]
  | .slice => [.sliceStart o.id] ++ o.spans.map (fun x => Instr.partialMerge o.id x.1) ++
      [.spanClaim o.id, .sliceComplete o.id, .sliceStop o.id]
/-- Where the next teams of a launch may go: one core, or the first cores of a cluster. -/
def places (n : Nat) : List (List (Nat × Nat)) :=
  if n = 1 then (List.range 192).map fun c => [(c, 0)]
  else (List.range 24).map fun k => (List.range n).map fun j => (8 * k + j, 0)
/-- Teams, launches, queues and graphs. -/
def taskEvents (s : State) : List Instr :=
  s.teams.map (fun u => Instr.teamEnd u.uid) ++ s.cp.launches.map (fun l => Instr.launchDoneWrite l.lid) ++
  s.ctxs.map (fun c => Instr.contextSwitchOut c.id) ++ s.saved.map (fun v => Instr.contextRestore v.team.ctx) ++
  (s.cores.filter fun c => c.pendSplit.isSome).map (fun c => Instr.splitChange c.idx) ++
  s.cp.launches.flatMap (fun l => (places (nextTeams l).length).map fun at_ => Instr.teamPlace l.lid at_) ++
  s.cp.launches.map (fun l => Instr.teamPlace l.lid []) ++
  ((List.range 64).filter fun q => (s.queue q).ents != []).flatMap (fun q => [Instr.queueNop q, Instr.submit q]) ++
  s.cp.graphs.flatMap fun g => (List.range g.nodes.length).flatMap fun n =>
    [Instr.nodeComplete g.gid n, .kernelNodeStart g.gid n, .peelNodeStart g.gid n 0, .sliceNodeStart g.gid n,
     .signalNodeStart g.gid n]
/-- The events of the fabric that need no other package. -/
def fabEvents (s : State) : List Instr :=
  (s.fab.wc.filter fun e => !e.sent).map (fun e => Instr.wcAgeExpiry e.id) ++
  (s.fab.pairs.filter fun q => q.out != []).map (fun q => Instr.pathTimeout q.peer) ++
  if 3008 ≤ s.slotTime then
    (((List.range 8).filter fun p => !(s.port p).trained && !(s.port p).quiet).map fun p => Instr.trainingWord p none)
  else []
/-- The platform: a CREATE that waits for room, and a junction at its limit (R433, R442, R451). -/
def platformEvents (s : State) : List Instr :=
  (if s.cp.stat = 0 ∧ s.cp.cmd % 4 = 1 then [Instr.ctxCreate (bits s.cp.cmd 7 4) (s.cp.cmd / 4096)] else []) ++
  (if 115 ≤ s.dev.tj then [.thermtrip] else [])
/-- The acts that an empty agenda tries, in this order. -/
def autoActs (s : State) : List Act :=
  ((if s.cycle % 2 ^ 20 = 0 then [Instr.filterClear] else []) ++ s.platformEvents ++ s.memEvents ++ s.threadEvents ++
    s.ops.flatMap opEvents ++ s.taskEvents ++ s.fabEvents).map Act.event ++
  ((List.range 64).filter fun q => (s.queue q).door).map Act.ringRead ++ [.attest]

end State
end Sys2Proof.Machine
end

