-- ==== Sys2Proof/Machine/Float.lean ====
section
/-! DEFINITION. Lane floating point: arithmetic, comparison, special functions, conversions, dot products and
packed halves (R252, R269 to R276, R283). -/

namespace Sys2Proof.Machine

/-- A fixed-latency float result with its flags. -/
def fixF (d : Nat) (f : State → Nat → Nat × Num.Flags) (s : State) (t : Nat) : State :=
  (s.setF t d (f s t)).advance t
/-- The low bits of a register, as a code of a format (R170). -/
def rdF (ty : Ty) (s : State) (t n : Nat) : Nat := s.rw t n % 2 ^ (Num.fmtOf ty).bits
def flt2 (ty : Ty) (a b : Nat) (f : Num.Fmt → Nat → Nat → Nat × Num.Flags) (s : State) (t : Nat) :
    Nat × Num.Flags := f (Num.fmtOf ty) (rdF ty s t a) (rdF ty s t b)

/-- FADD (R269). -/
def execFadd (h : Hdr) (rm : Rm) (ty : Ty) (d a b : Nat) (s : State) : Out :=
  .next (State.laneOp h (useD d [a, b]) (fixF d (flt2 ty a b fun f => Num.fadd f rm)) s)
/-- FSUB (R269). -/
def execFsub (h : Hdr) (rm : Rm) (ty : Ty) (d a b : Nat) (s : State) : Out :=
  .next (State.laneOp h (useD d [a, b]) (fixF d (flt2 ty a b fun f => Num.fsub f rm)) s)
/-- FMUL (R269). -/
def execFmul (h : Hdr) (rm : Rm) (ty : Ty) (d a b : Nat) (s : State) : Out :=
  .next (State.laneOp h (useD d [a, b]) (fixF d (flt2 ty a b fun f => Num.fmul f rm)) s)
/-- FFMA, one rounding (R269). -/
def execFfma (h : Hdr) (rm : Rm) (ty : Ty) (d a b c : Nat) (s : State) : Out :=
  .next (State.laneOp h (useD d [a, b, c])
    (fixF d fun s t => Num.ffma (Num.fmtOf ty) rm (rdF ty s t a) (rdF ty s t b) (rdF ty s t c)) s)
/-- FMIN (R270). -/
def execFmin (h : Hdr) (ty : Ty) (d a b : Nat) (s : State) : Out :=
  .next (State.laneOp h (useD d [a, b]) (fixF d (flt2 ty a b fun f => Num.fminmax f false)) s)
/-- FMAX (R270). -/
def execFmax (h : Hdr) (ty : Ty) (d a b : Nat) (s : State) : Out :=
  .next (State.laneOp h (useD d [a, b]) (fixF d (flt2 ty a b fun f => Num.fminmax f true)) s)
/-- FSETP (R271). -/
def execFsetp (h : Hdr) (cc : FCond) (ty : Ty) (d a b : Nat) (s : State) : Out :=
  .next (State.laneOp h (useR [a, b])
    (fun s t =>
      let r := Num.fcmp (Num.fmtOf ty) cc (rdF ty s t a) (rdF ty s t b)
      ((s.setP t d r.1).orFlags t r.2).advance t) s)
/-- FSF: a long-latency result within the bound of R188 (R272, log 11). -/
def execFsf (h : Hdr) (fn : FsfFn) (rm : Rm) (ty : Ty) (d a : Nat) (s : State) : Out :=
  .next (State.laneOp h (useD d [a])
    (fun s t => (s.longF t d (Num.fsf fn rm ty (rdF ty s t a))).advance t) s)
/-- FCVT (R273). -/
def execFcvt (h : Hdr) (rm : Rm) (dst src : Ty) (d a : Nat) (s : State) : Out :=
  .next (State.laneOp h (useD d [a])
    (fixF d fun s t => Num.fcvt (Num.fmtOf dst) (Num.fmtOf src) rm (rdF src s t a)) s)
/-- ICVT of a value, either way (R274). -/
def icvt (rm : Rm) (toF : Bool) (ity fty : Ty) (x : Nat) : Nat × Num.Flags :=
  if toF then Num.rnd (Num.fmtOf fty) rm (Num.Dy.ofInt (rdInt ity x)) false
  else
    let r := Num.toInt (tyBits ity) ity.isSigned rm (Num.unpack (Num.fmtOf fty) (x % 2 ^ (Num.fmtOf fty).bits))
    (extInt ity r.1, r.2)
/-- ICVT (R274). -/
def execIcvt (h : Hdr) (rm : Rm) (toF : Bool) (ity fty : Ty) (d a : Nat) (s : State) : Out :=
  .next (State.laneOp h (useD d [a]) (fixF d fun s t => icvt rm toF ity fty (s.rw t a)) s)
/-- FDOT2 (R275). -/
def execFdot2 (h : Hdr) (rm : Rm) (ty : Ty) (d a b c : Nat) (s : State) : Out :=
  .next (State.laneOp h (useD d [a, b, c])
    (fixF d fun s t => Num.fdot (Num.fmtOf ty) 2 16 rm (s.rw t a) (s.rw t b) (s.rw t c)) s)
/-- FDOT4 (R275). -/
def execFdot4 (h : Hdr) (rm : Rm) (ty : Ty) (d a b c : Nat) (s : State) : Out :=
  .next (State.laneOp h (useD d [a, b, c])
    (fixF d fun s t => Num.fdot (Num.fmtOf ty) 4 8 rm (s.rw t a) (s.rw t b) (s.rw t c)) s)
/-- Byte j of a 32-bit word. -/
def byteAt (x j : Nat) : Nat := x / 256 ^ j % 256
/-- MXDOT with the scale bytes that SA and SB choose from C (R276). -/
def execMxdot (h : Hdr) (rm : Rm) (ty : Ty) (sa sb d a b c : Nat) (s : State) : Out :=
  .next (State.laneOp h (useD d [a, b, c])
    (fixF d fun s t =>
      Num.mxdot ty rm (byteAt (s.rw t c) sa) (byteAt (s.rw t c) sb) (s.rw t a) (s.rw t b)) s)

/-- Both 16-bit halves of a float operation, flags ORed (R283). -/
def fhalves (f : Nat → Nat × Num.Flags) : Nat × Num.Flags :=
  ((f 0).1 + 65536 * (f 1).1, (f 0).2 ||| (f 1).2)
def halfOf (x i : Nat) : Nat := x / 65536 ^ i % 65536
/-- HADD2 (R283). -/
def execHadd2 (h : Hdr) (rm : Rm) (ty : Ty) (d a b : Nat) (s : State) : Out :=
  .next (State.laneOp h (useD d [a, b])
    (fixF d fun s t => fhalves fun i => Num.fadd (Num.fmtOf ty) rm (halfOf (s.rw t a) i) (halfOf (s.rw t b) i)) s)
/-- HMUL2 (R283). -/
def execHmul2 (h : Hdr) (rm : Rm) (ty : Ty) (d a b : Nat) (s : State) : Out :=
  .next (State.laneOp h (useD d [a, b])
    (fixF d fun s t => fhalves fun i => Num.fmul (Num.fmtOf ty) rm (halfOf (s.rw t a) i) (halfOf (s.rw t b) i)) s)
/-- HFMA2 (R283). -/
def execHfma2 (h : Hdr) (rm : Rm) (ty : Ty) (d a b c : Nat) (s : State) : Out :=
  .next (State.laneOp h (useD d [a, b, c])
    (fixF d fun s t => fhalves fun i =>
      Num.ffma (Num.fmtOf ty) rm (halfOf (s.rw t a) i) (halfOf (s.rw t b) i) (halfOf (s.rw t c) i)) s)

end Sys2Proof.Machine
end

