-- ==== Sys2Proof/Machine/Dispatch.lean ====
section
/-! DEFINITION. One arm per row of spec/opcode_table.json. -/

namespace Sys2Proof.Machine

def exec (i : Instr) (s : State) : Host.Outcome State Fault Refusal :=
  match i with
  | .nop h => Sys2Proof.Machine.execNop h s
  | .add h sf ty d a b => Sys2Proof.Machine.execAdd h sf ty d a b s
  | .sub h sf ty d a b => Sys2Proof.Machine.execSub h sf ty d a b s
  | .mul h sf ty d a b => Sys2Proof.Machine.execMul h sf ty d a b s
  | .mulh h ty d a b => Sys2Proof.Machine.execMulh h ty d a b s
  | .mad h sf ty d a b c => Sys2Proof.Machine.execMad h sf ty d a b c s
  | .div h ty d a b => Sys2Proof.Machine.execDiv h ty d a b s
  | .rem h ty d a b => Sys2Proof.Machine.execRem h ty d a b s
  | .min h ty d a b => Sys2Proof.Machine.execMin h ty d a b s
  | .max h ty d a b => Sys2Proof.Machine.execMax h ty d a b s
  | .abs h st ty d a => Sys2Proof.Machine.execAbs h st ty d a s
  | .li h d v => Sys2Proof.Machine.execLi h d v s
  | .lih h d v => Sys2Proof.Machine.execLih h d v s
  | .mov h ty d a => Sys2Proof.Machine.execMov h ty d a s
  | .sel h d a b c => Sys2Proof.Machine.execSel h d a b c s
  | .setp h cc ty d a b => Sys2Proof.Machine.execSetp h cc ty d a b s
  | .and h d a b => Sys2Proof.Machine.execAnd h d a b s
  | .or h d a b => Sys2Proof.Machine.execOr h d a b s
  | .xor h d a b => Sys2Proof.Machine.execXor h d a b s
  | .andn h d a b => Sys2Proof.Machine.execAndn h d a b s
  | .shl h d a b => Sys2Proof.Machine.execShl h d a b s
  | .shr h d a b => Sys2Proof.Machine.execShr h d a b s
  | .sar h d a b => Sys2Proof.Machine.execSar h d a b s
  | .shf h left d a b c => Sys2Proof.Machine.execShf h left d a b c s
  | .bfx h sx d a b len => Sys2Proof.Machine.execBfx h sx d a b len s
  | .bfi h fn1 d a b len => Sys2Proof.Machine.execBfi h fn1 d a b len s
  | .popc h d a => Sys2Proof.Machine.execPopc h d a s
  | .clz h d a => Sys2Proof.Machine.execClz h d a s
  | .brev h d a => Sys2Proof.Machine.execBrev h d a s
  | .prmt h d a b c => Sys2Proof.Machine.execPrmt h d a b c s
  | .plog h op na nb d a b => Sys2Proof.Machine.execPlog h op na nb d a b s
  | .pmovSave h d => Sys2Proof.Machine.execPmovSave h d s
  | .pmovLoad h a => Sys2Proof.Machine.execPmovLoad h a s
  | .fadd h rm ty d a b => Sys2Proof.Machine.execFadd h rm ty d a b s
  | .fsub h rm ty d a b => Sys2Proof.Machine.execFsub h rm ty d a b s
  | .fmul h rm ty d a b => Sys2Proof.Machine.execFmul h rm ty d a b s
  | .ffma h rm ty d a b c => Sys2Proof.Machine.execFfma h rm ty d a b c s
  | .fmin h ty d a b => Sys2Proof.Machine.execFmin h ty d a b s
  | .fmax h ty d a b => Sys2Proof.Machine.execFmax h ty d a b s
  | .fsetp h cc ty d a b => Sys2Proof.Machine.execFsetp h cc ty d a b s
  | .fsf h fn rm ty d a => Sys2Proof.Machine.execFsf h fn rm ty d a s
  | .fcvt h rm dst src d a => Sys2Proof.Machine.execFcvt h rm dst src d a s
  | .icvt h rm toF ity fty d a => Sys2Proof.Machine.execIcvt h rm toF ity fty d a s
  | .fdot2 h rm ty d a b c => Sys2Proof.Machine.execFdot2 h rm ty d a b c s
  | .fdot4 h rm ty d a b c => Sys2Proof.Machine.execFdot4 h rm ty d a b c s
  | .mxdot h rm ty sa sb d a b c => Sys2Proof.Machine.execMxdot h rm ty sa sb d a b c s
  | .qnt h tgt d a => Sys2Proof.Machine.execQnt h tgt d a s
  | .pack h ty slot d a b => Sys2Proof.Machine.execPack h ty slot d a b s
  | .unpk h ty d a b => Sys2Proof.Machine.execUnpk h ty d a b s
  | .vadd2 h st ty d a b => Sys2Proof.Machine.execVadd2 h st ty d a b s
  | .vsub2 h st ty d a b => Sys2Proof.Machine.execVsub2 h st ty d a b s
  | .vmax2 h ty d a b => Sys2Proof.Machine.execVmax2 h ty d a b s
  | .vmin2 h ty d a b => Sys2Proof.Machine.execVmin2 h ty d a b s
  | .vcmp2 h cc ty d a b => Sys2Proof.Machine.execVcmp2 h cc ty d a b s
  | .hadd2 h rm ty d a b => Sys2Proof.Machine.execHadd2 h rm ty d a b s
  | .hmul2 h rm ty d a b => Sys2Proof.Machine.execHmul2 h rm ty d a b s
  | .hfma2 h rm ty d a b c => Sys2Proof.Machine.execHfma2 h rm ty d a b c s
  | .shfl h mode seg d a b => Sys2Proof.Machine.execShfl h mode seg d a b s
  | .vote h fn d a => Sys2Proof.Machine.execVote h fn d a s
  | .redg h g op ty d a => Sys2Proof.Machine.execRedg h g op ty d a s
  | .scan h g op excl ty d a => Sys2Proof.Machine.execScan h g op excl ty d a s
  | .elect h fn d => Sys2Proof.Machine.execElect h fn d s
  | .movs h d sc => Sys2Proof.Machine.execMovs h d sc s
  | .movg h hi d a => Sys2Proof.Machine.execMovg h hi d a s
  | .movu h form d a b => Sys2Proof.Machine.execMovu h form d a b s
  | .ld h x d a b => Sys2Proof.Machine.execLd h x d a b s
  | .st h x d a b => Sys2Proof.Machine.execSt h x d a b s
  | .lds h x d b => Sys2Proof.Machine.execLds h x d b s
  | .sts h x d b => Sys2Proof.Machine.execSts h x d b s
  | .ldl h x d b => Sys2Proof.Machine.execLdl h x d b s
  | .stl h x d b => Sys2Proof.Machine.execStl h x d b s
  | .ldnf h x d a b c => Sys2Proof.Machine.execLdnf h x d a b c s
  | .pref h hint off a b => Sys2Proof.Machine.execPref h hint off a b s
  | .atom h op x d a b c => Sys2Proof.Machine.execAtom h op x d a b c s
  | .atoms h op x d b c => Sys2Proof.Machine.execAtoms h op x d b c s
  | .cas h x d a b c => Sys2Proof.Machine.execCas h x d a b c s
  | .cass h x d b c => Sys2Proof.Machine.execCass h x d b c s
  | .red h op x d a b => Sys2Proof.Machine.execRed h op x d a b s
  | .fence h kind scope => Sys2Proof.Machine.execFence h kind scope s
  | .waita h cc x d ad => Sys2Proof.Machine.execWaita h cc x d ad s
  | .pgreq h off a b => Sys2Proof.Machine.execPgreq h off a b s
  | .ldwf h x d ad => Sys2Proof.Machine.execLdwf h x d ad s
  | .ldce h x d ad => Sys2Proof.Machine.execLdce h x d ad s
  | .stwe h x d ad => Sys2Proof.Machine.execStwe h x d ad s
  | .stfs h x d ad => Sys2Proof.Machine.execStfs h x d ad s
  | .feget h x d ad => Sys2Proof.Machine.execFeget h x d ad s
  | .fesetEmpty h x ad => Sys2Proof.Machine.execFesetEmpty h x ad s
  | .fesetFull h x ad => Sys2Proof.Machine.execFesetFull h x ad s
  | .pld h x k fill d a b => Sys2Proof.Machine.execPld h x k fill d a b s
  | .prf h x k fill d a b c => Sys2Proof.Machine.execPrf h x k fill d a b c s
  | .ptagGet h d a => Sys2Proof.Machine.execPtagGet h d a s
  | .ptagSet h d a => Sys2Proof.Machine.execPtagSet h d a s
  | .ptrim h k fill d => Sys2Proof.Machine.execPtrim h k fill d s
  | .pst h x d a b => Sys2Proof.Machine.execPst h x d a b s
  | .bra h off => Sys2Proof.Machine.execBra h off s
  | .call h off => Sys2Proof.Machine.execCall h off s
  | .ret h => Sys2Proof.Machine.execRet h s
  | .jmpr h a => Sys2Proof.Machine.execJmpr h a s
  | .exit h => Sys2Proof.Machine.execExit h s
  | .trap h imm => Sys2Proof.Machine.execTrap h imm s
  | .bkpt h => Sys2Proof.Machine.execBkpt h s
  | .yield h => Sys2Proof.Machine.execYield h s
  | .mma h x b => Sys2Proof.Machine.execMma h x b s
  | .pcopy h x a b => Sys2Proof.Machine.execPcopy h x a b s
  | .slice h x a b => Sys2Proof.Machine.execSlice h x a b s
  | .launch h d a => Sys2Proof.Machine.execLaunch h d a s
  | .sqapp h d a b => Sys2Proof.Machine.execSqapp h d a b s
  | .sqret h d a b => Sys2Proof.Machine.execSqret h d a b s
  | .sqfork h d a b => Sys2Proof.Machine.execSqfork h d a b s
  | .sqlook h d a b => Sys2Proof.Machine.execSqlook h d a b s
  | .engst h d b => Sys2Proof.Machine.execEngst h d b s
  | .mft h d tc => Sys2Proof.Machine.execMft h d tc s
  | .mtt h tc a => Sys2Proof.Machine.execMtt h tc a s
  | .tret h => Sys2Proof.Machine.execTret h s
  | .unop h => Sys2Proof.Machine.execUnop h s
  | .uadd h uns d a b => Sys2Proof.Machine.execUadd h uns d a b s
  | .usub h uns d a b => Sys2Proof.Machine.execUsub h uns d a b s
  | .umul h uns d a b => Sys2Proof.Machine.execUmul h uns d a b s
  | .umad h uns d a b c => Sys2Proof.Machine.execUmad h uns d a b c s
  | .uand h uns d a b => Sys2Proof.Machine.execUand h uns d a b s
  | .uor h uns d a b => Sys2Proof.Machine.execUor h uns d a b s
  | .uxor h uns d a b => Sys2Proof.Machine.execUxor h uns d a b s
  | .ushl h uns d a b => Sys2Proof.Machine.execUshl h uns d a b s
  | .ushr h uns d a b => Sys2Proof.Machine.execUshr h uns d a b s
  | .usar h uns d a b => Sys2Proof.Machine.execUsar h uns d a b s
  | .umin h uns d a b => Sys2Proof.Machine.execUmin h uns d a b s
  | .umax h uns d a b => Sys2Proof.Machine.execUmax h uns d a b s
  | .uli h d v => Sys2Proof.Machine.execUli h d v s
  | .ulih h d hw v => Sys2Proof.Machine.execUlih h d hw v s
  | .umov h uns d a => Sys2Proof.Machine.execUmov h uns d a s
  | .usetq h cc uns d a b => Sys2Proof.Machine.execUsetq h cc uns d a b s
  | .usel h d a b c => Sys2Proof.Machine.execUsel h d a b c s
  | .uqlog h op na nb d a b => Sys2Proof.Machine.execUqlog h op na nb d a b s
  | .umovs h d sc => Sys2Proof.Machine.execUmovs h d sc s
  | .ubfx h sx d a b len => Sys2Proof.Machine.execUbfx h sx d a b len s
  | .upopc h uns d a => Sys2Proof.Machine.execUpopc h uns d a s
  | .ubra h off => Sys2Proof.Machine.execUbra h off s
  | .uloop h off c => Sys2Proof.Machine.execUloop h off c s
  | .ujmpr h a => Sys2Proof.Machine.execUjmpr h a s
  | .bar h b => Sys2Proof.Machine.execBar h b s
  | .bara h b => Sys2Proof.Machine.execBara h b s
  | .barw h b => Sys2Proof.Machine.execBarw h b s
  | .dwait h mask => Sys2Proof.Machine.execDwait h mask s
  | .racq h => Sys2Proof.Machine.execRacq h s
  | .rrel h => Sys2Proof.Machine.execRrel h s
  | .usleep h b => Sys2Proof.Machine.execUsleep h b s
  | .uld h x d a => Sys2Proof.Machine.execUld h x d a s
  | .ust h x d a => Sys2Proof.Machine.execUst h x d a s
  | .ulds h x d a => Sys2Proof.Machine.execUlds h x d a s
  | .usts h x d a => Sys2Proof.Machine.execUsts h x d a s
  | .tflsh h a => Sys2Proof.Machine.execTflsh h a s
  | .tdrn h a => Sys2Proof.Machine.execTdrn h a s
  | .csplit h p => Sys2Proof.Machine.execCsplit h p s
  | .loadResultReturn k => Sys2Proof.Machine.execLoadResultReturn k s
  | .storeAcknowledge r => Sys2Proof.Machine.execStoreAcknowledge r s
  | .homeAccess r ecc => Sys2Proof.Machine.execHomeAccess r ecc s
  | .faultSlotRetry t => Sys2Proof.Machine.execFaultSlotRetry t s
  | .starterZero sz => Sys2Proof.Machine.execStarterZero sz s
  | .fltReply w => Sys2Proof.Machine.execFltReply w s
  | .badpageDrain stack => Sys2Proof.Machine.execBadpageDrain stack s
  | .tlbInvalidate ctx tgt => Sys2Proof.Machine.execTlbInvalidate ctx tgt s
  | .flushComplete ctx => Sys2Proof.Machine.execFlushComplete ctx s
  | .drainComplete ctx => Sys2Proof.Machine.execDrainComplete ctx s
  | .filterClear => Sys2Proof.Machine.execFilterClear s
  | .scrubRead stack ecc => Sys2Proof.Machine.execScrubRead stack ecc s
  | .scrubWrite granule => Sys2Proof.Machine.execScrubWrite granule s
  | .promotionRequest line => Sys2Proof.Machine.execPromotionRequest line s
  | .feWake w => Sys2Proof.Machine.execFeWake w s
  | .feWokenTimeout w => Sys2Proof.Machine.execFeWokenTimeout w s
  | .feParkRetry t => Sys2Proof.Machine.execFeParkRetry t s
  | .parkSweep die ctx => Sys2Proof.Machine.execParkSweep die ctx s
  | .parkSweepImmediate k => Sys2Proof.Machine.execParkSweepImmediate k s
  | .trapEntry t => Sys2Proof.Machine.execTrapEntry t s
  | .deferredTrap t => Sys2Proof.Machine.execDeferredTrap t s
  | .groupSwap out inn => Sys2Proof.Machine.execGroupSwap out inn s
  | .groupAdmit g => Sys2Proof.Machine.execGroupAdmit g s
  | .groupForcedEntry g => Sys2Proof.Machine.execGroupForcedEntry g s
  | .racqGrant core quad => Sys2Proof.Machine.execRacqGrant core quad s
  | .usleepEnd g => Sys2Proof.Machine.execUsleepEnd g s
  | .yieldEnd t => Sys2Proof.Machine.execYieldEnd t s
  | .teamEnd u => Sys2Proof.Machine.execTeamEnd u s
  | .launchDoneWrite l => Sys2Proof.Machine.execLaunchDoneWrite l s
  | .teamPlace l at_ => Sys2Proof.Machine.execTeamPlace l at_ s
  | .splitChange core => Sys2Proof.Machine.execSplitChange core s
  | .teamPreempt u => Sys2Proof.Machine.execTeamPreempt u s
  | .contextSwitchOut ctx => Sys2Proof.Machine.execContextSwitchOut ctx s
  | .contextRestore ctx => Sys2Proof.Machine.execContextRestore ctx s
  | .killComplete ctx => Sys2Proof.Machine.execKillComplete ctx s
  | .fatal code => Sys2Proof.Machine.execFatal code s
  | .mmaStart o => Sys2Proof.Machine.execMmaStart o s
  | .mmaComplete o => Sys2Proof.Machine.execMmaComplete o s
  | .peelStart o => Sys2Proof.Machine.execPeelStart o s
  | .peelComplete o units => Sys2Proof.Machine.execPeelComplete o units s
  | .peelStop o => Sys2Proof.Machine.execPeelStop o s
  | .sliceStart o => Sys2Proof.Machine.execSliceStart o s
  | .spanClaim o => Sys2Proof.Machine.execSpanClaim o s
  | .partialMerge o span => Sys2Proof.Machine.execPartialMerge o span s
  | .sliceComplete o => Sys2Proof.Machine.execSliceComplete o s
  | .sliceStop o => Sys2Proof.Machine.execSliceStop o s
  | .ctxCreate id rpa => Sys2Proof.Machine.execCtxCreate id rpa s
  | .ctxKill id => Sys2Proof.Machine.execCtxKill id s
  | .doorbell q tail => Sys2Proof.Machine.execDoorbell q tail s
  | .queueNop q => Sys2Proof.Machine.execQueueNop q s
  | .submit q => Sys2Proof.Machine.execSubmit q s
  | .kernelNodeStart g n => Sys2Proof.Machine.execKernelNodeStart g n s
  | .peelNodeStart g n core => Sys2Proof.Machine.execPeelNodeStart g n core s
  | .sliceNodeStart g n => Sys2Proof.Machine.execSliceNodeStart g n s
  | .signalNodeStart g n => Sys2Proof.Machine.execSignalNodeStart g n s
  | .nodeComplete g n => Sys2Proof.Machine.execNodeComplete g n s
  | .snap => Sys2Proof.Machine.execSnap s
  | .ringConsWrite r v => Sys2Proof.Machine.execRingConsWrite r v s
  | .rotCalWrite p sl v => Sys2Proof.Machine.execRotCalWrite p sl v s
  | .rotCtlWrite v => Sys2Proof.Machine.execRotCtlWrite v s
  | .rlyCfgWrite off size v => Sys2Proof.Machine.execRlyCfgWrite off size v s
  | .attGo => Sys2Proof.Machine.execAttGo s
  | .mgmtRegWrite off size v => Sys2Proof.Machine.execMgmtRegWrite off size v s
  | .packageReset b => Sys2Proof.Machine.execPackageReset b s
  | .thermtrip => Sys2Proof.Machine.execThermtrip s
  | .clockThrottle m => Sys2Proof.Machine.execClockThrottle m s
  | .hostCompletion r ok => Sys2Proof.Machine.execHostCompletion r ok s
  | .hostCompletionTimeout r => Sys2Proof.Machine.execHostCompletionTimeout r s
  | .trainingWord p w => Sys2Proof.Machine.execTrainingWord p w s
  | .flitSend p => Sys2Proof.Machine.execFlitSend p s
  | .wcAgeExpiry e => Sys2Proof.Machine.execWcAgeExpiry e s
  | .write p f => Sys2Proof.Machine.execWrite p f s
  | .opw p f => Sys2Proof.Machine.execOpw p f s
  | .read p f => Sys2Proof.Machine.execRead p f s
  | .rmw p f => Sys2Proof.Machine.execRmw p f s
  | .fereq p f => Sys2Proof.Machine.execFereq p f s
  | .fereqCancel p f => Sys2Proof.Machine.execFereqCancel p f s
  | .reply p f => Sys2Proof.Machine.execReply p f s
  | .ack p f => Sys2Proof.Machine.execAck p f s
  | .rfail p f => Sys2Proof.Machine.execRfail p f s
  | .idle p f => Sys2Proof.Machine.execIdle p f s
  | .relayFlit p f => Sys2Proof.Machine.execRelayFlit p f s
  | .unknownFlit p f => Sys2Proof.Machine.execUnknownFlit p f s
  | .sourceLost p j => Sys2Proof.Machine.execSourceLost p j s
  | .sourceLive p j => Sys2Proof.Machine.execSourceLive p j s
  | .pathTimeout peer => Sys2Proof.Machine.execPathTimeout peer s
  | .slotClockLost => Sys2Proof.Machine.execSlotClockLost s
  | .slotClockRegained => Sys2Proof.Machine.execSlotClockRegained s
  | .ualinkRequest p q => Sys2Proof.Machine.execUalinkRequest p q s
  | .ualinkResponse r status data => Sys2Proof.Machine.execUalinkResponse r status data s
  | .ualinkLinkDown p => Sys2Proof.Machine.execUalinkLinkDown p s
  | .slotrefEdge long => Sys2Proof.Machine.execSlotrefEdge long s
  | .ownClockSlotStep => Sys2Proof.Machine.execOwnClockSlotStep s
  | .wavelengthFailure p w => Sys2Proof.Machine.execWavelengthFailure p w s
  | .ualinkLinkUp p => Sys2Proof.Machine.execUalinkLinkUp p s
  | .corePowerGate c => Sys2Proof.Machine.execCorePowerGate c s
  | .coreWake c => Sys2Proof.Machine.execCoreWake c s
  | .debuggerHalt c => Sys2Proof.Machine.execDebuggerHalt c s
  | .debuggerResume c => Sys2Proof.Machine.execDebuggerResume c s

end Sys2Proof.Machine
end

