-- ==== Sys2Proof/Machine/Step.lean ====
section
/-! DEFINITION. One step: the agenda's next act, or what is due of itself (log 4). And the placing of one
instruction where the step fetches (log 3). -/

namespace Sys2Proof.Machine

/-- Perform an act. An event of the agenda is an instruction without an encoding; without power only a package
reset acts (R451). -/
def act (s : State) (a : Act) : Host.Outcome State Fault Refusal :=
  match a with
  | .issue c q =>
    if !s.dev.power then .next s
    else match s.issueAt c q [] with
      | (s, some i) => exec i s
      | (s, none) => .next s
  | .issueBusy c q l =>
    if !s.dev.power then .next s
    else match s.issueAt c q l with
      | (s, some i) => exec i s
      | (s, none) => .next s
  | .event (.packageReset b) => exec (.packageReset b) s
  | .event i => if s.dev.power && (toRaw i).isNone then exec i s else .next s
  | .hostWrite pa d => if s.dev.power && (!s.dev.bootfail || Config.hostBase ≤ pa) then .next (s.hostStore pa d) else .next s
  | .upset g => .next (s.upset g)
  | .stateError t => if s.dev.power && s.threads.any (fun x => x.slot == t) then
      .next (s.kill (s.ctxOfThread t) .state (.thread t) 0 (s.th t).pc.toNat 0)
    else .next s
  | .spadError c o => if s.dev.power then .next (s.spadUe c o (.node 0 0) o) else .next s
  | .dropCode c q => .next (s.dropCode c fun k => k == q)
  | .writeBack pa n => if s.dev.power then .next (s.writeBack pa n) else .next s
  | .moveFrame a b sz => if s.dev.power then .next (s.movePage a b sz) else .next s
  | .ringRead q => if s.dev.power then .next (s.serveDoor q) else .next s
  | .attest => if s.dev.power then .next s.attest else .next s
  | .idle => .next s

/-- An act that has something to do. -/
def due (s : State) (a : Act) : Bool := match act s a with | .next t => decide (t ≠ s) | _ => false
/-- What an empty agenda runs: an access or result that can end; else in even cycles the first event that has something
to do, else the first quadrant that can issue; in odd cycles the other way round; else time alone passes. -/
def autoAct (s : State) : Act :=
  match (s.flowEvents.map Act.event).find? fun a => due s a with
  | some a => a
  | none =>
    let ev := fun (_ : Unit) => (s.autoActs.find? fun a => due s a)
    let is := fun (_ : Unit) => s.firstReady.map fun x => Act.issue x.1 x.2
    (if s.cycle % 2 = 0 then (ev ()).orElse is else (is ()).orElse ev).getD .idle

/-- One step of the machine. The ages are brought up to date before time passes, so that they count from the cycle of
the act before. -/
def step (s : State) : Host.Outcome State Fault Refusal :=
  match s.agenda with
  | x :: l => act ((s.setAgenda l).elapse x.dt) x.act
  | [] =>
    if s.dev.power then
      let s' := s.elapse 1
      act s' (autoAct s')
    else .fault .noPower

/-! ## Placing one instruction (log 3) -/

namespace FetchWord
def rootPa : Nat := 0x100000
def codePa : Nat := 0x200000
def codeVa : Nat := 0x400000
def pointer (pa : Nat) : Nat := pa / 4096 * 2 ^ 24 + 0xC001
def leaf (pa : Nat) : Nat := pa / 4096 * 2 ^ 24 + 7
/-- Three pointers and a leaf that map the page of `codeVa`, and the instruction at its start. -/
def image (nbits w : Nat) : List (Nat × List Byte) :=
  [(rootPa, leBytes 8 (pointer 0x101000)), (0x101000, leBytes 8 (pointer 0x102000)),
   (0x102000 + 8 * 2, leBytes 8 (pointer 0x103000)), (0x103000, leBytes 8 (leaf codePa)),
   (codePa, leBytes 8 (w % 2 ^ nbits))]
def ctx : Ctx := { Ctx.none 0 with root := rootPa }
def team : Team :=
  { Team.none 0 with ctx := 0, core := 0, ngrp := 1, nx := 1, ny := 1, nz := 1, sys := true,
                     slots := List.replicate 8 DSlot.zero, bars := List.replicate 16 (Bar.start 1) }
def group : Group :=
  { Group.none 0 with base := 64, extOk := true, ext := true, g := List.replicate 64 0,
                      q := List.replicate 8 false, active := true }
def thread (node : Nat) : Thread :=
  { Thread.none 0 with pc := BitVec.ofNat 64 (node * 2 ^ 48 + codeVa), regs := List.replicate 128 LaneReg.zero,
                       preds := List.replicate 12 false, st := .run }
end FetchWord

/-- The state with the instruction where the very next step fetches: a context, its page table, a team of one
group with one live thread on core 0, quadrant 0, and that quadrant's issue at the head of the agenda. -/
def State.withFetchWord (s : State) (nbits w : Nat) : State :=
  { s with
    dev := { s.dev with power := true, fatal := false }
    ctxs := [FetchWord.ctx], teams := [FetchWord.team], groups := [FetchWord.group]
    threads := [FetchWord.thread s.fab.node]
    cores := updAt s.cores 0 fun c => { c with halted := false, gated := false, next := [0, 0, 0, 0] }
    mem := (FetchWord.image nbits w).foldl (fun m p => Memory.setMany m p.1 p.2) s.mem
    ue := [], ce := [], tlb := [], walks := [], code := [], pend := []
    agenda := ⟨0, .issue 0 0⟩ :: s.agenda }

end Sys2Proof.Machine
end

