-- ==== Sys2Proof/Safety.lean ====
section
/-! DEFINITION. What counts as a well-kept state: the invariant that every step keeps. -/

namespace Sys2Proof.Safety
open Sys2Proof.Machine

/-- The three byte memories are in canonical form. -/
def memOk (s : State) : Bool := Memory.wf s.mem && Memory.wf s.spad && Memory.wf s.acc

/-- What every step keeps: canonical memories, 32 full/empty bits in each L2 line that holds the bits of its page, no
access on its way that is named at or above the next name, no thread twice in the bundle. -/
def Inv (s : State) : Prop :=
  memOk s = true ∧ (∀ l ∈ s.l2.lines, l.bv = true → l.fe.length = 32) ∧ (∀ r ∈ s.reqs, r.id < s.nextId) ∧
  s.cur.threads.Nodup

end Sys2Proof.Safety
end

