-- ==== Sys2Proof/Certificates/Slice0/Obligations.lean ====
section
/-! DEFINITION. The statements for the provers, in the vocabulary of `Says`: what each instruction and each event
does where it completes, when it traps instead, and what the machine keeps. -/

open Sys2Proof Sys2Proof.Machine

/-! ## Vocabulary of the statements -/

namespace Sys2Proof.Says

/-- A lane register, and a "w/i" operand, as 32 bits. -/
def w (s : State) (t n : Nat) : Word := (s.wreg t n).val
def src (s : State) (t : Nat) : Src → Word
  | .reg n => w s t n
  | .imm v => BitVec.ofInt 32 v
/-- A uniform register of a group, g0 reading 0, and a "g/i" operand, as 64 bits. -/
def g (s : State) (gs n : Nat) : DWord := if n = 0 then 0 else (s.gr gs).g.getD n 0
def gsrc (s : State) (gs : Nat) : Src → DWord
  | .reg n => g s gs n
  | .imm v => BitVec.ofInt 64 v
/-- The n low bits of a register as a number of an integer type, and a number as a register of that type. -/
def num (ty : Ty) (x : Word) : Int :=
  if ty.isSigned then (x.setWidth (tyBits ty)).toInt else (x.setWidth (tyBits ty)).toNat
def word (ty : Ty) (z : Int) : Word :=
  if ty.isSigned then (BitVec.ofInt (tyBits ty) z).signExtend 32 else (BitVec.ofInt (tyBits ty) z).setWidth 32
/-- The one narrowing of an exact result before its low bits are taken. -/
def clamp (sf : SatF) (ty : Ty) (z : Int) : Int :=
  match sf with
  | .wrap => z
  | .ssat => if z < -2 ^ (tyBits ty - 1) then -2 ^ (tyBits ty - 1)
             else if 2 ^ (tyBits ty - 1) - 1 < z then 2 ^ (tyBits ty - 1) - 1 else z
  | .usat => if z < 0 then 0 else if 2 ^ tyBits ty - 1 < z then 2 ^ tyBits ty - 1 else z

/-- Every thread of the bundle passes steps 6 to 8 of R242: it has not ended, its group holds the registers named,
and where HAZ is set neither its guard nor, with a true guard, a register it reads is pending. -/
def Ready (s : State) (h : Hdr) (u : Uses) : Prop :=
  s.cur.threads.Nodup ∧ ∀ t ∈ s.cur.threads,
    (s.th t).st ≠ .ended ∧ (∀ n ∈ u.held, State.holds (s.grOf t) n = true) ∧
    ((s.grOf t).haz = true →
      s.guardPend t h.gd = none ∧ (s.guardT t h.gd = true → ∀ o ∈ u.reads, s.opdPend t o = false))

/-- Each thread t of the bundle with a true guard changes as f t says, a thread with a false guard goes to the next
instruction in sequence; with M = 1 a thread rests while it has pending results. Nothing else of the machine changes:
no other thread, no memory, no group, no special register. -/
def goesTo (s : State) (h : Hdr) (f : Nat → Thread → Thread) : State :=
  { s with threads := s.threads.map fun x =>
      if x.slot ∈ s.cur.threads then
        { (if s.guardT x.slot h.gd then f x.slot x else { x with pc := x.pc + BitVec.ofNat 64 s.cur.len }) with
          st := if h.m && s.threadPend x.slot then .proof else .run, retry := 0, re := .first, hbuf := [] }
      else x }
/-- The same where every thread goes to the next instruction in sequence. -/
def goes (s : State) (h : Hdr) (f : Nat → Thread → Thread) : State :=
  goesTo s h fun t x => { f t x with pc := x.pc + BitVec.ofNat 64 s.cur.len }
def same (x : Thread) : Thread := x
/-- One register written, its tag 0; one predicate written. -/
def put (d : Nat) (v : Word) (x : Thread) : Thread := { x with regs := setAt x.regs d ⟨v, Tag.zero⟩ }
def putP (d : Nat) (b : Bool) (x : Thread) : Thread := { x with preds := setAt x.preds d b }
/-- Flags ORed into FPSTAT. -/
def flag (f : Num.Flags) (x : Thread) : Thread := { x with fpstat := x.fpstat ||| f }
/-- A float result: the register and the flags. -/
def putF (d : Nat) (r : Nat × Num.Flags) (x : Thread) : Thread := flag r.2 (put d (BitVec.ofNat 32 r.1) x)

/-- A register value with tag 0. -/
def reg (v : Word) : LaneReg := ⟨v, Tag.zero⟩
/-- The results that the threads of a list with a true guard leave pending for w_d, named from n on. -/
def pends (s : State) (h : Hdr) (d : Nat) (v : Nat → LaneReg) (fp : Bool) : Nat → List Nat → List Pend
  | _, [] => []
  | n, t :: l =>
    if s.guardT t h.gd then ⟨n, .reg t d, .reg (v t), 0, fp, s.cycle⟩ :: pends s h d v fp (n + 1) l
    else pends s h d v fp n l
/-- As `goes`, with a long-latency result v t pending for w_d of each thread with a true guard; with M = 1 those
threads rest. -/
def longs (s : State) (h : Hdr) (d : Nat) (v : Nat → LaneReg) (fp : Bool) (f : Nat → Thread → Thread) : State :=
  { s with
    threads := s.threads.map fun x =>
      if x.slot ∈ s.cur.threads then
        { (if s.guardT x.slot h.gd then f x.slot x else x) with
          pc := x.pc + BitVec.ofNat 64 s.cur.len,
          st := if h.m && (s.guardT x.slot h.gd || s.threadPend x.slot) then .proof else .run,
          retry := 0, re := .first, hbuf := [] }
      else x
    pend := s.pend ++ pends s h d v fp s.nextId s.cur.threads
    nextId := s.nextId + (pends s h d v fp s.nextId s.cur.threads).length }

/-- Trap entry of R388: the saved registers of the new level, the handler's address, the thread able to issue. -/
def trapped (s : State) (t : Nat) (code : Byte) (epc addr : DWord) (stat : BitVec 6) : State :=
  s.updThread t fun x =>
    { x with
      pc := x.trap.vec + BitVec.ofNat 64 (0x100 * x.trap.level), st := .run, retry := 0, re := .first, hbuf := []
      trap :=
        if x.trap.level = 0 then { x.trap with level := 1, cause1 := code, epc1 := epc, addr1 := addr, stat := stat }
        else { x.trap with level := 2, cause2 := code, epc2 := epc, addr2 := addr, stat := stat } }
/-- TRAP_STAT of a trap at the instruction itself: the level it came from, and XW of an 8-byte instruction. -/
def stat0 (s : State) (t : Nat) : BitVec 6 := BitVec.ofNat 6 ((s.th t).trap.level + 4 * b2n (s.cur.len == 8))
/-- Thread t may take a trap at once: it is below level 2, waits for nothing and has no pending result. -/
def Free (s : State) (t : Nat) : Prop :=
  (s.th t).trap.level < 2 ∧ (s.th t).re = .first ∧ s.threadPend t = false

/-- A halfword of the 64-bit source taken, swapped and filled as a control byte of R266 says. -/
def permHalf (x : BitVec 64) (c : BitVec 8) : BitVec 16 :=
  let taken := x.extractLsb' (16 * (c.toNat % 4)) 16
  let hw := if c.getLsbD 2 then taken.extractLsb' 0 8 ++ taken.extractLsb' 8 8 else taken
  match c.toNat / 8 % 4 with
  | 0 => hw
  | 1 => 0
  | 2 => if hw.getLsbD 15 then 0xFFFF else 0
  | _ => hw.extractLsb' 0 8 ++ hw.extractLsb' 0 8

end Sys2Proof.Says

open Sys2Proof.Says

/-! ## Lane instructions on registers -/

/-- R251, R255: ADD, SUB, MUL, MAD compute exactly and narrow once. -/
def Obligations.LaneAddSubMulMad : Prop :=
  ∀ (s : State) (h : Hdr) (sf : SatF) (ty : Ty) (d a : Nat) (b : Src) (c : Nat),
    (Ready s h (useD d (a :: b.w)) →
      exec (.add h sf ty d a b) s =
        .next (goes s h fun t => (put d (word ty (clamp sf ty (num ty (w s t a) + num ty (src s t b)))))) ∧
      exec (.sub h sf ty d a b) s =
        .next (goes s h fun t => (put d (word ty (clamp sf ty (num ty (w s t a) - num ty (src s t b)))))) ∧
      exec (.mul h sf ty d a b) s =
        .next (goes s h fun t => (put d (word ty (clamp sf ty (num ty (w s t a) * num ty (src s t b))))))) ∧
    (Ready s h (useD d (a :: b.w ++ [c])) →
      exec (.mad h sf ty d a b c) s =
        .next (goes s h fun t => (put d (word ty (clamp sf ty (num ty (w s t a) * num ty (src s t b) + num ty (w s t c)))))))

/-- R256, R258: MULH, MIN, MAX, ABS. -/
def Obligations.LaneMulhMinMaxAbs : Prop :=
  ∀ (s : State) (h : Hdr) (ty : Ty) (d a : Nat) (b : Src),
    (Ready s h (useD d (a :: b.w)) →
      exec (.mulh h ty d a b) s =
        .next (goes s h fun t => (put d (word ty (num ty (w s t a) * num ty (src s t b) / 2 ^ tyBits ty)))) ∧
      exec (.min h ty d a b) s =
        .next (goes s h fun t => (put d (word ty
          (if num ty (w s t a) ≤ num ty (src s t b) then num ty (w s t a) else num ty (src s t b))))) ∧
      exec (.max h ty d a b) s =
        .next (goes s h fun t => (put d (word ty
          (if num ty (w s t a) ≤ num ty (src s t b) then num ty (src s t b) else num ty (w s t a)))))) ∧
    (ty.isSigned = true → Ready s h (useD d [a]) →
      exec (.abs h false ty d a) s =
        .next (goes s h fun t => (put d (word ty (if num ty (w s t a) < 0 then -num ty (w s t a) else num ty (w s t a))))) ∧
      exec (.abs h true ty d a) s =
        .next (goes s h fun t => (put d (word ty
          (if num ty (w s t a) = -2 ^ (tyBits ty - 1) then 2 ^ (tyBits ty - 1) - 1
           else if num ty (w s t a) < 0 then -num ty (w s t a) else num ty (w s t a))))))

/-- R257: a quotient toward zero and its remainder come later; R391: a thread whose divisor is 0 traps DIVZ. -/
def Obligations.LaneDivRem : Prop :=
  ∀ (s : State) (h : Hdr) (ty : Ty) (d a : Nat) (b : Src), Ready s h (useD d (a :: b.w)) →
    ((∀ t ∈ s.cur.threads, s.guardT t h.gd = true → num ty (src s t b) ≠ 0) →
      exec (.div h ty d a b) s =
        .next (longs s h d (fun t => reg <| word ty (Int.tdiv (num ty (w s t a)) (num ty (src s t b)))) false fun _ => same) ∧
      exec (.rem h ty d a b) s =
        .next (longs s h d (fun t => reg <| word ty (Int.tmod (num ty (w s t a)) (num ty (src s t b)))) false fun _ => same)) ∧
    (∀ t, s.cur.threads = [t] → s.guardT t h.gd = true → num ty (src s t b) = 0 → Free s t →
      exec (.div h ty d a b) s = .next (trapped s t 0x04 (s.th t).pc 0 (stat0 s t)) ∧
      exec (.rem h ty d a b) s = .next (trapped s t 0x04 (s.th t).pc 0 (stat0 s t)))

/-- R239, R259, R260, R261: constants, NOP, MOV, SEL, SETP. MOV with FN or MD set decodes to no instruction. -/
def Obligations.LaneConstMoveSelect : Prop :=
  (∀ r : Raw, r.s = false → r.op = 0x0D → r.fn ≠ 0 ∨ r.md ≠ 0 → decodeRaw r = none) ∧
  ∀ (s : State) (h : Hdr) (cc : Cond) (ty : Ty) (d a v : Nat) (z : Int) (b : Src) (c : Nat),
    (Ready s h (useR []) → exec (.nop h) s = .next (goes s h fun _ => same)) ∧
    (Ready s h (useD d []) → exec (.li h d z) s = .next (goes s h fun _ => put d (BitVec.ofInt 32 z))) ∧
    (Ready s h ⟨[d], [.w d]⟩ →
      exec (.lih h d v) s =
        .next (goes s h fun t => (put d (BitVec.ofNat 16 v ++ (w s t d).setWidth 16)))) ∧
    (Ready s h ⟨[d, a], [.w a]⟩ →
      exec (.mov h .s32 d a) s = .next (goes s h fun t => (put d (w s t a)))) ∧
    (Ready s h ⟨[d, d + 1, a, a + 1], [.w a, .w (a + 1)]⟩ →
      exec (.mov h .w64 d a) s =
        .next (goes s h fun t x => put (d + 1) (w s t (a + 1)) (put d (w s t a) x))) ∧
    (Ready s h ⟨[d, d + 1, d + 2, d + 3, a, a + 1, a + 2, a + 3], [.w a, .w (a + 1), .w (a + 2), .w (a + 3)]⟩ →
      exec (.mov h .w128 d a) s =
        .next (goes s h fun t x => put (d + 3) (w s t (a + 3)) (put (d + 2) (w s t (a + 2))
          (put (d + 1) (w s t (a + 1)) (put d (w s t a) x))))) ∧
    (Ready s h ⟨d :: a :: b.w, .w a :: b.opd ++ [.p c]⟩ →
      exec (.sel h d a b c) s = .next (goes s h fun t => (put d (if s.rp t c then w s t a else src s t b)))) ∧
    (Ready s h (useR (a :: b.w)) →
      exec (.setp h cc ty d a b) s =
        .next (goes s h fun t => (putP d (match cc with
          | .eq => num ty (w s t a) == num ty (src s t b) | .ne => num ty (w s t a) != num ty (src s t b)
          | .lt => decide (num ty (w s t a) < num ty (src s t b))
          | .le => decide (num ty (w s t a) ≤ num ty (src s t b))
          | .gt => decide (num ty (w s t a) > num ty (src s t b))
          | .ge => decide (num ty (w s t a) ≥ num ty (src s t b))))))

/-- R262: logic and shifts of 32-bit patterns, the shift amount being the whole of B. Their extension word has no
field but GD: with another bit set it decodes to no instruction. -/
def Obligations.LaneLogicShift : Prop :=
  (∀ r : Raw, r.s = false → 0x10 ≤ r.op → r.op ≤ 0x16 → r.e27 ≠ 0 → decodeRaw r = none) ∧
  ∀ (s : State) (h : Hdr) (d a : Nat) (b : Src), Ready s h (useD d (a :: b.w)) →
    exec (.and h d a b) s = .next (goes s h fun t => (put d (w s t a &&& src s t b))) ∧
    exec (.or h d a b) s = .next (goes s h fun t => (put d (w s t a ||| src s t b))) ∧
    exec (.xor h d a b) s = .next (goes s h fun t => (put d (w s t a ^^^ src s t b))) ∧
    exec (.andn h d a b) s = .next (goes s h fun t => (put d (w s t a &&& ~~~(src s t b)))) ∧
    exec (.shl h d a b) s = .next (goes s h fun t => (put d (w s t a <<< (src s t b).toNat))) ∧
    exec (.shr h d a b) s = .next (goes s h fun t => (put d (w s t a >>> (src s t b).toNat))) ∧
    exec (.sar h d a b) s = .next (goes s h fun t => (put d ((w s t a).sshiftRight (src s t b).toNat)))

/-- R263, R264, R265: funnel shift, bit fields, counts and bit reversal. A field of BFX or BFI has 1 to 32 bits: another
length decodes to no instruction, nor does POPC, CLZ or BREV with FN, TY or MD set. -/
def Obligations.LaneFieldsCounts : Prop :=
  (∀ r : Raw, r.s = false →
    (r.op = 0x1A ∨ r.op = 0x1B ∨ r.op = 0x1C → r.fn ≠ 0 ∨ r.tc ≠ 0 ∨ r.md ≠ 0 → decodeRaw r = none) ∧
    (r.op = 0x18 ∨ r.op = 0x19 → r.md = 0 ∨ 32 < r.md → decodeRaw r = none)) ∧
  ∀ (s : State) (h : Hdr) (f1 : Bool) (d a : Nat) (b : Src) (c len : Nat),
    (Ready s h (useD d (a :: b.w ++ [c])) →
      exec (.shf h true d a b c) s =
        .next (goes s h fun t => (put d (((w s t a ++ w s t c) <<< min (src s t b).toNat 32).extractLsb' 32 32))) ∧
      exec (.shf h false d a b c) s =
        .next (goes s h fun t => (put d (((w s t c ++ w s t a) >>> min (src s t b).toNat 32).extractLsb' 0 32)))) ∧
    (1 ≤ len → len ≤ 32 → Ready s h (useD d (a :: b.w)) →
      exec (.bfx h false d a b len) s =
        .next (goes s h fun t => (put d ((w s t a >>> ((src s t b).toNat % 32)).setWidth len |>.setWidth 32))) ∧
      exec (.bfx h true d a b len) s =
        .next (goes s h fun t => (put d ((w s t a >>> ((src s t b).toNat % 32)).setWidth len |>.signExtend 32)))) ∧
    (1 ≤ len → len ≤ 32 → Ready s h ⟨d :: a :: b.w, .w d :: .w a :: b.opd⟩ →
      ∃ v : Nat → Word, exec (.bfi h f1 d a b len) s = .next (goes s h fun t => put d (v t)) ∧
        ∀ t, ∀ i < 32, (v t).getLsbD i =
          (if (src s t b).toNat % 32 ≤ i ∧ i < (src s t b).toNat % 32 + len
           then (w s t a).getLsbD (i - (src s t b).toNat % 32) else (w s t d).getLsbD i)) ∧
    (Ready s h (useD d [a]) →
      exec (.popc h d a) s =
        .next (goes s h fun t => (put d (BitVec.ofNat 32 ((List.range 32).countP (w s t a).getLsbD)))) ∧
      (∃ n : Nat → Nat, (∀ t, n t ≤ 32 ∧ (∀ i < n t, (w s t a).getMsbD i = false) ∧
          (n t < 32 → (w s t a).getMsbD (n t) = true)) ∧
        exec (.clz h d a) s = .next (goes s h fun t => put d (BitVec.ofNat 32 (n t)))) ∧
      (∃ v : Nat → Word, (∀ t, ∀ i < 32, (v t).getLsbD i = (w s t a).getMsbD i) ∧
        exec (.brev h d a) s = .next (goes s h fun t => put d (v t))))

/-- R266 to R268: byte permutation, predicate logic, predicates to and from a register. -/
def Obligations.LanePrmtPredicates : Prop :=
  ∀ (s : State) (h : Hdr) (op : LogOp) (na nb : Bool) (d a b c : Nat),
    (Ready s h (useD d [a, b, c]) →
      exec (.prmt h d a b c) s =
        .next (goes s h fun t => put d (permHalf (w s t b ++ w s t a) ((w s t c).extractLsb' 8 8) ++
          permHalf (w s t b ++ w s t a) ((w s t c).extractLsb' 0 8)))) ∧
    (Ready s h ⟨[], [.p a, .p b]⟩ →
      exec (.plog h op na nb d a b) s =
        .next (goes s h fun t => (putP d (match op with
          | .and => (s.rp t a ^^ na) && (s.rp t b ^^ nb)
          | .or => (s.rp t a ^^ na) || (s.rp t b ^^ nb)
          | .xor => (s.rp t a ^^ na) ^^ (s.rp t b ^^ nb))))) ∧
    (Ready s h ⟨[d], (List.range 12).map .p⟩ →
      ∃ v : Nat → Word, (∀ t, ∀ i < 32, (v t).getLsbD i = (decide (i < 12) && s.rp t i)) ∧
        exec (.pmovSave h d) s = .next (goes s h fun t => put d (v t))) ∧
    (Ready s h (useR [a]) →
      exec (.pmovLoad h a) s =
        .next (goes s h fun t x => (List.range 12).foldl (fun y i => putP i ((w s t a).getLsbD i) y) x))

/-! ## Lane floating point -/

namespace Sys2Proof.Says
/-- The low bits of a register as a code of a float format. -/
def code (ty : Ty) (x : Word) : Nat := x.toNat % 2 ^ (Num.fmtOf ty).bits
/-- One 16-bit half of a register. -/
def half (x : Word) (i : Nat) : Nat := (x.extractLsb' (16 * i) 16).toNat
/-- Two 16-bit float results packed, their flags ORed. -/
def both (f : Nat → Nat × Num.Flags) : Nat × Num.Flags := ((f 0).1 + 65536 * (f 1).1, (f 0).2 ||| (f 1).2)
/-- The threads of t's group in the bundle whose guard is true: the participants of a group operation. -/
def part (s : State) (h : Hdr) (t : Nat) : List Nat :=
  s.cur.threads.filter fun x => x / 32 == t / 32 && s.guardT x h.gd
/-- The n elements of k bits of a packed register are finite, with these signs and values. -/
def Elems (f : Nat → Num.FVal) (n k a : Nat) (xs : List (Bool × Num.Dy)) : Prop :=
  xs.length = n ∧ ∀ i < n, f (a / 2 ^ (k * i) % 2 ^ k) =
    .fin (xs.getD i (false, Num.Dy.zero)).1 (xs.getD i (false, Num.Dy.zero)).2
/-- The exact sum of the products. -/
def dotOf (xs ys : List (Bool × Num.Dy)) : Num.Dy := Num.Dy.sum (List.zipWith (fun x y => x.2.mul y.2) xs ys)
/-- Every product is a zero of sign l. -/
def zeroOf (l : Bool) (xs ys : List (Bool × Num.Dy)) : Bool :=
  (List.zipWith (fun x y => (x.2.m == 0 || y.2.m == 0) && ((x.1 != y.1) == l)) xs ys).all id
/-- An MX element before its scale: two's complement in units of 2^-6, or a float code (R172). -/
def mxVal (ty : Ty) (c : Nat) : Num.FVal :=
  if ty = .s8 then .fin (decide (128 ≤ c)) ⟨if 128 ≤ c then (c : Int) - 256 else c, -6⟩ else Num.unpack (Num.fmtOf ty) c
/-- The slot width of R279. -/
def slotWidth : Ty → Nat
  | .s8 | .z8 | .e4m3 | .e5m2 => 8 | .e3m2 | .e2m3 => 6 | .e2m1 => 4 | _ => 16
/-- An integer held to the range of a type (R167). -/
def clampTy (ty : Ty) (x : Int) : Int :=
  let lo : Int := if ty.isSigned then -(2 ^ (tyBits ty - 1)) else 0
  let hi : Int := if ty.isSigned then 2 ^ (tyBits ty - 1) - 1 else 2 ^ tyBits ty - 1
  if x < lo then lo else if hi < x then hi else x
/-- What UNPK makes of the code in the low bits of x: an integer extended, a float's exact value (R280). -/
def Unpacked (ty : Ty) (x : Word) (r : Nat × Num.Flags) : Prop :=
  (ty.isInt = true → r.2 = Num.fNone ∧ BitVec.ofNat 32 r.1 =
    if ty.isSigned then (x.setWidth (slotWidth ty)).signExtend 32 else (x.setWidth (slotWidth ty)).setWidth 32) ∧
  (ty.isInt = false → (∀ g, Num.unpack (Num.fmtOf ty) x.toNat = .nan g → r = (0x7FC00000, if g then Num.fInv else Num.fNone)) ∧
    (∀ n, Num.unpack (Num.fmtOf ty) x.toNat = .inf n → r = (Num.infCode Num.f32 n, Num.fNone)) ∧
    ∀ n d, Num.unpack (Num.fmtOf ty) x.toNat = .fin n d → r.2 = Num.fNone ∧
      ∃ y, Num.unpack Num.f32 r.1 = .fin n y ∧ y.eq d = true)
/-- The targets of R277. -/
def QntTgtOk : QntTgt → Prop
  | .pl m => 1 ≤ m ∧ m ≤ 12
  | .mx ty => ty ∈ [Ty.e4m3, .e5m2, .e3m2, .e2m3, .e2m1]
  | _ => True
/-- Bit i of QNT's word (R278) for a sign and a magnitude code. -/
def qntBit (tgt : QntTgt) (scale : Nat) (c : Bool × Nat) (i : Nat) : Bool :=
  if 16 ≤ i ∧ i < 24 then scale.testBit (i - 16)
  else match tgt with
    | .pl m => if i = 12 then c.1 else decide (i < m) && c.2.testBit (m - 1 - i)
    | .tern => if i = 12 then c.1 else i == 0 && c.2.testBit 0
    | .bin => i == 12 && c.1
    | .mxint8 => (BitVec.ofInt 8 (if c.1 then -(c.2 : Int) else c.2)).getLsbD i
    | .mx ty => (c.2 + if c.1 then 2 ^ ((Num.fmtOf ty).bits - 1) else 0).testBit i
/-- An element of the Sifter's block, an infinity replaced by the largest finite value (R187). -/
def siftIn : Num.FVal → Bool × Num.Dy
  | .inf n => (n, if n then (Num.maxFin Num.f32).neg else Num.maxFin Num.f32)
  | .fin n d => (n, d)
  | .nan _ => (false, Num.Dy.zero)
def isInf : Num.FVal → Bool | .inf _ => true | _ => false
/-- Held to 0 to 0xFE. -/
def clamp3 (e : Int) : Int := if e < 0 then 0 else if 0xFE < e then 0xFE else e
/-- A register of two halves. -/
def pack2 (hi lo : BitVec 16) : Word := hi ++ lo
/-- A half of a register as a number of a 16-bit type. -/
def num2 (ty : Ty) (x : Word) (i : Nat) : Int := num ty (x >>> (16 * i))
/-- The saturation of a packed operation with SAT. -/
def sat2 (st : Bool) (ty : Ty) : SatF := if st then (if ty.isSigned then .ssat else .usat) else .wrap
/-- The order conditions of R233 on integers. -/
def cond (cc : Cond) (x y : Int) : Bool :=
  match cc with
  | .eq => x == y | .ne => x != y | .lt => decide (x < y) | .le => decide (x ≤ y)
  | .gt => decide (x > y) | .ge => decide (x ≥ y)
end Sys2Proof.Says

/-- R252, R269 to R271: float arithmetic and comparison on the codes in the low bits of the registers, the flags ORed
into FPSTAT. R181: the exact sum or product rounded once, NaN, infinite and zero operands. R270, R271: the lesser, the
greater and the conditions. -/
def Obligations.LaneFloatArithmetic : Prop :=
  (∀ (s : State) (h : Hdr) (rm : Rm) (cc : FCond) (ty : Ty) (d a b c : Nat),
    (Ready s h (useD d [a, b]) →
      exec (.fadd h rm ty d a b) s = .next (goes s h fun t =>
        putF d (Num.fadd (Num.fmtOf ty) rm (code ty (w s t a)) (code ty (w s t b)))) ∧
      exec (.fsub h rm ty d a b) s = .next (goes s h fun t =>
        putF d (Num.fsub (Num.fmtOf ty) rm (code ty (w s t a)) (code ty (w s t b)))) ∧
      exec (.fmul h rm ty d a b) s = .next (goes s h fun t =>
        putF d (Num.fmul (Num.fmtOf ty) rm (code ty (w s t a)) (code ty (w s t b)))) ∧
      exec (.fmin h ty d a b) s = .next (goes s h fun t =>
        putF d (Num.fminmax (Num.fmtOf ty) false (code ty (w s t a)) (code ty (w s t b)))) ∧
      exec (.fmax h ty d a b) s = .next (goes s h fun t =>
        putF d (Num.fminmax (Num.fmtOf ty) true (code ty (w s t a)) (code ty (w s t b))))) ∧
    (Ready s h (useD d [a, b, c]) →
      exec (.ffma h rm ty d a b c) s = .next (goes s h fun t =>
        putF d (Num.ffma (Num.fmtOf ty) rm (code ty (w s t a)) (code ty (w s t b)) (code ty (w s t c))))) ∧
    (Ready s h (useR [a, b]) →
      exec (.fsetp h cc ty d a b) s = .next (goes s h fun t x =>
        flag (Num.fcmp (Num.fmtOf ty) cc (code ty (w s t a)) (code ty (w s t b))).2
          (putP d (Num.fcmp (Num.fmtOf ty) cc (code ty (w s t a)) (code ty (w s t b))).1 x)))) ∧
  ∀ f ∈ [Num.f32, Num.f16, Num.bf16], ∀ (rm : Rm) (a b c : Nat) (n k l : Bool) (x y z : Num.Dy),
    (Num.isNan (Num.unpack f a) = true ∨ Num.isNan (Num.unpack f b) = true →
      (∀ r, r = (f.nan, if Num.isSig (Num.unpack f a) || Num.isSig (Num.unpack f b) then Num.fInv else Num.fNone) →
        Num.fadd f rm a b = r ∧ Num.fsub f rm a b = r ∧ Num.fmul f rm a b = r ∧ (Num.ffma f rm a b c).1 = f.nan) ∧
      ∀ cc, Num.fcmp f cc a b = (decide (cc = .ne ∨ cc = .nan),
        if Num.isSig (Num.unpack f a) || Num.isSig (Num.unpack f b) || [FCond.lt, .le, .gt, .ge].contains cc then Num.fInv
        else Num.fNone)) ∧
    (Num.unpack f a = .inf n → Num.unpack f b = .inf k →
      Num.fadd f rm a b = (if n = k then (Num.infCode f n, Num.fNone) else (f.nan, Num.fInv)) ∧
      Num.fsub f rm a b = (if n ≠ k then (Num.infCode f n, Num.fNone) else (f.nan, Num.fInv)) ∧
      Num.fmul f rm a b = (Num.infCode f (n != k), Num.fNone)) ∧
    (Num.unpack f a = .inf n → Num.unpack f b = .fin k y →
      Num.fadd f rm a b = (Num.infCode f n, Num.fNone) ∧ Num.fadd f rm b a = (Num.infCode f n, Num.fNone) ∧
      Num.fsub f rm a b = (Num.infCode f n, Num.fNone) ∧ Num.fsub f rm b a = (Num.infCode f (!n), Num.fNone) ∧
      (∀ r, r = (if y.m = 0 then (f.nan, Num.fInv) else (Num.infCode f (n != k), Num.fNone)) →
        Num.fmul f rm a b = r ∧ Num.fmul f rm b a = r) ∧
      Num.fminmax f n a b = (b % 2 ^ f.bits, Num.fNone) ∧ Num.fminmax f (!n) a b = (a % 2 ^ f.bits, Num.fNone) ∧
      ∀ cc, Num.fcmp f cc a b = ((match cc with
        | .lt | .le => n | .gt | .ge => !n | .ne | .num => true | .eq | .nan => false), Num.fNone)) ∧
    (Num.unpack f a = .fin n x → Num.unpack f b = .fin k y →
      (∃ v, v.eq (x.add y) = true ∧
        Num.fadd f rm a b = Num.rnd f rm v (if x.m = 0 ∧ y.m = 0 ∧ n = k then n else rm == .rd)) ∧
      (∃ v, v.eq (x.sub y) = true ∧
        Num.fsub f rm a b = Num.rnd f rm v (if x.m = 0 ∧ y.m = 0 ∧ n ≠ k then n else rm == .rd)) ∧
      (∃ v, v.eq (x.mul y) = true ∧ Num.fmul f rm a b = Num.rnd f rm v (n != k)) ∧
      (Num.unpack f c = .fin l z → ∃ v, v.eq ((x.mul y).add z) = true ∧ Num.ffma f rm a b c =
        Num.rnd f rm v (if (x.m = 0 ∨ y.m = 0) ∧ z.m = 0 ∧ (n != k) = l then l else rm == .rd)) ∧
      (x.lt y = true ∨ x.m = 0 ∧ y.m = 0 ∧ n = true ∧ k = false →
        Num.fminmax f false a b = (a % 2 ^ f.bits, Num.fNone) ∧ Num.fminmax f true a b = (b % 2 ^ f.bits, Num.fNone) ∧
        Num.fminmax f false b a = (a % 2 ^ f.bits, Num.fNone) ∧ Num.fminmax f true b a = (b % 2 ^ f.bits, Num.fNone)) ∧
      ∀ cc, Num.fcmp f cc a b = ((match cc with
        | .eq => x.eq y | .ne => !x.eq y | .lt => x.lt y | .le => x.le y | .gt => y.lt x | .ge => y.le x
        | .num => true | .nan => false), Num.fNone)) ∧
    (Num.isNan (Num.unpack f a) = true → ∀ mx, ∀ g, g = (if Num.isSig (Num.unpack f a) || Num.isSig (Num.unpack f b)
        then Num.fInv else Num.fNone) →
      (Num.isNan (Num.unpack f b) = true → Num.fminmax f mx a b = (f.nan, g)) ∧
      (Num.isNan (Num.unpack f b) = false →
        Num.fminmax f mx a b = (b % 2 ^ f.bits, g) ∧ Num.fminmax f mx b a = (b % 2 ^ f.bits, g)) ∧
      (Num.ffma f rm b c a).1 = f.nan)

/-- R175, R176: in RN mode a result that is finite is a value nearest to the exact one, on a tie the one with an even
code; in RZ it is the nearest not greater in magnitude, in RU the nearest not less, in RD the nearest not greater. INX is
set just when a finite result is not the exact value; the results of an overflow, and when OVF and UNF are set (R179).
The formats are those of R169. -/
def Obligations.RoundNearest : Prop :=
  ∀ f ∈ [Num.f32, Num.f16, Num.bf16, Num.e4m3, Num.e5m2, Num.e3m2, Num.e2m3, Num.e2m1],
  ∀ (x : Num.Dy) (z : Bool),
    (∀ (n : Bool) (v : Num.Dy), Num.unpack f (Num.rnd f .rn x z).1 = .fin n v →
      (∀ (c : Nat) (k : Bool) (y : Num.Dy), Num.unpack f c = .fin k y →
        Num.Dy.le (Num.Dy.abs (Num.Dy.sub v x)) (Num.Dy.abs (Num.Dy.sub y x)) = true) ∧
      ((Num.rnd f .rn x z).2.getLsbD 4 = !Num.Dy.eq v x) ∧
      (∀ (c : Nat) (k : Bool) (y : Num.Dy), Num.unpack f c = .fin k y → y.eq v = false →
        Num.Dy.eq (Num.Dy.abs (v.sub x)) (Num.Dy.abs (y.sub x)) = true → (Num.rnd f .rn x z).1 % 2 = 0)) ∧
    (∀ (rm : Rm) (m : Bool) (u : Num.Dy), Num.unpack f (Num.rnd f rm x z).1 = .fin m u →
      ((Num.rnd f rm x z).2.getLsbD 4 = !u.eq x) ∧
      (rm = .rz → u.abs.le x.abs = true ∧ 0 ≤ u.m * x.m ∧ ∀ (c : Nat) (k : Bool) (y : Num.Dy),
        Num.unpack f c = .fin k y → y.abs.le x.abs = true → y.abs.le u.abs = true) ∧
      (rm = .ru → x.le (Num.maxFin f) = true → x.le u = true ∧ ∀ (c : Nat) (k : Bool) (y : Num.Dy),
        Num.unpack f c = .fin k y → x.le y = true → u.le y = true) ∧
      (rm = .rd → (Num.maxFin f).neg.le x = true → u.le x = true ∧ ∀ (c : Nat) (k : Bool) (y : Num.Dy),
        Num.unpack f c = .fin k y → y.le x = true → y.le u = true) ∧
      ((Num.rnd f rm x z).2.getLsbD 3 = true → (Num.rnd f rm x z).2.getLsbD 4 = true) ∧
      (Num.Dy.le ⟨1, 1 - (f.bias : Int)⟩ x.abs = true → (Num.rnd f rm x z).2.getLsbD 3 = false) ∧
      (u.abs.lt ⟨1, 1 - (f.bias : Int)⟩ = true → (Num.rnd f rm x z).2.getLsbD 3 = !u.eq x)) ∧
    ∀ rm : Rm, (Num.rnd f rm x z).2.getLsbD 0 = false ∧ (Num.rnd f rm x z).2.getLsbD 1 = false ∧
      (x.abs.le (Num.maxFin f) = true → (Num.rnd f rm x z).2.getLsbD 2 = false) ∧
      (x.m ≠ 0 → (Num.rnd f rm x z).2.getLsbD 2 = true → (Num.rnd f rm x z).2.getLsbD 4 = true ∧ (Num.rnd f rm x z).1 =
        if 16 ≤ f.bits ∧ (rm = .rn ∨ rm = .ru ∧ 0 < x.m ∨ rm = .rd ∧ x.m < 0) then Num.infCode f (decide (x.m < 0))
        else Num.withSign f (decide (x.m < 0)) f.maxCode) ∧
      (∀ b, Num.unpack f (Num.rnd f rm x z).1 = .inf b → (Num.rnd f rm x z).2.getLsbD 2 = true)

/-- R272 to R274: FSF goes on, leaves the model's result pending and sets its flags; which value within the bound of R188
it is, is the free value of log 11, and that the flags are set at issue is the choice of log 19. Its results and flags for
the special inputs of R189. FCVT and ICVT convert the code or the integer in the low bits of the register. -/
def Obligations.LaneFloatConvert : Prop :=
  (∀ (s : State) (h : Hdr) (fn : FsfFn) (rm : Rm) (ty dst sty : Ty) (d a : Nat),
    Ready s h (useD d [a]) →
      exec (.fsf h fn rm ty d a) s = .next
        (longs s h d (fun t => reg <| BitVec.ofNat 32 (Num.fsf fn rm ty (code ty (w s t a))).1) true
          fun t => flag (Num.fsf fn rm ty (code ty (w s t a))).2) ∧
      exec (.fcvt h rm dst sty d a) s = .next (goes s h fun t =>
        putF d (Num.fcvt (Num.fmtOf dst) (Num.fmtOf sty) rm (code sty (w s t a)))) ∧
      exec (.icvt h rm true ty sty d a) s = .next (goes s h fun t =>
        putF d (Num.rnd (Num.fmtOf sty) rm ⟨num ty (w s t a), 0⟩ false)) ∧
      exec (.icvt h rm false ty sty d a) s = .next (goes s h fun t x =>
        flag (Num.toInt (tyBits ty) ty.isSigned rm (Num.unpack (Num.fmtOf sty) (code sty (w s t a)))).2
          (put d (word ty (Num.toInt (tyBits ty) ty.isSigned rm
            (Num.unpack (Num.fmtOf sty) (code sty (w s t a)))).1) x))) ∧
  ∀ (rm : Rm) (p : FsfFn × Nat × Nat × Num.Flags), p ∈ [
      (.rcp, 0, 0x7F800000, Num.fDz), (.rcp, 0x80000000, 0xFF800000, Num.fDz),
      (.rcp, 0x7F800000, 0, Num.fNone), (.rcp, 0xFF800000, 0x80000000, Num.fNone),
      (.rsq, 0, 0x7F800000, Num.fDz), (.rsq, 0x80000000, 0xFF800000, Num.fDz),
      (.rsq, 0xFF800000, 0x7FC00000, Num.fInv), (.rsq, 0x7F800000, 0, Num.fNone),
      (.sqrt, 0x80000000, 0x80000000, Num.fNone), (.sqrt, 0xFF800000, 0x7FC00000, Num.fInv),
      (.sqrt, 0x7F800000, 0x7F800000, Num.fNone),
      (.ex2, 0x7F800000, 0x7F800000, Num.fNone), (.ex2, 0xFF800000, 0, Num.fNone),
      (.lg2, 0, 0xFF800000, Num.fDz), (.lg2, 0x80000000, 0xFF800000, Num.fDz),
      (.lg2, 0xFF800000, 0x7FC00000, Num.fInv), (.lg2, 0x7F800000, 0x7F800000, Num.fNone), (.lg2, 0x3F800000, 0, Num.fNone),
      (.sin, 0x7F800000, 0x7FC00000, Num.fInv), (.cos, 0x7F800000, 0x7FC00000, Num.fInv),
      (.sin, 0xFF800000, 0x7FC00000, Num.fInv), (.cos, 0xFF800000, 0x7FC00000, Num.fInv),
      (.sin, 0, 0, Num.fNone), (.sin, 0x80000000, 0x80000000, Num.fNone),
      (.tanh, 0x7F800000, 0x3F800000, Num.fNone), (.tanh, 0xFF800000, 0xBF800000, Num.fNone),
      (.tanh, 0, 0, Num.fNone), (.tanh, 0x80000000, 0x80000000, Num.fNone)] →
    Num.fsf p.1 rm .f32 p.2.1 = (p.2.2.1, p.2.2.2)

/-- R275, R276, R283: dot products and packed halves. R181, R275, R276: a dot product is the exact sum of its products,
rounded once; a NaN in it, and a NaN scale, give the canonical NaN. -/
def Obligations.LaneFloatPacked : Prop :=
  (∀ (s : State) (h : Hdr) (rm : Rm) (ty : Ty) (sa sb d a b c : Nat),
    (Ready s h (useD d [a, b, c]) →
      exec (.fdot2 h rm ty d a b c) s = .next (goes s h fun t =>
        putF d (Num.fdot (Num.fmtOf ty) 2 16 rm (w s t a).toNat (w s t b).toNat (w s t c).toNat)) ∧
      exec (.fdot4 h rm ty d a b c) s = .next (goes s h fun t =>
        putF d (Num.fdot (Num.fmtOf ty) 4 8 rm (w s t a).toNat (w s t b).toNat (w s t c).toNat)) ∧
      (sa < 4 → sb < 4 → exec (.mxdot h rm ty sa sb d a b c) s = .next (goes s h fun t =>
        putF d (Num.mxdot ty rm ((w s t c).extractLsb' (8 * sa) 8).toNat ((w s t c).extractLsb' (8 * sb) 8).toNat
          (w s t a).toNat (w s t b).toNat))) ∧
      exec (.hfma2 h rm ty d a b c) s = .next (goes s h fun t => putF d (both fun i =>
        Num.ffma (Num.fmtOf ty) rm (half (w s t a) i) (half (w s t b) i) (half (w s t c) i)))) ∧
    (Ready s h (useD d [a, b]) →
      exec (.hadd2 h rm ty d a b) s = .next (goes s h fun t => putF d (both fun i =>
        Num.fadd (Num.fmtOf ty) rm (half (w s t a) i) (half (w s t b) i))) ∧
      exec (.hmul2 h rm ty d a b) s = .next (goes s h fun t => putF d (both fun i =>
        Num.fmul (Num.fmtOf ty) rm (half (w s t a) i) (half (w s t b) i))))) ∧
  (∀ (rm : Rm) (ty : Ty) (n k a b c : Nat) (l : Bool) (z : Num.Dy) (xs ys : List (Bool × Num.Dy)),
    (n = 2 ∧ k = 16 ∧ (ty = .f16 ∨ ty = .bf16)) ∨ (n = 4 ∧ k = 8 ∧ (ty = .e4m3 ∨ ty = .e5m2)) →
    (Num.unpack Num.f32 c = .fin l z → Elems (Num.unpack (Num.fmtOf ty)) n k a xs →
      Elems (Num.unpack (Num.fmtOf ty)) n k b ys → ∃ v, v.eq ((dotOf xs ys).add z) = true ∧
      Num.fdot (Num.fmtOf ty) n k rm a b c =
        Num.rnd Num.f32 rm v (if z.m = 0 ∧ zeroOf l xs ys = true then l else rm == .rd)) ∧
    (∀ i < n, Num.isNan (Num.unpack Num.f32 c) = true ∨ Num.isNan (Num.unpack (Num.fmtOf ty) (a / 2 ^ (k * i))) = true ∨
        Num.isNan (Num.unpack (Num.fmtOf ty) (b / 2 ^ (k * i))) = true →
      (Num.fdot (Num.fmtOf ty) n k rm a b c).1 = 0x7FC00000)) ∧
  ∀ (rm : Rm) (ty : Ty) (ea eb n k a b : Nat) (xs ys : List (Bool × Num.Dy)), ty ∈ [Ty.s8, .e4m3, .e5m2, .e3m2, .e2m3, .e2m1] →
    n = (if ty = .e2m1 then 8 else 4) → k = (if ty = .e2m1 then 4 else if ty = .e3m2 ∨ ty = .e2m3 then 6 else 8) →
    (ea = 0xFF ∨ eb = 0xFF → Num.mxdot ty rm ea eb a b = (0x7FC00000, Num.fNone)) ∧
    (ea < 0xFF → eb < 0xFF → Elems (mxVal ty) n k a xs → Elems (mxVal ty) n k b ys →
      ∃ v, v.eq ((dotOf xs ys).scale ((ea : Int) - 127 + ((eb : Int) - 127))) = true ∧ Num.mxdot ty rm ea eb a b =
        Num.rnd Num.f32 rm v (if zeroOf ((xs.headD (false, Num.Dy.zero)).1 != (ys.headD (false, Num.Dy.zero)).1) xs ys = true
          then ((xs.headD (false, Num.Dy.zero)).1 != (ys.headD (false, Num.Dy.zero)).1) else rm == .rd))

/-- R277 to R280: the Sifter's word for each participant, PACK and UNPK of one slot, bit by bit. R186, R187: the Sifter's
scale has the least error of the candidates and its codes are the nearest of the target's grid. -/
def Obligations.LaneQuantizePack : Prop :=
  (∀ (s : State) (h : Hdr) (tgt : QntTgt) (ty : Ty) (slot d a : Nat) (b : Src),
    (∀ gs, (∀ t ∈ s.cur.threads, t / 32 = gs) → s.cur.threads ≠ [] → Ready s h (useD d [a]) →
      ∀ r, r = Num.sift tgt ((List.range 32).map fun l =>
          if gs * 32 + l ∈ s.cur.threads ∧ s.guardT (gs * 32 + l) h.gd = true
          then Num.unpack Num.f32 (w s (gs * 32 + l) a).toNat else .fin false Num.Dy.zero) →
      exec (.qnt h tgt d a) s = .next (goes s h fun t x =>
        flag r.flags (put d (BitVec.ofNat 32 (qntWord tgt r.scale (r.codes.getD (t % 32) (false, 0)))) x)) ∧
      (QntTgtOk tgt → ∀ t, ∀ i < 32, (BitVec.ofNat 32 (qntWord tgt r.scale (r.codes.getD (t % 32) (false, 0)))).getLsbD i =
        qntBit tgt r.scale (r.codes.getD (t % 32) (false, 0)) i)) ∧
    (Ready s h (useD d (a :: b.w)) → ∀ k, k = slotWidth ty → slot < (if k = 4 then 8 else if k = 16 then 2 else 4) →
      ty ∉ [Ty.s32, .z32, .w64, .w128, .f32] →
      (∃ v : Nat → Word, exec (.pack h ty slot d a b) s = .next (goes s h fun t => put d (v t)) ∧ ∀ t, ∀ i < 32,
        (v t).getLsbD i = if k * slot ≤ i ∧ i < k * slot + k then
            (if ty.isInt then BitVec.ofInt 32 (clampTy ty (src s t b).toInt) else src s t b).getLsbD (i - k * slot)
          else (w s t a).getLsbD i) ∧
      ∃ r : Nat → Nat × Num.Flags, exec (.unpk h ty d a b) s = .next (goes s h fun t => putF d (r t)) ∧
        ∀ t, Unpacked ty (w s t a >>> (k * ((src s t b).toNat % (if k = 4 then 8 else if k = 16 then 2 else 4)))) (r t))) ∧
  ∀ (tgt : QntTgt) (vs : List Num.FVal) (r : Num.Sifted), QntTgtOk tgt → r = Num.sift tgt vs →
    (vs.any Num.isNan = true → r = ⟨0xFF, vs.map fun _ => (false, 0), Num.fInv⟩) ∧
    (vs.any Num.isNan = false → (∀ v ∈ vs, (siftIn v).2.m = 0) → r = ⟨0, vs.map fun _ => (false, 0), Num.fNone⟩) ∧
    (∀ top : Num.Dy, vs.any Num.isNan = false → top ∈ vs.map (fun v => (siftIn v).2.abs) → top.m ≠ 0 →
      (∀ v ∈ vs, (siftIn v).2.abs.le top = true) → ∀ e0 : Int, e0 = clamp3 (top.lg - Num.emaxOf tgt + 127) →
      (r.scale : Int) ∈ [e0 - 1, e0, e0 + 1] ∧ r.scale ≤ 0xFE ∧
      (∀ e : Nat, (e : Int) ∈ [e0 - 1, e0, e0 + 1] → e ≤ 0xFE →
        (Num.siftErr tgt (vs.map siftIn) r.scale).le (Num.siftErr tgt (vs.map siftIn) e) = true ∧
        ((Num.siftErr tgt (vs.map siftIn) r.scale).eq (Num.siftErr tgt (vs.map siftIn) e) = true → e ≤ r.scale)) ∧
      r.codes = (vs.map siftIn).map (fun x => (x.1, (Num.quantMag tgt (x.2.abs.scale (127 - (r.scale : Int)))).1)) ∧
      r.flags = (if vs.any isInf then Num.fOvf else Num.fNone) ||| (if (Num.siftErr tgt (vs.map siftIn) r.scale).m = 0
        then Num.fNone else Num.fInx)) ∧
    (∀ u : Num.Dy, 0 ≤ u.m → ∀ q, q = Num.quantMag tgt u →
      (∀ m st hi, (m, st, hi) = (match tgt with
          | .pl m => (m, 1 - (m : Int), 2 ^ m - 1) | .tern => (1, 0, 1) | .mxint8 => (7, -6, 127)
          | .bin => (0, 0, 0) | .mx _ => (0, 0, 0)) → m ≠ 0 → q.2.eq ⟨q.1, st⟩ = true ∧ q.1 ≤ hi ∧ ∀ c ≤ hi,
        Num.Dy.le (Num.Dy.abs (u.sub q.2)) (Num.Dy.abs (u.sub ⟨c, st⟩)) = true ∧
        (c ≠ q.1 → Num.Dy.eq (Num.Dy.abs (u.sub q.2)) (Num.Dy.abs (u.sub ⟨c, st⟩)) = true → q.1 % 2 = 0)) ∧
      (tgt = .bin → q = (1, ⟨1, 0⟩)) ∧
      (∀ ty, tgt = .mx ty → (∃ d, Num.unpack (Num.fmtOf ty) q.1 = .fin false d ∧ d.eq q.2 = true) ∧ ∀ c k y,
        Num.unpack (Num.fmtOf ty) c = .fin k y →
        Num.Dy.le (Num.Dy.abs (u.sub q.2)) (Num.Dy.abs (u.sub y)) = true ∧
        (y.eq q.2 = false → Num.Dy.eq (Num.Dy.abs (u.sub q.2)) (Num.Dy.abs (u.sub y)) = true → q.1 % 2 = 0)))

/-- R281, R282: packed 16-bit integers, each half on its own. -/
def Obligations.LanePackedInt : Prop :=
  ∀ (s : State) (h : Hdr) (st : Bool) (cc : Cond) (ty : Ty) (d a b : Nat), ty.is16I = true →
    Ready s h (useD d [a, b]) →
      exec (.vadd2 h st ty d a b) s = .next (goes s h fun t => put d (pack2
        (BitVec.ofInt 16 (clamp (sat2 st ty) ty (num2 ty (w s t a) 1 + num2 ty (w s t b) 1)))
        (BitVec.ofInt 16 (clamp (sat2 st ty) ty (num2 ty (w s t a) 0 + num2 ty (w s t b) 0))))) ∧
      exec (.vsub2 h st ty d a b) s = .next (goes s h fun t => put d (pack2
        (BitVec.ofInt 16 (clamp (sat2 st ty) ty (num2 ty (w s t a) 1 - num2 ty (w s t b) 1)))
        (BitVec.ofInt 16 (clamp (sat2 st ty) ty (num2 ty (w s t a) 0 - num2 ty (w s t b) 0))))) ∧
      exec (.vmax2 h ty d a b) s = .next (goes s h fun t => put d (pack2
        (BitVec.ofInt 16 (if num2 ty (w s t a) 1 ≤ num2 ty (w s t b) 1 then num2 ty (w s t b) 1 else num2 ty (w s t a) 1))
        (BitVec.ofInt 16 (if num2 ty (w s t a) 0 ≤ num2 ty (w s t b) 0 then num2 ty (w s t b) 0
          else num2 ty (w s t a) 0)))) ∧
      exec (.vmin2 h ty d a b) s = .next (goes s h fun t => put d (pack2
        (BitVec.ofInt 16 (if num2 ty (w s t a) 1 ≤ num2 ty (w s t b) 1 then num2 ty (w s t a) 1 else num2 ty (w s t b) 1))
        (BitVec.ofInt 16 (if num2 ty (w s t a) 0 ≤ num2 ty (w s t b) 0 then num2 ty (w s t a) 0
          else num2 ty (w s t b) 0)))) ∧
      exec (.vcmp2 h cc ty d a b) s = .next (goes s h fun t => put d (pack2
        (if cond cc (num2 ty (w s t a) 1) (num2 ty (w s t b) 1) then 0xFFFF else 0)
        (if cond cc (num2 ty (w s t a) 0) (num2 ty (w s t b) 0) then 0xFFFF else 0)))

/-! ## Group operations and moves between register files -/

namespace Sys2Proof.Says

/-- The source lane of SHFL in segments of n lanes, for the thread at lane l and d = B[4:0] (R285). -/
def shflFrom (mode : ShflMode) (n l d : Nat) : Nat :=
  l - l % n + (match mode with
    | .rot => (l % n + d) % n
    | .xch => l % n ^^^ d % n
    | .bc => d % n
    | .rev => n - 1 - l % n)
/-- What REDG and SCAN make of values in lane order (R288, R289). -/
def comb (op : RedOp) (ty : Ty) (l : List Word) : Word :=
  match op, ty with
  | .add, .f32 => BitVec.ofNat 32 (if l = [] then 0 else Num.sumF32 (l.map (·.toNat)))
  | .min, .f32 => BitVec.ofNat 32 (combineF false (l.map (·.toNat)))
  | .max, .f32 => BitVec.ofNat 32 (combineF true (l.map (·.toNat)))
  | .add, _ => l.foldl (· + ·) 0
  | .min, ty => word ty (l.foldl (fun z x => if z ≤ num ty x then z else num ty x) (if ty.isSigned then 2 ^ 31 - 1 else 2 ^ 32 - 1))
  | .max, ty => word ty (l.foldl (fun z x => if z ≤ num ty x then num ty x else z) (if ty.isSigned then -2 ^ 31 else 0))

end Sys2Proof.Says

/-- R284 to R286: SHFL and VOTE among the participants of each thread's group. R287: ELECT sets one participant's predicate;
.rr starts after the group's cursor and moves it to the lane chosen. -/
def Obligations.GroupShflVote : Prop :=
  ∀ (s : State) (h : Hdr) (mode : ShflMode) (seg d a : Nat) (b : Src),
    (Ready s h ⟨d :: a :: b.w, shflReads mode a b⟩ →
      exec (.shfl h mode seg d a b) s = .next (goes s h fun t =>
        put d (if t / 32 * 32 + shflFrom mode (2 ^ seg) (t % 32) ((src s t b).toNat % 32) ∈ part s h t
               then w s (t / 32 * 32 + shflFrom mode (2 ^ seg) (t % 32) ((src s t b).toNat % 32)) a else w s t a))) ∧
    (Ready s h ⟨[], [.p a]⟩ →
      exec (.vote h .and d a) s = .next (goes s h fun t => putP d ((part s h t).all fun x => s.rp x a)) ∧
      exec (.vote h .or d a) s = .next (goes s h fun t => putP d ((part s h t).any fun x => s.rp x a)) ∧
      exec (.vote h .par d a) s = .next (goes s h fun t =>
        putP d ((part s h t).countP (fun x => s.rp x a) % 2 == 1))) ∧
    (Ready s h ⟨[d], [.p a]⟩ →
      (∃ v : Nat → Word, (∀ t, ∀ i < 32, (v t).getLsbD i =
          decide (t / 32 * 32 + i ∈ part s h t ∧ s.rp (t / 32 * 32 + i) a = true)) ∧
        exec (.vote h .mask d a) s = .next (goes s h fun t => put d (v t))) ∧
      exec (.vote h .cnt d a) s = .next (goes s h fun t => put d (BitVec.ofNat 32
        ((part s h t).countP (fun x => s.rp x a) + 2 ^ 8 * (part s h t).length +
          (match (part s h t).find? fun x => s.rp x a with
            | some x => 2 ^ 16 * (x % 32)
            | none => 2 ^ 21))))) ∧
    (Ready s h ⟨[], []⟩ →
      exec (.elect h .lo d) s = .next (goes s h fun t => putP d (t == (part s h t).headD 0)) ∧
      exec (.elect h .hi d) s = .next (goes s h fun t => putP d (t == (part s h t).getLastD 0)) ∧
      (∀ gs c, (∀ t ∈ s.cur.threads, t / 32 = gs) → part s h (gs * 32) ≠ [] →
        c = (match (part s h (gs * 32)).find? fun x => (s.gr gs).cursor < x % 32 with
          | some x => x | none => (part s h (gs * 32)).headD 0) →
        exec (.elect h .rr d) s = .next { goes s h (fun t => putP d (t == c)) with
          groups := s.groups.map fun x => if x.gslot = gs then { x with cursor := c % 32 } else x }))

/-- R288, R289: reductions and prefixes over the participants in lane order come later. -/
def Obligations.GroupReduceScan : Prop :=
  ∀ (s : State) (h : Hdr) (g : Bool) (op : RedOp) (ty : Ty) (d a : Nat), (ty = .s32 ∨ ty = .z32 ∨ ty = .f32) →
    Ready s h (useD d [a]) →
      exec (.redg h g op ty d a) s = .next (longs s h d
        (fun t => reg (comb op ty ((part s h t).map fun x => w s x a))) false fun _ => same) ∧
      exec (.scan h g op false ty d a) s = .next (longs s h d
        (fun t => reg (comb op ty (((part s h t).filter (· ≤ t)).map fun x => w s x a))) false fun _ => same) ∧
      exec (.scan h g op true ty d a) s = .next (longs s h d
        (fun t => reg (comb op ty (((part s h t).filter (· < t)).map fun x => w s x a))) false fun _ => same)

/-- R29, R30, R290: special registers and g registers to lane registers; CLOCKLO latches the clock's upper half. R212: of
a g register whose result has come but is not yet written, each thread reads the old value or the new one. -/
def Obligations.LaneMovsMovg : Prop :=
  ∀ (s : State) (h : Hdr) (d a : Nat),
    (Ready s h (useD d []) →
      (∀ p : Nat × (Nat → Nat), p ∈ [
          (0, fun t => t % 32), (1, fun t => (s.grOf t).gid * 32 + t % 32), (2, fun t => (s.grOf t).gid),
          (3, fun t => (s.tmOf t).x), (4, fun t => (s.tmOf t).y), (5, fun t => (s.tmOf t).z),
          (6, fun t => (s.tmOf t).nx), (7, fun t => (s.tmOf t).ny), (8, fun t => (s.tmOf t).nz),
          (9, fun t => (s.grOf t).role), (10, fun t => t / 2048), (11, fun t => State.rank (t / 2048)),
          (12, fun t => State.cluster (t / 2048)), (13, fun _ => s.fab.node),
          (16, fun _ => s.fab.slot + 8 * (s.fab.slotCycle % 2 ^ 29)), (17, fun t => State.dieOf (t / 2048)),
          (18, fun t => (s.tmOf t).prio)] →
        exec (.movs h d p.1) s = .next (goes s h fun t => put d (BitVec.ofNat 32 (p.2 t)))) ∧
      exec (.movs h d 14) s = .next (goes s h fun _ x =>
        { put d (BitVec.ofNat 32 s.cycle) x with clockHi := some (BitVec.ofNat 32 (s.cycle % 2 ^ 64 / 2 ^ 32)) }) ∧
      exec (.movs h d 15) s = .next (goes s h fun t => put d
        (match (s.th t).clockHi with | some v => v | none => BitVec.ofNat 32 (s.cycle % 2 ^ 64 / 2 ^ 32)))) ∧
    (Ready s h ⟨[d], [.g a]⟩ →
      ∃ v : Nat → DWord,
        (∀ t, v t = g s (t / 32) a ∨ a ≠ 0 ∧ ∃ p ∈ s.pend, p.dst = .ureg (t / 32) a ∧ p.val = .ureg (v t)) ∧
        exec (.movg h false d a) s = .next (goes s h fun t => put d ((v t).setWidth 32)) ∧
        exec (.movg h true d a) s = .next (goes s h fun t => put d ((v t).extractLsb' 32 32)))

/-- R291: MOVU writes its group's g register from the lane that B chooses, when that lane takes part. -/
def Obligations.LaneMovu : Prop :=
  ∀ (s : State) (h : Hdr) (d a gs l : Nat) (b : Src), (∀ t ∈ s.cur.threads, t / 32 = gs) →
    (∀ t ∈ s.cur.threads, (src s t b).toNat % 32 = l) →
    ∀ (form : MovuForm) (v : DWord), (form, v) ∈ [
        (.zx, (w s (gs * 32 + l) a).setWidth 64), (.sx, (w s (gs * 32 + l) a).signExtend 64),
        (.lo, ((g s gs d).extractLsb' 32 32 ++ w s (gs * 32 + l) a : DWord)),
        (.hi, (w s (gs * 32 + l) a ++ (g s gs d).setWidth 32 : DWord))] →
      Ready s h ⟨a :: b.w, (if form = .lo ∨ form = .hi then [.g d] else []) ++ .w a :: b.opd⟩ →
      (gs * 32 + l ∉ part s h (gs * 32) → exec (.movu h form d a b) s = .next (goes s h fun _ => same)) ∧
      (gs * 32 + l ∈ part s h (gs * 32) → exec (.movu h form d a b) s = .next { goes s h (fun _ => same) with
        groups := s.groups.map fun x =>
          if x.gslot = gs ∧ d ≠ 0 then { x with g := setAt x.g d v } else x })

/-! ## Lane memory -/

namespace Sys2Proof.Says

/-- Accesses on their way are named below the next name: an invariant of the model. -/
def Fresh (s : State) : Prop := ∀ r ∈ s.reqs, r.id < s.nextId
/-- The bundle is one thread t with a true guard that passes steps 6 to 8 of R242, no load of it has read the L1 yet,
and no acquire of its own is still on its way (R117). -/
def One (s : State) (t : Nat) (h : Hdr) (u : Uses) : Prop :=
  s.cur.threads = [t] ∧ s.cur.last = [] ∧ Ready s h u ∧ s.guardT t h.gd = true ∧ s.acqBlocked (.thread t) = false ∧
  Fresh s

/-- Physical address of a page's byte, in HBM or in the host window. -/
def locOf (pa : Nat) : Loc := if Config.hostBase ≤ pa then .host pa else .mem pa
/-- The page of a global address is in both data TLBs of thread t, permits the access, and no range lock refuses it;
the address is at `pa`. -/
def Hit (s : State) (t : Nat) (x : State.Want) (ea n pa : Nat) (leaf : Leaf) : Prop :=
  s.tlbHit (.data (State.coreOf t) (State.quadOf t)) (s.ctxOfThread t) (ea % 2 ^ 48) = some leaf ∧
  s.tlbHit (.core (State.coreOf t)) (s.ctxOfThread t) (ea % 2 ^ 48) = some leaf ∧
  (x.wr = true → leaf.w = true) ∧ pa = leaf.pa + ea % 2 ^ 48 % State.pageBytes leaf.sz ∧
  (x.fe = true → leaf.feb = true ∧ pa < Config.hostBase) ∧ (Config.hostBase ≤ pa → x.host = true) ∧
  s.locked (State.coreOf t) (s.ctxOfThread t) false x.lockWr (s.normAddr (s.ctxOfThread t) ea) n = false
/-- A global access of n bytes that passes the checks of R34 on this package. -/
def Glob (s : State) (t : Nat) (x : State.Want) (ea n pa : Nat) (leaf : Leaf) : Prop :=
  ea < 2 ^ 54 ∧ ea % n = 0 ∧ s.isLocal (s.ctxOfThread t) ea = true ∧ Hit s t x ea n pa leaf
/-- A scratchpad access of n bytes that lies in the window of t's own team. -/
def Spad (s : State) (t : Nat) (lockWr : Bool) (ea n : Nat) : Prop :=
  ea < 2 ^ 24 ∧ ea / 2 ^ 21 = State.rank (s.tmOf t).core ∧ ea % 2 ^ 21 + n ≤ (s.tmOf t).spSize ∧ ea % n = 0 ∧
  s.locked (s.tmOf t).core (s.tmOf t).ctx true lockWr ((s.tmOf t).spBase + ea % 2 ^ 21) n = false
def spadLoc (s : State) (t ea : Nat) : Loc := .spad (s.tmOf t).core ((s.tmOf t).spBase + ea % 2 ^ 21)
/-- No write-combining entry of t's core is open, so that a release has nothing to send (R413). -/
def NoOpen (s : State) (t : Nat) : Prop := ∀ e ∈ s.fab.wc, e.sent = true ∨ e.core ≠ State.coreOf t

/-- The single-copy units in which n bytes at a place are read or written (R111): place, offset, size. -/
def units (l : Loc) (n : Nat) : List (Loc × Nat × Nat) :=
  match l with
  | .mem pa => if n = 16 then [(.mem pa, 0, 8), (.mem (pa + 8), 8, 8)] else [(.mem pa, 0, n)]
  | .spad c o => if n ≤ 4 then [(.spad c o, 0, n)] else (List.range (n / 4)).map fun i => (.spad c (o + 4 * i), 4 * i, 4)
  | .host pa => if n ≤ 4 then [(.host pa, 0, n)] else (List.range (n / 4)).map fun i => (.host (pa + 4 * i), 4 * i, 4)
  | l => [(l, 0, n)]
/-- Loads and stores of those units. -/
def loads (l : Loc) (n : Nat) : List (MemOp × Loc × Nat) := (units l n).map fun x => (.load, x.1, x.2.2)
def stores (l : Loc) (n : Nat) (d : List Byte) : List (MemOp × Loc × Nat) :=
  (units l n).map fun x => (.store ((d.drop x.2.1).take x.2.2), x.1, x.2.2)

/-- s' is s after thread t has issued these operations and gone on: they are appended to the accesses on their way
with the order given, each destination register or predicate has a pending result, and no register, predicate or byte of memory, and
no group, team, context or part of the fabric has changed. -/
def Issued (s s' : State) (t : Nat) (m : Bool) (o : Ord) (ops : List (MemOp × Loc × Nat)) (ds : List Dst) : Prop :=
  s'.threads = s.threads.map (fun x => if x.slot = t then
    { x with pc := x.pc + BitVec.ofNat 64 s.cur.len,
             st := if m && (s.threadPend t || decide (ds ≠ [])) then .proof else .run, retry := 0, re := .first, hbuf := [] }
    else x) ∧
  (∃ q, s'.reqs = s.reqs ++ q ∧ q.map (fun r => (r.op, r.loc, r.size)) = ops ∧
    ∀ r ∈ q, r.who = .thread t ∧ r.core = State.coreOf t ∧ r.ctx = s.ctxOfThread t ∧ r.ord = o ∧ r.done = false) ∧
  (∃ q, s'.pend = s.pend ++ q ∧ q.map (·.dst) = ds ∧
    ∀ p ∈ q, p.val = .none ∧ ∃ r ∈ s'.reqs, s.nextId ≤ r.id ∧ r.id = p.req) ∧
  s'.mem = s.mem ∧ s'.spad = s.spad ∧ s'.spadE = s.spadE ∧ s'.acc = s.acc ∧ s'.l2 = s.l2 ∧ s'.groups = s.groups ∧
  s'.teams = s.teams ∧ s'.ctxs = s.ctxs ∧ s'.fab = s.fab ∧ s'.flt = s.flt ∧ s'.cur = s.cur
/-- Accesses on their way that differ at most in the mark of a merged miss (R47). -/
def marked (f : Req → Bool) (l : List Req) : List Req := l.map fun r => { r with merged := f r }
/-- No byte of usable HBM4 reads differently, no fault opens, and the accesses on their way are the same but for the
mark of a merged miss (R47): what lookups at the slices may leave. -/
def Looked (s s' : State) : Prop :=
  (∀ p < Config.hbmTop, s'.rdB p = s.rdB p) ∧ s'.spad = s.spad ∧ s'.flt.faults = s.flt.faults ∧
  s'.flt.held = s.flt.held ∧ s'.flt.ring = s.flt.ring ∧
  ∃ f, s'.reqs = marked f s.reqs
/-- As `Issued`, where a walk or a plain read of the instruction has looked its lines up at their slices before. -/
def IssuedLook (s s' : State) (t : Nat) (m : Bool) (o : Ord) (ops : List (MemOp × Loc × Nat)) (ds : List Dst) : Prop :=
  ∃ s1, Looked s s1 ∧ Issued s1 s' t m o ops ds ∧ s1.threads = s.threads ∧ s1.pend = s.pend ∧ s1.nextId = s.nextId ∧
    s1.spadE = s.spadE ∧ s1.acc = s.acc ∧ s1.groups = s.groups ∧ s1.teams = s.teams ∧ s1.ctxs = s.ctxs ∧
    s1.fab = s.fab ∧ s1.cur = s.cur
/-- No copy in the L1 answers a load of n bytes at a place: its scope, its page or its hint keeps it from there, or no
valid sector is there (R41, R45, R116). -/
def NoCopy (s : State) (core : Nat) (x : MemX) (leaf : Leaf) (l : Loc) : Prop :=
  x.scope.wide = true ∨ 2 ≤ leaf.cp ∨ x.hint = .nl1 ∨
  ∀ y ∈ units l (tySize x.ty), s.l1Read core (State.locAddr y.1) y.2.2 = none
/-- The registers of a memory operand as destinations. -/
def dsts (t : Nat) (ty : Ty) (d : Nat) : List Dst := (tyRegs ty d).map (.reg t)
/-- The bundle is several threads of group gs with true guards that pass steps 6 to 8 of R242, no load of it has read
the L1 yet, and no acquire of theirs is still on its way (R117). -/
def Several (s : State) (gs : Nat) (h : Hdr) (u : Uses) : Prop :=
  s.cur.threads ≠ [] ∧ s.cur.threads.Pairwise (· < ·) ∧ s.cur.last = [] ∧ Ready s h u ∧ Fresh s ∧
  ∀ t ∈ s.cur.threads, t / 32 = gs ∧ s.guardT t h.gd = true ∧ s.acqBlocked (.thread t) = false
/-- Two accesses to HBM4 stand in the order of their lines, on one line in the order of their lanes. -/
def inOrder (a b : Req) : Bool :=
  match a.loc, b.loc, a.who, b.who with
  | .mem x, .mem y, .thread t, .thread u => decide (x / 128 < y / 128 ∨ x / 128 = y / 128 ∧ t ≤ u)
  | _, _, _, _ => true
/-- s' is s after the threads of the bundle have issued their accesses to HBM4 and gone on: appended in ascending order
of their 128-byte lines, those of one line in the order of their lanes (R41). -/
def IssuedMany (s s' : State) (m : Bool) (o : Ord) (ops : List (Who × MemOp × Loc × Nat)) (ds : List Dst) : Prop :=
  s'.threads = s.threads.map (fun x => if x.slot ∈ s.cur.threads then
    { x with pc := x.pc + BitVec.ofNat 64 s.cur.len,
             st := if m && (s.threadPend x.slot || decide (ds ≠ [])) then .proof else .run, retry := 0, re := .first,
             hbuf := [] }
    else x) ∧
  (∃ q, s'.reqs = s.reqs ++ q ∧ (q.map fun r => (r.who, r.op, r.loc, r.size)).Perm ops ∧ (∀ r ∈ q, r.ord = o) ∧
    q.Pairwise fun a b => inOrder a b = true) ∧
  (∃ q, s'.pend = s.pend ++ q ∧ q.map (·.dst) = ds ∧
    ∀ p ∈ q, p.val = .none ∧ ∃ r ∈ s'.reqs, s.nextId ≤ r.id ∧ r.id = p.req) ∧
  s'.mem = s.mem ∧ s'.spad = s.spad ∧ s'.spadE = s.spadE ∧ s'.acc = s.acc ∧ s'.l2 = s.l2 ∧ s'.groups = s.groups ∧
  s'.teams = s.teams ∧ s'.ctxs = s.ctxs ∧ s'.fab = s.fab ∧ s'.flt = s.flt
/-- A global access of n bytes to a reachable Rotor node. Nothing of its core or its thread is on its way, so that no
release or seq access waits (R117, R122, R414). -/
def Far (s : State) (t : Nat) (lockWr : Bool) (ea n node : Nat) : Prop :=
  ea < 2 ^ 54 ∧ ea % n = 0 ∧ s.isLocal (s.ctxOfThread t) ea = false ∧ node = ea / 2 ^ 48 ∧ s.routeOf node = some .rotor ∧
  (s.pair node).unreach = false ∧ s.locked (State.coreOf t) (s.ctxOfThread t) false lockWr ea n = false ∧
  ((s.pair node).out.filter fun e => e.req.isSome).length +
    (s.fab.ual.filter fun u => u.peer == node && u.req.isSome).length < 64 ∧ (s.tmOf t).outst = 0 ∧
  (∀ e ∈ s.fab.wc, e.core ≠ State.coreOf t ∧ ∀ i ∈ e.who, State.sameAgent (.thread t) i.who = false) ∧
  ∀ r ∈ s.reqs, r.core ≠ State.coreOf t ∧ State.sameAgent (.thread t) r.who = false
/-- The scope at which an access of another package acts (R114). -/
def farScope : Scope → Scope | .grp | .team | .clu | .dev => .dom | x => x
/-- s' is s after thread t has sent one request, which returns something, to a node: on its way and queued as a
flit, with its destinations pending (R410, R414). -/
def SentTo (s s' : State) (t : Nat) (m : Bool) (node ea : Nat) (op : MemOp) (n : Nat) (b : Body) (ds : List Dst) : Prop :=
  s'.threads = s.threads.map (fun x => if x.slot = t then
    { x with pc := x.pc + BitVec.ofNat 64 s.cur.len,
             st := if m && (s.threadPend t || decide (ds ≠ [])) then .proof else .run, retry := 0, re := .first, hbuf := [] }
    else x) ∧
  (∃ r, s'.reqs = s.reqs ++ [r] ∧ r.id = s.nextId ∧ r.who = .thread t ∧ r.op = op ∧ r.size = n ∧
    r.loc = .remote node (ea % 2 ^ 48)) ∧
  (∃ q, s'.pend = s.pend ++ q ∧ q.map (fun p => (p.dst, p.val, p.req)) = ds.map fun d => (d, PVal.none, s.nextId)) ∧
  (s'.pair node).out = (s.pair node).out ++ [⟨(s.pair node).eseq, b, s.ctxOfThread t, none, s.cycle, false, false, false,
    none, some s.nextId⟩] ∧ (s'.pair node).eseq = ((s.pair node).eseq + 1) % 2 ^ 24 ∧
  s'.fab.wc = s.fab.wc ∧ s'.mem = s.mem ∧ s'.spad = s.spad ∧ s'.groups = s.groups ∧ s'.teams = s.teams ∧ s'.flt = s.flt
/-- s' is s after thread t has put one write to a node into a new write-combining entry and gone on (R412). -/
def Combined (s s' : State) (t : Nat) (m : Bool) (node ea : Nat) (e : Wc) : Prop :=
  s'.threads = s.threads.map (fun x => if x.slot = t then
    { x with pc := x.pc + BitVec.ofNat 64 s.cur.len, st := if m && s.threadPend t then .proof else .run, retry := 0,
             re := .first, hbuf := [] }
    else x) ∧
  s'.fab.wc = s.fab.wc ++ [e] ∧ e.id = s.nextId ∧ e.core = State.coreOf t ∧ e.ctx = s.ctxOfThread t ∧
  e.team = (s.grOf t).team ∧ e.peer = node ∧ e.line = ea % 2 ^ 48 / 128 * 128 ∧ e.sent = false ∧
  (s'.tmOf t).outst = (s.tmOf t).outst + 1 ∧ s'.fab.pairs = s.fab.pairs ∧ s'.reqs = s.reqs ∧ s'.pend = s.pend ∧
  s'.mem = s.mem ∧ s'.spad = s.spad ∧ s'.groups = s.groups ∧ s'.flt = s.flt
/-- The lines of an entry of n bytes from offset o hold them. -/
def Holds (e : Wc) (o : Nat) (d : List Byte) : Prop :=
  e.body = none ∧ ∀ i < 128, e.mask.testBit i = decide (o ≤ i ∧ i < o + d.length) ∧
    (o ≤ i → i < o + d.length → e.data.getD i 0 = d.getD (i - o) 0)
/-- The walk for a page that no TLB of t holds, from where t's walk caches let it start. -/
def walkOf (s : State) (t ea : Nat) : State.Walk :=
  s.walkFrom (ea % 2 ^ 48) (s.walkStart (some (State.coreOf t)) (s.ctxOfThread t) (ea % 2 ^ 48)).1
    (s.walkStart (some (State.coreOf t)) (s.ctxOfThread t) (ea % 2 ^ 48)).2
/-- What R34 finds first for a global access of n bytes whose page a TLB holds: XLATE or MISALIGN of the address, FABRIC,
PROT, FENOSUP, RANGELOCK. -/
def GlobTraps (s : State) (t : Nat) (x : State.Want) (ea n c : Nat) : Prop :=
  (2 ^ 54 ≤ ea ∧ c = 0x06) ∨ ea < 2 ^ 54 ∧ (ea % n ≠ 0 ∧ c = 0x05 ∨ ea % n = 0 ∧
    (s.isLocal (s.ctxOfThread t) ea = false ∧ (s.routeOf (ea / 2 ^ 48) = none ∧ c = 0x13 ∨ s.routeOf (ea / 2 ^ 48) ≠ none ∧
        s.locked (State.coreOf t) (s.ctxOfThread t) false x.lockWr ea n = true ∧ c = 0x08) ∨
      s.isLocal (s.ctxOfThread t) ea = true ∧ ∃ leaf pa,
        s.tlbHit (.data (State.coreOf t) (State.quadOf t)) (s.ctxOfThread t) (ea % 2 ^ 48) = some leaf ∧
        s.tlbHit (.core (State.coreOf t)) (s.ctxOfThread t) (ea % 2 ^ 48) = some leaf ∧
        pa = leaf.pa + ea % 2 ^ 48 % State.pageBytes leaf.sz ∧
        ((x.wr = true ∧ leaf.w = false ∧ c = 0x07) ∨ (x.wr = true → leaf.w = true) ∧
          ((Config.hostBase ≤ pa ∧ x.host = false ∧ c = 0x07) ∨ (Config.hostBase ≤ pa → x.host = true) ∧
            ((x.fe = true ∧ (Config.hostBase ≤ pa ∨ leaf.feb = false) ∧ c = 0x0A) ∨
              (x.fe = true → pa < Config.hostBase ∧ leaf.feb = true) ∧ c = 0x08 ∧ s.locked (State.coreOf t)
                (s.ctxOfThread t) false x.lockWr (s.normAddr (s.ctxOfThread t) ea) n = true)))))
/-- What R19 to R21 find first for a scratchpad access of n bytes: SCRATCH, MISALIGN, RANGELOCK. -/
def SpadTraps (s : State) (t : Nat) (lockWr : Bool) (ea n c : Nat) : Prop :=
  (2 ^ 24 ≤ ea ∧ c = 0x0F) ∨ ea < 2 ^ 24 ∧
    (ea / 2 ^ 21 ≠ State.rank (s.tmOf t).core ∧ (s.tmOf t).coset = none ∧ c = (if ea % n ≠ 0 then 0x05 else 0x0F) ∨
      ea / 2 ^ 21 = State.rank (s.tmOf t).core ∧ ((s.tmOf t).spSize < ea % 2 ^ 21 + n ∧ c = 0x0F ∨
        ea % 2 ^ 21 + n ≤ (s.tmOf t).spSize ∧ (ea % n ≠ 0 ∧ c = 0x05 ∨ ea % n = 0 ∧ c = 0x08 ∧
          s.locked (s.tmOf t).core (s.tmOf t).ctx true lockWr ((s.tmOf t).spBase + ea % 2 ^ 21) n = true)))
/-- The place of a scratchpad access of n bytes in the window of a peer of t's cluster team set (R21). -/
def Peer (s : State) (t : Nat) (lockWr : Bool) (ea n : Nat) (l : Loc) : Prop :=
  ∃ v, ea < 2 ^ 24 ∧ ea / 2 ^ 21 ≠ State.rank (s.tmOf t).core ∧ (s.tmOf t).coset ≠ none ∧
    s.teams.find? (fun v => v.launch == (s.tmOf t).launch && v.coset == (s.tmOf t).coset &&
      v.core == (s.tmOf t).core - State.rank (s.tmOf t).core + ea / 2 ^ 21) = some v ∧
    ea % 2 ^ 21 + n ≤ v.spSize ∧ ea % n = 0 ∧ s.locked v.core v.ctx true lockWr (v.spBase + ea % 2 ^ 21) n = false ∧
    l = .spad v.core (v.spBase + ea % 2 ^ 21)
/-- The bytes of a memory data operand, the lowest register first and each register's lowest byte first. -/
def bytes (s : State) (t : Nat) (ty : Ty) (d : Nat) : List Byte :=
  ((tyRegs ty d).flatMap fun n => (List.range 4).map fun i => (w s t n).extractLsb' (8 * i) 8).take (tySize ty)

end Sys2Proof.Says

/-- R297, R34: LD at the address of R32, with the TLBs holding its page and no copy in its L1, sends its reads; where the
L1 holds a copy that may answer and no access of its core to those bytes is on its way, a load of one register takes its
bytes from there. R41: the reads of several threads of a group leave in the order of their lines. R410, R414: a load of
another package's memory is sent as a READ. -/
def Obligations.LaneLoad : Prop :=
  (∀ (s : State) (t : Nat) (h : Hdr) (x : MemX) (d a : Nat) (b : Option Nat) (ea pa : Nat) (leaf : Leaf),
    x.ty.isMem = true → One s t h ⟨tyRegs x.ty d ++ optW b, .g a :: (optW b).map .w⟩ →
    ea = s.eaGlobal true t a b x.off (tySize x.ty) → Glob s t .load ea (tySize x.ty) pa leaf →
    (NoCopy s (State.coreOf t) x leaf (locOf pa) → ∃ s', exec (.ld h x d a b) s = .next s' ∧
      Issued s s' t h.m x.ord (loads (locOf pa) (tySize x.ty)) (dsts t x.ty d)) ∧
    (∀ bs, tySize x.ty ≤ 4 → x.scope.wide = false → leaf.cp ≤ 1 → x.hint ≠ .nl1 → pa < Config.hostBase →
      (∀ r ∈ s.reqs, r.core = State.coreOf t → State.touches r (.mem pa) (tySize x.ty) = false) →
      s.l1Read (State.coreOf t) pa (tySize x.ty) = some bs →
      ∃ s', exec (.ld h x d a b) s = .next s' ∧
        s'.pend = s.pend ++ [⟨s.nextId, .reg t d, .reg ⟨BitVec.ofNat 32 (extInt x.ty (leNat bs)), Tag.zero⟩, 0, false,
          s.cycle⟩] ∧
        s'.threads = s.threads.map (fun y => if y.slot = t then
          { y with pc := y.pc + BitVec.ofNat 64 s.cur.len, st := if h.m then .proof else .run, retry := 0, re := .first,
                   hbuf := [] } else y) ∧
        s'.reqs = s.reqs ∧ s'.mem = s.mem ∧ s'.spad = s.spad ∧ s'.spadE = s.spadE ∧ s'.acc = s.acc ∧ s'.l2 = s.l2 ∧
        s'.groups = s.groups ∧ s'.teams = s.teams ∧ s'.ctxs = s.ctxs ∧ s'.fab = s.fab ∧ s'.flt = s.flt)) ∧
  (∀ (s : State) (gs : Nat) (h : Hdr) (x : MemX) (d a : Nat) (b : Option Nat) (ea pa : Nat → Nat) (leaf : Nat → Leaf),
    x.ty.isMem = true → Several s gs h ⟨tyRegs x.ty d ++ optW b, .g a :: (optW b).map .w⟩ →
    (∀ t ∈ s.cur.threads, ea t = s.eaGlobal true t a b x.off (tySize x.ty) ∧
      Glob s t .load (ea t) (tySize x.ty) (pa t) (leaf t) ∧ pa t < Config.hostBase ∧
      NoCopy s (State.coreOf t) x (leaf t) (.mem (pa t))) →
    ∃ s', exec (.ld h x d a b) s = .next s' ∧ IssuedMany s s' h.m x.ord
      (s.cur.threads.flatMap fun t => (loads (.mem (pa t)) (tySize x.ty)).map fun y => (.thread t, y))
      (s.cur.threads.flatMap fun t => dsts t x.ty d)) ∧
  ∀ (s : State) (t : Nat) (h : Hdr) (x : MemX) (d a : Nat) (b : Option Nat) (c ea node : Nat),
    x.ty.isMem = true → ea = s.eaGlobal true t a b x.off (tySize x.ty) → Far s t false ea (tySize x.ty) node →
    (One s t h ⟨tyRegs x.ty d ++ optW b, .g a :: (optW b).map .w⟩ →
      ∃ s', exec (.ld h x d a b) s = .next s' ∧ SentTo s s' t h.m node ea .load (tySize x.ty)
        (.read (ea % 2 ^ 48) (tySize x.ty) .load x.ord (farScope x.scope) false) (dsts t x.ty d) ∧
        (x.ord = .plain → ∃ s', exec (.ldnf h x d a b c) s = .next s' ∧ SentTo s s' t h.m node ea .load (tySize x.ty)
          (.read (ea % 2 ^ 48) (tySize x.ty) .load .plain (farScope x.scope) true) (dsts t x.ty d ++ [.pred t c])))

/-- R297, R34: ST sends the bytes of its data registers to the address of R32; LDS and STS do so in the scratchpad
window of the thread's team, or of a peer of its cluster team set (R21). R412: a store to another package opens a
write-combining entry. R41: the stores of several threads of a group leave in the order of their lines. -/
def Obligations.LaneStoreScratch : Prop :=
  ∀ (s : State) (t : Nat) (h : Hdr) (x : MemX) (d a : Nat) (b : Option Nat) (bs ea pa : Nat) (leaf : Leaf),
    x.ty.isMem = true →
    (One s t h ⟨tyRegs x.ty d ++ optW b, (tyRegs x.ty d).map .w ++ .g a :: (optW b).map .w⟩ →
      ea = s.eaGlobal true t a b x.off (tySize x.ty) → Glob s t .store ea (tySize x.ty) pa leaf → NoOpen s t →
      ∃ s', exec (.st h x d a b) s = .next s' ∧
        Issued s s' t h.m x.ord (stores (locOf pa) (tySize x.ty) (bytes s t x.ty d)) []) ∧
    (One s t h ⟨tyRegs x.ty d ++ [bs], [.w bs]⟩ → ea = s.eaLocal t bs x.off (tySize x.ty) →
      Spad s t false ea (tySize x.ty) →
      ∃ s', exec (.lds h x d bs) s = .next s' ∧
        Issued s s' t h.m x.ord (loads (spadLoc s t ea) (tySize x.ty)) (dsts t x.ty d)) ∧
    (One s t h (useR (tyRegs x.ty d ++ [bs])) → ea = s.eaLocal t bs x.off (tySize x.ty) →
      Spad s t true ea (tySize x.ty) → NoOpen s t →
      ∃ s', exec (.sts h x d bs) s = .next s' ∧
        Issued s s' t h.m x.ord (stores (spadLoc s t ea) (tySize x.ty) (bytes s t x.ty d)) []) ∧
    (∀ l, ea = s.eaLocal t bs x.off (tySize x.ty) → NoOpen s t →
      (One s t h ⟨tyRegs x.ty d ++ [bs], [.w bs]⟩ → Peer s t false ea (tySize x.ty) l → ∃ s', exec (.lds h x d bs) s = .next s' ∧
        Issued s s' t h.m x.ord (loads l (tySize x.ty)) (dsts t x.ty d)) ∧
      (One s t h (useR (tyRegs x.ty d ++ [bs])) → Peer s t true ea (tySize x.ty) l → ∃ s', exec (.sts h x d bs) s = .next s' ∧
        Issued s s' t h.m x.ord (stores l (tySize x.ty) (bytes s t x.ty d)) [])) ∧
    (∀ node, One s t h ⟨tyRegs x.ty d ++ optW b, (tyRegs x.ty d).map .w ++ .g a :: (optW b).map .w⟩ →
      ea = s.eaGlobal true t a b x.off (tySize x.ty) → Far s t true ea (tySize x.ty) node →
      ∃ s' e, exec (.st h x d a b) s = .next s' ∧ Combined s s' t h.m node ea e ∧
        Holds e (ea % 128) (bytes s t x.ty d)) ∧
    (∀ (gs : Nat) (ea pa : Nat → Nat) (leaf : Nat → Leaf),
      Several s gs h ⟨tyRegs x.ty d ++ optW b, (tyRegs x.ty d).map .w ++ .g a :: (optW b).map .w⟩ →
      (∀ t ∈ s.cur.threads, ea t = s.eaGlobal true t a b x.off (tySize x.ty) ∧ NoOpen s t ∧
        Glob s t .store (ea t) (tySize x.ty) (pa t) (leaf t) ∧ pa t < Config.hostBase) →
      ∃ s', exec (.st h x d a b) s = .next s' ∧ IssuedMany s s' h.m x.ord
        (s.cur.threads.flatMap fun t => (stores (.mem (pa t)) (tySize x.ty) (bytes s t x.ty d)).map fun y => (.thread t, y)) [])

/-- R22 to R24: LDL and STL use the stack's backing addresses, word by word. -/
def Obligations.LaneStack : Prop :=
  ∀ (s : State) (t : Nat) (h : Hdr) (x : MemX) (d b o : Nat) (pa : Nat → Nat) (leaf : Nat → Leaf),
    x.ty.isMem = true → o = s.eaLocal t b x.off (tySize x.ty) →
    o + tySize x.ty ≤ (s.grOf t).stk → o % tySize x.ty = 0 →
    ((∀ i < (tySize x.ty + 3) / 4,
        s.backing t (o + 4 * i) < 2 ^ 54 ∧
        Hit s t .load (s.backing t (o + 4 * i)) (min (tySize x.ty) 4) (pa i) (leaf i) ∧ pa i < Config.hostBase ∧
        s.l1Read (State.coreOf t) (pa i) (min (tySize x.ty) 4) = none) →
      One s t h ⟨tyRegs x.ty d ++ [b], [.w b]⟩ →
      ∃ s' ops, exec (.ldl h x d b) s = .next s' ∧ Issued s s' t h.m .plain ops (dsts t x.ty d) ∧
        ops.Perm ((List.range ((tySize x.ty + 3) / 4)).map fun i => (.load, .mem (pa i), min (tySize x.ty) 4))) ∧
    ((∀ i < (tySize x.ty + 3) / 4,
        s.backing t (o + 4 * i) < 2 ^ 54 ∧
        Hit s t .store (s.backing t (o + 4 * i)) (min (tySize x.ty) 4) (pa i) (leaf i) ∧ pa i < Config.hostBase) →
      One s t h (useR (tyRegs x.ty d ++ [b])) →
      ∃ s' ops, exec (.stl h x d b) s = .next s' ∧ Issued s s' t h.m .plain ops [] ∧
        ops.Perm ((List.range ((tySize x.ty + 3) / 4)).map fun i =>
          (.store (((bytes s t x.ty d).drop (4 * i)).take 4), .mem (pa i), min (tySize x.ty) 4)))

/-- R305, R306: atomics send one operation with their operands; RED returns nothing. R410, R412: to another package an
atomic that returns is an RMW, a RED an entry of its own. -/
def Obligations.LaneAtomics : Prop :=
  ∀ (s : State) (t : Nat) (h : Hdr) (op : AtomOp) (x : AtomX) (d a : Nat) (b : Option Nat) (bs c ea pa : Nat)
    (leaf : Leaf) (n : Nat), n = tySize x.ty → (x.ty = .w64 ∨ n = 4) → NoOpen s t → pa < Config.hostBase →
    (ea = s.eaGlobal true t a b 0 n → Glob s t (.atom false) ea n pa leaf →
      (One s t h ⟨tyRegs x.ty d ++ optW b ++ tyRegs x.ty c, .g a :: (optW b ++ tyRegs x.ty c).map .w⟩ →
        ∃ s', exec (.atom h op x d a b c) s = .next s' ∧ Issued s s' t h.m x.ord
          [(.atom op x.ty (leNat (bytes s t x.ty c)) true, .mem pa, n)] (dsts t x.ty d)) ∧
      (One s t h ⟨tyRegs x.ty d ++ optW b ++ tyRegs x.ty c,
          (tyRegs x.ty d).map .w ++ .g a :: (optW b ++ tyRegs x.ty c).map .w⟩ →
        ∃ s', exec (.cas h x d a b c) s = .next s' ∧ Issued s s' t h.m x.ord
          [(.cas (leNat (bytes s t x.ty c)) (leNat (bytes s t x.ty d)), .mem pa, n)] (dsts t x.ty d)) ∧
      (One s t h ⟨tyRegs x.ty d ++ optW b, (tyRegs x.ty d).map .w ++ .g a :: (optW b).map .w⟩ →
        ∃ s', exec (.red h op x d a b) s = .next s' ∧ Issued s s' t h.m x.ord
          [(.atom op x.ty (leNat (bytes s t x.ty d)) false, .mem pa, n)] [])) ∧
    (ea = s.eaLocal t bs 0 4 → Spad s t true ea 4 → n = 4 → x.ty ≠ .w64 → x.ty ≠ .w128 →
      (One s t h ⟨[d, bs, c], [.w bs, .w c]⟩ →
        ∃ s', exec (.atoms h op x d bs c) s = .next s' ∧ Issued s s' t h.m x.ord
          [(.atom op x.ty (w s t c).toNat true, spadLoc s t ea, 4)] [.reg t d]) ∧
      (One s t h (useR [d, bs, c]) →
        ∃ s', exec (.cass h x d bs c) s = .next s' ∧ Issued s s' t h.m x.ord
          [(.cas (w s t c).toNat (w s t d).toNat, spadLoc s t ea, 4)] [.reg t d])) ∧
    (∀ node, ea = s.eaGlobal true t a b 0 n → Far s t true ea n node →
      (One s t h ⟨tyRegs x.ty d ++ optW b ++ tyRegs x.ty c, .g a :: (optW b ++ tyRegs x.ty c).map .w⟩ →
        ∃ s' op', exec (.atom h op x d a b c) s = .next s' ∧ op' = .atom op x.ty (leNat (bytes s t x.ty c)) true ∧
          SentTo s s' t h.m node ea op' n (.rmw (ea % 2 ^ 48) n op' x.ord (farScope x.scope)) (dsts t x.ty d)) ∧
      (One s t h ⟨tyRegs x.ty d ++ optW b ++ tyRegs x.ty c,
          (tyRegs x.ty d).map .w ++ .g a :: (optW b ++ tyRegs x.ty c).map .w⟩ →
        ∃ s' op', exec (.cas h x d a b c) s = .next s' ∧
          op' = .cas (leNat (bytes s t x.ty c)) (leNat (bytes s t x.ty d)) ∧
          SentTo s s' t h.m node ea op' n (.rmw (ea % 2 ^ 48) n op' x.ord (farScope x.scope)) (dsts t x.ty d)) ∧
      (One s t h ⟨tyRegs x.ty d ++ optW b, (tyRegs x.ty d).map .w ++ .g a :: (optW b).map .w⟩ →
        ∃ s' e, exec (.red h op x d a b) s = .next s' ∧ Combined s s' t h.m node ea e ∧ e.body =
          some (.opw (ea % 2 ^ 48) (.atom op x.ty (leNat (bytes s t x.ty d)) false) n (farScope x.scope))))

/-- R300 to R302: LDNF answers zeros and false where no data is resident; PREF changes no register and no thread but its
own pc; PGREQ of a page that needs nothing only goes on, of another it writes a fault record of type 4 where there is
room (R164). None of them changes a byte of usable HBM4 or opens a fault;
their lookups may change what the slices hold. -/
def Obligations.LaneResidency : Prop :=
  ∀ (s : State) (t : Nat) (h : Hdr) (x : MemX) (hint : Hint) (off : Int) (d a : Nat) (b : Option Nat) (c ea pa : Nat)
    (leaf : Leaf),
    (One s t h ⟨tyRegs x.ty d ++ optW b, .g a :: (optW b).map .w⟩ → x.ty.isMem = true →
      ea = s.eaGlobal true t a b x.off (tySize x.ty) → x.ord = .plain →
      (ea < 2 ^ 54 → ea % tySize x.ty = 0 → s.isLocal (s.ctxOfThread t) ea = true →
        s.peekUe (State.dataUnits (State.coreOf t) (State.quadOf t)) (some (State.coreOf t)) (s.ctxOfThread t)
          (ea % 2 ^ 48) = none →
        s.peek (State.dataUnits (State.coreOf t) (State.quadOf t)) (some (State.coreOf t)) (s.ctxOfThread t)
          (ea % 2 ^ 48) .rd = none →
        s.locked (State.coreOf t) (s.ctxOfThread t) false false (s.normAddr (s.ctxOfThread t) ea) (tySize x.ty) = false →
        ∃ s', exec (.ldnf h x d a b c) s = .next s' ∧ Looked s s' ∧ s'.mem = s.mem ∧
          ∃ q, s'.pend = s.pend ++ q ∧ q.map (fun p => (p.dst, p.val)) =
            (tyRegs x.ty d).map (fun n => (Dst.reg t n, PVal.reg LaneReg.zero)) ++ [(.pred t c, .pred false)]) ∧
      (Glob s t .load ea (tySize x.ty) pa leaf → pa < Config.hostBase → NoCopy s (State.coreOf t) x leaf (.mem pa) →
        ∃ s', exec (.ldnf h x d a b c) s = .next s' ∧ Issued s s' t h.m .plain (loads (.mem pa) (tySize x.ty))
          (dsts t x.ty d ++ [.pred t c]))) ∧
    (One s t h ⟨optW b, .g a :: (optW b).map .w⟩ →
      (ea = s.eaGlobal true t a b off 4 →
        s.peekUe (State.dataUnits (State.coreOf t) (State.quadOf t)) (some (State.coreOf t)) (s.ctxOfThread t)
          (ea % 2 ^ 48) = none →
        ∃ s', exec (.pref h hint off a b) s = .next s' ∧ s'.threads = (goes s h fun _ => same).threads ∧
          Looked s s' ∧ s'.pend = s.pend ∧ s'.groups = s.groups) ∧
      (ea = s.eaGlobal false t a b off 4 → ea < 2 ^ 54 → s.isLocal (s.ctxOfThread t) ea = true →
        (∃ l e p, s.walkFrom (ea % 2 ^ 48) 4 (s.cx (s.ctxOfThread t)).root = .leaf 0 l e p) →
        ∃ s', exec (.pgreq h off a b) s = .next s' ∧ s'.threads = (goes s h fun _ => same).threads ∧ Looked s s' ∧
          s'.mem = s.mem ∧ s'.pend = s.pend ∧ s'.groups = s.groups) ∧
      (ea = s.eaGlobal false t a b off 4 → ea < 2 ^ 54 → s.isLocal (s.ctxOfThread t) ea = true →
        ∀ st l e p, st ≠ 0 → s.walkFrom (ea % 2 ^ 48) 4 (s.cx (s.ctxOfThread t)).root = .leaf st l e p →
        ∃ s', exec (.pgreq h off a b) s = .next s' ∧ s'.threads = (goes s h fun _ => same).threads ∧ s'.pend = s.pend ∧
          s'.groups = s.groups ∧ s'.flt.faults = s.flt.faults ∧ (st ≠ 1 → s'.flt.pools = s.flt.pools ∧
            (s.flt.held = [] → s.flt.ring.room = true → s'.flt.ring.prod = (s.flt.ring.prod + 1) % 2 ^ 32) ∧
            (s.flt.ring.room = false → s'.mem = s.mem ∧ s'.flt.ring = s.flt.ring))))

/-- R117, R308: a fence at thread scope, or one that has nothing to wait for, ends at once, and an acquire that
reaches beyond its core empties the core's L1; another waits for the accesses that it names. -/
def Obligations.LaneFence : Prop :=
  ∀ (s : State) (t : Nat) (h : Hdr) (k : FenceKind) (sc : Scope), One s t h ⟨[], []⟩ →
    exec (.fence h k .thr) s = .next (goes s h fun _ => same) ∧
    (sc ≠ .thr → NoOpen s t → s.fenceAfter t k sc = [] → (k ≠ .acq → sc.far = true → (s.tmOf t).outst = 0) →
      (k ≠ .rel → 4 ≤ sc.rank → s.promPending (State.coreOf t) = []) →
      ∃ s', exec (.fence h k sc) s = .next s' ∧
        s'.threads = (goes s h fun _ x => if k = .acq then x else { x with relF := !sc.wide }).threads ∧
        s'.cores = (if k ≠ .rel ∧ sc.wide = true then s.cores.map fun c =>
          if c.idx = State.coreOf t then { c with l1 := [] } else c else s.cores) ∧ s'.mem = s.mem ∧ s'.reqs = s.reqs) ∧
    (∀ i, sc ≠ .thr → NoOpen s t → i ∈ s.fenceAfter t k sc → s.pending i = true →
      ∃ s' rs, exec (.fence h k sc) s = .next s' ∧ i ∈ rs ∧
        (s'.th t).st = .fence rs (k != .rel) (k != .acq) sc h.m false ∧
        (s'.th t).pc = (s.th t).pc + BitVec.ofNat 64 s.cur.len)

/-- R34, R391, R393: what a lane's load, store, atomic or full/empty form traps on instead, in the order of the checks,
with the address as TRAP_ADDR. R19 to R22: scratchpad and stack. R142 to R146, R156: a page in no TLB is walked: XLATE,
PROT, a replayable fault, or the access. R67, R312: PLANEREC. -/
def Obligations.LaneMemoryTraps : Prop :=
  ∀ (s : State) (t : Nat) (h : Hdr) (x : MemX) (y : AtomX) (z : FeX) (op : AtomOp) (cc : Cond) (d a : Nat) (b : Option Nat)
    (bs c q k : Nat) (fill : FillF) (px : PlX), x.ty.isMem = true → Free s t →
    (∀ (i : Instr) (u : Uses) (v : State.Want) (ea n e : Nat), (i, u, v, ea, n) ∈ [
        (Instr.ld h x d a b, ⟨tyRegs x.ty d ++ optW b, .g a :: (optW b).map .w⟩, State.Want.load,
          s.eaGlobal true t a b x.off (tySize x.ty), tySize x.ty),
        (.st h x d a b, ⟨tyRegs x.ty d ++ optW b, (tyRegs x.ty d).map .w ++ .g a :: (optW b).map .w⟩, .store,
          s.eaGlobal true t a b x.off (tySize x.ty), tySize x.ty),
        (.ldwf h z d (.glob a q), feDst d (.glob a q), State.feWant .ldwf, s.eaGlobal false t a (some q) 0 4, 4),
        (.ldce h z d (.glob a q), feDst d (.glob a q), State.feWant .ldce, s.eaGlobal false t a (some q) 0 4, 4),
        (.stwe h z d (.glob a q), feSrc d (.glob a q), State.feWant .stwe, s.eaGlobal false t a (some q) 0 4, 4),
        (.stfs h z d (.glob a q), feSrc d (.glob a q), State.feWant .stfs, s.eaGlobal false t a (some q) 0 4, 4),
        (.waita h cc z d (.glob a q), feSrc d (.glob a q), State.feWant .waita, s.eaGlobal false t a (some q) 0 4, 4),
        (.feget h z d (.glob a q), ⟨[q], [.g a, .w q]⟩, State.feWant .feget, s.eaGlobal false t a (some q) 0 4, 4),
        (.fesetEmpty h z (.glob a q), ⟨[q], [.g a, .w q]⟩, State.feWant .fesetEmpty, s.eaGlobal false t a (some q) 0 4, 4),
        (.fesetFull h z (.glob a q), ⟨[q], [.g a, .w q]⟩, State.feWant .fesetFull, s.eaGlobal false t a (some q) 0 4, 4)] →
      One s t h u → GlobTraps s t v ea n e →
      exec i s = .next (trapped s t (BitVec.ofNat 8 e) (s.th t).pc (BitVec.ofNat 64 ea) (stat0 s t))) ∧
    (∀ n e ea, y.ty = .w64 ∨ n = 4 → n = tySize y.ty → ea = s.eaGlobal true t a b 0 n →
      (One s t h ⟨tyRegs y.ty d ++ optW b ++ tyRegs y.ty c, .g a :: (optW b ++ tyRegs y.ty c).map .w⟩ →
        GlobTraps s t (.atom (State.hostAtom op y.ty)) ea n e → exec (.atom h op y d a b c) s =
          .next (trapped s t (BitVec.ofNat 8 e) (s.th t).pc (BitVec.ofNat 64 ea) (stat0 s t))) ∧
      (One s t h ⟨tyRegs y.ty d ++ optW b ++ tyRegs y.ty c,
          (tyRegs y.ty d).map .w ++ .g a :: (optW b ++ tyRegs y.ty c).map .w⟩ →
        GlobTraps s t (.atom true) ea n e → exec (.cas h y d a b c) s =
          .next (trapped s t (BitVec.ofNat 8 e) (s.th t).pc (BitVec.ofNat 64 ea) (stat0 s t))) ∧
      (One s t h ⟨tyRegs y.ty d ++ optW b, (tyRegs y.ty d).map .w ++ .g a :: (optW b).map .w⟩ →
        GlobTraps s t (.atom (State.hostAtom op y.ty)) ea n e → exec (.red h op y d a b) s =
          .next (trapped s t (BitVec.ofNat 8 e) (s.th t).pc (BitVec.ofNat 64 ea) (stat0 s t)))) ∧
    (∀ (i : Instr) (u : Uses) (wr : Bool) (ea n e : Nat), (i, u, wr, ea, n) ∈ [
        (Instr.lds h x d bs, ⟨tyRegs x.ty d ++ [bs], [.w bs]⟩, false, s.eaLocal t bs x.off (tySize x.ty), tySize x.ty),
        (.sts h x d bs, useR (tyRegs x.ty d ++ [bs]), true, s.eaLocal t bs x.off (tySize x.ty), tySize x.ty),
        (.atoms h op y d bs c, ⟨[d, bs, c], [.w bs, .w c]⟩, true, s.eaLocal t bs 0 4, 4),
        (.cass h y d bs c, useR [d, bs, c], true, s.eaLocal t bs 0 4, 4),
        (.ldwf h z d (.spad bs), feDst d (.spad bs), false, s.eaLocal t bs 0 4, 4),
        (.stfs h z d (.spad bs), feSrc d (.spad bs), true, s.eaLocal t bs 0 4, 4)] →
      One s t h u → SpadTraps s t wr ea n e →
      exec i s = .next (trapped s t (BitVec.ofNat 8 e) (s.th t).pc (BitVec.ofNat 64 ea) (stat0 s t))) ∧
    (∀ ea e, ea = s.eaLocal t bs x.off (tySize x.ty) → (s.grOf t).stk < ea + tySize x.ty ∧ e = 0x10 ∨
        ea + tySize x.ty ≤ (s.grOf t).stk ∧ ea % tySize x.ty ≠ 0 ∧ e = 0x05 →
      (One s t h ⟨tyRegs x.ty d ++ [bs], [.w bs]⟩ → exec (.ldl h x d bs) s =
        .next (trapped s t (BitVec.ofNat 8 e) (s.th t).pc (BitVec.ofNat 64 ea) (stat0 s t))) ∧
      (One s t h (useR (tyRegs x.ty d ++ [bs])) → exec (.stl h x d bs) s =
        .next (trapped s t (BitVec.ofNat 8 e) (s.th t).pc (BitVec.ofNat 64 ea) (stat0 s t)))) ∧
    (∀ (i : Instr) (u : Uses) (wr : Bool) (ea : Nat), (i, u, wr) ∈ [
        (Instr.ld h x d a b, ⟨tyRegs x.ty d ++ optW b, .g a :: (optW b).map .w⟩, false),
        (.st h x d a b, ⟨tyRegs x.ty d ++ optW b, (tyRegs x.ty d).map .w ++ .g a :: (optW b).map .w⟩, true)] →
      One s t h u → ea = s.eaGlobal true t a b x.off (tySize x.ty) → ea < 2 ^ 54 → ea % tySize x.ty = 0 →
      s.isLocal (s.ctxOfThread t) ea = true →
      s.tlbHit (.data (State.coreOf t) (State.quadOf t)) (s.ctxOfThread t) (ea % 2 ^ 48) = none →
      s.tlbHit (.core (State.coreOf t)) (s.ctxOfThread t) (ea % 2 ^ 48) = none →
      (walkOf s t ea = .bad → ∃ s', exec i s = .next s' ∧ Looked s s' ∧ s'.threads = (trapped s t 0x06 (s.th t).pc
        (BitVec.ofNat 64 ea) (stat0 s t)).threads) ∧
      ∀ st l m p, walkOf s t ea = .leaf st l m p →
        (wr = true → l.w = false → ∃ s', exec i s = .next s' ∧ Looked s s' ∧ s'.threads = (trapped s t 0x07 (s.th t).pc
          (BitVec.ofNat 64 ea) (stat0 s t)).threads) ∧
        ((wr = true → l.w = true) →
          (∀ pa, st = 0 → s.badPage l.pa l.sz = false → pa = l.pa + ea % 2 ^ 48 % State.pageBytes l.sz → NoOpen s t →
            s.locked (State.coreOf t) (s.ctxOfThread t) false wr (s.normAddr (s.ctxOfThread t) ea) (tySize x.ty) = false →
            (wr = false → NoCopy s (State.coreOf t) x l (locOf pa)) → ∃ s', exec i s = .next s' ∧
              IssuedLook s s' t h.m x.ord (if wr then stores (locOf pa) (tySize x.ty) (bytes s t x.ty d)
                else loads (locOf pa) (tySize x.ty)) (if wr then [] else dsts t x.ty d)) ∧
          (∀ ty, (st = 2 ∧ ty = 1) ∨ (st = 3 ∧ ty = 3) ∨ (st = 0 ∧ s.badPage l.pa l.sz = true ∧ ty = 3) →
            (∀ f ∈ s.flt.faults, f.ctx ≠ s.ctxOfThread t ∨ f.page ≠ ea % 2 ^ 48 / 4096) → ∃ s', exec i s = .next s' ∧
              (s'.th t).pc = (s.th t).pc ∧ s'.pend = s.pend ∧
              (s.flt.faults.length < 1024 → (s'.th t).st = .faultRest s.flt.nextFid (s.cur.len == 8) false ∧
                s'.flt.faults = s.flt.faults ++
                  [⟨s.flt.nextFid, s.ctxOfThread t, ea % 2 ^ 48 / 4096, ty, [(.thread t, ea)]⟩] ∧
                (s.flt.held = [] → s.flt.ring.room = true → s'.flt.ring.prod = (s.flt.ring.prod + 1) % 2 ^ 32)) ∧
              (1024 ≤ s.flt.faults.length → (s'.th t).st = .slotRest (s.cycle + 256) ∧ s'.flt.faults = s.flt.faults)))) ∧
    (∀ (i : Instr) (u : Uses) (ga e : Nat), (i, u) ∈ [
        (Instr.pld h px k fill d a q, ⟨[d, q], [.g a, .w q]⟩), (.pst h px d a q, ⟨[d, q], [.g a, .w q]⟩),
        (.prf h px k fill d a q c, ⟨[d, q], [.w d, .g a, .w q]⟩)] → One s t h u → ga = (g s (t / 32) a).toNat →
      ((∃ x1 x2 x3 x4 x5 x6 x7 x8, i = .prf x1 x2 x3 x4 x5 x6 x7 x8) → (s.wreg t d).tag.v = false ∨ (s.wreg t d).tag.k < k) →
      (2 ^ 54 ≤ ga ∧ e = 0x06 ∨ ga < 2 ^ 54 ∧ ga % 64 ≠ 0 ∧ e = 0x12 →
        exec i s = .next (trapped s t (BitVec.ofNat 8 e) (s.th t).pc (BitVec.ofNat 64 ga) (stat0 s t))) ∧
      (∀ pa leaf rb, ga < 2 ^ 54 → ga % 64 = 0 → s.isLocal (s.ctxOfThread t) ga = true → Hit s t .load ga 64 pa leaf →
        pa < Config.hostBase → s.ueIn pa 64 = false → s.plainRead (.thread t) (State.coreOf t) pa 64 leaf = some rb →
        (PlaneRec.ofBytes rb = none ∨ ∃ r, PlaneRec.ofBytes rb = some r ∧ r.count ≤ (w s t q).toNat) →
        ∃ s', exec i s = .next s' ∧ Looked s s' ∧ s'.threads = (trapped s t 0x12 (s.th t).pc (BitVec.ofNat 64 ga)
          (stat0 s t)).threads))

/-! ## Full/empty forms and planes -/

namespace Sys2Proof.Says

/-- A full/empty form's word passes the checks: a global word of a page that has bits, or a word of the team's
scratchpad window. -/
def FeHit (s : State) (t : Nat) (f : FeForm) (ad : FeAddr) (l : Loc) : Prop :=
  match ad with
  | .glob a b => ∃ pa leaf, Glob s t (State.feWant f) (s.eaGlobal false t a (some b) 0 4) 4 pa leaf ∧ l = .mem pa
  | .spad b => Spad s t (State.feWrites f) (s.eaLocal t b 0 4) 4 ∧ l = spadLoc s t (s.eaLocal t b 0 4)
def feOrd (x : FeX) : Ord := if x.seq then .seq else .plain
/-- s' is s with thread t resting at its instruction until the home has performed this operation (R92). -/
def FeRests (s s' : State) (t : Nat) (x : FeX) (op : MemOp) (l : Loc) : Prop :=
  s'.threads = s.threads.map (fun y => if y.slot = t then { y with st := .feSent s.nextId } else y) ∧
  (∃ r, s'.reqs = s.reqs ++ [r] ∧ r.id = s.nextId ∧ r.who = .thread t ∧ r.op = op ∧ r.loc = l ∧ r.size = 4 ∧
    r.ord = feOrd x ∧ r.done = false) ∧
  s'.pend = s.pend ∧ s'.mem = s.mem ∧ s'.spad = s.spad ∧ s'.spadE = s.spadE ∧ s'.l2 = s.l2 ∧ s'.waits = s.waits ∧
  s'.groups = s.groups ∧ s'.teams = s.teams ∧ s'.fab = s.fab

/-- The addresses of a plane block lie where its accesses pass the checks (R312), under one NODE: place i of address
i. -/
def Block (s : State) (t : Nat) (r : PlaneRec) (wr : Bool) (l : List (Nat × Nat)) (at_ : Nat → Loc) : Prop :=
  ∀ i < l.length,
    if r.spad then Spad s t wr (l.getD i (0, 0)).1 (l.getD i (0, 0)).2 ∧ at_ i = spadLoc s t (l.getD i (0, 0)).1
    else bits (l.getD i (0, 0)).1 53 48 = bits (l.getD 0 (0, 0)).1 53 48 ∧
      ∃ pa leaf, Glob s t ⟨wr, false, wr, true⟩ (l.getD i (0, 0)).1 (l.getD i (0, 0)).2 pa leaf ∧ at_ i = locOf pa
/-- The 64 bytes of a plane record at gA, as a plain read of thread t reads them now, or as the host has delivered them
(R312, R484). -/
def RecordAt (s : State) (t a : Nat) (r : PlaneRec) : Prop :=
  ∃ pa leaf b, (g s (t / 32) a).toNat < 2 ^ 54 ∧ (g s (t / 32) a).toNat % 64 = 0 ∧
    s.isLocal (s.ctxOfThread t) (g s (t / 32) a).toNat = true ∧
    Hit s t .load (g s (t / 32) a).toNat 64 pa leaf ∧ s.ueIn pa 64 = false ∧ PlaneRec.ofBytes b = some r ∧
    (pa < Config.hostBase → s.plainRead (.thread t) (State.coreOf t) pa 64 leaf = some b) ∧
    (Config.hostBase ≤ pa →
      (s.th t).hbuf.find? (fun y => y.1 == (g s (t / 32) a).toNat) = some ((g s (t / 32) a).toNat, b))
/-- Addresses of the header and of planes 0 to k of the block of element n (R60, R61, R312). -/
def blockOf (r : PlaneRec) (n k : Nat) : List (Nat × Nat) :=
  ((r.hdr + n / 1024 * 64 + 2 * (n / 32 % 32)) % 2 ^ 64, 2) ::
    (List.range (k + 1)).map fun p => ((r.pbase + p * r.stride + n / 1024 * 128 + 4 * (n / 32 % 32)) % 2 ^ 64, 4)

/-- The address of the word of element n's block in plane p. -/
def planeWord (r : PlaneRec) (n p : Nat) : Nat :=
  (r.pbase + p * r.stride + n / 1024 * 128 + 4 * (n / 32 % 32)) % 2 ^ 64
/-- The access sent carries the planes 0 to k of its block. -/
def Parts (s s' : State) (at_ : Nat → Loc) (k : Nat) : Prop :=
  ∀ r ∈ s'.reqs, s.nextId ≤ r.id → r.parts.map (·.loc) = (List.range (k + 1)).map fun p => at_ (p + 1)
/-- A tag as PTAG.get shows it, and the tag that a word sets: none where its fields are no tag's (R73, R316). -/
def tagWord (g : Tag) : Word :=
  BitVec.ofNat 32 (g.k + 2 ^ 4 * b2n g.f + 2 ^ 5 * (g.gen % 256) + 2 ^ 13 * b2n g.v + 2 ^ 14 * (g.hm % 16) +
    2 ^ 18 * (g.hsc % 256))
def wordTag (v : Word) : Tag :=
  let g : Tag := { k := (v.extractLsb' 0 4).toNat, f := v.getLsbD 4, gen := (v.extractLsb' 5 8).toNat,
                   v := v.getLsbD 13, hm := (v.extractLsb' 14 4).toNat, hsc := (v.extractLsb' 18 8).toNat }
  if g.v = true ∧ 1 ≤ g.k ∧ g.k ≤ g.hm ∧ g.hm ≤ 12 then g else Tag.zero

/-- A branch target: the 48 address bits move by 4 * off and wrap, NODE stays. -/
def branchTo (pc : DWord) (off : Int) : DWord :=
  (pc.extractLsb' 48 16 : BitVec 16) ++ (pc.setWidth 48 + BitVec.ofInt 48 (4 * off))

end Sys2Proof.Says

/-- R88 to R90, R310: forms that never wait, and .try variants, send their operation and go on. R92: a form that may wait
rests at its instruction while its home tests the word. R410, R412: to another package a form that returns something is a
FEREQ, another an entry of its own. -/
def Obligations.FullEmptyIssue : Prop :=
  ∀ (s : State) (t : Nat) (h : Hdr) (cc : Cond) (x : FeX) (d p : Nat) (ad : FeAddr) (l : Loc), NoOpen s t →
    (One s t h (feSrc d ad) → FeHit s t .stfs ad l →
      ∃ s', exec (.stfs h x d ad) s = .next s' ∧
        Issued s s' t h.m (feOrd x) [(.fe .stfs false (w s t d) .eq false, l, 4)] []) ∧
    (One s t h ⟨FeAddr.ws ad, FeAddr.opds ad⟩ →
      (FeHit s t .feget ad l → ∃ s', exec (.feget h x d ad) s = .next s' ∧
        Issued s s' t h.m (feOrd x) [(.fe .feget false 0 .eq false, l, 4)] [.pred t d]) ∧
      (FeHit s t .fesetEmpty ad l → ∃ s', exec (.fesetEmpty h x ad) s = .next s' ∧
        Issued s s' t h.m (feOrd x) [(.fe .fesetEmpty false 0 .eq false, l, 4)] []) ∧
      (FeHit s t .fesetFull ad l → ∃ s', exec (.fesetFull h x ad) s = .next s' ∧
        Issued s s' t h.m (feOrd x) [(.fe .fesetFull false 0 .eq false, l, 4)] [])) ∧
    (x.try? = some p →
      (One s t h (feDst d ad) →
        (FeHit s t .ldwf ad l → ∃ s', exec (.ldwf h x d ad) s = .next s' ∧
          Issued s s' t h.m (feOrd x) [(.fe .ldwf true 0 .eq (!x.zty), l, 4)] [.reg t d, .pred t p]) ∧
        (FeHit s t .ldce ad l → ∃ s', exec (.ldce h x d ad) s = .next s' ∧
          Issued s s' t h.m (feOrd x) [(.fe .ldce true 0 .eq (!x.zty), l, 4)] [.reg t d, .pred t p])) ∧
      (One s t h (feSrc d ad) →
        (FeHit s t .stwe ad l → ∃ s', exec (.stwe h x d ad) s = .next s' ∧
          Issued s s' t h.m (feOrd x) [(.fe .stwe true (w s t d) .eq (!x.zty), l, 4)] [.pred t p]) ∧
        (FeHit s t .waita ad l → ∃ s', exec (.waita h cc x d ad) s = .next s' ∧
          Issued s s' t h.m (feOrd x) [(.fe .waita true (w s t d) cc (!x.zty), l, 4)] [.reg t d, .pred t p]))) ∧
    (x.try? = none →
      (One s t h (feDst d ad) →
        (FeHit s t .ldwf ad l → ∃ s', exec (.ldwf h x d ad) s = .next s' ∧
          FeRests s s' t x (.fe .ldwf false 0 .eq (!x.zty)) l) ∧
        (FeHit s t .ldce ad l → ∃ s', exec (.ldce h x d ad) s = .next s' ∧
          FeRests s s' t x (.fe .ldce false 0 .eq (!x.zty)) l)) ∧
      (One s t h (feSrc d ad) →
        (FeHit s t .stwe ad l → ∃ s', exec (.stwe h x d ad) s = .next s' ∧
          FeRests s s' t x (.fe .stwe false (w s t d) .eq (!x.zty)) l) ∧
        (FeHit s t .waita ad l → ∃ s', exec (.waita h cc x d ad) s = .next s' ∧
          FeRests s s' t x (.fe .waita false (w s t d) cc (!x.zty)) l))) ∧
    (∀ r q ea node, ad = .glob r q → ea = s.eaGlobal false t r (some q) 0 4 → ∀ z, z = (x.seq, farScope x.scope) →
      (One s t h ⟨[q], [.g r, .w q]⟩ → Far s t false ea 4 node → ∃ s' op, exec (.feget h x d ad) s = .next s' ∧
        op = .fe .feget false 0 .eq false ∧ SentTo s s' t h.m node ea op 4 (.fereq (ea % 2 ^ 48) op z.1 z.2) [.pred t d]) ∧
      (One s t h (feSrc d ad) → Far s t true ea 4 node → ∃ s' e, exec (.stfs h x d ad) s = .next s' ∧
        Combined s s' t h.m node ea e ∧
        e.body = some (.opw (ea % 2 ^ 48) (.fe .stfs false (w s t d) .eq false) 4 (farScope x.scope))) ∧
      (One s t h ⟨[q], [.g r, .w q]⟩ → Far s t true ea 4 node →
        (∃ s' e, exec (.fesetEmpty h x ad) s = .next s' ∧ Combined s s' t h.m node ea e ∧
          e.body = some (.opw (ea % 2 ^ 48) (.fe .fesetEmpty false 0 .eq false) 4 (farScope x.scope))) ∧
        ∃ s' e, exec (.fesetFull h x ad) s = .next s' ∧ Combined s s' t h.m node ea e ∧
          e.body = some (.opw (ea % 2 ^ 48) (.fe .fesetFull false 0 .eq false) 4 (farScope x.scope))) ∧
      (∀ p, x.try? = some p → One s t h (feDst d ad) →
        (Far s t false ea 4 node → ∃ s' op, exec (.ldwf h x d ad) s = .next s' ∧ op = .fe .ldwf true 0 .eq (!x.zty) ∧
          SentTo s s' t h.m node ea op 4 (.fereq (ea % 2 ^ 48) op z.1 z.2) [.reg t d, .pred t p]) ∧
        (Far s t true ea 4 node → ∃ s' op, exec (.ldce h x d ad) s = .next s' ∧ op = .fe .ldce true 0 .eq (!x.zty) ∧
          SentTo s s' t h.m node ea op 4 (.fereq (ea % 2 ^ 48) op z.1 z.2) [.reg t d, .pred t p])) ∧
      (∀ p, x.try? = some p → One s t h (feSrc d ad) →
        (Far s t true ea 4 node → ∃ s' op, exec (.stwe h x d ad) s = .next s' ∧ op = .fe .stwe true (w s t d) .eq (!x.zty) ∧
          SentTo s s' t h.m node ea op 4 (.fereq (ea % 2 ^ 48) op z.1 z.2) [.pred t p]) ∧
        (Far s t false ea 4 node → ∃ s' op, exec (.waita h cc x d ad) s = .next s' ∧
          op = .fe .waita true (w s t d) cc (!x.zty) ∧
          SentTo s s' t h.m node ea op 4 (.fereq (ea % 2 ^ 48) op z.1 z.2) [.reg t d, .pred t p])) ∧
      (x.try? = none → ∀ i op u wr, (i, op, u, wr) ∈ [
          (Instr.ldwf h x d ad, MemOp.fe .ldwf false 0 .eq (!x.zty), feDst d ad, false),
          (.ldce h x d ad, .fe .ldce false 0 .eq (!x.zty), feDst d ad, true),
          (.stwe h x d ad, .fe .stwe false (w s t d) .eq (!x.zty), feSrc d ad, true),
          (.waita h cc x d ad, .fe .waita false (w s t d) cc (!x.zty), feSrc d ad, false)] →
        One s t h u → Far s t wr ea 4 node → ∃ s', exec i s = .next s' ∧ (s'.th t).st = .feSent s.nextId ∧
          (s'.th t).pc = (s.th t).pc ∧ (s'.pair node).out = (s.pair node).out ++ [⟨(s.pair node).eseq,
            .fereq (ea % 2 ^ 48) op z.1 z.2, s.ctxOfThread t, none, s.cycle, false, false, false, none, some s.nextId⟩] ∧
          s'.mem = s.mem ∧ s'.pend = s.pend ∧ s'.waits = s.waits))

/-- R312 to R315, R318: PLD, PRF and PST read the record, check the whole block, and send one access to its header
that carries its planes: 0 to K of the requested planes, or all M. -/
def Obligations.PlaneAccess : Prop :=
  ∀ (s : State) (t : Nat) (h : Hdr) (x : PlX) (k : Nat) (fill : FillF) (d a b c n j : Nat) (r : PlaneRec) (at_ : Nat → Loc),
    RecordAt s t a r → n = (w s t b).toNat → n < r.count → NoOpen s t →
    (j = (if k ≤ r.m then k else r.m) → Block s t r false (blockOf r n j) at_ →
      (One s t h ⟨[d, b], [.g a, .w b]⟩ → ∃ s', exec (.pld h x k fill d a b) s = .next s' ∧
        IssuedLook s s' t h.m x.ord [(.planeRead (planeWord r n 0) r.stride j, at_ 0, 2)] [.reg t d] ∧ Parts s s' at_ j) ∧
      (One s t h ⟨[d, b], [.w d, .g a, .w b]⟩ → ((s.wreg t d).tag.v = false ∨ (s.wreg t d).tag.k < k) →
        ∃ s', exec (.prf h x k fill d a b c) s = .next s' ∧
          IssuedLook s s' t h.m x.ord [(.planeRead (planeWord r n 0) r.stride j, at_ 0, 2)] [.reg t d, .pred t c] ∧
          Parts s s' at_ j)) ∧
    (Block s t r true (blockOf r n r.m) at_ → One s t h ⟨[d, b], [.g a, .w b]⟩ → d + r.m + 1 < 128 →
      (∀ i < r.m + 2, State.holds (s.grOf t) (d + i) = true) →
      ((s.grOf t).haz = true → ∀ i < r.m + 2, s.dstPend (.reg t (d + i)) = false) →
      ∃ s', exec (.pst h x d a b) s = .next s' ∧
        IssuedLook s s' t h.m x.ord [(.planeWrite (planeWord r n 0) r.stride ((w s t d).setWidth 8)
          ((List.range (r.m + 1)).map fun i => w s t (d + 1 + i)) false, at_ 0, 2)] [] ∧ Parts s s' at_ r.m)

namespace Sys2Proof.Says

/-- R317: the value of a register with V = 1 held to k planes with fill f. -/
def Trimmed (r : LaneReg) (k : Nat) (f : Bool) (v : Word) : Prop :=
  (r.tag.hsc = 0xFF → v = r.val) ∧
  (∀ b, Num.unpack Num.f32 r.val.toNat = .nan b ∨ Num.unpack Num.f32 r.val.toNat = .inf b → v = r.val) ∧
  ∀ n d u, r.tag.hsc ≠ 0xFF → Num.unpack Num.f32 r.val.toNat = .fin n d →
    u = (if r.tag.f = true ∧ r.tag.k < r.tag.hm then (d.abs.scale (127 - (r.tag.hsc : Int))).sub ⟨1, -(r.tag.k : Int)⟩
      else d.abs.scale (127 - (r.tag.hsc : Int))) →
    ∃ (q : Nat) (y : Num.Dy), (u.lt Num.Dy.zero = true → q = 0) ∧
      (u.lt Num.Dy.zero = false → Num.Dy.le ⟨q, 1 - (k : Int)⟩ u = true ∧ u.lt ⟨q + 1, 1 - (k : Int)⟩ = true) ∧
      y.eq ((if f = true ∧ k < r.tag.hm then Num.Dy.add ⟨q, 1 - (k : Int)⟩ ⟨1, -(k : Int)⟩ else ⟨q, 1 - (k : Int)⟩).scale
        ((r.tag.hsc : Int) - 127)) = true ∧
      v = BitVec.ofNat 32 (Num.rnd Num.f32 .rz (if n then y.neg else y) n).1

end Sys2Proof.Says

/-- R73, R316, R317: the tag of a register to and from a word, and fewer planes without a read. -/
def Obligations.PlaneTags : Prop :=
  ∀ (s : State) (t : Nat) (h : Hdr) (x : PlX) (k : Nat) (fill : FillF) (d a b c : Nat),
    (Ready s h (useD d [a]) → exec (.ptagGet h d a) s = .next (longs s h d
      (fun t => reg (tagWord (s.wreg t a).tag)) false fun _ => same)) ∧
    (Ready s h (useR [d, a]) → exec (.ptagSet h d a) s = .next (longs s h d
      (fun t => ⟨w s t d, wordTag (w s t a)⟩) false fun _ => same)) ∧
    (Ready s h (useR [d]) →
      ((∀ t ∈ s.cur.threads, s.guardT t h.gd = true → (s.wreg t d).tag.v = false) →
        exec (.ptrim h k fill d) s = .next (goes s h fun _ => same)) ∧
      ((∀ t ∈ s.cur.threads, s.guardT t h.gd = true → (s.wreg t d).tag.v = true) →
        ∃ v : Nat → Word, (∀ t, Trimmed (s.wreg t d) (if k ≤ (s.wreg t d).tag.k then k else (s.wreg t d).tag.k)
            (match fill with | .dflt => (s.wreg t d).tag.f | .trunc => false | .mid => true) (v t)) ∧
          exec (.ptrim h k fill d) s = .next (longs s h d (fun t => ⟨v t, { (s.wreg t d).tag with
            k := if k ≤ (s.wreg t d).tag.k then k else (s.wreg t d).tag.k
            f := match fill with | .dflt => (s.wreg t d).tag.f | .trunc => false | .mid => true }⟩)
            false fun _ => same))) ∧
    (One s t h ⟨[d, b], [.w d, .g a, .w b]⟩ → (s.wreg t d).tag.v = true → k ≤ (s.wreg t d).tag.k →
      ∃ s', exec (.prf h x k fill d a b c) s = .next s' ∧ s'.reqs = s.reqs ∧ s'.mem = s.mem ∧
        s'.pend = s.pend ++ [⟨s.nextId, .pred t c, .pred false, 0, false, s.cycle⟩] ∧
        (s'.th t).pc = (s.th t).pc + BitVec.ofNat 64 s.cur.len ∧ (s'.th t).regs = (s.th t).regs)

/-! ## Lane control flow, traps, trap registers -/

/-- R238, R322: BRA and JMPR; the offset counts words and wraps within the 48 address bits; a target that is no
multiple of 4 traps at the branch. -/
def Obligations.LaneBranch : Prop :=
  ∀ (s : State) (h : Hdr) (off : Int) (a : Nat),
    (Ready s h ⟨[], []⟩ →
      exec (.bra h off) s = .next (goesTo s h fun t x => { x with pc := branchTo (s.th t).pc off })) ∧
    (Ready s h (useR [a]) →
      ((∀ t ∈ s.cur.threads, s.guardT t h.gd = true → (w s t a).toNat % 4 = 0) →
        exec (.jmpr h a) s = .next (goesTo s h fun t x =>
          { x with pc := ((s.th t).pc.extractLsb' 32 32 ++ w s t a : DWord) })) ∧
      (∀ t, s.cur.threads = [t] → s.guardT t h.gd = true → (w s t a).toNat % 4 ≠ 0 → Free s t →
        exec (.jmpr h a) s = .next
          (trapped s t 0x05 (s.th t).pc ((s.th t).pc.extractLsb' 32 32 ++ w s t a : DWord) (stat0 s t))))

/-- R324: CALL stores its return address below the frames that the thread has and RET goes back to it; a stack
without room, or without a frame, traps STACK. -/
def Obligations.LaneCallReturn : Prop :=
  ∀ (s : State) (t : Nat) (h : Hdr) (off : Int) (n o : Nat) (pa : Nat → Nat) (leaf : Nat → Leaf),
    One s t h ⟨[], []⟩ → n = (s.th t).cdepth →
    (8 * (n + 1) ≤ (s.grOf t).stk → (s.grOf t).stk % 8 = 0 → o = (s.grOf t).stk - 8 * (n + 1) →
      (∀ i < 2, s.backing t (o + 4 * i) < 2 ^ 54 ∧ Hit s t .store (s.backing t (o + 4 * i)) 4 (pa i) (leaf i) ∧
        pa i < Config.hostBase) →
      ∃ s' q, exec (.call h off) s = .next s' ∧ s'.reqs = s.reqs ++ q ∧
        (q.map fun r => (r.op, r.loc, r.size)).Perm ((List.range 2).map fun i =>
          (.store (((leBytes 8 ((s.th t).pc + BitVec.ofNat 64 s.cur.len).toNat).drop (4 * i)).take 4), .mem (pa i), 4)) ∧
        (s'.th t).pc = branchTo (s.th t).pc off ∧ (s'.th t).cdepth = n + 1 ∧ (s'.th t).regs = (s.th t).regs ∧
        s'.mem = s.mem ∧ s'.pend = s.pend) ∧
    ((s.grOf t).stk < 8 * (n + 1) → Free s t → exec (.call h off) s = .next (trapped s t 0x10 (s.th t).pc
      ((BitVec.ofInt 32 ((s.grOf t).stk - 8 * (n + 1))).setWidth 64) (stat0 s t))) ∧
    (n = 0 → Free s t → exec (.ret h) s = .next (trapped s t 0x10 (s.th t).pc
      ((BitVec.ofNat 32 (s.grOf t).stk).setWidth 64) (stat0 s t))) ∧
    (∀ b0 b1 target, n ≠ 0 → 8 * n ≤ (s.grOf t).stk → (s.grOf t).stk % 8 = 0 → o = (s.grOf t).stk - 8 * n →
      (∀ i < 2, s.backing t (o + 4 * i) < 2 ^ 54 ∧ Hit s t .load (s.backing t (o + 4 * i)) 4 (pa i) (leaf i) ∧
        pa i < Config.hostBase ∧ s.ueHit (.mem (pa i)) 4 false = none) →
      s.plainRead (.thread t) (State.coreOf t) (pa 0) 4 (leaf 0) = some b0 →
      (s.plainFill (State.coreOf t) (pa 0) 4 (leaf 0)).plainRead (.thread t) (State.coreOf t) (pa 1) 4 (leaf 1) = some b1 →
      target = leNat (b0 ++ b1) → ∃ s', exec (.ret h) s = .next s' ∧ Looked s s' ∧ s'.pend = s.pend ∧
        (target % 4 = 0 → s'.threads = (goesTo s h fun _ x =>
          { x with pc := BitVec.ofNat 64 target, cdepth := n - 1 }).threads) ∧
        (target % 4 ≠ 0 → Free s t →
          s'.threads = (trapped s t 0x05 (s.th t).pc (BitVec.ofNat 64 target) (stat0 s t)).threads))

/-- R213, R325: EXIT ends a thread without pending results, and rests one that has some; where no thread of its group
waits at a convergence point and no park record names it, no byte of memory changes. YIELD gives up 64 cycles. -/
def Obligations.LaneExitYield : Prop :=
  ∀ (s : State) (t : Nat) (h : Hdr), One s t h ⟨[], []⟩ →
    (s.threadPend t = false → ∃ s', exec (.exit h) s = .next s' ∧ (s'.th t).st = .ended ∧
      (s'.th t).regs = (s.th t).regs ∧
      ((∀ y ∈ s.threads, y.slot / 32 = t / 32 → y.st.isConv = false) →
        (∀ p ∈ s.parkList (s.tmOf t).ctx, p.2.gslot = t / 32 → State.laneOf t ∉ p.2.lanes) → s'.mem = s.mem)) ∧
    (s.threadPend t = true → exec (.exit h) s = .next (s.updThread t fun x => { x with st := .exiting })) ∧
    exec (.yield h) s = .next (s.updThread t fun x =>
      { x with pc := x.pc + BitVec.ofNat 64 s.cur.len, st := .yield (s.cycle + 64) h.m, retry := 0, re := .first,
               hbuf := [] })

/-- R325, R388, R389: TRAP resumes after itself with its immediate as TRAP_ADDR, BKPT at itself. R388, R395: a trap of a
thread that is already at level 2 kills its context. -/
def Obligations.LaneTraps : Prop :=
  ∀ (s : State) (t : Nat) (h : Hdr) (imm : Int), One s t h ⟨[], []⟩ →
    (Free s t →
      exec (.trap h imm) s =
        .next (trapped s t 0x0D ((s.th t).pc + BitVec.ofNat 64 s.cur.len) (BitVec.ofInt 64 imm) (stat0 s t)) ∧
      exec (.bkpt h) s = .next (trapped s t 0x0E (s.th t).pc 0 (stat0 s t))) ∧
    ((s.th t).trap.level = 2 → (s.th t).re = .first → s.threadPend t = false →
      s.hasCtx (s.ctxOfThread t) = true → (s.cx (s.ctxOfThread t)).killing = none →
      ∃ s', exec (.bkpt h) s = .next s' ∧ (s'.cx (s.ctxOfThread t)).killing = some .nest ∧ (s'.th t).st = .ended)

/-- R337: TRET goes back one level to the address that entry saved; at level 0 it traps PRIV; with pending results it
rests. -/
def Obligations.LaneTrapReturn : Prop :=
  ∀ (s : State) (t : Nat) (h : Hdr), One s t h ⟨[], []⟩ →
    ((s.th t).trap.level = 0 → Free s t → exec (.tret h) s = .next (trapped s t 0x03 (s.th t).pc 0 (stat0 s t))) ∧
    (∀ pc, ((s.th t).trap.level = 1 ∧ pc = (s.th t).trap.epc1 ∨ (s.th t).trap.level = 2 ∧ pc = (s.th t).trap.epc2) →
      pc.toNat % 4 = 0 →
      (s.threadPend t = true → exec (.tret h) s = .next (s.updThread t fun x => { x with st := .returning })) ∧
      (s.threadPend t = false → ∃ s', exec (.tret h) s = .next s' ∧ (s'.th t).pc = pc ∧ (s'.th t).st = .run ∧
        (s'.th t).trap = { (s.th t).trap with level := (s.th t).trap.level - 1 } ∧ (s'.th t).regs = (s.th t).regs ∧
        s'.mem = s.mem ∧ ∀ u, u ≠ t → s'.th u = s.th u))

/-- R335, R336, R390: MFT reads every trap and system register; MTT writes them at trap level 1 or 2, and FPSTAT and
HAZ at any level; below, it traps PRIV. -/
def Obligations.TrapRegisterMoves : Prop :=
  ∀ (s : State) (h : Hdr) (d a : Nat),
    (Ready s h ⟨[d], []⟩ →
      (∀ p : Nat × (Nat → Word), p ∈ [
          (0, fun t => BitVec.ofNat 32 (s.th t).trap.level), (1, fun t => (s.th t).trap.cause1.setWidth 32),
          (4, fun t => (s.th t).trap.cause2.setWidth 32), (9, fun t => (s.th t).trap.stat.setWidth 32),
          (11, fun t => BitVec.ofNat 32 (b2n (s.grOf t).haz))] →
        exec (.mft h d p.1) s = .next (goes s h fun t => put d (p.2 t))) ∧
      ((∀ t ∈ s.cur.threads, ∀ p ∈ s.pend, p.fp = true → State.Pend.ofThread t p = false) →
        exec (.mft h d 10) s = .next (goes s h fun t => put d ((s.th t).fpstat.setWidth 32)))) ∧
    (Ready s h ⟨[d, d + 1], []⟩ → ∀ p : Nat × (TrapRegs → DWord), p ∈ [
        (2, fun r => r.epc1), (3, fun r => r.addr1), (5, fun r => r.epc2), (6, fun r => r.addr2),
        (7, fun r => r.vec), (8, fun r => r.save)] →
      exec (.mft h d p.1) s = .next (goes s h fun t x => put (d + 1) ((p.2 (s.th t).trap).extractLsb' 32 32)
        (put d ((p.2 (s.th t).trap).setWidth 32) x))) ∧
    (∀ t, One s t h (useR [a]) →
      exec (.mtt h 10 a) s = .next (goes s h fun _ x => { x with fpstat := (w s t a).setWidth 5 }) ∧
      exec (.mtt h 11 a) s = .next { goes s h (fun _ => same) with
        groups := s.groups.map fun x => if x.gslot = t / 32 then { x with haz := (w s t a).getLsbD 0 } else x } ∧
      ((s.th t).trap.level ≠ 0 →
        exec (.mtt h 0 a) s = .next (goes s h fun _ => same) ∧
        exec (.mtt h 1 a) s = .next (goes s h fun _ x => { x with trap := { x.trap with cause1 := (w s t a).setWidth 8 } }) ∧
        exec (.mtt h 4 a) s = .next (goes s h fun _ x => { x with trap := { x.trap with cause2 := (w s t a).setWidth 8 } }) ∧
        exec (.mtt h 9 a) s = .next (goes s h fun _ x => { x with trap := { x.trap with stat := (w s t a).setWidth 6 } })) ∧
      ((s.th t).trap.level = 0 → Free s t → ∀ tc, tc = 0 ∨ tc = 1 ∨ tc = 4 ∨ tc = 9 →
        exec (.mtt h tc a) s = .next (trapped s t 0x03 (s.th t).pc 0 (stat0 s t)))) ∧
    (∀ t v, One s t h (useR [a, a + 1]) → v = (w s t (a + 1) ++ w s t a : DWord) → (s.th t).trap.level ≠ 0 →
      exec (.mtt h 2 a) s = .next (goes s h fun _ x => { x with trap := { x.trap with epc1 := v } }) ∧
      exec (.mtt h 3 a) s = .next (goes s h fun _ x => { x with trap := { x.trap with addr1 := v } }) ∧
      exec (.mtt h 5 a) s = .next (goes s h fun _ x => { x with trap := { x.trap with epc2 := v } }) ∧
      exec (.mtt h 6 a) s = .next (goes s h fun _ x => { x with trap := { x.trap with addr2 := v } }) ∧
      exec (.mtt h 7 a) s = .next (goes s h fun _ x => { x with trap := { x.trap with vec := v >>> 8 <<< 8 } }) ∧
      exec (.mtt h 8 a) s = .next (goes s h fun _ x => { x with trap := { x.trap with save := v >>> 12 <<< 12 } })) ∧
    (∀ t, One s t h (useR [a, a + 1]) → (s.th t).trap.level = 0 → Free s t → ∀ tc ∈ [2, 3, 5, 6, 7, 8],
      exec (.mtt h tc a) s = .next (trapped s t 0x03 (s.th t).pc 0 (stat0 s t)))

/-! ## Uniform instructions -/

namespace Sys2Proof.Says

/-- The bundle is threads of group gs, and where the guard is true and HAZ is set no g register read is pending. -/
def UReady (s : State) (gs : Nat) (h : Hdr) (reads : List Opd) : Prop :=
  s.cur.threads.Nodup ∧ s.cur.threads.headD 0 / 32 = gs ∧
  ((s.gr gs).haz = true → s.guardG gs h.gd = true → ∀ o ∈ reads, s.opdPend (gs * 32) o = false)
/-- With a true guard the group changes as f says; every thread of the bundle goes to the address that `dest` gives, or
to the next instruction where the guard is false; with M = 1 the group rests while it has pending results. Nothing
else of the machine changes. -/
def uniTo (s : State) (gs : Nat) (h : Hdr) (dest : DWord → DWord) (f : Group → Group) : State :=
  { s with
    threads := s.threads.map fun x =>
      if x.slot ∈ s.cur.threads then
        { x with pc := if s.guardG gs h.gd then dest x.pc else x.pc + BitVec.ofNat 64 s.cur.len,
                 st := .run, retry := 0, re := .first, hbuf := [] }
      else x
    groups := s.groups.map fun x =>
      if x.gslot = gs then
        let y := if s.guardG gs h.gd then f x else x
        { y with proof := if h.m && s.groupPend gs then true else y.proof }
      else x }
def uniGoes (s : State) (gs : Nat) (h : Hdr) (f : Group → Group) : State :=
  uniTo s gs h (fun pc => pc + BitVec.ofNat 64 s.cur.len) f
def sameG (x : Group) : Group := x
/-- A write of a g register; g0 keeps reading 0 (R230). -/
def putG (d : Nat) (v : DWord) (x : Group) : Group := if d = 0 then x else { x with g := setAt x.g d v }
def putQ (d : Nat) (b : Bool) (x : Group) : Group := { x with q := setAt x.q d b }
/-- A 64-bit value as a number under TY 0 (signed) or 1. -/
def num64 (uns : Bool) (x : DWord) : Int := if uns then x.toNat else x.toInt
/-- The trap of R389 that a uniform instruction raises in the one thread of its group: GRP is set. -/
def statG (s : State) (t : Nat) : BitVec 6 := BitVec.ofNat 6 ((s.th t).trap.level + 4 * b2n (s.cur.len == 8) + 32)

/-- s' is s after the group has issued these operations and gone on: the accesses and a pending result for each
destination are appended; no register, byte of memory, team, context or part of the fabric has changed. -/
def UIssued (s s' : State) (gs : Nat) (h : Hdr) (o : Ord) (ops : List (MemOp × Loc × Nat)) (ds : List Dst) : Prop :=
  s'.threads = (uniGoes s gs h sameG).threads ∧
  s'.groups = s.groups.map (fun x => if x.gslot = gs then
    { x with proof := if h.m && (s.groupPend gs || decide (ds ≠ [])) then true else x.proof } else x) ∧
  (∃ q, s'.reqs = s.reqs ++ q ∧ q.map (fun r => (r.op, r.loc, r.size)) = ops ∧
    ∀ r ∈ q, r.who = .group gs ∧ r.core = gs / 64 ∧ r.ord = o ∧ r.done = false) ∧
  (∃ q, s'.pend = s.pend ++ q ∧ q.map (·.dst) = ds ∧ ∀ p ∈ q, p.val = .none ∧ p.req = s.nextId) ∧
  s'.mem = s.mem ∧ s'.spad = s.spad ∧ s'.l2 = s.l2 ∧ s'.teams = s.teams ∧ s'.ctxs = s.ctxs ∧ s'.fab = s.fab ∧
  s'.flt = s.flt

end Sys2Proof.Says

/-- R230, R321, R325, R326: uniform arithmetic modulo 2^64; a result for g0 is discarded. -/
def Obligations.UniformArithmetic : Prop :=
  ∀ (s : State) (gs : Nat) (h : Hdr) (uns : Bool) (d a : Nat) (b : Src) (c : Nat),
    (UReady s gs h [] → exec (.unop h) s = .next (uniGoes s gs h sameG)) ∧
    (UReady s gs h (.g a :: b.gs) →
      exec (.uadd h uns d a b) s = .next (uniGoes s gs h (putG d (g s gs a + gsrc s gs b))) ∧
      exec (.usub h uns d a b) s = .next (uniGoes s gs h (putG d (g s gs a - gsrc s gs b))) ∧
      exec (.umul h uns d a b) s = .next (uniGoes s gs h (putG d (g s gs a * gsrc s gs b))) ∧
      exec (.uand h uns d a b) s = .next (uniGoes s gs h (putG d (g s gs a &&& gsrc s gs b))) ∧
      exec (.uor h uns d a b) s = .next (uniGoes s gs h (putG d (g s gs a ||| gsrc s gs b))) ∧
      exec (.uxor h uns d a b) s = .next (uniGoes s gs h (putG d (g s gs a ^^^ gsrc s gs b))) ∧
      exec (.ushl h uns d a b) s = .next (uniGoes s gs h (putG d (g s gs a <<< (gsrc s gs b).toNat))) ∧
      exec (.ushr h uns d a b) s = .next (uniGoes s gs h (putG d (g s gs a >>> (gsrc s gs b).toNat))) ∧
      exec (.usar h uns d a b) s = .next (uniGoes s gs h (putG d ((g s gs a).sshiftRight (gsrc s gs b).toNat))) ∧
      exec (.umin h uns d a b) s = .next (uniGoes s gs h (putG d
        (if num64 uns (g s gs a) ≤ num64 uns (gsrc s gs b) then g s gs a else gsrc s gs b))) ∧
      exec (.umax h uns d a b) s = .next (uniGoes s gs h (putG d
        (if num64 uns (g s gs a) ≤ num64 uns (gsrc s gs b) then gsrc s gs b else g s gs a)))) ∧
    (UReady s gs h (.g a :: b.gs ++ [.g c]) →
      exec (.umad h uns d a b c) s =
        .next (uniGoes s gs h (putG d (g s gs a * gsrc s gs b + g s gs c)))) ∧
    (UReady s gs h [.g a] →
      exec (.umov h uns d a) s = .next (uniGoes s gs h (putG d (g s gs a))) ∧
      exec (.upopc h uns d a) s =
        .next (uniGoes s gs h (putG d (BitVec.ofNat 64 ((List.range 64).countP (g s gs a).getLsbD)))))

/-- R30, R239, R267, R327: uniform constants, comparison, selection, predicates, bit fields and special registers. -/
def Obligations.UniformConstSelect : Prop :=
  ∀ (s : State) (gs : Nat) (h : Hdr) (cc : Cond) (op : LogOp) (na nb uns : Bool) (d a hw v : Nat) (z : Int) (b : Src)
    (c qa qb len sc : Nat),
    (UReady s gs h [] →
      exec (.uli h d z) s = .next (uniGoes s gs h (putG d (BitVec.ofInt 64 z))) ∧
      exec (.uqlog h op na nb d qa qb) s = .next (uniGoes s gs h (putQ d (match op with
        | .and => (s.rq gs qa ^^ na) && (s.rq gs qb ^^ nb)
        | .or => (s.rq gs qa ^^ na) || (s.rq gs qb ^^ nb)
        | .xor => (s.rq gs qa ^^ na) ^^ (s.rq gs qb ^^ nb)))) ∧
      exec (.umovs h d 14) s = .next (uniGoes s gs h (putG d (BitVec.ofNat 64 s.cycle))) ∧
      exec (.umovs h d 15) s = .next (uniGoes s gs h (putG d (BitVec.ofNat 64 (s.cycle % 2 ^ 64 / 2 ^ 32)))) ∧
      (sc ≠ 14 → sc ≠ 15 →
        exec (.umovs h d sc) s = .next (uniGoes s gs h (putG d (BitVec.ofNat 64 (s.specialReg gs sc))))) ∧
      ∀ p : Nat × Nat, p ∈ [(2, (s.gr gs).gid), (3, (s.tm (s.gr gs).team).x), (4, (s.tm (s.gr gs).team).y),
          (5, (s.tm (s.gr gs).team).z), (6, (s.tm (s.gr gs).team).nx), (7, (s.tm (s.gr gs).team).ny),
          (8, (s.tm (s.gr gs).team).nz), (9, (s.gr gs).role), (10, gs / 64), (11, State.rank (gs / 64)),
          (12, State.cluster (gs / 64)), (13, s.fab.node), (16, s.fab.slot + 8 * (s.fab.slotCycle % 2 ^ 29)),
          (17, State.dieOf (gs / 64)), (18, (s.tm (s.gr gs).team).prio)] →
        exec (.umovs h d p.1) s = .next (uniGoes s gs h (putG d (BitVec.ofNat 64 p.2)))) ∧
    (1 ≤ hw → hw ≤ 3 → UReady s gs h [.g d] →
      exec (.ulih h d hw v) s = .next (uniGoes s gs h (putG d
        ((g s gs d &&& ~~~((0xFFFF : DWord) <<< (16 * hw))) ||| (BitVec.ofNat 64 (v % 65536) <<< (16 * hw)))))) ∧
    (UReady s gs h (.g a :: b.gs) →
      exec (.usetq h cc uns d a b) s =
        .next (uniGoes s gs h (putQ d (cond cc (num64 uns (g s gs a)) (num64 uns (gsrc s gs b))))) ∧
      exec (.usel h d a b c) s =
        .next (uniGoes s gs h (putG d (if s.rq gs c then g s gs a else gsrc s gs b))) ∧
      (1 ≤ len → len ≤ 64 →
        exec (.ubfx h false d a b len) s = .next (uniGoes s gs h (putG d
          (((g s gs a >>> ((gsrc s gs b).toNat % 64)).setWidth len).setWidth 64))) ∧
        exec (.ubfx h true d a b len) s = .next (uniGoes s gs h (putG d
          (((g s gs a >>> ((gsrc s gs b).toNat % 64)).setWidth len).signExtend 64)))))

/-- R322, R323: uniform branches move every thread of the group; ULOOP counts down and ends at 0. -/
def Obligations.UniformBranch : Prop :=
  ∀ (s : State) (gs : Nat) (h : Hdr) (off : Int) (a : Nat),
    (UReady s gs h [] → exec (.ubra h off) s = .next (uniTo s gs h (fun _ => branchTo s.cur.pc off) sameG)) ∧
    (a ≠ 0 → UReady s gs h [.g a] →
      exec (.uloop h off a) s = .next (uniTo s gs h
        (fun pc => if g s gs a = 1 then pc + BitVec.ofNat 64 s.cur.len else branchTo s.cur.pc off)
        (putG a (g s gs a - 1)))) ∧
    (UReady s gs h [.g a] →
      ((g s gs a).toNat % 4 = 0 → exec (.ujmpr h a) s = .next (uniTo s gs h (fun _ => g s gs a) sameG)) ∧
      (∀ t, s.cur.threads = [t] → (s.th t).st ≠ .ended → s.guardG gs h.gd = true → Free s t →
        (s.gr gs).proof = false → h.m = false → (g s gs a).toNat % 4 ≠ 0 →
        exec (.ujmpr h a) s = .next (trapped s t 0x05 (s.th t).pc (g s gs a) (statG s t))))

/-- R330, R331: an arrival counts; the last one of a phase ends it and frees the groups that wait for it. R332, R334: DWAIT
waits until every dependency slot named is 0; USLEEP for at most 2^24 cycles. -/
def Obligations.UniformBarrier : Prop :=
  ∀ (s : State) (gs : Nat) (h : Hdr) (mask : Nat) (z : Src),
    (∀ (b u : Nat) (br : Bar), UReady s gs h [] → s.guardG gs h.gd = true → (s.gr gs).active = true →
      (s.gr gs).wait = .none → u = (s.gr gs).team → (s.tm u).bars[b]? = some br →
      (s.groupReads gs = false → (br.last.any fun x => x.1 == (s.gr gs).gid && x.2 == br.phase) = false →
        (br.arr + 1 ≠ br.exp →
          (∃ s', exec (.bar h b) s = .next s' ∧ s'.threads = (uniGoes s gs h sameG).threads ∧
            (s'.gr gs).wait = .bar b br.phase ∧ ((s'.tm u).bars.getD b br).arr = br.arr + 1 ∧
            ((s'.tm u).bars.getD b br).phase = br.phase) ∧
          (∃ s', exec (.bara h b) s = .next s' ∧ s'.threads = (uniGoes s gs h sameG).threads ∧
            (s'.gr gs).wait = .none ∧ ((s'.tm u).bars.getD b br).arr = br.arr + 1 ∧
            ((s'.tm u).bars.getD b br).phase = br.phase)) ∧
        (br.arr + 1 = br.exp → (∀ y ∈ s.groups, y.team = u → ∀ k, y.wait ≠ .arrive b br.phase k) →
          (∃ s', exec (.bar h b) s = .next s' ∧ (s'.gr gs).wait = .none ∧ ((s'.tm u).bars.getD b br).arr = 0 ∧
            ((s'.tm u).bars.getD b br).phase = br.phase + 1 ∧
            ∀ y ∈ s'.groups, y.team = u → y.wait ≠ .bar b br.phase) ∧
          (∃ s', exec (.bara h b) s = .next s' ∧ (s'.gr gs).wait = .none ∧ ((s'.tm u).bars.getD b br).arr = 0 ∧
            ((s'.tm u).bars.getD b br).phase = br.phase + 1 ∧
            ∀ y ∈ s'.groups, y.team = u → y.wait ≠ .bar b br.phase))) ∧
      (s.lastArr gs b = some br.phase →
        exec (.barw h b) s = .next (uniGoes s gs h fun x => { x with wait := .bar b br.phase })) ∧
      (s.lastArr gs b ≠ some br.phase → exec (.barw h b) s = .next (uniGoes s gs h sameG))) ∧
    (UReady s gs h [] →
      ((∀ i < 8, bitOf mask i = true → ((s.tm (s.gr gs).team).slots.getD i DSlot.zero).cnt = 0) →
        exec (.dwait h mask) s = .next (uniGoes s gs h sameG)) ∧
      (∀ i < 8, bitOf mask i = true → ((s.tm (s.gr gs).team).slots.getD i DSlot.zero).cnt ≠ 0 →
        exec (.dwait h mask) s = .next (uniGoes s gs h fun x => { x with wait := .dwait mask }))) ∧
    (UReady s gs h z.gs →
      ((gsrc s gs z).toNat = 0 → exec (.usleep h z) s = .next (uniGoes s gs h sameG)) ∧
      ((gsrc s gs z).toNat ≠ 0 → exec (.usleep h z) s = .next (uniGoes s gs h fun x =>
        { x with wait := .sleep (s.cycle + (if (gsrc s gs z).toNat ≤ 2 ^ 24 then (gsrc s gs z).toNat else 2 ^ 24)) })))

/-- R194 to R196, R333: RACQ takes an extended block where 64 rows are free and no group of the quadrant waits, waits where
not, and traps ILLREG for a role without extended registers; RREL gives the block back. -/
def Obligations.UniformRegisterBlock : Prop :=
  ∀ (s : State) (gs rows : Nat) (h : Hdr), UReady s gs h [] → s.guardG gs h.gd = true → h.m = false →
    rows = ((s.groups.filter fun y => y.gslot / 16 == gs / 16).map fun y => y.base + (if y.ext then 64 else 0)).sum →
    ((s.gr gs).extOk = true → (s.gr gs).ext = true → exec (.racq h) s = .next (uniGoes s gs h sameG)) ∧
    ((s.gr gs).extOk = true → (s.gr gs).ext = false → (s.gr gs).wait = .none → rows + 64 ≤ 1536 →
      (∀ y ∈ (s.co (gs / 64)).racq, y / 16 % 4 ≠ gs / 16 % 4) → ∃ s', exec (.racq h) s = .next s' ∧
        s'.groups = s.groups.map (fun x => if x.gslot = gs then
          { x with ext := true, wait := if x.wait = .racq then .none else x.wait } else x) ∧ s'.mem = s.mem ∧
        s'.threads = (uniGoes s gs h sameG).threads.map fun x =>
          if x.slot / 32 = gs then { x with regs := x.regs.take 64 ++ List.replicate 64 LaneReg.zero } else x) ∧
    ((s.gr gs).extOk = true → (s.gr gs).ext = false →
      (1536 < rows + 64 ∨ ∃ y ∈ (s.co (gs / 64)).racq, y / 16 % 4 = gs / 16 % 4) →
      exec (.racq h) s = .next (((uniGoes s gs h fun x => { x with wait := .racq, racqAt := s.nextId }).updCore (gs / 64)
        fun c => { c with racq := c.racq ++ [gs] }).bump)) ∧
    (∀ t, (s.gr gs).extOk = false → s.cur.threads = [t] → (s.th t).st ≠ .ended → Free s t →
      exec (.racq h) s = .next (trapped s t 0x02 (s.th t).pc 64 (statG s t))) ∧
    ((s.gr gs).ext = false → exec (.rrel h) s = .next (uniGoes s gs h sameG)) ∧
    ((s.gr gs).ext = true → ∃ s', exec (.rrel h) s = .next s' ∧
      s'.groups = s.groups.map (fun x => if x.gslot = gs then { x with ext := false } else x) ∧ s'.mem = s.mem ∧
      (∀ p ∈ s'.pend, ∀ t n, p.dst = .reg t n → t / 32 = gs → n < 64) ∧
      (∀ p ∈ s.pend, (∀ t n, p.dst ≠ .reg t n) → p ∈ s'.pend))

/-- R328: uniform loads and stores of a group, and what they trap on instead (R34, R19 to R21). -/
def Obligations.UniformMemory : Prop :=
  ∀ (s : State) (gs : Nat) (h : Hdr) (x : MemX) (d a ea n pa : Nat) (leaf : Leaf), n = tySize x.ty → n ≤ 8 →
    s.cur.threads ≠ [] → s.guardG gs h.gd = true → s.acqBlocked (.group gs) = false → Fresh s → NoOpen s (gs * 32) →
    (ea = (g s gs a + BitVec.ofInt 64 (x.off * n)).toNat →
      (UReady s gs h [.g a] → Glob s (gs * 32) .load ea n pa leaf →
        NoCopy s (gs / 64) x leaf (locOf pa) → ∃ s', exec (.uld h x d a) s = .next s' ∧
          UIssued s s' gs h x.ord [(.load, locOf pa, n)] [.ureg gs d]) ∧
      (UReady s gs h [.g d, .g a] → Glob s (gs * 32) .store ea n pa leaf → ∃ s', exec (.ust h x d a) s = .next s' ∧
        UIssued s s' gs h x.ord (stores (locOf pa) n (leBytes n (g s gs d).toNat)) [])) ∧
    ((g s gs a).toNat < 2 ^ 32 → ea = (BitVec.ofInt 32 ((g s gs a).toNat + x.off * n)).toNat →
      (UReady s gs h [.g a] → Spad s (gs * 32) false ea n → ∃ s', exec (.ulds h x d a) s = .next s' ∧
        UIssued s s' gs h x.ord [(.load, spadLoc s (gs * 32) ea, n)] [.ureg gs d]) ∧
      (UReady s gs h [.g d, .g a] → Spad s (gs * 32) true ea n → ∃ s', exec (.usts h x d a) s = .next s' ∧
        UIssued s s' gs h x.ord (stores (spadLoc s (gs * 32) ea) n (leBytes n (g s gs d).toNat)) [])) ∧
    (∀ t, s.cur.threads = [t] → (s.th t).st ≠ .ended → Free s t → h.m = false → 2 ^ 32 ≤ (g s gs a).toNat →
      ea = (BitVec.ofInt 32 ((g s gs a).toNat + x.off * n)).toNat →
      (UReady s gs h [.g a] → exec (.ulds h x d a) s =
        .next (trapped s t 0x0F (s.th t).pc (BitVec.ofNat 64 ea) (statG s t))) ∧
      (UReady s gs h [.g d, .g a] → exec (.usts h x d a) s =
        .next (trapped s t 0x0F (s.th t).pc (BitVec.ofNat 64 ea) (statG s t)))) ∧
    (∀ t e, t / 32 = gs → s.cur.threads = [t] → (s.th t).st ≠ .ended → Free s t → h.m = false →
      (ea = (g s gs a + BitVec.ofInt 64 (x.off * n)).toNat →
        (UReady s gs h [.g a] → GlobTraps s t .load ea n e → exec (.uld h x d a) s =
          .next (trapped s t (BitVec.ofNat 8 e) (s.th t).pc (BitVec.ofNat 64 ea) (statG s t))) ∧
        (UReady s gs h [.g d, .g a] → GlobTraps s t .store ea n e → exec (.ust h x d a) s =
          .next (trapped s t (BitVec.ofNat 8 e) (s.th t).pc (BitVec.ofNat 64 ea) (statG s t)))) ∧
      ((g s gs a).toNat < 2 ^ 32 → ea = (BitVec.ofInt 32 ((g s gs a).toNat + x.off * n)).toNat →
        (UReady s gs h [.g a] → SpadTraps s t false ea n e → exec (.ulds h x d a) s =
          .next (trapped s t (BitVec.ofNat 8 e) (s.th t).pc (BitVec.ofNat 64 ea) (statG s t))) ∧
        (UReady s gs h [.g d, .g a] → SpadTraps s t true ea n e → exec (.usts h x d a) s =
          .next (trapped s t (BitVec.ofNat 8 e) (s.th t).pc (BitVec.ofNat 64 ea) (statG s t)))))

/-- R242, R338 to R340: TFLSH, TDRN and CSPLIT in a team that may run them; in another they trap PRIV. -/
def Obligations.UniformPrivileged : Prop :=
  ∀ (s : State) (gs : Nat) (h : Hdr) (a p ctx : Nat), h.m = false → (s.cur.threads.headD 0) / 32 = gs →
    (∀ t, (s.tm (s.gr gs).team).sys = false → s.cur.threads = [t] → (s.th t).st ≠ .ended → Free s t →
      exec (.tflsh h a) s = .next (trapped s t 0x03 (s.th t).pc 0 (statG s t)) ∧
      exec (.tdrn h a) s = .next (trapped s t 0x03 (s.th t).pc 0 (statG s t)) ∧
      exec (.csplit h p) s = .next (trapped s t 0x03 (s.th t).pc 0 (statG s t))) ∧
    ((s.tm (s.gr gs).team).sys = true → s.guardG gs h.gd = true →
      (UReady s gs h [.g a] → ctx = (g s gs a).toNat → ctx < 16 →
        (s.hasCtx ctx = true → s.groupUndone gs = false →
          ∃ s', exec (.tflsh h a) s = .next s' ∧ s'.threads = (uniGoes s gs h sameG).threads ∧
            (s'.cx ctx).epoch = (s.cx ctx).epoch + 1 ∧ (s'.cx ctx).unacked ≠ [] ∧
            s'.groups = s.groups.map fun x =>
              if x.gslot = gs then { x with wait := .flush ctx ((s.cx ctx).epoch + 1) } else x) ∧
        (s.hasCtx ctx = true → exec (.tdrn h a) s =
          .next (uniGoes s gs h fun x => { x with wait := .drain ctx (s.cx ctx).epoch })) ∧
        (s.hasCtx ctx = false → (s.groupUndone gs = false → exec (.tflsh h a) s = .next (uniGoes s gs h sameG)) ∧
          (s.promPending (gs / 64) = [] → (∀ x ∈ s.groups, (x.gslot = gs → x.wait = .none) ∧ ∀ l, x.wait ≠ .acq l) →
            ∃ s', exec (.tdrn h a) s = .next s' ∧ s'.threads = (uniGoes s gs h sameG).threads ∧ s'.groups = s.groups ∧
              ((∃ x ∈ s.groups, x.gslot = gs) → (s'.co (gs / 64)).l1 = [])))) ∧
      (∀ t, UReady s gs h [.g a] → s.cur.threads = [t] → (s.th t).st ≠ .ended → Free s t → 16 ≤ (g s gs a).toNat →
        exec (.tflsh h a) s = .next (trapped s t 0x11 (s.th t).pc (g s gs a) (statG s t)) ∧
        exec (.tdrn h a) s = .next (trapped s t 0x11 (s.th t).pc (g s gs a) (statG s t))) ∧
      (UReady s gs h [] → exec (.csplit h p) s = .next ((uniGoes s gs h sameG).updCore (gs / 64) fun c =>
        { c with pendSplit := if c.ways = p then none else some p })))

/-! ## Engine operations, sequence records, launches -/

namespace Sys2Proof.Says

/-- The threads after t has gone on to the next instruction; with M = 1 it rests while it has pending results. -/
def onward (s : State) (t : Nat) (m : Bool) : List Thread :=
  s.threads.map fun x => if x.slot = t then
    { x with pc := x.pc + BitVec.ofNat 64 s.cur.len, st := if m && s.threadPend t then .proof else .run, retry := 0,
             re := .first, hbuf := [] }
    else x
/-- s' is s with one more operation at the end of a core's queue, its locks in that core's table and its dependency
slot one higher; no memory, no access on its way and no pending result has changed. -/
def Queued (s s' : State) (t : Nat) (k : OpKind) (core : Nat) (x : EngX) (a : Nat) (c : State.Accepted)
    (view : List (Nat × Nat)) : Prop :=
  (∃ o, s'.ops = s.ops ++ [o] ∧ o.id = s.nextId ∧ o.kind = k ∧ o.core = core ∧ o.who = .thread t ∧
    o.ctx = s.ctxOfThread t ∧ o.team = some (s.grOf t).team ∧ o.blkAddr = a ∧ o.blk = c.blk ∧ o.srcRec = c.srcRec ∧
    o.dstRec = c.dstRec ∧ o.mask = x.mask ∧ o.set? = x.set? ∧ o.st = .queued ∧ o.view = view) ∧
  s'.cores = s.cores.map (fun q => if q.idx = core then
    { q with locks := q.locks ++ c.locks.map fun l => ⟨s.nextId, s.ctxOfThread t, l.1, l.2.1, l.2.2⟩ } else q) ∧
  s'.teams = (match x.set? with
    | some n => s.teams.map fun v => if v.uid = (s.grOf t).team then
        { v with slots := updAt v.slots n fun d => { d with cnt := d.cnt + 1 } } else v
    | none => s.teams) ∧
  s'.mem = s.mem ∧ s'.spad = s.spad ∧ s'.acc = s.acc ∧ s'.reqs = s.reqs ∧ s'.pend = s.pend

/-- A core's queue of a kind has room, its lock table takes n more entries, and the slot to be set stands below 255
(R342, R356). -/
def Room (s : State) (t : Nat) (k : OpKind) (x : EngX) (n : Nat) : Prop :=
  (s.ops.filter fun o => o.kind == k && o.st == .queued && o.core == State.coreOf t).length <
    (match k with | .mma => 16 | .peel => 32 | .slice => 64) ∧
  (s.co (State.coreOf t)).locks.length + n ≤ 64 ∧
  ∀ i, x.set? = some i → ((s.tmOf t).slots.getD i DSlot.zero).cnt < 255
/-- n bytes of the own team's scratchpad window, n a multiple of which is their offset, hold `b`, and no write to them
is on its way from the thread or its core (R129). -/
def Window (s : State) (t a n : Nat) (b : List Byte) : Prop :=
  a < 2 ^ 24 ∧ a / 2 ^ 21 = State.rank (State.coreOf t) ∧ a % 2 ^ 21 + n ≤ (s.tmOf t).spSize ∧ a % n = 0 ∧
  b = s.rdSpBytes (State.coreOf t) ((s.tmOf t).spBase + a % 2 ^ 21) n ∧
  ∀ r ∈ s.reqs, State.sameAgent (.thread t) r.who = true ∨ r.core = State.coreOf t → r.done = false →
    State.writes r.op = true →
    State.touches r (.spad (State.coreOf t) ((s.tmOf t).spBase + a % 2 ^ 21)) n = false

end Sys2Proof.Says

/-- R341 to R346, R349, R381: an MMA whose block and record lie in its team's window, with fields and bytes in order, a
PCOPY and a SLICE whose block and records pass their checks enter their queue where there is room, and the thread goes
on. A full queue, lock table or slot leaves MMA and PCOPY at the instruction; an MMA block of another rank, and a PCOPY or
SLICE block out of order, trap ENGCMD. ENGST returns a slot and clears its status, and traps ENGCMD for a slot above
7. -/
def Obligations.EngineIssue : Prop :=
  ∀ (s s1 s2 : State) (t : Nat) (h : Hdr) (x : EngX) (d a : Nat) (b : Option Nat) (v : Src) (ea : Nat),
    (One s t h (useR [a]) → ea = (w s t a).toNat →
      (∀ blk rb m r l, Window s t ea 64 blk → m = MmaBlk.ofNat (leNat blk) → Window s t m.brec 64 rb →
        PlaneRec.ofBytes rb = some r → m.fieldsOk (leNat blk) (s.tmOf t).nacc = true →
        s.mmaLocks (s.laneEnv t) m r = some l →
        (Room s t .mma x l.length → ∃ s', exec (.mma h x a) s = .next s' ∧
          Queued s s' t .mma (State.coreOf t) x ea ⟨blk, rb, [], l⟩ [] ∧ s'.threads = onward s t h.m) ∧
        (¬ Room s t .mma x l.length → h.m = false → exec (.mma h x a) s = .next s)) ∧
      (Free s t → bits ea 23 21 ≠ State.rank (State.coreOf t) → exec (.mma h x a) s =
        .next (trapped s t 0x11 (s.th t).pc (BitVec.ofNat 64 ea) (stat0 s t)))) ∧
    (One s t h ⟨optW b, .g a :: (optW b).map .w⟩ → ea = s.eaGlobal false t a b 0 1 →
      (∀ c, s.peelAccept (s.laneEnv t) ea = (s1, .ok c) → s1.laneEnv t = s.laneEnv t →
        (Room s1 t .peel x c.locks.length → ∃ s', exec (.pcopy h x a b) s = .next s' ∧
          Queued s1 s' t .peel (State.coreOf t) x ea c [] ∧ s'.threads = onward s1 t h.m) ∧
        (¬ Room s1 t .peel x c.locks.length → h.m = false → exec (.pcopy h x a b) s = .next s1)) ∧
      (s.peelAccept (s.laneEnv t) ea = (s1, .bad) → Free s1 t → exec (.pcopy h x a b) s =
        .next (trapped s1 t 0x11 (s1.th t).pc (BitVec.ofNat 64 ea) (stat0 s1 t))) ∧
      (s.agentBusy t = false → ∀ blk k, s.issRead (s.laneEnv t) true ea 128 128 = (s1, .ok blk) →
        k = SliceBlk.ofNat (leNat blk) →
        (k.fieldsOk (leNat blk) = false → Free s1 t → exec (.slice h x a b) s =
          .next (trapped s1 t 0x11 (s1.th t).pc (BitVec.ofNat 64 ea) (stat0 s1 t))) ∧
        (∀ (p : Pool57) (view : List (Nat × Nat)), k.fieldsOk (leNat blk) = true →
          s1.runTx (State.coreOf t) (Tx.takeView ⟨.thread t, s.ctxOfThread t, State.coreOf t⟩ ea k) = (s2, .ok (p, view)) →
          s1.issueFull .slice { s.laneEnv t with core := 96 * p.home } x 0 = false → (∀ o ∈ s2.ops, o.id < s2.nextId) →
          ∃ s' o, exec (.slice h x a b) s = .next s' ∧ s'.ops = s2.ops ++ [o] ∧ o.id = s2.nextId ∧ o.kind = .slice ∧
            o.core = 96 * p.home ∧ o.who = .thread t ∧ o.blkAddr = ea ∧ o.blk = blk ∧ o.view = view ∧
            o.mask = x.mask ∧ o.set? = x.set? ∧ o.st = .queued ∧ s'.threads = onward s2 t h.m ∧ s'.mem = s2.mem ∧
            s'.reqs = s2.reqs ∧ s'.pend = s2.pend))) ∧
    (One s t h ⟨d :: v.w, v.opd⟩ →
      ((src s t v).toNat ≤ 7 → ∀ sl, sl = (s.tmOf t).slots.getD (src s t v).toNat DSlot.zero →
        exec (.engst h d v) s = .next ((longs s h d (fun _ => reg (BitVec.ofNat 32 (sl.cnt % 256 +
            2 ^ 8 * (sl.scode % 256) + 2 ^ 16 * b2n sl.sat + 2 ^ 17 * b2n sl.nan + 2 ^ 18 * b2n sl.crc))) false
            fun _ => same).updTeam (s.grOf t).team fun u => { u with slots := updAt u.slots (src s t v).toNat fun y =>
              { y with scode := 0, sat := false, nan := false, crc := false } })) ∧
      (Free s t → 7 < (src s t v).toNat → exec (.engst h d v) s =
        .next (trapped s t 0x11 (s.th t).pc (BitVec.ofNat 64 (src s t v).toNat) (stat0 s t))))

/-- R370, R371, R374: an instruction on sequence records returns the status of its unit, whose writes stand in memory,
and empties its core's L1; a unit that finds a record malformed traps ENGCMD. R220, R221: LAUNCH
enqueues its record and returns 0, or returns 1 where the context's launch queue is full; a malformed record traps
ENGCMD, SYS from a team that is not privileged PRIV. -/
def Obligations.SequenceAndLaunch : Prop :=
  ∀ (s s1 : State) (t : Nat) (h : Hdr) (d a : Nat) (b : Option Nat) (ea st : Nat) (r : List Byte),
    (One s t h ⟨d :: optW b, .g a :: (optW b).map .w⟩ → ea = s.eaGlobal false t a b 0 1 → s.agentBusy t = false →
      ∀ (i : Instr) (f : TxEnv → Nat → Tx Nat),
        (i, f) ∈ [(Instr.sqapp h d a b, Tx.sqapp), (.sqret h d a b, Tx.sqret), (.sqfork h d a b, Tx.sqfork),
          (.sqlook h d a b, Tx.sqlook)] →
        (s.runTx (State.coreOf t) (f ⟨.thread t, s.ctxOfThread t, State.coreOf t⟩ ea) = (s1, .ok st) → ∃ s', exec i s = .next s' ∧
          s'.mem = s1.mem ∧ s'.reqs = s1.reqs ∧ s'.ops = s1.ops ∧
          s'.pend = s1.pend ++ [⟨s1.nextId, .reg t d, .reg (reg (BitVec.ofNat 32 st)), 0, false, s1.cycle⟩] ∧
          s'.cores = s1.cores.map (fun q => if q.idx = State.coreOf t then { q with l1 := [] } else q) ∧
          (h.m = false → s'.threads = onward s1 t false)) ∧
        (s.runTx (State.coreOf t) (f ⟨.thread t, s.ctxOfThread t, State.coreOf t⟩ ea) = (s1, .error .bad) → Free s1 t → exec i s =
          .next (trapped s1 t 0x11 (s1.th t).pc (BitVec.ofNat 64 ea) (stat0 s1 t)))) ∧
    (One s t h ⟨[d], [.g a]⟩ → ea = (g s (t / 32) a).toNat →
      s.afterOf (.thread t) (State.coreOf t) (.store []) .sync .dev = [] →
      s.issRead (s.laneEnv t) true ea 128 128 = (s1, .ok r) → ∀ l, l = LaunchRec.ofNat (leNat r) →
      (l.ok (leNat r) s1.fab.node = true → (l.sys = true → (s1.tmOf t).sys = true) →
        (s1.launchQueue (s1.ctxOfThread t) < 256 → ∃ s', exec (.launch h d a) s = .next s' ∧
          s'.cp.launches = s1.cp.launches ++
            [⟨s1.nextId, s1.nextId, s1.ctxOfThread t, .device t ea, r, [], 0, false, false⟩] ∧
          s'.pend = s1.pend ++ [⟨s1.nextId + 1, .reg t d, .reg (reg 0), 0, false, s1.cycle⟩] ∧
          s'.threads = (longs s1 { h with m := true } d (fun _ => reg 0) false fun _ => same).threads ∧
          s'.mem = s1.mem) ∧
        (256 ≤ s1.launchQueue (s1.ctxOfThread t) → exec (.launch h d a) s =
          .next (longs s1 { h with m := true } d (fun _ => reg 1) false fun _ => same))) ∧
      (Free s1 t → l.ok (leNat r) s1.fab.node = false → exec (.launch h d a) s =
        .next (trapped s1 t 0x11 (s1.th t).pc (BitVec.ofNat 64 ea) (stat0 s1 t))) ∧
      (Free s1 t → l.ok (leNat r) s1.fab.node = true → l.sys = true → (s1.tmOf t).sys = false →
        exec (.launch h d a) s = .next (trapped s1 t 0x03 (s1.th t).pc 0 (stat0 s1 t))))

/-! ## Memory at its home, and what comes back -/

namespace Sys2Proof.Says

/-- A byte that no eviction of a line of L2 rewrites: one outside the full/empty region, and outside the bits of a line
whose address is none of usable HBM4 (no such line comes about). -/
def Data (s : State) (a : Nat) : Prop :=
  a < Config.hbmTop ∨ (Config.feTop ≤ a ∧
    ∀ x ∈ s.l2.lines, a < Config.hbmTop + x.pa / 32 ∨ Config.hbmTop + x.pa / 32 + 5 ≤ a)
/-- n bytes of usable HBM4 or of a core's scratchpad store, at a multiple of n. -/
def Word4 (l : Loc) (n : Nat) : Prop :=
  match l with
  | .mem pa => pa % n = 0 ∧ pa + n ≤ Config.hbmTop
  | .spad _ o => o % n = 0
  | _ => False
/-- Every byte that reads differently in s' is one of the n bytes at l, or lies in the full/empty region. -/
def OnlyAt (s s' : State) (l : Loc) (n : Nat) : Prop :=
  match l with
  | .mem pa => s'.spad = s.spad ∧ ∀ a, Data s a → (a < pa ∨ pa + n ≤ a) → s'.rdB a = s.rdB a
  | .spad c o => s'.mem = s.mem ∧
      ∀ k, (k < State.spKey c o ∨ State.spKey c o + n ≤ k) → Memory.get s'.spad k = Memory.get s.spad k
  | _ => False
/-- The magnitude of R63 from planes 1 to k, in units of 2^(-12), of the element whose bit is e. -/
def planeSum (ws : List Word) (e k : Nat) : Nat :=
  ((List.range k).map fun i => if (ws.getD (i + 1) 0).getLsbD e then 2 ^ (12 - i) else 0).sum
/-- A form changes the word at l to d and its bit to b, and no other data. -/
def FeDid (s : State) (op : MemOp) (l : Loc) (d : List Byte) (b : Bool) : Prop :=
  ∃ s' x, s.perform op l [] 4 = (s', x, true) ∧ s'.rdLoc l 4 = d ∧ s'.feAt l = b ∧ OnlyAt s s' l 4

end Sys2Proof.Says

/-- R88, R90: what each full/empty form needs of the word's bit, does to the bit and to the word, and returns.
R303, R304, R306: an atomic writes its result in one step and returns the old value, CAS writes where the values are
equal. R63, R64: a plane read takes the header and the planes, and its register gets the element's value exactly. -/
def Obligations.HomeOperations : Prop :=
  ∀ (s : State) (l : Loc) (v : Word) (cc : Cond) (sgn tr : Bool),
    Memory.wf s.mem = true → Memory.wf s.spad = true → (∀ x ∈ s.l2.lines, x.bv = true → x.fe.length = 32) →
    (Word4 l 4 →
      (s.feAt l = true →
        s.perform (.fe .ldwf tr v cc sgn) l [] 4 = (s, s.rdLoc l 4, true) ∧
        s.perform (.fe .feget tr v cc sgn) l [] 4 = (s, [1], true) ∧
        s.perform (.fe .stwe tr v cc sgn) l [] 4 = (s, [], false) ∧
        (∃ s', s.perform (.fe .ldce tr v cc sgn) l [] 4 = (s', s.rdLoc l 4, true) ∧ s'.feAt l = false ∧
          s'.rdLoc l 4 = s.rdLoc l 4 ∧ OnlyAt s s' l 0)) ∧
      (s.feAt l = false →
        s.perform (.fe .ldwf tr v cc sgn) l [] 4 = (s, [], false) ∧
        s.perform (.fe .feget tr v cc sgn) l [] 4 = (s, [0], true) ∧
        s.perform (.fe .ldce tr v cc sgn) l [] 4 = (s, [], false) ∧
        FeDid s (.fe .stwe tr v cc sgn) l (leBytes 4 v.toNat) true) ∧
      FeDid s (.fe .stfs tr v cc sgn) l (leBytes 4 v.toNat) true ∧
      FeDid s (.fe .fesetFull tr v cc sgn) l (s.rdLoc l 4) true ∧
      FeDid s (.fe .fesetEmpty tr v cc sgn) l (s.rdLoc l 4) false ∧
      s.perform (.fe .waita tr v cc sgn) l [] 4 =
        (if cond cc (if sgn then (BitVec.ofNat 32 (leNat (s.rdLoc l 4))).toInt else leNat (s.rdLoc l 4))
            (if sgn then v.toInt else v.toNat)
          then (s, s.rdLoc l 4, true) else (s, [], false))) ∧
    (∀ (n : Nat) (ty : Ty) (c x : Nat) (ret : Bool), (n = 4 ∧ (ty = .z32 ∨ ty = .s32)) ∨ (n = 8 ∧ ty = .w64) →
      Word4 l n → c < 2 ^ (8 * n) → x = leNat (s.rdLoc l n) →
      (∀ p : AtomOp × Nat, p ∈ [(AtomOp.add, (x + c) % 2 ^ (8 * n)), (.and, x &&& c), (.or, x ||| c), (.xor, x ^^^ c),
          (.exch, c)] ∨ (ty ≠ .w64 ∧ p ∈ [
            (.min, if num ty (BitVec.ofNat 32 x) ≤ num ty (BitVec.ofNat 32 c) then x else c),
            (.max, if num ty (BitVec.ofNat 32 x) ≤ num ty (BitVec.ofNat 32 c) then c else x)]) →
        ∃ s', s.perform (.atom p.1 ty c ret) l [] n = (s', s.rdLoc l n, true) ∧ leNat (s'.rdLoc l n) = p.2 ∧
          OnlyAt s s' l n) ∧
      (x ≠ c → ∀ y, s.perform (.cas c y) l [] n = (s, s.rdLoc l n, true)) ∧
      (x = c → ∀ y, y < 2 ^ (8 * n) → ∃ s', s.perform (.cas c y) l [] n = (s', s.rdLoc l n, true) ∧
        leNat (s'.rdLoc l n) = y ∧ OnlyAt s s' l n)) ∧
    (∀ (c x : Nat) (ret : Bool) (p : AtomOp × Nat), Word4 l 4 → c < 2 ^ 32 → x = leNat (s.rdLoc l 4) →
      p ∈ [(AtomOp.add, (Num.fadd Num.f32 .rn x c).1), (.min, (Num.fminmax Num.f32 false x c).1),
        (.max, (Num.fminmax Num.f32 true x c).1), (.exch, c)] →
      ∃ s', s.perform (.atom p.1 .f32 c ret) l [] 4 = (s', s.rdLoc l 4, true) ∧ leNat (s'.rdLoc l 4) = p.2 ∧
        OnlyAt s s' l 4) ∧
    (∀ parts x y z n, s.perform (.planeRead x y z) l parts n =
      (s, s.rdLoc l 2 ++ (parts.map fun p => s.rdLoc p 4).flatten, true)) ∧
    ∀ (sc gen : Byte) (ws : List Word) (t d k m e : Nat) (mid : Bool), ws.length = k + 1 → 1 ≤ k → k ≤ m → m ≤ 12 →
      ∃ r, State.formVals (.plane t d k mid m e) (sc :: gen :: (ws.map fun x => leBytes 4 x.toNat).flatten) true =
          [(.reg t d, .reg r)] ∧ r.tag = ⟨k, mid, gen.toNat, true, m, sc.toNat⟩ ∧
        (sc = 0xFF → r.val = 0x7FC00000) ∧
        (sc ≠ 0xFF → ∃ y, Num.unpack Num.f32 r.val.toNat = .fin ((ws.getD 0 0).getLsbD (e % 32)) y ∧
          y.eq ⟨(if (ws.getD 0 0).getLsbD (e % 32) then -1 else 1) * (planeSum ws (e % 32) k +
            if mid ∧ k < m then 2 ^ (12 - k) else 0 : Nat), sc.toNat - 139⟩ = true)

/-- R52, R111, R124, R156, R211: HOME_ACCESS performs a load or a store that travels alone in its request at its home
once nothing before it waits, and the store's bytes are the only data that change; LOAD_RESULT_RETURN writes a result that has come with its tag and ends
the rest of a thread that waited for its last one; STORE_ACKNOWLEDGE ends a store that has been performed; a thread
that found no free fault walks again after 256 cycles. -/
def Obligations.MemoryResults : Prop :=
  ∀ (s : State) (k t n : Nat) (q : Req) (p : Pend) (v : LaneReg) (pa : Nat),
    (s.req? k = some q → s.mates q = [q] → q.loc = .mem pa → q.who = .thread t → q.parts = [] → q.id ≠ 0 →
      Memory.wf s.mem = true →
      (s.reqReady q = false → exec (.homeAccess k .ok) s = .next s) ∧
      (s.reqReady q = true → s.reqUes q = [] → pa + q.size ≤ Config.hbmTop →
        (∀ d, q.op = .store d → q.form = .none → d.length = q.size → ∃ s' f, exec (.homeAccess k .ok) s = .next s' ∧
          (∀ i < q.size, s'.rdB (pa + i) = d.getD i 0) ∧ OnlyAt s s' (.mem pa) q.size ∧ s'.pend = s.pend ∧
          s'.reqs = (marked f s.reqs).map fun r => if r.id = k then { r with done := true } else r) ∧
        (∀ ty d, q.op = .load → q.form = .lane ty t d → q.size = tySize ty → tySize ty ≤ 4 →
          ∃ s' f, exec (.homeAccess k .ok) s = .next s' ∧ OnlyAt s s' (.mem pa) 0 ∧
            s'.reqs = (marked f s.reqs).filter (fun r => r.id != k) ∧
            ∀ r ∈ s.pend, r.req = k → r.dst = .reg t d →
              { r with val := .reg ⟨BitVec.ofNat 32 (extInt ty (leNat (s.rdBytes pa q.size))), Tag.zero⟩ } ∈ s'.pend))) ∧
    (s.req? k = some q → State.returns q.op = false →
      (q.done = false → exec (.storeAcknowledge k) s = .next s) ∧
      (q.done = true → ∃ s', exec (.storeAcknowledge k) s = .next s' ∧ s'.reqs = s.reqs.filter (fun r => r.id != k) ∧
        s'.mem = s.mem ∧ s'.spad = s.spad ∧ s'.pend = s.pend)) ∧
    (s.pend.find? (fun x => x.id == k) = some p →
      (s.unread p = true → exec (.loadResultReturn k) s = .next s) ∧ (p.val = .none → s.unread p = true) ∧
      (s.unread p = false → p.dst = .reg t n → p.val = .reg v → (s.th t).st = .run ∨ (s.th t).st = .proof →
        ∃ s', exec (.loadResultReturn k) s = .next s' ∧ s'.pend = s.pend.filter (fun x => x.id != k) ∧
          (s'.th t).regs = setAt (s.th t).regs n v ∧ (s'.th t).preds = (s.th t).preds ∧ (s'.th t).pc = (s.th t).pc ∧
          (s'.th t).st = (if (s.th t).st = .proof ∧ s'.threadPend t = false then .run else (s.th t).st) ∧
          s'.mem = s.mem ∧ s'.reqs = s.reqs)) ∧
    (∀ u, (s.th t).st = .slotRest u →
      (s.cycle < u → exec (.faultSlotRetry t) s = .next s) ∧
      (u ≤ s.cycle → exec (.faultSlotRetry t) s = .next (s.updThread t fun x => { x with st := .run })))

/-! ## Translation, caches, wakes -/

/-- R158: FLT_REPLY ends a fault; the access walks again, or with FAIL traps XLATE. R161: Starter zeroes a frame and
fills its bits. R165: a bad frame joins its stack's list. R151, R154, R339: a target forgets a flushed context, a flush
is complete once all have, and a drain once no access holds an older translation. -/
def Obligations.TranslationEvents : Prop :=
  ∀ (s : State) (t fid ea ctx stack : Nat) (xw grp : Bool),
    (s.dev.bootfail = true → ∀ w, exec (.fltReply w) s = .next s) ∧
    (s.dev.bootfail = false → ∀ fail, exec (.fltReply (.high fail)) s = .next (s.setFlt { s.flt with failHold := fail })) ∧
    exec (.fltReply (.low fid)) s = exec (.fltReply (.whole fid s.flt.failHold)) s ∧
    (∀ f u, s.flt.faults.find? (fun x => x.fid == fid) = some f → f.joins = [(.thread t, ea)] → s.fab.incoming = [] →
      (s.th t).st = .faultRest u xw grp → s.dev.bootfail = false →
      exec (.fltReply (.whole fid false)) s = .next ((s.setFlt { s.flt with
          failHold := false, faults := s.flt.faults.filter fun x => x.fid != fid }).updThread t fun x =>
        { x with st := .run }) ∧
      (Free s t → exec (.fltReply (.whole fid true)) s = .next (trapped (s.setFlt { s.flt with
          failHold := true, faults := s.flt.faults.filter fun x => x.fid != fid }) t 0x06 (s.th t).pc (BitVec.ofNat 64 ea)
          (BitVec.ofNat 6 ((s.th t).trap.level + 4 * b2n xw + 32 * b2n grp))))) ∧
    (∀ sz p, s.flt.pools.getD (State.poolIdx sz) ⟨0, 0, 0, 0, 0⟩ = p →
      (p.zero = p.put ∨ State.poolOn p = false → exec (.starterZero sz) s = .next s) ∧
      (∀ f, p.zero ≠ p.put → 6 ≤ p.loglen → p.loglen ≤ 16 → s.slotFrame p sz p.zero = some f → ∃ s', exec (.starterZero sz) s = .next s' ∧
        (∀ i < State.pageBytes sz, s'.rdB (f + i) = 0) ∧
        (∀ i < State.pageBytes sz / 32, s'.rdB (Config.hbmTop + f / 32 + i) = 0xFF) ∧
        (∀ a, (a < f ∨ f + State.pageBytes sz ≤ a) →
          (a < Config.hbmTop + f / 32 ∨ Config.hbmTop + f / 32 + State.pageBytes sz / 32 ≤ a) → s'.rdB a = s.rdB a) ∧
        s'.flt.pools = setAt s.flt.pools (State.poolIdx sz) { p with zero := (p.zero + 1) % 2 ^ 32 })) ∧
    (∀ f ue l, s.flt.faq.getD stack [] = (f, ue) :: l →
      ∃ s', exec (.badpageDrain stack) s = .next s' ∧
        (∀ i, ∃ q, s'.flt.faq.getD i [] = (setAt s.flt.faq stack l).getD i [] ++ q ∧ (s.ce = [] → s.ue = [] → q = [])) ∧
        s'.flt.bad = (if (s.flt.bad.getD stack []).contains f ∨ 512 ≤ (s.flt.bad.getD stack []).length then s.flt.bad
          else setAt s.flt.bad stack (s.flt.bad.getD stack [] ++ [f]))) ∧
    (∀ tgt, s.hasCtx ctx = true → (s.cx ctx).unacked.contains tgt = true →
      ∃ s', exec (.tlbInvalidate ctx tgt) s = .next s' ∧ (s'.cx ctx).unacked = (s.cx ctx).unacked.filter (fun x => x != tgt) ∧
        (∀ e ∈ s.tlb, e.ctx ≠ ctx → e ∈ s'.tlb) ∧
        ∀ e ∈ s'.tlb, e.ctx = ctx → ∀ c q, (tgt = .core c → e.unit ≠ .core c ∧ e.unit ≠ .data c q ∧ e.unit ≠ .instr c q) ∧
          (tgt = .peel c → e.unit ≠ .peel c) ∧ (tgt = .remote → e.unit ≠ .remote)) ∧
    (s.hasCtx ctx = true →
      ((s.cx ctx).unacked = [] → (s.cx ctx).acked < (s.cx ctx).epoch → ∃ s', exec (.flushComplete ctx) s = .next s' ∧
        (s'.cx ctx).acked = (s.cx ctx).epoch ∧
        ∀ g ∈ s'.groups, ∀ e, g.wait = .flush ctx e → (s.cx ctx).epoch < e) ∧
      ((s.cx ctx).unacked ≠ [] → exec (.flushComplete ctx) s = .next s)) ∧
    (∀ e, s.drainWanted ctx = some e →
      (s.oldAccess ctx e = true → exec (.drainComplete ctx) s = .next s) ∧
      (s.oldAccess ctx e = false → ∃ s', exec (.drainComplete ctx) s = .next s' ∧
        ∀ g ∈ s'.groups, ∀ k, g.wait = .drain ctx k → (s.cx ctx).acked < k))

/-- R46, R49: the second-touch filter clears every 2^20 cycles. R55, R56: the scrubber goes on to the next granule.
R126: promotion. R94, R95, R98, R99: wakes, woken entries without a re-issue, waits that could not park, sweeps. -/
def Obligations.CacheAndWakeEvents : Prop :=
  ∀ (s : State) (k t ctx die stack pa : Nat) (r : State.ParkRec),
    (s.cycle % 2 ^ 20 ≠ 0 → exec .filterClear s = .next s) ∧
    (s.l2.clearedAt = s.cycle → exec .filterClear s = .next s) ∧
    (s.cycle % 2 ^ 20 = 0 → s.l2.clearedAt ≠ s.cycle → exec .filterClear s = .next (s.setL2 { s.l2 with
      filter := [], clearedAt := s.cycle,
      lines := s.l2.lines.map fun l => { l with stale := l.stale || !l.touched, touched := false } })) ∧
    (∀ x, stack < 8 → s.dev.scrub.getD stack Scrub.reset = x → x.en = true → x.passH ≠ 0 → x.pos + 1 < 2 ^ 31 →
      s.ueAt (State.scrubPa stack x.pos) = false → State.scrubPa stack x.pos / 32 ∉ s.ce → exec (.scrubRead stack .ok) s = .next (s.setDev { s.dev with
        scrub := updAt s.dev.scrub stack State.scrubNext })) ∧
    (k ∉ s.dev.marks → exec (.scrubWrite k) s = .next s) ∧
    (k ∈ s.dev.marks → exec (.scrubWrite k) s = .next (((s.setDev { s.dev with
      marks := s.dev.marks.filter fun y => y != k }).setCe (s.ce.filter fun y => y != k)).setUe (s.ue.filter fun y => y != k))) ∧
    (∃ s', exec (.promotionRequest k) s = .next s' ∧
      (∀ p ∈ s'.l2.proms, p.pa = k → p.asked = true ∧
        ∃ i ∈ p.reqs, (∃ q ∈ s.reqs, q.id = i) ∨ ∃ q ∈ s.fab.wc, q.id = i) ∧
      (∀ p ∈ s.l2.proms, p.pa ≠ k → p ∈ s'.l2.proms)) ∧
    (∀ x, s.wakes.find? (fun y => y.id == k) = some x → ∃ s', exec (.feWake k) s = .next s' ∧
      s'.wakes = s.wakes.filter (fun y => y.id != k) ∧
      (∀ l ∈ x.lanes, (s.th (x.gslot * 32 + l)).st = .feWait →
        s'.th (x.gslot * 32 + l) = { s.th (x.gslot * 32 + l) with st := .run, re := .woken x.entry x.counts }) ∧
      (∀ u, (∀ l ∈ x.lanes, u ≠ x.gslot * 32 + l) → s'.th u = s.th u)) ∧
    (∀ e u, s.wait? k = some e → e.st = .woken u →
      (s.cycle < u + 8192 → exec (.feWokenTimeout k) s = .next s) ∧
      (u + 8192 ≤ s.cycle → exec (.feWokenTimeout k) s = .next (s.setWaits (s.waits.filter fun x => x.id != k)))) ∧
    (∀ u, (s.th t).st = .feRest u →
      (s.cycle < u → exec (.feParkRetry t) s = .next s) ∧
      (u ≤ s.cycle → exec (.feParkRetry t) s = .next (s.updThread t fun x => { x with st := .run }))) ∧
    (s.parkList ctx = [(pa, r)] → s.parkUes ctx = [] → s.sweepHit [] r = true → pa + 16 ≤ Config.hbmTop → Memory.wf s.mem = true → ∀ i : Instr,
      (i = .parkSweep die ctx ∧ s.hasCtx ctx = true ∧ die < 2 ∧
          (s.cx ctx).sweeps.getD die 0 + 256 * (if (s.cx ctx).period = 0 then 16 else (s.cx ctx).period) ≤ s.cycle ∧
          ∃ u ∈ s.teams, u.ctx = ctx ∧ State.dieOf u.core = die) ∨
        (i = .parkSweepImmediate k ∧ ∃ x, s.sweeps.find? (fun y => y.id == k) = some x ∧ x.ctx = ctx ∧
          State.sameLine x.word r.word = true) →
      ∃ s', exec i s = .next s' ∧ (s'.rdB pa).toNat % 2 = 0 ∧
        s'.wakes = s.wakes ++ [⟨s.nextId, r.gslot, r.lanes, 0, decide (r.cond ≠ .waita)⟩])

/-! ## Threads, groups, teams, contexts -/

/-- R388, R389, R392: a trap is entered once no result of its thread is pending, a failure found away from the core
before the next issue. R196: RACQ's first group is granted its block. R208 to R210: groups enter and leave the active
set. R325, R334: a yielding thread and a sleeping group go on when their time has come. -/
def Obligations.ThreadAndGroupEvents : Prop :=
  ∀ (s : State) (t gs out core quad : Nat) (i : TrapInfo) (l : List TrapInfo) (st : BitVec 6),
    st = BitVec.ofNat 6 ((s.th t).trap.level + 4 * b2n i.xw + 8 * b2n i.rem + 16 * b2n i.dfr + 32 * b2n i.grp) →
    ((s.th t).st = .trapping i →
      (s.threadPend t = true → exec (.trapEntry t) s = .next s) ∧
      (s.threadPend t = false → (s.th t).trap.level < 2 →
        exec (.trapEntry t) s = .next (trapped s t (BitVec.ofNat 8 i.cause.code) i.epc i.addr st))) ∧
    ((s.th t).st = .run → (s.th t).defer = i :: l → Free s t → exec (.deferredTrap t) s =
      .next (trapped (s.updThread t fun x => { x with defer := l }) t (BitVec.ofNat 8 i.cause.code) (s.th t).pc i.addr st)) ∧
    (State.sameQuad out gs = true → s.mayLeave out = true → s.mayEnter gs = true →
      ∃ s', exec (.groupSwap out gs) s = .next s' ∧ (s'.gr out).active = false ∧ (s'.gr gs).active = true ∧
        (s'.gr gs).holdUntil = s.cycle + 8 ∧ s'.threads = s.threads) ∧
    (s.mayEnter gs = true →
      (8 ≤ s.activeIn (gs / 64) (gs / 16 % 4) → exec (.groupAdmit gs) s = .next s) ∧
      (s.activeIn (gs / 64) (gs / 16 % 4) < 8 → exec (.groupAdmit gs) s = .next (s.updGroup gs fun g =>
        { g with active := true, since := s.cycle, holdUntil := s.cycle + 8 }))) ∧
    (∀ c, s.longestActive gs = some out → out ≠ gs → (∃ x ∈ s.groups, x.gslot = gs) → (s.gr gs).readySince = some c →
      c + 4096 ≤ s.cycle → s.groupReady (s.gr gs) = true → (s.gr gs).active = false → s.admitted gs = false →
      8 ≤ s.activeIn (gs / 64) (gs / 16 % 4) → (∀ y ∈ s.groups, State.sameQuad y.gslot gs = true → s.eligible y = false) →
      ∃ s', exec (.groupForcedEntry gs) s = .next s' ∧ (s'.gr out).active = false ∧ (s'.gr gs).active = true) ∧
    (∀ q, s.racqQueue core quad = gs :: q → (∃ x ∈ s.groups, x.gslot = gs) →
      (s.rowsFree core quad < 64 → exec (.racqGrant core quad) s = .next s) ∧
      (64 ≤ s.rowsFree core quad → ∃ s', exec (.racqGrant core quad) s = .next s' ∧ (s'.gr gs).ext = true ∧
        ((s.gr gs).wait = .racq → (s'.gr gs).wait = .none) ∧ s'.racqQueue core quad = q.filter (fun x => x != gs) ∧
        ∀ x ∈ s'.threads, x.slot / 32 = gs → x.regs.drop 64 = List.replicate 64 LaneReg.zero ∨ x.regs.length < 128)) ∧
    (∀ u, (s.gr gs).wait = .sleep u →
      (s.cycle < u → exec (.usleepEnd gs) s = .next s) ∧
      (u ≤ s.cycle → exec (.usleepEnd gs) s = .next (s.updGroup gs fun x => { x with wait := .none }))) ∧
    (∀ u m, (s.th t).st = .yield u m →
      (s.cycle < u → exec (.yieldEnd t) s = .next s) ∧
      (u ≤ s.cycle → exec (.yieldEnd t) s = .next (s.updThread t fun x =>
        { x with st := if m && s.threadPend t then .proof else .run })))

/-- R192, R201: the end of a team and its DONE word. R200, R203, R221: placement. R42, R340: a new split. R218, R397:
teams stopped, saved and restored. R396, R400, R444, R445: the end of a kill, a fatal record. -/
def Obligations.TeamAndContextEvents : Prop :=
  ∀ (s : State) (u ctx core k : Nat) (x : Launch) (v : Saved),
    ((s.teamOver u = false → exec (.teamEnd u) s = .next s) ∧
      (s.teamOver u = true → ∃ s', exec (.teamEnd u) s = .next s' ∧ s'.teams = s.teams.filter (fun y => y.uid != u) ∧
        s'.groups = s.groups.filter (fun y => y.team != u))) ∧
    (s.launch? k = some x → (s.cx x.ctx).killing = none →
      (∀ pa leaf s2, x.ended = x.parsed.total → State.doneAddr x ≠ 0 → x.doneSent = false → s.joined (.done k) = false →
        s.cpLoc (.done k) x.ctx (State.doneAddr x) true true = (s2, .ok (.mem pa, leaf)) →
        s2.ueHits (.mem pa) 4 true = [] → s2.bitUes (.mem pa) = [] → pa % 4 = 0 → pa + 4 ≤ Config.hbmTop →
        Memory.wf s2.mem = true → (∀ y ∈ s2.l2.lines, y.bv = true → y.fe.length = 32) →
        ∃ s', exec (.launchDoneWrite k) s = .next s' ∧ s'.rdBytes pa 4 = [1, 0, 0, 0] ∧ s'.feAt (.mem pa) = true ∧
          s'.launch? k = none) ∧
      (∀ i c h s1, State.nextTeams x = [i] → s.mayBegin x = true → s.placeTeam x i c h = some s1 →
        ∃ s' y, exec (.teamPlace k [(c, h)]) s = .next s' ∧ s'.teams = s.teams ++ [y] ∧ y.uid = s.nextId ∧ y.core = c ∧
          y.index = i ∧ y.ctx = x.ctx ∧ y.ngrp = x.parsed.ngrp ∧ y.spSize = 4096 * x.parsed.spw ∧
          (∃ g th, s'.groups = s.groups ++ g ∧ s'.threads = s.threads ++ th ∧ g.length = x.parsed.ngrp ∧
            th.length = 32 * x.parsed.ngrp ∧ (∀ z ∈ g, z.team = s.nextId ∧ z.gslot / 64 = c) ∧
            ∀ z ∈ th, z.st = .run ∧ z.regs = List.replicate 128 LaneReg.zero ∧ z.preds = List.replicate 12 false ∧
              z.trap.level = 0 ∧ z.trap.vec = (s.cx x.ctx).trapVec))) ∧
    (∀ p, (s.co core).pendSplit = some p →
      (s.teamsOn core ≠ [] → exec (.splitChange core) s = .next s) ∧
      (s.teamsOn core = [] → (∀ y ∈ s.saved, y.team.core ≠ core) → ∃ s', exec (.splitChange core) s = .next s' ∧
        (s'.co core).ways = p ∧ (s'.co core).pendSplit = none ∧
        (s'.co core).l1 = (s.co core).l1.filter fun l => decide (p ≤ l.way))) ∧
    (∀ (i : Instr) (us : List Nat), (i = .teamPreempt u ∧ us = s.setOfTeam u) ∨
        (i = .contextSwitchOut ctx ∧ (s.switching ctx = true ∨ s.quantumOver ctx = true) ∧ us = (s.teams.filter fun y => y.ctx == ctx).map (·.uid)) →
      ((s.stopTeams us).teamsDrained us = false → exec i s = .next (s.stopTeams us) ∧
        ∀ y ∈ (s.stopTeams us).teams, y.uid ∈ us → y.ending = true) ∧
      ((s.stopTeams us).teamsDrained us = true → ∃ s', exec i s = .next s' ∧
        (∀ y ∈ s'.teams, y.uid ∉ us) ∧ us ⊆ s'.saved.map (·.team.uid))) ∧
    (s.switching ctx = false → s.quantumOver ctx = false → exec (.contextSwitchOut ctx) s = .next s) ∧
    ((s.cx ctx).killing = none → s.uesIn (s.swArea ctx v.team.core) State.swBytes = [] → s.saved = [v] → v.team.ctx = ctx → v.team.coset = none → s.placeFree v = true →
      ∃ s', exec (.contextRestore ctx) s = .next s' ∧ s'.saved = [] ∧ s'.teams = s.teams ++ [v.team] ∧
        s'.threads = s.threads ++ v.threads.map fun t => { t with readySince := s.cycle, clockHi := none }) ∧
    ((s.killSettled ctx = false → exec (.killComplete ctx) s = .next s) ∧
      (s.killSettled ctx = true → (s.killEnds ctx).cp.held = [] → ∃ s', exec (.killComplete ctx) s = .next s' ∧
        s'.hasCtx ctx = false ∧ ∀ y ∈ s'.teams, y.ctx ≠ ctx)) ∧
    (s.dev.fatal = false → 1 ≤ k → k ≤ 4 → ∃ s', exec (.fatal k) s = .next s' ∧ s'.dev.fatal = true ∧
      (∀ c, s'.coreRuns c = false) ∧ ∀ c, s.ctxs = [c] → ∀ y ∈ s'.ctxs, y.killing.isSome = true)

/-! ## Engines at work -/

namespace Sys2Proof.Says

/-- Operation p has left its queue with this code: its locks are gone, its slot counts one less and keeps the code of
a failure and the flags, no memory has changed. -/
def OpEnded (s s' : State) (p : Op) (code : Nat) (sat nan : Bool) : Prop :=
  s'.ops = s.ops.filter (fun o => o.id != p.id) ∧
  s'.cores = s.cores.map (fun c => if c.idx = p.core then { c with locks := c.locks.filter fun k => k.op != p.id } else c) ∧
  s'.teams = (match p.team, p.set? with
    | some u, some n => s.teams.map fun v => if v.uid = u then { v with slots := updAt v.slots n fun d =>
        { cnt := d.cnt - 1, scode := if code = 0 then d.scode else code, sat := d.sat || sat, nan := d.nan || nan,
          crc := d.crc || p.crcErr } } else v
    | _, _ => s.teams) ∧
  s'.mem = s.mem ∧ s'.spad = s.spad ∧ s'.threads = s.threads
/-- Operation o is p; nothing of its own is on its way, and no write-combining entry is open. -/
def OpIs (s : State) (o : Nat) (p : Op) (k : OpKind) : Prop :=
  s.op? o = some p ∧ p.kind = k ∧ s.opHere p = true ∧ s.outstanding o = false ∧ ∀ e ∈ s.fab.wc, e.sent = true
/-- The piece at which operation p stands has the 128-byte unit u of the destination to itself. -/
def OwnUnit (s : State) (p : Op) (b : PeelBlk) (u : Nat × Nat) : Prop :=
  ∀ j < s.itemCount p b, j ≠ p.cursor → ∀ x ∈ s.pieceDst p b j, State.unitOf x ≠ u

end Sys2Proof.Says

/-- R343, R348, R351, R355, R357: MMA and Peel operations start when they may, an MMA writes all 4096 elements of its
tile and nothing else, a Peel unit moves or fills a word, and each leaves its queue with its code. -/
def Obligations.EngineEvents : Prop :=
  ∀ (s : State) (o : Nat) (p : Op) (b : PeelBlk) (a d : Tens) (l m : Loc),
    (s.op? o = some p →
      (p.kind = .mma → s.mmaReady p = false → exec (.mmaStart o) s = .next s) ∧
      (p.kind = .mma → s.mmaReady p = true → exec (.mmaStart o) s = .next (s.updOp o fun x => { x with st := .running })) ∧
      (p.kind = .peel → s.peelReady p = false → exec (.peelStart o) s = .next s) ∧
      (p.kind = .peel → s.peelReady p = true →
        ∃ s', exec (.peelStart o) s = .next s' ∧ s' = (s.updOp o fun x => { x with st := .running }).walkAhead o ∧
          s'.op? o = some { p with st := .running } ∧ s'.mem = s.mem ∧ s'.spad = s.spad ∧ s'.acc = s.acc) ∧
      (∀ k tile, p.kind = .mma → s.teamHere p = true → s.mmaHolds p = true → k = MmaBlk.ofNat (leNat p.blk) →
        tile = (s.tm (p.team.getD 0)).tiles.getD k.acc 0 → Memory.wf s.acc = true →
        ∃ s' sat nan, exec (.mmaComplete o) s = .next s' ∧ OpEnded s s' p 0 sat nan ∧
          (∀ y, (y < State.accKey p.core tile 0 ∨ State.accKey p.core tile 16384 ≤ y) →
            Memory.get s'.acc y = Memory.get s.acc y) ∧
          ∀ i < 64, ∀ j < 64, s'.rdAcc p.core tile (4 * (64 * i + j)) =
            (State.mmaElem k (s.rdAcc p.core tile (4 * (64 * i + j)))
              (State.mmaSum (s.mmaRow p k i) (s.mmaCol p k (State.opPlane p.srcRec) j))).1 % 2 ^ 32)) ∧
    (OpIs s o p .peel → b = PeelBlk.ofNat (leNat p.blk) →
      (p.st = .running → p.cursor < b.count → p.sub = 0 → b.fem = 0 → b.crc = false → d = s.opTens p p.dstRec →
        d.space = 1 → d.esz = 2 → s.elemDst p b p.cursor % 4 = 0 → OwnUnit s p b (1, s.elemDst p b p.cursor / 128) →
        s.engSpad p (s.elemDst p b p.cursor) 4 = some l →
        Memory.wf s.spad = true →
        (b.func = 1 → ∃ s', exec (.peelComplete o 1) s = .next s' ∧ s'.rdLoc l 4 = leBytes 4 b.arg1 ∧ s'.mem = s.mem ∧
          (s'.op? o).map (·.cursor) = some (p.cursor + 1)) ∧
        (b.func = 0 → b.fmt = 0 → a = s.opTens p p.srcRec → a.space = 1 → a.esz = 2 →
          s.engSpad p (s.elemSrc p b p.cursor) 4 = some m →
          ∃ s', exec (.peelComplete o 1) s = .next s' ∧ s'.rdLoc l 4 = s.rdLoc m 4 ∧ s'.mem = s.mem ∧
            (s'.op? o).map (·.cursor) = some (p.cursor + 1))) ∧
      (p.st = .running → s.itemCount p b ≤ p.cursor → p.fin = true → State.cwCount p b ≤ p.cwDone → ∀ n, 1 ≤ n →
        ∃ s', exec (.peelComplete o n) s = .next s' ∧ OpEnded s s' p 0 p.sat p.nan) ∧
      (∀ code, p.st = .failed code → p.fin = true → State.cwCount p b ≤ p.cwDone →
        ∃ s', exec (.peelStop o) s = .next s' ∧ OpEnded s s' p code p.sat p.nan))

namespace Sys2Proof.Says

/-- EX2 of a difference rounded once (R385). -/
def expOf (x y : Nat) : Nat := (Num.fsf .ex2 .rn .f32 (Num.fsub Num.f32 .rn x y).1).1
/-- r is x * f + y * g rounded once, for finite operands (R385). -/
def Mixed (x f y g r : Nat) : Prop :=
  ∀ b1 b2 b3 b4 d1 d2 d3 d4, Num.unpack Num.f32 x = .fin b1 d1 → Num.unpack Num.f32 f = .fin b2 d2 →
    Num.unpack Num.f32 y = .fin b3 d3 → Num.unpack Num.f32 g = .fin b4 d4 →
    ∃ v z, v.eq ((d1.mul d2).add (d3.mul d4)) = true ∧ r = (Num.rnd Num.f32 .rn v z).1

end Sys2Proof.Says

/-- R383, R385, R386, R487: a SLICE reads its query, a Slicer takes the pages of a span, a partial merges in its turn,
no span is left when CTR has passed them all, and the operation leaves its queue after its last phase. -/
def Obligations.SliceEvents : Prop :=
  ∀ (s s1 s2 : State) (o c : Nat) (p : Op), OpIs s o p .slice →
    (∀ (f : Nat → List Byte) (r : Nat → State), s.mayStart p = true → r 0 = s → (∀ i < State.sliceHd p,
        (r i).engRead p 0 (((State.sliceBlk p).q + 4 * i) % 2 ^ 64) 4 false = (r (i + 1), .ok (f i))) →
      ∃ s' y, exec (.sliceStart o) s = .next s' ∧ s'.op? o = some y ∧ y.st = .running ∧
        s'.mem = (r (State.sliceHd p)).mem ∧ y.q = (List.range (State.sliceHd p)).map fun i => leNat (f i)) ∧
    (p.st = .running →
      (∀ x, p.spans.find? (fun y => s.spanWalks y.2) = some (c, x) → s.walkSpan p c (State.spanAddrs p c) = (s1, .ok ()) →
        ∃ s', exec (.spanClaim o) s = .next s' ∧ s'.mem = s1.mem ∧
          ∀ y, s'.op? o = some y → (c, .claimed (s1.cx p.ctx).epoch) ∈ y.spans) ∧
      (∀ pa leaf, p.spans.find? (fun y => s.spanWalks y.2) = none → s.wantsSlicer p = true → s.slicerFree p = true →
        s.engLoc p ((p.blkAddr + 52) % 2 ^ 64) true false = (s1, .ok (.mem pa, leaf)) →
        s1.engHome p pa 4 leaf true false false = (s2, .ok ()) →
        pa % 4 = 0 → pa + 4 ≤ Config.hbmTop → Memory.wf s2.mem = true → State.sliceSpans p ≤ leNat (s2.rdBytes pa 4) →
        ∃ s' y, exec (.spanClaim o) s = .next s' ∧ s'.rdBytes pa 4 = leBytes 4 (leNat (s2.rdBytes pa 4) + 1) ∧
          s'.op? o = some y ∧ y.fin = true ∧ y.spans = p.spans) ∧
      (∀ nan m l a, p.spans.find? (fun y => y.1 == c) = some (c, .held nan m l a) → State.spanTurn p c = true →
        ∃ s' y, exec (.partialMerge o c) s = .next s' ∧ s'.op? o = some y ∧ (c, .ended) ∈ y.spans ∧
          y.merge = Slice.merge p.merge nan m l a ∧ s'.mem = s.mem ∧
          y.merge.any = true ∧ y.merge.nan = (p.merge.nan || nan) ∧ y.merge.mx = (Num.fminmax Num.f32 true p.merge.mx m).1 ∧
          ∀ f1 f2, f1 = expOf p.merge.mx y.merge.mx → f2 = expOf m y.merge.mx → Mixed p.merge.l f1 l f2 y.merge.l ∧
            ∀ i, i < a.length → i < p.merge.a.length → Mixed (p.merge.a.getD i 0) f1 (a.getD i 0) f2 (y.merge.a.getD i 0)) ∧
      (p.fin = true → State.opBusy p = 0 → p.sub = 4 →
        ∃ s', exec (.sliceComplete o) s = .next s' ∧ OpEnded s s' p 0 p.sat p.merge.nan)) ∧
    (∀ code, p.st = .failed code → p.sub = 4 → p.cwDone ≠ 3 →
      ∃ s' nan, exec (.sliceStop o) s = .next s' ∧ OpEnded s s' p code p.sat nan)

/-! ## The command processor -/

namespace Sys2Proof.Says

/-- A graph but for the places of its nodes in the order of readiness. -/
def unready (g : Graph) : Graph := { g with nodes := g.nodes.map fun y => { y with ready := none } }

end Sys2Proof.Says

/-- R430, R433: CREATE and KILL. R436, R437: doorbells, NOP entries, malformed entries. R438 to R440: a submitted graph,
its nodes and its end. R443: SNAP writes one record for each enabled queue and one for each context. -/
def Obligations.CommandProcessorEvents : Prop :=
  ∀ (s s1 : State) (id rpa q tail e k n core : Nat) (x : Graph) (y z : Node),
    (s.dev.ready = true → s.dev.fatal = false → id < 16 → s.cp.stat ≠ 0 →
      (∀ b, s.cpRoom = true → (if Config.hbmTop < rpa * 4096 + 128 ∨ s.ueIn (rpa * 4096) 128 = true then b = none
          else b = some (s.rdBytes (rpa * 4096) 128)) →
        (s.createWhy id b = 0 → ∃ s', exec (.ctxCreate id rpa) s = .next s' ∧
          s'.ctxs = s.ctxs ++ [State.ctxOf id (leNat (b.getD []))] ∧ s'.cp.stat = 1 ∧ s'.cp.statId = id) ∧
        (s.createWhy id b ≠ 0 → ∃ s', exec (.ctxCreate id rpa) s = .next s' ∧
          s'.ctxs = s.ctxs ∧ s'.cp.stat = 2 ∧ s'.cp.statId = id ∧ s'.cp.why = s.createWhy id b)) ∧
      (s.hasCtx id = false → ∃ s', exec (.ctxKill id) s = .next s' ∧ s'.cp.stat = 1 ∧ s'.cp.statId = id ∧
        s'.cp.cmd = 2 + 16 * id + 4096 * (s.cp.cmd / 4096) ∧ s'.ctxs = s.ctxs) ∧
      (s.hasCtx id = true → (s.cx id).killing = none → ∃ s', exec (.ctxKill id) s = .next s' ∧ s'.cp.stat = 0 ∧
        (s'.cx id).killing = some .host ∧ ∀ t, s.ctxOfThread t = id → (s'.th t).st = .ended)) ∧
    (s.dev.ready = false → exec (.ctxCreate id rpa) s = .next s ∧ exec (.ctxKill id) s = .next s ∧ exec .snap s = .next s) ∧
    (q < 64 → (s.queue q).en = true → tail ≠ (s.queue q).bell → tail < 2 ^ 32 → s.dev.ready = true → s.cpRoom = false →
      exec (.doorbell q tail) s = .next (s.updQueue q fun y => { y with bell := tail, door := true })) ∧
    (∀ qu m, q < 64 → q < s.cp.queues.length → qu = s.queue q → qu.en = true → tail ≠ qu.bell → tail < 2 ^ 32 →
      s.dev.ready = true → s.cpRoom = true → qu.head < 2 ^ 32 → m = (tail + 2 ^ 32 - qu.head) % 2 ^ 32 →
      (m ≤ 2 ^ qu.qlog → (∀ i < m, s.ueIn (qu.base + 64 * ((qu.head + i) % 2 ^ qu.qlog)) 64 = false) →
        qu.base + 64 * 2 ^ qu.qlog ≤ Config.hbmTop →
        ∃ s', exec (.doorbell q tail) s = .next s' ∧ s'.queue q = { qu with
          bell := tail, head := tail, door := false, ents := qu.ents ++ (List.range m).map fun i =>
            s.rdBytes (qu.base + 64 * ((qu.head + i) % 2 ^ qu.qlog)) 64 } ∧ s'.mem = s.mem) ∧
      (2 ^ qu.qlog < m → ∃ s', exec (.doorbell q tail) s = .next s' ∧ (s'.queue q).en = false ∧ (s'.queue q).bell = tail)) ∧
    (s.nextEntry q = some e → q < s.cp.queues.length →
      (State.entryOk e = true → bits e 7 0 = 0 →
        exec (.queueNop q) s = .next ((s.updQueue q fun x => { x with ents := x.ents.drop 1 }).cpForget (.queue q))) ∧
      (State.entryOk e = false → ∃ s', exec (.queueNop q) s = .next s' ∧ exec (.submit q) s = .next s' ∧
        (s'.queue q).en = false ∧ (s'.queue q).ents = (s.queue q).ents.drop 1) ∧
      (∀ l, State.entryOk e = true → bits e 7 0 = 1 → bits e 43 32 ≠ 0 → bits e 127 64 % 64 = 0 →
        State.readNodes q (s.queue q).ctx (bits e 127 64) (bits e 43 32) (bits e 43 32) s 0 [] = (s1, .ok (.ok l)) →
        ∃ s', exec (.submit q) s = .next s' ∧ s'.cp.graphs.map unready = s1.cp.graphs.map unready ++ [{
          gid := s1.nextId, queue := q, ctx := (s.queue q).ctx, addr := bits e 127 64, token := bits e 191 128,
          ser := bitOf e 8, failed := false, nodes := l }] ∧ s'.mem = s1.mem) ∧
      (∀ i, State.entryOk e = true → bits e 7 0 = 1 → bits e 43 32 ≠ 0 → bits e 127 64 % 64 = 0 →
        State.readNodes q (s.queue q).ctx (bits e 127 64) (bits e 43 32) (bits e 43 32) s 0 [] = (s1, .ok (.error i)) →
        ∃ s', exec (.submit q) s = .next s' ∧ s'.cp.graphs = s1.cp.graphs)) ∧
    (∀ v a ie, a = State.nodeArg v → ie = (⟨.node k n, core, 0, x.ctx, none⟩ : IssEnv) →
      (∀ r, s.startable k n 0 = some (x, v) → s.isLocal x.ctx a = true →
        s.cpRead (.node k n) x.ctx a 128 = (s1, .ok r) → (LaunchRec.ofNat (leNat r)).ok (leNat r) s1.fab.node = true →
        ∃ s', exec (.kernelNodeStart k n) s = .next s' ∧ s'.cp.graphs = (s1.nodeRuns k n).cp.graphs ∧
          s'.cp.launches = s1.cp.launches ++ [⟨s1.nextId, (x.nodes[n]?.bind (·.ready)).getD s1.nextId, x.ctx, .node k n, r, [], 0, false, false⟩]) ∧
      (∀ c, s.startable k n 1 = some (x, v) → core < 192 → (s.co core).gated = false →
        s.peelAccept ie a = (s1, .ok c) → s1.issueFull .peel ie ⟨0, none⟩ c.locks.length = false →
        ∃ s' o, exec (.peelNodeStart k n core) s = .next s' ∧ s'.ops = s1.ops ++ [o] ∧ o.who = .node k n ∧ o.core = core ∧
          o.kind = .peel ∧ o.blkAddr = a ∧ o.blk = c.blk ∧ o.st = .queued ∧ s'.cp.graphs = (s1.nodeRuns k n).cp.graphs) ∧
      (s.startable k n 2 = some (x, v) → s.sliceIssue { ie with core := State.cpCore } ⟨0, none⟩ a = (s1, .ok ()) →
        exec (.sliceNodeStart k n) s = .next (s1.nodeRuns k n)) ∧
      (∀ pa leaf, s.startable k n 3 = some (x, v) → s.cpLoc (.node k n) x.ctx a true false = (s1, .ok (.mem pa, leaf)) →
        s1.ueHits (.mem pa) 8 true = [] → pa + 8 ≤ Config.hbmTop → Memory.wf s1.mem = true → ∃ s', exec (.signalNodeStart k n) s = .next s' ∧
          s'.rdBytes pa 8 = leBytes 8 (bits v 319 256) ∧ (bitOf v 41 = true → s'.cp.irqs = s.cp.irqs ++ [bits v 40 36]) ∧
          (bitOf v 41 = false → s'.cp.irqs = s.cp.irqs) ∧ s'.cp.graphs = (s.nodeEnds k n 0).cp.graphs)) ∧
    (s.graph? k = some x → s.ctxLives x.ctx = true → x.nodes[n]? = some y → y.st = .done →
      (∀ m, State.nodeSuc (leNat y.rec_) = [m] → m ≠ n → x.nodes[m]? = some z → z.st = .waiting → z.cnt ≠ 0 →
        x.failed = false → ∃ s', exec (.nodeComplete k n) s = .next s' ∧ (s'.graph? k).map unready = some (unready { x with
          nodes := updAt (updAt x.nodes n fun w => { w with st := .finished }) m fun w => { w with cnt := w.cnt - 1 } })) ∧
      (State.nodeSuc (leNat y.rec_) = [] → x.nodes = [y] → n = 0 →
        ∃ s', exec (.nodeComplete k n) s = .next s' ∧ s'.graph? k = none)) ∧
    (s.cp.snap ≠ 0 → exec .snap s = .next s) ∧
    (s.dev.ready = true → s.cp.snap = 0 → s.cp.jseq < 2 ^ 32 → ∃ s', exec .snap s = .next s' ∧
      s'.cp.snap = s'.cp.held.length ∧ s'.cp.jseq = (s.cp.jseq + ((List.range 64).filter fun i => (s.queue i).en).length +
        (s.ctxs.filter fun c => c.killing.isNone).length) % 2 ^ 32)

/-! ## Registers of the management space, reset, power -/

namespace Sys2Proof.Says

/-- What PWR_LIM and I_LIM keep of a value written. -/
def between (lo hi v : Nat) : Nat := if v < lo then lo else if hi < v then hi else v

end Sys2Proof.Says

/-- R404, R418, R423, R428, R431, R435: writes of registers and what refuses them. R444, R446: package reset and boot,
with the bad-page lists and memory kept. R448: ATT_CTL.GO. R446: after a
failed boot only DEV and attestation answer. R449 to R451: throttling and THERMTRIP. -/
def Obligations.RegisterWriteEvents : Prop :=
  ∀ (s : State) (p sl v q n : Nat) (b : BootIn) (m : PowerMeas) (r : List Byte),
    (s.dev.bootfail = true → (∀ k, exec (.ringConsWrite k v) s = .next s) ∧ exec (.rotCalWrite p sl v) s = .next s ∧
      exec (.rotCtlWrite v) s = .next s ∧ exec (.rlyCfgWrite p n v) s = .next s) ∧
    (s.dev.bootfail = false → s.cp.held = [] → exec (.ringConsWrite .jnl v) s = .next (s.setCp { s.cp with
      jnl := if (s.cp.jnl.prod + 2 ^ 32 - v % 2 ^ 32) % 2 ^ 32 ≤ 2 ^ s.cp.jnl.log2
        then { s.cp.jnl with cons := v % 2 ^ 32 } else s.cp.jnl })) ∧
    (s.dev.bootfail = false → s.flt.held = [] → exec (.ringConsWrite .flt v) s = .next (s.setFlt { s.flt with
      ring := if (s.flt.ring.prod + 2 ^ 32 - v % 2 ^ 32) % 2 ^ 32 ≤ 2 ^ s.flt.ring.log2
        then { s.flt.ring with cons := v % 2 ^ 32 } else s.flt.ring })) ∧
    (s.dev.bootfail = false → s.fab.held = [] → exec (.ringConsWrite .evt v) s = .next (s.setFab { s.fab with
      ring := if (s.fab.ring.prod + 2 ^ 32 - v % 2 ^ 32) % 2 ^ 32 ≤ 2 ^ s.fab.ring.log2
        then { s.fab.ring with cons := v % 2 ^ 32 } else s.fab.ring })) ∧
    (s.dev.bootfail = false → s.cp.held = [r] → r.length = 32 → (s.cp.jnl.setCons v).room = true → Memory.wf s.mem = true →
      (s.cp.jnl.slot + 32 ≤ Config.feUnused ∨ Config.hostBase ≤ s.cp.jnl.slot ∧ s.cp.jnl.slot + 32 ≤ Config.physTop) →
      ∃ s', exec (.ringConsWrite .jnl v) s = .next s' ∧ s'.cp.held = [] ∧
        s'.cp.jnl.prod = (s.cp.jnl.prod + 1) % 2 ^ 32 ∧
        s'.rdBytes (s.cp.jnl.base + 32 * (s.cp.jnl.prod % 2 ^ s.cp.jnl.log2)) 32 = r) ∧
    ((s.fab.en = true ∨ 8 ≤ p ∨ 8 ≤ sl ∨ bits v 7 6 = 3) → exec (.rotCalWrite p sl v) s = .next s) ∧
    (s.dev.bootfail = false → s.fab.en = false → p < 8 → sl < 8 → bits v 7 6 ≠ 3 → exec (.rotCalWrite p sl v) s = .next (s.setFab { s.fab with
      cal := setAt s.fab.cal (8 * p + sl) (if bits v 7 6 = 1 then 0x3F else bits v 5 0, bits v 7 6) })) ∧
    (s.dev.bootfail = false → s.fab.en = false ∨ bitOf v 6 = true → exec (.rotCtlWrite v) s = .next (s.setFab { s.fab with
      node := if s.fab.en = false ∧ s.ctxs = [] then bits v 5 0 else s.fab.node, en := bitOf v 6,
      path := if bits v 8 7 < 2 then bits v 8 7 else s.fab.path, dwait := bits v 11 9, age := bits v 19 12,
      rtmo := bits v 23 20, utmo := bits v 27 24 })) ∧
    (s.dev.bootfail = false → s.fab.en = true → bitOf v 6 = false → ∃ s', exec (.rotCtlWrite v) s = .next s' ∧ s'.fab.en = false ∧
      s'.fab.node = s.fab.node ∧ ∀ x ∈ s'.fab.ports, x.trained = false) ∧
    (s.dev.bootfail = false → v < 4096 →
      (v ≠ 0 ∧ 63 * v * 192 ≤ (16 + s.fab.ovsz) * 2 ^ 20 →
        exec (.rlyCfgWrite 0x4180 4 v) s = .next (s.setFab { s.fab with cred := v })) ∧
      (v = 0 ∨ (16 + s.fab.ovsz) * 2 ^ 20 < 63 * v * 192 → exec (.rlyCfgWrite 0x4180 4 v) s = .next s)) ∧
    (s.dev.attBusy = true → exec .attGo s = .next s) ∧
    (s.dev.attBusy = false → exec .attGo s = .next (s.setDev { s.dev with
      nonceTaken := s.dev.nonce, attDone := false, attBusy := true })) ∧
    (s.dev.bootfail = false → v < 2 ^ 32 →
      (v % 65536 ≠ 0 → exec (.mgmtRegWrite 0x10 4 v) s = .next (s.setCp { s.cp with quant := v % 65536 })) ∧
      (v % 65536 = 0 → exec (.mgmtRegWrite 0x10 4 v) s = .next s) ∧
      exec (.mgmtRegWrite 0x7000 4 v) s = .next (s.setDev { s.dev with pwrLim := between 300 1800 (v % 4096) }) ∧
      exec (.mgmtRegWrite 0 4 v) s = .next s ∧ (bitOf v 3 = false → exec (.mgmtRegWrite 8 4 v) s = .next s) ∧
      (q < 64 → (s.queue q).en = true → exec (.mgmtRegWrite (0x1000 + 64 * q) 4 v) s = .next s ∧
        exec (.mgmtRegWrite (0x1008 + 64 * q) 4 v) s = .next (s.updQueue q fun x => { x with en := bitOf v 4 }))) ∧
    (n ≠ 4 → n ≠ 8 → exec (.mgmtRegWrite p n v) s = .next s) ∧
    (∀ c fw, c = State.bootCode b →
      fw = (match b.image with | some i => if c = 0 then leNat (Crypto.sha512 i.bytes) else 0 | none => 0) →
      exec (.packageReset b) s = .next { State.reset with
        flt := { State.reset.flt with bad := s.flt.bad }, agenda := s.agenda, nextId := s.nextId,
        mem := s.mem, ue := s.ue, ce := s.ce,
        dev := { State.reset.dev with ready := c == 0, bootfail := c != 0, bcode := c, fw := BitVec.ofNat 512 fw } }) ∧
    (s.dev.tj < 115 → exec .thermtrip s = .next s) ∧
    (115 ≤ s.dev.tj → ∃ s', exec .thermtrip s = .next s' ∧ s'.dev.power = false ∧ s'.ctxs = [] ∧ s'.threads = [] ∧
      s'.mem = (s.mem.filter fun c => Config.hostBase ≤ c.1) ∧ s'.flt.bad = s.flt.bad) ∧
    (∃ s', exec (.clockThrottle m) s = .next s' ∧ s'.dev.tcap = decide (105 < m.tj) ∧
      (m.demand ≤ s.dev.pwrLim → m.peaks.getD 0 0 ≤ s.dev.ilim.getD 0 0 → m.peaks.getD 1 0 ≤ s.dev.ilim.getD 1 0 →
        s'.dev.pcap = false ∧ (m.tj ≤ 105 → s'.dev.keep = 16)) ∧
      (s.dev.pwrLim < m.demand ∨ s.dev.ilim.getD 0 0 < m.peaks.getD 0 0 ∨ s.dev.ilim.getD 1 0 < m.peaks.getD 1 0 →
        s'.dev.pcap = true) ∧
      (s.dev.pwrLim < m.demand ∨ 105 < m.tj → s'.dev.keep = between 8 15 m.keep) ∧ s'.threads = s.threads)

/-! ## Rotor ports -/

namespace Sys2Proof.Says

/-- The event of a flit that arrives at a port, by the kind of the flit: WRITE, OPW, READ, RMW, FEREQ, FEREQ cancel,
REPLY, ACK, RFAIL, IDLE, relay flit, unknown flit. -/
def arrive : State.FlitKind → Nat → FlitRx → Instr
  | .write, p, f => .write p f
  | .opw, p, f => .opw p f
  | .read, p, f => .read p f
  | .rmw, p, f => .rmw p f
  | .fereq, p, f => .fereq p f
  | .cancel, p, f => .fereqCancel p f
  | .reply, p, f => .reply p f
  | .ack, p, f => .ack p f
  | .rfail, p, f => .rfail p f
  | .idle, p, f => .idle p f
  | .relay, p, f => .relayFlit p f
  | .unknown, p, f => .unknownFlit p f
/-- Port p receives from x: the fabric is on, the slot clock runs, the port has trained with x. -/
def Lit (s : State) (p x : Nat) : Prop :=
  p < s.fab.ports.length ∧ (s.port p).far = some x ∧ s.fab.en = true ∧ s.fab.slotLost = false ∧ (s.port p).trained = true ∧
  (s.port p).rx ≠ 0
/-- A flit without an error on its way, from a reachable other package by a reachable x. -/
def Sound (s : State) (x : Nat) (f : FlitRx) : Prop :=
  State.rxGood f = true ∧ State.Body.ok f.body = true ∧ State.fits f = true ∧ (State.rxHdr f).src < 64 ∧ (State.rxHdr f).src ≠ s.fab.node ∧
  (s.pair x).unreach = false ∧ (s.pair (State.rxHdr f).src).unreach = false
/-- Port p may send to x now, in the usable part of its slot (R403). -/
def Sends (s : State) (p x : Nat) : Prop :=
  Lit s p x ∧ 3008 ≤ 25 * (s.cycle - s.fab.slotAt) ∧ 25 * (s.cycle - s.fab.slotAt) < 60160 ∧
  (s.port p).quiet = false ∧ (s.port p).muted = false ∧
  (s.port p).sent < State.slotFlits (State.stripeWidth (s.port p))
/-- The machine outside the fabric is the same. -/
def OffFabric (s s' : State) : Prop :=
  s'.threads = s.threads ∧ s'.groups = s.groups ∧ s'.mem = s.mem ∧ s'.spad = s.spad ∧ s'.reqs = s.reqs ∧
  s'.pend = s.pend ∧ s'.teams = s.teams ∧ s'.ctxs = s.ctxs

end Sys2Proof.Says

/-- R406: training. R413: a write-combining entry leaves at its age. R409, R411: CRC, HSEQ and what a trailer frees.
R417: what a port sends next. R418: a first-hop flit enters the relay buffer, or its overflow region. R420, R475: a
port takes its stripe in the training part of the guard. R407 to R409: the bytes of a flit give its header, its trailer and
a good CRC back. -/
def Obligations.FabricEvents : Prop :=
  ∀ (s : State) (p x : Nat) (f : FlitRx),
    (∀ (w : TrainWord) (peer : Nat), p < 8 → p < s.fab.ports.length → s.fab.en = true → s.fab.slotLost = false →
      s.calAt p s.fab.slot = (peer, 0) → peer < 64 → (s.port p).trained = false → (s.port p).quiet = false →
      State.stripeWidth (s.port p) ≠ 0 → (s.port p).stripe = State.wlUsable (s.port p) →
      1880 ≤ 25 * (s.cycle - s.fab.slotAt) → 25 * (s.cycle - s.fab.slotAt) < 3008 →
      (w.node = peer → ∃ s', exec (.trainingWord p (some w)) s = .next s' ∧ (s'.port p).far = some peer ∧
        (s'.port p).trained = true ∧ (s'.port p).rx = w.stripe % 2 ^ 16 ∧ OffFabric s s' ∧
        (∀ l1 l2 y, (s.pair peer).unacked = l1 ++ y :: l2 → y.hdr.hseq = w.hack → (∀ z ∈ l1, z.hdr.hseq ≠ w.hack) →
          (s'.pair peer).unacked = l2 ∧ (w.nak = true → l2 ≠ [] → (s'.pair peer).resend = some 0))) ∧
      (w.node ≠ peer → ∃ s', exec (.trainingWord p (some w)) s = .next s' ∧ (s'.port p).quiet = true ∧
        (s'.port p).trained = false ∧ s'.threads = s.threads ∧
        (s.fab.held = [] → s.fab.ring.room = true → s'.fab.ring.prod = (s.fab.ring.prod + 1) % 2 ^ 32))) ∧
    (p < 8 → p < s.fab.ports.length → (s.port p).trained = false → 1880 ≤ 25 * (s.cycle - s.fab.slotAt) →
      ((s.port p).stripe = State.wlUsable (s.port p) → ∃ s', exec (.trainingWord p none) s = .next s' ∧
        (s'.port p).quiet = true ∧ OffFabric s s') ∧
      (s.fab.en = true → s.fab.slotLost = false → (s.calAt p s.fab.slot).2 ≠ 2 → (s.port p).quiet = false →
        ∃ s', exec (.trainingWord p none) s = .next s' ∧ (s'.port p).stripe = (List.range 4).map fun k =>
          (s.port p).live.getD k false && ((List.range 4).all fun i => !(s.port p).badWl.getD (4 * k + i) false))) ∧
    (∀ (h : FlitHdr) (t : Trailer) (ty : Nat) (pay : List Byte) (b : Body), h.src < 64 → h.dst < 64 → h.ctx < 16 →
      h.pgen < 16 → h.eseq < 2 ^ 24 → h.hseq < 2 ^ 15 → t.hack < 2 ^ 15 → t.cred < 2 ^ 12 → ty < 16 → pay.length = 176 →
      ∀ g : FlitRx, g = ⟨State.flitBytes h t ty pay, b⟩ → g.bytes.length = 192 ∧ State.rxHdr g = h ∧
        State.rxTrail g = t ∧ State.rxType g = ty ∧ State.rxPay g = pay ∧ State.rxGood g = true) ∧
    ((s.fab.en = false ∨ s.fab.slotLost = true ∨ (s.port p).trained = false ∨ (s.port p).quiet = true ∨
        (s.port p).muted = true ∨ 25 * (s.cycle - s.fab.slotAt) < 3008 ∨ 60160 ≤ 25 * (s.cycle - s.fab.slotAt) ∨
        State.slotFlits (State.stripeWidth (s.port p)) ≤ (s.port p).sent) →
      exec (.flitSend p) s = .next s) ∧
    (Sends s p x →
      (∀ i, (s.pair x).resend = some i → i < (s.pair x).unacked.length → ∃ s', exec (.flitSend p) s = .next s' ∧
        (s'.pair x).resend = (if i + 1 < (s.pair x).unacked.length then some (i + 1) else none) ∧
        (s'.pair x).unacked = (s.pair x).unacked ∧ (s'.pair x).hseqOut = (s.pair x).hseqOut ∧
        (s'.port p).sent = (s.port p).sent + 1 ∧ OffFabric s s') ∧
      ((s.pair x).resend = none → (s.pair x).unacked.length < 4096 →
        (∀ r, s.fab.relay = [r] → r.at_ = none → r.flit.hdr.dst = x → r.src ≠ x → ∃ s' c, exec (.flitSend p) s = .next s' ∧
          s'.fab.relay = [] ∧ (s'.pair r.src).credRet = (s.pair r.src).credRet + 1 ∧
          (s'.pair x).unacked = (s.pair x).unacked ++
            [⟨{ r.flit.hdr with rly := false, hseq := (s.pair x).hseqOut }, r.flit.body, c, r.flit.pay⟩] ∧
          (s'.pair x).hseqOut = ((s.pair x).hseqOut + 1) % 2 ^ 15 ∧ OffFabric s s') ∧
        (∀ e, s.fab.relay = [] → (∀ q ∈ s.fab.pairs, q.acks = []) → (s.pair x).out = [e] → e.sent = false → s.fab.path = 1 →
          ∃ s' c, exec (.flitSend p) s = .next s' ∧
            (s'.pair x).unacked = (s.pair x).unacked ++
              [⟨⟨s.fab.node, x, false, e.ctx, (s.pair x).pgenOut, e.eseq, (s.pair x).hseqOut⟩, e.body, c,
                s.originOf e⟩] ∧
            (s'.pair x).hseqOut = ((s.pair x).hseqOut + 1) % 2 ^ 15 ∧
            (s'.pair x).out = [{ e with sent := true, via := none, since := s.cycle }] ∧
            (s'.port p).sent = (s.port p).sent + 1 ∧ OffFabric s s') ∧
        (s.fab.relay = [] → (∀ q ∈ s.fab.pairs, q.out = [] ∧ q.acks = [] ∧ q.replies = [] ∧ q.rfails = []) →
          ∃ s', exec (.flitSend p) s = .next s' ∧ (s'.pair x).hseqOut = (s.pair x).hseqOut ∧
            (s'.pair x).unacked = (s.pair x).unacked ∧ (s'.port p).sent = (s.port p).sent + 1 ∧ OffFabric s s'))) ∧
    (∀ e, s.fab.wc = [e] → e.sent = false → s.unreach e.peer = false → s.routeOf e.peer = some .rotor →
      (s.cycle < e.since + max 1 (940 * s.fab.age) → exec (.wcAgeExpiry e.id) s = .next s) ∧
      (e.since + max 1 (940 * s.fab.age) ≤ s.cycle → e.body = none → ∃ s', exec (.wcAgeExpiry e.id) s = .next s' ∧
        s'.fab.wc = [{ e with sent := true }] ∧ s'.mem = s.mem ∧
        (s'.pair e.peer).eseq = ((s.pair e.peer).eseq + 1) % 2 ^ 24 ∧
        (s'.pair e.peer).out = (s.pair e.peer).out ++ [⟨(s.pair e.peer).eseq, .write e.line e.mask e.data, e.ctx,
          none, s.cycle, false, false, false, some e.id, none⟩])) ∧
    (Lit s p x →
      (State.rxGood f = false → ∀ k, ∃ s', exec (arrive k p f) s = .next s' ∧ (s'.pair x).nak = true ∧
        (s'.pair x).hseqIn = (s.pair x).hseqIn ∧ OffFabric s s') ∧
      (Sound s x f → ∀ k, k = State.kindOf s.fab.node f → k ≠ .idle → (State.rxHdr f).hseq ≠ (s.pair x).hseqIn →
        ∃ s', exec (arrive k p f) s = .next s' ∧ (s'.pair x).nak = true ∧ (s'.pair x).hseqIn = (s.pair x).hseqIn ∧
          OffFabric s s') ∧
      (Sound s x f → (State.rxHdr f).hseq = (s.pair x).hseqIn → (State.rxHdr f).rly = true → (State.rxHdr f).dst ≠ s.fab.node →
        (∀ ty, f.body ≠ .unknown ty) → ∀ fl : Flit, fl = ⟨State.rxHdr f, f.body, 0, .given (State.rxPay f)⟩ →
        ∃ s', exec (.relayFlit p f) s = .next s' ∧
          (s'.pair x).hseqIn = ((s.pair x).hseqIn + 1) % 2 ^ 15 ∧ (s'.pair x).nak = false ∧
          (∀ q, s.relayPlace = some q → s'.fab.relay = s.fab.relay ++ [⟨x, fl, q⟩]) ∧
          (s.relayPlace = none → s'.fab.relay = s.fab.relay ∧ (s'.pair x).credRet = (s.pair x).credRet + 1) ∧
          (s.relayPlace = none ∨ s.relayPlace = some none → OffFabric s s') ∧
          (∀ pa, s.relayPlace = some (some pa) → s.uesWr pa 192 = [] → Memory.wf s.mem = true →
            s'.rdBytes pa 192 = State.flitBytes fl.hdr ⟨0, false, 0⟩ (State.Body.type f.body) (State.payload fl))) ∧
      (Sound s x f → f.body = .idle → (State.rxHdr f).rly = false →
        ∃ s', exec (.idle p f) s = .next s' ∧ (s'.pair x).hseqIn = (s.pair x).hseqIn ∧ (s'.pair x).nak = (s.pair x).nak ∧
          (s'.pair x).credit = (s.pair x).credit + (State.rxTrail f).cred ∧ OffFabric s s' ∧
          ∀ l1 l2 y, (s.pair x).unacked = l1 ++ y :: l2 → y.hdr.hseq = (State.rxTrail f).hack → (∀ z ∈ l1, z.hdr.hseq ≠ (State.rxTrail f).hack) →
            (s'.pair x).unacked = l2))

namespace Sys2Proof.Says

/-- A sound flit for this package arrives in order at port p from x, under a path generation that is not old (R419). -/
def Final (s : State) (p x : Nat) (f : FlitRx) : Prop :=
  Lit s p x ∧ Sound s x f ∧ (State.rxHdr f).hseq = (s.pair x).hseqIn ∧ (State.rxHdr f).dst = s.fab.node ∧
  ((State.rxHdr f).pgen + 16 - (s.pair (State.rxHdr f).src).pgenIn) % 16 < 8
/-- Accesses on their way, operations of threads and memory are the same. -/
def Quiet (s s' : State) : Prop := s'.reqs = s.reqs ∧ s'.threads = s.threads ∧ s'.mem = s.mem ∧ s'.pend = s.pend

end Sys2Proof.Says

/-- R410, R414, R415, R419 to R421: what a flit does at its final node. WRITE, OPW, READ, RMW and FEREQ become one access
at this node's memory, or are answered at once where the context is absent, and again where they have been performed;
FEREQ cancel frees what it names and is answered; REPLY and ACK end what they answer; RFAIL fails the path; an unknown
flit is an event. -/
def Obligations.FabricFlits : Prop :=
  ∀ (s : State) (p x n : Nat) (f : FlitRx), n = (State.rxHdr f).src → Final s p x f →
    (∀ k (a : State.Ask), k = State.kindOf s.fab.node f → State.askOf f.body = some a →
      (State.ahead (s.pair n).high (State.rxHdr f).eseq = true → s.fab.incoming = [] → s.joined (.remote n (State.rxHdr f).eseq) = false →
        (∀ leaf pa, s.hasCtx (State.rxHdr f).ctx = true → (s.cx (State.rxHdr f).ctx).killing = none → a.op ≠ .pgreq → State.planeVas a.op = [] →
          s.tlbHit .remote (State.rxHdr f).ctx a.va = some leaf → State.permits ⟨State.writes a.op, false⟩ leaf = true →
          pa = leaf.pa + a.va % State.pageBytes leaf.sz →
          (State.opFe a.op = true → leaf.feb = true ∧ pa < Config.hostBase) →
          (Config.hostBase ≤ pa → State.hostCan a.op = true) →
          ∃ s' r, exec (arrive k p f) s = .next s' ∧ s'.reqs = s.reqs ++ [r] ∧ r.id = s.nextId ∧
            r.who = .remote n (State.rxHdr f).eseq ∧ r.ctx = (State.rxHdr f).ctx ∧ r.op = a.op ∧ r.loc = locOf pa ∧ r.size = a.size ∧
            r.ord = a.ord ∧ r.scope = a.scope ∧ r.done = false ∧ s'.threads = s.threads ∧ s'.mem = s.mem ∧
            (s'.pair x).hseqIn = ((s.pair x).hseqIn + 1) % 2 ^ 15 ∧ (s'.pair n).high = ((State.rxHdr f).eseq + 1) % 2 ^ 24) ∧
        (s.hasCtx (State.rxHdr f).ctx = false → ∃ s', exec (arrive k p f) s = .next s' ∧ Quiet s s' ∧
          (State.returns a.op = true → (s'.pair n).replies = (s.pair n).replies ++
            [.reply (State.rxHdr f).eseq (if a.nf || a.op == .pgreq then 0 else 0x06) []]) ∧
          (State.returns a.op = false → (s'.pair n).acks = (s.pair n).acks ++
            [((State.rxHdr f).eseq, (if a.nf || a.op == .pgreq then 0 else 0x06), s.cycle)]))) ∧
      (State.ahead (s.pair n).high (State.rxHdr f).eseq = false → State.behind (s.pair n).high (State.rxHdr f).eseq ≤ 4097 →
        (∀ st, (s.pair n).seen.find? (fun y => y.1 == (State.rxHdr f).eseq) = some ((State.rxHdr f).eseq, some st) →
          ∃ s', exec (arrive k p f) s = .next s' ∧ Quiet s s' ∧
            (s'.pair n).acks = (s.pair n).acks ++ [((State.rxHdr f).eseq, st, s.cycle)]) ∧
        (∀ b, (s.pair n).seen.find? (fun y => y.1 == (State.rxHdr f).eseq) = some ((State.rxHdr f).eseq, none) →
          (s.pair n).cache.find? (fun y => y.1 == (State.rxHdr f).eseq) = some ((State.rxHdr f).eseq, b) →
          ∃ s', exec (arrive k p f) s = .next s' ∧ Quiet s s' ∧ (s'.pair n).replies = (s.pair n).replies ++ [b])) ∧
      (State.ahead (s.pair n).high (State.rxHdr f).eseq = false → 4097 < State.behind (s.pair n).high (State.rxHdr f).eseq →
        ∀ b, (s.pair n).cache.find? (fun y => y.1 == (State.rxHdr f).eseq) = some ((State.rxHdr f).eseq, b) →
          ∃ s', exec (arrive k p f) s = .next s' ∧ Quiet s s' ∧ (s'.pair n).replies = (s.pair n).replies ++ [b])) ∧
    (∀ k, f.body = .cancel k → State.ahead (s.pair n).high (State.rxHdr f).eseq = true →
      (∀ r ∈ s.reqs, r.who ≠ .remote n k) → (∀ i ∈ s.fab.incoming, i.who ≠ .remote n k) →
      ∃ s', exec (.fereqCancel p f) s = .next s' ∧ s'.reqs = s.reqs ∧
        s'.waits = s.waits.filter (fun e => e.who != .remote n k) ∧
        ((∃ e ∈ s.waits, e.who = .remote n k) →
          (s'.pair n).replies = (s.pair n).replies ++ [.reply k 0 [], .reply (State.rxHdr f).eseq 0 []]) ∧
        ((∀ e ∈ s.waits, e.who ≠ .remote n k) →
          (s'.pair n).replies = (s.pair n).replies ++ [.reply (State.rxHdr f).eseq 0 []])) ∧
    (∀ k e i q b ty t d, f.body = .reply k 0 b → (s.pair n).out = [e] → e.eseq = k → e.wc = none → e.req = some i →
      s.req? i = some q → q.done = false → q.id ≠ 0 → q.who = .thread t → q.op = .load → q.form = .lane ty t d →
      tySize ty ≤ 4 → ∃ s', exec (.reply p f) s = .next s' ∧ (s'.pair n).out = [] ∧
        s'.reqs = s.reqs.filter (fun r => r.id != i) ∧ s'.mem = s.mem ∧
        ∀ r ∈ s.pend, r.req = i → r.dst = .reg t d →
          { r with val := .reg ⟨BitVec.ofNat 32 (extInt ty (leNat b)), Tag.zero⟩ } ∈ s'.pend) ∧
    (∀ k e i w, f.body = .ack [(k, 0)] → (s.pair n).out = [e] → e.eseq = k → e.wc = some i →
      s.fab.wc.find? (fun y => y.id == i) = some w → (∀ y ∈ w.who, ∃ t, y.who = .thread t) →
      ∃ s', exec (.ack p f) s = .next s' ∧ (s'.pair n).out = [] ∧ s'.fab.wc = s.fab.wc.filter (fun y => y.id != i) ∧
        s'.mem = s.mem ∧ s'.reqs = s.reqs ∧
        ∀ u ∈ s.teams, u.uid = w.team → { u with outst := u.outst - 1 } ∈ s'.teams) ∧
    (∀ q e g, f.body = .rfail [(e.eseq, g)] → s.fab.pairs.filter (fun y => y.out != []) = [q] → s.pair q.peer = q →
      q.out = [e] → e.sent = true → e.held = false → e.via = some n → q.pgenOut = g →
      ∃ s', exec (.rfail p f) s = .next s' ∧ (s'.pair q.peer).pgenOut = (g + 1) % 16 ∧
        (s'.pair q.peer).out = [{ e with sent := false, again := true, via := none, since := s.cycle }] ∧
        (n, s.fab.slotCycle + s.rtmo) ∈ (s'.pair q.peer).barred ∧ s'.threads = s.threads) ∧
    (∀ ty, f.body = .unknown ty → s.fab.held = [] → s.fab.ring.room = true →
      ∃ s', exec (.unknownFlit p f) s = .next s' ∧ s'.fab.ring.prod = (s.fab.ring.prod + 1) % 2 ^ 32 ∧
        s'.threads = s.threads ∧ s'.reqs = s.reqs)

/-! ## Light, slot clock, UALink, PCIe, cores -/

namespace Sys2Proof.Says

/-- Every byte of a core's translations is forgotten: its own TLB, its quadrants' and its Peel unit's. -/
def NoTlb (s' : State) (c : Nat) : Prop :=
  ∀ e ∈ s'.tlb, e.unit ≠ .core c ∧ (∀ k, e.unit ≠ .data c k ∧ e.unit ≠ .instr c k) ∧ e.unit ≠ .peel c

end Sys2Proof.Says

/-- R401 to R403, R420 to R422: light and slot clock. R425, R427: UALink. R307, R399, R484: PCIe completions. R153:
power gating and debug halts. -/
def Obligations.SourceClockHostEvents : Prop :=
  ∀ (s : State) (p j x r c : Nat),
    (p < 8 → p < s.fab.ports.length → (s.port p).live.length = 4 → j < 4 →
      ((s.port p).live.getD j false = true → exec (.sourceLive p j) s = .next s ∧
        ∃ s', exec (.sourceLost p j) s = .next s' ∧ (s'.port p).live = setAt (s.port p).live j false ∧
          (s'.port p).muted = true ∧ (s'.port p).trained = (s.port p).trained ∧ s'.threads = s.threads) ∧
      ((s.port p).live.getD j false = false → exec (.sourceLost p j) s = .next s ∧
        ∃ s', exec (.sourceLive p j) s = .next s' ∧ (s'.port p).live = setAt (s.port p).live j true ∧
          (s'.port p).stripe = (s.port p).stripe ∧ s'.threads = s.threads)) ∧
    ((∀ e ∈ (s.pair x).out, e.held = true ∨ 5 * (s.cycle - (if e.sent = true then e.since
        else if (s.pair x).moved ≤ e.since then e.since else (s.pair x).moved)) < 96256 * s.rtmo) →
      exec (.pathTimeout x) s = .next s) ∧
    (∀ e, (s.pair x).out = [e] → e.sent = true → e.held = false → 96256 * s.rtmo ≤ 5 * (s.cycle - e.since) →
      ((s.pair x).fails + 1 < s.utmo → ∃ s', exec (.pathTimeout x) s = .next s' ∧
        (s'.pair x).fails = (s.pair x).fails + 1 ∧ (s'.pair x).pgenOut = ((s.pair x).pgenOut + 1) % 16 ∧
        (s'.pair x).out = [{ e with sent := false, again := true, via := none, since := s.cycle }] ∧
        s'.threads = s.threads) ∧
      (∀ i q u, s.utmo ≤ (s.pair x).fails + 1 → e.wc = none → e.req = some i → s.req? i = some q → q.done = false →
        q.op ≠ .pgreq → q.who = .thread u → (s.th u).slot = u → (s.th u).st = .run → (∃ ty d, q.form = .lane ty u d) →
        (∃ y ∈ s.threads, y.slot = u) → (∀ y ∈ s.fab.wc, y.peer ≠ x) →
        ∃ s', exec (.pathTimeout x) s = .next s' ∧ (s'.pair x).unreach = true ∧ (s'.pair x).out = [] ∧
          s'.req? i = none ∧ ∃ y ∈ (s'.th u).defer, y.cause = .fabric ∧ y.addr = BitVec.ofNat 64 q.va)) ∧
    ((s.fab.slotLost = true ∨ 5 * (s.cycle - s.fab.slotAt) < 24064) → exec .slotClockLost s = .next s) ∧
    (s.fab.slotLost = false → 24064 ≤ 5 * (s.cycle - s.fab.slotAt) → ∃ s', exec .slotClockLost s = .next s' ∧
      s'.fab.slotLost = true ∧ s'.fab.lostSlots = 2 ∧ s'.fab.goodPulses = 0 ∧
      ∀ y ∈ s'.fab.ports, y.trained = false ∧ y.far = none) ∧
    ((s.fab.slotLost = false ∨ s.fab.goodPulses < 8 ∨ 60160 ≤ 25 * (s.cycle - s.fab.pulseAt)) →
      exec .slotClockRegained s = .next s) ∧
    (s.fab.slotLost = true → 8 ≤ s.fab.goodPulses → 25 * (s.cycle - s.fab.pulseAt) < 60160 →
      ∃ s', exec .slotClockRegained s = .next s' ∧ s'.fab.slotLost = false ∧ s'.fab.slotCycle = s.fab.slotCycle ∧
        s'.fab.slot = 0 ∧ s'.fab.slotAt = s.fab.pulseAt) ∧
    (∀ (long : Bool) (sl : Nat), sl = (if long then 0 else (s.fab.slot + 1) % 8) →
      (s.fab.slotLost = false → ∃ s', exec (.slotrefEdge long) s = .next s' ∧ s'.fab.slot = sl ∧
        s'.fab.slotCycle = s.fab.slotCycle + (if long then 1 else 0) ∧
        s'.fab.slotAt = s.cycle ∧ (∀ y ∈ s'.fab.ports, y.trained = false ∧ y.far = none ∧ y.sent = 0)) ∧
      (s.fab.slotLost = true → exec (.slotrefEdge long) s = .next (if long then
        s.setFab { s.fab with goodPulses := s.fab.goodPulses + 1, pulseAt := s.cycle } else s))) ∧
    (s.fab.slotLost = false → exec .ownClockSlotStep s = .next s) ∧
    (s.fab.slotLost = true → ∃ s', exec .ownClockSlotStep s = .next s' ∧ s'.fab.slot = (s.fab.slot + 1) % 8 ∧
      s'.fab.slotCycle = s.fab.slotCycle + (if s.fab.slot = 7 then 1 else 0) ∧
      s'.fab.lostSlots = s.fab.lostSlots + 1 ∧
      (s.fab.lostSlots = 63 → x < 64 → x ≠ s.fab.node → (s.pair x).out ≠ [] →
        (s'.pair x).unreach = true)) ∧
    (p < s.fab.ports.length → p < 8 → j < 16 → exec (.wavelengthFailure p j) s = .next (s.setFab { s.fab with
      ports := updAt s.fab.ports p fun y => { y with badWl := setAt y.badWl j true } })) ∧
    (p < 4 → s.fab.linkUp.length = 4 →
      (s.fab.linkUp.getD p false = false →
        (∀ q, exec (.ualinkRequest p q) s = .next s) ∧ exec (.ualinkLinkDown p) s = .next s) ∧
      (s.fab.linkUp.getD p false = true →
        (∀ k, ∃ s', exec (.ualinkRequest p (.other k)) s = .next s' ∧
          s'.fab.ualResp = s.fab.ualResp ++ [(p, 2 * s.nextId, .unknown k)] ∧ s'.reqs = s.reqs) ∧
        (∀ va n ctx, n = 0 ∨ 256 < n → ∃ s', exec (.ualinkRequest p (.read va n ctx)) s = .next s' ∧
          s'.fab.ualResp = s.fab.ualResp ++ [(p, 2 * s.nextId, .unknown 0)] ∧ s'.reqs = s.reqs) ∧
        (∀ va n ctx leaf pa, 1 ≤ n → va < 2 ^ 48 → va % 128 + n ≤ 128 → s.hasCtx ctx = true →
          (s.cx ctx).killing = none → s.fab.incoming = [] → s.joined (.ual p (2 * s.nextId)) = false →
          s.tlbHit .remote ctx va = some leaf → pa = leaf.pa + va % State.pageBytes leaf.sz →
          ∃ s' z, exec (.ualinkRequest p (.read va n ctx)) s = .next s' ∧ s'.reqs = s.reqs ++ [z] ∧
            z.who = .ual p (2 * s.nextId) ∧ z.op = .load ∧ z.loc = locOf pa ∧ z.size = n ∧ z.ctx = ctx ∧
            s'.threads = s.threads ∧ s'.mem = s.mem) ∧
        (∃ s', exec (.ualinkLinkDown p) s = .next s' ∧ s'.fab.linkUp = setAt s.fab.linkUp p false ∧
          ∀ u ∈ s'.fab.ual, u.port ≠ p)) ∧
      exec (.ualinkLinkUp p) s = .next (s.setFab { s.fab with linkUp := setAt s.fab.linkUp p true })) ∧
    (∀ u i q t ty d b, s.fab.ual = [u] → u.id = r → u.carried = false → State.ualNative u.body = true → u.wc = none →
      u.req = some i → s.req? i = some q → q.done = false → q.id ≠ 0 → q.op = .load → q.who = .thread t →
      q.form = .lane ty t d → tySize ty ≤ 4 → ∃ s', exec (.ualinkResponse r 0 b) s = .next s' ∧ s'.fab.ual = [] ∧
        s'.reqs = s.reqs.filter (fun y => y.id != i) ∧ ∀ y ∈ s.pend, y.req = i → y.dst = .reg t d →
          { y with val := .reg ⟨BitVec.ofNat 32 (extInt ty (leNat b)), Tag.zero⟩ } ∈ s'.pend) ∧
    (∀ q a t, s.req? r = some q → q.loc = .host a → q.who = .thread t →
      (s.reqReady q = false → ∀ ok, exec (.hostCompletion r ok) s = .next s ∧ exec (.hostCompletionTimeout r) s = .next s) ∧
      (s.reqReady q = true → q.parts = [] → q.id ≠ 0 →
        (∀ ty d, q.op = .load → q.form = .lane ty t d → q.size = tySize ty → tySize ty ≤ 4 →
          ∃ s', exec (.hostCompletion r true) s = .next s' ∧ s'.reqs = s.reqs.filter (fun y => y.id != r) ∧
            s'.mem = s.mem ∧ ∀ y ∈ s.pend, y.req = r → y.dst = .reg t d →
              { y with val := .reg ⟨BitVec.ofNat 32 (extInt ty (leNat (s.rdBytes a q.size))), Tag.zero⟩ } ∈ s'.pend) ∧
        (∀ op ty v ret, q.op = .atom op ty v ret → (s.th t).slot = t → (s.th t).st = .run →
          (∃ y ∈ s.threads, y.slot = t) → (∀ f l m, q.form ≠ .fe t f l m) → (∀ i l, q.form ≠ .planeRec i t l) →
          ∃ s', exec (.hostCompletion r false) s = .next s' ∧ s'.reqs = s.reqs.filter (fun y => y.id != r) ∧
            ∃ y ∈ (s'.th t).defer, y.cause = .prot ∧ y.addr = BitVec.ofNat 64 q.va) ∧
        (q.op ≠ .pgreq → s.hasCtx (s.ctxOfThread t) = true → (s.cx (s.ctxOfThread t)).killing = none →
          ∃ s', exec (.hostCompletionTimeout r) s = .next s' ∧ (s'.cx (s.ctxOfThread t)).killing ≠ none))) ∧
    ((s.teamsOn c ≠ [] ∨ (∃ q ∈ s.reqs, q.core = c)) → exec (.corePowerGate c) s = .next s) ∧
    (s.teamsOn c = [] → (∀ q ∈ s.reqs, q.core ≠ c) → (∀ o ∈ s.ops, o.core ≠ c) → (∃ k ∈ s.cores, k.idx = c) →
      ∃ s', exec (.corePowerGate c) s = .next s' ∧ (s'.co c).gated = true ∧ (s'.co c).l1 = [] ∧ NoTlb s' c ∧
        s'.mem = s.mem) ∧
    ((s.co c).gated = false → exec (.coreWake c) s = .next s) ∧
    ((s.co c).gated = true → (∃ k ∈ s.cores, k.idx = c) → ∃ s', exec (.coreWake c) s = .next s' ∧
      (s'.co c).gated = false ∧ NoTlb s' c ∧ s'.mem = s.mem) ∧
    exec (.debuggerHalt c) s = .next (s.updCore c fun k => { k with halted := true }) ∧
    exec (.debuggerResume c) s = .next (s.updCore c fun k => { k with halted := false })

/-! ## Encoding, the step, reset, the invariant -/

namespace Sys2Proof.Says

/-- The guard always; a header without an extension word; one with it. -/
def h0 : Hdr := ⟨false, false, Guard.always⟩
def hx : Hdr := ⟨false, true, Guard.always⟩
/-- The state in which an agenda act is performed: time has passed and the ages of readiness are up to date. -/
def atAct (s : State) (dt : Nat) (l : List Sched) : State := (s.setAgenda l).elapse dt
/-- The picker's view while the resources in `busy` are taken (R205). -/
def taken (s : State) (busy : List Res) : State := s.setCur { s.cur with busy := busy }
/-- The picker's bundle k is the one that issues. -/
def picked (s : State) (c q : Nat) (k : State.Cand) : State :=
  ((s.pickedAt c q).issued c q k).setCur
    { core := c, quad := q, threads := k.threads, pc := k.pc, len := 4, last := [], busy := [] }
/-- The act in which quadrant q of core c issues while the resources in `busy` are taken. -/
def issueAct (c q : Nat) (busy : List Res) : Act := if busy = [] then .issue c q else .issueBusy c q busy
/-- Thread t fetches the word w at address a, on this package, whose page both its instruction TLBs hold, executable: the
word in its quadrant's instruction cache, else the four bytes at the page's place, which the cache then holds. -/
def WordAt (s : State) (t a w : Nat) (s' : State) : Prop :=
  a < 2 ^ 54 ∧ s.isLocal (s.ctxOfThread t) a = true ∧ ∃ leaf pa,
    s.tlbHit (.instr (State.coreOf t) (State.quadOf t)) (s.ctxOfThread t) (State.vaOf a) = some leaf ∧
    s.tlbHit (.core (State.coreOf t)) (s.ctxOfThread t) (State.vaOf a) = some leaf ∧
    leaf.x = true ∧ pa = leaf.pa + State.vaOf a % State.pageBytes leaf.sz ∧
    ((s.cachedWord (State.coreOf t) (State.quadOf t) (s.ctxOfThread t) (State.vaOf a) = some w ∧ s' = s) ∨
     (s.cachedWord (State.coreOf t) (State.quadOf t) (s.ctxOfThread t) (State.vaOf a) = none ∧
      pa < Config.hostBase ∧ s.ueAt pa = false ∧ w = leNat (s.rdBytes pa 4) ∧
      s' = (s.l2Touch pa 4 leaf.cp leaf.pl .none false false leaf.feb false).cacheWord (State.coreOf t) (State.quadOf t)
        (s.ctxOfThread t) (State.vaOf a) w))
/-- Bundle k has the instruction i of n bytes at its pc: the words there decode to it; s' is the machine after the
fetch. -/
def FetchIs (s : State) (k : State.Cand) (i : Instr) (n : Nat) (s' : State) : Prop :=
  ∃ w e s1, WordAt s (k.threads.headD 0) k.pc.toNat w s1 ∧ n = instrLen w ∧
    decodeWords w (if n = 8 then e else 0) = some i ∧
    (if n = 8 then WordAt (s1.setCur { s1.cur with len := 8 }) (k.threads.headD 0) ((k.pc.toNat + 4) % 2 ^ 64) e s'
     else s' = s1.setCur { s1.cur with len := n })

end Sys2Proof.Says

/-- R224, R226 to R241: for every instruction with an encoding and every operand that its encoding admits, the bytes of
the encoding decode to it and leave what stands after them; what decodes is well-formed. -/
def Obligations.DecodeEncode : Prop :=
  ∀ (i : Instr) (b rest : List Byte),
    (i.wf = true → encode i = some b → decode (b ++ rest) = some (i, rest)) ∧
    (decode b = some (i, rest) → i.wf = true ∧ (encode i).isSome = true)

/-- R226, R227, R240, R241: words written out from the layouts decode to the instructions they stand for, and a word
with a reserved bit set, or an opcode of no instruction, to none. -/
def Obligations.DecodeWords : Prop :=
  decodeWords 0x00000000 0 = some (.nop h0) ∧
  decodeWords 0x0042860E 0 = some (.add h0 .wrap .s32 5 6 (.reg 7)) ∧
  decodeWords 0x28C08206 0x18908001 = some (.ffma ⟨false, true, ⟨false, some 3⟩⟩ .rz .f16 1 2 3 4) ∧
  decodeWords 0x30420212 0x796010FE = some (.st hx ⟨.sync, .w64, .dev, .none, -2⟩ 4 2 (some 9)) ∧
  decodeWords 0x10028601 0 = some (.ld h0 ⟨.plain, .s32, .thr, .none, 0⟩ 5 6 none) ∧
  decodeWords 0x1B4000FF 0 = some (.trap h0 (-1)) ∧
  decodeWords 0x3C00000E 0x78000076 = some (.mma hx ⟨3, some 5⟩ 7) ∧
  decodeWords 0x804082FF 0 = some (.uadd h0 false 1 2 (.imm (-1))) ∧
  decodeWords 0xA87FFFF8 0x7800A000 = some (.uloop hx (-4) 5) ∧
  decodeWords 0x00008000 0 = none ∧ decodeWords 0x1FC00000 0 = none ∧ decodeWords 0x2042860E 0x60000000 = none

/-- R205, R206, R224, R242, R321: an issue of the agenda runs, for the bundle that the picker chose, the instruction
whose words stand at its pc, once its groups have converged where the instruction asks for it; a quadrant issues once in
a cycle; words that decode to none raise ILLOP; an event runs as itself, and a host write stores. -/
def Obligations.StepRunsDecoded : Prop :=
  ∀ (s s1 s2 s3 s4 : State) (dt c q n w pa : Nat) (l : List Sched) (k : State.Cand) (i : Instr) (d : List Byte)
      (busy : List Res),
    s1 = atAct s dt l →
    (s.agenda = ⟨dt, issueAct c q busy⟩ :: l → s1.dev.power = true →
      (s1.cycle < (s1.co c).next.getD q 0 → step s = .next s1) ∧
      ((s1.co c).next.getD q 0 ≤ s1.cycle → (taken s1 busy).pick c q = none → step s = .next (taken s1 [])) ∧
      ((s1.co c).next.getD q 0 ≤ s1.cycle → (taken s1 busy).pick c q = some k → s2 = picked (taken s1 busy) c q k →
        (FetchIs s2 k i n s3 →
          (State.isConv i = false → step s = exec i s3) ∧
          (State.isConv i = true → s3.converge = (s4, true) → step s = exec i s4) ∧
          (State.isConv i = true → s3.converge = (s4, false) → step s = .next s4)) ∧
        (WordAt s2 (k.threads.headD 0) k.pc.toNat w s3 → bitOf w 29 = false → decodeWords w 0 = none →
          (State.uniWord w = false → step s = .next (k.threads.foldl (fun x t => x.raise t .illop 0) s3)) ∧
          (State.uniWord w = true → s3.converge = (s4, true) → step s = .next (s4.raiseGrp .illop 0))))) ∧
    (s.agenda = ⟨dt, .event i⟩ :: l → s1.dev.power = true → (toRaw i = none → step s = exec i s1) ∧
      ((toRaw i).isSome = true → step s = .next s1)) ∧
    (s.agenda = ⟨dt, .hostWrite pa d⟩ :: l → s1.dev.power = true →
      (s1.dev.bootfail = false ∨ Config.hostBase ≤ pa → step s = .next (s1.hostStore pa d)) ∧
      (s1.dev.bootfail = true → pa < Config.hostBase → step s = .next s1)) ∧
    (s.agenda = ⟨dt, .idle⟩ :: l → step s = .next s1) ∧
    (s.agenda = [] → s.dev.power = false → step s = .fault .noPower)

/-- R30, R35, R434, R404, R423, R418: what the spec says that package reset leaves, and the invariant of
StepKeepsInvariant. -/
def Obligations.ResetValues : Prop :=
  State.reset.cycle = 0 ∧ (∀ c < 192, (State.reset.co c).ways = 4 ∧ (State.reset.co c).l1 = []) ∧
  State.reset.cp.quant = 2000 ∧ State.reset.cp.jseq = 0 ∧ State.reset.cp.jnl.prod = 0 ∧
  (∀ p sl, p < 8 → sl < 8 → State.reset.fab.cal[8 * p + sl]? = some (0x3F, 2)) ∧ State.reset.fab.en = false ∧
  State.reset.mgmtRead 0 4 = 0x56320A51 ∧ State.reset.ctxs = [] ∧ State.reset.threads = [] ∧
  Safety.Inv State.reset

/-- Every step keeps canonical memories, the bits of L2 lines, fresh names and a bundle without repeats. -/
def Obligations.StepKeepsInvariant : Prop :=
  ∀ s s', Safety.Inv s → step s = .next s' → Safety.Inv s'
end

