-- ==== Sys2Proof/Laws/State.lean ====
section
/-! SUPPORT. What each named update of the state does to each field: one lemma per field per update. -/

namespace Sys2Proof.Machine.State

@[simp] theorem updThread_cycle (s : State) (t : Nat) (f : Thread → Thread) : (s.updThread t f).cycle = s.cycle := rfl
@[simp] theorem updThread_dev (s : State) (t : Nat) (f : Thread → Thread) : (s.updThread t f).dev = s.dev := rfl
@[simp] theorem updThread_ctxs (s : State) (t : Nat) (f : Thread → Thread) : (s.updThread t f).ctxs = s.ctxs := rfl
@[simp] theorem updThread_teams (s : State) (t : Nat) (f : Thread → Thread) : (s.updThread t f).teams = s.teams := rfl
@[simp] theorem updThread_groups (s : State) (t : Nat) (f : Thread → Thread) : (s.updThread t f).groups = s.groups := rfl
@[simp] theorem updThread_threads (s : State) (t : Nat) (f : Thread → Thread) : (s.updThread t f).threads = s.threads.map fun x => if x.slot = t then f x else x := rfl
@[simp] theorem updThread_cores (s : State) (t : Nat) (f : Thread → Thread) : (s.updThread t f).cores = s.cores := rfl
@[simp] theorem updThread_mem (s : State) (t : Nat) (f : Thread → Thread) : (s.updThread t f).mem = s.mem := rfl
@[simp] theorem updThread_spad (s : State) (t : Nat) (f : Thread → Thread) : (s.updThread t f).spad = s.spad := rfl
@[simp] theorem updThread_spadE (s : State) (t : Nat) (f : Thread → Thread) : (s.updThread t f).spadE = s.spadE := rfl
@[simp] theorem updThread_acc (s : State) (t : Nat) (f : Thread → Thread) : (s.updThread t f).acc = s.acc := rfl
@[simp] theorem updThread_ue (s : State) (t : Nat) (f : Thread → Thread) : (s.updThread t f).ue = s.ue := rfl
@[simp] theorem updThread_ce (s : State) (t : Nat) (f : Thread → Thread) : (s.updThread t f).ce = s.ce := rfl
@[simp] theorem updThread_l2 (s : State) (t : Nat) (f : Thread → Thread) : (s.updThread t f).l2 = s.l2 := rfl
@[simp] theorem updThread_tlb (s : State) (t : Nat) (f : Thread → Thread) : (s.updThread t f).tlb = s.tlb := rfl
@[simp] theorem updThread_walks (s : State) (t : Nat) (f : Thread → Thread) : (s.updThread t f).walks = s.walks := rfl
@[simp] theorem updThread_code (s : State) (t : Nat) (f : Thread → Thread) : (s.updThread t f).code = s.code := rfl
@[simp] theorem updThread_flt (s : State) (t : Nat) (f : Thread → Thread) : (s.updThread t f).flt = s.flt := rfl
@[simp] theorem updThread_waits (s : State) (t : Nat) (f : Thread → Thread) : (s.updThread t f).waits = s.waits := rfl
@[simp] theorem updThread_wakes (s : State) (t : Nat) (f : Thread → Thread) : (s.updThread t f).wakes = s.wakes := rfl
@[simp] theorem updThread_sweeps (s : State) (t : Nat) (f : Thread → Thread) : (s.updThread t f).sweeps = s.sweeps := rfl
@[simp] theorem updThread_reqs (s : State) (t : Nat) (f : Thread → Thread) : (s.updThread t f).reqs = s.reqs := rfl
@[simp] theorem updThread_pend (s : State) (t : Nat) (f : Thread → Thread) : (s.updThread t f).pend = s.pend := rfl
@[simp] theorem updThread_ops (s : State) (t : Nat) (f : Thread → Thread) : (s.updThread t f).ops = s.ops := rfl
@[simp] theorem updThread_cp (s : State) (t : Nat) (f : Thread → Thread) : (s.updThread t f).cp = s.cp := rfl
@[simp] theorem updThread_saved (s : State) (t : Nat) (f : Thread → Thread) : (s.updThread t f).saved = s.saved := rfl
@[simp] theorem updThread_fab (s : State) (t : Nat) (f : Thread → Thread) : (s.updThread t f).fab = s.fab := rfl
@[simp] theorem updThread_cur (s : State) (t : Nat) (f : Thread → Thread) : (s.updThread t f).cur = s.cur := rfl
@[simp] theorem updThread_agenda (s : State) (t : Nat) (f : Thread → Thread) : (s.updThread t f).agenda = s.agenda := rfl
@[simp] theorem updThread_nextId (s : State) (t : Nat) (f : Thread → Thread) : (s.updThread t f).nextId = s.nextId := rfl
@[simp] theorem updGroup_cycle (s : State) (g : Nat) (f : Group → Group) : (s.updGroup g f).cycle = s.cycle := rfl
@[simp] theorem updGroup_dev (s : State) (g : Nat) (f : Group → Group) : (s.updGroup g f).dev = s.dev := rfl
@[simp] theorem updGroup_ctxs (s : State) (g : Nat) (f : Group → Group) : (s.updGroup g f).ctxs = s.ctxs := rfl
@[simp] theorem updGroup_teams (s : State) (g : Nat) (f : Group → Group) : (s.updGroup g f).teams = s.teams := rfl
@[simp] theorem updGroup_groups (s : State) (g : Nat) (f : Group → Group) : (s.updGroup g f).groups = s.groups.map fun x => if x.gslot = g then f x else x := rfl
@[simp] theorem updGroup_threads (s : State) (g : Nat) (f : Group → Group) : (s.updGroup g f).threads = s.threads := rfl
@[simp] theorem updGroup_cores (s : State) (g : Nat) (f : Group → Group) : (s.updGroup g f).cores = s.cores := rfl
@[simp] theorem updGroup_mem (s : State) (g : Nat) (f : Group → Group) : (s.updGroup g f).mem = s.mem := rfl
@[simp] theorem updGroup_spad (s : State) (g : Nat) (f : Group → Group) : (s.updGroup g f).spad = s.spad := rfl
@[simp] theorem updGroup_spadE (s : State) (g : Nat) (f : Group → Group) : (s.updGroup g f).spadE = s.spadE := rfl
@[simp] theorem updGroup_acc (s : State) (g : Nat) (f : Group → Group) : (s.updGroup g f).acc = s.acc := rfl
@[simp] theorem updGroup_ue (s : State) (g : Nat) (f : Group → Group) : (s.updGroup g f).ue = s.ue := rfl
@[simp] theorem updGroup_ce (s : State) (g : Nat) (f : Group → Group) : (s.updGroup g f).ce = s.ce := rfl
@[simp] theorem updGroup_l2 (s : State) (g : Nat) (f : Group → Group) : (s.updGroup g f).l2 = s.l2 := rfl
@[simp] theorem updGroup_tlb (s : State) (g : Nat) (f : Group → Group) : (s.updGroup g f).tlb = s.tlb := rfl
@[simp] theorem updGroup_walks (s : State) (g : Nat) (f : Group → Group) : (s.updGroup g f).walks = s.walks := rfl
@[simp] theorem updGroup_code (s : State) (g : Nat) (f : Group → Group) : (s.updGroup g f).code = s.code := rfl
@[simp] theorem updGroup_flt (s : State) (g : Nat) (f : Group → Group) : (s.updGroup g f).flt = s.flt := rfl
@[simp] theorem updGroup_waits (s : State) (g : Nat) (f : Group → Group) : (s.updGroup g f).waits = s.waits := rfl
@[simp] theorem updGroup_wakes (s : State) (g : Nat) (f : Group → Group) : (s.updGroup g f).wakes = s.wakes := rfl
@[simp] theorem updGroup_sweeps (s : State) (g : Nat) (f : Group → Group) : (s.updGroup g f).sweeps = s.sweeps := rfl
@[simp] theorem updGroup_reqs (s : State) (g : Nat) (f : Group → Group) : (s.updGroup g f).reqs = s.reqs := rfl
@[simp] theorem updGroup_pend (s : State) (g : Nat) (f : Group → Group) : (s.updGroup g f).pend = s.pend := rfl
@[simp] theorem updGroup_ops (s : State) (g : Nat) (f : Group → Group) : (s.updGroup g f).ops = s.ops := rfl
@[simp] theorem updGroup_cp (s : State) (g : Nat) (f : Group → Group) : (s.updGroup g f).cp = s.cp := rfl
@[simp] theorem updGroup_saved (s : State) (g : Nat) (f : Group → Group) : (s.updGroup g f).saved = s.saved := rfl
@[simp] theorem updGroup_fab (s : State) (g : Nat) (f : Group → Group) : (s.updGroup g f).fab = s.fab := rfl
@[simp] theorem updGroup_cur (s : State) (g : Nat) (f : Group → Group) : (s.updGroup g f).cur = s.cur := rfl
@[simp] theorem updGroup_agenda (s : State) (g : Nat) (f : Group → Group) : (s.updGroup g f).agenda = s.agenda := rfl
@[simp] theorem updGroup_nextId (s : State) (g : Nat) (f : Group → Group) : (s.updGroup g f).nextId = s.nextId := rfl
@[simp] theorem updTeam_cycle (s : State) (u : Nat) (f : Team → Team) : (s.updTeam u f).cycle = s.cycle := rfl
@[simp] theorem updTeam_dev (s : State) (u : Nat) (f : Team → Team) : (s.updTeam u f).dev = s.dev := rfl
@[simp] theorem updTeam_ctxs (s : State) (u : Nat) (f : Team → Team) : (s.updTeam u f).ctxs = s.ctxs := rfl
@[simp] theorem updTeam_teams (s : State) (u : Nat) (f : Team → Team) : (s.updTeam u f).teams = s.teams.map fun x => if x.uid = u then f x else x := rfl
@[simp] theorem updTeam_groups (s : State) (u : Nat) (f : Team → Team) : (s.updTeam u f).groups = s.groups := rfl
@[simp] theorem updTeam_threads (s : State) (u : Nat) (f : Team → Team) : (s.updTeam u f).threads = s.threads := rfl
@[simp] theorem updTeam_cores (s : State) (u : Nat) (f : Team → Team) : (s.updTeam u f).cores = s.cores := rfl
@[simp] theorem updTeam_mem (s : State) (u : Nat) (f : Team → Team) : (s.updTeam u f).mem = s.mem := rfl
@[simp] theorem updTeam_spad (s : State) (u : Nat) (f : Team → Team) : (s.updTeam u f).spad = s.spad := rfl
@[simp] theorem updTeam_spadE (s : State) (u : Nat) (f : Team → Team) : (s.updTeam u f).spadE = s.spadE := rfl
@[simp] theorem updTeam_acc (s : State) (u : Nat) (f : Team → Team) : (s.updTeam u f).acc = s.acc := rfl
@[simp] theorem updTeam_ue (s : State) (u : Nat) (f : Team → Team) : (s.updTeam u f).ue = s.ue := rfl
@[simp] theorem updTeam_ce (s : State) (u : Nat) (f : Team → Team) : (s.updTeam u f).ce = s.ce := rfl
@[simp] theorem updTeam_l2 (s : State) (u : Nat) (f : Team → Team) : (s.updTeam u f).l2 = s.l2 := rfl
@[simp] theorem updTeam_tlb (s : State) (u : Nat) (f : Team → Team) : (s.updTeam u f).tlb = s.tlb := rfl
@[simp] theorem updTeam_walks (s : State) (u : Nat) (f : Team → Team) : (s.updTeam u f).walks = s.walks := rfl
@[simp] theorem updTeam_code (s : State) (u : Nat) (f : Team → Team) : (s.updTeam u f).code = s.code := rfl
@[simp] theorem updTeam_flt (s : State) (u : Nat) (f : Team → Team) : (s.updTeam u f).flt = s.flt := rfl
@[simp] theorem updTeam_waits (s : State) (u : Nat) (f : Team → Team) : (s.updTeam u f).waits = s.waits := rfl
@[simp] theorem updTeam_wakes (s : State) (u : Nat) (f : Team → Team) : (s.updTeam u f).wakes = s.wakes := rfl
@[simp] theorem updTeam_sweeps (s : State) (u : Nat) (f : Team → Team) : (s.updTeam u f).sweeps = s.sweeps := rfl
@[simp] theorem updTeam_reqs (s : State) (u : Nat) (f : Team → Team) : (s.updTeam u f).reqs = s.reqs := rfl
@[simp] theorem updTeam_pend (s : State) (u : Nat) (f : Team → Team) : (s.updTeam u f).pend = s.pend := rfl
@[simp] theorem updTeam_ops (s : State) (u : Nat) (f : Team → Team) : (s.updTeam u f).ops = s.ops := rfl
@[simp] theorem updTeam_cp (s : State) (u : Nat) (f : Team → Team) : (s.updTeam u f).cp = s.cp := rfl
@[simp] theorem updTeam_saved (s : State) (u : Nat) (f : Team → Team) : (s.updTeam u f).saved = s.saved := rfl
@[simp] theorem updTeam_fab (s : State) (u : Nat) (f : Team → Team) : (s.updTeam u f).fab = s.fab := rfl
@[simp] theorem updTeam_cur (s : State) (u : Nat) (f : Team → Team) : (s.updTeam u f).cur = s.cur := rfl
@[simp] theorem updTeam_agenda (s : State) (u : Nat) (f : Team → Team) : (s.updTeam u f).agenda = s.agenda := rfl
@[simp] theorem updTeam_nextId (s : State) (u : Nat) (f : Team → Team) : (s.updTeam u f).nextId = s.nextId := rfl
@[simp] theorem updCore_cycle (s : State) (c : Nat) (f : Core → Core) : (s.updCore c f).cycle = s.cycle := rfl
@[simp] theorem updCore_dev (s : State) (c : Nat) (f : Core → Core) : (s.updCore c f).dev = s.dev := rfl
@[simp] theorem updCore_ctxs (s : State) (c : Nat) (f : Core → Core) : (s.updCore c f).ctxs = s.ctxs := rfl
@[simp] theorem updCore_teams (s : State) (c : Nat) (f : Core → Core) : (s.updCore c f).teams = s.teams := rfl
@[simp] theorem updCore_groups (s : State) (c : Nat) (f : Core → Core) : (s.updCore c f).groups = s.groups := rfl
@[simp] theorem updCore_threads (s : State) (c : Nat) (f : Core → Core) : (s.updCore c f).threads = s.threads := rfl
@[simp] theorem updCore_cores (s : State) (c : Nat) (f : Core → Core) : (s.updCore c f).cores = s.cores.map fun x => if x.idx = c then f x else x := rfl
@[simp] theorem updCore_mem (s : State) (c : Nat) (f : Core → Core) : (s.updCore c f).mem = s.mem := rfl
@[simp] theorem updCore_spad (s : State) (c : Nat) (f : Core → Core) : (s.updCore c f).spad = s.spad := rfl
@[simp] theorem updCore_spadE (s : State) (c : Nat) (f : Core → Core) : (s.updCore c f).spadE = s.spadE := rfl
@[simp] theorem updCore_acc (s : State) (c : Nat) (f : Core → Core) : (s.updCore c f).acc = s.acc := rfl
@[simp] theorem updCore_ue (s : State) (c : Nat) (f : Core → Core) : (s.updCore c f).ue = s.ue := rfl
@[simp] theorem updCore_ce (s : State) (c : Nat) (f : Core → Core) : (s.updCore c f).ce = s.ce := rfl
@[simp] theorem updCore_l2 (s : State) (c : Nat) (f : Core → Core) : (s.updCore c f).l2 = s.l2 := rfl
@[simp] theorem updCore_tlb (s : State) (c : Nat) (f : Core → Core) : (s.updCore c f).tlb = s.tlb := rfl
@[simp] theorem updCore_walks (s : State) (c : Nat) (f : Core → Core) : (s.updCore c f).walks = s.walks := rfl
@[simp] theorem updCore_code (s : State) (c : Nat) (f : Core → Core) : (s.updCore c f).code = s.code := rfl
@[simp] theorem updCore_flt (s : State) (c : Nat) (f : Core → Core) : (s.updCore c f).flt = s.flt := rfl
@[simp] theorem updCore_waits (s : State) (c : Nat) (f : Core → Core) : (s.updCore c f).waits = s.waits := rfl
@[simp] theorem updCore_wakes (s : State) (c : Nat) (f : Core → Core) : (s.updCore c f).wakes = s.wakes := rfl
@[simp] theorem updCore_sweeps (s : State) (c : Nat) (f : Core → Core) : (s.updCore c f).sweeps = s.sweeps := rfl
@[simp] theorem updCore_reqs (s : State) (c : Nat) (f : Core → Core) : (s.updCore c f).reqs = s.reqs := rfl
@[simp] theorem updCore_pend (s : State) (c : Nat) (f : Core → Core) : (s.updCore c f).pend = s.pend := rfl
@[simp] theorem updCore_ops (s : State) (c : Nat) (f : Core → Core) : (s.updCore c f).ops = s.ops := rfl
@[simp] theorem updCore_cp (s : State) (c : Nat) (f : Core → Core) : (s.updCore c f).cp = s.cp := rfl
@[simp] theorem updCore_saved (s : State) (c : Nat) (f : Core → Core) : (s.updCore c f).saved = s.saved := rfl
@[simp] theorem updCore_fab (s : State) (c : Nat) (f : Core → Core) : (s.updCore c f).fab = s.fab := rfl
@[simp] theorem updCore_cur (s : State) (c : Nat) (f : Core → Core) : (s.updCore c f).cur = s.cur := rfl
@[simp] theorem updCore_agenda (s : State) (c : Nat) (f : Core → Core) : (s.updCore c f).agenda = s.agenda := rfl
@[simp] theorem updCore_nextId (s : State) (c : Nat) (f : Core → Core) : (s.updCore c f).nextId = s.nextId := rfl
@[simp] theorem updCtx_cycle (s : State) (i : Nat) (f : Ctx → Ctx) : (s.updCtx i f).cycle = s.cycle := rfl
@[simp] theorem updCtx_dev (s : State) (i : Nat) (f : Ctx → Ctx) : (s.updCtx i f).dev = s.dev := rfl
@[simp] theorem updCtx_ctxs (s : State) (i : Nat) (f : Ctx → Ctx) : (s.updCtx i f).ctxs = s.ctxs.map fun x => if x.id = i then f x else x := rfl
@[simp] theorem updCtx_teams (s : State) (i : Nat) (f : Ctx → Ctx) : (s.updCtx i f).teams = s.teams := rfl
@[simp] theorem updCtx_groups (s : State) (i : Nat) (f : Ctx → Ctx) : (s.updCtx i f).groups = s.groups := rfl
@[simp] theorem updCtx_threads (s : State) (i : Nat) (f : Ctx → Ctx) : (s.updCtx i f).threads = s.threads := rfl
@[simp] theorem updCtx_cores (s : State) (i : Nat) (f : Ctx → Ctx) : (s.updCtx i f).cores = s.cores := rfl
@[simp] theorem updCtx_mem (s : State) (i : Nat) (f : Ctx → Ctx) : (s.updCtx i f).mem = s.mem := rfl
@[simp] theorem updCtx_spad (s : State) (i : Nat) (f : Ctx → Ctx) : (s.updCtx i f).spad = s.spad := rfl
@[simp] theorem updCtx_spadE (s : State) (i : Nat) (f : Ctx → Ctx) : (s.updCtx i f).spadE = s.spadE := rfl
@[simp] theorem updCtx_acc (s : State) (i : Nat) (f : Ctx → Ctx) : (s.updCtx i f).acc = s.acc := rfl
@[simp] theorem updCtx_ue (s : State) (i : Nat) (f : Ctx → Ctx) : (s.updCtx i f).ue = s.ue := rfl
@[simp] theorem updCtx_ce (s : State) (i : Nat) (f : Ctx → Ctx) : (s.updCtx i f).ce = s.ce := rfl
@[simp] theorem updCtx_l2 (s : State) (i : Nat) (f : Ctx → Ctx) : (s.updCtx i f).l2 = s.l2 := rfl
@[simp] theorem updCtx_tlb (s : State) (i : Nat) (f : Ctx → Ctx) : (s.updCtx i f).tlb = s.tlb := rfl
@[simp] theorem updCtx_walks (s : State) (i : Nat) (f : Ctx → Ctx) : (s.updCtx i f).walks = s.walks := rfl
@[simp] theorem updCtx_code (s : State) (i : Nat) (f : Ctx → Ctx) : (s.updCtx i f).code = s.code := rfl
@[simp] theorem updCtx_flt (s : State) (i : Nat) (f : Ctx → Ctx) : (s.updCtx i f).flt = s.flt := rfl
@[simp] theorem updCtx_waits (s : State) (i : Nat) (f : Ctx → Ctx) : (s.updCtx i f).waits = s.waits := rfl
@[simp] theorem updCtx_wakes (s : State) (i : Nat) (f : Ctx → Ctx) : (s.updCtx i f).wakes = s.wakes := rfl
@[simp] theorem updCtx_sweeps (s : State) (i : Nat) (f : Ctx → Ctx) : (s.updCtx i f).sweeps = s.sweeps := rfl
@[simp] theorem updCtx_reqs (s : State) (i : Nat) (f : Ctx → Ctx) : (s.updCtx i f).reqs = s.reqs := rfl
@[simp] theorem updCtx_pend (s : State) (i : Nat) (f : Ctx → Ctx) : (s.updCtx i f).pend = s.pend := rfl
@[simp] theorem updCtx_ops (s : State) (i : Nat) (f : Ctx → Ctx) : (s.updCtx i f).ops = s.ops := rfl
@[simp] theorem updCtx_cp (s : State) (i : Nat) (f : Ctx → Ctx) : (s.updCtx i f).cp = s.cp := rfl
@[simp] theorem updCtx_saved (s : State) (i : Nat) (f : Ctx → Ctx) : (s.updCtx i f).saved = s.saved := rfl
@[simp] theorem updCtx_fab (s : State) (i : Nat) (f : Ctx → Ctx) : (s.updCtx i f).fab = s.fab := rfl
@[simp] theorem updCtx_cur (s : State) (i : Nat) (f : Ctx → Ctx) : (s.updCtx i f).cur = s.cur := rfl
@[simp] theorem updCtx_agenda (s : State) (i : Nat) (f : Ctx → Ctx) : (s.updCtx i f).agenda = s.agenda := rfl
@[simp] theorem updCtx_nextId (s : State) (i : Nat) (f : Ctx → Ctx) : (s.updCtx i f).nextId = s.nextId := rfl
@[simp] theorem updOp_cycle (s : State) (o : Nat) (f : Op → Op) : (s.updOp o f).cycle = s.cycle := rfl
@[simp] theorem updOp_dev (s : State) (o : Nat) (f : Op → Op) : (s.updOp o f).dev = s.dev := rfl
@[simp] theorem updOp_ctxs (s : State) (o : Nat) (f : Op → Op) : (s.updOp o f).ctxs = s.ctxs := rfl
@[simp] theorem updOp_teams (s : State) (o : Nat) (f : Op → Op) : (s.updOp o f).teams = s.teams := rfl
@[simp] theorem updOp_groups (s : State) (o : Nat) (f : Op → Op) : (s.updOp o f).groups = s.groups := rfl
@[simp] theorem updOp_threads (s : State) (o : Nat) (f : Op → Op) : (s.updOp o f).threads = s.threads := rfl
@[simp] theorem updOp_cores (s : State) (o : Nat) (f : Op → Op) : (s.updOp o f).cores = s.cores := rfl
@[simp] theorem updOp_mem (s : State) (o : Nat) (f : Op → Op) : (s.updOp o f).mem = s.mem := rfl
@[simp] theorem updOp_spad (s : State) (o : Nat) (f : Op → Op) : (s.updOp o f).spad = s.spad := rfl
@[simp] theorem updOp_spadE (s : State) (o : Nat) (f : Op → Op) : (s.updOp o f).spadE = s.spadE := rfl
@[simp] theorem updOp_acc (s : State) (o : Nat) (f : Op → Op) : (s.updOp o f).acc = s.acc := rfl
@[simp] theorem updOp_ue (s : State) (o : Nat) (f : Op → Op) : (s.updOp o f).ue = s.ue := rfl
@[simp] theorem updOp_ce (s : State) (o : Nat) (f : Op → Op) : (s.updOp o f).ce = s.ce := rfl
@[simp] theorem updOp_l2 (s : State) (o : Nat) (f : Op → Op) : (s.updOp o f).l2 = s.l2 := rfl
@[simp] theorem updOp_tlb (s : State) (o : Nat) (f : Op → Op) : (s.updOp o f).tlb = s.tlb := rfl
@[simp] theorem updOp_walks (s : State) (o : Nat) (f : Op → Op) : (s.updOp o f).walks = s.walks := rfl
@[simp] theorem updOp_code (s : State) (o : Nat) (f : Op → Op) : (s.updOp o f).code = s.code := rfl
@[simp] theorem updOp_flt (s : State) (o : Nat) (f : Op → Op) : (s.updOp o f).flt = s.flt := rfl
@[simp] theorem updOp_waits (s : State) (o : Nat) (f : Op → Op) : (s.updOp o f).waits = s.waits := rfl
@[simp] theorem updOp_wakes (s : State) (o : Nat) (f : Op → Op) : (s.updOp o f).wakes = s.wakes := rfl
@[simp] theorem updOp_sweeps (s : State) (o : Nat) (f : Op → Op) : (s.updOp o f).sweeps = s.sweeps := rfl
@[simp] theorem updOp_reqs (s : State) (o : Nat) (f : Op → Op) : (s.updOp o f).reqs = s.reqs := rfl
@[simp] theorem updOp_pend (s : State) (o : Nat) (f : Op → Op) : (s.updOp o f).pend = s.pend := rfl
@[simp] theorem updOp_ops (s : State) (o : Nat) (f : Op → Op) : (s.updOp o f).ops = s.ops.map fun x => if x.id = o then f x else x := rfl
@[simp] theorem updOp_cp (s : State) (o : Nat) (f : Op → Op) : (s.updOp o f).cp = s.cp := rfl
@[simp] theorem updOp_saved (s : State) (o : Nat) (f : Op → Op) : (s.updOp o f).saved = s.saved := rfl
@[simp] theorem updOp_fab (s : State) (o : Nat) (f : Op → Op) : (s.updOp o f).fab = s.fab := rfl
@[simp] theorem updOp_cur (s : State) (o : Nat) (f : Op → Op) : (s.updOp o f).cur = s.cur := rfl
@[simp] theorem updOp_agenda (s : State) (o : Nat) (f : Op → Op) : (s.updOp o f).agenda = s.agenda := rfl
@[simp] theorem updOp_nextId (s : State) (o : Nat) (f : Op → Op) : (s.updOp o f).nextId = s.nextId := rfl
@[simp] theorem updReq_cycle (s : State) (r : Nat) (f : Req → Req) : (s.updReq r f).cycle = s.cycle := rfl
@[simp] theorem updReq_dev (s : State) (r : Nat) (f : Req → Req) : (s.updReq r f).dev = s.dev := rfl
@[simp] theorem updReq_ctxs (s : State) (r : Nat) (f : Req → Req) : (s.updReq r f).ctxs = s.ctxs := rfl
@[simp] theorem updReq_teams (s : State) (r : Nat) (f : Req → Req) : (s.updReq r f).teams = s.teams := rfl
@[simp] theorem updReq_groups (s : State) (r : Nat) (f : Req → Req) : (s.updReq r f).groups = s.groups := rfl
@[simp] theorem updReq_threads (s : State) (r : Nat) (f : Req → Req) : (s.updReq r f).threads = s.threads := rfl
@[simp] theorem updReq_cores (s : State) (r : Nat) (f : Req → Req) : (s.updReq r f).cores = s.cores := rfl
@[simp] theorem updReq_mem (s : State) (r : Nat) (f : Req → Req) : (s.updReq r f).mem = s.mem := rfl
@[simp] theorem updReq_spad (s : State) (r : Nat) (f : Req → Req) : (s.updReq r f).spad = s.spad := rfl
@[simp] theorem updReq_spadE (s : State) (r : Nat) (f : Req → Req) : (s.updReq r f).spadE = s.spadE := rfl
@[simp] theorem updReq_acc (s : State) (r : Nat) (f : Req → Req) : (s.updReq r f).acc = s.acc := rfl
@[simp] theorem updReq_ue (s : State) (r : Nat) (f : Req → Req) : (s.updReq r f).ue = s.ue := rfl
@[simp] theorem updReq_ce (s : State) (r : Nat) (f : Req → Req) : (s.updReq r f).ce = s.ce := rfl
@[simp] theorem updReq_l2 (s : State) (r : Nat) (f : Req → Req) : (s.updReq r f).l2 = s.l2 := rfl
@[simp] theorem updReq_tlb (s : State) (r : Nat) (f : Req → Req) : (s.updReq r f).tlb = s.tlb := rfl
@[simp] theorem updReq_walks (s : State) (r : Nat) (f : Req → Req) : (s.updReq r f).walks = s.walks := rfl
@[simp] theorem updReq_code (s : State) (r : Nat) (f : Req → Req) : (s.updReq r f).code = s.code := rfl
@[simp] theorem updReq_flt (s : State) (r : Nat) (f : Req → Req) : (s.updReq r f).flt = s.flt := rfl
@[simp] theorem updReq_waits (s : State) (r : Nat) (f : Req → Req) : (s.updReq r f).waits = s.waits := rfl
@[simp] theorem updReq_wakes (s : State) (r : Nat) (f : Req → Req) : (s.updReq r f).wakes = s.wakes := rfl
@[simp] theorem updReq_sweeps (s : State) (r : Nat) (f : Req → Req) : (s.updReq r f).sweeps = s.sweeps := rfl
@[simp] theorem updReq_reqs (s : State) (r : Nat) (f : Req → Req) : (s.updReq r f).reqs = s.reqs.map fun x => if x.id = r then f x else x := rfl
@[simp] theorem updReq_pend (s : State) (r : Nat) (f : Req → Req) : (s.updReq r f).pend = s.pend := rfl
@[simp] theorem updReq_ops (s : State) (r : Nat) (f : Req → Req) : (s.updReq r f).ops = s.ops := rfl
@[simp] theorem updReq_cp (s : State) (r : Nat) (f : Req → Req) : (s.updReq r f).cp = s.cp := rfl
@[simp] theorem updReq_saved (s : State) (r : Nat) (f : Req → Req) : (s.updReq r f).saved = s.saved := rfl
@[simp] theorem updReq_fab (s : State) (r : Nat) (f : Req → Req) : (s.updReq r f).fab = s.fab := rfl
@[simp] theorem updReq_cur (s : State) (r : Nat) (f : Req → Req) : (s.updReq r f).cur = s.cur := rfl
@[simp] theorem updReq_agenda (s : State) (r : Nat) (f : Req → Req) : (s.updReq r f).agenda = s.agenda := rfl
@[simp] theorem updReq_nextId (s : State) (r : Nat) (f : Req → Req) : (s.updReq r f).nextId = s.nextId := rfl
@[simp] theorem setThreads_cycle (s : State) (v : List Thread) : (s.setThreads v).cycle = s.cycle := rfl
@[simp] theorem setThreads_dev (s : State) (v : List Thread) : (s.setThreads v).dev = s.dev := rfl
@[simp] theorem setThreads_ctxs (s : State) (v : List Thread) : (s.setThreads v).ctxs = s.ctxs := rfl
@[simp] theorem setThreads_teams (s : State) (v : List Thread) : (s.setThreads v).teams = s.teams := rfl
@[simp] theorem setThreads_groups (s : State) (v : List Thread) : (s.setThreads v).groups = s.groups := rfl
@[simp] theorem setThreads_threads (s : State) (v : List Thread) : (s.setThreads v).threads = v := rfl
@[simp] theorem setThreads_cores (s : State) (v : List Thread) : (s.setThreads v).cores = s.cores := rfl
@[simp] theorem setThreads_mem (s : State) (v : List Thread) : (s.setThreads v).mem = s.mem := rfl
@[simp] theorem setThreads_spad (s : State) (v : List Thread) : (s.setThreads v).spad = s.spad := rfl
@[simp] theorem setThreads_spadE (s : State) (v : List Thread) : (s.setThreads v).spadE = s.spadE := rfl
@[simp] theorem setThreads_acc (s : State) (v : List Thread) : (s.setThreads v).acc = s.acc := rfl
@[simp] theorem setThreads_ue (s : State) (v : List Thread) : (s.setThreads v).ue = s.ue := rfl
@[simp] theorem setThreads_ce (s : State) (v : List Thread) : (s.setThreads v).ce = s.ce := rfl
@[simp] theorem setThreads_l2 (s : State) (v : List Thread) : (s.setThreads v).l2 = s.l2 := rfl
@[simp] theorem setThreads_tlb (s : State) (v : List Thread) : (s.setThreads v).tlb = s.tlb := rfl
@[simp] theorem setThreads_walks (s : State) (v : List Thread) : (s.setThreads v).walks = s.walks := rfl
@[simp] theorem setThreads_code (s : State) (v : List Thread) : (s.setThreads v).code = s.code := rfl
@[simp] theorem setThreads_flt (s : State) (v : List Thread) : (s.setThreads v).flt = s.flt := rfl
@[simp] theorem setThreads_waits (s : State) (v : List Thread) : (s.setThreads v).waits = s.waits := rfl
@[simp] theorem setThreads_wakes (s : State) (v : List Thread) : (s.setThreads v).wakes = s.wakes := rfl
@[simp] theorem setThreads_sweeps (s : State) (v : List Thread) : (s.setThreads v).sweeps = s.sweeps := rfl
@[simp] theorem setThreads_reqs (s : State) (v : List Thread) : (s.setThreads v).reqs = s.reqs := rfl
@[simp] theorem setThreads_pend (s : State) (v : List Thread) : (s.setThreads v).pend = s.pend := rfl
@[simp] theorem setThreads_ops (s : State) (v : List Thread) : (s.setThreads v).ops = s.ops := rfl
@[simp] theorem setThreads_cp (s : State) (v : List Thread) : (s.setThreads v).cp = s.cp := rfl
@[simp] theorem setThreads_saved (s : State) (v : List Thread) : (s.setThreads v).saved = s.saved := rfl
@[simp] theorem setThreads_fab (s : State) (v : List Thread) : (s.setThreads v).fab = s.fab := rfl
@[simp] theorem setThreads_cur (s : State) (v : List Thread) : (s.setThreads v).cur = s.cur := rfl
@[simp] theorem setThreads_agenda (s : State) (v : List Thread) : (s.setThreads v).agenda = s.agenda := rfl
@[simp] theorem setThreads_nextId (s : State) (v : List Thread) : (s.setThreads v).nextId = s.nextId := rfl
@[simp] theorem setCores_cycle (s : State) (v : List Core) : (s.setCores v).cycle = s.cycle := rfl
@[simp] theorem setCores_dev (s : State) (v : List Core) : (s.setCores v).dev = s.dev := rfl
@[simp] theorem setCores_ctxs (s : State) (v : List Core) : (s.setCores v).ctxs = s.ctxs := rfl
@[simp] theorem setCores_teams (s : State) (v : List Core) : (s.setCores v).teams = s.teams := rfl
@[simp] theorem setCores_groups (s : State) (v : List Core) : (s.setCores v).groups = s.groups := rfl
@[simp] theorem setCores_threads (s : State) (v : List Core) : (s.setCores v).threads = s.threads := rfl
@[simp] theorem setCores_cores (s : State) (v : List Core) : (s.setCores v).cores = v := rfl
@[simp] theorem setCores_mem (s : State) (v : List Core) : (s.setCores v).mem = s.mem := rfl
@[simp] theorem setCores_spad (s : State) (v : List Core) : (s.setCores v).spad = s.spad := rfl
@[simp] theorem setCores_spadE (s : State) (v : List Core) : (s.setCores v).spadE = s.spadE := rfl
@[simp] theorem setCores_acc (s : State) (v : List Core) : (s.setCores v).acc = s.acc := rfl
@[simp] theorem setCores_ue (s : State) (v : List Core) : (s.setCores v).ue = s.ue := rfl
@[simp] theorem setCores_ce (s : State) (v : List Core) : (s.setCores v).ce = s.ce := rfl
@[simp] theorem setCores_l2 (s : State) (v : List Core) : (s.setCores v).l2 = s.l2 := rfl
@[simp] theorem setCores_tlb (s : State) (v : List Core) : (s.setCores v).tlb = s.tlb := rfl
@[simp] theorem setCores_walks (s : State) (v : List Core) : (s.setCores v).walks = s.walks := rfl
@[simp] theorem setCores_code (s : State) (v : List Core) : (s.setCores v).code = s.code := rfl
@[simp] theorem setCores_flt (s : State) (v : List Core) : (s.setCores v).flt = s.flt := rfl
@[simp] theorem setCores_waits (s : State) (v : List Core) : (s.setCores v).waits = s.waits := rfl
@[simp] theorem setCores_wakes (s : State) (v : List Core) : (s.setCores v).wakes = s.wakes := rfl
@[simp] theorem setCores_sweeps (s : State) (v : List Core) : (s.setCores v).sweeps = s.sweeps := rfl
@[simp] theorem setCores_reqs (s : State) (v : List Core) : (s.setCores v).reqs = s.reqs := rfl
@[simp] theorem setCores_pend (s : State) (v : List Core) : (s.setCores v).pend = s.pend := rfl
@[simp] theorem setCores_ops (s : State) (v : List Core) : (s.setCores v).ops = s.ops := rfl
@[simp] theorem setCores_cp (s : State) (v : List Core) : (s.setCores v).cp = s.cp := rfl
@[simp] theorem setCores_saved (s : State) (v : List Core) : (s.setCores v).saved = s.saved := rfl
@[simp] theorem setCores_fab (s : State) (v : List Core) : (s.setCores v).fab = s.fab := rfl
@[simp] theorem setCores_cur (s : State) (v : List Core) : (s.setCores v).cur = s.cur := rfl
@[simp] theorem setCores_agenda (s : State) (v : List Core) : (s.setCores v).agenda = s.agenda := rfl
@[simp] theorem setCores_nextId (s : State) (v : List Core) : (s.setCores v).nextId = s.nextId := rfl
@[simp] theorem setGroups_cycle (s : State) (v : List Group) : (s.setGroups v).cycle = s.cycle := rfl
@[simp] theorem setGroups_dev (s : State) (v : List Group) : (s.setGroups v).dev = s.dev := rfl
@[simp] theorem setGroups_ctxs (s : State) (v : List Group) : (s.setGroups v).ctxs = s.ctxs := rfl
@[simp] theorem setGroups_teams (s : State) (v : List Group) : (s.setGroups v).teams = s.teams := rfl
@[simp] theorem setGroups_groups (s : State) (v : List Group) : (s.setGroups v).groups = v := rfl
@[simp] theorem setGroups_threads (s : State) (v : List Group) : (s.setGroups v).threads = s.threads := rfl
@[simp] theorem setGroups_cores (s : State) (v : List Group) : (s.setGroups v).cores = s.cores := rfl
@[simp] theorem setGroups_mem (s : State) (v : List Group) : (s.setGroups v).mem = s.mem := rfl
@[simp] theorem setGroups_spad (s : State) (v : List Group) : (s.setGroups v).spad = s.spad := rfl
@[simp] theorem setGroups_spadE (s : State) (v : List Group) : (s.setGroups v).spadE = s.spadE := rfl
@[simp] theorem setGroups_acc (s : State) (v : List Group) : (s.setGroups v).acc = s.acc := rfl
@[simp] theorem setGroups_ue (s : State) (v : List Group) : (s.setGroups v).ue = s.ue := rfl
@[simp] theorem setGroups_ce (s : State) (v : List Group) : (s.setGroups v).ce = s.ce := rfl
@[simp] theorem setGroups_l2 (s : State) (v : List Group) : (s.setGroups v).l2 = s.l2 := rfl
@[simp] theorem setGroups_tlb (s : State) (v : List Group) : (s.setGroups v).tlb = s.tlb := rfl
@[simp] theorem setGroups_walks (s : State) (v : List Group) : (s.setGroups v).walks = s.walks := rfl
@[simp] theorem setGroups_code (s : State) (v : List Group) : (s.setGroups v).code = s.code := rfl
@[simp] theorem setGroups_flt (s : State) (v : List Group) : (s.setGroups v).flt = s.flt := rfl
@[simp] theorem setGroups_waits (s : State) (v : List Group) : (s.setGroups v).waits = s.waits := rfl
@[simp] theorem setGroups_wakes (s : State) (v : List Group) : (s.setGroups v).wakes = s.wakes := rfl
@[simp] theorem setGroups_sweeps (s : State) (v : List Group) : (s.setGroups v).sweeps = s.sweeps := rfl
@[simp] theorem setGroups_reqs (s : State) (v : List Group) : (s.setGroups v).reqs = s.reqs := rfl
@[simp] theorem setGroups_pend (s : State) (v : List Group) : (s.setGroups v).pend = s.pend := rfl
@[simp] theorem setGroups_ops (s : State) (v : List Group) : (s.setGroups v).ops = s.ops := rfl
@[simp] theorem setGroups_cp (s : State) (v : List Group) : (s.setGroups v).cp = s.cp := rfl
@[simp] theorem setGroups_saved (s : State) (v : List Group) : (s.setGroups v).saved = s.saved := rfl
@[simp] theorem setGroups_fab (s : State) (v : List Group) : (s.setGroups v).fab = s.fab := rfl
@[simp] theorem setGroups_cur (s : State) (v : List Group) : (s.setGroups v).cur = s.cur := rfl
@[simp] theorem setGroups_agenda (s : State) (v : List Group) : (s.setGroups v).agenda = s.agenda := rfl
@[simp] theorem setGroups_nextId (s : State) (v : List Group) : (s.setGroups v).nextId = s.nextId := rfl
@[simp] theorem setTeams_cycle (s : State) (v : List Team) : (s.setTeams v).cycle = s.cycle := rfl
@[simp] theorem setTeams_dev (s : State) (v : List Team) : (s.setTeams v).dev = s.dev := rfl
@[simp] theorem setTeams_ctxs (s : State) (v : List Team) : (s.setTeams v).ctxs = s.ctxs := rfl
@[simp] theorem setTeams_teams (s : State) (v : List Team) : (s.setTeams v).teams = v := rfl
@[simp] theorem setTeams_groups (s : State) (v : List Team) : (s.setTeams v).groups = s.groups := rfl
@[simp] theorem setTeams_threads (s : State) (v : List Team) : (s.setTeams v).threads = s.threads := rfl
@[simp] theorem setTeams_cores (s : State) (v : List Team) : (s.setTeams v).cores = s.cores := rfl
@[simp] theorem setTeams_mem (s : State) (v : List Team) : (s.setTeams v).mem = s.mem := rfl
@[simp] theorem setTeams_spad (s : State) (v : List Team) : (s.setTeams v).spad = s.spad := rfl
@[simp] theorem setTeams_spadE (s : State) (v : List Team) : (s.setTeams v).spadE = s.spadE := rfl
@[simp] theorem setTeams_acc (s : State) (v : List Team) : (s.setTeams v).acc = s.acc := rfl
@[simp] theorem setTeams_ue (s : State) (v : List Team) : (s.setTeams v).ue = s.ue := rfl
@[simp] theorem setTeams_ce (s : State) (v : List Team) : (s.setTeams v).ce = s.ce := rfl
@[simp] theorem setTeams_l2 (s : State) (v : List Team) : (s.setTeams v).l2 = s.l2 := rfl
@[simp] theorem setTeams_tlb (s : State) (v : List Team) : (s.setTeams v).tlb = s.tlb := rfl
@[simp] theorem setTeams_walks (s : State) (v : List Team) : (s.setTeams v).walks = s.walks := rfl
@[simp] theorem setTeams_code (s : State) (v : List Team) : (s.setTeams v).code = s.code := rfl
@[simp] theorem setTeams_flt (s : State) (v : List Team) : (s.setTeams v).flt = s.flt := rfl
@[simp] theorem setTeams_waits (s : State) (v : List Team) : (s.setTeams v).waits = s.waits := rfl
@[simp] theorem setTeams_wakes (s : State) (v : List Team) : (s.setTeams v).wakes = s.wakes := rfl
@[simp] theorem setTeams_sweeps (s : State) (v : List Team) : (s.setTeams v).sweeps = s.sweeps := rfl
@[simp] theorem setTeams_reqs (s : State) (v : List Team) : (s.setTeams v).reqs = s.reqs := rfl
@[simp] theorem setTeams_pend (s : State) (v : List Team) : (s.setTeams v).pend = s.pend := rfl
@[simp] theorem setTeams_ops (s : State) (v : List Team) : (s.setTeams v).ops = s.ops := rfl
@[simp] theorem setTeams_cp (s : State) (v : List Team) : (s.setTeams v).cp = s.cp := rfl
@[simp] theorem setTeams_saved (s : State) (v : List Team) : (s.setTeams v).saved = s.saved := rfl
@[simp] theorem setTeams_fab (s : State) (v : List Team) : (s.setTeams v).fab = s.fab := rfl
@[simp] theorem setTeams_cur (s : State) (v : List Team) : (s.setTeams v).cur = s.cur := rfl
@[simp] theorem setTeams_agenda (s : State) (v : List Team) : (s.setTeams v).agenda = s.agenda := rfl
@[simp] theorem setTeams_nextId (s : State) (v : List Team) : (s.setTeams v).nextId = s.nextId := rfl
@[simp] theorem setCtxs_cycle (s : State) (v : List Ctx) : (s.setCtxs v).cycle = s.cycle := rfl
@[simp] theorem setCtxs_dev (s : State) (v : List Ctx) : (s.setCtxs v).dev = s.dev := rfl
@[simp] theorem setCtxs_ctxs (s : State) (v : List Ctx) : (s.setCtxs v).ctxs = v := rfl
@[simp] theorem setCtxs_teams (s : State) (v : List Ctx) : (s.setCtxs v).teams = s.teams := rfl
@[simp] theorem setCtxs_groups (s : State) (v : List Ctx) : (s.setCtxs v).groups = s.groups := rfl
@[simp] theorem setCtxs_threads (s : State) (v : List Ctx) : (s.setCtxs v).threads = s.threads := rfl
@[simp] theorem setCtxs_cores (s : State) (v : List Ctx) : (s.setCtxs v).cores = s.cores := rfl
@[simp] theorem setCtxs_mem (s : State) (v : List Ctx) : (s.setCtxs v).mem = s.mem := rfl
@[simp] theorem setCtxs_spad (s : State) (v : List Ctx) : (s.setCtxs v).spad = s.spad := rfl
@[simp] theorem setCtxs_spadE (s : State) (v : List Ctx) : (s.setCtxs v).spadE = s.spadE := rfl
@[simp] theorem setCtxs_acc (s : State) (v : List Ctx) : (s.setCtxs v).acc = s.acc := rfl
@[simp] theorem setCtxs_ue (s : State) (v : List Ctx) : (s.setCtxs v).ue = s.ue := rfl
@[simp] theorem setCtxs_ce (s : State) (v : List Ctx) : (s.setCtxs v).ce = s.ce := rfl
@[simp] theorem setCtxs_l2 (s : State) (v : List Ctx) : (s.setCtxs v).l2 = s.l2 := rfl
@[simp] theorem setCtxs_tlb (s : State) (v : List Ctx) : (s.setCtxs v).tlb = s.tlb := rfl
@[simp] theorem setCtxs_walks (s : State) (v : List Ctx) : (s.setCtxs v).walks = s.walks := rfl
@[simp] theorem setCtxs_code (s : State) (v : List Ctx) : (s.setCtxs v).code = s.code := rfl
@[simp] theorem setCtxs_flt (s : State) (v : List Ctx) : (s.setCtxs v).flt = s.flt := rfl
@[simp] theorem setCtxs_waits (s : State) (v : List Ctx) : (s.setCtxs v).waits = s.waits := rfl
@[simp] theorem setCtxs_wakes (s : State) (v : List Ctx) : (s.setCtxs v).wakes = s.wakes := rfl
@[simp] theorem setCtxs_sweeps (s : State) (v : List Ctx) : (s.setCtxs v).sweeps = s.sweeps := rfl
@[simp] theorem setCtxs_reqs (s : State) (v : List Ctx) : (s.setCtxs v).reqs = s.reqs := rfl
@[simp] theorem setCtxs_pend (s : State) (v : List Ctx) : (s.setCtxs v).pend = s.pend := rfl
@[simp] theorem setCtxs_ops (s : State) (v : List Ctx) : (s.setCtxs v).ops = s.ops := rfl
@[simp] theorem setCtxs_cp (s : State) (v : List Ctx) : (s.setCtxs v).cp = s.cp := rfl
@[simp] theorem setCtxs_saved (s : State) (v : List Ctx) : (s.setCtxs v).saved = s.saved := rfl
@[simp] theorem setCtxs_fab (s : State) (v : List Ctx) : (s.setCtxs v).fab = s.fab := rfl
@[simp] theorem setCtxs_cur (s : State) (v : List Ctx) : (s.setCtxs v).cur = s.cur := rfl
@[simp] theorem setCtxs_agenda (s : State) (v : List Ctx) : (s.setCtxs v).agenda = s.agenda := rfl
@[simp] theorem setCtxs_nextId (s : State) (v : List Ctx) : (s.setCtxs v).nextId = s.nextId := rfl
@[simp] theorem setMem_cycle (s : State) (v : List Host.Cell) : (s.setMem v).cycle = s.cycle := rfl
@[simp] theorem setMem_dev (s : State) (v : List Host.Cell) : (s.setMem v).dev = s.dev := rfl
@[simp] theorem setMem_ctxs (s : State) (v : List Host.Cell) : (s.setMem v).ctxs = s.ctxs := rfl
@[simp] theorem setMem_teams (s : State) (v : List Host.Cell) : (s.setMem v).teams = s.teams := rfl
@[simp] theorem setMem_groups (s : State) (v : List Host.Cell) : (s.setMem v).groups = s.groups := rfl
@[simp] theorem setMem_threads (s : State) (v : List Host.Cell) : (s.setMem v).threads = s.threads := rfl
@[simp] theorem setMem_cores (s : State) (v : List Host.Cell) : (s.setMem v).cores = s.cores := rfl
@[simp] theorem setMem_mem (s : State) (v : List Host.Cell) : (s.setMem v).mem = v := rfl
@[simp] theorem setMem_spad (s : State) (v : List Host.Cell) : (s.setMem v).spad = s.spad := rfl
@[simp] theorem setMem_spadE (s : State) (v : List Host.Cell) : (s.setMem v).spadE = s.spadE := rfl
@[simp] theorem setMem_acc (s : State) (v : List Host.Cell) : (s.setMem v).acc = s.acc := rfl
@[simp] theorem setMem_ue (s : State) (v : List Host.Cell) : (s.setMem v).ue = s.ue := rfl
@[simp] theorem setMem_ce (s : State) (v : List Host.Cell) : (s.setMem v).ce = s.ce := rfl
@[simp] theorem setMem_l2 (s : State) (v : List Host.Cell) : (s.setMem v).l2 = s.l2 := rfl
@[simp] theorem setMem_tlb (s : State) (v : List Host.Cell) : (s.setMem v).tlb = s.tlb := rfl
@[simp] theorem setMem_walks (s : State) (v : List Host.Cell) : (s.setMem v).walks = s.walks := rfl
@[simp] theorem setMem_code (s : State) (v : List Host.Cell) : (s.setMem v).code = s.code := rfl
@[simp] theorem setMem_flt (s : State) (v : List Host.Cell) : (s.setMem v).flt = s.flt := rfl
@[simp] theorem setMem_waits (s : State) (v : List Host.Cell) : (s.setMem v).waits = s.waits := rfl
@[simp] theorem setMem_wakes (s : State) (v : List Host.Cell) : (s.setMem v).wakes = s.wakes := rfl
@[simp] theorem setMem_sweeps (s : State) (v : List Host.Cell) : (s.setMem v).sweeps = s.sweeps := rfl
@[simp] theorem setMem_reqs (s : State) (v : List Host.Cell) : (s.setMem v).reqs = s.reqs := rfl
@[simp] theorem setMem_pend (s : State) (v : List Host.Cell) : (s.setMem v).pend = s.pend := rfl
@[simp] theorem setMem_ops (s : State) (v : List Host.Cell) : (s.setMem v).ops = s.ops := rfl
@[simp] theorem setMem_cp (s : State) (v : List Host.Cell) : (s.setMem v).cp = s.cp := rfl
@[simp] theorem setMem_saved (s : State) (v : List Host.Cell) : (s.setMem v).saved = s.saved := rfl
@[simp] theorem setMem_fab (s : State) (v : List Host.Cell) : (s.setMem v).fab = s.fab := rfl
@[simp] theorem setMem_cur (s : State) (v : List Host.Cell) : (s.setMem v).cur = s.cur := rfl
@[simp] theorem setMem_agenda (s : State) (v : List Host.Cell) : (s.setMem v).agenda = s.agenda := rfl
@[simp] theorem setMem_nextId (s : State) (v : List Host.Cell) : (s.setMem v).nextId = s.nextId := rfl
@[simp] theorem setSpad_cycle (s : State) (v : List Host.Cell) : (s.setSpad v).cycle = s.cycle := rfl
@[simp] theorem setSpad_dev (s : State) (v : List Host.Cell) : (s.setSpad v).dev = s.dev := rfl
@[simp] theorem setSpad_ctxs (s : State) (v : List Host.Cell) : (s.setSpad v).ctxs = s.ctxs := rfl
@[simp] theorem setSpad_teams (s : State) (v : List Host.Cell) : (s.setSpad v).teams = s.teams := rfl
@[simp] theorem setSpad_groups (s : State) (v : List Host.Cell) : (s.setSpad v).groups = s.groups := rfl
@[simp] theorem setSpad_threads (s : State) (v : List Host.Cell) : (s.setSpad v).threads = s.threads := rfl
@[simp] theorem setSpad_cores (s : State) (v : List Host.Cell) : (s.setSpad v).cores = s.cores := rfl
@[simp] theorem setSpad_mem (s : State) (v : List Host.Cell) : (s.setSpad v).mem = s.mem := rfl
@[simp] theorem setSpad_spad (s : State) (v : List Host.Cell) : (s.setSpad v).spad = v := rfl
@[simp] theorem setSpad_spadE (s : State) (v : List Host.Cell) : (s.setSpad v).spadE = s.spadE := rfl
@[simp] theorem setSpad_acc (s : State) (v : List Host.Cell) : (s.setSpad v).acc = s.acc := rfl
@[simp] theorem setSpad_ue (s : State) (v : List Host.Cell) : (s.setSpad v).ue = s.ue := rfl
@[simp] theorem setSpad_ce (s : State) (v : List Host.Cell) : (s.setSpad v).ce = s.ce := rfl
@[simp] theorem setSpad_l2 (s : State) (v : List Host.Cell) : (s.setSpad v).l2 = s.l2 := rfl
@[simp] theorem setSpad_tlb (s : State) (v : List Host.Cell) : (s.setSpad v).tlb = s.tlb := rfl
@[simp] theorem setSpad_walks (s : State) (v : List Host.Cell) : (s.setSpad v).walks = s.walks := rfl
@[simp] theorem setSpad_code (s : State) (v : List Host.Cell) : (s.setSpad v).code = s.code := rfl
@[simp] theorem setSpad_flt (s : State) (v : List Host.Cell) : (s.setSpad v).flt = s.flt := rfl
@[simp] theorem setSpad_waits (s : State) (v : List Host.Cell) : (s.setSpad v).waits = s.waits := rfl
@[simp] theorem setSpad_wakes (s : State) (v : List Host.Cell) : (s.setSpad v).wakes = s.wakes := rfl
@[simp] theorem setSpad_sweeps (s : State) (v : List Host.Cell) : (s.setSpad v).sweeps = s.sweeps := rfl
@[simp] theorem setSpad_reqs (s : State) (v : List Host.Cell) : (s.setSpad v).reqs = s.reqs := rfl
@[simp] theorem setSpad_pend (s : State) (v : List Host.Cell) : (s.setSpad v).pend = s.pend := rfl
@[simp] theorem setSpad_ops (s : State) (v : List Host.Cell) : (s.setSpad v).ops = s.ops := rfl
@[simp] theorem setSpad_cp (s : State) (v : List Host.Cell) : (s.setSpad v).cp = s.cp := rfl
@[simp] theorem setSpad_saved (s : State) (v : List Host.Cell) : (s.setSpad v).saved = s.saved := rfl
@[simp] theorem setSpad_fab (s : State) (v : List Host.Cell) : (s.setSpad v).fab = s.fab := rfl
@[simp] theorem setSpad_cur (s : State) (v : List Host.Cell) : (s.setSpad v).cur = s.cur := rfl
@[simp] theorem setSpad_agenda (s : State) (v : List Host.Cell) : (s.setSpad v).agenda = s.agenda := rfl
@[simp] theorem setSpad_nextId (s : State) (v : List Host.Cell) : (s.setSpad v).nextId = s.nextId := rfl
@[simp] theorem setSpadE_cycle (s : State) (v : List Nat) : (s.setSpadE v).cycle = s.cycle := rfl
@[simp] theorem setSpadE_dev (s : State) (v : List Nat) : (s.setSpadE v).dev = s.dev := rfl
@[simp] theorem setSpadE_ctxs (s : State) (v : List Nat) : (s.setSpadE v).ctxs = s.ctxs := rfl
@[simp] theorem setSpadE_teams (s : State) (v : List Nat) : (s.setSpadE v).teams = s.teams := rfl
@[simp] theorem setSpadE_groups (s : State) (v : List Nat) : (s.setSpadE v).groups = s.groups := rfl
@[simp] theorem setSpadE_threads (s : State) (v : List Nat) : (s.setSpadE v).threads = s.threads := rfl
@[simp] theorem setSpadE_cores (s : State) (v : List Nat) : (s.setSpadE v).cores = s.cores := rfl
@[simp] theorem setSpadE_mem (s : State) (v : List Nat) : (s.setSpadE v).mem = s.mem := rfl
@[simp] theorem setSpadE_spad (s : State) (v : List Nat) : (s.setSpadE v).spad = s.spad := rfl
@[simp] theorem setSpadE_spadE (s : State) (v : List Nat) : (s.setSpadE v).spadE = v := rfl
@[simp] theorem setSpadE_acc (s : State) (v : List Nat) : (s.setSpadE v).acc = s.acc := rfl
@[simp] theorem setSpadE_ue (s : State) (v : List Nat) : (s.setSpadE v).ue = s.ue := rfl
@[simp] theorem setSpadE_ce (s : State) (v : List Nat) : (s.setSpadE v).ce = s.ce := rfl
@[simp] theorem setSpadE_l2 (s : State) (v : List Nat) : (s.setSpadE v).l2 = s.l2 := rfl
@[simp] theorem setSpadE_tlb (s : State) (v : List Nat) : (s.setSpadE v).tlb = s.tlb := rfl
@[simp] theorem setSpadE_walks (s : State) (v : List Nat) : (s.setSpadE v).walks = s.walks := rfl
@[simp] theorem setSpadE_code (s : State) (v : List Nat) : (s.setSpadE v).code = s.code := rfl
@[simp] theorem setSpadE_flt (s : State) (v : List Nat) : (s.setSpadE v).flt = s.flt := rfl
@[simp] theorem setSpadE_waits (s : State) (v : List Nat) : (s.setSpadE v).waits = s.waits := rfl
@[simp] theorem setSpadE_wakes (s : State) (v : List Nat) : (s.setSpadE v).wakes = s.wakes := rfl
@[simp] theorem setSpadE_sweeps (s : State) (v : List Nat) : (s.setSpadE v).sweeps = s.sweeps := rfl
@[simp] theorem setSpadE_reqs (s : State) (v : List Nat) : (s.setSpadE v).reqs = s.reqs := rfl
@[simp] theorem setSpadE_pend (s : State) (v : List Nat) : (s.setSpadE v).pend = s.pend := rfl
@[simp] theorem setSpadE_ops (s : State) (v : List Nat) : (s.setSpadE v).ops = s.ops := rfl
@[simp] theorem setSpadE_cp (s : State) (v : List Nat) : (s.setSpadE v).cp = s.cp := rfl
@[simp] theorem setSpadE_saved (s : State) (v : List Nat) : (s.setSpadE v).saved = s.saved := rfl
@[simp] theorem setSpadE_fab (s : State) (v : List Nat) : (s.setSpadE v).fab = s.fab := rfl
@[simp] theorem setSpadE_cur (s : State) (v : List Nat) : (s.setSpadE v).cur = s.cur := rfl
@[simp] theorem setSpadE_agenda (s : State) (v : List Nat) : (s.setSpadE v).agenda = s.agenda := rfl
@[simp] theorem setSpadE_nextId (s : State) (v : List Nat) : (s.setSpadE v).nextId = s.nextId := rfl
@[simp] theorem setAcc_cycle (s : State) (v : List Host.Cell) : (s.setAcc v).cycle = s.cycle := rfl
@[simp] theorem setAcc_dev (s : State) (v : List Host.Cell) : (s.setAcc v).dev = s.dev := rfl
@[simp] theorem setAcc_ctxs (s : State) (v : List Host.Cell) : (s.setAcc v).ctxs = s.ctxs := rfl
@[simp] theorem setAcc_teams (s : State) (v : List Host.Cell) : (s.setAcc v).teams = s.teams := rfl
@[simp] theorem setAcc_groups (s : State) (v : List Host.Cell) : (s.setAcc v).groups = s.groups := rfl
@[simp] theorem setAcc_threads (s : State) (v : List Host.Cell) : (s.setAcc v).threads = s.threads := rfl
@[simp] theorem setAcc_cores (s : State) (v : List Host.Cell) : (s.setAcc v).cores = s.cores := rfl
@[simp] theorem setAcc_mem (s : State) (v : List Host.Cell) : (s.setAcc v).mem = s.mem := rfl
@[simp] theorem setAcc_spad (s : State) (v : List Host.Cell) : (s.setAcc v).spad = s.spad := rfl
@[simp] theorem setAcc_spadE (s : State) (v : List Host.Cell) : (s.setAcc v).spadE = s.spadE := rfl
@[simp] theorem setAcc_acc (s : State) (v : List Host.Cell) : (s.setAcc v).acc = v := rfl
@[simp] theorem setAcc_ue (s : State) (v : List Host.Cell) : (s.setAcc v).ue = s.ue := rfl
@[simp] theorem setAcc_ce (s : State) (v : List Host.Cell) : (s.setAcc v).ce = s.ce := rfl
@[simp] theorem setAcc_l2 (s : State) (v : List Host.Cell) : (s.setAcc v).l2 = s.l2 := rfl
@[simp] theorem setAcc_tlb (s : State) (v : List Host.Cell) : (s.setAcc v).tlb = s.tlb := rfl
@[simp] theorem setAcc_walks (s : State) (v : List Host.Cell) : (s.setAcc v).walks = s.walks := rfl
@[simp] theorem setAcc_code (s : State) (v : List Host.Cell) : (s.setAcc v).code = s.code := rfl
@[simp] theorem setAcc_flt (s : State) (v : List Host.Cell) : (s.setAcc v).flt = s.flt := rfl
@[simp] theorem setAcc_waits (s : State) (v : List Host.Cell) : (s.setAcc v).waits = s.waits := rfl
@[simp] theorem setAcc_wakes (s : State) (v : List Host.Cell) : (s.setAcc v).wakes = s.wakes := rfl
@[simp] theorem setAcc_sweeps (s : State) (v : List Host.Cell) : (s.setAcc v).sweeps = s.sweeps := rfl
@[simp] theorem setAcc_reqs (s : State) (v : List Host.Cell) : (s.setAcc v).reqs = s.reqs := rfl
@[simp] theorem setAcc_pend (s : State) (v : List Host.Cell) : (s.setAcc v).pend = s.pend := rfl
@[simp] theorem setAcc_ops (s : State) (v : List Host.Cell) : (s.setAcc v).ops = s.ops := rfl
@[simp] theorem setAcc_cp (s : State) (v : List Host.Cell) : (s.setAcc v).cp = s.cp := rfl
@[simp] theorem setAcc_saved (s : State) (v : List Host.Cell) : (s.setAcc v).saved = s.saved := rfl
@[simp] theorem setAcc_fab (s : State) (v : List Host.Cell) : (s.setAcc v).fab = s.fab := rfl
@[simp] theorem setAcc_cur (s : State) (v : List Host.Cell) : (s.setAcc v).cur = s.cur := rfl
@[simp] theorem setAcc_agenda (s : State) (v : List Host.Cell) : (s.setAcc v).agenda = s.agenda := rfl
@[simp] theorem setAcc_nextId (s : State) (v : List Host.Cell) : (s.setAcc v).nextId = s.nextId := rfl
@[simp] theorem setUe_cycle (s : State) (v : List Nat) : (s.setUe v).cycle = s.cycle := rfl
@[simp] theorem setUe_dev (s : State) (v : List Nat) : (s.setUe v).dev = s.dev := rfl
@[simp] theorem setUe_ctxs (s : State) (v : List Nat) : (s.setUe v).ctxs = s.ctxs := rfl
@[simp] theorem setUe_teams (s : State) (v : List Nat) : (s.setUe v).teams = s.teams := rfl
@[simp] theorem setUe_groups (s : State) (v : List Nat) : (s.setUe v).groups = s.groups := rfl
@[simp] theorem setUe_threads (s : State) (v : List Nat) : (s.setUe v).threads = s.threads := rfl
@[simp] theorem setUe_cores (s : State) (v : List Nat) : (s.setUe v).cores = s.cores := rfl
@[simp] theorem setUe_mem (s : State) (v : List Nat) : (s.setUe v).mem = s.mem := rfl
@[simp] theorem setUe_spad (s : State) (v : List Nat) : (s.setUe v).spad = s.spad := rfl
@[simp] theorem setUe_spadE (s : State) (v : List Nat) : (s.setUe v).spadE = s.spadE := rfl
@[simp] theorem setUe_acc (s : State) (v : List Nat) : (s.setUe v).acc = s.acc := rfl
@[simp] theorem setUe_ue (s : State) (v : List Nat) : (s.setUe v).ue = v := rfl
@[simp] theorem setUe_ce (s : State) (v : List Nat) : (s.setUe v).ce = s.ce := rfl
@[simp] theorem setUe_l2 (s : State) (v : List Nat) : (s.setUe v).l2 = s.l2 := rfl
@[simp] theorem setUe_tlb (s : State) (v : List Nat) : (s.setUe v).tlb = s.tlb := rfl
@[simp] theorem setUe_walks (s : State) (v : List Nat) : (s.setUe v).walks = s.walks := rfl
@[simp] theorem setUe_code (s : State) (v : List Nat) : (s.setUe v).code = s.code := rfl
@[simp] theorem setUe_flt (s : State) (v : List Nat) : (s.setUe v).flt = s.flt := rfl
@[simp] theorem setUe_waits (s : State) (v : List Nat) : (s.setUe v).waits = s.waits := rfl
@[simp] theorem setUe_wakes (s : State) (v : List Nat) : (s.setUe v).wakes = s.wakes := rfl
@[simp] theorem setUe_sweeps (s : State) (v : List Nat) : (s.setUe v).sweeps = s.sweeps := rfl
@[simp] theorem setUe_reqs (s : State) (v : List Nat) : (s.setUe v).reqs = s.reqs := rfl
@[simp] theorem setUe_pend (s : State) (v : List Nat) : (s.setUe v).pend = s.pend := rfl
@[simp] theorem setUe_ops (s : State) (v : List Nat) : (s.setUe v).ops = s.ops := rfl
@[simp] theorem setUe_cp (s : State) (v : List Nat) : (s.setUe v).cp = s.cp := rfl
@[simp] theorem setUe_saved (s : State) (v : List Nat) : (s.setUe v).saved = s.saved := rfl
@[simp] theorem setUe_fab (s : State) (v : List Nat) : (s.setUe v).fab = s.fab := rfl
@[simp] theorem setUe_cur (s : State) (v : List Nat) : (s.setUe v).cur = s.cur := rfl
@[simp] theorem setUe_agenda (s : State) (v : List Nat) : (s.setUe v).agenda = s.agenda := rfl
@[simp] theorem setUe_nextId (s : State) (v : List Nat) : (s.setUe v).nextId = s.nextId := rfl
@[simp] theorem setCe_cycle (s : State) (v : List Nat) : (s.setCe v).cycle = s.cycle := rfl
@[simp] theorem setCe_dev (s : State) (v : List Nat) : (s.setCe v).dev = s.dev := rfl
@[simp] theorem setCe_ctxs (s : State) (v : List Nat) : (s.setCe v).ctxs = s.ctxs := rfl
@[simp] theorem setCe_teams (s : State) (v : List Nat) : (s.setCe v).teams = s.teams := rfl
@[simp] theorem setCe_groups (s : State) (v : List Nat) : (s.setCe v).groups = s.groups := rfl
@[simp] theorem setCe_threads (s : State) (v : List Nat) : (s.setCe v).threads = s.threads := rfl
@[simp] theorem setCe_cores (s : State) (v : List Nat) : (s.setCe v).cores = s.cores := rfl
@[simp] theorem setCe_mem (s : State) (v : List Nat) : (s.setCe v).mem = s.mem := rfl
@[simp] theorem setCe_spad (s : State) (v : List Nat) : (s.setCe v).spad = s.spad := rfl
@[simp] theorem setCe_spadE (s : State) (v : List Nat) : (s.setCe v).spadE = s.spadE := rfl
@[simp] theorem setCe_acc (s : State) (v : List Nat) : (s.setCe v).acc = s.acc := rfl
@[simp] theorem setCe_ue (s : State) (v : List Nat) : (s.setCe v).ue = s.ue := rfl
@[simp] theorem setCe_ce (s : State) (v : List Nat) : (s.setCe v).ce = v := rfl
@[simp] theorem setCe_l2 (s : State) (v : List Nat) : (s.setCe v).l2 = s.l2 := rfl
@[simp] theorem setCe_tlb (s : State) (v : List Nat) : (s.setCe v).tlb = s.tlb := rfl
@[simp] theorem setCe_walks (s : State) (v : List Nat) : (s.setCe v).walks = s.walks := rfl
@[simp] theorem setCe_code (s : State) (v : List Nat) : (s.setCe v).code = s.code := rfl
@[simp] theorem setCe_flt (s : State) (v : List Nat) : (s.setCe v).flt = s.flt := rfl
@[simp] theorem setCe_waits (s : State) (v : List Nat) : (s.setCe v).waits = s.waits := rfl
@[simp] theorem setCe_wakes (s : State) (v : List Nat) : (s.setCe v).wakes = s.wakes := rfl
@[simp] theorem setCe_sweeps (s : State) (v : List Nat) : (s.setCe v).sweeps = s.sweeps := rfl
@[simp] theorem setCe_reqs (s : State) (v : List Nat) : (s.setCe v).reqs = s.reqs := rfl
@[simp] theorem setCe_pend (s : State) (v : List Nat) : (s.setCe v).pend = s.pend := rfl
@[simp] theorem setCe_ops (s : State) (v : List Nat) : (s.setCe v).ops = s.ops := rfl
@[simp] theorem setCe_cp (s : State) (v : List Nat) : (s.setCe v).cp = s.cp := rfl
@[simp] theorem setCe_saved (s : State) (v : List Nat) : (s.setCe v).saved = s.saved := rfl
@[simp] theorem setCe_fab (s : State) (v : List Nat) : (s.setCe v).fab = s.fab := rfl
@[simp] theorem setCe_cur (s : State) (v : List Nat) : (s.setCe v).cur = s.cur := rfl
@[simp] theorem setCe_agenda (s : State) (v : List Nat) : (s.setCe v).agenda = s.agenda := rfl
@[simp] theorem setCe_nextId (s : State) (v : List Nat) : (s.setCe v).nextId = s.nextId := rfl
@[simp] theorem setL2_cycle (s : State) (v : L2) : (s.setL2 v).cycle = s.cycle := rfl
@[simp] theorem setL2_dev (s : State) (v : L2) : (s.setL2 v).dev = s.dev := rfl
@[simp] theorem setL2_ctxs (s : State) (v : L2) : (s.setL2 v).ctxs = s.ctxs := rfl
@[simp] theorem setL2_teams (s : State) (v : L2) : (s.setL2 v).teams = s.teams := rfl
@[simp] theorem setL2_groups (s : State) (v : L2) : (s.setL2 v).groups = s.groups := rfl
@[simp] theorem setL2_threads (s : State) (v : L2) : (s.setL2 v).threads = s.threads := rfl
@[simp] theorem setL2_cores (s : State) (v : L2) : (s.setL2 v).cores = s.cores := rfl
@[simp] theorem setL2_mem (s : State) (v : L2) : (s.setL2 v).mem = s.mem := rfl
@[simp] theorem setL2_spad (s : State) (v : L2) : (s.setL2 v).spad = s.spad := rfl
@[simp] theorem setL2_spadE (s : State) (v : L2) : (s.setL2 v).spadE = s.spadE := rfl
@[simp] theorem setL2_acc (s : State) (v : L2) : (s.setL2 v).acc = s.acc := rfl
@[simp] theorem setL2_ue (s : State) (v : L2) : (s.setL2 v).ue = s.ue := rfl
@[simp] theorem setL2_ce (s : State) (v : L2) : (s.setL2 v).ce = s.ce := rfl
@[simp] theorem setL2_l2 (s : State) (v : L2) : (s.setL2 v).l2 = v := rfl
@[simp] theorem setL2_tlb (s : State) (v : L2) : (s.setL2 v).tlb = s.tlb := rfl
@[simp] theorem setL2_walks (s : State) (v : L2) : (s.setL2 v).walks = s.walks := rfl
@[simp] theorem setL2_code (s : State) (v : L2) : (s.setL2 v).code = s.code := rfl
@[simp] theorem setL2_flt (s : State) (v : L2) : (s.setL2 v).flt = s.flt := rfl
@[simp] theorem setL2_waits (s : State) (v : L2) : (s.setL2 v).waits = s.waits := rfl
@[simp] theorem setL2_wakes (s : State) (v : L2) : (s.setL2 v).wakes = s.wakes := rfl
@[simp] theorem setL2_sweeps (s : State) (v : L2) : (s.setL2 v).sweeps = s.sweeps := rfl
@[simp] theorem setL2_reqs (s : State) (v : L2) : (s.setL2 v).reqs = s.reqs := rfl
@[simp] theorem setL2_pend (s : State) (v : L2) : (s.setL2 v).pend = s.pend := rfl
@[simp] theorem setL2_ops (s : State) (v : L2) : (s.setL2 v).ops = s.ops := rfl
@[simp] theorem setL2_cp (s : State) (v : L2) : (s.setL2 v).cp = s.cp := rfl
@[simp] theorem setL2_saved (s : State) (v : L2) : (s.setL2 v).saved = s.saved := rfl
@[simp] theorem setL2_fab (s : State) (v : L2) : (s.setL2 v).fab = s.fab := rfl
@[simp] theorem setL2_cur (s : State) (v : L2) : (s.setL2 v).cur = s.cur := rfl
@[simp] theorem setL2_agenda (s : State) (v : L2) : (s.setL2 v).agenda = s.agenda := rfl
@[simp] theorem setL2_nextId (s : State) (v : L2) : (s.setL2 v).nextId = s.nextId := rfl
@[simp] theorem setTlb_cycle (s : State) (v : List TlbEntry) : (s.setTlb v).cycle = s.cycle := rfl
@[simp] theorem setTlb_dev (s : State) (v : List TlbEntry) : (s.setTlb v).dev = s.dev := rfl
@[simp] theorem setTlb_ctxs (s : State) (v : List TlbEntry) : (s.setTlb v).ctxs = s.ctxs := rfl
@[simp] theorem setTlb_teams (s : State) (v : List TlbEntry) : (s.setTlb v).teams = s.teams := rfl
@[simp] theorem setTlb_groups (s : State) (v : List TlbEntry) : (s.setTlb v).groups = s.groups := rfl
@[simp] theorem setTlb_threads (s : State) (v : List TlbEntry) : (s.setTlb v).threads = s.threads := rfl
@[simp] theorem setTlb_cores (s : State) (v : List TlbEntry) : (s.setTlb v).cores = s.cores := rfl
@[simp] theorem setTlb_mem (s : State) (v : List TlbEntry) : (s.setTlb v).mem = s.mem := rfl
@[simp] theorem setTlb_spad (s : State) (v : List TlbEntry) : (s.setTlb v).spad = s.spad := rfl
@[simp] theorem setTlb_spadE (s : State) (v : List TlbEntry) : (s.setTlb v).spadE = s.spadE := rfl
@[simp] theorem setTlb_acc (s : State) (v : List TlbEntry) : (s.setTlb v).acc = s.acc := rfl
@[simp] theorem setTlb_ue (s : State) (v : List TlbEntry) : (s.setTlb v).ue = s.ue := rfl
@[simp] theorem setTlb_ce (s : State) (v : List TlbEntry) : (s.setTlb v).ce = s.ce := rfl
@[simp] theorem setTlb_l2 (s : State) (v : List TlbEntry) : (s.setTlb v).l2 = s.l2 := rfl
@[simp] theorem setTlb_tlb (s : State) (v : List TlbEntry) : (s.setTlb v).tlb = v := rfl
@[simp] theorem setTlb_walks (s : State) (v : List TlbEntry) : (s.setTlb v).walks = s.walks := rfl
@[simp] theorem setTlb_code (s : State) (v : List TlbEntry) : (s.setTlb v).code = s.code := rfl
@[simp] theorem setTlb_flt (s : State) (v : List TlbEntry) : (s.setTlb v).flt = s.flt := rfl
@[simp] theorem setTlb_waits (s : State) (v : List TlbEntry) : (s.setTlb v).waits = s.waits := rfl
@[simp] theorem setTlb_wakes (s : State) (v : List TlbEntry) : (s.setTlb v).wakes = s.wakes := rfl
@[simp] theorem setTlb_sweeps (s : State) (v : List TlbEntry) : (s.setTlb v).sweeps = s.sweeps := rfl
@[simp] theorem setTlb_reqs (s : State) (v : List TlbEntry) : (s.setTlb v).reqs = s.reqs := rfl
@[simp] theorem setTlb_pend (s : State) (v : List TlbEntry) : (s.setTlb v).pend = s.pend := rfl
@[simp] theorem setTlb_ops (s : State) (v : List TlbEntry) : (s.setTlb v).ops = s.ops := rfl
@[simp] theorem setTlb_cp (s : State) (v : List TlbEntry) : (s.setTlb v).cp = s.cp := rfl
@[simp] theorem setTlb_saved (s : State) (v : List TlbEntry) : (s.setTlb v).saved = s.saved := rfl
@[simp] theorem setTlb_fab (s : State) (v : List TlbEntry) : (s.setTlb v).fab = s.fab := rfl
@[simp] theorem setTlb_cur (s : State) (v : List TlbEntry) : (s.setTlb v).cur = s.cur := rfl
@[simp] theorem setTlb_agenda (s : State) (v : List TlbEntry) : (s.setTlb v).agenda = s.agenda := rfl
@[simp] theorem setTlb_nextId (s : State) (v : List TlbEntry) : (s.setTlb v).nextId = s.nextId := rfl
@[simp] theorem setWalks_cycle (s : State) (v : List WalkEntry) : (s.setWalks v).cycle = s.cycle := rfl
@[simp] theorem setWalks_dev (s : State) (v : List WalkEntry) : (s.setWalks v).dev = s.dev := rfl
@[simp] theorem setWalks_ctxs (s : State) (v : List WalkEntry) : (s.setWalks v).ctxs = s.ctxs := rfl
@[simp] theorem setWalks_teams (s : State) (v : List WalkEntry) : (s.setWalks v).teams = s.teams := rfl
@[simp] theorem setWalks_groups (s : State) (v : List WalkEntry) : (s.setWalks v).groups = s.groups := rfl
@[simp] theorem setWalks_threads (s : State) (v : List WalkEntry) : (s.setWalks v).threads = s.threads := rfl
@[simp] theorem setWalks_cores (s : State) (v : List WalkEntry) : (s.setWalks v).cores = s.cores := rfl
@[simp] theorem setWalks_mem (s : State) (v : List WalkEntry) : (s.setWalks v).mem = s.mem := rfl
@[simp] theorem setWalks_spad (s : State) (v : List WalkEntry) : (s.setWalks v).spad = s.spad := rfl
@[simp] theorem setWalks_spadE (s : State) (v : List WalkEntry) : (s.setWalks v).spadE = s.spadE := rfl
@[simp] theorem setWalks_acc (s : State) (v : List WalkEntry) : (s.setWalks v).acc = s.acc := rfl
@[simp] theorem setWalks_ue (s : State) (v : List WalkEntry) : (s.setWalks v).ue = s.ue := rfl
@[simp] theorem setWalks_ce (s : State) (v : List WalkEntry) : (s.setWalks v).ce = s.ce := rfl
@[simp] theorem setWalks_l2 (s : State) (v : List WalkEntry) : (s.setWalks v).l2 = s.l2 := rfl
@[simp] theorem setWalks_tlb (s : State) (v : List WalkEntry) : (s.setWalks v).tlb = s.tlb := rfl
@[simp] theorem setWalks_walks (s : State) (v : List WalkEntry) : (s.setWalks v).walks = v := rfl
@[simp] theorem setWalks_code (s : State) (v : List WalkEntry) : (s.setWalks v).code = s.code := rfl
@[simp] theorem setWalks_flt (s : State) (v : List WalkEntry) : (s.setWalks v).flt = s.flt := rfl
@[simp] theorem setWalks_waits (s : State) (v : List WalkEntry) : (s.setWalks v).waits = s.waits := rfl
@[simp] theorem setWalks_wakes (s : State) (v : List WalkEntry) : (s.setWalks v).wakes = s.wakes := rfl
@[simp] theorem setWalks_sweeps (s : State) (v : List WalkEntry) : (s.setWalks v).sweeps = s.sweeps := rfl
@[simp] theorem setWalks_reqs (s : State) (v : List WalkEntry) : (s.setWalks v).reqs = s.reqs := rfl
@[simp] theorem setWalks_pend (s : State) (v : List WalkEntry) : (s.setWalks v).pend = s.pend := rfl
@[simp] theorem setWalks_ops (s : State) (v : List WalkEntry) : (s.setWalks v).ops = s.ops := rfl
@[simp] theorem setWalks_cp (s : State) (v : List WalkEntry) : (s.setWalks v).cp = s.cp := rfl
@[simp] theorem setWalks_saved (s : State) (v : List WalkEntry) : (s.setWalks v).saved = s.saved := rfl
@[simp] theorem setWalks_fab (s : State) (v : List WalkEntry) : (s.setWalks v).fab = s.fab := rfl
@[simp] theorem setWalks_cur (s : State) (v : List WalkEntry) : (s.setWalks v).cur = s.cur := rfl
@[simp] theorem setWalks_agenda (s : State) (v : List WalkEntry) : (s.setWalks v).agenda = s.agenda := rfl
@[simp] theorem setWalks_nextId (s : State) (v : List WalkEntry) : (s.setWalks v).nextId = s.nextId := rfl
@[simp] theorem setCode_cycle (s : State) (v : List CodeWord) : (s.setCode v).cycle = s.cycle := rfl
@[simp] theorem setCode_dev (s : State) (v : List CodeWord) : (s.setCode v).dev = s.dev := rfl
@[simp] theorem setCode_ctxs (s : State) (v : List CodeWord) : (s.setCode v).ctxs = s.ctxs := rfl
@[simp] theorem setCode_teams (s : State) (v : List CodeWord) : (s.setCode v).teams = s.teams := rfl
@[simp] theorem setCode_groups (s : State) (v : List CodeWord) : (s.setCode v).groups = s.groups := rfl
@[simp] theorem setCode_threads (s : State) (v : List CodeWord) : (s.setCode v).threads = s.threads := rfl
@[simp] theorem setCode_cores (s : State) (v : List CodeWord) : (s.setCode v).cores = s.cores := rfl
@[simp] theorem setCode_mem (s : State) (v : List CodeWord) : (s.setCode v).mem = s.mem := rfl
@[simp] theorem setCode_spad (s : State) (v : List CodeWord) : (s.setCode v).spad = s.spad := rfl
@[simp] theorem setCode_spadE (s : State) (v : List CodeWord) : (s.setCode v).spadE = s.spadE := rfl
@[simp] theorem setCode_acc (s : State) (v : List CodeWord) : (s.setCode v).acc = s.acc := rfl
@[simp] theorem setCode_ue (s : State) (v : List CodeWord) : (s.setCode v).ue = s.ue := rfl
@[simp] theorem setCode_ce (s : State) (v : List CodeWord) : (s.setCode v).ce = s.ce := rfl
@[simp] theorem setCode_l2 (s : State) (v : List CodeWord) : (s.setCode v).l2 = s.l2 := rfl
@[simp] theorem setCode_tlb (s : State) (v : List CodeWord) : (s.setCode v).tlb = s.tlb := rfl
@[simp] theorem setCode_walks (s : State) (v : List CodeWord) : (s.setCode v).walks = s.walks := rfl
@[simp] theorem setCode_code (s : State) (v : List CodeWord) : (s.setCode v).code = v := rfl
@[simp] theorem setCode_flt (s : State) (v : List CodeWord) : (s.setCode v).flt = s.flt := rfl
@[simp] theorem setCode_waits (s : State) (v : List CodeWord) : (s.setCode v).waits = s.waits := rfl
@[simp] theorem setCode_wakes (s : State) (v : List CodeWord) : (s.setCode v).wakes = s.wakes := rfl
@[simp] theorem setCode_sweeps (s : State) (v : List CodeWord) : (s.setCode v).sweeps = s.sweeps := rfl
@[simp] theorem setCode_reqs (s : State) (v : List CodeWord) : (s.setCode v).reqs = s.reqs := rfl
@[simp] theorem setCode_pend (s : State) (v : List CodeWord) : (s.setCode v).pend = s.pend := rfl
@[simp] theorem setCode_ops (s : State) (v : List CodeWord) : (s.setCode v).ops = s.ops := rfl
@[simp] theorem setCode_cp (s : State) (v : List CodeWord) : (s.setCode v).cp = s.cp := rfl
@[simp] theorem setCode_saved (s : State) (v : List CodeWord) : (s.setCode v).saved = s.saved := rfl
@[simp] theorem setCode_fab (s : State) (v : List CodeWord) : (s.setCode v).fab = s.fab := rfl
@[simp] theorem setCode_cur (s : State) (v : List CodeWord) : (s.setCode v).cur = s.cur := rfl
@[simp] theorem setCode_agenda (s : State) (v : List CodeWord) : (s.setCode v).agenda = s.agenda := rfl
@[simp] theorem setCode_nextId (s : State) (v : List CodeWord) : (s.setCode v).nextId = s.nextId := rfl
@[simp] theorem setFlt_cycle (s : State) (v : Flt) : (s.setFlt v).cycle = s.cycle := rfl
@[simp] theorem setFlt_dev (s : State) (v : Flt) : (s.setFlt v).dev = s.dev := rfl
@[simp] theorem setFlt_ctxs (s : State) (v : Flt) : (s.setFlt v).ctxs = s.ctxs := rfl
@[simp] theorem setFlt_teams (s : State) (v : Flt) : (s.setFlt v).teams = s.teams := rfl
@[simp] theorem setFlt_groups (s : State) (v : Flt) : (s.setFlt v).groups = s.groups := rfl
@[simp] theorem setFlt_threads (s : State) (v : Flt) : (s.setFlt v).threads = s.threads := rfl
@[simp] theorem setFlt_cores (s : State) (v : Flt) : (s.setFlt v).cores = s.cores := rfl
@[simp] theorem setFlt_mem (s : State) (v : Flt) : (s.setFlt v).mem = s.mem := rfl
@[simp] theorem setFlt_spad (s : State) (v : Flt) : (s.setFlt v).spad = s.spad := rfl
@[simp] theorem setFlt_spadE (s : State) (v : Flt) : (s.setFlt v).spadE = s.spadE := rfl
@[simp] theorem setFlt_acc (s : State) (v : Flt) : (s.setFlt v).acc = s.acc := rfl
@[simp] theorem setFlt_ue (s : State) (v : Flt) : (s.setFlt v).ue = s.ue := rfl
@[simp] theorem setFlt_ce (s : State) (v : Flt) : (s.setFlt v).ce = s.ce := rfl
@[simp] theorem setFlt_l2 (s : State) (v : Flt) : (s.setFlt v).l2 = s.l2 := rfl
@[simp] theorem setFlt_tlb (s : State) (v : Flt) : (s.setFlt v).tlb = s.tlb := rfl
@[simp] theorem setFlt_walks (s : State) (v : Flt) : (s.setFlt v).walks = s.walks := rfl
@[simp] theorem setFlt_code (s : State) (v : Flt) : (s.setFlt v).code = s.code := rfl
@[simp] theorem setFlt_flt (s : State) (v : Flt) : (s.setFlt v).flt = v := rfl
@[simp] theorem setFlt_waits (s : State) (v : Flt) : (s.setFlt v).waits = s.waits := rfl
@[simp] theorem setFlt_wakes (s : State) (v : Flt) : (s.setFlt v).wakes = s.wakes := rfl
@[simp] theorem setFlt_sweeps (s : State) (v : Flt) : (s.setFlt v).sweeps = s.sweeps := rfl
@[simp] theorem setFlt_reqs (s : State) (v : Flt) : (s.setFlt v).reqs = s.reqs := rfl
@[simp] theorem setFlt_pend (s : State) (v : Flt) : (s.setFlt v).pend = s.pend := rfl
@[simp] theorem setFlt_ops (s : State) (v : Flt) : (s.setFlt v).ops = s.ops := rfl
@[simp] theorem setFlt_cp (s : State) (v : Flt) : (s.setFlt v).cp = s.cp := rfl
@[simp] theorem setFlt_saved (s : State) (v : Flt) : (s.setFlt v).saved = s.saved := rfl
@[simp] theorem setFlt_fab (s : State) (v : Flt) : (s.setFlt v).fab = s.fab := rfl
@[simp] theorem setFlt_cur (s : State) (v : Flt) : (s.setFlt v).cur = s.cur := rfl
@[simp] theorem setFlt_agenda (s : State) (v : Flt) : (s.setFlt v).agenda = s.agenda := rfl
@[simp] theorem setFlt_nextId (s : State) (v : Flt) : (s.setFlt v).nextId = s.nextId := rfl
@[simp] theorem setWaits_cycle (s : State) (v : List Wait) : (s.setWaits v).cycle = s.cycle := rfl
@[simp] theorem setWaits_dev (s : State) (v : List Wait) : (s.setWaits v).dev = s.dev := rfl
@[simp] theorem setWaits_ctxs (s : State) (v : List Wait) : (s.setWaits v).ctxs = s.ctxs := rfl
@[simp] theorem setWaits_teams (s : State) (v : List Wait) : (s.setWaits v).teams = s.teams := rfl
@[simp] theorem setWaits_groups (s : State) (v : List Wait) : (s.setWaits v).groups = s.groups := rfl
@[simp] theorem setWaits_threads (s : State) (v : List Wait) : (s.setWaits v).threads = s.threads := rfl
@[simp] theorem setWaits_cores (s : State) (v : List Wait) : (s.setWaits v).cores = s.cores := rfl
@[simp] theorem setWaits_mem (s : State) (v : List Wait) : (s.setWaits v).mem = s.mem := rfl
@[simp] theorem setWaits_spad (s : State) (v : List Wait) : (s.setWaits v).spad = s.spad := rfl
@[simp] theorem setWaits_spadE (s : State) (v : List Wait) : (s.setWaits v).spadE = s.spadE := rfl
@[simp] theorem setWaits_acc (s : State) (v : List Wait) : (s.setWaits v).acc = s.acc := rfl
@[simp] theorem setWaits_ue (s : State) (v : List Wait) : (s.setWaits v).ue = s.ue := rfl
@[simp] theorem setWaits_ce (s : State) (v : List Wait) : (s.setWaits v).ce = s.ce := rfl
@[simp] theorem setWaits_l2 (s : State) (v : List Wait) : (s.setWaits v).l2 = s.l2 := rfl
@[simp] theorem setWaits_tlb (s : State) (v : List Wait) : (s.setWaits v).tlb = s.tlb := rfl
@[simp] theorem setWaits_walks (s : State) (v : List Wait) : (s.setWaits v).walks = s.walks := rfl
@[simp] theorem setWaits_code (s : State) (v : List Wait) : (s.setWaits v).code = s.code := rfl
@[simp] theorem setWaits_flt (s : State) (v : List Wait) : (s.setWaits v).flt = s.flt := rfl
@[simp] theorem setWaits_waits (s : State) (v : List Wait) : (s.setWaits v).waits = v := rfl
@[simp] theorem setWaits_wakes (s : State) (v : List Wait) : (s.setWaits v).wakes = s.wakes := rfl
@[simp] theorem setWaits_sweeps (s : State) (v : List Wait) : (s.setWaits v).sweeps = s.sweeps := rfl
@[simp] theorem setWaits_reqs (s : State) (v : List Wait) : (s.setWaits v).reqs = s.reqs := rfl
@[simp] theorem setWaits_pend (s : State) (v : List Wait) : (s.setWaits v).pend = s.pend := rfl
@[simp] theorem setWaits_ops (s : State) (v : List Wait) : (s.setWaits v).ops = s.ops := rfl
@[simp] theorem setWaits_cp (s : State) (v : List Wait) : (s.setWaits v).cp = s.cp := rfl
@[simp] theorem setWaits_saved (s : State) (v : List Wait) : (s.setWaits v).saved = s.saved := rfl
@[simp] theorem setWaits_fab (s : State) (v : List Wait) : (s.setWaits v).fab = s.fab := rfl
@[simp] theorem setWaits_cur (s : State) (v : List Wait) : (s.setWaits v).cur = s.cur := rfl
@[simp] theorem setWaits_agenda (s : State) (v : List Wait) : (s.setWaits v).agenda = s.agenda := rfl
@[simp] theorem setWaits_nextId (s : State) (v : List Wait) : (s.setWaits v).nextId = s.nextId := rfl
@[simp] theorem setWakes_cycle (s : State) (v : List Wake) : (s.setWakes v).cycle = s.cycle := rfl
@[simp] theorem setWakes_dev (s : State) (v : List Wake) : (s.setWakes v).dev = s.dev := rfl
@[simp] theorem setWakes_ctxs (s : State) (v : List Wake) : (s.setWakes v).ctxs = s.ctxs := rfl
@[simp] theorem setWakes_teams (s : State) (v : List Wake) : (s.setWakes v).teams = s.teams := rfl
@[simp] theorem setWakes_groups (s : State) (v : List Wake) : (s.setWakes v).groups = s.groups := rfl
@[simp] theorem setWakes_threads (s : State) (v : List Wake) : (s.setWakes v).threads = s.threads := rfl
@[simp] theorem setWakes_cores (s : State) (v : List Wake) : (s.setWakes v).cores = s.cores := rfl
@[simp] theorem setWakes_mem (s : State) (v : List Wake) : (s.setWakes v).mem = s.mem := rfl
@[simp] theorem setWakes_spad (s : State) (v : List Wake) : (s.setWakes v).spad = s.spad := rfl
@[simp] theorem setWakes_spadE (s : State) (v : List Wake) : (s.setWakes v).spadE = s.spadE := rfl
@[simp] theorem setWakes_acc (s : State) (v : List Wake) : (s.setWakes v).acc = s.acc := rfl
@[simp] theorem setWakes_ue (s : State) (v : List Wake) : (s.setWakes v).ue = s.ue := rfl
@[simp] theorem setWakes_ce (s : State) (v : List Wake) : (s.setWakes v).ce = s.ce := rfl
@[simp] theorem setWakes_l2 (s : State) (v : List Wake) : (s.setWakes v).l2 = s.l2 := rfl
@[simp] theorem setWakes_tlb (s : State) (v : List Wake) : (s.setWakes v).tlb = s.tlb := rfl
@[simp] theorem setWakes_walks (s : State) (v : List Wake) : (s.setWakes v).walks = s.walks := rfl
@[simp] theorem setWakes_code (s : State) (v : List Wake) : (s.setWakes v).code = s.code := rfl
@[simp] theorem setWakes_flt (s : State) (v : List Wake) : (s.setWakes v).flt = s.flt := rfl
@[simp] theorem setWakes_waits (s : State) (v : List Wake) : (s.setWakes v).waits = s.waits := rfl
@[simp] theorem setWakes_wakes (s : State) (v : List Wake) : (s.setWakes v).wakes = v := rfl
@[simp] theorem setWakes_sweeps (s : State) (v : List Wake) : (s.setWakes v).sweeps = s.sweeps := rfl
@[simp] theorem setWakes_reqs (s : State) (v : List Wake) : (s.setWakes v).reqs = s.reqs := rfl
@[simp] theorem setWakes_pend (s : State) (v : List Wake) : (s.setWakes v).pend = s.pend := rfl
@[simp] theorem setWakes_ops (s : State) (v : List Wake) : (s.setWakes v).ops = s.ops := rfl
@[simp] theorem setWakes_cp (s : State) (v : List Wake) : (s.setWakes v).cp = s.cp := rfl
@[simp] theorem setWakes_saved (s : State) (v : List Wake) : (s.setWakes v).saved = s.saved := rfl
@[simp] theorem setWakes_fab (s : State) (v : List Wake) : (s.setWakes v).fab = s.fab := rfl
@[simp] theorem setWakes_cur (s : State) (v : List Wake) : (s.setWakes v).cur = s.cur := rfl
@[simp] theorem setWakes_agenda (s : State) (v : List Wake) : (s.setWakes v).agenda = s.agenda := rfl
@[simp] theorem setWakes_nextId (s : State) (v : List Wake) : (s.setWakes v).nextId = s.nextId := rfl
@[simp] theorem setSweeps_cycle (s : State) (v : List Sweep) : (s.setSweeps v).cycle = s.cycle := rfl
@[simp] theorem setSweeps_dev (s : State) (v : List Sweep) : (s.setSweeps v).dev = s.dev := rfl
@[simp] theorem setSweeps_ctxs (s : State) (v : List Sweep) : (s.setSweeps v).ctxs = s.ctxs := rfl
@[simp] theorem setSweeps_teams (s : State) (v : List Sweep) : (s.setSweeps v).teams = s.teams := rfl
@[simp] theorem setSweeps_groups (s : State) (v : List Sweep) : (s.setSweeps v).groups = s.groups := rfl
@[simp] theorem setSweeps_threads (s : State) (v : List Sweep) : (s.setSweeps v).threads = s.threads := rfl
@[simp] theorem setSweeps_cores (s : State) (v : List Sweep) : (s.setSweeps v).cores = s.cores := rfl
@[simp] theorem setSweeps_mem (s : State) (v : List Sweep) : (s.setSweeps v).mem = s.mem := rfl
@[simp] theorem setSweeps_spad (s : State) (v : List Sweep) : (s.setSweeps v).spad = s.spad := rfl
@[simp] theorem setSweeps_spadE (s : State) (v : List Sweep) : (s.setSweeps v).spadE = s.spadE := rfl
@[simp] theorem setSweeps_acc (s : State) (v : List Sweep) : (s.setSweeps v).acc = s.acc := rfl
@[simp] theorem setSweeps_ue (s : State) (v : List Sweep) : (s.setSweeps v).ue = s.ue := rfl
@[simp] theorem setSweeps_ce (s : State) (v : List Sweep) : (s.setSweeps v).ce = s.ce := rfl
@[simp] theorem setSweeps_l2 (s : State) (v : List Sweep) : (s.setSweeps v).l2 = s.l2 := rfl
@[simp] theorem setSweeps_tlb (s : State) (v : List Sweep) : (s.setSweeps v).tlb = s.tlb := rfl
@[simp] theorem setSweeps_walks (s : State) (v : List Sweep) : (s.setSweeps v).walks = s.walks := rfl
@[simp] theorem setSweeps_code (s : State) (v : List Sweep) : (s.setSweeps v).code = s.code := rfl
@[simp] theorem setSweeps_flt (s : State) (v : List Sweep) : (s.setSweeps v).flt = s.flt := rfl
@[simp] theorem setSweeps_waits (s : State) (v : List Sweep) : (s.setSweeps v).waits = s.waits := rfl
@[simp] theorem setSweeps_wakes (s : State) (v : List Sweep) : (s.setSweeps v).wakes = s.wakes := rfl
@[simp] theorem setSweeps_sweeps (s : State) (v : List Sweep) : (s.setSweeps v).sweeps = v := rfl
@[simp] theorem setSweeps_reqs (s : State) (v : List Sweep) : (s.setSweeps v).reqs = s.reqs := rfl
@[simp] theorem setSweeps_pend (s : State) (v : List Sweep) : (s.setSweeps v).pend = s.pend := rfl
@[simp] theorem setSweeps_ops (s : State) (v : List Sweep) : (s.setSweeps v).ops = s.ops := rfl
@[simp] theorem setSweeps_cp (s : State) (v : List Sweep) : (s.setSweeps v).cp = s.cp := rfl
@[simp] theorem setSweeps_saved (s : State) (v : List Sweep) : (s.setSweeps v).saved = s.saved := rfl
@[simp] theorem setSweeps_fab (s : State) (v : List Sweep) : (s.setSweeps v).fab = s.fab := rfl
@[simp] theorem setSweeps_cur (s : State) (v : List Sweep) : (s.setSweeps v).cur = s.cur := rfl
@[simp] theorem setSweeps_agenda (s : State) (v : List Sweep) : (s.setSweeps v).agenda = s.agenda := rfl
@[simp] theorem setSweeps_nextId (s : State) (v : List Sweep) : (s.setSweeps v).nextId = s.nextId := rfl
@[simp] theorem setReqs_cycle (s : State) (v : List Req) : (s.setReqs v).cycle = s.cycle := rfl
@[simp] theorem setReqs_dev (s : State) (v : List Req) : (s.setReqs v).dev = s.dev := rfl
@[simp] theorem setReqs_ctxs (s : State) (v : List Req) : (s.setReqs v).ctxs = s.ctxs := rfl
@[simp] theorem setReqs_teams (s : State) (v : List Req) : (s.setReqs v).teams = s.teams := rfl
@[simp] theorem setReqs_groups (s : State) (v : List Req) : (s.setReqs v).groups = s.groups := rfl
@[simp] theorem setReqs_threads (s : State) (v : List Req) : (s.setReqs v).threads = s.threads := rfl
@[simp] theorem setReqs_cores (s : State) (v : List Req) : (s.setReqs v).cores = s.cores := rfl
@[simp] theorem setReqs_mem (s : State) (v : List Req) : (s.setReqs v).mem = s.mem := rfl
@[simp] theorem setReqs_spad (s : State) (v : List Req) : (s.setReqs v).spad = s.spad := rfl
@[simp] theorem setReqs_spadE (s : State) (v : List Req) : (s.setReqs v).spadE = s.spadE := rfl
@[simp] theorem setReqs_acc (s : State) (v : List Req) : (s.setReqs v).acc = s.acc := rfl
@[simp] theorem setReqs_ue (s : State) (v : List Req) : (s.setReqs v).ue = s.ue := rfl
@[simp] theorem setReqs_ce (s : State) (v : List Req) : (s.setReqs v).ce = s.ce := rfl
@[simp] theorem setReqs_l2 (s : State) (v : List Req) : (s.setReqs v).l2 = s.l2 := rfl
@[simp] theorem setReqs_tlb (s : State) (v : List Req) : (s.setReqs v).tlb = s.tlb := rfl
@[simp] theorem setReqs_walks (s : State) (v : List Req) : (s.setReqs v).walks = s.walks := rfl
@[simp] theorem setReqs_code (s : State) (v : List Req) : (s.setReqs v).code = s.code := rfl
@[simp] theorem setReqs_flt (s : State) (v : List Req) : (s.setReqs v).flt = s.flt := rfl
@[simp] theorem setReqs_waits (s : State) (v : List Req) : (s.setReqs v).waits = s.waits := rfl
@[simp] theorem setReqs_wakes (s : State) (v : List Req) : (s.setReqs v).wakes = s.wakes := rfl
@[simp] theorem setReqs_sweeps (s : State) (v : List Req) : (s.setReqs v).sweeps = s.sweeps := rfl
@[simp] theorem setReqs_reqs (s : State) (v : List Req) : (s.setReqs v).reqs = v := rfl
@[simp] theorem setReqs_pend (s : State) (v : List Req) : (s.setReqs v).pend = s.pend := rfl
@[simp] theorem setReqs_ops (s : State) (v : List Req) : (s.setReqs v).ops = s.ops := rfl
@[simp] theorem setReqs_cp (s : State) (v : List Req) : (s.setReqs v).cp = s.cp := rfl
@[simp] theorem setReqs_saved (s : State) (v : List Req) : (s.setReqs v).saved = s.saved := rfl
@[simp] theorem setReqs_fab (s : State) (v : List Req) : (s.setReqs v).fab = s.fab := rfl
@[simp] theorem setReqs_cur (s : State) (v : List Req) : (s.setReqs v).cur = s.cur := rfl
@[simp] theorem setReqs_agenda (s : State) (v : List Req) : (s.setReqs v).agenda = s.agenda := rfl
@[simp] theorem setReqs_nextId (s : State) (v : List Req) : (s.setReqs v).nextId = s.nextId := rfl
@[simp] theorem setPend_cycle (s : State) (v : List Pend) : (s.setPend v).cycle = s.cycle := rfl
@[simp] theorem setPend_dev (s : State) (v : List Pend) : (s.setPend v).dev = s.dev := rfl
@[simp] theorem setPend_ctxs (s : State) (v : List Pend) : (s.setPend v).ctxs = s.ctxs := rfl
@[simp] theorem setPend_teams (s : State) (v : List Pend) : (s.setPend v).teams = s.teams := rfl
@[simp] theorem setPend_groups (s : State) (v : List Pend) : (s.setPend v).groups = s.groups := rfl
@[simp] theorem setPend_threads (s : State) (v : List Pend) : (s.setPend v).threads = s.threads := rfl
@[simp] theorem setPend_cores (s : State) (v : List Pend) : (s.setPend v).cores = s.cores := rfl
@[simp] theorem setPend_mem (s : State) (v : List Pend) : (s.setPend v).mem = s.mem := rfl
@[simp] theorem setPend_spad (s : State) (v : List Pend) : (s.setPend v).spad = s.spad := rfl
@[simp] theorem setPend_spadE (s : State) (v : List Pend) : (s.setPend v).spadE = s.spadE := rfl
@[simp] theorem setPend_acc (s : State) (v : List Pend) : (s.setPend v).acc = s.acc := rfl
@[simp] theorem setPend_ue (s : State) (v : List Pend) : (s.setPend v).ue = s.ue := rfl
@[simp] theorem setPend_ce (s : State) (v : List Pend) : (s.setPend v).ce = s.ce := rfl
@[simp] theorem setPend_l2 (s : State) (v : List Pend) : (s.setPend v).l2 = s.l2 := rfl
@[simp] theorem setPend_tlb (s : State) (v : List Pend) : (s.setPend v).tlb = s.tlb := rfl
@[simp] theorem setPend_walks (s : State) (v : List Pend) : (s.setPend v).walks = s.walks := rfl
@[simp] theorem setPend_code (s : State) (v : List Pend) : (s.setPend v).code = s.code := rfl
@[simp] theorem setPend_flt (s : State) (v : List Pend) : (s.setPend v).flt = s.flt := rfl
@[simp] theorem setPend_waits (s : State) (v : List Pend) : (s.setPend v).waits = s.waits := rfl
@[simp] theorem setPend_wakes (s : State) (v : List Pend) : (s.setPend v).wakes = s.wakes := rfl
@[simp] theorem setPend_sweeps (s : State) (v : List Pend) : (s.setPend v).sweeps = s.sweeps := rfl
@[simp] theorem setPend_reqs (s : State) (v : List Pend) : (s.setPend v).reqs = s.reqs := rfl
@[simp] theorem setPend_pend (s : State) (v : List Pend) : (s.setPend v).pend = v := rfl
@[simp] theorem setPend_ops (s : State) (v : List Pend) : (s.setPend v).ops = s.ops := rfl
@[simp] theorem setPend_cp (s : State) (v : List Pend) : (s.setPend v).cp = s.cp := rfl
@[simp] theorem setPend_saved (s : State) (v : List Pend) : (s.setPend v).saved = s.saved := rfl
@[simp] theorem setPend_fab (s : State) (v : List Pend) : (s.setPend v).fab = s.fab := rfl
@[simp] theorem setPend_cur (s : State) (v : List Pend) : (s.setPend v).cur = s.cur := rfl
@[simp] theorem setPend_agenda (s : State) (v : List Pend) : (s.setPend v).agenda = s.agenda := rfl
@[simp] theorem setPend_nextId (s : State) (v : List Pend) : (s.setPend v).nextId = s.nextId := rfl
@[simp] theorem setOps_cycle (s : State) (v : List Op) : (s.setOps v).cycle = s.cycle := rfl
@[simp] theorem setOps_dev (s : State) (v : List Op) : (s.setOps v).dev = s.dev := rfl
@[simp] theorem setOps_ctxs (s : State) (v : List Op) : (s.setOps v).ctxs = s.ctxs := rfl
@[simp] theorem setOps_teams (s : State) (v : List Op) : (s.setOps v).teams = s.teams := rfl
@[simp] theorem setOps_groups (s : State) (v : List Op) : (s.setOps v).groups = s.groups := rfl
@[simp] theorem setOps_threads (s : State) (v : List Op) : (s.setOps v).threads = s.threads := rfl
@[simp] theorem setOps_cores (s : State) (v : List Op) : (s.setOps v).cores = s.cores := rfl
@[simp] theorem setOps_mem (s : State) (v : List Op) : (s.setOps v).mem = s.mem := rfl
@[simp] theorem setOps_spad (s : State) (v : List Op) : (s.setOps v).spad = s.spad := rfl
@[simp] theorem setOps_spadE (s : State) (v : List Op) : (s.setOps v).spadE = s.spadE := rfl
@[simp] theorem setOps_acc (s : State) (v : List Op) : (s.setOps v).acc = s.acc := rfl
@[simp] theorem setOps_ue (s : State) (v : List Op) : (s.setOps v).ue = s.ue := rfl
@[simp] theorem setOps_ce (s : State) (v : List Op) : (s.setOps v).ce = s.ce := rfl
@[simp] theorem setOps_l2 (s : State) (v : List Op) : (s.setOps v).l2 = s.l2 := rfl
@[simp] theorem setOps_tlb (s : State) (v : List Op) : (s.setOps v).tlb = s.tlb := rfl
@[simp] theorem setOps_walks (s : State) (v : List Op) : (s.setOps v).walks = s.walks := rfl
@[simp] theorem setOps_code (s : State) (v : List Op) : (s.setOps v).code = s.code := rfl
@[simp] theorem setOps_flt (s : State) (v : List Op) : (s.setOps v).flt = s.flt := rfl
@[simp] theorem setOps_waits (s : State) (v : List Op) : (s.setOps v).waits = s.waits := rfl
@[simp] theorem setOps_wakes (s : State) (v : List Op) : (s.setOps v).wakes = s.wakes := rfl
@[simp] theorem setOps_sweeps (s : State) (v : List Op) : (s.setOps v).sweeps = s.sweeps := rfl
@[simp] theorem setOps_reqs (s : State) (v : List Op) : (s.setOps v).reqs = s.reqs := rfl
@[simp] theorem setOps_pend (s : State) (v : List Op) : (s.setOps v).pend = s.pend := rfl
@[simp] theorem setOps_ops (s : State) (v : List Op) : (s.setOps v).ops = v := rfl
@[simp] theorem setOps_cp (s : State) (v : List Op) : (s.setOps v).cp = s.cp := rfl
@[simp] theorem setOps_saved (s : State) (v : List Op) : (s.setOps v).saved = s.saved := rfl
@[simp] theorem setOps_fab (s : State) (v : List Op) : (s.setOps v).fab = s.fab := rfl
@[simp] theorem setOps_cur (s : State) (v : List Op) : (s.setOps v).cur = s.cur := rfl
@[simp] theorem setOps_agenda (s : State) (v : List Op) : (s.setOps v).agenda = s.agenda := rfl
@[simp] theorem setOps_nextId (s : State) (v : List Op) : (s.setOps v).nextId = s.nextId := rfl
@[simp] theorem setCp_cycle (s : State) (v : Cp) : (s.setCp v).cycle = s.cycle := rfl
@[simp] theorem setCp_dev (s : State) (v : Cp) : (s.setCp v).dev = s.dev := rfl
@[simp] theorem setCp_ctxs (s : State) (v : Cp) : (s.setCp v).ctxs = s.ctxs := rfl
@[simp] theorem setCp_teams (s : State) (v : Cp) : (s.setCp v).teams = s.teams := rfl
@[simp] theorem setCp_groups (s : State) (v : Cp) : (s.setCp v).groups = s.groups := rfl
@[simp] theorem setCp_threads (s : State) (v : Cp) : (s.setCp v).threads = s.threads := rfl
@[simp] theorem setCp_cores (s : State) (v : Cp) : (s.setCp v).cores = s.cores := rfl
@[simp] theorem setCp_mem (s : State) (v : Cp) : (s.setCp v).mem = s.mem := rfl
@[simp] theorem setCp_spad (s : State) (v : Cp) : (s.setCp v).spad = s.spad := rfl
@[simp] theorem setCp_spadE (s : State) (v : Cp) : (s.setCp v).spadE = s.spadE := rfl
@[simp] theorem setCp_acc (s : State) (v : Cp) : (s.setCp v).acc = s.acc := rfl
@[simp] theorem setCp_ue (s : State) (v : Cp) : (s.setCp v).ue = s.ue := rfl
@[simp] theorem setCp_ce (s : State) (v : Cp) : (s.setCp v).ce = s.ce := rfl
@[simp] theorem setCp_l2 (s : State) (v : Cp) : (s.setCp v).l2 = s.l2 := rfl
@[simp] theorem setCp_tlb (s : State) (v : Cp) : (s.setCp v).tlb = s.tlb := rfl
@[simp] theorem setCp_walks (s : State) (v : Cp) : (s.setCp v).walks = s.walks := rfl
@[simp] theorem setCp_code (s : State) (v : Cp) : (s.setCp v).code = s.code := rfl
@[simp] theorem setCp_flt (s : State) (v : Cp) : (s.setCp v).flt = s.flt := rfl
@[simp] theorem setCp_waits (s : State) (v : Cp) : (s.setCp v).waits = s.waits := rfl
@[simp] theorem setCp_wakes (s : State) (v : Cp) : (s.setCp v).wakes = s.wakes := rfl
@[simp] theorem setCp_sweeps (s : State) (v : Cp) : (s.setCp v).sweeps = s.sweeps := rfl
@[simp] theorem setCp_reqs (s : State) (v : Cp) : (s.setCp v).reqs = s.reqs := rfl
@[simp] theorem setCp_pend (s : State) (v : Cp) : (s.setCp v).pend = s.pend := rfl
@[simp] theorem setCp_ops (s : State) (v : Cp) : (s.setCp v).ops = s.ops := rfl
@[simp] theorem setCp_cp (s : State) (v : Cp) : (s.setCp v).cp = v := rfl
@[simp] theorem setCp_saved (s : State) (v : Cp) : (s.setCp v).saved = s.saved := rfl
@[simp] theorem setCp_fab (s : State) (v : Cp) : (s.setCp v).fab = s.fab := rfl
@[simp] theorem setCp_cur (s : State) (v : Cp) : (s.setCp v).cur = s.cur := rfl
@[simp] theorem setCp_agenda (s : State) (v : Cp) : (s.setCp v).agenda = s.agenda := rfl
@[simp] theorem setCp_nextId (s : State) (v : Cp) : (s.setCp v).nextId = s.nextId := rfl
@[simp] theorem setSaved_cycle (s : State) (v : List Saved) : (s.setSaved v).cycle = s.cycle := rfl
@[simp] theorem setSaved_dev (s : State) (v : List Saved) : (s.setSaved v).dev = s.dev := rfl
@[simp] theorem setSaved_ctxs (s : State) (v : List Saved) : (s.setSaved v).ctxs = s.ctxs := rfl
@[simp] theorem setSaved_teams (s : State) (v : List Saved) : (s.setSaved v).teams = s.teams := rfl
@[simp] theorem setSaved_groups (s : State) (v : List Saved) : (s.setSaved v).groups = s.groups := rfl
@[simp] theorem setSaved_threads (s : State) (v : List Saved) : (s.setSaved v).threads = s.threads := rfl
@[simp] theorem setSaved_cores (s : State) (v : List Saved) : (s.setSaved v).cores = s.cores := rfl
@[simp] theorem setSaved_mem (s : State) (v : List Saved) : (s.setSaved v).mem = s.mem := rfl
@[simp] theorem setSaved_spad (s : State) (v : List Saved) : (s.setSaved v).spad = s.spad := rfl
@[simp] theorem setSaved_spadE (s : State) (v : List Saved) : (s.setSaved v).spadE = s.spadE := rfl
@[simp] theorem setSaved_acc (s : State) (v : List Saved) : (s.setSaved v).acc = s.acc := rfl
@[simp] theorem setSaved_ue (s : State) (v : List Saved) : (s.setSaved v).ue = s.ue := rfl
@[simp] theorem setSaved_ce (s : State) (v : List Saved) : (s.setSaved v).ce = s.ce := rfl
@[simp] theorem setSaved_l2 (s : State) (v : List Saved) : (s.setSaved v).l2 = s.l2 := rfl
@[simp] theorem setSaved_tlb (s : State) (v : List Saved) : (s.setSaved v).tlb = s.tlb := rfl
@[simp] theorem setSaved_walks (s : State) (v : List Saved) : (s.setSaved v).walks = s.walks := rfl
@[simp] theorem setSaved_code (s : State) (v : List Saved) : (s.setSaved v).code = s.code := rfl
@[simp] theorem setSaved_flt (s : State) (v : List Saved) : (s.setSaved v).flt = s.flt := rfl
@[simp] theorem setSaved_waits (s : State) (v : List Saved) : (s.setSaved v).waits = s.waits := rfl
@[simp] theorem setSaved_wakes (s : State) (v : List Saved) : (s.setSaved v).wakes = s.wakes := rfl
@[simp] theorem setSaved_sweeps (s : State) (v : List Saved) : (s.setSaved v).sweeps = s.sweeps := rfl
@[simp] theorem setSaved_reqs (s : State) (v : List Saved) : (s.setSaved v).reqs = s.reqs := rfl
@[simp] theorem setSaved_pend (s : State) (v : List Saved) : (s.setSaved v).pend = s.pend := rfl
@[simp] theorem setSaved_ops (s : State) (v : List Saved) : (s.setSaved v).ops = s.ops := rfl
@[simp] theorem setSaved_cp (s : State) (v : List Saved) : (s.setSaved v).cp = s.cp := rfl
@[simp] theorem setSaved_saved (s : State) (v : List Saved) : (s.setSaved v).saved = v := rfl
@[simp] theorem setSaved_fab (s : State) (v : List Saved) : (s.setSaved v).fab = s.fab := rfl
@[simp] theorem setSaved_cur (s : State) (v : List Saved) : (s.setSaved v).cur = s.cur := rfl
@[simp] theorem setSaved_agenda (s : State) (v : List Saved) : (s.setSaved v).agenda = s.agenda := rfl
@[simp] theorem setSaved_nextId (s : State) (v : List Saved) : (s.setSaved v).nextId = s.nextId := rfl
@[simp] theorem setFab_cycle (s : State) (v : Fab) : (s.setFab v).cycle = s.cycle := rfl
@[simp] theorem setFab_dev (s : State) (v : Fab) : (s.setFab v).dev = s.dev := rfl
@[simp] theorem setFab_ctxs (s : State) (v : Fab) : (s.setFab v).ctxs = s.ctxs := rfl
@[simp] theorem setFab_teams (s : State) (v : Fab) : (s.setFab v).teams = s.teams := rfl
@[simp] theorem setFab_groups (s : State) (v : Fab) : (s.setFab v).groups = s.groups := rfl
@[simp] theorem setFab_threads (s : State) (v : Fab) : (s.setFab v).threads = s.threads := rfl
@[simp] theorem setFab_cores (s : State) (v : Fab) : (s.setFab v).cores = s.cores := rfl
@[simp] theorem setFab_mem (s : State) (v : Fab) : (s.setFab v).mem = s.mem := rfl
@[simp] theorem setFab_spad (s : State) (v : Fab) : (s.setFab v).spad = s.spad := rfl
@[simp] theorem setFab_spadE (s : State) (v : Fab) : (s.setFab v).spadE = s.spadE := rfl
@[simp] theorem setFab_acc (s : State) (v : Fab) : (s.setFab v).acc = s.acc := rfl
@[simp] theorem setFab_ue (s : State) (v : Fab) : (s.setFab v).ue = s.ue := rfl
@[simp] theorem setFab_ce (s : State) (v : Fab) : (s.setFab v).ce = s.ce := rfl
@[simp] theorem setFab_l2 (s : State) (v : Fab) : (s.setFab v).l2 = s.l2 := rfl
@[simp] theorem setFab_tlb (s : State) (v : Fab) : (s.setFab v).tlb = s.tlb := rfl
@[simp] theorem setFab_walks (s : State) (v : Fab) : (s.setFab v).walks = s.walks := rfl
@[simp] theorem setFab_code (s : State) (v : Fab) : (s.setFab v).code = s.code := rfl
@[simp] theorem setFab_flt (s : State) (v : Fab) : (s.setFab v).flt = s.flt := rfl
@[simp] theorem setFab_waits (s : State) (v : Fab) : (s.setFab v).waits = s.waits := rfl
@[simp] theorem setFab_wakes (s : State) (v : Fab) : (s.setFab v).wakes = s.wakes := rfl
@[simp] theorem setFab_sweeps (s : State) (v : Fab) : (s.setFab v).sweeps = s.sweeps := rfl
@[simp] theorem setFab_reqs (s : State) (v : Fab) : (s.setFab v).reqs = s.reqs := rfl
@[simp] theorem setFab_pend (s : State) (v : Fab) : (s.setFab v).pend = s.pend := rfl
@[simp] theorem setFab_ops (s : State) (v : Fab) : (s.setFab v).ops = s.ops := rfl
@[simp] theorem setFab_cp (s : State) (v : Fab) : (s.setFab v).cp = s.cp := rfl
@[simp] theorem setFab_saved (s : State) (v : Fab) : (s.setFab v).saved = s.saved := rfl
@[simp] theorem setFab_fab (s : State) (v : Fab) : (s.setFab v).fab = v := rfl
@[simp] theorem setFab_cur (s : State) (v : Fab) : (s.setFab v).cur = s.cur := rfl
@[simp] theorem setFab_agenda (s : State) (v : Fab) : (s.setFab v).agenda = s.agenda := rfl
@[simp] theorem setFab_nextId (s : State) (v : Fab) : (s.setFab v).nextId = s.nextId := rfl
@[simp] theorem setDev_cycle (s : State) (v : Dev) : (s.setDev v).cycle = s.cycle := rfl
@[simp] theorem setDev_dev (s : State) (v : Dev) : (s.setDev v).dev = v := rfl
@[simp] theorem setDev_ctxs (s : State) (v : Dev) : (s.setDev v).ctxs = s.ctxs := rfl
@[simp] theorem setDev_teams (s : State) (v : Dev) : (s.setDev v).teams = s.teams := rfl
@[simp] theorem setDev_groups (s : State) (v : Dev) : (s.setDev v).groups = s.groups := rfl
@[simp] theorem setDev_threads (s : State) (v : Dev) : (s.setDev v).threads = s.threads := rfl
@[simp] theorem setDev_cores (s : State) (v : Dev) : (s.setDev v).cores = s.cores := rfl
@[simp] theorem setDev_mem (s : State) (v : Dev) : (s.setDev v).mem = s.mem := rfl
@[simp] theorem setDev_spad (s : State) (v : Dev) : (s.setDev v).spad = s.spad := rfl
@[simp] theorem setDev_spadE (s : State) (v : Dev) : (s.setDev v).spadE = s.spadE := rfl
@[simp] theorem setDev_acc (s : State) (v : Dev) : (s.setDev v).acc = s.acc := rfl
@[simp] theorem setDev_ue (s : State) (v : Dev) : (s.setDev v).ue = s.ue := rfl
@[simp] theorem setDev_ce (s : State) (v : Dev) : (s.setDev v).ce = s.ce := rfl
@[simp] theorem setDev_l2 (s : State) (v : Dev) : (s.setDev v).l2 = s.l2 := rfl
@[simp] theorem setDev_tlb (s : State) (v : Dev) : (s.setDev v).tlb = s.tlb := rfl
@[simp] theorem setDev_walks (s : State) (v : Dev) : (s.setDev v).walks = s.walks := rfl
@[simp] theorem setDev_code (s : State) (v : Dev) : (s.setDev v).code = s.code := rfl
@[simp] theorem setDev_flt (s : State) (v : Dev) : (s.setDev v).flt = s.flt := rfl
@[simp] theorem setDev_waits (s : State) (v : Dev) : (s.setDev v).waits = s.waits := rfl
@[simp] theorem setDev_wakes (s : State) (v : Dev) : (s.setDev v).wakes = s.wakes := rfl
@[simp] theorem setDev_sweeps (s : State) (v : Dev) : (s.setDev v).sweeps = s.sweeps := rfl
@[simp] theorem setDev_reqs (s : State) (v : Dev) : (s.setDev v).reqs = s.reqs := rfl
@[simp] theorem setDev_pend (s : State) (v : Dev) : (s.setDev v).pend = s.pend := rfl
@[simp] theorem setDev_ops (s : State) (v : Dev) : (s.setDev v).ops = s.ops := rfl
@[simp] theorem setDev_cp (s : State) (v : Dev) : (s.setDev v).cp = s.cp := rfl
@[simp] theorem setDev_saved (s : State) (v : Dev) : (s.setDev v).saved = s.saved := rfl
@[simp] theorem setDev_fab (s : State) (v : Dev) : (s.setDev v).fab = s.fab := rfl
@[simp] theorem setDev_cur (s : State) (v : Dev) : (s.setDev v).cur = s.cur := rfl
@[simp] theorem setDev_agenda (s : State) (v : Dev) : (s.setDev v).agenda = s.agenda := rfl
@[simp] theorem setDev_nextId (s : State) (v : Dev) : (s.setDev v).nextId = s.nextId := rfl
@[simp] theorem setCur_cycle (s : State) (v : Bundle) : (s.setCur v).cycle = s.cycle := rfl
@[simp] theorem setCur_dev (s : State) (v : Bundle) : (s.setCur v).dev = s.dev := rfl
@[simp] theorem setCur_ctxs (s : State) (v : Bundle) : (s.setCur v).ctxs = s.ctxs := rfl
@[simp] theorem setCur_teams (s : State) (v : Bundle) : (s.setCur v).teams = s.teams := rfl
@[simp] theorem setCur_groups (s : State) (v : Bundle) : (s.setCur v).groups = s.groups := rfl
@[simp] theorem setCur_threads (s : State) (v : Bundle) : (s.setCur v).threads = s.threads := rfl
@[simp] theorem setCur_cores (s : State) (v : Bundle) : (s.setCur v).cores = s.cores := rfl
@[simp] theorem setCur_mem (s : State) (v : Bundle) : (s.setCur v).mem = s.mem := rfl
@[simp] theorem setCur_spad (s : State) (v : Bundle) : (s.setCur v).spad = s.spad := rfl
@[simp] theorem setCur_spadE (s : State) (v : Bundle) : (s.setCur v).spadE = s.spadE := rfl
@[simp] theorem setCur_acc (s : State) (v : Bundle) : (s.setCur v).acc = s.acc := rfl
@[simp] theorem setCur_ue (s : State) (v : Bundle) : (s.setCur v).ue = s.ue := rfl
@[simp] theorem setCur_ce (s : State) (v : Bundle) : (s.setCur v).ce = s.ce := rfl
@[simp] theorem setCur_l2 (s : State) (v : Bundle) : (s.setCur v).l2 = s.l2 := rfl
@[simp] theorem setCur_tlb (s : State) (v : Bundle) : (s.setCur v).tlb = s.tlb := rfl
@[simp] theorem setCur_walks (s : State) (v : Bundle) : (s.setCur v).walks = s.walks := rfl
@[simp] theorem setCur_code (s : State) (v : Bundle) : (s.setCur v).code = s.code := rfl
@[simp] theorem setCur_flt (s : State) (v : Bundle) : (s.setCur v).flt = s.flt := rfl
@[simp] theorem setCur_waits (s : State) (v : Bundle) : (s.setCur v).waits = s.waits := rfl
@[simp] theorem setCur_wakes (s : State) (v : Bundle) : (s.setCur v).wakes = s.wakes := rfl
@[simp] theorem setCur_sweeps (s : State) (v : Bundle) : (s.setCur v).sweeps = s.sweeps := rfl
@[simp] theorem setCur_reqs (s : State) (v : Bundle) : (s.setCur v).reqs = s.reqs := rfl
@[simp] theorem setCur_pend (s : State) (v : Bundle) : (s.setCur v).pend = s.pend := rfl
@[simp] theorem setCur_ops (s : State) (v : Bundle) : (s.setCur v).ops = s.ops := rfl
@[simp] theorem setCur_cp (s : State) (v : Bundle) : (s.setCur v).cp = s.cp := rfl
@[simp] theorem setCur_saved (s : State) (v : Bundle) : (s.setCur v).saved = s.saved := rfl
@[simp] theorem setCur_fab (s : State) (v : Bundle) : (s.setCur v).fab = s.fab := rfl
@[simp] theorem setCur_cur (s : State) (v : Bundle) : (s.setCur v).cur = v := rfl
@[simp] theorem setCur_agenda (s : State) (v : Bundle) : (s.setCur v).agenda = s.agenda := rfl
@[simp] theorem setCur_nextId (s : State) (v : Bundle) : (s.setCur v).nextId = s.nextId := rfl
@[simp] theorem setAgenda_cycle (s : State) (v : List Sched) : (s.setAgenda v).cycle = s.cycle := rfl
@[simp] theorem setAgenda_dev (s : State) (v : List Sched) : (s.setAgenda v).dev = s.dev := rfl
@[simp] theorem setAgenda_ctxs (s : State) (v : List Sched) : (s.setAgenda v).ctxs = s.ctxs := rfl
@[simp] theorem setAgenda_teams (s : State) (v : List Sched) : (s.setAgenda v).teams = s.teams := rfl
@[simp] theorem setAgenda_groups (s : State) (v : List Sched) : (s.setAgenda v).groups = s.groups := rfl
@[simp] theorem setAgenda_threads (s : State) (v : List Sched) : (s.setAgenda v).threads = s.threads := rfl
@[simp] theorem setAgenda_cores (s : State) (v : List Sched) : (s.setAgenda v).cores = s.cores := rfl
@[simp] theorem setAgenda_mem (s : State) (v : List Sched) : (s.setAgenda v).mem = s.mem := rfl
@[simp] theorem setAgenda_spad (s : State) (v : List Sched) : (s.setAgenda v).spad = s.spad := rfl
@[simp] theorem setAgenda_spadE (s : State) (v : List Sched) : (s.setAgenda v).spadE = s.spadE := rfl
@[simp] theorem setAgenda_acc (s : State) (v : List Sched) : (s.setAgenda v).acc = s.acc := rfl
@[simp] theorem setAgenda_ue (s : State) (v : List Sched) : (s.setAgenda v).ue = s.ue := rfl
@[simp] theorem setAgenda_ce (s : State) (v : List Sched) : (s.setAgenda v).ce = s.ce := rfl
@[simp] theorem setAgenda_l2 (s : State) (v : List Sched) : (s.setAgenda v).l2 = s.l2 := rfl
@[simp] theorem setAgenda_tlb (s : State) (v : List Sched) : (s.setAgenda v).tlb = s.tlb := rfl
@[simp] theorem setAgenda_walks (s : State) (v : List Sched) : (s.setAgenda v).walks = s.walks := rfl
@[simp] theorem setAgenda_code (s : State) (v : List Sched) : (s.setAgenda v).code = s.code := rfl
@[simp] theorem setAgenda_flt (s : State) (v : List Sched) : (s.setAgenda v).flt = s.flt := rfl
@[simp] theorem setAgenda_waits (s : State) (v : List Sched) : (s.setAgenda v).waits = s.waits := rfl
@[simp] theorem setAgenda_wakes (s : State) (v : List Sched) : (s.setAgenda v).wakes = s.wakes := rfl
@[simp] theorem setAgenda_sweeps (s : State) (v : List Sched) : (s.setAgenda v).sweeps = s.sweeps := rfl
@[simp] theorem setAgenda_reqs (s : State) (v : List Sched) : (s.setAgenda v).reqs = s.reqs := rfl
@[simp] theorem setAgenda_pend (s : State) (v : List Sched) : (s.setAgenda v).pend = s.pend := rfl
@[simp] theorem setAgenda_ops (s : State) (v : List Sched) : (s.setAgenda v).ops = s.ops := rfl
@[simp] theorem setAgenda_cp (s : State) (v : List Sched) : (s.setAgenda v).cp = s.cp := rfl
@[simp] theorem setAgenda_saved (s : State) (v : List Sched) : (s.setAgenda v).saved = s.saved := rfl
@[simp] theorem setAgenda_fab (s : State) (v : List Sched) : (s.setAgenda v).fab = s.fab := rfl
@[simp] theorem setAgenda_cur (s : State) (v : List Sched) : (s.setAgenda v).cur = s.cur := rfl
@[simp] theorem setAgenda_agenda (s : State) (v : List Sched) : (s.setAgenda v).agenda = v := rfl
@[simp] theorem setAgenda_nextId (s : State) (v : List Sched) : (s.setAgenda v).nextId = s.nextId := rfl
@[simp] theorem setCycle_cycle (s : State) (v : Nat) : (s.setCycle v).cycle = v := rfl
@[simp] theorem setCycle_dev (s : State) (v : Nat) : (s.setCycle v).dev = s.dev := rfl
@[simp] theorem setCycle_ctxs (s : State) (v : Nat) : (s.setCycle v).ctxs = s.ctxs := rfl
@[simp] theorem setCycle_teams (s : State) (v : Nat) : (s.setCycle v).teams = s.teams := rfl
@[simp] theorem setCycle_groups (s : State) (v : Nat) : (s.setCycle v).groups = s.groups := rfl
@[simp] theorem setCycle_threads (s : State) (v : Nat) : (s.setCycle v).threads = s.threads := rfl
@[simp] theorem setCycle_cores (s : State) (v : Nat) : (s.setCycle v).cores = s.cores := rfl
@[simp] theorem setCycle_mem (s : State) (v : Nat) : (s.setCycle v).mem = s.mem := rfl
@[simp] theorem setCycle_spad (s : State) (v : Nat) : (s.setCycle v).spad = s.spad := rfl
@[simp] theorem setCycle_spadE (s : State) (v : Nat) : (s.setCycle v).spadE = s.spadE := rfl
@[simp] theorem setCycle_acc (s : State) (v : Nat) : (s.setCycle v).acc = s.acc := rfl
@[simp] theorem setCycle_ue (s : State) (v : Nat) : (s.setCycle v).ue = s.ue := rfl
@[simp] theorem setCycle_ce (s : State) (v : Nat) : (s.setCycle v).ce = s.ce := rfl
@[simp] theorem setCycle_l2 (s : State) (v : Nat) : (s.setCycle v).l2 = s.l2 := rfl
@[simp] theorem setCycle_tlb (s : State) (v : Nat) : (s.setCycle v).tlb = s.tlb := rfl
@[simp] theorem setCycle_walks (s : State) (v : Nat) : (s.setCycle v).walks = s.walks := rfl
@[simp] theorem setCycle_code (s : State) (v : Nat) : (s.setCycle v).code = s.code := rfl
@[simp] theorem setCycle_flt (s : State) (v : Nat) : (s.setCycle v).flt = s.flt := rfl
@[simp] theorem setCycle_waits (s : State) (v : Nat) : (s.setCycle v).waits = s.waits := rfl
@[simp] theorem setCycle_wakes (s : State) (v : Nat) : (s.setCycle v).wakes = s.wakes := rfl
@[simp] theorem setCycle_sweeps (s : State) (v : Nat) : (s.setCycle v).sweeps = s.sweeps := rfl
@[simp] theorem setCycle_reqs (s : State) (v : Nat) : (s.setCycle v).reqs = s.reqs := rfl
@[simp] theorem setCycle_pend (s : State) (v : Nat) : (s.setCycle v).pend = s.pend := rfl
@[simp] theorem setCycle_ops (s : State) (v : Nat) : (s.setCycle v).ops = s.ops := rfl
@[simp] theorem setCycle_cp (s : State) (v : Nat) : (s.setCycle v).cp = s.cp := rfl
@[simp] theorem setCycle_saved (s : State) (v : Nat) : (s.setCycle v).saved = s.saved := rfl
@[simp] theorem setCycle_fab (s : State) (v : Nat) : (s.setCycle v).fab = s.fab := rfl
@[simp] theorem setCycle_cur (s : State) (v : Nat) : (s.setCycle v).cur = s.cur := rfl
@[simp] theorem setCycle_agenda (s : State) (v : Nat) : (s.setCycle v).agenda = s.agenda := rfl
@[simp] theorem setCycle_nextId (s : State) (v : Nat) : (s.setCycle v).nextId = s.nextId := rfl
@[simp] theorem bump_cycle (s : State) : (s.bump).cycle = s.cycle := rfl
@[simp] theorem bump_dev (s : State) : (s.bump).dev = s.dev := rfl
@[simp] theorem bump_ctxs (s : State) : (s.bump).ctxs = s.ctxs := rfl
@[simp] theorem bump_teams (s : State) : (s.bump).teams = s.teams := rfl
@[simp] theorem bump_groups (s : State) : (s.bump).groups = s.groups := rfl
@[simp] theorem bump_threads (s : State) : (s.bump).threads = s.threads := rfl
@[simp] theorem bump_cores (s : State) : (s.bump).cores = s.cores := rfl
@[simp] theorem bump_mem (s : State) : (s.bump).mem = s.mem := rfl
@[simp] theorem bump_spad (s : State) : (s.bump).spad = s.spad := rfl
@[simp] theorem bump_spadE (s : State) : (s.bump).spadE = s.spadE := rfl
@[simp] theorem bump_acc (s : State) : (s.bump).acc = s.acc := rfl
@[simp] theorem bump_ue (s : State) : (s.bump).ue = s.ue := rfl
@[simp] theorem bump_ce (s : State) : (s.bump).ce = s.ce := rfl
@[simp] theorem bump_l2 (s : State) : (s.bump).l2 = s.l2 := rfl
@[simp] theorem bump_tlb (s : State) : (s.bump).tlb = s.tlb := rfl
@[simp] theorem bump_walks (s : State) : (s.bump).walks = s.walks := rfl
@[simp] theorem bump_code (s : State) : (s.bump).code = s.code := rfl
@[simp] theorem bump_flt (s : State) : (s.bump).flt = s.flt := rfl
@[simp] theorem bump_waits (s : State) : (s.bump).waits = s.waits := rfl
@[simp] theorem bump_wakes (s : State) : (s.bump).wakes = s.wakes := rfl
@[simp] theorem bump_sweeps (s : State) : (s.bump).sweeps = s.sweeps := rfl
@[simp] theorem bump_reqs (s : State) : (s.bump).reqs = s.reqs := rfl
@[simp] theorem bump_pend (s : State) : (s.bump).pend = s.pend := rfl
@[simp] theorem bump_ops (s : State) : (s.bump).ops = s.ops := rfl
@[simp] theorem bump_cp (s : State) : (s.bump).cp = s.cp := rfl
@[simp] theorem bump_saved (s : State) : (s.bump).saved = s.saved := rfl
@[simp] theorem bump_fab (s : State) : (s.bump).fab = s.fab := rfl
@[simp] theorem bump_cur (s : State) : (s.bump).cur = s.cur := rfl
@[simp] theorem bump_agenda (s : State) : (s.bump).agenda = s.agenda := rfl
@[simp] theorem bump_nextId (s : State) : (s.bump).nextId = s.nextId + 1 := rfl

end Sys2Proof.Machine.State
end

