-- ==== Sys2Proof/Laws/Lane.lean ====
section
/-! SUPPORT. Threads after an update, and what the frames of lane and uniform instructions do for one thread. -/

namespace Sys2Proof.Machine.State

/-! ## Looking a record up after an update -/

theorem find_map {α : Type} (l : List α) (k : α → Nat) (n : Nat) (f : α → α) (hk : ∀ x, k (f x) = k x) :
    (l.map fun x => if k x = n then f x else x).find? (fun x => k x == n) = (l.find? fun x => k x == n).map f := by
  induction l with
  | nil => rfl
  | cons x l ih =>
    by_cases h : k x = n
    · simp [h, hk]
    · simp [h, ih]

theorem find_map_ne {α : Type} (l : List α) (k : α → Nat) (n m : Nat) (f : α → α) (hk : ∀ x, k (f x) = k x)
    (hm : m ≠ n) :
    (l.map fun x => if k x = n then f x else x).find? (fun x => k x == m) = l.find? fun x => k x == m := by
  induction l with
  | nil => rfl
  | cons x l ih =>
    by_cases h : k x = n
    · simp [h, hk, Ne.symm hm, ih]
    · by_cases h2 : k x = m <;> simp [h, h2, ih, hm]

/-- A thread that has not ended is in the table. -/
theorem th_mem (s : State) (t : Nat) (h : (s.th t).st ≠ .ended) :
    ∃ x, s.threads.find? (fun x => x.slot == t) = some x := by
  unfold th at h
  cases hf : s.threads.find? (fun x => x.slot == t) with
  | none => simp [hf, Thread.none] at h
  | some x => exact ⟨x, rfl⟩

/-- The thread after its own update. -/
theorem th_updThread (s : State) (t : Nat) (f : Thread → Thread) (hf : ∀ x, (f x).slot = x.slot)
    (h : (s.th t).st ≠ .ended) : (s.updThread t f).th t = f (s.th t) := by
  obtain ⟨x, hx⟩ := s.th_mem t h
  have h1 := find_map s.threads (·.slot) t f hf
  simp only [th, updThread_threads, hx] at h1 ⊢
  rw [h1]; rfl

/-- Another thread after an update. -/
theorem th_updThread_ne (s : State) (t u : Nat) (f : Thread → Thread) (hf : ∀ x, (f x).slot = x.slot) (hu : u ≠ t) :
    (s.updThread t f).th u = s.th u := by
  have h1 := find_map_ne s.threads (·.slot) t u f hf hu
  simp only [th, updThread_threads]
  rw [h1]

/-- Two updates of one thread are one. -/
theorem updThread_updThread (s : State) (t : Nat) (f g : Thread → Thread) (hf : ∀ x, (f x).slot = x.slot) :
    (s.updThread t f).updThread t g = s.updThread t (fun x => g (f x)) := by
  simp only [updThread, List.map_map]
  congr 1
  apply List.map_congr_left
  intro x _
  by_cases hx : x.slot = t <;> simp [hx, hf]

/-- Updates that agree on the thread of the slot agree. -/
theorem updThread_congr (s : State) (t : Nat) (f g : Thread → Thread) (h : ∀ x, x.slot = t → f x = g x) :
    s.updThread t f = s.updThread t g := by
  simp only [updThread]
  congr 1
  apply List.map_congr_left
  intro x _
  by_cases hx : x.slot = t <;> simp [hx, h]

theorem gr_updGroup (s : State) (g : Nat) (f : Group → Group) (hf : ∀ x, (f x).gslot = x.gslot)
    (h : ∃ x, s.groups.find? (fun x => x.gslot == g) = some x) : (s.updGroup g f).gr g = f (s.gr g) := by
  obtain ⟨x, hx⟩ := h
  have h1 := find_map s.groups (·.gslot) g f hf
  simp only [gr, updGroup_groups, hx] at h1 ⊢
  rw [h1]; rfl

theorem updGroup_updGroup (s : State) (g : Nat) (f k : Group → Group) (hf : ∀ x, (f x).gslot = x.gslot) :
    (s.updGroup g f).updGroup g k = s.updGroup g (fun x => k (f x)) := by
  simp only [updGroup, List.map_map]
  congr 1
  apply List.map_congr_left
  intro x _
  by_cases hx : x.gslot = g <;> simp [hx, hf]

/-! ## What reads of other parts see -/

@[simp] theorem gr_updThread (s : State) (t g : Nat) (f : Thread → Thread) : (s.updThread t f).gr g = s.gr g := rfl
@[simp] theorem tm_updThread (s : State) (t u : Nat) (f : Thread → Thread) : (s.updThread t f).tm u = s.tm u := rfl
@[simp] theorem grOf_updThread (s : State) (t g : Nat) (f : Thread → Thread) :
    (s.updThread t f).grOf g = s.grOf g := rfl
@[simp] theorem rg_updThread (s : State) (t g n : Nat) (f : Thread → Thread) : (s.updThread t f).rg g n = s.rg g n := rfl
@[simp] theorem threadPend_updThread (s : State) (t u : Nat) (f : Thread → Thread) :
    (s.updThread t f).threadPend u = s.threadPend u := rfl
@[simp] theorem groupPend_updThread (s : State) (t g : Nat) (f : Thread → Thread) :
    (s.updThread t f).groupPend g = s.groupPend g := rfl
@[simp] theorem th_updGroup (s : State) (g t : Nat) (f : Group → Group) : (s.updGroup g f).th t = s.th t := rfl
@[simp] theorem groupPend_updGroup (s : State) (g k : Nat) (f : Group → Group) :
    (s.updGroup g f).groupPend k = s.groupPend k := rfl
@[simp] theorem th_setPend (s : State) (l : List Pend) (t : Nat) : (s.setPend l).th t = s.th t := rfl
@[simp] theorem th_bump (s : State) (t : Nat) : s.bump.th t = s.th t := rfl

/-! ## The frame of a lane instruction -/

/-- With no thread nothing happens. -/
theorem laneOp_nil (h : Hdr) (u : Uses) (body : State → Nat → State) (s : State) (hc : s.cur.threads = []) :
    laneOp h u body s = s := by simp [laneOp, hc]

/-- One thread that passes steps 6 to 8 of R242 with a true guard: the body, then the proof bit's rest. -/
theorem laneOp_one (h : Hdr) (u : Uses) (body : State → Nat → State) (s : State) (t : Nat)
    (hc : s.cur.threads = [t]) (hl : (s.th t).st ≠ .ended) (hh : ∀ n ∈ u.held, holds (s.grOf t) n = true)
    (hp : (s.grOf t).haz = true → s.guardPend t h.gd = none ∧ ∀ o ∈ u.reads, s.opdPend t o = false)
    (hg : s.guardT t h.gd = true) : laneOp h u body s = (body s t).restM h.m t := by
  have h1 : u.held.find? (fun n => !holds (s.grOf t) n) = none := by
    rw [List.find?_eq_none]; intro n hn; simp [hh n hn]
  have h2 : (if s.hazOf t then s.guardPend t h.gd else none) = none := by
    split
    · rename_i hz; exact (hp hz).1
    · rfl
  have h3 : (if s.hazOf t then u.reads.find? (s.opdPend t) else none) = none := by
    split
    · rename_i hz
      rw [List.find?_eq_none]; intro o ho; simp [(hp hz).2 o ho]
    · rfl
  simp only [laneOp, hc, List.foldl_cons, List.foldl_nil, laneOne, hl, if_false, h1, h2, h3, hg]
  simp

/-- One thread with a false guard: nothing but the next instruction (R229). -/
theorem laneOp_off (h : Hdr) (u : Uses) (body : State → Nat → State) (s : State) (t : Nat)
    (hc : s.cur.threads = [t]) (hl : (s.th t).st ≠ .ended) (hh : ∀ n ∈ u.held, holds (s.grOf t) n = true)
    (hp : (s.grOf t).haz = true → s.guardPend t h.gd = none)
    (hg : s.guardT t h.gd = false) : laneOp h u body s = (s.advance t).restM h.m t := by
  have h1 : u.held.find? (fun n => !holds (s.grOf t) n) = none := by
    rw [List.find?_eq_none]; intro n hn; simp [hh n hn]
  have h2 : (if s.hazOf t then s.guardPend t h.gd else none) = none := by
    split
    · rename_i hz; exact hp hz
    · rfl
  simp only [laneOp, hc, List.foldl_cons, List.foldl_nil, laneOne, hl, if_false, h1, h2, hg]
  simp

/-- The threads of a bundle act one after the other, in the order of the list (R253). -/
theorem laneOp_cons (h : Hdr) (u : Uses) (body : State → Nat → State) (s : State) (t : Nat) (l : List Nat)
    (hc : s.cur.threads = t :: l) : laneOp h u body s = l.foldl (laneOne s.hazOf h u body) (laneOne s.hazOf h u body s t) := by
  simp [laneOp, hc]

/-- The proof bit's rest after a body that leaves the thread able to issue. -/
theorem restM_updThread (s : State) (m : Bool) (t : Nat) (f : Thread → Thread) (hf : ∀ x, (f x).slot = x.slot)
    (hl : (s.th t).st ≠ .ended) (hr : ∀ x, (f x).st = .run) :
    (s.updThread t f).restM m t =
      s.updThread t (fun x => { f x with st := if m && s.threadPend t then .proof else .run }) := by
  have h1 := s.th_updThread t f hf hl
  unfold restM
  rw [h1, hr, threadPend_updThread]
  cases hm : (m && s.threadPend t) with
  | false =>
    have h2 : (m && (TSt.run == TSt.run) && s.threadPend t) = false := by
      cases m <;> simp_all
    simp only [h2, Bool.false_eq_true, if_false]
    apply updThread_congr
    intro x _
    rw [← hr x]
  | true =>
    have h2 : (m && (TSt.run == TSt.run) && s.threadPend t) = true := by
      cases m <;> simp_all
    simp only [h2, if_true, setSt]
    rw [updThread_updThread _ _ _ _ hf]

/-- A body that only updates its own thread and goes on to the next instruction. -/
theorem laneOp_next (h : Hdr) (u : Uses) (body : State → Nat → State) (s : State) (t : Nat) (f : Thread → Thread)
    (hc : s.cur.threads = [t]) (hl : (s.th t).st ≠ .ended) (hh : ∀ n ∈ u.held, holds (s.grOf t) n = true)
    (hp : (s.grOf t).haz = true → s.guardPend t h.gd = none ∧ ∀ o ∈ u.reads, s.opdPend t o = false)
    (hg : s.guardT t h.gd = true) (hf : ∀ x, (f x).slot = x.slot) (hr : ∀ x, (f x).st = .run)
    (hb : body s t = s.updThread t f) :
    laneOp h u body s =
      s.updThread t (fun x => { f x with st := if h.m && s.threadPend t then .proof else .run }) := by
  rw [laneOp_one h u body s t hc hl hh hp hg, hb, restM_updThread s h.m t f hf hl hr]

/-- The shape of a fixed-latency result. -/
theorem fixW_eq (d : Nat) (f : State → Nat → Nat) (s : State) (t : Nat) :
    fixW d f s t = s.updThread t fun x =>
      { x with regs := setAt x.regs d ⟨BitVec.ofNat 32 (f s t), Tag.zero⟩,
               pc := x.pc + BitVec.ofNat 64 s.cur.len, st := .run, retry := 0, re := .first, hbuf := [] } := by
  exact updThread_updThread s t (fun x => { x with regs := setAt x.regs d ⟨BitVec.ofNat 32 (f s t), Tag.zero⟩ }) _
    (fun _ => rfl)

theorem fixP_eq (d : Nat) (f : State → Nat → Bool) (s : State) (t : Nat) :
    fixP d f s t = s.updThread t fun x =>
      { x with preds := setAt x.preds d (f s t),
               pc := x.pc + BitVec.ofNat 64 s.cur.len, st := .run, retry := 0, re := .first, hbuf := [] } := by
  exact updThread_updThread s t (fun x => { x with preds := setAt x.preds d (f s t) }) _ (fun _ => rfl)

/-! ## A whole bundle (R253, R284, R295) -/

/-- A thread of the bundle passes steps 6 to 8 of R242: nothing traps before the effect. -/
def passes (s : State) (h : Hdr) (u : Uses) (t : Nat) : Prop :=
  (s.th t).st ≠ .ended ∧ (∀ n ∈ u.held, holds (s.grOf t) n = true) ∧
  ((s.grOf t).haz = true →
    s.guardPend t h.gd = none ∧ (s.guardT t h.gd = true → ∀ o ∈ u.reads, s.opdPend t o = false))

/-- One thread of a bundle whose body updates only that thread. -/
theorem laneOne_upd (z : Nat → Bool) (h : Hdr) (u : Uses) (body : State → Nat → State) (s : State) (t : Nat)
    (f : Thread → Thread) (hz0 : z t = s.hazOf t) (hp : s.passes h u t) (hf : ∀ x, (f x).slot = x.slot)
    (hb : s.guardT t h.gd = true → body s t = s.updThread t fun x =>
      { f x with st := .run, retry := 0, re := .first, hbuf := [] }) :
    laneOne z h u body s t = s.updThread t fun x =>
      { (if s.guardT t h.gd then f x else { x with pc := x.pc + BitVec.ofNat 64 s.cur.len }) with
        st := if h.m && s.threadPend t then .proof else .run,
        retry := 0, re := .first, hbuf := [] } := by
  obtain ⟨hl, hh, hz⟩ := hp
  have h1 : u.held.find? (fun n => !holds (s.grOf t) n) = none := by
    rw [List.find?_eq_none]; intro n hn; simp [hh n hn]
  have h2 : (if s.hazOf t then s.guardPend t h.gd else none) = none := by
    split
    · rename_i h0; exact (hz h0).1
    · rfl
  cases hg : s.guardT t h.gd with
  | false =>
    simp only [laneOne, hz0, hl, if_false, h1, h2, hg, Bool.not_false, if_true]
    unfold advance
    refine Eq.trans (restM_updThread s h.m t _ ?_ hl ?_) ?_
    · intro _; rfl
    · intro _; rfl
    · rfl
  | true =>
    have h3 : (if s.hazOf t then u.reads.find? (s.opdPend t) else none) = none := by
      split
      · rename_i h0
        rw [List.find?_eq_none]; intro o ho; simp [(hz h0).2 hg o ho]
      · rfl
    simp only [laneOne, hz0, hl, if_false, h1, h2, h3, hg, Bool.not_true, Bool.false_eq_true, if_true]
    rw [hb hg]
    refine Eq.trans (restM_updThread s h.m t _ ?_ hl ?_) ?_
    · exact hf
    · intro _; rfl
    · rfl

/-- The thread table after a bundle of register instructions: `f` on the threads with a true guard, all go on. -/
def bundleMap (s : State) (h : Hdr) (l : List Nat) (f : Nat → Thread → Thread) (x : Thread) : Thread :=
  if x.slot ∈ l then
    { (if s.guardT x.slot h.gd then f x.slot x else { x with pc := x.pc + BitVec.ofNat 64 s.cur.len }) with
      st := if h.m && s.threadPend x.slot then .proof else .run,
      retry := 0, re := .first, hbuf := [] }
  else x

theorem bundleMap_out (s : State) (h : Hdr) (l : List Nat) (f : Nat → Thread → Thread) (x : Thread) (hx : x.slot ∉ l) :
    bundleMap s h l f x = x := if_neg hx

theorem laneOp_all_go (h : Hdr) (u : Uses) (body : State → Nat → State) (s : State) (f : Nat → Thread → Thread)
    (hf : ∀ t x, (f t x).slot = x.slot) (l : List Nat) :
    ∀ ths : List Thread, l.Nodup → (∀ t ∈ l, s.passes h u t) →
    (∀ t ∈ l, (s.setThreads ths).th t = s.th t) →
    (∀ t ∈ l, s.guardT t h.gd = true → ∀ ths : List Thread, (s.setThreads ths).th t = s.th t →
      body (s.setThreads ths) t = (s.setThreads ths).updThread t fun x =>
        { f t x with st := .run, retry := 0, re := .first, hbuf := [] }) →
    l.foldl (laneOne s.hazOf h u body) (s.setThreads ths) =
      { s with threads := ths.map (bundleMap s h l f) } := by
  induction l with
  | nil =>
    intro ths _ _ _ _
    have : ths.map (bundleMap s h [] f) = ths :=
      (List.map_congr_left (g := id) fun x _ => by simp [bundleMap]).trans (List.map_id ths)
    rw [this]; rfl
  | cons t l ih =>
    intro ths hn hp ht hb
    have hn' := List.nodup_cons.1 hn
    have e := ht t (by simp)
    have hg : (s.setThreads ths).guardT t h.gd = s.guardT t h.gd := by
      unfold guardT rp; rw [e]
    have hps : (s.setThreads ths).passes h u t := by
      have := hp t (by simp)
      unfold passes at this ⊢
      rw [hg, e]; exact this
    have h1 := laneOne_upd s.hazOf h u body (s.setThreads ths) t (f t) rfl hps (hf t)
      (fun hx => hb t (by simp) (hg ▸ hx) ths e)
    simp only [List.foldl_cons]
    rw [h1]
    have h2 : ∀ v ∈ l, ((s.setThreads ths).updThread t fun x =>
        { (if (s.setThreads ths).guardT t h.gd then f t x else { x with pc := x.pc + BitVec.ofNat 64 s.cur.len }) with
          st := if h.m && (s.setThreads ths).threadPend t then .proof else .run,
          retry := 0, re := .first, hbuf := [] }).th v = s.th v := by
      intro v hv
      rw [th_updThread_ne _ _ _ _ _ (by rintro rfl; exact hn'.1 hv)]
      · exact ht v (by simp [hv])
      · intro x; dsimp only; split
        · exact hf t x
        · rfl
    have h3 := ih _ hn'.2 (fun v hv => hp v (by simp [hv])) h2 (fun v hv => hb v (by simp [hv]))
    refine Eq.trans h3 ?_
    simp only [List.map_map]
    congr 1
    apply List.map_congr_left
    intro x _
    simp only [Function.comp]
    by_cases hx : x.slot = t
    · rw [if_pos hx, bundleMap_out]
      · simp only [bundleMap, hx, List.mem_cons, true_or, if_true, hg]
        rfl
      · have : ∀ y : Thread, y.slot = t → y.slot ∉ l := fun y hy => hy ▸ hn'.1
        apply this
        dsimp only
        split
        · rw [hf]; exact hx
        · exact hx
    · simp only [hx, if_false, bundleMap, List.mem_cons, false_or]

/-- A register instruction over a whole bundle: each thread with a true guard changes by its own `f`, every thread
goes on to the next instruction, and nothing else of the machine changes. -/
theorem laneOp_all (h : Hdr) (u : Uses) (body : State → Nat → State) (s : State) (f : Nat → Thread → Thread)
    (hf : ∀ t x, (f t x).slot = x.slot) (hn : s.cur.threads.Nodup) (hp : ∀ t ∈ s.cur.threads, s.passes h u t)
    (hb : ∀ t ∈ s.cur.threads, s.guardT t h.gd = true → ∀ ths : List Thread,
      (s.setThreads ths).th t = s.th t →
      body (s.setThreads ths) t = (s.setThreads ths).updThread t fun x =>
        { f t x with st := .run, retry := 0, re := .first, hbuf := [] }) :
    laneOp h u body s = { s with threads := s.threads.map (bundleMap s h s.cur.threads f) } :=
  laneOp_all_go h u body s f hf s.cur.threads s.threads hn hp (fun _ _ => rfl) hb

/-! ## Long-latency results of a whole bundle (R211) -/

/-- The results that the threads of a list with a true guard leave pending, named from n on. -/
def bundlePends (s : State) (h : Hdr) (d : Nat) (v : Nat → LaneReg) (fp : Bool) : Nat → List Nat → List Pend
  | _, [] => []
  | n, t :: l =>
    if s.guardT t h.gd then
      ⟨n, .reg t d, .reg (v t), 0, fp, s.cycle⟩ :: bundlePends s h d v fp (n + 1) l
    else bundlePends s h d v fp n l
/-- The thread table after a bundle of long-latency instructions. -/
def bundleMapL (s : State) (h : Hdr) (l : List Nat) (f : Nat → Thread → Thread) (x : Thread) : Thread :=
  if x.slot ∈ l then
    { (if s.guardT x.slot h.gd then f x.slot x else { x with pc := x.pc + BitVec.ofNat 64 s.cur.len }) with
      st := if h.m && (s.guardT x.slot h.gd || s.threadPend x.slot) then .proof else .run,
      retry := 0, re := .first, hbuf := [] }
  else x
theorem bundleMapL_out (s : State) (h : Hdr) (l : List Nat) (f : Nat → Thread → Thread) (x : Thread)
    (hx : x.slot ∉ l) : bundleMapL s h l f x = x := if_neg hx

/-- Another thread table, pending results and next name. -/
def withRun (s : State) (ths : List Thread) (ps : List Pend) (n : Nat) : State :=
  { s with threads := ths, pend := ps, nextId := n }

/-- Pending results that belong to other threads' lane registers change nothing that a thread asks of its own. -/
def Foreign (s : State) (t : Nat) (ps : List Pend) : Prop :=
  ∃ qs : List Pend, ps = s.pend ++ qs ∧ ∀ p ∈ qs, ∃ u n, p.dst = .reg u n ∧ u ≠ t
theorem Foreign.threadPend {s : State} {t : Nat} {ps : List Pend} (hf : Foreign s t ps) (ths : List Thread) (n : Nat) :
    (s.withRun ths ps n).threadPend t = s.threadPend t := by
  obtain ⟨qs, rfl, h⟩ := hf
  have : qs.any (Pend.ofThread t) = false := by
    rw [List.any_eq_false]; intro p hp
    obtain ⟨u, m, hd, hu⟩ := h p hp
    simp [Pend.ofThread, hd, hu]
  simp [State.threadPend, withRun, List.any_append, this]
theorem Foreign.dstPend {s : State} {t : Nat} {ps : List Pend} (hf : Foreign s t ps) (ths : List Thread) (n : Nat)
    (d : Dst) (hd : ∀ u m, u ≠ t → d ≠ .reg u m) : (s.withRun ths ps n).dstPend d = s.dstPend d := by
  obtain ⟨qs, rfl, h⟩ := hf
  have : qs.any (fun p => p.dst == d) = false := by
    rw [List.any_eq_false]; intro p hp
    obtain ⟨u, m, h1, hu⟩ := h p hp
    simp only [h1, beq_iff_eq]
    intro e
    exact hd u m hu e.symm
  simp [State.dstPend, withRun, List.any_append, this]
theorem Foreign.opdPend {s : State} {t : Nat} {ps : List Pend} (hf : Foreign s t ps) (ths : List Thread) (n : Nat)
    (o : Opd) : (s.withRun ths ps n).opdPend t o = s.opdPend t o := by
  cases o with
  | w k => exact hf.dstPend ths n _ (fun u m hu e => by cases e; exact hu rfl)
  | p k => exact hf.dstPend ths n _ (fun u m hu e => by cases e)
  | g k =>
    simp only [State.opdPend]
    rw [hf.dstPend ths n _ (fun u m hu e => by cases e)]
  | q k => rfl
theorem Foreign.guardPend {s : State} {t : Nat} {ps : List Pend} (hf : Foreign s t ps) (ths : List Thread) (n : Nat)
    (gd : Guard) : (s.withRun ths ps n).guardPend t gd = s.guardPend t gd := by
  simp only [State.guardPend]
  cases gd.idx with
  | none => rfl
  | some i => simp only; rw [hf.dstPend ths n _ (fun u m hu e => by cases e)]

theorem laneOp_long_go (h : Hdr) (u : Uses) (body : State → Nat → State) (s : State) (d : Nat) (v : Nat → LaneReg)
    (fp : Bool) (f : Nat → Thread → Thread) (hf : ∀ t x, (f t x).slot = x.slot) (l : List Nat) :
    ∀ (ths : List Thread) (ps : List Pend) (n : Nat), l.Nodup → (∀ t ∈ l, s.passes h u t) →
    (∀ t ∈ l, (s.withRun ths ps n).th t = s.th t) → (∀ t ∈ l, Foreign s t ps) →
    (∀ t ∈ l, s.guardT t h.gd = true → ∀ (ths : List Thread) (ps : List Pend) (n : Nat),
      (s.withRun ths ps n).th t = s.th t → Foreign s t ps →
      body (s.withRun ths ps n) t =
        (s.withRun ths (ps ++ [⟨n, .reg t d, .reg (v t), 0, fp, s.cycle⟩]) (n + 1)).updThread t fun x =>
          { f t x with st := .run, retry := 0, re := .first, hbuf := [] }) →
    l.foldl (laneOne s.hazOf h u body) (s.withRun ths ps n) =
      s.withRun (ths.map (bundleMapL s h l f)) (ps ++ bundlePends s h d v fp n l)
        (n + (bundlePends s h d v fp n l).length) := by
  induction l with
  | nil =>
    intro ths ps n _ _ _ _ _
    have : ths.map (bundleMapL s h [] f) = ths :=
      (List.map_congr_left (g := id) fun x _ => by simp [bundleMapL]).trans (List.map_id ths)
    rw [this]; simp [bundlePends]
  | cons t l ih =>
    intro ths ps n hn hp ht hq hb
    have hn' := List.nodup_cons.1 hn
    have e := ht t (by simp)
    have q := hq t (by simp)
    have hg : (s.withRun ths ps n).guardT t h.gd = s.guardT t h.gd := by unfold guardT rp; rw [e]
    obtain ⟨hl, hh, hz⟩ := hp t (by simp)
    have h1 : u.held.find? (fun k => !holds ((s.withRun ths ps n).grOf t) k) = none := by
      rw [List.find?_eq_none]; intro k hk; simp; exact hh k hk
    have h2 : (if s.hazOf t then (s.withRun ths ps n).guardPend t h.gd else none) = none := by
      rw [q.guardPend]
      split
      · rename_i h0; exact (hz h0).1
      · rfl
    have key : ∃ (T : List Thread) (P : List Pend) (N : Nat),
        laneOne s.hazOf h u body (s.withRun ths ps n) t = s.withRun T P N ∧
        T = ths.map (fun x => if x.slot = t then
          { (if s.guardT t h.gd then f t x else { x with pc := x.pc + BitVec.ofNat 64 s.cur.len }) with
            st := if h.m && (s.guardT t h.gd || s.threadPend t) then .proof else .run,
            retry := 0, re := .first, hbuf := [] } else x) ∧
        P = ps ++ bundlePends s h d v fp n [t] ∧ N = n + (bundlePends s h d v fp n [t]).length := by
      cases hgt : s.guardT t h.gd with
      | false =>
        refine ⟨_, _, _, ?_, rfl, rfl, rfl⟩
        simp only [laneOne, e, hl, if_false, h1, h2, hg, hgt, Bool.not_false, if_true]
        unfold advance
        refine Eq.trans (restM_updThread _ h.m t _ ?_ (e ▸ hl) ?_) ?_
        · intro _; rfl
        · intro _; rfl
        · rw [q.threadPend]
          simp [bundlePends, hgt, withRun, updThread]
      | true =>
        have h3 : (if s.hazOf t then u.reads.find? ((s.withRun ths ps n).opdPend t) else none) = none := by
          split
          · rename_i h0
            rw [List.find?_eq_none]; intro o ho; rw [q.opdPend]; simp [(hz h0).2 hgt o ho]
          · rfl
        refine ⟨_, _, _, ?_, rfl, rfl, rfl⟩
        simp only [laneOne, e, hl, if_false, h1, h2, h3, hg, hgt, Bool.not_true, Bool.false_eq_true, if_true]
        rw [hb t (by simp) hgt ths ps n e q]
        refine Eq.trans (restM_updThread _ h.m t _ ?_ (e ▸ hl) ?_) ?_
        · exact hf t
        · intro _; rfl
        · have hp1 : (s.withRun ths (ps ++ [⟨n, .reg t d, .reg (v t), 0, fp, s.cycle⟩]) (n + 1)).threadPend t
              = true := by simp [State.threadPend, withRun, Pend.ofThread]
          rw [hp1]
          simp [bundlePends, hgt, withRun, updThread]
    obtain ⟨T, P, N, hk, hT, hP, hN⟩ := key
    simp only [List.foldl_cons]
    rw [hk]
    have h4 : ∀ w ∈ l, (s.withRun T P N).th w = s.th w := by
      intro w hw
      have hne : w ≠ t := by rintro rfl; exact hn'.1 hw
      rw [← ht w (by simp [hw])]
      have h5 := find_map_ne ths (·.slot) t w (fun x =>
          { (if s.guardT t h.gd then f t x else { x with pc := x.pc + BitVec.ofNat 64 s.cur.len }) with
            st := if h.m && (s.guardT t h.gd || s.threadPend t) then .proof else .run,
            retry := 0, re := .first, hbuf := [] }) (by intro x; dsimp only; split; exact hf t x; rfl) hne
      simp only [th, withRun, hT]
      rw [h5]
    have h6 : ∀ w ∈ l, Foreign s w P := by
      intro w hw
      have hne : w ≠ t := by rintro rfl; exact hn'.1 hw
      obtain ⟨qs, h7, h8⟩ := hq w (by simp [hw])
      refine ⟨qs ++ bundlePends s h d v fp n [t], by rw [hP, h7, List.append_assoc], ?_⟩
      intro p hp'
      rcases List.mem_append.1 hp' with h9 | h9
      · exact h8 p h9
      · simp only [bundlePends] at h9
        split at h9
        · simp only [List.mem_singleton] at h9
          exact ⟨t, d, by rw [h9], Ne.symm hne⟩
        · simp at h9
    rw [ih T P N hn'.2 (fun w hw => hp w (by simp [hw])) h4 h6 (fun w hw => hb w (by simp [hw]))]
    have h7 : bundlePends s h d v fp n (t :: l) = bundlePends s h d v fp n [t] ++ bundlePends s h d v fp N l := by
      rw [hN]; simp only [bundlePends]; split <;> simp
    rw [h7, hP]
    have h8 : T.map (bundleMapL s h l f) = ths.map (bundleMapL s h (t :: l) f) := by
      rw [hT, List.map_map]
      apply List.map_congr_left
      intro x _
      simp only [Function.comp]
      by_cases hx : x.slot = t
      · rw [if_pos hx, bundleMapL_out]
        · simp only [bundleMapL, hx, List.mem_cons, true_or, if_true]
        · have : ∀ y : Thread, y.slot = t → y.slot ∉ l := fun y hy => hy ▸ hn'.1
          apply this
          dsimp only
          split
          · rw [hf]; exact hx
          · exact hx
      · simp only [hx, if_false, bundleMapL, List.mem_cons, false_or]
    rw [h8, List.append_assoc, List.length_append, hN, Nat.add_assoc]

/-- A long-latency instruction over a whole bundle: a pending result for each thread with a true guard. -/
theorem laneOp_long (h : Hdr) (u : Uses) (body : State → Nat → State) (s : State) (d : Nat) (v : Nat → LaneReg)
    (fp : Bool) (f : Nat → Thread → Thread) (hf : ∀ t x, (f t x).slot = x.slot) (hn : s.cur.threads.Nodup)
    (hp : ∀ t ∈ s.cur.threads, s.passes h u t)
    (hb : ∀ t ∈ s.cur.threads, s.guardT t h.gd = true → ∀ (ths : List Thread) (ps : List Pend) (n : Nat),
      (s.withRun ths ps n).th t = s.th t → Foreign s t ps →
      body (s.withRun ths ps n) t =
        (s.withRun ths (ps ++ [⟨n, .reg t d, .reg (v t), 0, fp, s.cycle⟩]) (n + 1)).updThread t fun x =>
          { f t x with st := .run, retry := 0, re := .first, hbuf := [] }) :
    laneOp h u body s =
      s.withRun (s.threads.map (bundleMapL s h s.cur.threads f))
        (s.pend ++ bundlePends s h d v fp s.nextId s.cur.threads)
        (s.nextId + (bundlePends s h d v fp s.nextId s.cur.threads).length) :=
  laneOp_long_go h u body s d v fp f hf s.cur.threads s.threads s.pend s.nextId hn hp (fun _ _ => rfl)
    (fun _ _ => ⟨[], by simp, by simp⟩) hb

end Sys2Proof.Machine.State
end

