-- ==== Sys2Proof/Laws/Memory.lean ====
section
/-! SUPPORT. The canonical byte memory: every write keeps the form, a read after a write, and addresses a write leaves alone. -/

namespace Sys2Proof.Machine.Memory

/-- Canonical form from a lower bound on: every address at least b, rising, no zero byte. -/
theorem wf_cons (x : Nat) (v : Byte) (l : List Host.Cell) :
    wf ((x, v) :: l) = true ↔ v ≠ 0 ∧ (∀ p ∈ l.head?, x < p.1) ∧ wf l = true := by
  cases l with
  | nil => simp [wf]
  | cons p l => obtain ⟨y, w⟩ := p; simp [wf, and_assoc]

theorem set_head (l : List Host.Cell) (a : Nat) (b : Byte) (x : Nat) (hx : x < a) (h : ∀ p ∈ l.head?, x < p.1) :
    wf l = true → ∀ p ∈ (set l a b).head?, x < p.1 := by
  cases l with
  | nil => intro _; unfold set; split <;> simp; exact hx
  | cons q l =>
    obtain ⟨y, w⟩ := q
    intro hw
    have hy : x < y := h (y, w) (by simp)
    rw [wf_cons] at hw
    unfold set
    split
    · split <;> simp
      · exact hy
      · exact hx
    · split
      · split
        · intro p hp
          exact Nat.lt_trans hy (hw.2.1 p hp)
        · simp; exact hx
      · simp; exact hy

/-- A write of one byte keeps the canonical form. -/
theorem wf_set (l : List Host.Cell) (a : Nat) (b : Byte) (h : wf l = true) : wf (set l a b) = true := by
  induction l with
  | nil => unfold set; split <;> simp_all [wf]
  | cons q l ih =>
    obtain ⟨y, w⟩ := q
    have hw := (wf_cons y w l).1 h
    unfold set
    split
    · split
      · exact h
      · rename_i h1 h2
        rw [wf_cons]
        exact ⟨h2, by simpa using h1, h⟩
    · split
      · split
        · exact hw.2.2
        · rename_i h1 h2 h3
          rw [wf_cons]
          subst h2
          exact ⟨h3, hw.2.1, hw.2.2⟩
      · rename_i h1 h2
        rw [wf_cons]
        exact ⟨hw.1, set_head l a b y (by omega) hw.2.1 hw.2.2, ih hw.2.2⟩

/-- A write of consecutive bytes keeps the canonical form. -/
theorem wf_setMany (d : List Byte) (m : List Host.Cell) (a : Nat) (h : wf m = true) : wf (setMany m a d) = true := by
  induction d generalizing m a with
  | nil => exact h
  | cons b d ih => exact ih (set m a b) (a + 1) (wf_set m a b h)

/-- Entries below the first address read 0. -/
theorem get_below (l : List Host.Cell) (a : Nat) (h : wf l = true) (hh : ∀ p ∈ l.head?, a < p.1) : get l a = 0 := by
  induction l with
  | nil => rfl
  | cons q l ih =>
    obtain ⟨y, w⟩ := q
    have hw := (wf_cons y w l).1 h
    have hy : a < y := hh (y, w) (by simp)
    simp only [get]
    rw [if_neg (by omega)]
    exact ih hw.2.2 fun p hp => Nat.lt_trans hy (hw.2.1 p hp)

/-- A read after a write of the same byte. -/
theorem get_set_same (l : List Host.Cell) (a : Nat) (b : Byte) (h : wf l = true) : get (set l a b) a = b := by
  induction l with
  | nil => unfold set; split <;> simp_all [get]
  | cons q l ih =>
    obtain ⟨y, w⟩ := q
    have hw := (wf_cons y w l).1 h
    unfold set
    split
    · rename_i h1
      split
      · rename_i h2
        rw [h2]
        exact get_below _ a h (by simpa using h1)
      · simp [get]
    · split
      · rename_i h1 h2
        split
        · rename_i h3
          rw [h3]
          exact get_below _ a hw.2.2 (by subst h2; exact hw.2.1)
        · simp [get]
      · rename_i h1 h2
        simp only [get]
        rw [if_neg (by omega)]
        exact ih hw.2.2

/-- A write leaves every other byte alone. -/
theorem get_set_ne (l : List Host.Cell) (a c : Nat) (b : Byte) (hc : c ≠ a) : get (set l a b) c = get l c := by
  induction l with
  | nil => unfold set; split <;> simp [get, Ne.symm hc]
  | cons q l ih =>
    obtain ⟨y, w⟩ := q
    unfold set
    split
    · split
      · rfl
      · simp [get, Ne.symm hc]
    · split
      · rename_i h1 h2
        split
        · simp only [get]; rw [if_neg (by omega)]
        · simp only [get]; rw [if_neg (by omega), if_neg (by omega)]
      · simp only [get]; rw [ih]

/-- Consecutive writes leave the addresses outside them alone. -/
theorem get_setMany_ne (d : List Byte) (m : List Host.Cell) (a c : Nat) (hc : c < a ∨ a + d.length ≤ c) :
    get (setMany m a d) c = get m c := by
  induction d generalizing m a with
  | nil => rfl
  | cons b d ih =>
    simp only [List.length_cons] at hc
    simp only [setMany]
    rw [ih (set m a b) (a + 1) (by omega), get_set_ne m a c b (by omega)]

/-- A read after consecutive writes, inside them. -/
theorem get_setMany_same (d : List Byte) (m : List Host.Cell) (a i : Nat) (h : wf m = true) (hi : i < d.length) :
    get (setMany m a d) (a + i) = d[i] := by
  induction d generalizing m a i with
  | nil => simp at hi
  | cons b d ih =>
    simp only [setMany]
    cases i with
    | zero =>
      rw [get_setMany_ne d _ (a + 1) (a + 0) (by omega)]
      exact get_set_same m a b h
    | succ i =>
      have := ih (set m a b) (a + 1) i (wf_set m a b h) (by simpa using hi)
      rw [show a + (i + 1) = a + 1 + i by omega, this]
      simp

/-- The canonical form, said without the list's shape: rising addresses, no byte that an unlisted address reads as. -/
theorem wf_iff (l : List Host.Cell) : wf l = true ↔ (l.Pairwise fun a b => a.1 < b.1) ∧ ∀ p ∈ l, p.2 ≠ 0 := by
  induction l with
  | nil => simp [wf]
  | cons q l ih =>
    obtain ⟨x, v⟩ := q
    rw [wf_cons, ih, List.pairwise_cons]
    constructor
    · rintro ⟨hv, hx, hp, hn⟩
      refine ⟨⟨?_, hp⟩, by simpa using ⟨hv, fun a b hm => hn (a, b) hm⟩⟩
      cases l with
      | nil => simp
      | cons r l =>
        have h1 := hx r (by simp)
        rw [List.pairwise_cons] at hp
        rintro p (_ | ⟨_, hm⟩)
        · exact h1
        · exact Nat.lt_trans h1 (hp.1 p hm)
    · rintro ⟨⟨ha, hp⟩, hn⟩
      exact ⟨hn (x, v) (by simp), fun p hm => ha p (List.mem_of_mem_head? hm), hp, fun p hm => hn p (by simp [hm])⟩

/-- A range filled with one value leaves the form. -/
theorem wf_fillRange (lo n : Nat) (v : Byte) (l : List Host.Cell) (h : wf l = true) :
    wf (State.fillRange lo n v l) = true := by
  rw [wf_iff] at *
  unfold State.fillRange
  have hr : (List.range n).Pairwise fun a b => lo + a < lo + b :=
    (List.pairwise_lt_range).imp fun hab => by omega
  refine ⟨?_, ?_⟩
  · rw [List.pairwise_append, List.pairwise_append]
    refine ⟨⟨h.1.filter _, ?_, ?_⟩, h.1.filter _, ?_⟩
    · split
      · exact List.Pairwise.nil
      · rw [List.pairwise_map]; exact hr
    · intro a ha b hb
      split at hb
      · simp at hb
      · simp at ha hb; obtain ⟨k, hk, rfl⟩ := hb; simp; omega
    · intro a ha b hb
      simp at hb
      rcases List.mem_append.1 ha with ha | ha
      · simp at ha; omega
      · split at ha
        · simp at ha
        · simp at ha; obtain ⟨k, hk, rfl⟩ := ha; simp; omega
  · intro p hp
    rcases List.mem_append.1 hp with hp | hp
    · rcases List.mem_append.1 hp with hp | hp
      · exact h.2 p (List.mem_filter.1 hp).1
      · split at hp
        · simp at hp
        · rename_i hv; simp at hp; obtain ⟨k, hk, rfl⟩ := hp; exact hv
    · exact h.2 p (List.mem_filter.1 hp).1

/-- So does a copied range. -/
theorem wf_copyRange (a b n : Nat) (l : List Host.Cell) (h : wf l = true) : wf (State.copyRange a b n l) = true := by
  rw [wf_iff] at *
  unfold State.copyRange
  refine ⟨?_, ?_⟩
  · rw [List.pairwise_append, List.pairwise_append]
    refine ⟨⟨h.1.filter _, ?_, ?_⟩, h.1.filter _, ?_⟩
    · rw [List.pairwise_map]
      refine (h.1.filter _).imp_of_mem fun {x y} hx hy hxy => ?_
      simp at hx hy ⊢; omega
    · intro x hx y hy
      simp at hx hy; obtain ⟨k, w, hk, rfl⟩ := hy; simp; omega
    · intro x hx y hy
      simp at hy
      rcases List.mem_append.1 hx with hx | hx
      · simp at hx; omega
      · simp at hx; obtain ⟨k, w, hk, rfl⟩ := hx; simp; omega
  · intro p hp
    rcases List.mem_append.1 hp with hp | hp
    · rcases List.mem_append.1 hp with hp | hp
      · exact h.2 p (List.mem_filter.1 hp).1
      · obtain ⟨c, hc, rfl⟩ := List.mem_map.1 hp; exact h.2 c (List.mem_filter.1 hc).1
    · exact h.2 p (List.mem_filter.1 hp).1

end Sys2Proof.Machine.Memory

namespace Sys2Proof.Machine.State

/-- A write of one physical byte keeps the memory canonical. -/
theorem wrB_wf (s : State) (pa : Nat) (b : Byte) (h : Memory.wf s.mem = true) : Memory.wf (s.wrB pa b).mem = true := by
  unfold wrB
  split
  · exact Memory.wf_set _ _ _ h
  · exact h

/-- A write of physical bytes keeps the memory canonical. -/
theorem wrBytes_wf (l : List Byte) (s : State) (pa : Nat) (h : Memory.wf s.mem = true) :
    Memory.wf (s.wrBytes pa l).mem = true := by
  induction l generalizing s pa with
  | nil => exact h
  | cons b l ih => exact ih (s.wrB pa b) (pa + 1) (s.wrB_wf pa b h)

/-- A write of scratchpad bytes keeps the scratchpads canonical. -/
theorem wrSpBytes_wf (s : State) (c off : Nat) (l : List Byte) (h : Memory.wf s.spad = true) :
    Memory.wf (s.wrSpBytes c off l).spad = true := Memory.wf_setMany l _ _ h

/-- A write of a tile word keeps the tiles canonical. -/
theorem wrAcc_wf (s : State) (c t off : Nat) (l : List Byte) (h : Memory.wf s.acc = true) :
    Memory.wf (s.wrAcc c t off l).acc = true := Memory.wf_setMany l _ _ h

/-- Marks and errors of granules are no memory. -/
@[simp] theorem clearMarks_mem (s : State) (pa n : Nat) : (s.clearMarks pa n).mem = s.mem := rfl
@[simp] theorem queueBad_mem (s : State) (pa : Nat) (ue : Bool) : (s.queueBad pa ue).mem = s.mem := rfl
@[simp] theorem askProms_mem (s : State) (pa : Nat) : (s.askProms pa).mem = s.mem := rfl
@[simp] theorem mergeMisses_mem (s : State) (pa : Nat) : (s.mergeMisses pa).mem = s.mem := rfl
@[simp] theorem updL2_mem (s : State) (f : List L2Line → List L2Line) : (s.updL2 f).mem = s.mem := rfl
@[simp] theorem ceFound_mem (s : State) (pa : Nat) : (s.ceFound pa).mem = s.mem := by
  unfold ceFound
  simp only
  split <;> rfl
@[simp] theorem met_mem (s : State) (pa n : Nat) : (s.met pa n).mem = s.mem := by
  unfold met
  generalize s.ce.filter _ = l
  induction l generalizing s with
  | nil => rfl
  | cons g l ih => rw [List.foldl_cons, ih, ceFound_mem]

/-- A write of a full/empty bit in its region keeps the memory canonical. -/
theorem setFeRegion_wf (s : State) (pa : Nat) (b : Bool) (h : Memory.wf s.mem = true) :
    Memory.wf (s.setFeRegion pa b).mem = true := s.wrB_wf _ _ h

/-- The write-back of a line's bits keeps the memory canonical. -/
theorem writeBits_wf (s : State) (l : L2Line) (h : Memory.wf s.mem = true) : Memory.wf (s.writeBits l).mem = true := by
  unfold writeBits
  split
  · rename_i hd
    clear hd
    split
    · exact h
    · rename_i hu
      clear hu
      generalize List.range 32 = is
      induction is generalizing s with
      | nil => exact h
      | cons i is ih => exact ih _ (s.setFeRegion_wf _ _ h)
  · exact h

/-- A line that leaves its slice keeps the memory canonical. -/
theorem evictLine_wf (s : State) (l : L2Line) (h : Memory.wf s.mem = true) : Memory.wf (s.evictLine l).mem = true :=
  writeBits_wf _ l h

theorem l2Room_wf (s : State) (m : List L2Line) (h : Memory.wf s.mem = true) : Memory.wf (s.l2Room m).1.mem = true := by
  unfold l2Room
  split
  · exact h
  · simp only
    split
    · refine evictLine_wf _ _ ?_
      split
      · split <;> simpa using h
      · exact h
    · split
      · split <;> simpa using h
      · exact h

/-- An allocation keeps the memory canonical. -/
theorem l2Alloc_wf (s : State) (pa n cp pl : Nat) (hint : Hint) (wr bits : Bool) (h : Memory.wf s.mem = true) :
    Memory.wf (s.l2Alloc pa n cp pl hint wr bits).mem = true := by
  have h1 := fun m => l2Room_wf s m h
  unfold l2Alloc
  simp only
  split
  · rw [updL2_mem]
    split
    · split
      · exact h1 _
      · rw [met_mem]; exact h1 _
    · exact h1 _
  · exact h1 _

/-- A lookup at a home slice keeps the memory canonical, whatever leaves for it (R44 to R49, R85). -/
theorem l2Touch_wf (s : State) (pa n cp pl : Nat) (hint : Hint) (wr fe feb merged : Bool)
    (h : Memory.wf s.mem = true) : Memory.wf (s.l2Touch pa n cp pl hint wr fe feb merged).mem = true := by
  have h0 : Memory.wf (s.met pa n).mem = true := by rw [met_mem]; exact h
  unfold l2Touch
  simp only
  split
  · split
    · exact evictLine_wf _ _ h0
    · rw [updL2_mem]; split <;> simpa using h
  · split
    · exact h0
    · split
      · exact l2Alloc_wf _ _ _ _ _ _ _ _ h0
      · split
        · exact h0
        · split <;> simpa using h

/-- So does every lookup without a page. -/
theorem look_wf (s : State) (pa n : Nat) (wr : Bool) (h : Memory.wf s.mem = true) :
    Memory.wf (s.look pa n wr).mem = true := by
  unfold look
  split
  · exact h
  · rw [updL2_mem, met_mem]; exact h

@[simp] theorem queueAll_mem (s : State) (l : List Nat) : (s.queueAll l).mem = s.mem := by
  unfold queueAll
  induction l generalizing s with
  | nil => rfl
  | cons g l ih => rw [List.foldl_cons, ih, queueBad_mem]

/-- A write by an agent that uses no page keeps the memory canonical. -/
theorem wrPhys_wf (s : State) (pa : Nat) (d : List Byte) (h : Memory.wf s.mem = true) :
    Memory.wf (s.wrPhys pa d).mem = true := by
  unfold wrPhys
  split
  · exact h
  · split
    · rw [clearMarks_mem]; exact wrBytes_wf _ _ _ (look_wf _ _ _ _ h)
    · rw [queueAll_mem]; exact h

/-- A frame filled with zero leaves the memory canonical. -/
theorem zeroFrame_wf (s : State) (f n : Nat) (h : Memory.wf s.mem = true) : Memory.wf (s.zeroFrame f n).mem = true := by
  unfold zeroFrame
  simp only [updL2_mem, clearMarks_mem]
  exact Memory.wf_fillRange _ _ _ _ (Memory.wf_fillRange _ _ _ _ (look_wf _ _ _ _ h))

/-- The memories of the reset state are canonical. -/
theorem reset_wf : Memory.wf reset.mem = true ∧ Memory.wf reset.spad = true ∧ Memory.wf reset.acc = true :=
  ⟨rfl, rfl, rfl⟩

end Sys2Proof.Machine.State
end

