-- ==== Sys2Proof/Tests/Slice0.lean ====
section
/-! SUPPORT. Tests of the model: words and values that the spec gives, ill-formed terms, and for every statement of
Certificates/Slice0/Obligations.lean states and operands that meet its hypotheses, clause by clause. -/

set_option maxRecDepth 4000
set_option Elab.async false
set_option linter.all false

open Sys2Proof Sys2Proof.Machine Sys2Proof.Says

/-! ## A small machine for the witnesses -/

namespace W

/-- A 2 MiB page at 0x400000 with write, execute and full/empty bits, in every TLB. -/
def leaf : Leaf := { va := 0x400000, pa := 0x800000, sz := .m2, w := true, x := true, cp := 0, pl := 0, feb := true }
def units : List TlbUnit := [.instr 0 0, .data 0 0, .core 0, .peel 0, .remote]
def ctx0 : Ctx := { Ctx.none 0 with localBase := 0x500000, trapVec := 0x400000 }
def team1 : Team :=
  { Team.none 1 with ctx := 0, core := 0, ngrp := 1, nx := 2, ny := 1, nz := 1, spBase := 0x1000, spSize := 0x2000,
                     slots := List.replicate 8 DSlot.zero, bars := List.replicate 16 (Bar.start 1), prio := 2 }
def group0 : Group :=
  { Group.none 0 with team := 1, gid := 3, base := 64, extOk := true, ext := true, stk := 256, active := true,
                      g := (List.range 64).map fun i => BitVec.ofNat 64 (0x400000 + 64 * i),
                      q := [true, false, true, false, false, false, false, false] }
def thr (t : Nat) : Thread :=
  { Thread.none t with pc := 0x400100, st := .run, trap := TrapRegs.reset 0x400000 0x401000,
                       regs := (List.range 128).map fun i => ⟨BitVec.ofNat 32 (0x100 * i + 4 * t), Tag.zero⟩,
                       preds := (List.range 12).map fun i => (i + t) % 2 == 0 }
/-- Group 0 of team 1 with threads 0, 1 and 2, of which `ts` issue. -/
def st (ts : List Nat) : State :=
  { State.reset with
    cycle := 1000
    dev := { State.reset.dev with ready := true }
    ctxs := [ctx0], teams := [team1], groups := [group0], threads := [thr 0, thr 1, thr 2]
    tlb := units.map fun u => ⟨u, 0, leaf⟩
    cur := { core := 0, quad := 0, threads := ts, pc := 0x400100, len := 8, last := [], busy := [] }
    nextId := 10 }
def one : State := st [0]
def three : State := st [0, 1, 2]
/-- An extension word with the guard p1, which is false in even threads. -/
def h : Hdr := ⟨false, true, ⟨false, some 1⟩⟩
def ha : Hdr := ⟨false, true, Guard.always⟩

end W
namespace W
/-- The same with page tables in memory instead of TLB entries: a 4 KiB page at 0x400000. -/
def walk : State :=
  { one with tlb := [], ctxs := [{ ctx0 with root := FetchWord.rootPa }],
             mem := (FetchWord.image 64 0).foldl (fun m p => Memory.setMany m p.1 p.2) [] }
end W
namespace W
def setT (s : State) (t : Nat) (f : Thread → Thread) : State := s.updThread t f
end W
namespace W
/-- Blocks of bytes in ascending order of address. -/
def insBlock (p : Nat × List Byte) : List (Nat × List Byte) → List (Nat × List Byte)
  | [] => [p]
  | q :: l => if p.1 ≤ q.1 then p :: q :: l else q :: insBlock p l
/-- Memory with these blocks, which do not overlap. -/
def cells (l : List (Nat × List Byte)) : List Host.Cell :=
  (l.foldr insBlock []).flatMap fun p => (p.2.zipIdx.filter fun q => q.1 != 0).map fun q => (p.1 + q.2, q.1)
/-- Page tables that map the 2 MiB page of `leaf`. -/
def tables : List (Nat × List Byte) :=
  [(0x100000, leBytes 8 (FetchWord.pointer 0x101000)), (0x101000, leBytes 8 (FetchWord.pointer 0x102000)),
   (0x102010, leBytes 8 (0x800 * 2 ^ 24 + 0x9007))]
/-- One thread with those tables and some more bytes in memory. -/
def withMem (l : List (Nat × List Byte)) : State :=
  { one with ctxs := [{ ctx0 with root := 0x100000 }],
             mem := cells ((tables.filter fun p => l.all fun q => p.1 != q.1) ++ l) }
def fields (l : List (Nat × Nat)) : Nat := l.foldl (fun n p => n + p.2 * 2 ^ p.1) 0
def planeRec (m spad count hdr pbase stride : Nat) : List Byte :=
  leBytes 64 (fields [(0, 0x50), (8, m), (16, spad), (32, count), (64, hdr), (128, pbase), (192, stride)])
def tensRec : List Byte := leBytes 64 (fields [(0, 0x54), (10, 2), (12, 1), (64, 0x402000), (128, 64), (160, 1), (192, 1), (224, 1), (256, 4)])
def fillBlk : List Byte := leBytes 128 (fields [(0, 0x43), (8, 1), (128, 0x401000), (512, 64), (544, 1), (576, 1), (608, 1)])
/-- A pool of two groups and a sequence record without entries. -/
def seqMem : List (Nat × List Byte) :=
  [(0x803000, Seq.toBytes { addr := 0, home := 0, shift := false, dead := false, depth := 1, child := 0, infl := 0, nslot := 0, plim := 0, nextpos := 0, ecap := 16, parent := 0, pool := 0x403100, ent := 0x403200, live := 0 }),
   (0x803040, Seq.toBytes { addr := 0, home := 0, shift := false, dead := false, depth := 0, child := 0, infl := 0, nslot := 0, plim := 0, nextpos := 0, ecap := 16, parent := 0, pool := 0x403100, ent := 0x403280, live := 0 }),
   (0x803100, leBytes 64 (fields [(0, 0x57), (16, 1), (24, 1), (64, 2), (96, 2), (128, 0x403400), (192, 0x403440), (256, 0x403500)])),
   (0x803400, planeRec 1 0 2048 0x410000 0x420000 2097152), (0x803440, planeRec 1 0 2048 0x411000 0x421000 2097152),
   (0x803500, leBytes 8 0x100000000)]
def sqCmd (opc n mask arg : Nat) : List Byte := leBytes 64 (fields [(0, 0x51), (8, opc), (24, mask), (32, n), (64, 0x403000), (128, arg)])
def launchRec (sys : Nat) : List Byte :=
  leBytes 128 (fields [(0, 0x4C), (11, sys), (24, 1), (64, 1), (80, 1), (96, 1), (256, 0x400000), (256 + 69, 1), (256 + 80, 1)])
def sliceBlk : List Byte :=
  leBytes 128 (fields [(0, 0x53), (12, 1), (16, 1), (20, 1), (24, 1), (48, 1), (64, 1), (128, 0x403000), (192, 0x405000),
    (256, 0x406000), (320, 0x407000), (384, 4)])
def mmaBlk : List Byte :=
  leBytes 64 (fields [(0, 0x4D), (20, 1), (32, 32), (64, 0x1000), (96, 32), (192, 0x40), (256, 32)])
end W

/-! ## Words of the spec -/

/-- The instruction that word0 and E stand for has every operand in its range and its encoding is those words. -/
def reads (w0 e : Nat) (i : Instr) : Bool :=
  decodeWords w0 e == some i && i.wf && encode i == some (leBytes 4 w0 ++ (if bitOf w0 29 then leBytes 4 e else []))

/-- The program of the example after R249. -/
theorem test_words_program :
    reads 0x0F408100 0 (.movs h0 1 1) ∧ reads 0x23C10121 0x7A000000 (.setp hx .lt .s32 2 1 (.imm 16)) ∧
    reads 0x3A000010 0x90000000 (.bra ⟨false, true, ⟨true, some 2⟩⟩ 8) ∧ reads 0x05010105 0 (.shl h0 2 1 (.imm 2)) ∧
    reads 0x50018104 0 (.ld ⟨true, false, Guard.always⟩ ⟨.plain, .s32, .thr, .none, 0⟩ 3 1 (some 2)) ∧
    reads 0x2041830B 0x79000000 (.add hx .ssat .s32 3 3 (.imm 5)) ∧
    reads 0x30418104 0x78000040 (.st hx ⟨.plain, .s32, .thr, .none, 64⟩ 3 1 (some 2)) ∧
    reads 0x1B000000 0 (.exit h0) := by decide +kernel

/-- Spec examples after R258, R274, R276; the last word from R226, R227 and R285. -/
theorem test_words_lane :
    reads 0x2142050C 0x7900E000 (.mad hx .ssat .s32 4 5 (.reg 6) 7) ∧
    reads 0x2A010900 0x78B00000 (.fcvt hx .rn .e4m3 .f32 2 9) ∧
    reads 0x2B050B18 0x78F1A010 (.mxdot hx .rn .e2m1 0 1 10 11 12 13) ∧
    reads 0x2E008207 0x7A000003 (.shfl hx .bc 3 1 2 (.imm 3)) := by decide +kernel

/-- Spec examples after R299, R307, R308, R311 and in R474; the plane words from R226, R236 and R313. -/
theorem test_words_memory :
    reads 0x30020612 0x79001008 (.ld hx ⟨.sync, .s32, .dev, .none, 8⟩ 4 6 (some 9)) ∧
    reads 0x32028206 0x7800F000 (.atom hx .add ⟨.plain, .s32, .dev, .none⟩ 5 2 (some 3) 7) ∧
    reads 0x33400000 0x79001000 (.fence hx .rel .dev) ∧ reads 0x33400000 0x79001400 (.fence hx .rel .dom) ∧
    reads 0x34040404 0x78007001 (.ldwf hx ⟨false, false, .dev, .none, some 3⟩ 8 (.glob 4 2)) ∧
    reads 0x3805020A 0x78000014 (.pld hx ⟨.plain, .thr, .none⟩ 4 .trunc 10 2 5) ∧
    reads 0x1905020A 0 (.pst h0 ⟨.plain, .thr, .none⟩ 10 2 5) := by decide +kernel

/-- Spec examples after R325, R336, R337, R362, R372, R381, and the words of R474. -/
theorem test_words_control_engine :
    reads 0x1B4000FD 0 (.trap h0 (-2)) ∧ reads 0x1EC00000 0 (.tret h0) ∧ reads 0x1E430100 0 (.mft h0 6 1) ∧
    reads 0x1E810400 0 (.mtt h0 2 4) ∧ reads 0x3C400404 0x7800008E (.pcopy hx ⟨4, some 3⟩ 4 (some 2)) ∧
    reads 0x1C400404 0 (.pcopy h0 ⟨0, none⟩ 4 (some 2)) ∧ reads 0x3C400101 0x78000002 (.pcopy hx ⟨0, some 0⟩ 1 none) ∧
    reads 0x3C800404 0x7800004A (.slice hx ⟨2, some 2⟩ 4 (some 2)) ∧ reads 0x1D020601 0 (.sqapp h0 4 6 none) ∧
    reads 0x1D420604 0 (.sqret h0 4 6 (some 2)) ∧ reads 0x1D81850C 0 (.sqfork h0 3 5 (some 6)) ∧
    reads 0x1DC08201 0 (.sqlook h0 1 2 none) ∧ reads 0x5E030001 0 (.engst ⟨true, false, Guard.always⟩ 6 (.imm 0)) := by
  decide +kernel

/-- Spec examples after R323, R327, R329, R332, and the words of R333, R334 and R474. -/
theorem test_words_uniform :
    reads 0x80418411 0 (.uadd h0 false 3 4 (.imm 8)) ∧ reads 0x84C48E00 0 (.umovs h0 9 14) ∧
    reads 0xB0030200 0x78600002 (.uld hx ⟨.plain, .w64, .thr, .none, 2⟩ 6 2) ∧
    reads 0xF0018100 0x78600021 (.uld ⟨true, true, Guard.always⟩ ⟨.plain, .w64, .thr, .none, 33⟩ 3 1) ∧
    reads 0xA87FFFFA 0x7800A000 (.uloop hx (-3) 5) ∧ reads 0xACC00000 0x78000006 (.dwait hx 6) ∧
    reads 0x8D800029 0 (.usleep h0 (.imm 20)) ∧ reads 0x8D800008 0 (.usleep h0 (.reg 4)) ∧
    reads 0x8D000000 0 (.racq h0) ∧ reads 0x8D400000 0 (.rrel h0) := by decide +kernel

/-- R229, R231, R341, R335: words that raise ILLOP. -/
theorem test_words_refused :
    decodeWords 0x2041830B 0x61000000 = none ∧ decodeWords 0x1E810500 0 = none ∧
    decodeWords 0x3C400404 0x78000086 = some (.pcopy hx ⟨4, some 1⟩ 4 (some 2)) ∧
    decodeWords 0x3C400404 0x78000046 = none ∧ decodeWords 0x3805020A 0x78000000 = none ∧
    decodeWords 0x2E008207 0x7A000000 = none := by decide +kernel

/-! ## Ill-formed terms, one for each check of `Instr.wf` -/

/-- Registers, predicates, immediates and offsets outside R230; guards outside R229; an E field without an E (R228). -/
theorem test_wf_operands :
    Instr.wf (.popc h0 128 0) = false ∧ Instr.wf (.mov h0 .s32 0 128) = false ∧
    Instr.wf (.mov hx .w64 3 4) = false ∧ Instr.wf (.mov hx .w128 4 6) = false ∧
    Instr.wf (.umov h0 true 64 1) = false ∧ Instr.wf (.elect h0 .lo 12) = false ∧
    Instr.wf (.usel hx 1 2 (.imm 3) 8) = false ∧ Instr.wf (.and h0 1 2 (.imm 64)) = false ∧
    Instr.wf (.and h0 1 2 (.reg 128)) = false ∧ Instr.wf (.uand h0 false 1 2 (.imm (-65))) = false ∧
    Instr.wf (.uand h0 false 1 2 (.reg 64)) = false ∧ Instr.wf (.ld h0 ⟨.plain, .s32, .thr, .none, 0⟩ 1 2 (some 128)) = false ∧
    Instr.wf (.bra h0 1048576) = false ∧ Instr.wf (.ubra h0 (-1048577)) = false ∧ Instr.wf (.pref hx .none 128 1 none) = false ∧
    Instr.wf (.nop ⟨false, true, ⟨false, some 12⟩⟩) = false ∧ Instr.wf (.nop ⟨false, true, ⟨true, none⟩⟩) = false ∧
    Instr.wf (.unop ⟨false, true, ⟨false, some 8⟩⟩) = false ∧ Instr.wf (.nop ⟨false, false, ⟨false, some 1⟩⟩) = false ∧
    Instr.wf (.add h0 .ssat .s32 1 2 (.reg 3)) = false ∧ Instr.wf (.uadd h0 true 1 2 (.reg 3)) = false ∧
    Instr.wf (.mad h0 .wrap .s32 1 2 (.reg 3) 4) = false ∧ Instr.wf (.umad h0 false 1 2 (.reg 3) 4) = false := by
  decide +kernel

/-- Field rules of the entries (R231, R254, R258, R260, R261, R264, R269 to R291). -/
theorem test_wf_lane :
    Instr.wf (.add hx .usat .s32 1 2 (.reg 3)) = false ∧ Instr.wf (.mulh hx .f32 1 2 (.reg 3)) = false ∧
    Instr.wf (.abs hx true .z32 1 2) = false ∧ Instr.wf (.li hx 1 67108864) = false ∧ Instr.wf (.lih hx 1 65536) = false ∧
    Instr.wf (.mov hx .s16 1 2) = false ∧ Instr.wf (.setp hx .eq .w64 1 2 (.reg 3)) = false ∧
    Instr.wf (.bfx hx true 1 2 (.reg 3) 33) = false ∧ Instr.wf (.bfi hx true 1 2 (.reg 3) 0) = false ∧
    Instr.wf (.fadd hx .rn .s32 1 2 3) = false ∧ Instr.wf (.fcvt hx .rn .s32 .f32 1 2) = false ∧
    Instr.wf (.icvt hx .rn true .f32 .f32 1 2) = false ∧ Instr.wf (.fdot2 hx .rn .f32 1 2 3 4) = false ∧
    Instr.wf (.fdot4 hx .rn .e2m1 1 2 3 4) = false ∧ Instr.wf (.mxdot hx .rn .f16 0 0 1 2 3 4) = false ∧
    Instr.wf (.mxdot hx .rn .s8 4 0 1 2 3 4) = false ∧ Instr.wf (.qnt hx (.pl 13) 1 2) = false ∧
    Instr.wf (.qnt hx (.mx .s8) 1 2) = false ∧ Instr.wf (.pack hx .s16 2 1 2 (.reg 3)) = false ∧
    Instr.wf (.unpk hx .s32 1 2 (.reg 3)) = false ∧ Instr.wf (.vadd2 hx true .s8 1 2 3) = false ∧
    Instr.wf (.hadd2 hx .rn .f32 1 2 3) = false ∧ Instr.wf (.shfl hx .rot 6 1 2 (.reg 3)) = false ∧
    Instr.wf (.redg hx true .add .s16 1 2) = false ∧ Instr.wf (.movs h0 1 19) = false ∧
    Instr.wf (.movg hx true 1 64) = false := by decide +kernel

/-- Field rules of memory, plane, engine and uniform entries (R234 to R237, R293, R304, R309, R313, R327, R335, R341). -/
theorem test_wf_memory_engine_uniform :
    Instr.wf (.ld hx ⟨.plain, .f32, .thr, .none, 0⟩ 1 2 none) = false ∧
    Instr.wf (.lds hx ⟨.plain, .s32, .thr, .evf, 0⟩ 1 2) = false ∧ Instr.wf (.ld hx ⟨.plain, .s32, .thr, .none, 128⟩ 1 2 none) = false ∧
    Instr.wf (.ldnf hx ⟨.seq, .s32, .thr, .none, 0⟩ 1 2 none 3) = false ∧
    Instr.wf (.atom hx .min ⟨.plain, .w64, .dev, .none⟩ 2 2 none 4) = false ∧
    Instr.wf (.red hx .exch ⟨.plain, .s32, .dev, .none⟩ 2 2 none) = false ∧
    Instr.wf (.atoms hx .add ⟨.plain, .w64, .dev, .none⟩ 2 2 4) = false ∧
    Instr.wf (.cas hx ⟨.plain, .f32, .dev, .none⟩ 2 2 none 4) = false ∧
    Instr.wf (.cass hx ⟨.plain, .w64, .dev, .none⟩ 2 2 4) = false ∧
    Instr.wf (.stfs hx ⟨false, false, .dev, .none, some 1⟩ 1 (.glob 1 2)) = false ∧
    Instr.wf (.feget hx ⟨true, false, .dev, .none, none⟩ 1 (.glob 1 2)) = false ∧
    Instr.wf (.ldwf hx ⟨false, false, .dev, .none, some 12⟩ 1 (.spad 2)) = false ∧
    Instr.wf (.ldwf h0 ⟨false, false, .thr, .none, none⟩ 1 (.spad 2)) = false ∧
    Instr.wf (.pld hx ⟨.plain, .thr, .none⟩ 0 .dflt 1 2 3) = false ∧ Instr.wf (.ptrim hx 13 .mid 1) = false ∧
    Instr.wf (.mma hx ⟨2, some 1⟩ 1) = false ∧ Instr.wf (.mma hx ⟨256, none⟩ 1) = false ∧ Instr.wf (.mma h0 ⟨1, none⟩ 1) = false ∧
    Instr.wf (.mft h0 5 2) = false ∧ Instr.wf (.mtt h0 12 4) = false ∧ Instr.wf (.ulih hx 1 0 5) = false ∧
    Instr.wf (.umovs h0 1 1) = false ∧ Instr.wf (.ubfx hx true 1 2 (.reg 3) 65) = false ∧ Instr.wf (.uloop hx 0 0) = false ∧
    Instr.wf (.bar h0 16) = false ∧ Instr.wf (.dwait hx 256) = false ∧
    Instr.wf (.uld hx ⟨.plain, .w128, .thr, .none, 0⟩ 1 2) = false ∧ Instr.wf (.csplit h0 11) = false ∧
    Instr.wf (.trap h0 64) = false := by decide +kernel

/-! ## Values of the spec's examples -/

/-- The next state of an instruction at the small machine `W.one` with these lane registers, or `W.one` itself. -/
def after (l : List (Nat × Word)) (i : Instr) : State :=
  match exec i (W.setT W.one 0 fun t => { t with regs := l.foldl (fun r p => r.set p.1 ⟨p.2, Tag.zero⟩) t.regs }) with
  | .next s => s
  | _ => W.one

/-- The examples after R258 (DIV answers late, so its result is pending). -/
theorem test_integer_examples :
    w (after [(5, 0x10000), (6, 0x8000), (7, 0xFFFFFFFF)] (.mad hx .ssat .s32 4 5 (.reg 6) 7)) 0 4 = 0x7FFFFFFF ∧
    (after [(2, 0x80)] (.div hx .s8 1 2 (.imm (-1)))).pend.map (fun p => (p.dst, p.val)) =
      [(.reg 0 1, .reg ⟨0xFFFFFF80, Tag.zero⟩)] := by decide +kernel

/-- The example after R266. -/
theorem test_prmt_example :
    w (after [(1, 0x44332211), (2, 0x88776655), (3, 0x1306)] (.prmt hx 4 1 2 3)) 0 4 = 0xFFFF5566 := by decide +kernel

/-- The example after R276: a scaled dot product of MXFP4 elements. -/
theorem test_mxdot_example :
    w (after [(11, 0x532), (12, 0xA26), (13, 0x7E80)] (.mxdot hx .rn .e2m1 0 1 10 11 12 13)) 0 10 = 0x40200000 ∧
    w (after [(11, 0x532), (12, 0xA26), (13, 0xFF80)] (.mxdot hx .rn .e2m1 0 1 10 11 12 13)) 0 10 = 0x7FC00000 := by
  decide +kernel

/-- The examples after R283. -/
theorem test_packed_examples :
    w (after [(2, 0x7FF00010), (3, 0x20FFF0)] (.vadd2 hx true .s16 1 2 3)) 0 1 = 0x7FFF0000 ∧
    w (after [(2, 0x7FF00010), (3, 0x20FFF0)] (.vadd2 hx false .s16 1 2 3)) 0 1 = 0x80100000 ∧
    w (after [(5, 0x5FFFE), (6, 0x30001)] (.vcmp2 hx .gt .s16 4 5 6)) 0 4 = 0xFFFF0000 ∧
    w (after [(5, 0x5FFFE), (6, 0x30001)] (.vcmp2 hx .gt .z16 4 5 6)) 0 4 = 0xFFFFFFFF := by decide +kernel

/-- The example after R325: TRAP -2 at level 0 enters level 1 at the handler with that address. -/
theorem test_trap_example :
    ((after [] (.trap h0 (-2))).th 0).trap.level = 1 ∧ ((after [] (.trap h0 (-2))).th 0).trap.addr1 = 0xFFFFFFFFFFFFFFFE ∧
    ((after [] (.trap h0 (-2))).th 0).pc = 0x400000 := by decide +kernel

/-! ## Places in the pages that the TLBs of the witnesses hold: VA 0x400000 onward at PA 0x800000 onward -/

/-- The leaf of the 2 MiB page of an address. -/
def W.leafAt (a : Nat) : Leaf :=
  { W.leaf with va := 0x400000 + (a - 0x400000) / 0x200000 * 0x200000, pa := 0x800000 + (a - 0x400000) / 0x200000 * 0x200000 }
/-- The place of an address. -/
def W.pa (a : Nat) : Nat := (W.leafAt a).pa + a % 2 ^ 48 % State.pageBytes (W.leafAt a).sz

/-- The state after an instruction that runs. -/
def nextOf (o : Out) : State := match o with | .next s => s | _ => State.reset

theorem pair_ok {α ε : Type} {r : State × Except ε α} {s : State} {a : α} [DecidableEq α]
    (h : r.1 = s) (h' : (match r.2 with | .ok v => decide (v = a) | .error _ => false) = true) : r = (s, .ok a) := by
  obtain ⟨x, y⟩ := r
  cases y <;> simp_all

theorem pair_error {α ε : Type} {r : State × Except ε α} {s : State} {e : ε} [DecidableEq ε]
    (h : r.1 = s) (h' : (match r.2 with | .ok _ => false | .error v => decide (v = e)) = true) : r = (s, .error e) := by
  obtain ⟨x, y⟩ := r
  cases y <;> simp_all

theorem glob_block {s : State} {t : Nat} {r : PlaneRec} {wr : Bool} {l : List (Nat × Nat)} {at_ : Nat → Loc}
    (hr : r.spad = false)
    (h : ∀ i < l.length, bits (l.getD i (0, 0)).1 53 48 = bits (l.getD 0 (0, 0)).1 53 48 ∧
      Glob s t ⟨wr, false, wr, true⟩ (l.getD i (0, 0)).1 (l.getD i (0, 0)).2
        (W.pa (l.getD i (0, 0)).1) (W.leafAt (l.getD i (0, 0)).1) ∧ at_ i = locOf (W.pa (l.getD i (0, 0)).1)) :
    Block s t r wr l at_ := by
  intro i hi
  rw [hr]
  exact ⟨(h i hi).1, _, _, (h i hi).2⟩

theorem record_at {s : State} {t a : Nat} {r : PlaneRec} {b : List Byte}
    (hb : b = (s.plainRead (.thread t) (State.coreOf t) (W.pa (g s (t / 32) a).toNat) 64
      (W.leafAt (g s (t / 32) a).toNat)).getD [])
    (h : (g s (t / 32) a).toNat < 2 ^ 54 ∧ (g s (t / 32) a).toNat % 64 = 0 ∧
      s.isLocal (s.ctxOfThread t) (g s (t / 32) a).toNat = true ∧
      Hit s t .load (g s (t / 32) a).toNat 64 (W.pa (g s (t / 32) a).toNat) (W.leafAt (g s (t / 32) a).toNat) ∧
      s.ueIn (W.pa (g s (t / 32) a).toNat) 64 = false ∧ PlaneRec.ofBytes b = some r)
    (hp : W.pa (g s (t / 32) a).toNat < Config.hostBase ∧
      s.plainRead (.thread t) (State.coreOf t) (W.pa (g s (t / 32) a).toNat) 64
      (W.leafAt (g s (t / 32) a).toNat) = some b) :
    RecordAt s t a r :=
  ⟨_, _, b, h.1, h.2.1, h.2.2.1, h.2.2.2.1, h.2.2.2.2.1, h.2.2.2.2.2, fun _ => hp.2, fun c => absurd hp.1 (by omega)⟩

theorem room_iff {s : State} {t n : Nat} {k : OpKind} {x : EngX} : Room s t k x n ↔
    ((s.ops.filter fun o => o.kind == k && o.st == .queued && o.core == State.coreOf t).length <
      (match k with | .mma => 16 | .peel => 32 | .slice => 64) ∧
     (s.co (State.coreOf t)).locks.length + n ≤ 64 ∧
     (match x.set? with | none => 0 | some i => ((s.tmOf t).slots.getD i DSlot.zero).cnt) < 255) := by
  unfold Room
  refine and_congr_right fun _ => and_congr_right fun _ => ?_
  cases x.set? <;> simp

/-- The fetch of a word hits the page of `W.leafAt` and reads HBM. -/
abbrev WordRun (s : State) (t a w : Nat) : Prop :=
  a < 2 ^ 54 ∧ s.isLocal (s.ctxOfThread t) a = true ∧
    s.tlbHit (.instr (State.coreOf t) (State.quadOf t)) (s.ctxOfThread t) (State.vaOf a) = some (W.leafAt a) ∧
    s.tlbHit (.core (State.coreOf t)) (s.ctxOfThread t) (State.vaOf a) = some (W.leafAt a) ∧
    (W.leafAt a).x = true ∧
    s.cachedWord (State.coreOf t) (State.quadOf t) (s.ctxOfThread t) (State.vaOf a) = none ∧
    W.pa a < Config.hostBase ∧ s.ueAt (W.pa a) = false ∧ w = leNat (s.rdBytes (W.pa a) 4)

/-- The machine after the fetch of that word. -/
def W.got (s : State) (t a w : Nat) : State :=
  (s.l2Touch (W.pa a) 4 (W.leafAt a).cp (W.leafAt a).pl .none false false (W.leafAt a).feb false).cacheWord
    (State.coreOf t) (State.quadOf t) (s.ctxOfThread t) (State.vaOf a) w

theorem word_at {s s' : State} {t a w : Nat} (h : WordRun s t a w) (e : s' = W.got s t a w) : WordAt s t a w s' :=
  ⟨h.1, h.2.1, W.leafAt a, W.pa a, h.2.2.1, h.2.2.2.1, h.2.2.2.2.1, rfl,
    .inr ⟨h.2.2.2.2.2.1, h.2.2.2.2.2.2.1, h.2.2.2.2.2.2.2.1, h.2.2.2.2.2.2.2.2, e⟩⟩

theorem fetch_one {s s' : State} {k : State.Cand} {i : Instr} {w : Nat}
    (h : WordRun s (k.threads.headD 0) k.pc.toNat w ∧ instrLen w = 4 ∧ decodeWords w 0 = some i)
    (e : s' = (W.got s (k.threads.headD 0) k.pc.toNat w).setCur
      { (W.got s (k.threads.headD 0) k.pc.toNat w).cur with len := 4 }) : FetchIs s k i 4 s' :=
  ⟨w, 0, _, word_at h.1 rfl, h.2.1.symm, by simpa using h.2.2, by simpa using e⟩

theorem pair_ok_ok {α ε δ : Type} {r : State × Except ε (Except δ α)} {s : State} {a : α} [DecidableEq α]
    (h : r.1 = s) (h' : (match r.2 with | .ok (.ok v) => decide (v = a) | _ => false) = true) : r = (s, .ok (.ok a)) := by
  obtain ⟨x, y⟩ := r
  cases y with
  | error => simp at h'
  | ok z => cases z <;> simp_all

theorem pair_ok_error {α ε δ : Type} {r : State × Except ε (Except δ α)} {s : State} {e : δ} [DecidableEq δ]
    (h : r.1 = s) (h' : (match r.2 with | .ok (.error v) => decide (v = e) | _ => false) = true) :
    r = (s, .ok (.error e)) := by
  obtain ⟨x, y⟩ := r
  cases y with
  | error => simp at h'
  | ok z => cases z <;> simp_all

theorem pairs_ok {α ε : Type} {f : Nat → State × Except ε α} {r : Nat → State} {g : Nat → α} {n : Nat} [DecidableEq α]
    (h : ∀ i, (f i).1 = r (i + 1))
    (h' : ∀ i < n, (match (f i).2 with | .ok v => decide (v = g i) | .error _ => false) = true) :
    ∀ i < n, f i = (r (i + 1), .ok (g i)) :=
  fun i hi => pair_ok (h i) (h' i hi)

theorem walk_leaf {w : State.Walk} (h : (match w with | .leaf 0 _ _ _ => true | _ => false) = true) :
    ∃ l e p, w = .leaf 0 l e p := by
  cases w with
  | leaf st l e p => cases st with
    | zero => exact ⟨l, e, p, rfl⟩
    | succ => simp at h
  | _ => simp at h

theorem peer_at {s : State} {t ea n : Nat} {w : Bool} {l : Loc} (v : Team)
    (h : ea < 2 ^ 24 ∧ ea / 2 ^ 21 ≠ State.rank (s.tmOf t).core ∧ (s.tmOf t).coset ≠ none ∧
      s.teams.find? (fun v => v.launch == (s.tmOf t).launch && v.coset == (s.tmOf t).coset &&
        v.core == (s.tmOf t).core - State.rank (s.tmOf t).core + ea / 2 ^ 21) = some v ∧
      ea % 2 ^ 21 + n ≤ v.spSize ∧ ea % n = 0 ∧ s.locked v.core v.ctx true w (v.spBase + ea % 2 ^ 21) n = false ∧
      l = .spad v.core (v.spBase + ea % 2 ^ 21)) : Peer s t w ea n l := ⟨v, h⟩
/-- The cases of `GlobTraps` on this package, with the page given. -/
theorem glob_traps {s : State} {t ea n c : Nat} {x : State.Want} (leaf : Leaf)
    (h : ea < 2 ^ 54 ∧ ea % n = 0 ∧ s.isLocal (s.ctxOfThread t) ea = true ∧
      s.tlbHit (.data (State.coreOf t) (State.quadOf t)) (s.ctxOfThread t) (ea % 2 ^ 48) = some leaf ∧
      s.tlbHit (.core (State.coreOf t)) (s.ctxOfThread t) (ea % 2 ^ 48) = some leaf)
    (w : (x.wr = true ∧ leaf.w = false ∧ c = 0x07)) : GlobTraps s t x ea n c :=
  .inr ⟨h.1, .inr ⟨h.2.1, .inr ⟨h.2.2.1, leaf, _, h.2.2.2.1, h.2.2.2.2, rfl, .inl w⟩⟩⟩
/-- The cases of `GlobTraps` that look no page up. -/
theorem glob_traps_early {s : State} {t ea n c : Nat} {x : State.Want}
    (h : (2 ^ 54 ≤ ea ∧ c = 0x06) ∨ ea < 2 ^ 54 ∧ (ea % n ≠ 0 ∧ c = 0x05 ∨ ea % n = 0 ∧
      (s.isLocal (s.ctxOfThread t) ea = false ∧ (s.routeOf (ea / 2 ^ 48) = none ∧ c = 0x13 ∨ s.routeOf (ea / 2 ^ 48) ≠ none ∧
        s.locked (State.coreOf t) (s.ctxOfThread t) false x.lockWr ea n = true ∧ c = 0x08)))) : GlobTraps s t x ea n c :=
  h.imp id fun p => ⟨p.1, p.2.imp id fun q => ⟨q.1, .inl q.2⟩⟩
/-! ## Witnesses of the remaining statements -/

/-- A tie: 2049 lies halfway between two FP16 values. The neighbour above is a finite value too. -/
theorem witness_RoundNearest :
    Num.unpack Num.f16 (Num.rnd Num.f16 .rn ⟨2049, 0⟩ false).1 = .fin false ⟨1024, 1⟩ ∧
    Num.unpack Num.f16 0x6801 = .fin false ⟨1025, 1⟩ := by decide +kernel

theorem witness_DecodeEncode :
    (Instr.add h0 .wrap .s32 127 127 (.imm (-64))).wf = true ∧
    encode (.add h0 .wrap .s32 127 127 (.imm (-64))) = some [0x81#8, 0xFF#8, 0x7F#8, 0x00#8] ∧
    decode [0x81#8, 0xFF#8, 0x7F#8, 0x00#8, 0x55#8] = some (.add h0 .wrap .s32 127 127 (.imm (-64)), [0x55#8]) := by
  decide +kernel

theorem witness_StepKeepsInvariant :
    Safety.Inv (atAct { W.three with agenda := [⟨5, .idle⟩] } 0 [⟨5, .idle⟩]) ∧
    step { W.three with agenda := [⟨5, .idle⟩] } = .next (atAct { W.three with agenda := [⟨5, .idle⟩] } 5 []) :=
  ⟨by unfold Safety.Inv; decide +kernel, rfl⟩

/-- A statement without hypotheses: its values stand in the definition of reset. -/
theorem witness_ResetValues : State.reset.cores.length = 192 ∧ State.reset.cp.queues.length = 64 := by decide +kernel

/-! ## Witnesses: K1, K2, … hold the state and operands of the theorem after them -/

namespace K1
def s : State := W.three
def h := W.h
def d := 8
def a := 6
def b_ : Src := .imm 5
def c := 3
end K1
theorem witness_LaneAddSubMulMad_1 :
    (Ready K1.s K1.h (useD K1.d (K1.a :: K1.b_.w))) ∧
    (Ready K1.s K1.h (useD K1.d (K1.a :: K1.b_.w ++ [K1.c]))) :=
  by unfold Ready; decide +kernel

namespace K2
def s : State := W.three
def h := W.h
def d := 8
def a := 6
def b_ : Src := .imm 5
end K2
theorem witness_LaneMulhMinMaxAbs_1 :
    (Ready K2.s K2.h (useD K2.d (K2.a :: K2.b_.w))) :=
  by unfold Ready; decide +kernel

namespace K3
def s : State := W.three
def h := W.h
def ty : Ty := .s8
def d := 8
def a := 6
def b_ : Src := .imm 5
end K3
theorem witness_LaneDivRem_1 :
    (Ready K3.s K3.h (useD K3.d (K3.a :: K3.b_.w))) ∧
    (∀ (t : Nat), t ∈ K3.s.cur.threads → K3.s.guardT t K3.h.gd = true → num K3.ty (src K3.s t K3.b_) ≠ 0) :=
  by unfold Ready; decide +kernel

namespace K4
def s : State := W.one
def h := W.ha
def ty : Ty := .s32
def d := 5
def a := 6
def b : Src := .imm 0
def t := 0
end K4
theorem witness_LaneDivRem_2 :
    (Ready K4.s K4.h (useD K4.d (K4.a :: K4.b.w))) ∧
    (K4.s.cur.threads = [K4.t]) ∧
    (K4.s.guardT K4.t K4.h.gd = true) ∧
    (num K4.ty (src K4.s K4.t K4.b) = 0) ∧
    (Free K4.s K4.t) :=
  by unfold Ready Free; decide +kernel

namespace K5
def s : State := W.three
def h := W.h
def d := 8
def a := 6
def b_ : Src := .imm 5
def c := 3
end K5
theorem witness_LaneConstMoveSelect_1 :
    (Ready K5.s K5.h (useR []) ∧ Ready K5.s K5.h (useD K5.d []) ∧ Ready K5.s K5.h
      { held := [K5.d], reads := [Opd.w K5.d] : Uses }) ∧
    (Ready K5.s K5.h { held := [K5.d, K5.a], reads := [Opd.w K5.a] : Uses } ∧ Ready K5.s K5.h
      { held := [K5.d, K5.d + 1, K5.a, K5.a + 1], reads := [Opd.w K5.a, Opd.w (K5.a + 1)] : Uses } ∧ Ready K5.s K5.h
      { held := [K5.d, K5.d + 1, K5.d + 2, K5.d + 3, K5.a, K5.a + 1, K5.a + 2, K5.a + 3], reads := [Opd.w K5.a, Opd.w (K5.a + 1), Opd.w (K5.a + 2), Opd.w (K5.a + 3)] : Uses }) ∧
    (Ready K5.s K5.h { held := K5.d :: K5.a :: K5.b_.w, reads := Opd.w K5.a :: K5.b_.opd ++ [Opd.p K5.c] : Uses } ∧
      Ready K5.s K5.h (useR (K5.a :: K5.b_.w))) :=
  ⟨by unfold Ready; decide +kernel,
   by unfold Ready; decide +kernel,
   by unfold Ready; decide +kernel⟩

namespace K6
def s : State := W.three
def h := W.h
def d := 8
def a := 6
def b_ : Src := .imm 5
end K6
theorem witness_LaneLogicShift_1 :
    (Ready K6.s K6.h (useD K6.d (K6.a :: K6.b_.w))) :=
  by unfold Ready; decide +kernel

namespace K7
def s : State := W.three
def h := W.h
def d := 8
def a := 6
def b_ : Src := .imm 5
def c := 3
def len := 32
end K7
theorem witness_LaneFieldsCounts_1 :
    (Ready K7.s K7.h (useD K7.d (K7.a :: K7.b_.w ++ [K7.c]))) ∧
    (1 ≤ K7.len) ∧
    (K7.len ≤ 32) ∧
    (Ready K7.s K7.h (useD K7.d (K7.a :: K7.b_.w))) ∧
    (Ready K7.s K7.h { held := K7.d :: K7.a :: K7.b_.w, reads := Opd.w K7.d :: Opd.w K7.a :: K7.b_.opd : Uses }) ∧
    (Ready K7.s K7.h (useD K7.d [K7.a])) :=
  by unfold Ready; decide +kernel

namespace K8
def s : State := W.three
def h := W.h
def d := 8
def a := 6
def b := 4
def c := 3
end K8
theorem witness_LanePrmtPredicates_1 :
    (Ready K8.s K8.h (useD K8.d [K8.a, K8.b, K8.c])) ∧
    (Ready K8.s K8.h { held := [], reads := [Opd.p K8.a, Opd.p K8.b] : Uses }) ∧
    (Ready K8.s K8.h { held := [K8.d], reads := List.map Opd.p (List.range 12) : Uses }) ∧
    (Ready K8.s K8.h (useR [K8.a])) :=
  by unfold Ready; decide +kernel

namespace K9
def s : State := W.three
def h := W.h
def d := 8
def a := 6
def b := 4
def c := 3
end K9
theorem witness_LaneFloatArithmetic_1 :
    (Ready K9.s K9.h (useD K9.d [K9.a, K9.b])) ∧
    (Ready K9.s K9.h (useD K9.d [K9.a, K9.b, K9.c])) ∧
    (Ready K9.s K9.h (useR [K9.a, K9.b])) :=
  by unfold Ready; decide +kernel

namespace K10
def s : State := W.three
def h := W.h
def d := 8
def a := 6
end K10
theorem witness_LaneFloatConvert_1 :
    (Ready K10.s K10.h (useD K10.d [K10.a])) :=
  by unfold Ready; decide +kernel

namespace K11
def s : State := W.three
def h := W.h
def d := 8
def a := 6
def b := 4
def c := 3
def sa := 2
def sb := 2
end K11
theorem witness_LaneFloatPacked_1 :
    (Ready K11.s K11.h (useD K11.d [K11.a, K11.b, K11.c])) ∧
    (K11.sa < 4) ∧
    (K11.sb < 4) ∧
    (Ready K11.s K11.h (useD K11.d [K11.a, K11.b])) :=
  by unfold Ready; decide +kernel

namespace K12
def s : State := W.three
def h := W.h
def d := 8
def a := 6
def tgt : QntTgt := .tern
def gs := 0
def r : Num.Sifted :=
  Num.sift tgt ((List.range 32).map fun l => if gs * 32 + l ∈ s.cur.threads ∧ s.guardT (gs * 32 + l) h.gd = true then
      Num.unpack Num.f32 (w s (gs * 32 + l) a).toNat else .fin false Num.Dy.zero)
end K12
theorem witness_LaneQuantizePack_1 :
    (QntTgtOk K12.tgt) ∧
    (∀ (t : Nat), t ∈ K12.s.cur.threads → t / 32 = K12.gs) ∧
    (K12.s.cur.threads ≠ []) ∧
    (Ready K12.s K12.h (useD K12.d [K12.a])) ∧
    (K12.r = Num.sift K12.tgt (List.map (fun l => if K12.gs * 32 + l ∈ K12.s.cur.threads ∧ K12.s.guardT (K12.gs * 32 +
      l) K12.h.gd = true then Num.unpack Num.f32 (BitVec.toNat (w K12.s (K12.gs * 32 + l) K12.a)) else Num.FVal.fin
      false Num.Dy.zero) (List.range 32))) :=
  ⟨by simp [K12.tgt, QntTgtOk],
   by unfold Ready; decide +kernel⟩

namespace K13
def s : State := W.three
def h := W.h
def ty : Ty := .z16
def d := 8
def a := 6
def b := 4
end K13
theorem witness_LanePackedInt_1 :
    (K13.ty.is16I = true) ∧
    (Ready K13.s K13.h (useD K13.d [K13.a, K13.b])) :=
  by unfold Ready; decide +kernel

namespace K14
def s : State := W.three
def h := W.h
def d := 8
def a := 6
def b_ : Src := .imm 5
def mode : ShflMode := .bc
end K14
theorem witness_GroupShflVote_1 :
    (Ready K14.s K14.h { held := K14.d :: K14.a :: K14.b_.w, reads := shflReads K14.mode K14.a K14.b_ : Uses }) ∧
    (Ready K14.s K14.h { held := [], reads := [Opd.p K14.a] : Uses }) ∧
    (Ready K14.s K14.h { held := [K14.d], reads := [Opd.p K14.a] : Uses }) ∧
    (Ready K14.s K14.h { held := [], reads := [] : Uses }) :=
  by unfold Ready; decide +kernel

namespace K15
def s : State := W.three
def h := W.h
def ty : Ty := .z32
def d := 8
def a := 6
end K15
theorem witness_GroupReduceScan_1 :
    (K15.ty = Ty.s32 ∨ K15.ty = Ty.z32 ∨ K15.ty = Ty.f32) ∧
    (Ready K15.s K15.h (useD K15.d [K15.a])) :=
  by unfold Ready; decide +kernel

namespace K16
def s : State := W.three
def h := W.h
def d := 8
def a := 6
end K16
theorem witness_LaneMovsMovg_1 :
    (Ready K16.s K16.h (useD K16.d [])) ∧
    (Ready K16.s K16.h { held := [K16.d], reads := [Opd.g K16.a] : Uses }) :=
  by unfold Ready; decide +kernel

namespace K17
def s : State := W.three
def h := W.ha
def d := 5
def a := 6
def gs := 0
def l := 1
def b : Src := .imm 1
def form : MovuForm := .zx
def v : DWord := (w s (gs * 32 + l) a).setWidth 64
end K17
theorem witness_LaneMovu_1 :
    (∀ (t : Nat), t ∈ K17.s.cur.threads → t / 32 = K17.gs) ∧
    (∀ (t : Nat), t ∈ K17.s.cur.threads → BitVec.toNat (src K17.s t K17.b) % 32 = K17.l) ∧
    ((K17.form, K17.v) ∈ [(MovuForm.zx, BitVec.setWidth 64 (w K17.s (K17.gs * 32 + K17.l) K17.a)), (MovuForm.sx,
      BitVec.signExtend 64 (w K17.s (K17.gs * 32 + K17.l) K17.a)), (MovuForm.lo, BitVec.extractLsb' 32 32 (g K17.s
      K17.gs K17.d) ++ w K17.s (K17.gs * 32 + K17.l) K17.a), (MovuForm.hi, w K17.s (K17.gs * 32 + K17.l) K17.a ++
      BitVec.setWidth 32 (g K17.s K17.gs K17.d))]) ∧
    (Ready K17.s K17.h { held := K17.a :: K17.b.w, reads := (if K17.form = MovuForm.lo ∨ K17.form = MovuForm.hi then [Opd.g K17.d] else []) ++ Opd.w K17.a :: K17.b.opd : Uses }) ∧
    (K17.gs * 32 + K17.l ∈ part K17.s K17.h (K17.gs * 32)) :=
  by unfold Ready; decide +kernel

namespace K18
def s : State := W.three
def h := W.h
def d := 5
def a := 6
def gs := 0
def l := 0
def b : Src := .imm 0
def form : MovuForm := .zx
def v : DWord := (w s (gs * 32 + l) a).setWidth 64
end K18
theorem witness_LaneMovu_2 :
    (∀ (t : Nat), t ∈ K18.s.cur.threads → t / 32 = K18.gs) ∧
    (∀ (t : Nat), t ∈ K18.s.cur.threads → BitVec.toNat (src K18.s t K18.b) % 32 = K18.l) ∧
    ((K18.form, K18.v) ∈ [(MovuForm.zx, BitVec.setWidth 64 (w K18.s (K18.gs * 32 + K18.l) K18.a)), (MovuForm.sx,
      BitVec.signExtend 64 (w K18.s (K18.gs * 32 + K18.l) K18.a)), (MovuForm.lo, BitVec.extractLsb' 32 32 (g K18.s
      K18.gs K18.d) ++ w K18.s (K18.gs * 32 + K18.l) K18.a), (MovuForm.hi, w K18.s (K18.gs * 32 + K18.l) K18.a ++
      BitVec.setWidth 32 (g K18.s K18.gs K18.d))]) ∧
    (Ready K18.s K18.h { held := K18.a :: K18.b.w, reads := (if K18.form = MovuForm.lo ∨ K18.form = MovuForm.hi then [Opd.g K18.d] else []) ++ Opd.w K18.a :: K18.b.opd : Uses }) ∧
    (¬K18.gs * 32 + K18.l ∈ part K18.s K18.h (K18.gs * 32)) :=
  by unfold Ready; decide +kernel

namespace K19
def s : State :=
  W.one.updCore 0 fun c => { c with l1 := [{ way := 4, pa := 0x800000 + 0x780, sec := [some ((List.range 32).map (BitVec.ofNat 8 ·)), none,none,none], weight := 0, age := 0 }] }
def t := 0
def h := W.ha
def x : MemX := ⟨.plain, .s8, .thr, .none, 9⟩
def d := 8
def a := 2
def b : Option Nat := some 7
def leaf := W.leaf
def bs : List Byte := [9]
def ea : Nat := s.eaGlobal true t a b x.off (tySize x.ty)
def pa : Nat := 0x800000 + (ea - 0x400000)
end K19
theorem witness_LaneLoad_1 :
    (K19.x.ty.isMem = true) ∧
    (Says.One K19.s K19.t K19.h
      { held := tyRegs K19.x.ty K19.d ++ optW K19.b, reads := Opd.g K19.a :: List.map Opd.w (optW K19.b) : Uses }) ∧
    (K19.ea = K19.s.eaGlobal true K19.t K19.a K19.b K19.x.off (tySize K19.x.ty)) ∧
    (Glob K19.s K19.t State.Want.load K19.ea (tySize K19.x.ty) K19.pa K19.leaf) ∧
    (tySize K19.x.ty ≤ 4) ∧
    (K19.x.scope.wide = false) ∧
    (K19.leaf.cp ≤ 1) ∧
    (K19.x.hint ≠ Hint.nl1) ∧
    (K19.pa < Config.hostBase) ∧
    (∀ (r : Req), r ∈ K19.s.reqs → r.core = State.coreOf K19.t → State.touches r (Loc.mem K19.pa) (tySize K19.x.ty) =
      false) ∧
    (K19.s.l1Read (State.coreOf K19.t) K19.pa (tySize K19.x.ty) = some K19.bs) :=
  by unfold Says.One Ready Fresh Glob Hit; decide +kernel

namespace K20
def s : State :=
  ({ W.one with groups := [{W.group0 with g := W.group0.g.set 2 (0x9000000400000 + 8)}], threads := W.one.threads.map fun x => {x with regs := x.regs.set 6 ⟨0x38,Tag.zero⟩}, fab := { State.reset.fab with en := true, cal := setAt State.reset.fab.cal 12 (9,0), pairs := [{ Pair.reset 9 with eseq := 5 }] } })
def t := 0
def h := W.ha
def x : MemX := ⟨.plain, .s32, .thr, .none, 2⟩
def d := 8
def a := 2
def b : Option Nat := none
def node := 9
def ea : Nat := s.eaGlobal true t a b x.off (tySize x.ty)
end K20
theorem witness_LaneLoad_2 :
    (K20.x.ty.isMem = true) ∧
    (K20.ea = K20.s.eaGlobal true K20.t K20.a K20.b K20.x.off (tySize K20.x.ty)) ∧
    (Far K20.s K20.t false K20.ea (tySize K20.x.ty) K20.node) ∧
    (Says.One K20.s K20.t K20.h
      { held := tyRegs K20.x.ty K20.d ++ optW K20.b, reads := Opd.g K20.a :: List.map Opd.w (optW K20.b) : Uses }) ∧
    (K20.x.ord = Ord.plain) :=
  by unfold Says.One Ready Fresh Far; decide +kernel

namespace K21
def s : State := W.one
def t := 0
def h := W.ha
def x : MemX := ⟨.plain, .s32, .thr, .none, 2⟩
def d := 8
def a := 2
def b : Option Nat := none
def leaf := W.leaf
def ea : Nat := s.eaGlobal true t a b x.off (tySize x.ty)
def pa : Nat := 0x800000 + (ea - 0x400000)
end K21
theorem witness_LaneLoad_3 :
    (K21.x.ty.isMem = true) ∧
    (Says.One K21.s K21.t K21.h
      { held := tyRegs K21.x.ty K21.d ++ optW K21.b, reads := Opd.g K21.a :: List.map Opd.w (optW K21.b) : Uses }) ∧
    (K21.ea = K21.s.eaGlobal true K21.t K21.a K21.b K21.x.off (tySize K21.x.ty)) ∧
    (Glob K21.s K21.t State.Want.load K21.ea (tySize K21.x.ty) K21.pa K21.leaf) ∧
    (NoCopy K21.s (State.coreOf K21.t) K21.x K21.leaf (locOf K21.pa)) :=
  by unfold Says.One Ready Fresh Glob Hit NoCopy; decide +kernel

namespace K22
def s : State :=
  { W.three with threads := W.three.threads.map fun x => {x with regs := x.regs.set 6 ⟨BitVec.ofNat 32 (0x300 - 0x100 * (x.slot % 32)),Tag.zero⟩} }
def gs := 0
def t := 0
def h := W.ha
def x : MemX := ⟨.plain, .s32, .thr, .none, 2⟩
def d := 8
def a := 2
def b : Option Nat := some 6
def leaf_ : Nat → Leaf := fun _ => W.leaf
def ea0 : Nat → Nat := fun t => s.eaGlobal true t a b x.off (tySize x.ty)
def ea_ : Nat → Nat := ea0
def pa_ : Nat → Nat := fun t => 0x800000 + (ea0 t - 0x400000)
end K22
theorem witness_LaneLoad_4 :
    (K22.x.ty.isMem = true) ∧
    (Several K22.s K22.gs K22.h
      { held := tyRegs K22.x.ty K22.d ++ optW K22.b, reads := Opd.g K22.a :: List.map Opd.w (optW K22.b) : Uses }) ∧
    (∀ (t : Nat), t ∈ K22.s.cur.threads → K22.ea_ t = K22.s.eaGlobal true t K22.a K22.b K22.x.off (tySize K22.x.ty) ∧
      Glob K22.s t State.Want.load (K22.ea_ t) (tySize K22.x.ty) (K22.pa_ t) (K22.leaf_ t) ∧ K22.pa_ t <
      Config.hostBase ∧ NoCopy K22.s (State.coreOf t) K22.x (K22.leaf_ t) (Loc.mem (K22.pa_ t))) :=
  by unfold Several Ready Fresh Glob Hit NoCopy; decide +kernel

namespace K23
def s : State := W.one
def t := 0
def h := W.ha
def x : MemX := ⟨.plain, .s32, .thr, .none, 2⟩
def d := 8
def bs := 7
def ea : Nat := s.eaLocal t bs x.off (tySize x.ty)
end K23
theorem witness_LaneStoreScratch_1 :
    (K23.x.ty.isMem = true) ∧
    (Says.One K23.s K23.t K23.h { held := tyRegs K23.x.ty K23.d ++ [K23.bs], reads := [Opd.w K23.bs] : Uses }) ∧
    (K23.ea = K23.s.eaLocal K23.t K23.bs K23.x.off (tySize K23.x.ty)) ∧
    (Spad K23.s K23.t false K23.ea (tySize K23.x.ty)) ∧
    (Says.One K23.s K23.t K23.h (useR (tyRegs K23.x.ty K23.d ++ [K23.bs]))) ∧
    (Spad K23.s K23.t true K23.ea (tySize K23.x.ty)) ∧
    (NoOpen K23.s K23.t) :=
  by unfold Says.One Ready Fresh Spad NoOpen; decide +kernel

namespace K24
def s : State :=
  { W.one with teams := [{W.team1 with coset := some 4}, {W.team1 with uid := 2, core := 3, coset := some 4, spBase := 0x5000}], threads := W.one.threads.map fun x => {x with regs := x.regs.set 7 ⟨0x600040,Tag.zero⟩} }
def t := 0
def h := W.ha
def x : MemX := ⟨.plain, .s32, .thr, .none, 2⟩
def d := 8
def bs := 7
def ea : Nat := s.eaLocal t bs x.off (tySize x.ty)
def l : Loc := .spad 3 (0x5000 + ea % 2^21)
end K24
theorem witness_LaneStoreScratch_2 :
    (Peer K24.s K24.t false K24.ea (tySize K24.x.ty) K24.l) ∧
    (Peer K24.s K24.t true K24.ea (tySize K24.x.ty) K24.l) ∧
    (K24.x.ty.isMem = true) ∧
    (K24.ea = K24.s.eaLocal K24.t K24.bs K24.x.off (tySize K24.x.ty)) ∧
    (NoOpen K24.s K24.t) ∧
    (Says.One K24.s K24.t K24.h { held := tyRegs K24.x.ty K24.d ++ [K24.bs], reads := [Opd.w K24.bs] : Uses }) ∧
    (Says.One K24.s K24.t K24.h (useR (tyRegs K24.x.ty K24.d ++ [K24.bs]))) :=
  ⟨peer_at (K24.s.teams.getD 1 W.team1) (by decide +kernel),
   peer_at (K24.s.teams.getD 1 W.team1) (by decide +kernel),
   by unfold Says.One Ready Fresh NoOpen; decide +kernel⟩

namespace K25
def s : State := W.one
def t := 0
def h := W.ha
def x : MemX := ⟨.plain, .s32, .thr, .none, 2⟩
def d := 8
def a := 2
def b : Option Nat := none
def leaf := W.leaf
def ea : Nat := s.eaGlobal true t a b x.off (tySize x.ty)
def pa : Nat := 0x800000 + (ea - 0x400000)
end K25
theorem witness_LaneStoreScratch_3 :
    (K25.x.ty.isMem = true) ∧
    (Says.One K25.s K25.t K25.h
      { held := tyRegs K25.x.ty K25.d ++ optW K25.b, reads := List.map Opd.w (tyRegs K25.x.ty K25.d) ++ Opd.g K25.a :: List.map Opd.w (optW K25.b) : Uses }) ∧
    (K25.ea = K25.s.eaGlobal true K25.t K25.a K25.b K25.x.off (tySize K25.x.ty)) ∧
    (Glob K25.s K25.t State.Want.store K25.ea (tySize K25.x.ty) K25.pa K25.leaf) ∧
    (NoOpen K25.s K25.t) :=
  by unfold Says.One Ready Fresh Glob Hit NoOpen; decide +kernel

namespace K26
def s : State :=
  { W.three with threads := W.three.threads.map fun x => {x with regs := x.regs.set 6 ⟨BitVec.ofNat 32 (0x300 - 0x100 * (x.slot % 32)),Tag.zero⟩} }
def gs := 0
def t := 0
def h := W.ha
def x : MemX := ⟨.plain, .s32, .thr, .none, 2⟩
def d := 8
def a := 2
def b : Option Nat := some 6
def leaf_ : Nat → Leaf := fun _ => W.leaf
def ea0 : Nat → Nat := fun t => s.eaGlobal true t a b x.off (tySize x.ty)
def ea_ : Nat → Nat := ea0
def pa_ : Nat → Nat := fun t => 0x800000 + (ea0 t - 0x400000)
end K26
theorem witness_LaneStoreScratch_4 :
    (K26.x.ty.isMem = true) ∧
    (Several K26.s K26.gs K26.h
      { held := tyRegs K26.x.ty K26.d ++ optW K26.b, reads := List.map Opd.w (tyRegs K26.x.ty K26.d) ++ Opd.g K26.a :: List.map Opd.w (optW K26.b) : Uses }) ∧
    (∀ (t : Nat), t ∈ K26.s.cur.threads → K26.ea_ t = K26.s.eaGlobal true t K26.a K26.b K26.x.off (tySize K26.x.ty) ∧
      NoOpen K26.s t ∧ Glob K26.s t State.Want.store (K26.ea_ t) (tySize K26.x.ty) (K26.pa_ t) (K26.leaf_ t) ∧ K26.pa_
      t < Config.hostBase) :=
  by unfold Several Ready Fresh Glob Hit NoOpen; decide +kernel

namespace K27
def s : State :=
  ({ W.one with groups := [{W.group0 with g := W.group0.g.set 2 (0x9000000400000 + 8)}], threads := W.one.threads.map fun x => {x with regs := x.regs.set 6 ⟨0x38,Tag.zero⟩}, fab := { State.reset.fab with en := true, cal := setAt State.reset.fab.cal 12 (9,0), pairs := [{ Pair.reset 9 with eseq := 5 }] } })
def t := 0
def h := W.ha
def x : MemX := ⟨.plain, .s32, .thr, .none, 2⟩
def d := 8
def a := 2
def b : Option Nat := none
def node := 9
def ea : Nat := s.eaGlobal true t a b x.off (tySize x.ty)
end K27
theorem witness_LaneStoreScratch_5 :
    (K27.x.ty.isMem = true) ∧
    (Says.One K27.s K27.t K27.h
      { held := tyRegs K27.x.ty K27.d ++ optW K27.b, reads := List.map Opd.w (tyRegs K27.x.ty K27.d) ++ Opd.g K27.a :: List.map Opd.w (optW K27.b) : Uses }) ∧
    (K27.ea = K27.s.eaGlobal true K27.t K27.a K27.b K27.x.off (tySize K27.x.ty)) ∧
    (Far K27.s K27.t true K27.ea (tySize K27.x.ty) K27.node) :=
  by unfold Says.One Ready Fresh Far; decide +kernel

namespace K28
def s : State := W.one.updGroup 0 fun g => {g with stk := 4096}
def t := 0
def h := W.ha
def x : MemX := ⟨.plain, .s32, .thr, .none, 2⟩
def d := 8
def b := 3
def o : Nat := s.eaLocal t b x.off (tySize x.ty)
def pa : Nat → Nat := fun i => 0x800000 + (s.backing t (o + 4 * i) - 0x400000)
def leaf : Nat → Leaf := fun _ => W.leaf
end K28
theorem witness_LaneStack_1 :
    (∀ (i : Nat), i < (tySize K28.x.ty + 3) / 4 → K28.s.backing K28.t (K28.o + 4 * i) < 2 ^ 54 ∧ Hit K28.s K28.t
      State.Want.load (K28.s.backing K28.t (K28.o + 4 * i)) (min (tySize K28.x.ty) 4) (K28.pa i) (K28.leaf i) ∧ K28.pa
      i < Config.hostBase ∧ K28.s.l1Read (State.coreOf K28.t) (K28.pa i) (min (tySize K28.x.ty) 4) = none) ∧
    (Says.One K28.s K28.t K28.h { held := tyRegs K28.x.ty K28.d ++ [K28.b], reads := [Opd.w K28.b] : Uses }) ∧
    (∀ (i : Nat), i < (tySize K28.x.ty + 3) / 4 → K28.s.backing K28.t (K28.o + 4 * i) < 2 ^ 54 ∧ Hit K28.s K28.t
      State.Want.store (K28.s.backing K28.t (K28.o + 4 * i)) (min (tySize K28.x.ty) 4) (K28.pa i) (K28.leaf i) ∧
      K28.pa i < Config.hostBase) ∧
    (Says.One K28.s K28.t K28.h (useR (tyRegs K28.x.ty K28.d ++ [K28.b]))) ∧
    (K28.x.ty.isMem = true) ∧
    (K28.o = K28.s.eaLocal K28.t K28.b K28.x.off (tySize K28.x.ty)) ∧
    (K28.o + tySize K28.x.ty ≤ (K28.s.grOf K28.t).stk) ∧
    (K28.o % tySize K28.x.ty = 0) :=
  ⟨by unfold Hit; decide +kernel,
   by unfold Says.One Ready Fresh; decide +kernel,
   by unfold Hit; decide +kernel,
   by unfold Says.One Ready Fresh; decide +kernel,
   by decide +kernel⟩

namespace K29
def s : State := W.one
def t := 0
def h := W.ha
def x : AtomX := ⟨.plain,.s32,.thr,.none⟩
def d := 8
def a := 2
def b : Option Nat := some 7
def c := 10
def n := tySize x.ty
def leaf := W.leaf
def ea : Nat := s.eaGlobal true t a b 0 n
def pa : Nat := 0x800000 + (ea - 0x400000)
end K29
theorem witness_LaneAtomics_1 :
    (NoOpen K29.s K29.t) ∧
    (Glob K29.s K29.t (State.Want.atom false) K29.ea K29.n K29.pa K29.leaf) ∧
    (Says.One K29.s K29.t K29.h
      { held := tyRegs K29.x.ty K29.d ++ optW K29.b ++ tyRegs K29.x.ty K29.c, reads := Opd.g K29.a :: List.map Opd.w (optW K29.b ++ tyRegs K29.x.ty K29.c) : Uses } ∧ Says.One K29.s K29.t K29.h { held := tyRegs K29.x.ty K29.d ++ optW K29.b ++ tyRegs K29.x.ty K29.c, reads := List.map Opd.w (tyRegs K29.x.ty K29.d) ++ Opd.g K29.a :: List.map Opd.w (optW K29.b ++ tyRegs K29.x.ty K29.c) : Uses } ∧ Says.One K29.s K29.t K29.h { held := tyRegs K29.x.ty K29.d ++ optW K29.b, reads := List.map Opd.w (tyRegs K29.x.ty K29.d) ++ Opd.g K29.a :: List.map Opd.w (optW K29.b) : Uses }) ∧
    (K29.n = tySize K29.x.ty) ∧
    (K29.x.ty = Ty.w64 ∨ K29.n = 4) ∧
    (K29.pa < Config.hostBase) ∧
    (K29.ea = K29.s.eaGlobal true K29.t K29.a K29.b 0 K29.n) :=
  ⟨by unfold NoOpen; decide +kernel,
   by unfold Glob Hit; decide +kernel,
   by unfold Says.One Ready Fresh; decide +kernel,
   by decide +kernel⟩

namespace K30
def s : State := W.one
def t := 0
def h := W.ha
def x : AtomX := ⟨.seq,.f32,.sys,.none⟩
def d := 8
def bs := 6
def c := 10
def n := tySize x.ty
def ea : Nat := s.eaLocal t bs 0 4
def pa : Nat := 0x800000 + (ea - 0x400000)
end K30
theorem witness_LaneAtomics_2 :
    (K30.n = tySize K30.x.ty) ∧
    (K30.x.ty = Ty.w64 ∨ K30.n = 4) ∧
    (NoOpen K30.s K30.t) ∧
    (K30.pa < Config.hostBase) ∧
    (K30.ea = K30.s.eaLocal K30.t K30.bs 0 4) ∧
    (Spad K30.s K30.t true K30.ea 4) ∧
    (K30.n = 4) ∧
    (K30.x.ty ≠ Ty.w64) ∧
    (K30.x.ty ≠ Ty.w128) ∧
    (Says.One K30.s K30.t K30.h { held := [K30.d, K30.bs, K30.c], reads := [Opd.w K30.bs, Opd.w K30.c] : Uses }) ∧
    (Says.One K30.s K30.t K30.h (useR [K30.d, K30.bs, K30.c])) :=
  by unfold Says.One Ready Fresh Spad NoOpen; decide +kernel

namespace K31
def s : State :=
  { W.one with groups := [{W.group0 with g := W.group0.g.set 2 (0x9000000400000 + 8)}], threads := W.one.threads.map fun x => {x with regs := x.regs.set 6 ⟨0x38,Tag.zero⟩}, fab := { State.reset.fab with en := true, cal := setAt State.reset.fab.cal 12 (9,0), pairs := [{ Pair.reset 9 with eseq := 5 }] } }
def t := 0
def h := W.ha
def x : AtomX := ⟨.plain,.s32,.thr,.none⟩
def d := 8
def a := 2
def b : Option Nat := some 6
def c := 10
def n := tySize x.ty
def ea : Nat := s.eaGlobal true t a b 0 n
def pa := 0
def node := 9
end K31
theorem witness_LaneAtomics_3 :
    (NoOpen K31.s K31.t) ∧
    (Far K31.s K31.t true K31.ea K31.n K31.node) ∧
    (Says.One K31.s K31.t K31.h
      { held := tyRegs K31.x.ty K31.d ++ optW K31.b ++ tyRegs K31.x.ty K31.c, reads := Opd.g K31.a :: List.map Opd.w (optW K31.b ++ tyRegs K31.x.ty K31.c) : Uses } ∧ Says.One K31.s K31.t K31.h { held := tyRegs K31.x.ty K31.d ++ optW K31.b ++ tyRegs K31.x.ty K31.c, reads := List.map Opd.w (tyRegs K31.x.ty K31.d) ++ Opd.g K31.a :: List.map Opd.w (optW K31.b ++ tyRegs K31.x.ty K31.c) : Uses } ∧ Says.One K31.s K31.t K31.h { held := tyRegs K31.x.ty K31.d ++ optW K31.b, reads := List.map Opd.w (tyRegs K31.x.ty K31.d) ++ Opd.g K31.a :: List.map Opd.w (optW K31.b) : Uses }) ∧
    (K31.n = tySize K31.x.ty) ∧
    (K31.x.ty = Ty.w64 ∨ K31.n = 4) ∧
    (K31.pa < Config.hostBase) ∧
    (K31.ea = K31.s.eaGlobal true K31.t K31.a K31.b 0 K31.n) :=
  ⟨by unfold NoOpen; decide +kernel,
   by unfold Far; decide +kernel,
   by unfold Says.One Ready Fresh; decide +kernel,
   by decide +kernel⟩

namespace K32
def s : State :=
  { W.withMem [(0x102010, leBytes 8 (0x800 * 2 ^ 24 + 0x9017))] with tlb := [], threads := W.one.threads.map (fun x => {x with regs := x.regs.set 6 ⟨0x38,Tag.zero⟩}), flt := { State.reset.flt with ring := Ring.zero } }
def t := 0
def h := W.ha
def off : Int := 0
def a := 2
def b : Option Nat := some 6
def x : MemX := ⟨.plain,.s32,.thr,.none,1⟩
def wk := s.walkFrom (s.eaGlobal false t a b off 4 % 2 ^ 48) 4 (s.cx (s.ctxOfThread t)).root
def st : Nat := match wk with | .leaf a _ _ _ => a | _ => 99
def l : Leaf := match wk with | .leaf _ a _ _ => a | _ => W.leaf
def e : Nat := match wk with | .leaf _ _ a _ => a | _ => 0
def p : Nat := match wk with | .leaf _ _ _ a => a | _ => 0
end K32
theorem witness_LaneResidency_1 :
    (Says.One K32.s K32.t K32.h { held := optW K32.b, reads := Opd.g K32.a :: List.map Opd.w (optW K32.b) : Uses }) ∧
    (K32.s.eaGlobal false K32.t K32.a K32.b K32.off 4 = K32.s.eaGlobal true K32.t K32.a K32.b K32.off 4) ∧
    (K32.s.peekUe (State.dataUnits (State.coreOf K32.t) (State.quadOf K32.t)) (some (State.coreOf K32.t))
      (K32.s.ctxOfThread K32.t) (K32.s.eaGlobal false K32.t K32.a K32.b K32.off 4 % 2 ^ 48) = none) ∧
    (K32.s.eaGlobal false K32.t K32.a K32.b K32.off 4 < 2 ^ 54) ∧
    (K32.s.isLocal (K32.s.ctxOfThread K32.t) (K32.s.eaGlobal false K32.t K32.a K32.b K32.off 4) = true) ∧
    (K32.st ≠ 0) ∧
    (K32.s.walkFrom (K32.s.eaGlobal false K32.t K32.a K32.b K32.off 4 % 2 ^ 48) 4 (K32.s.cx (K32.s.ctxOfThread
      K32.t)).root = State.Walk.leaf K32.st K32.l K32.e K32.p) ∧
    (K32.st ≠ 1) ∧
    (K32.s.flt.ring.room = false) :=
  by unfold Says.One Ready Fresh; decide +kernel

namespace K33
def s : State :=
  { W.withMem [(0x102010, leBytes 8 (0x800 * 2 ^ 24 + 0x9007))] with tlb := [], threads := W.one.threads.map (fun x => {x with regs := x.regs.set 6 ⟨0x38,Tag.zero⟩}), flt := { State.reset.flt with ring := ⟨0x10000,6,0,0⟩ } }
def t := 0
def h := W.ha
def off : Int := 0
def a := 2
def b : Option Nat := some 6
def x : MemX := ⟨.plain,.s32,.thr,.none,1⟩
end K33
theorem witness_LaneResidency_2 :
    (Says.One K33.s K33.t K33.h { held := optW K33.b, reads := Opd.g K33.a :: List.map Opd.w (optW K33.b) : Uses }) ∧
    (∃ l e p, K33.s.walkFrom (K33.s.eaGlobal false K33.t K33.a K33.b K33.off 4 % 2 ^ 48) 4 (K33.s.cx
      (K33.s.ctxOfThread K33.t)).root = State.Walk.leaf 0 l e p) ∧
    (K33.s.eaGlobal false K33.t K33.a K33.b K33.off 4 < 2 ^ 54) ∧
    (K33.s.isLocal (K33.s.ctxOfThread K33.t) (K33.s.eaGlobal false K33.t K33.a K33.b K33.off 4) = true) :=
  ⟨by unfold Says.One Ready Fresh; decide +kernel,
   walk_leaf (by decide +kernel),
   by decide +kernel⟩

namespace K34
def s : State := { W.one with tlb := [] }
def t := 0
def h := W.ha
def x : MemX := ⟨.plain, .w128, .thr, .none, 1⟩
def d := 8
def a := 2
def b : Option Nat := none
def ea : Nat := s.eaGlobal true t a b x.off (tySize x.ty)
end K34
theorem witness_LaneResidency_3 :
    (Says.One K34.s K34.t K34.h
      { held := tyRegs K34.x.ty K34.d ++ optW K34.b, reads := Opd.g K34.a :: List.map Opd.w (optW K34.b) : Uses }) ∧
    (K34.x.ty.isMem = true) ∧
    (K34.ea = K34.s.eaGlobal true K34.t K34.a K34.b K34.x.off (tySize K34.x.ty)) ∧
    (K34.x.ord = Ord.plain) ∧
    (K34.ea < 2 ^ 54) ∧
    (K34.ea % tySize K34.x.ty = 0) ∧
    (K34.s.isLocal (K34.s.ctxOfThread K34.t) K34.ea = true) ∧
    (K34.s.peekUe (State.dataUnits (State.coreOf K34.t) (State.quadOf K34.t)) (some (State.coreOf K34.t))
      (K34.s.ctxOfThread K34.t) (K34.ea % 2 ^ 48) = none) ∧
    (K34.s.peek (State.dataUnits (State.coreOf K34.t) (State.quadOf K34.t)) (some (State.coreOf K34.t))
      (K34.s.ctxOfThread K34.t) (K34.ea % 2 ^ 48) State.Acc.rd = none) ∧
    (K34.s.locked (State.coreOf K34.t) (K34.s.ctxOfThread K34.t) false false (K34.s.normAddr (K34.s.ctxOfThread K34.t)
      K34.ea) (tySize K34.x.ty) = false) :=
  by unfold Says.One Ready Fresh; decide +kernel

namespace K35
def s : State := W.one
def t := 0
def h := W.ha
def x : MemX := ⟨.plain, .s32, .thr, .none, 2⟩
def d := 8
def a := 2
def b : Option Nat := none
def leaf := W.leaf
def ea : Nat := s.eaGlobal true t a b x.off (tySize x.ty)
def pa : Nat := 0x800000 + (ea - 0x400000)
end K35
theorem witness_LaneResidency_4 :
    (Says.One K35.s K35.t K35.h
      { held := tyRegs K35.x.ty K35.d ++ optW K35.b, reads := Opd.g K35.a :: List.map Opd.w (optW K35.b) : Uses }) ∧
    (K35.x.ty.isMem = true) ∧
    (K35.ea = K35.s.eaGlobal true K35.t K35.a K35.b K35.x.off (tySize K35.x.ty)) ∧
    (K35.x.ord = Ord.plain) ∧
    (Glob K35.s K35.t State.Want.load K35.ea (tySize K35.x.ty) K35.pa K35.leaf) ∧
    (K35.pa < Config.hostBase) ∧
    (NoCopy K35.s (State.coreOf K35.t) K35.x K35.leaf (Loc.mem K35.pa)) :=
  by unfold Says.One Ready Fresh Glob Hit NoCopy; decide +kernel

namespace K36
def s : State :=
  { W.withMem [(0x102010, leBytes 8 (0x800 * 2 ^ 24 + 0x9017))] with tlb := [], threads := W.one.threads.map (fun x => {x with regs := x.regs.set 6 ⟨0x38,Tag.zero⟩}), flt := { State.reset.flt with ring := ⟨0x10000,6,0,0⟩ } }
def t := 0
def h := W.ha
def off : Int := 0
def a := 2
def b : Option Nat := some 6
def x : MemX := ⟨.plain,.s32,.thr,.none,1⟩
def wk := s.walkFrom (s.eaGlobal false t a b off 4 % 2 ^ 48) 4 (s.cx (s.ctxOfThread t)).root
def st : Nat := match wk with | .leaf a _ _ _ => a | _ => 99
def l : Leaf := match wk with | .leaf _ a _ _ => a | _ => W.leaf
def e : Nat := match wk with | .leaf _ _ a _ => a | _ => 0
def p : Nat := match wk with | .leaf _ _ _ a => a | _ => 0
end K36
theorem witness_LaneResidency_5 :
    (Says.One K36.s K36.t K36.h { held := optW K36.b, reads := Opd.g K36.a :: List.map Opd.w (optW K36.b) : Uses }) ∧
    (K36.s.eaGlobal false K36.t K36.a K36.b K36.off 4 < 2 ^ 54) ∧
    (K36.s.isLocal (K36.s.ctxOfThread K36.t) (K36.s.eaGlobal false K36.t K36.a K36.b K36.off 4) = true) ∧
    (K36.st ≠ 0) ∧
    (K36.s.walkFrom (K36.s.eaGlobal false K36.t K36.a K36.b K36.off 4 % 2 ^ 48) 4 (K36.s.cx (K36.s.ctxOfThread
      K36.t)).root = State.Walk.leaf K36.st K36.l K36.e K36.p) ∧
    (K36.st ≠ 1) ∧
    (K36.s.flt.held = []) ∧
    (K36.s.flt.ring.room = true) :=
  by unfold Says.One Ready Fresh; decide +kernel

namespace K37
def s : State := W.one
def t := 0
def h := W.ha
def k : FenceKind := .acq
def sc : Scope := .dev
end K37
theorem witness_LaneFence_1 :
    (Says.One K37.s K37.t K37.h { held := [], reads := [] : Uses }) ∧
    (K37.sc ≠ Scope.thr) ∧
    (NoOpen K37.s K37.t) ∧
    (K37.s.fenceAfter K37.t K37.k K37.sc = []) ∧
    (K37.k ≠ FenceKind.acq → K37.sc.far = true → (K37.s.tmOf K37.t).outst = 0) ∧
    (K37.k ≠ FenceKind.rel → 4 ≤ K37.sc.rank → K37.s.promPending (State.coreOf K37.t) = []) :=
  by unfold Says.One Ready Fresh NoOpen; decide +kernel

namespace K38
def s : State :=
  { W.one with reqs := [{ id := 4, who := .thread 0, core := 0, ctx := 0, team := 1, epoch := 0, op := .store [1], loc := .mem 0x900000, size := 1, ord := .plain, scope := .thr, hint := .none, cp := 0, pl := 0, feb := false, va := 0x500000, form := .none, fill := [], co := 4, bytes := 4, merged := false, nrel := false, xw := false, parts := [], after := [], done := false, since := 0 }] }
def t := 0
def h := W.ha
def k : FenceKind := .rel
def sc : Scope := .dev
def i := 4
end K38
theorem witness_LaneFence_2 :
    (Says.One K38.s K38.t K38.h { held := [], reads := [] : Uses }) ∧
    (K38.sc ≠ Scope.thr) ∧
    (NoOpen K38.s K38.t) ∧
    (K38.i ∈ K38.s.fenceAfter K38.t K38.k K38.sc) ∧
    (K38.s.pending K38.i = true) :=
  by unfold Says.One Ready Fresh NoOpen; decide +kernel

namespace K39
def s : State :=
  { W.withMem [(0x102010, leBytes 8 (0x800 * 2 ^ 24 + 0x9017))] with tlb := [], groups := [{W.group0 with g := W.group0.g.set 2 0x400000}], threads := W.one.threads.map (fun x => {x with regs := x.regs.set 6 ⟨0x38,Tag.zero⟩}), flt := { State.reset.flt with faults := [], ring := ⟨0x10000,6,0,0⟩ } }
def t := 0
def h := W.ha
def x : MemX := ⟨.plain, .s32, .thr, .none, 0⟩
def d := 8
def a := 2
def b : Option Nat := some 6
def i : Instr := Instr.ld h x d a b
def u : Uses := ⟨tyRegs x.ty d ++ optW b, .g a :: (optW b).map .w⟩
def wr : Bool := false
def ea : Nat := s.eaGlobal true t a b x.off (tySize x.ty)
def wk := walkOf s t ea
def st : Nat := match wk with | .leaf a _ _ _ => a | _ => 99
def l : Leaf := match wk with | .leaf _ a _ _ => a | _ => W.leaf
def m : Nat := match wk with | .leaf _ _ a _ => a | _ => 0
def p : Nat := match wk with | .leaf _ _ _ a => a | _ => 0
end K39
theorem witness_LaneMemoryTraps_1 :
    (K39.x.ty.isMem = true) ∧
    (Free K39.s K39.t) ∧
    ((K39.i, K39.u, K39.wr) ∈ [(Instr.ld K39.h K39.x K39.d K39.a K39.b,
      { held := tyRegs K39.x.ty K39.d ++ optW K39.b, reads := Opd.g K39.a :: List.map Opd.w (optW K39.b) : Uses },
      false), (Instr.st K39.h K39.x K39.d K39.a K39.b,
      { held := tyRegs K39.x.ty K39.d ++ optW K39.b, reads := List.map Opd.w (tyRegs K39.x.ty K39.d) ++ Opd.g K39.a :: List.map Opd.w (optW K39.b) : Uses }, true)]) ∧
    (Says.One K39.s K39.t K39.h K39.u) ∧
    (K39.ea = K39.s.eaGlobal true K39.t K39.a K39.b K39.x.off (tySize K39.x.ty)) ∧
    (K39.ea < 2 ^ 54) ∧
    (K39.ea % tySize K39.x.ty = 0) ∧
    (K39.s.isLocal (K39.s.ctxOfThread K39.t) K39.ea = true) ∧
    (K39.s.tlbHit (TlbUnit.data (State.coreOf K39.t) (State.quadOf K39.t)) (K39.s.ctxOfThread K39.t) (K39.ea % 2 ^ 48)
      = none) ∧
    (K39.s.tlbHit (TlbUnit.core (State.coreOf K39.t)) (K39.s.ctxOfThread K39.t) (K39.ea % 2 ^ 48) = none) ∧
    (walkOf K39.s K39.t K39.ea = State.Walk.leaf K39.st K39.l K39.m K39.p) ∧
    (K39.wr = true → K39.l.w = true) ∧
    (K39.st = 2 ∧ 1 = 1 ∨ K39.st = 3 ∧ 1 = 3 ∨ K39.st = 0 ∧ K39.s.badPage K39.l.pa K39.l.sz = true ∧ 1 = 3) ∧
    (∀ (f : FaultRec), f ∈ K39.s.flt.faults → f.ctx ≠ K39.s.ctxOfThread K39.t ∨ f.page ≠ K39.ea % 2 ^ 48 / 4096) ∧
    (K39.s.flt.faults.length < 1024) ∧
    (K39.s.flt.held = []) ∧
    (K39.s.flt.ring.room = true) :=
  by unfold Says.One Ready Fresh Free; decide +kernel

namespace K40
def lf : Leaf := W.leaf
def s : State :=
  { W.one with groups := [{W.group0 with g := W.group0.g.set 2 (2^54)}], threads := W.one.threads.map (fun x => {x with regs := x.regs.set 6 ⟨0x38,Tag.zero⟩}), tlb := W.units.map fun u => ⟨u, 0, lf⟩ }
def t := 0
def h := W.ha
def x : MemX := ⟨.plain, .s32, .thr, .none, 0⟩
def y : AtomX := ⟨.plain,.s32,.thr,.none⟩
def z : FeX := ⟨true,false,.thr,.none,none⟩
def op : AtomOp := .add
def cc : Cond := .lt
def d := 8
def a := 2
def b : Option Nat := some 6
def q := 6
def c := 10
def e : Nat := 6
def i : Instr := Instr.ld h x d a b
def u : Uses := ⟨tyRegs x.ty d ++ optW b, .g a :: (optW b).map .w⟩
def v : State.Want := State.Want.load
def ea : Nat := s.eaGlobal true t a b x.off (tySize x.ty)
def n : Nat := tySize x.ty
end K40
theorem witness_LaneMemoryTraps_2 :
    (GlobTraps K40.s K40.t K40.v K40.ea K40.n K40.e) ∧
    (GlobTraps K40.s K40.t (State.Want.atom (State.hostAtom K40.op K40.y.ty)) K40.ea K40.n K40.e) ∧
    (GlobTraps K40.s K40.t (State.Want.atom true) K40.ea K40.n K40.e) ∧
    (Free K40.s K40.t) ∧
    (Says.One K40.s K40.t K40.h K40.u ∧ Says.One K40.s K40.t K40.h
      { held := tyRegs K40.y.ty K40.d ++ optW K40.b ++ tyRegs K40.y.ty K40.c, reads := Opd.g K40.a :: List.map Opd.w (optW K40.b ++ tyRegs K40.y.ty K40.c) : Uses } ∧ Says.One K40.s K40.t K40.h { held := tyRegs K40.y.ty K40.d ++ optW K40.b ++ tyRegs K40.y.ty K40.c, reads := List.map Opd.w (tyRegs K40.y.ty K40.d) ++ Opd.g K40.a :: List.map Opd.w (optW K40.b ++ tyRegs K40.y.ty K40.c) : Uses }) ∧
    (Says.One K40.s K40.t K40.h
      { held := tyRegs K40.y.ty K40.d ++ optW K40.b, reads := List.map Opd.w (tyRegs K40.y.ty K40.d) ++ Opd.g K40.a :: List.map Opd.w (optW K40.b) : Uses }) ∧
    (K40.x.ty.isMem = true) ∧
    ((K40.i, K40.u, K40.v, K40.ea, K40.n) ∈ [(Instr.ld K40.h K40.x K40.d K40.a K40.b,
      { held := tyRegs K40.x.ty K40.d ++ optW K40.b, reads := Opd.g K40.a :: List.map Opd.w (optW K40.b) : Uses },
      State.Want.load, K40.s.eaGlobal true K40.t K40.a K40.b K40.x.off (tySize K40.x.ty), tySize K40.x.ty), (Instr.st
      K40.h K40.x K40.d K40.a K40.b,
      { held := tyRegs K40.x.ty K40.d ++ optW K40.b, reads := List.map Opd.w (tyRegs K40.x.ty K40.d) ++ Opd.g K40.a :: List.map Opd.w (optW K40.b) : Uses }, State.Want.store, K40.s.eaGlobal true K40.t K40.a K40.b K40.x.off (tySize K40.x.ty), tySize K40.x.ty), (Instr.ldwf K40.h K40.z K40.d (FeAddr.glob K40.a K40.q), feDst K40.d (FeAddr.glob K40.a K40.q), State.feWant FeForm.ldwf, K40.s.eaGlobal false K40.t K40.a (some K40.q) 0 4, 4), (Instr.ldce K40.h K40.z K40.d (FeAddr.glob K40.a K40.q), feDst K40.d (FeAddr.glob K40.a K40.q), State.feWant FeForm.ldce, K40.s.eaGlobal false K40.t K40.a (some K40.q) 0 4, 4), (Instr.stwe K40.h K40.z K40.d (FeAddr.glob K40.a K40.q), feSrc K40.d (FeAddr.glob K40.a K40.q), State.feWant FeForm.stwe, K40.s.eaGlobal false K40.t K40.a (some K40.q) 0 4, 4), (Instr.stfs K40.h K40.z K40.d (FeAddr.glob K40.a K40.q), feSrc K40.d (FeAddr.glob K40.a K40.q), State.feWant FeForm.stfs, K40.s.eaGlobal false K40.t K40.a (some K40.q) 0 4, 4), (Instr.waita K40.h K40.cc K40.z K40.d (FeAddr.glob K40.a K40.q), feSrc K40.d (FeAddr.glob K40.a K40.q), State.feWant FeForm.waita, K40.s.eaGlobal false K40.t K40.a (some K40.q) 0 4, 4), (Instr.feget K40.h K40.z K40.d (FeAddr.glob K40.a K40.q), { held := [K40.q], reads := [Opd.g K40.a, Opd.w K40.q] : Uses }, State.feWant FeForm.feget, K40.s.eaGlobal false K40.t K40.a (some K40.q) 0 4, 4), (Instr.fesetEmpty K40.h K40.z (FeAddr.glob K40.a K40.q), { held := [K40.q], reads := [Opd.g K40.a, Opd.w K40.q] : Uses }, State.feWant FeForm.fesetEmpty, K40.s.eaGlobal false K40.t K40.a (some K40.q) 0 4, 4), (Instr.fesetFull K40.h K40.z (FeAddr.glob K40.a K40.q), { held := [K40.q], reads := [Opd.g K40.a, Opd.w K40.q] : Uses }, State.feWant FeForm.fesetFull, K40.s.eaGlobal false K40.t K40.a (some K40.q) 0 4, 4)]) ∧
    (K40.y.ty = Ty.w64 ∨ K40.n = 4) ∧
    (K40.n = tySize K40.y.ty) ∧
    (K40.ea = K40.s.eaGlobal true K40.t K40.a K40.b 0 K40.n) :=
  ⟨glob_traps_early (by decide +kernel),
   glob_traps_early (by decide +kernel),
   glob_traps_early (by decide +kernel),
   by unfold Free; decide +kernel,
   by unfold Says.One Ready Fresh; decide +kernel,
   by unfold Says.One Ready Fresh; decide +kernel,
   by decide +kernel⟩

namespace K41
def s : State :=
  { W.withMem [(0x102010, leBytes 8 (0x800 * 2 ^ 24 + 0x9007))] with tlb := [], groups := [{W.group0 with g := W.group0.g.set 2 0x600000}], threads := W.one.threads.map (fun x => {x with regs := x.regs.set 6 ⟨0x38,Tag.zero⟩}), flt := { State.reset.flt with faults := [], bad := [] } }
def t := 0
def h := W.ha
def x : MemX := ⟨.plain, .s32, .thr, .none, 0⟩
def d := 8
def a := 2
def b : Option Nat := some 6
def i : Instr := Instr.ld h x d a b
def u : Uses := ⟨tyRegs x.ty d ++ optW b, .g a :: (optW b).map .w⟩
def wr : Bool := false
def ea : Nat := s.eaGlobal true t a b x.off (tySize x.ty)
end K41
theorem witness_LaneMemoryTraps_3 :
    (K41.x.ty.isMem = true) ∧
    (Free K41.s K41.t) ∧
    ((K41.i, K41.u, K41.wr) ∈ [(Instr.ld K41.h K41.x K41.d K41.a K41.b,
      { held := tyRegs K41.x.ty K41.d ++ optW K41.b, reads := Opd.g K41.a :: List.map Opd.w (optW K41.b) : Uses },
      false), (Instr.st K41.h K41.x K41.d K41.a K41.b,
      { held := tyRegs K41.x.ty K41.d ++ optW K41.b, reads := List.map Opd.w (tyRegs K41.x.ty K41.d) ++ Opd.g K41.a :: List.map Opd.w (optW K41.b) : Uses }, true)]) ∧
    (Says.One K41.s K41.t K41.h K41.u) ∧
    (K41.ea = K41.s.eaGlobal true K41.t K41.a K41.b K41.x.off (tySize K41.x.ty)) ∧
    (K41.ea < 2 ^ 54) ∧
    (K41.ea % tySize K41.x.ty = 0) ∧
    (K41.s.isLocal (K41.s.ctxOfThread K41.t) K41.ea = true) ∧
    (K41.s.tlbHit (TlbUnit.data (State.coreOf K41.t) (State.quadOf K41.t)) (K41.s.ctxOfThread K41.t) (K41.ea % 2 ^ 48)
      = none) ∧
    (K41.s.tlbHit (TlbUnit.core (State.coreOf K41.t)) (K41.s.ctxOfThread K41.t) (K41.ea % 2 ^ 48) = none) ∧
    (walkOf K41.s K41.t K41.ea = State.Walk.bad) :=
  by unfold Says.One Ready Fresh Free; decide +kernel

namespace K42
def s : State :=
  { W.withMem [(0x102010, leBytes 8 (0x800 * 2 ^ 24 + 0x9001))] with tlb := [], groups := [{W.group0 with g := W.group0.g.set 2 0x400000}], threads := W.one.threads.map (fun x => {x with regs := x.regs.set 6 ⟨0x38,Tag.zero⟩}), flt := { State.reset.flt with faults := [], bad := [] } }
def t := 0
def h := W.ha
def x : MemX := ⟨.plain, .s32, .thr, .none, 0⟩
def d := 8
def a := 2
def b : Option Nat := some 6
def i : Instr := Instr.st h x d a b
def u : Uses := ⟨tyRegs x.ty d ++ optW b, (tyRegs x.ty d).map .w ++ .g a :: (optW b).map .w⟩
def wr : Bool := true
def ea : Nat := s.eaGlobal true t a b x.off (tySize x.ty)
def wk := walkOf s t ea
def st : Nat := match wk with | .leaf a _ _ _ => a | _ => 99
def l : Leaf := match wk with | .leaf _ a _ _ => a | _ => W.leaf
def m : Nat := match wk with | .leaf _ _ a _ => a | _ => 0
def p : Nat := match wk with | .leaf _ _ _ a => a | _ => 0
end K42
theorem witness_LaneMemoryTraps_4 :
    (K42.x.ty.isMem = true) ∧
    (Free K42.s K42.t) ∧
    ((K42.i, K42.u, K42.wr) ∈ [(Instr.ld K42.h K42.x K42.d K42.a K42.b,
      { held := tyRegs K42.x.ty K42.d ++ optW K42.b, reads := Opd.g K42.a :: List.map Opd.w (optW K42.b) : Uses },
      false), (Instr.st K42.h K42.x K42.d K42.a K42.b,
      { held := tyRegs K42.x.ty K42.d ++ optW K42.b, reads := List.map Opd.w (tyRegs K42.x.ty K42.d) ++ Opd.g K42.a :: List.map Opd.w (optW K42.b) : Uses }, true)]) ∧
    (Says.One K42.s K42.t K42.h K42.u) ∧
    (K42.ea = K42.s.eaGlobal true K42.t K42.a K42.b K42.x.off (tySize K42.x.ty)) ∧
    (K42.ea < 2 ^ 54) ∧
    (K42.ea % tySize K42.x.ty = 0) ∧
    (K42.s.isLocal (K42.s.ctxOfThread K42.t) K42.ea = true) ∧
    (K42.s.tlbHit (TlbUnit.data (State.coreOf K42.t) (State.quadOf K42.t)) (K42.s.ctxOfThread K42.t) (K42.ea % 2 ^ 48)
      = none) ∧
    (K42.s.tlbHit (TlbUnit.core (State.coreOf K42.t)) (K42.s.ctxOfThread K42.t) (K42.ea % 2 ^ 48) = none) ∧
    (walkOf K42.s K42.t K42.ea = State.Walk.leaf K42.st K42.l K42.m K42.p) ∧
    (K42.wr = true) ∧
    (K42.l.w = false) :=
  by unfold Says.One Ready Fresh Free; decide +kernel

namespace K43
def lf : Leaf := W.leaf
def leaf : Leaf := lf
def s : State :=
  { W.withMem [(0x800000, W.planeRec 1 0 64 0x410000 0x420000 2097152)] with groups := [{W.group0 with g := W.group0.g.set 2 0x400000}], threads := W.one.threads.map (fun x => {x with regs := x.regs.set 6 ⟨64,Tag.zero⟩}) }
def t := 0
def h := W.ha
def x : MemX := ⟨.plain, .s32, .thr, .none, 0⟩
def d := 8
def a := 2
def q := 6
def c := 10
def fill : FillF := .dflt
def px : PlX := ⟨.plain,.thr,.none⟩
def k := 0
def i : Instr := Instr.pld h px k fill d a q
def u : Uses := ⟨[d, q], [.g a, .w q]⟩
def ga : Nat := (g s (t / 32) a).toNat
def pa := 0x800000
def rb : List Byte := (s.plainRead (.thread t) (State.coreOf t) pa 64 W.leaf).getD []
end K43
theorem witness_LaneMemoryTraps_5 :
    ((∃ x1 x2 x3 x4 x5 x6 x7 x8, K43.i = Instr.prf x1 x2 x3 x4 x5 x6 x7 x8) → (K43.s.wreg K43.t K43.d).tag.v = false ∨
      (K43.s.wreg K43.t K43.d).tag.k < K43.k) ∧
    (PlaneRec.ofBytes K43.rb = none ∨ ∃ r, PlaneRec.ofBytes K43.rb = some r ∧ r.count ≤ BitVec.toNat (w K43.s K43.t
      K43.q)) ∧
    (Free K43.s K43.t) ∧
    (Says.One K43.s K43.t K43.h K43.u) ∧
    (Hit K43.s K43.t State.Want.load K43.ga 64 K43.pa K43.leaf) ∧
    (K43.x.ty.isMem = true) ∧
    ((K43.i, K43.u) ∈ [(Instr.pld K43.h K43.px K43.k K43.fill K43.d K43.a K43.q,
      { held := [K43.d, K43.q], reads := [Opd.g K43.a, Opd.w K43.q] : Uses }), (Instr.pst K43.h K43.px K43.d K43.a
      K43.q, { held := [K43.d, K43.q], reads := [Opd.g K43.a, Opd.w K43.q] : Uses }), (Instr.prf K43.h K43.px K43.k
      K43.fill K43.d K43.a K43.q K43.c,
      { held := [K43.d, K43.q], reads := [Opd.w K43.d, Opd.g K43.a, Opd.w K43.q] : Uses })]) ∧
    (K43.ga = BitVec.toNat (g K43.s (K43.t / 32) K43.a)) ∧
    (K43.ga < 2 ^ 54) ∧
    (K43.ga % 64 = 0) ∧
    (K43.s.isLocal (K43.s.ctxOfThread K43.t) K43.ga = true) ∧
    (K43.pa < Config.hostBase) ∧
    (K43.s.ueIn K43.pa 64 = false) ∧
    (K43.s.plainRead (Who.thread K43.t) (State.coreOf K43.t) K43.pa 64 K43.leaf = some K43.rb) :=
  ⟨fun _ => .inl (by decide +kernel),
   by first | exact .inl (by decide +kernel) | exact .inr ⟨K43.r, by decide +kernel⟩,
   by unfold Free; decide +kernel,
   by unfold Says.One Ready Fresh; decide +kernel,
   by unfold Hit; decide +kernel,
   by decide +kernel⟩

namespace K44
def s : State := { W.one with threads := W.one.threads.map (fun x => {x with regs := x.regs.set 7 ⟨0x100,Tag.zero⟩}) }
def t := 0
def h := W.ha
def x : MemX := ⟨.plain, .s32, .thr, .none, 0⟩
def d := 8
def bs := 7
def e : Nat := 0x10
def ea : Nat := s.eaLocal t bs x.off (tySize x.ty)
end K44
theorem witness_LaneMemoryTraps_6 :
    (K44.x.ty.isMem = true) ∧
    (Free K44.s K44.t) ∧
    (K44.ea = K44.s.eaLocal K44.t K44.bs K44.x.off (tySize K44.x.ty)) ∧
    ((K44.s.grOf K44.t).stk < K44.ea + tySize K44.x.ty ∧ K44.e = 16 ∨ K44.ea + tySize K44.x.ty ≤ (K44.s.grOf
      K44.t).stk ∧ K44.ea % tySize K44.x.ty ≠ 0 ∧ K44.e = 5) ∧
    (Says.One K44.s K44.t K44.h { held := tyRegs K44.x.ty K44.d ++ [K44.bs], reads := [Opd.w K44.bs] : Uses }) ∧
    (Says.One K44.s K44.t K44.h (useR (tyRegs K44.x.ty K44.d ++ [K44.bs]))) :=
  by unfold Says.One Ready Fresh Free; decide +kernel

namespace K45
def s : State :=
  { W.withMem [(0x102010, leBytes 8 (0x800 * 2 ^ 24 + 0x9017))] with tlb := [], groups := [{W.group0 with g := W.group0.g.set 2 0x400000}], threads := W.one.threads.map (fun x => {x with regs := x.regs.set 6 ⟨0x38,Tag.zero⟩}), flt := { State.reset.flt with faults := (List.range 1024).map fun i => ⟨i+50,0,i,1,[]⟩, bad := [] } }
def t := 0
def h := W.ha
def x : MemX := ⟨.plain, .s32, .thr, .none, 0⟩
def d := 8
def a := 2
def b : Option Nat := some 6
def i : Instr := Instr.ld h x d a b
def u : Uses := ⟨tyRegs x.ty d ++ optW b, .g a :: (optW b).map .w⟩
def wr : Bool := false
def ea : Nat := s.eaGlobal true t a b x.off (tySize x.ty)
def wk := walkOf s t ea
def st : Nat := match wk with | .leaf a _ _ _ => a | _ => 99
def l : Leaf := match wk with | .leaf _ a _ _ => a | _ => W.leaf
def m : Nat := match wk with | .leaf _ _ a _ => a | _ => 0
def p : Nat := match wk with | .leaf _ _ _ a => a | _ => 0
end K45
theorem witness_LaneMemoryTraps_7 :
    (K45.x.ty.isMem = true) ∧
    (Free K45.s K45.t) ∧
    ((K45.i, K45.u, K45.wr) ∈ [(Instr.ld K45.h K45.x K45.d K45.a K45.b,
      { held := tyRegs K45.x.ty K45.d ++ optW K45.b, reads := Opd.g K45.a :: List.map Opd.w (optW K45.b) : Uses },
      false), (Instr.st K45.h K45.x K45.d K45.a K45.b,
      { held := tyRegs K45.x.ty K45.d ++ optW K45.b, reads := List.map Opd.w (tyRegs K45.x.ty K45.d) ++ Opd.g K45.a :: List.map Opd.w (optW K45.b) : Uses }, true)]) ∧
    (Says.One K45.s K45.t K45.h K45.u) ∧
    (K45.ea = K45.s.eaGlobal true K45.t K45.a K45.b K45.x.off (tySize K45.x.ty)) ∧
    (K45.ea < 2 ^ 54) ∧
    (K45.ea % tySize K45.x.ty = 0) ∧
    (K45.s.isLocal (K45.s.ctxOfThread K45.t) K45.ea = true) ∧
    (K45.s.tlbHit (TlbUnit.data (State.coreOf K45.t) (State.quadOf K45.t)) (K45.s.ctxOfThread K45.t) (K45.ea % 2 ^ 48)
      = none) ∧
    (K45.s.tlbHit (TlbUnit.core (State.coreOf K45.t)) (K45.s.ctxOfThread K45.t) (K45.ea % 2 ^ 48) = none) ∧
    (walkOf K45.s K45.t K45.ea = State.Walk.leaf K45.st K45.l K45.m K45.p) ∧
    (K45.wr = true → K45.l.w = true) ∧
    (K45.st = 2 ∧ 1 = 1 ∨ K45.st = 3 ∧ 1 = 3 ∨ K45.st = 0 ∧ K45.s.badPage K45.l.pa K45.l.sz = true ∧ 1 = 3) ∧
    (∀ (f : FaultRec), f ∈ K45.s.flt.faults → f.ctx ≠ K45.s.ctxOfThread K45.t ∨ f.page ≠ K45.ea % 2 ^ 48 / 4096) ∧
    (1024 ≤ K45.s.flt.faults.length) :=
  by unfold Says.One Ready Fresh Free; decide +kernel

namespace K46
def s : State :=
  { W.withMem [(0x102010, leBytes 8 (0x800 * 2 ^ 24 + 0x9007))] with tlb := [], groups := [{W.group0 with g := W.group0.g.set 2 0x400000}], threads := W.one.threads.map (fun x => {x with regs := x.regs.set 6 ⟨0x38,Tag.zero⟩}), flt := { State.reset.flt with faults := [], bad := [] } }
def t := 0
def h := W.ha
def x : MemX := ⟨.plain, .s32, .thr, .none, 0⟩
def d := 8
def a := 2
def b : Option Nat := some 6
def i : Instr := Instr.ld h x d a b
def u : Uses := ⟨tyRegs x.ty d ++ optW b, .g a :: (optW b).map .w⟩
def wr : Bool := false
def ea : Nat := s.eaGlobal true t a b x.off (tySize x.ty)
def wk := walkOf s t ea
def st : Nat := match wk with | .leaf a _ _ _ => a | _ => 99
def l : Leaf := match wk with | .leaf _ a _ _ => a | _ => W.leaf
def m : Nat := match wk with | .leaf _ _ a _ => a | _ => 0
def p : Nat := match wk with | .leaf _ _ _ a => a | _ => 0
def pa : Nat := l.pa + ea % 2^48 % State.pageBytes l.sz
end K46
theorem witness_LaneMemoryTraps_8 :
    (K46.x.ty.isMem = true) ∧
    (Free K46.s K46.t) ∧
    ((K46.i, K46.u, K46.wr) ∈ [(Instr.ld K46.h K46.x K46.d K46.a K46.b,
      { held := tyRegs K46.x.ty K46.d ++ optW K46.b, reads := Opd.g K46.a :: List.map Opd.w (optW K46.b) : Uses },
      false), (Instr.st K46.h K46.x K46.d K46.a K46.b,
      { held := tyRegs K46.x.ty K46.d ++ optW K46.b, reads := List.map Opd.w (tyRegs K46.x.ty K46.d) ++ Opd.g K46.a :: List.map Opd.w (optW K46.b) : Uses }, true)]) ∧
    (Says.One K46.s K46.t K46.h K46.u) ∧
    (K46.ea = K46.s.eaGlobal true K46.t K46.a K46.b K46.x.off (tySize K46.x.ty)) ∧
    (K46.ea < 2 ^ 54) ∧
    (K46.ea % tySize K46.x.ty = 0) ∧
    (K46.s.isLocal (K46.s.ctxOfThread K46.t) K46.ea = true) ∧
    (K46.s.tlbHit (TlbUnit.data (State.coreOf K46.t) (State.quadOf K46.t)) (K46.s.ctxOfThread K46.t) (K46.ea % 2 ^ 48)
      = none) ∧
    (K46.s.tlbHit (TlbUnit.core (State.coreOf K46.t)) (K46.s.ctxOfThread K46.t) (K46.ea % 2 ^ 48) = none) ∧
    (walkOf K46.s K46.t K46.ea = State.Walk.leaf K46.st K46.l K46.m K46.p) ∧
    (K46.wr = true → K46.l.w = true) ∧
    (K46.st = 0) ∧
    (K46.s.badPage K46.l.pa K46.l.sz = false) ∧
    (K46.pa = K46.l.pa + K46.ea % 2 ^ 48 % State.pageBytes K46.l.sz) ∧
    (NoOpen K46.s K46.t) ∧
    (K46.s.locked (State.coreOf K46.t) (K46.s.ctxOfThread K46.t) false K46.wr (K46.s.normAddr (K46.s.ctxOfThread
      K46.t) K46.ea) (tySize K46.x.ty) = false) ∧
    (K46.wr = false → NoCopy K46.s (State.coreOf K46.t) K46.x K46.l (locOf K46.pa)) :=
  by unfold Says.One Ready Fresh Free NoOpen NoCopy; decide +kernel

namespace K47
def s : State :=
  { W.withMem [] with groups := [{W.group0 with g := W.group0.g.set 2 (2^54)}], threads := W.one.threads.map (fun x => {x with regs := x.regs.set 6 ⟨0,Tag.zero⟩}) }
def t := 0
def h := W.ha
def x : MemX := ⟨.plain, .s32, .thr, .none, 0⟩
def d := 8
def a := 2
def q := 6
def c := 10
def fill : FillF := .dflt
def px : PlX := ⟨.plain,.thr,.none⟩
def e : Nat := 6
def k := 0
def i : Instr := Instr.pld h px k fill d a q
def u : Uses := ⟨[d, q], [.g a, .w q]⟩
def ga : Nat := (g s (t / 32) a).toNat
end K47
theorem witness_LaneMemoryTraps_9 :
    ((∃ x1 x2 x3 x4 x5 x6 x7 x8, K47.i = Instr.prf x1 x2 x3 x4 x5 x6 x7 x8) → (K47.s.wreg K47.t K47.d).tag.v = false ∨
      (K47.s.wreg K47.t K47.d).tag.k < K47.k) ∧
    (Free K47.s K47.t) ∧
    (Says.One K47.s K47.t K47.h K47.u) ∧
    (K47.x.ty.isMem = true) ∧
    ((K47.i, K47.u) ∈ [(Instr.pld K47.h K47.px K47.k K47.fill K47.d K47.a K47.q,
      { held := [K47.d, K47.q], reads := [Opd.g K47.a, Opd.w K47.q] : Uses }), (Instr.pst K47.h K47.px K47.d K47.a
      K47.q, { held := [K47.d, K47.q], reads := [Opd.g K47.a, Opd.w K47.q] : Uses }), (Instr.prf K47.h K47.px K47.k
      K47.fill K47.d K47.a K47.q K47.c,
      { held := [K47.d, K47.q], reads := [Opd.w K47.d, Opd.g K47.a, Opd.w K47.q] : Uses })]) ∧
    (K47.ga = BitVec.toNat (g K47.s (K47.t / 32) K47.a)) ∧
    (2 ^ 54 ≤ K47.ga ∧ K47.e = 6 ∨ K47.ga < 2 ^ 54 ∧ K47.ga % 64 ≠ 0 ∧ K47.e = 18) :=
  ⟨fun _ => .inl (by decide +kernel),
   by unfold Free; decide +kernel,
   by unfold Says.One Ready Fresh; decide +kernel,
   by decide +kernel⟩

namespace K48
def s : State :=
  { W.one with threads := W.one.threads.map (fun x => {x with regs := x.regs.set 7 ⟨0x1000000,Tag.zero⟩}) }
def t := 0
def h := W.ha
def x : MemX := ⟨.plain, .s32, .thr, .none, 0⟩
def y : AtomX := ⟨.plain,.s32,.thr,.none⟩
def z : FeX := ⟨true,false,.thr,.none,none⟩
def op : AtomOp := .add
def d := 8
def bs := 7
def c := 10
def e : Nat := 15
def i : Instr := Instr.lds h x d bs
def u : Uses := ⟨tyRegs x.ty d ++ [bs], [.w bs]⟩
def wr : Bool := false
def ea : Nat := s.eaLocal t bs x.off (tySize x.ty)
def n : Nat := tySize x.ty
end K48
theorem witness_LaneMemoryTraps_10 :
    (K48.x.ty.isMem = true) ∧
    (Free K48.s K48.t) ∧
    ((K48.i, K48.u, K48.wr, K48.ea, K48.n) ∈ [(Instr.lds K48.h K48.x K48.d K48.bs,
      { held := tyRegs K48.x.ty K48.d ++ [K48.bs], reads := [Opd.w K48.bs] : Uses }, false, K48.s.eaLocal K48.t K48.bs
      K48.x.off (tySize K48.x.ty), tySize K48.x.ty), (Instr.sts K48.h K48.x K48.d K48.bs, useR (tyRegs K48.x.ty K48.d
      ++ [K48.bs]), true, K48.s.eaLocal K48.t K48.bs K48.x.off (tySize K48.x.ty), tySize K48.x.ty), (Instr.atoms K48.h
      K48.op K48.y K48.d K48.bs K48.c,
      { held := [K48.d, K48.bs, K48.c], reads := [Opd.w K48.bs, Opd.w K48.c] : Uses }, true, K48.s.eaLocal K48.t
      K48.bs 0 4, 4), (Instr.cass K48.h K48.y K48.d K48.bs K48.c, useR [K48.d, K48.bs, K48.c], true, K48.s.eaLocal
      K48.t K48.bs 0 4, 4), (Instr.ldwf K48.h K48.z K48.d (FeAddr.spad K48.bs), feDst K48.d (FeAddr.spad K48.bs),
      false, K48.s.eaLocal K48.t K48.bs 0 4, 4), (Instr.stfs K48.h K48.z K48.d (FeAddr.spad K48.bs), feSrc K48.d
      (FeAddr.spad K48.bs), true, K48.s.eaLocal K48.t K48.bs 0 4, 4)]) ∧
    (Says.One K48.s K48.t K48.h K48.u) ∧
    (SpadTraps K48.s K48.t K48.wr K48.ea K48.n K48.e) :=
  by unfold Says.One Ready Fresh Free SpadTraps; decide +kernel

namespace K49
def s : State := W.one.updThread 0 fun g => {g with regs := g.regs.set 0 ⟨0x40,Tag.zero⟩}
def t := 0
def h := W.ha
def x : FeX := ⟨true,false,.thr,.none,none⟩
def d := 9
def ad : FeAddr := .glob 2 6
def l : Loc := match ad with | .glob a b => .mem (0x800000 + (s.eaGlobal false t a (some b) 0 4 - 0x400000)) | .spad b => spadLoc s t (s.eaLocal t b 0 4)
end K49
theorem witness_FullEmptyIssue_1 :
    (FeHit K49.s K49.t FeForm.stfs K49.ad K49.l) ∧
    (FeHit K49.s K49.t FeForm.feget K49.ad K49.l) ∧
    (FeHit K49.s K49.t FeForm.fesetEmpty K49.ad K49.l) ∧
    (FeHit K49.s K49.t FeForm.fesetFull K49.ad K49.l) ∧
    (FeHit K49.s K49.t FeForm.ldwf K49.ad K49.l) ∧
    (FeHit K49.s K49.t FeForm.ldce K49.ad K49.l) ∧
    (FeHit K49.s K49.t FeForm.stwe K49.ad K49.l) ∧
    (FeHit K49.s K49.t FeForm.waita K49.ad K49.l) ∧
    (NoOpen K49.s K49.t) ∧
    (Says.One K49.s K49.t K49.h (feSrc K49.d K49.ad) ∧ Says.One K49.s K49.t K49.h
      { held := FeAddr.ws K49.ad, reads := FeAddr.opds K49.ad : Uses } ∧ Says.One K49.s K49.t K49.h (feDst K49.d
      K49.ad)) ∧
    (K49.x.try? = none) :=
  ⟨by refine ⟨_, W.leaf, ?_, rfl⟩; unfold Glob Hit; decide +kernel,
   by refine ⟨_, W.leaf, ?_, rfl⟩; unfold Glob Hit; decide +kernel,
   by refine ⟨_, W.leaf, ?_, rfl⟩; unfold Glob Hit; decide +kernel,
   by refine ⟨_, W.leaf, ?_, rfl⟩; unfold Glob Hit; decide +kernel,
   by refine ⟨_, W.leaf, ?_, rfl⟩; unfold Glob Hit; decide +kernel,
   by refine ⟨_, W.leaf, ?_, rfl⟩; unfold Glob Hit; decide +kernel,
   by refine ⟨_, W.leaf, ?_, rfl⟩; unfold Glob Hit; decide +kernel,
   by refine ⟨_, W.leaf, ?_, rfl⟩; unfold Glob Hit; decide +kernel,
   by unfold NoOpen; decide +kernel,
   by unfold Says.One Ready Fresh; decide +kernel,
   by decide +kernel⟩

namespace K50
def s : State :=
  { W.one with groups := [{W.group0 with g := W.group0.g.set 2 (0x9000000400000 + 8)}], threads := W.one.threads.map fun x => {x with regs := x.regs.set 6 ⟨0x38,Tag.zero⟩}, fab := { State.reset.fab with en := true, cal := setAt State.reset.fab.cal 12 (9,0), pairs := [{ Pair.reset 9 with eseq := 5 }] } }
def t := 0
def h := W.ha
def cc : Cond := .lt
def x : FeX := ⟨true,false,.thr,.none,none⟩
def d := 9
def ad : FeAddr := .glob 2 6
def ea : Nat := s.eaGlobal false t 2 (some 6) 0 4
def z : Bool × Scope := (x.seq, farScope x.scope)
def r_ := 2
def q__ := 6
def node := 9
end K50
theorem witness_FullEmptyIssue_2 :
    (NoOpen K50.s K50.t) ∧
    (Says.One K50.s K50.t K50.h { held := [K50.q__], reads := [Opd.g K50.r_, Opd.w K50.q__] : Uses }) ∧
    (Far K50.s K50.t false K50.ea 4 K50.node) ∧
    (Says.One K50.s K50.t K50.h (feSrc K50.d K50.ad)) ∧
    (Far K50.s K50.t true K50.ea 4 K50.node) ∧
    (Says.One K50.s K50.t K50.h (feDst K50.d K50.ad)) ∧
    (K50.ad = FeAddr.glob K50.r_ K50.q__) ∧
    (K50.ea = K50.s.eaGlobal false K50.t K50.r_ (some K50.q__) 0 4) ∧
    (K50.z = (K50.x.seq, farScope K50.x.scope)) ∧
    (K50.x.try? = none) ∧
    ((Instr.ldwf K50.h K50.x K50.d K50.ad, MemOp.fe FeForm.ldwf K50.x.try?.isSome 0 Cond.eq !K50.x.zty, feDst K50.d
      K50.ad, false) ∈ [(Instr.ldwf K50.h K50.x K50.d K50.ad, MemOp.fe FeForm.ldwf false 0 Cond.eq !K50.x.zty, feDst
      K50.d K50.ad, false), (Instr.ldce K50.h K50.x K50.d K50.ad, MemOp.fe FeForm.ldce false 0 Cond.eq !K50.x.zty,
      feDst K50.d K50.ad, true), (Instr.stwe K50.h K50.x K50.d K50.ad, MemOp.fe FeForm.stwe false (w K50.s K50.t
      K50.d) Cond.eq !K50.x.zty, feSrc K50.d K50.ad, true), (Instr.waita K50.h K50.cc K50.x K50.d K50.ad, MemOp.fe
      FeForm.waita false (w K50.s K50.t K50.d) K50.cc !K50.x.zty, feSrc K50.d K50.ad, false)]) :=
  ⟨by unfold NoOpen; decide +kernel,
   by unfold Says.One Ready Fresh; decide +kernel,
   by unfold Far; decide +kernel,
   by unfold Says.One Ready Fresh; decide +kernel,
   by unfold Far; decide +kernel,
   by unfold Says.One Ready Fresh; decide +kernel,
   by decide +kernel⟩

namespace K51
def s : State := W.one.updThread 0 fun g => {g with regs := g.regs.set 0 ⟨0x40,Tag.zero⟩}
def t := 0
def h := W.ha
def x : FeX := ⟨true,false,.thr,.none,some 3⟩
def d := 9
def p := 3
def ad : FeAddr := .glob 2 6
def l : Loc := match ad with | .glob a b => .mem (0x800000 + (s.eaGlobal false t a (some b) 0 4 - 0x400000)) | .spad b => spadLoc s t (s.eaLocal t b 0 4)
end K51
theorem witness_FullEmptyIssue_3 :
    (FeHit K51.s K51.t FeForm.ldwf K51.ad K51.l) ∧
    (FeHit K51.s K51.t FeForm.ldce K51.ad K51.l) ∧
    (FeHit K51.s K51.t FeForm.stwe K51.ad K51.l) ∧
    (FeHit K51.s K51.t FeForm.waita K51.ad K51.l) ∧
    (NoOpen K51.s K51.t) ∧
    (K51.x.try? = some K51.p) ∧
    (Says.One K51.s K51.t K51.h (feDst K51.d K51.ad)) ∧
    (Says.One K51.s K51.t K51.h (feSrc K51.d K51.ad)) :=
  ⟨by refine ⟨_, W.leaf, ?_, rfl⟩; unfold Glob Hit; decide +kernel,
   by refine ⟨_, W.leaf, ?_, rfl⟩; unfold Glob Hit; decide +kernel,
   by refine ⟨_, W.leaf, ?_, rfl⟩; unfold Glob Hit; decide +kernel,
   by refine ⟨_, W.leaf, ?_, rfl⟩; unfold Glob Hit; decide +kernel,
   by unfold Says.One Ready Fresh NoOpen; decide +kernel⟩

namespace K52
def s : State :=
  { W.one with groups := [{W.group0 with g := W.group0.g.set 2 (0x9000000400000 + 8)}], threads := W.one.threads.map fun x => {x with regs := x.regs.set 6 ⟨0x38,Tag.zero⟩}, fab := { State.reset.fab with en := true, cal := setAt State.reset.fab.cal 12 (9,0), pairs := [{ Pair.reset 9 with eseq := 5 }] } }
def t := 0
def h := W.ha
def x : FeX := ⟨true,false,.thr,.none,some 3⟩
def d := 9
def p := 3
def ad : FeAddr := .glob 2 6
def ea : Nat := s.eaGlobal false t 2 (some 6) 0 4
def z : Bool × Scope := (x.seq, farScope x.scope)
def r_ := 2
def q__ := 6
def node := 9
end K52
theorem witness_FullEmptyIssue_4 :
    (NoOpen K52.s K52.t) ∧
    (Says.One K52.s K52.t K52.h (feDst K52.d K52.ad)) ∧
    (Far K52.s K52.t false K52.ea 4 K52.node ∧ Far K52.s K52.t true K52.ea 4 K52.node) ∧
    (Says.One K52.s K52.t K52.h (feSrc K52.d K52.ad)) ∧
    (K52.ad = FeAddr.glob K52.r_ K52.q__) ∧
    (K52.ea = K52.s.eaGlobal false K52.t K52.r_ (some K52.q__) 0 4) ∧
    (K52.z = (K52.x.seq, farScope K52.x.scope)) ∧
    (K52.x.try? = some K52.p) :=
  ⟨by unfold NoOpen; decide +kernel,
   by unfold Says.One Ready Fresh; decide +kernel,
   by unfold Far; decide +kernel,
   by unfold Says.One Ready Fresh; decide +kernel,
   by decide +kernel⟩

namespace K53
def s : State :=
  { (W.one.updThread 0 fun x => {x with regs := (x.regs.set 6 ⟨77,Tag.zero⟩).set 9 ⟨0xAB,Tag.zero⟩}) with mem := Memory.setMany [] 0x800080 (leBytes 64 (0x50 + 3*256 + 0*65536 + 1*131072 + 1024*2^32 + 0x401000*2^64 + 0x402000*2^128 + 2097152*2^192)), teams := [{W.team1 with spSize := 0x10000}], tlb := W.units.flatMap fun u => (List.range 6).map fun i => ⟨u,0,{W.leaf with va := 0x400000+0x200000*i, pa := 0x800000+0x200000*i}⟩ }
def t := 0
def h := W.ha
def x : PlX := ⟨.plain,.thr,.none⟩
def k := 1
def d := 9
def a := 2
def b := 6
def n : Nat := (w s t b).toNat
def r : PlaneRec := ⟨3,false,true,1024,0x401000,0x402000,2097152⟩
def j : Nat := (if k ≤ r.m then k else r.m)
def at_ : Nat → Loc := fun i => .mem (((blockOf r n r.m).getD i (0,0)).1 + 0x400000)
def pa : List Nat :=
  [0x800080, 0x401000+0x400000+2*2,0x402000+0x400000+8,0x402000+0x400000+8+2097152,0x402000+0x400000+8+2*2097152,0x402000+0x400000+8+3*2097152]
end K53
theorem witness_PlaneAccess_1 :
    (RecordAt K53.s K53.t K53.a K53.r) ∧
    (Block K53.s K53.t K53.r false (blockOf K53.r K53.n K53.j) K53.at_) ∧
    (Block K53.s K53.t K53.r true (blockOf K53.r K53.n K53.r.m) K53.at_) ∧
    (K53.n = BitVec.toNat (w K53.s K53.t K53.b)) ∧
    (K53.n < K53.r.count) ∧
    (NoOpen K53.s K53.t) ∧
    (K53.j = if K53.k ≤ K53.r.m then K53.k else K53.r.m) ∧
    (Says.One K53.s K53.t K53.h { held := [K53.d, K53.b], reads := [Opd.g K53.a, Opd.w K53.b] : Uses }) ∧
    (Says.One K53.s K53.t K53.h { held := [K53.d, K53.b], reads := [Opd.w K53.d, Opd.g K53.a, Opd.w K53.b] : Uses }) ∧
    ((K53.s.wreg K53.t K53.d).tag.v = false ∨ (K53.s.wreg K53.t K53.d).tag.k < K53.k) ∧
    (K53.d + K53.r.m + 1 < 128) ∧
    (∀ (i : Nat), i < K53.r.m + 2 → State.holds (K53.s.grOf K53.t) (K53.d + i) = true) ∧
    ((K53.s.grOf K53.t).haz = true → ∀ (i : Nat), i < K53.r.m + 2 → K53.s.dstPend (Dst.reg K53.t (K53.d + i)) = false)
      :=
  ⟨record_at rfl (by unfold Hit; decide +kernel) (by decide +kernel),
   glob_block (by decide +kernel) (by unfold Glob Hit; decide +kernel),
   glob_block (by decide +kernel) (by unfold Glob Hit; decide +kernel),
   by unfold Says.One Ready Fresh NoOpen; decide +kernel⟩

namespace K54
def s : State :=
  { W.one with threads := W.one.threads.map fun x => {x with regs := (x.regs.set 9 ⟨0x12345,(fun t => ⟨3,true,5,true,7,0xFF⟩) x.slot⟩).set 3 ⟨BitVec.ofNat 32 (3+16+32*7+8192+16384*5+262144*2),(fun t => ⟨3,true,5,true,7,0xFF⟩) 0⟩} }
def t := 0
def h := W.ha
def x : PlX := ⟨.plain,.thr,.none⟩
def k := 2
def d := 9
def a := 3
def b := 6
end K54
theorem witness_PlaneTags_1 :
    (Ready K54.s K54.h (useD K54.d [K54.a]) ∧ Ready K54.s K54.h (useR [K54.d, K54.a]) ∧ Ready K54.s K54.h (useR
      [K54.d])) ∧
    (Says.One K54.s K54.t K54.h { held := [K54.d, K54.b], reads := [Opd.w K54.d, Opd.g K54.a, Opd.w K54.b] : Uses }) ∧
    (∀ (t : Nat), t ∈ K54.s.cur.threads → K54.s.guardT t K54.h.gd = true → (K54.s.wreg t K54.d).tag.v = true) ∧
    ((K54.s.wreg K54.t K54.d).tag.v = true) ∧
    (K54.k ≤ (K54.s.wreg K54.t K54.d).tag.k) :=
  ⟨by unfold Ready; decide +kernel,
   by unfold Says.One Ready Fresh; decide +kernel,
   by decide +kernel⟩

namespace K55
def s : State :=
  { W.three with threads := W.three.threads.map fun x => {x with regs := (x.regs.set 9 ⟨0x12345,(fun t => ⟨3,true,5,false,7,9⟩) x.slot⟩).set 3 ⟨BitVec.ofNat 32 (3+16+32*7+8192+16384*5+262144*2),(fun t => ⟨3,true,5,false,7,9⟩) 0⟩} }
def t := 0
def h := W.ha
def x : PlX := ⟨.plain,.thr,.none⟩
def d := 9
end K55
theorem witness_PlaneTags_2 :
    (Ready K55.s K55.h (useR [K55.d])) ∧
    (∀ (t : Nat), t ∈ K55.s.cur.threads → K55.s.guardT t K55.h.gd = true → (K55.s.wreg t K55.d).tag.v = false) :=
  by unfold Ready; decide +kernel

namespace K56
def s : State := W.one
def h := W.h
def a := 6
end K56
theorem witness_LaneBranch_1 :
    (Ready K56.s K56.h { held := [], reads := [] : Uses }) ∧
    (Ready K56.s K56.h (useR [K56.a])) ∧
    (∀ (t : Nat), t ∈ K56.s.cur.threads → K56.s.guardT t K56.h.gd = true → BitVec.toNat (w K56.s t K56.a) % 4 = 0) :=
  by unfold Ready; decide +kernel

namespace K57
def s : State := W.one.updThread 0 fun x => {x with regs := x.regs.set 7 ⟨0x12345679,Tag.zero⟩}
def t := 0
def h := W.ha
def a := 7
end K57
theorem witness_LaneBranch_2 :
    (Ready K57.s K57.h (useR [K57.a])) ∧
    (K57.s.cur.threads = [K57.t]) ∧
    (K57.s.guardT K57.t K57.h.gd = true) ∧
    (BitVec.toNat (w K57.s K57.t K57.a) % 4 ≠ 0) ∧
    (Free K57.s K57.t) :=
  by unfold Ready Free; decide +kernel

namespace K58
def s : State := (W.one.updGroup 0 fun g => {g with stk := 4096}).updThread 0 fun x => {x with cdepth := 512}
def t := 0
def h := W.ha
def n : Nat := (s.th t).cdepth
def o : Nat := (s.grOf t).stk - 8 * (n + 1)
def pa : Nat → Nat := fun i => 0x800000 + (s.backing t (o + 4 * i) - 0x400000)
def leaf : Nat → Leaf := fun _ => W.leaf
def b0 : List Byte := (s.plainRead (.thread t) (State.coreOf t) (pa 0) 4 (leaf 0)).getD []
def b1 : List Byte := (s.plainRead (.thread t) (State.coreOf t) (pa 1) 4 (leaf 1)).getD []
def target : Nat := leNat (b0++b1)
end K58
theorem witness_LaneCallReturn_1 :
    (Says.One K58.s K58.t K58.h { held := [], reads := [] : Uses }) ∧
    (Free K58.s K58.t) ∧
    (∀ (i : Nat), i < 2 → K58.s.backing K58.t (K58.o + 4 * i) < 2 ^ 54 ∧ Hit K58.s K58.t State.Want.load
      (K58.s.backing K58.t (K58.o + 4 * i)) 4 (K58.pa i) (K58.leaf i) ∧ K58.pa i < Config.hostBase ∧ K58.s.ueHit
      (Loc.mem (K58.pa i)) 4 false = none) ∧
    (K58.n = (K58.s.th K58.t).cdepth) ∧
    ((K58.s.grOf K58.t).stk < 8 * (K58.n + 1)) ∧
    (K58.n ≠ 0) ∧
    (8 * K58.n ≤ (K58.s.grOf K58.t).stk) ∧
    ((K58.s.grOf K58.t).stk % 8 = 0) ∧
    (K58.o = (K58.s.grOf K58.t).stk - 8 * K58.n) ∧
    (K58.s.plainRead (Who.thread K58.t) (State.coreOf K58.t) (K58.pa 0) 4 (K58.leaf 0) = some K58.b0) ∧
    ((K58.s.plainFill (State.coreOf K58.t) (K58.pa 0) 4 (K58.leaf 0)).plainRead (Who.thread K58.t) (State.coreOf
      K58.t) (K58.pa 1) 4 (K58.leaf 1) = some K58.b1) ∧
    (K58.target = leNat (K58.b0 ++ K58.b1)) ∧
    (K58.target % 4 = 0) :=
  ⟨by unfold Says.One Ready Fresh; decide +kernel,
   by unfold Free; decide +kernel,
   by unfold Hit; decide +kernel,
   by decide +kernel⟩

namespace K59
def s : State := W.one.updGroup 0 fun g => {g with stk := 4096}
def t := 0
def h := W.ha
def n : Nat := (s.th t).cdepth
def o : Nat := (s.grOf t).stk - 8 * (n + 1)
def pa : Nat → Nat := fun i => 0x800000 + (s.backing t (o + 4 * i) - 0x400000)
def leaf : Nat → Leaf := fun _ => W.leaf
end K59
theorem witness_LaneCallReturn_2 :
    (Says.One K59.s K59.t K59.h { held := [], reads := [] : Uses }) ∧
    (K59.n = (K59.s.th K59.t).cdepth) ∧
    (8 * (K59.n + 1) ≤ (K59.s.grOf K59.t).stk) ∧
    ((K59.s.grOf K59.t).stk % 8 = 0) ∧
    (K59.o = (K59.s.grOf K59.t).stk - 8 * (K59.n + 1)) ∧
    (∀ (i : Nat), i < 2 → K59.s.backing K59.t (K59.o + 4 * i) < 2 ^ 54 ∧ Hit K59.s K59.t State.Want.store
      (K59.s.backing K59.t (K59.o + 4 * i)) 4 (K59.pa i) (K59.leaf i) ∧ K59.pa i < Config.hostBase) ∧
    (K59.n = 0) ∧
    (Free K59.s K59.t) :=
  by unfold Says.One Ready Fresh Hit Free; decide +kernel

namespace K60
def s : State :=
  { (W.one.updGroup 0 fun g => {g with stk := 4096}).updThread 0 fun x => {x with cdepth := 3} with mem := Memory.setMany (Memory.setMany [] (0x800000 + ((W.one.updGroup 0 fun g => {g with stk := 4096}).backing 0 (4096-24) - 0x400000)) [0x79,0x56,0x34,0x12]) (0x800000 + ((W.one.updGroup 0 fun g => {g with stk := 4096}).backing 0 (4096-24+4) - 0x400000)) [0x9,0x0,0x10,0x0] }
def t := 0
def h := W.ha
def n : Nat := (s.th t).cdepth
def o : Nat := (s.grOf t).stk - 8 * (n + 0)
def pa : Nat → Nat := fun i => 0x800000 + (s.backing t (o + 4 * i) - 0x400000)
def leaf : Nat → Leaf := fun _ => W.leaf
def b0 : List Byte := (s.plainRead (.thread t) (State.coreOf t) (pa 0) 4 (leaf 0)).getD []
def b1 : List Byte := (s.plainRead (.thread t) (State.coreOf t) (pa 1) 4 (leaf 1)).getD []
def target : Nat := leNat (b0++b1)
end K60
theorem witness_LaneCallReturn_3 :
    (Says.One K60.s K60.t K60.h { held := [], reads := [] : Uses }) ∧
    (∀ (i : Nat), i < 2 → K60.s.backing K60.t (K60.o + 4 * i) < 2 ^ 54 ∧ Hit K60.s K60.t State.Want.load
      (K60.s.backing K60.t (K60.o + 4 * i)) 4 (K60.pa i) (K60.leaf i) ∧ K60.pa i < Config.hostBase ∧ K60.s.ueHit
      (Loc.mem (K60.pa i)) 4 false = none) ∧
    (Free K60.s K60.t) ∧
    (K60.n = (K60.s.th K60.t).cdepth) ∧
    (K60.n ≠ 0) ∧
    (8 * K60.n ≤ (K60.s.grOf K60.t).stk) ∧
    ((K60.s.grOf K60.t).stk % 8 = 0) ∧
    (K60.o = (K60.s.grOf K60.t).stk - 8 * K60.n) ∧
    (K60.s.plainRead (Who.thread K60.t) (State.coreOf K60.t) (K60.pa 0) 4 (K60.leaf 0) = some K60.b0) ∧
    ((K60.s.plainFill (State.coreOf K60.t) (K60.pa 0) 4 (K60.leaf 0)).plainRead (Who.thread K60.t) (State.coreOf
      K60.t) (K60.pa 1) 4 (K60.leaf 1) = some K60.b1) ∧
    (K60.target = leNat (K60.b0 ++ K60.b1)) ∧
    (K60.target % 4 ≠ 0) :=
  ⟨by unfold Says.One Ready Fresh; decide +kernel,
   by unfold Hit; decide +kernel,
   by unfold Free; decide +kernel,
   by decide +kernel⟩

namespace K61
def s : State := W.one
def t := 0
def h := W.ha
end K61
theorem witness_LaneExitYield_1 :
    (Says.One K61.s K61.t K61.h { held := [], reads := [] : Uses }) ∧
    (K61.s.threadPend K61.t = false) ∧
    (∀ (y : Thread), y ∈ K61.s.threads → y.slot / 32 = K61.t / 32 → y.st.isConv = false) ∧
    (∀ (p : Nat × State.ParkRec), p ∈ K61.s.parkList (K61.s.tmOf K61.t).ctx → p.snd.gslot = K61.t / 32 → ¬State.laneOf
      K61.t ∈ p.snd.lanes) :=
  by unfold Says.One Ready Fresh; decide +kernel

namespace K62
def s : State :=
  { W.one with reqs := [{ id := 4, who := .thread 0, core := 0, ctx := 0, team := 1, epoch := 0, op := .load, loc := .mem 0x900000, size := 4, ord := .plain, scope := .thr, hint := .none, cp := 0, pl := 0, feb := false, va := 0x500000, form := .none, fill := [], co := 4, bytes := 4, merged := false, nrel := false, xw := false, parts := [], after := [], done := false, since := 0 }], pend := [⟨4,.reg 0 20,.none,0,false,900⟩] }
def t := 0
def h := W.ha
end K62
theorem witness_LaneExitYield_2 :
    (Says.One K62.s K62.t K62.h { held := [], reads := [] : Uses }) ∧
    (K62.s.threadPend K62.t = true) :=
  by unfold Says.One Ready Fresh; decide +kernel

namespace K63
def s : State := W.one.updThread 0 fun x => {x with trap := {x.trap with level := 2, epc1 := 0x8000, epc2 := 0x9004}}
def t := 0
def h := W.ha
end K63
theorem witness_LaneTraps_1 :
    (Says.One K63.s K63.t K63.h { held := [], reads := [] : Uses }) ∧
    ((K63.s.th K63.t).trap.level = 2) ∧
    ((K63.s.th K63.t).re = ReIssue.first) ∧
    (K63.s.threadPend K63.t = false) ∧
    (K63.s.hasCtx (K63.s.ctxOfThread K63.t) = true) ∧
    ((K63.s.cx (K63.s.ctxOfThread K63.t)).killing = none) :=
  by unfold Says.One Ready Fresh; decide +kernel

namespace K64
def s : State := W.one.updThread 0 fun x => {x with trap := {x.trap with level := 0, epc1 := 0x8000, epc2 := 0x9004}}
def t := 0
def h := W.ha
end K64
theorem witness_LaneTraps_2 :
    (Says.One K64.s K64.t K64.h { held := [], reads := [] : Uses }) ∧
    (Free K64.s K64.t) :=
  by unfold Says.One Ready Fresh Free; decide +kernel

namespace K65
def s : State := W.one.updThread 0 fun x => {x with trap := {x.trap with level := 1, epc1 := 0x8000, epc2 := 0x9004}}
def t := 0
def h := W.ha
end K65
theorem witness_LaneTrapReturn_1 :
    (Says.One K65.s K65.t K65.h { held := [], reads := [] : Uses }) ∧
    ((K65.s.th K65.t).trap.level = 1 ∧ 32768 = (K65.s.th K65.t).trap.epc1 ∨ (K65.s.th K65.t).trap.level = 2 ∧ 32768 =
      (K65.s.th K65.t).trap.epc2) ∧
    (BitVec.toNat (32768 : DWord) % 4 = 0) ∧
    (K65.s.threadPend K65.t = false) ∧
    (1 ≠ K65.t) :=
  by unfold Says.One Ready Fresh; decide +kernel

namespace K66
def s : State := W.one.updThread 0 fun x => {x with trap := {x.trap with level := 0, epc1 := 0x8000, epc2 := 0x9004}}
def t := 0
def h := W.ha
end K66
theorem witness_LaneTrapReturn_2 :
    (Says.One K66.s K66.t K66.h { held := [], reads := [] : Uses }) ∧
    ((K66.s.th K66.t).trap.level = 0) ∧
    (Free K66.s K66.t) :=
  by unfold Says.One Ready Fresh Free; decide +kernel

namespace K67
def s : State :=
  ({ W.one with reqs := [{ id := 4, who := .thread 0, core := 0, ctx := 0, team := 1, epoch := 0, op := .load, loc := .mem 0x900000, size := 4, ord := .plain, scope := .thr, hint := .none, cp := 0, pl := 0, feb := false, va := 0x500000, form := .none, fill := [], co := 4, bytes := 4, merged := false, nrel := false, xw := false, parts := [], after := [], done := false, since := 0 }], pend := [⟨4,.reg 0 20,.none,0,false,900⟩] }).updThread 0 fun x => {x with trap := {x.trap with level := 1, epc1 := 0x8000, epc2 := 0x9004}}
def t := 0
def h := W.ha
end K67
theorem witness_LaneTrapReturn_3 :
    (Says.One K67.s K67.t K67.h { held := [], reads := [] : Uses }) ∧
    ((K67.s.th K67.t).trap.level = 1 ∧ 32768 = (K67.s.th K67.t).trap.epc1 ∨ (K67.s.th K67.t).trap.level = 2 ∧ 32768 =
      (K67.s.th K67.t).trap.epc2) ∧
    (BitVec.toNat (32768 : DWord) % 4 = 0) ∧
    (K67.s.threadPend K67.t = true) :=
  by unfold Says.One Ready Fresh; decide +kernel

namespace K68
def s : State := W.one.updThread 0 fun x => {x with trap := {x.trap with level := 1, epc1 := 0x8000, epc2 := 0x9004}}
def t := 0
def h := W.ha
def d := 8
def a := 6
def v : DWord := (w s 0 7 ++ w s 0 6 : DWord)
end K68
theorem witness_TrapRegisterMoves_1 :
    (Ready K68.s K68.h { held := [K68.d], reads := [] : Uses } ∧ Ready K68.s K68.h
      { held := [K68.d, K68.d + 1], reads := [] : Uses }) ∧
    (Says.One K68.s K68.t K68.h (useR [K68.a]) ∧ Says.One K68.s K68.t K68.h (useR [K68.a, K68.a + 1])) ∧
    (∀ (t : Nat), t ∈ K68.s.cur.threads → ∀ (p : Pend), p ∈ K68.s.pend → p.fp = true → State.Pend.ofThread t p =
      false) ∧
    ((K68.s.th K68.t).trap.level ≠ 0) ∧
    (K68.v = w K68.s K68.t (K68.a + 1) ++ w K68.s K68.t K68.a) :=
  ⟨by unfold Ready; decide +kernel,
   by unfold Says.One Ready Fresh; decide +kernel,
   by decide +kernel⟩

namespace K69
def s : State := W.one.updThread 0 fun x => {x with trap := {x.trap with level := 0, epc1 := 0x8000, epc2 := 0x9004}}
def t := 0
def h := W.ha
def a := 6
end K69
theorem witness_TrapRegisterMoves_2 :
    (Says.One K69.s K69.t K69.h (useR [K69.a])) ∧
    ((K69.s.th K69.t).trap.level = 0) ∧
    (Free K69.s K69.t) ∧
    (0 = 0 ∨ 0 = 1 ∨ 0 = 4 ∨ 0 = 9) ∧
    (Says.One K69.s K69.t K69.h (useR [K69.a, K69.a + 1])) :=
  by unfold Says.One Ready Fresh Free; decide +kernel

namespace K70
def s : State :=
  ((W.three.updGroup 0 fun g => {g with g := g.g.set 4 0x41}).updGroup 0 fun g => {g with g := g.g.set 3 0x400080})
def gs := 0
def h := W.ha
def a := 3
def b : Src := .reg 4
def c := 3
end K70
theorem witness_UniformArithmetic_1 :
    (UReady K70.s K70.gs K70.h []) ∧
    (UReady K70.s K70.gs K70.h (Opd.g K70.a :: K70.b.gs)) ∧
    (UReady K70.s K70.gs K70.h (Opd.g K70.a :: K70.b.gs ++ [Opd.g K70.c])) ∧
    (UReady K70.s K70.gs K70.h [Opd.g K70.a]) :=
  by unfold UReady; decide +kernel

namespace K71
def s : State :=
  ((W.three.updGroup 0 fun g => {g with g := g.g.set 4 0x25}).updGroup 0 fun g =>
      {g with g := g.g.set 3 0x8123456789ABCDEF})
def gs := 0
def h := W.ha
def d := 5
def a := 3
def hw := 3
def b : Src := .reg 4
def len := 27
end K71
theorem witness_UniformConstSelect_1 :
    (UReady K71.s K71.gs K71.h []) ∧
    (1 ≤ K71.hw) ∧
    (K71.hw ≤ 3) ∧
    (UReady K71.s K71.gs K71.h [Opd.g K71.d]) ∧
    (UReady K71.s K71.gs K71.h (Opd.g K71.a :: K71.b.gs)) ∧
    (1 ≤ K71.len) ∧
    (K71.len ≤ 64) :=
  by unfold UReady; decide +kernel

namespace K72
def s : State := (W.three.updGroup 0 fun g => {g with g := g.g.set 3 0})
def gs := 0
def h := W.ha
def a := 3
end K72
theorem witness_UniformBranch_1 :
    (UReady K72.s K72.gs K72.h []) ∧
    (K72.a ≠ 0) ∧
    (UReady K72.s K72.gs K72.h [Opd.g K72.a]) ∧
    (BitVec.toNat (g K72.s K72.gs K72.a) % 4 = 0) :=
  by unfold UReady; decide +kernel

namespace K73
def s : State := (W.one.updGroup 0 fun g => {g with g := g.g.set 3 1})
def gs := 0
def h := W.ha
def a := 3
def t := 0
end K73
theorem witness_UniformBranch_2 :
    (UReady K73.s K73.gs K73.h [Opd.g K73.a]) ∧
    (K73.s.cur.threads = [K73.t]) ∧
    ((K73.s.th K73.t).st ≠ TSt.ended) ∧
    (K73.s.guardG K73.gs K73.h.gd = true) ∧
    (Free K73.s K73.t) ∧
    ((K73.s.gr K73.gs).proof = false) ∧
    (K73.h.m = false) ∧
    (BitVec.toNat (g K73.s K73.gs K73.a) % 4 ≠ 0) :=
  by unfold Free UReady; decide +kernel

namespace K74
def s : State :=
  { W.three with groups := [W.group0, {W.group0 with gslot := 1, gid := 4, wait := .bar 2 5}], teams := [{W.team1 with bars := W.team1.bars.set 2 ⟨5,2,0,[]⟩, slots := W.team1.slots.set 3 {DSlot.zero with cnt := 2} }] }
def gs := 0
def h := W.ha
def mask := 8
def z : Src := .reg 3
def b := 2
def u := 1
def br : Bar := ⟨5,2,0,[]⟩
end K74
theorem witness_UniformBarrier_1 :
    (UReady K74.s K74.gs K74.h []) ∧
    (K74.s.guardG K74.gs K74.h.gd = true) ∧
    ((K74.s.gr K74.gs).active = true) ∧
    ((K74.s.gr K74.gs).wait = GWait.none) ∧
    (K74.u = (K74.s.gr K74.gs).team) ∧
    ((K74.s.tm K74.u).bars[K74.b]? = some K74.br) ∧
    (K74.s.groupReads K74.gs = false) ∧
    ((K74.br.last.any fun x => x.fst == (K74.s.gr K74.gs).gid && x.snd == K74.br.phase) = false) ∧
    (K74.br.arr + 1 ≠ K74.br.exp) ∧
    (K74.s.lastArr K74.gs K74.b ≠ some K74.br.phase) ∧
    (bitOf K74.mask 3 = true) ∧
    (((K74.s.tm (K74.s.gr K74.gs).team).slots.getD 3 DSlot.zero).cnt ≠ 0) ∧
    (UReady K74.s K74.gs K74.h K74.z.gs) ∧
    (BitVec.toNat (gsrc K74.s K74.gs K74.z) ≠ 0) :=
  by unfold UReady; decide +kernel

namespace K75
def s : State :=
  { W.three with groups := [W.group0, {W.group0 with gslot := 1, gid := 4, wait := .bar 2 5}], teams := [{W.team1 with bars := W.team1.bars.set 2 ⟨5,2,1,[(4,5)]⟩, slots := W.team1.slots.set 3 {DSlot.zero with cnt := 0} }] }
def gs := 0
def h := W.ha
def mask := 8
def z : Src := .reg 0
def b := 2
def u := 1
def br : Bar := ⟨5,2,1,[(4,5)]⟩
end K75
theorem witness_UniformBarrier_2 :
    (UReady K75.s K75.gs K75.h []) ∧
    (K75.s.guardG K75.gs K75.h.gd = true) ∧
    ((K75.s.gr K75.gs).active = true) ∧
    ((K75.s.gr K75.gs).wait = GWait.none) ∧
    (K75.u = (K75.s.gr K75.gs).team) ∧
    ((K75.s.tm K75.u).bars[K75.b]? = some K75.br) ∧
    (K75.s.groupReads K75.gs = false) ∧
    ((K75.br.last.any fun x => x.fst == (K75.s.gr K75.gs).gid && x.snd == K75.br.phase) = false) ∧
    (K75.br.arr + 1 = K75.br.exp) ∧
    (∀ (y : Group), y ∈ K75.s.groups → y.team = K75.u → ∀ (k : Bool), y.wait ≠ GWait.arrive K75.b K75.br.phase k) ∧
    (∀ (i : Nat), i < 8 → bitOf K75.mask i = true → ((K75.s.tm (K75.s.gr K75.gs).team).slots.getD i DSlot.zero).cnt =
      0) ∧
    (UReady K75.s K75.gs K75.h K75.z.gs) ∧
    (BitVec.toNat (gsrc K75.s K75.gs K75.z) = 0) :=
  by unfold UReady; decide +kernel

namespace K76
def s : State :=
  { W.three with groups := [W.group0, {W.group0 with gslot := 1, gid := 4, wait := .bar 2 5}], teams := [{W.team1 with bars := W.team1.bars.set 2 ⟨5,2,1,[(3,5)]⟩, slots := W.team1.slots.set 3 {DSlot.zero with cnt := 0} }] }
def gs := 0
def h := W.ha
def b := 2
def u := 1
def br : Bar := ⟨5,2,1,[(3,5)]⟩
end K76
theorem witness_UniformBarrier_3 :
    (UReady K76.s K76.gs K76.h []) ∧
    (K76.s.guardG K76.gs K76.h.gd = true) ∧
    ((K76.s.gr K76.gs).active = true) ∧
    ((K76.s.gr K76.gs).wait = GWait.none) ∧
    (K76.u = (K76.s.gr K76.gs).team) ∧
    ((K76.s.tm K76.u).bars[K76.b]? = some K76.br) ∧
    (K76.s.lastArr K76.gs K76.b = some K76.br.phase) :=
  by unfold UReady; decide +kernel

namespace K77
def s : State :=
  { (W.one.updGroup 0 fun g => {g with ext := true, extOk := true}) with pend := [⟨7,.reg 0 100,.none,0,false,900⟩,⟨7,.reg 0 10,.none,0,false,900⟩,⟨7,.pred 0 1,.none,0,false,900⟩] }
def gs := 0
def rows : Nat :=
  ((s.groups.filter fun y => y.gslot / 16 == gs / 16).map fun y => y.base + (if y.ext then 64 else 0)).sum
def h := W.ha
end K77
theorem witness_UniformRegisterBlock_1 :
    (UReady K77.s K77.gs K77.h []) ∧
    (K77.s.guardG K77.gs K77.h.gd = true) ∧
    (K77.h.m = false) ∧
    (K77.rows = (List.map (fun y => y.base + if y.ext = true then 64 else 0) (List.filter (fun y => y.gslot / 16 ==
      K77.gs / 16) K77.s.groups)).sum) ∧
    ((K77.s.gr K77.gs).extOk = true) ∧
    ((K77.s.gr K77.gs).ext = true) :=
  by unfold UReady; decide +kernel

namespace K78
def s : State := (W.one.updGroup 0 fun g => {g with ext := false, extOk := true})
def gs := 0
def rows : Nat :=
  ((s.groups.filter fun y => y.gslot / 16 == gs / 16).map fun y => y.base + (if y.ext then 64 else 0)).sum
def h := W.ha
end K78
theorem witness_UniformRegisterBlock_2 :
    (UReady K78.s K78.gs K78.h []) ∧
    (K78.s.guardG K78.gs K78.h.gd = true) ∧
    (K78.h.m = false) ∧
    (K78.rows = (List.map (fun y => y.base + if y.ext = true then 64 else 0) (List.filter (fun y => y.gslot / 16 ==
      K78.gs / 16) K78.s.groups)).sum) ∧
    ((K78.s.gr K78.gs).extOk = true) ∧
    ((K78.s.gr K78.gs).ext = false) ∧
    ((K78.s.gr K78.gs).wait = GWait.none) ∧
    (K78.rows + 64 ≤ 1536) ∧
    (∀ (y : Nat), y ∈ (K78.s.co (K78.gs / 64)).racq → y / 16 % 4 ≠ K78.gs / 16 % 4) :=
  by unfold UReady; decide +kernel

namespace K79
def s : State := (W.one.updGroup 0 fun g => {g with ext := false, extOk := false})
def gs := 0
def rows : Nat :=
  ((s.groups.filter fun y => y.gslot / 16 == gs / 16).map fun y => y.base + (if y.ext then 64 else 0)).sum
def h := W.ha
def t := 0
end K79
theorem witness_UniformRegisterBlock_3 :
    (UReady K79.s K79.gs K79.h []) ∧
    (K79.s.guardG K79.gs K79.h.gd = true) ∧
    (K79.h.m = false) ∧
    (K79.rows = (List.map (fun y => y.base + if y.ext = true then 64 else 0) (List.filter (fun y => y.gslot / 16 ==
      K79.gs / 16) K79.s.groups)).sum) ∧
    ((K79.s.gr K79.gs).extOk = false) ∧
    (K79.s.cur.threads = [K79.t]) ∧
    ((K79.s.th K79.t).st ≠ TSt.ended) ∧
    (Free K79.s K79.t) :=
  by unfold Free UReady; decide +kernel

namespace K80
def s : State :=
  { (W.one.updGroup 0 fun g => {g with ext := false, extOk := true, wait := .none}) with cores := updAt W.one.cores 0 fun c => {c with racq := [3]} }
def gs := 0
def rows : Nat :=
  ((s.groups.filter fun y => y.gslot / 16 == gs / 16).map fun y => y.base + (if y.ext then 64 else 0)).sum
def h := W.ha
end K80
theorem witness_UniformRegisterBlock_4 :
    (UReady K80.s K80.gs K80.h []) ∧
    (K80.s.guardG K80.gs K80.h.gd = true) ∧
    (K80.h.m = false) ∧
    (K80.rows = (List.map (fun y => y.base + if y.ext = true then 64 else 0) (List.filter (fun y => y.gslot / 16 ==
      K80.gs / 16) K80.s.groups)).sum) ∧
    ((K80.s.gr K80.gs).extOk = true) ∧
    ((K80.s.gr K80.gs).ext = false) ∧
    (1536 < K80.rows + 64 ∨ ∃ y, y ∈ (K80.s.co (K80.gs / 64)).racq ∧ y / 16 % 4 = K80.gs / 16 % 4) :=
  by unfold UReady; decide +kernel

namespace K81
def s : State :=
  { W.one with groups := [{W.group0 with g := W.group0.g.set 3 0x1fe4}], tlb := W.units.map fun u => ⟨u, 0, W.leaf⟩, teams := [{W.team1 with spSize := 0x3000}] }
def gs := 0
def h := W.ha
def x : MemX := ⟨.plain,.s32,.thr,.none,3⟩
def d := 9
def a := 3
def n := tySize x.ty
def ea : Nat := (BitVec.ofInt 32 ((g s gs a).toNat + x.off * n)).toNat
end K81
theorem witness_UniformMemory_1 :
    (K81.n = tySize K81.x.ty) ∧
    (K81.n ≤ 8) ∧
    (K81.s.cur.threads ≠ []) ∧
    (K81.s.guardG K81.gs K81.h.gd = true) ∧
    (K81.s.acqBlocked (Who.group K81.gs) = false) ∧
    (Fresh K81.s) ∧
    (NoOpen K81.s (K81.gs * 32)) ∧
    (BitVec.toNat (g K81.s K81.gs K81.a) < 2 ^ 32) ∧
    (K81.ea = (BitVec.ofInt 32 (↑(BitVec.toNat (g K81.s K81.gs K81.a)) + K81.x.off * ↑K81.n)).toNat) ∧
    (UReady K81.s K81.gs K81.h [Opd.g K81.a]) ∧
    (Spad K81.s (K81.gs * 32) false K81.ea K81.n) ∧
    (UReady K81.s K81.gs K81.h [Opd.g K81.d, Opd.g K81.a]) ∧
    (Spad K81.s (K81.gs * 32) true K81.ea K81.n) :=
  by unfold Fresh Spad NoOpen UReady; decide +kernel

namespace K82
def s : State := (W.one.updGroup 0 fun g => {g with g := g.g.set 3 0x400080})
def gs := 0
def h : Hdr := ⟨false,true,Guard.always⟩
def x : MemX := ⟨.plain,.s32,.thr,.none,3⟩
def d := 9
def a := 3
def n := tySize x.ty
def ea : Nat := (g s gs a + BitVec.ofInt 64 (x.off * n)).toNat
def pa := ea+0x400000
def leaf := W.leaf
end K82
theorem witness_UniformMemory_2 :
    (Fresh K82.s) ∧
    (NoOpen K82.s (K82.gs * 32)) ∧
    (UReady K82.s K82.gs K82.h [Opd.g K82.a]) ∧
    (Glob K82.s (K82.gs * 32) State.Want.load K82.ea K82.n K82.pa K82.leaf) ∧
    (NoCopy K82.s (K82.gs / 64) K82.x K82.leaf (locOf K82.pa)) ∧
    (UReady K82.s K82.gs K82.h [Opd.g K82.d, Opd.g K82.a]) ∧
    (Glob K82.s (K82.gs * 32) State.Want.store K82.ea K82.n K82.pa K82.leaf) ∧
    (K82.n = tySize K82.x.ty) ∧
    (K82.n ≤ 8) ∧
    (K82.s.cur.threads ≠ []) ∧
    (K82.s.guardG K82.gs K82.h.gd = true) ∧
    (K82.s.acqBlocked (Who.group K82.gs) = false) ∧
    (K82.ea = BitVec.toNat (g K82.s K82.gs K82.a + BitVec.ofInt 64 (K82.x.off * ↑K82.n))) :=
  ⟨by unfold Fresh; decide +kernel,
   by unfold NoOpen; decide +kernel,
   by unfold UReady; decide +kernel,
   by unfold Glob Hit; decide +kernel,
   by unfold NoCopy; decide +kernel,
   by unfold UReady; decide +kernel,
   by unfold Glob Hit; decide +kernel,
   by decide +kernel⟩

namespace K83
def s : State :=
  { W.one with groups := [{W.group0 with g := W.group0.g.set 3 0x400081}], tlb := W.units.map fun u => ⟨u, 0, W.leaf⟩ }
def gs := 0
def h := W.ha
def x : MemX := ⟨.plain,.s32,.thr,.none,3⟩
def d := 9
def a := 3
def n := tySize x.ty
def t := 0
def e := 5
def ea : Nat := (g s gs a + BitVec.ofInt 64 (x.off * n)).toNat
end K83
theorem witness_UniformMemory_3 :
    (GlobTraps K83.s K83.t State.Want.load K83.ea K83.n K83.e) ∧
    (GlobTraps K83.s K83.t State.Want.store K83.ea K83.n K83.e) ∧
    (Fresh K83.s) ∧
    (NoOpen K83.s (K83.gs * 32)) ∧
    (Free K83.s K83.t) ∧
    (UReady K83.s K83.gs K83.h [Opd.g K83.a] ∧ UReady K83.s K83.gs K83.h [Opd.g K83.d, Opd.g K83.a]) ∧
    (SpadTraps K83.s K83.t false K83.ea K83.n K83.e ∧ SpadTraps K83.s K83.t true K83.ea K83.n K83.e) ∧
    (K83.n = tySize K83.x.ty) ∧
    (K83.n ≤ 8) ∧
    (K83.s.cur.threads ≠ []) ∧
    (K83.s.guardG K83.gs K83.h.gd = true) ∧
    (K83.s.acqBlocked (Who.group K83.gs) = false) ∧
    (K83.t / 32 = K83.gs) ∧
    (K83.s.cur.threads = [K83.t]) ∧
    ((K83.s.th K83.t).st ≠ TSt.ended) ∧
    (K83.h.m = false) ∧
    (K83.ea = BitVec.toNat (g K83.s K83.gs K83.a + BitVec.ofInt 64 (K83.x.off * ↑K83.n))) ∧
    (BitVec.toNat (g K83.s K83.gs K83.a) < 2 ^ 32) ∧
    (K83.ea = (BitVec.ofInt 32 (↑(BitVec.toNat (g K83.s K83.gs K83.a)) + K83.x.off * ↑K83.n)).toNat) :=
  ⟨glob_traps_early (by decide +kernel),
   glob_traps_early (by decide +kernel),
   by unfold Fresh; decide +kernel,
   by unfold NoOpen; decide +kernel,
   by unfold Free; decide +kernel,
   by unfold UReady; decide +kernel,
   by unfold SpadTraps; decide +kernel,
   by decide +kernel⟩

namespace K84
def s : State :=
  { W.one with groups := [{W.group0 with g := W.group0.g.set 3 0x100000010}], tlb := W.units.map fun u => ⟨u, 0, W.leaf⟩ }
def gs := 0
def h := W.ha
def x : MemX := ⟨.plain,.s32,.thr,.none,3⟩
def d := 9
def a := 3
def n := tySize x.ty
def t := 0
def ea : Nat := (BitVec.ofInt 32 ((g s gs a).toNat + x.off * n)).toNat
end K84
theorem witness_UniformMemory_4 :
    (K84.n = tySize K84.x.ty) ∧
    (K84.n ≤ 8) ∧
    (K84.s.cur.threads ≠ []) ∧
    (K84.s.guardG K84.gs K84.h.gd = true) ∧
    (K84.s.acqBlocked (Who.group K84.gs) = false) ∧
    (Fresh K84.s) ∧
    (NoOpen K84.s (K84.gs * 32)) ∧
    (K84.s.cur.threads = [K84.t]) ∧
    ((K84.s.th K84.t).st ≠ TSt.ended) ∧
    (Free K84.s K84.t) ∧
    (K84.h.m = false) ∧
    (2 ^ 32 ≤ BitVec.toNat (g K84.s K84.gs K84.a)) ∧
    (K84.ea = (BitVec.ofInt 32 (↑(BitVec.toNat (g K84.s K84.gs K84.a)) + K84.x.off * ↑K84.n)).toNat) ∧
    (UReady K84.s K84.gs K84.h [Opd.g K84.a]) ∧
    (UReady K84.s K84.gs K84.h [Opd.g K84.d, Opd.g K84.a]) :=
  by unfold Fresh Free NoOpen UReady; decide +kernel

namespace K85
def s : State := { (W.one.updGroup 0 fun g => {g with g := g.g.set 3 0}) with teams := [{W.team1 with sys := true}] }
def gs := 0
def h := W.ha
def a := 3
def ctx : Nat := (g s gs a).toNat
end K85
theorem witness_UniformPrivileged_1 :
    (K85.h.m = false) ∧
    (K85.s.cur.threads.headD 0 / 32 = K85.gs) ∧
    ((K85.s.tm (K85.s.gr K85.gs).team).sys = true) ∧
    (K85.s.guardG K85.gs K85.h.gd = true) ∧
    (UReady K85.s K85.gs K85.h [Opd.g K85.a]) ∧
    (K85.ctx = BitVec.toNat (g K85.s K85.gs K85.a)) ∧
    (K85.ctx < 16) ∧
    (K85.s.hasCtx K85.ctx = true) ∧
    (K85.s.groupUndone K85.gs = false) ∧
    (UReady K85.s K85.gs K85.h []) :=
  by unfold UReady; decide +kernel

namespace K86
def s : State := { (W.one.updGroup 0 fun g => {g with g := g.g.set 3 3}) with teams := [{W.team1 with sys := true}] }
def gs := 0
def h := W.ha
def a := 3
def ctx : Nat := (g s gs a).toNat
end K86
theorem witness_UniformPrivileged_2 :
    (∀ (x : Group), x ∈ K86.s.groups → (x.gslot = K86.gs → x.wait = GWait.none) ∧ ∀ (l : List Nat), x.wait ≠ GWait.acq
      l) ∧
    (UReady K86.s K86.gs K86.h [Opd.g K86.a]) ∧
    (K86.h.m = false) ∧
    (K86.s.cur.threads.headD 0 / 32 = K86.gs) ∧
    ((K86.s.tm (K86.s.gr K86.gs).team).sys = true) ∧
    (K86.s.guardG K86.gs K86.h.gd = true) ∧
    (K86.ctx = BitVec.toNat (g K86.s K86.gs K86.a)) ∧
    (K86.ctx < 16) ∧
    (K86.s.hasCtx K86.ctx = false) ∧
    (K86.s.groupUndone K86.gs = false) ∧
    (K86.s.promPending (K86.gs / 64) = []) ∧
    (∃ x, x ∈ K86.s.groups ∧ x.gslot = K86.gs) :=
  ⟨fun x hx => by
    have e := List.mem_singleton.1 hx
    subst e
    exact ⟨fun _ => rfl, fun l h => by cases (show GWait.none = GWait.acq l from h)⟩,
   by unfold UReady; decide +kernel,
   by decide +kernel⟩

namespace K87
def s : State := { (W.one.updGroup 0 fun g => {g with g := g.g.set 3 0}) with teams := [{W.team1 with sys := false}] }
def gs := 0
def h := W.ha
def t := 0
end K87
theorem witness_UniformPrivileged_3 :
    (K87.h.m = false) ∧
    (K87.s.cur.threads.headD 0 / 32 = K87.gs) ∧
    ((K87.s.tm (K87.s.gr K87.gs).team).sys = false) ∧
    (K87.s.cur.threads = [K87.t]) ∧
    ((K87.s.th K87.t).st ≠ TSt.ended) ∧
    (Free K87.s K87.t) :=
  by unfold Free; decide +kernel

namespace K88
def s : State := { (W.one.updGroup 0 fun g => {g with g := g.g.set 3 16}) with teams := [{W.team1 with sys := true}] }
def gs := 0
def h := W.ha
def a := 3
def t := 0
end K88
theorem witness_UniformPrivileged_4 :
    (K88.h.m = false) ∧
    (K88.s.cur.threads.headD 0 / 32 = K88.gs) ∧
    ((K88.s.tm (K88.s.gr K88.gs).team).sys = true) ∧
    (K88.s.guardG K88.gs K88.h.gd = true) ∧
    (UReady K88.s K88.gs K88.h [Opd.g K88.a]) ∧
    (K88.s.cur.threads = [K88.t]) ∧
    ((K88.s.th K88.t).st ≠ TSt.ended) ∧
    (Free K88.s K88.t) ∧
    (16 ≤ BitVec.toNat (g K88.s K88.gs K88.a)) :=
  by unfold Free UReady; decide +kernel

namespace K89
def getC (x : State × Iss State.Accepted) : State.Accepted := match x.2 with | .ok c => c | _ => ⟨[],[],[],[]⟩
def s : State :=
  {W.withMem [(0x800080, W.fillBlk),(0x801000, W.tensRec)] with teams := [{W.team1 with slots := W.team1.slots.set 3 ⟨0,0,false,false,false⟩}] }
def t := 0
def h := W.ha
def x : EngX := ⟨1,some 3⟩
def d := 9
def a := 2
def b : Option Nat := none
def v : Src := .imm 3
def sl : DSlot := (s.tmOf t).slots.getD (src s t v).toNat DSlot.zero
def ea : Nat := s.eaGlobal false t a b 0 1
def c : State.Accepted := getC (s.peelAccept (s.laneEnv t) ea)
def s1 : State := (s.peelAccept (s.laneEnv t) ea).1
end K89
theorem witness_EngineIssue_1 :
    (Room K89.s1 K89.t OpKind.peel K89.x K89.c.locks.length) ∧
    (Says.One K89.s K89.t K89.h { held := optW K89.b, reads := Opd.g K89.a :: List.map Opd.w (optW K89.b) : Uses }) ∧
    (K89.ea = K89.s.eaGlobal false K89.t K89.a K89.b 0 1) ∧
    (K89.s.peelAccept (K89.s.laneEnv K89.t) K89.ea = (K89.s1, Iss.ok K89.c)) ∧
    (K89.s1.laneEnv K89.t = K89.s.laneEnv K89.t) ∧
    (Says.One K89.s K89.t K89.h { held := K89.d :: K89.v.w, reads := K89.v.opd : Uses }) ∧
    (BitVec.toNat (src K89.s K89.t K89.v) ≤ 7) ∧
    (K89.sl = (K89.s.tmOf K89.t).slots.getD (BitVec.toNat (src K89.s K89.t K89.v)) DSlot.zero) :=
  ⟨room_iff.2 (by decide +kernel),
   by unfold Says.One Ready Fresh; decide +kernel⟩

namespace K90
def s : State :=
  { W.one.updThread 0 fun x => {x with regs := x.regs.set 6 ⟨0,Tag.zero⟩} with teams := [{W.team1 with spSize := 0x10000, spBase := 0, nacc := 1, slots := W.team1.slots.set 3 ⟨7,5,true,false,true⟩}], spad := Memory.setMany (Memory.setMany [] (State.spKey 0 0) W.mmaBlk) (State.spKey 0 0x40) (W.planeRec 1 1 2048 0x2000 0x3000 4096) }
def t := 0
def h := W.ha
def x : EngX := ⟨1,some 3⟩
def a := 6
def ea : Nat := (w s t a).toNat
def blk : List Byte := s.rdSpBytes 0 ((s.tmOf t).spBase + ea % 2 ^ 21) 64
def m : MmaBlk := MmaBlk.ofNat (leNat blk)
def rb : List Byte := s.rdSpBytes 0 ((s.tmOf t).spBase + m.brec % 2 ^ 21) 64
def r : PlaneRec := (PlaneRec.ofBytes rb).getD ⟨1, false, false, 1024, 0, 0, 2097152⟩
def l : List State.LockReq := (s.mmaLocks (s.laneEnv t) m r).getD []
end K90
theorem witness_EngineIssue_2 :
    (Room K90.s K90.t OpKind.mma K90.x K90.l.length) ∧
    (Says.One K90.s K90.t K90.h (useR [K90.a])) ∧
    (Window K90.s K90.t K90.ea 64 K90.blk ∧ Window K90.s K90.t K90.m.brec 64 K90.rb) ∧
    (K90.ea = BitVec.toNat (w K90.s K90.t K90.a)) ∧
    (K90.m = MmaBlk.ofNat (leNat K90.blk)) ∧
    (PlaneRec.ofBytes K90.rb = some K90.r) ∧
    (K90.m.fieldsOk (leNat K90.blk) (K90.s.tmOf K90.t).nacc = true) ∧
    (K90.s.mmaLocks (K90.s.laneEnv K90.t) K90.m K90.r = some K90.l) :=
  ⟨room_iff.2 (by decide +kernel),
   by unfold Says.One Ready Fresh; decide +kernel,
   by unfold Window; decide +kernel,
   by decide +kernel⟩

namespace K91
def s : State :=
  { W.one.updThread 0 fun x => {x with regs := x.regs.set 6 ⟨0x200000,Tag.zero⟩} with teams := [{W.team1 with spSize := 0x10000, spBase := 0, nacc := 1, slots := W.team1.slots.set 3 ⟨7,5,true,false,true⟩}], spad := Memory.setMany (Memory.setMany [] (State.spKey 0 0) W.mmaBlk) (State.spKey 0 0x40) (W.planeRec 1 1 2048 0x2000 0x3000 4096) }
def t := 0
def h := W.ha
def x : EngX := ⟨1,none⟩
def d := 9
def a := 6
def v : Src := .imm 9
def ea : Nat := (w s t a).toNat
end K91
theorem witness_EngineIssue_3 :
    (Says.One K91.s K91.t K91.h (useR [K91.a])) ∧
    (K91.ea = BitVec.toNat (w K91.s K91.t K91.a)) ∧
    (Free K91.s K91.t) ∧
    (bits K91.ea 23 21 ≠ State.rank (State.coreOf K91.t)) ∧
    (Says.One K91.s K91.t K91.h { held := K91.d :: K91.v.w, reads := K91.v.opd : Uses }) ∧
    (7 < BitVec.toNat (src K91.s K91.t K91.v)) :=
  by unfold Says.One Ready Fresh Free; decide +kernel

namespace K92
def s : State :=
  {W.withMem [(0x800080, W.fillBlk)] with teams := [{W.team1 with slots := W.team1.slots.set 3 ⟨0,0,false,false,false⟩}] }
def t := 0
def h := W.ha
def a := 2
def b : Option Nat := none
def ea : Nat := s.eaGlobal false t a b 0 1
def s1 : State := (s.peelAccept (s.laneEnv t) ea).1
end K92
theorem witness_EngineIssue_4 :
    (Says.One K92.s K92.t K92.h { held := optW K92.b, reads := Opd.g K92.a :: List.map Opd.w (optW K92.b) : Uses }) ∧
    (K92.ea = K92.s.eaGlobal false K92.t K92.a K92.b 0 1) ∧
    (K92.s.peelAccept (K92.s.laneEnv K92.t) K92.ea = (K92.s1, Iss.bad)) ∧
    (Free K92.s1 K92.t) :=
  by unfold Says.One Ready Fresh Free; decide +kernel

namespace K93
def getC (x : State × Iss State.Accepted) : State.Accepted := match x.2 with | .ok c => c | _ => ⟨[],[],[],[]⟩
def s : State :=
  {W.withMem [(0x800080, W.fillBlk),(0x801000, W.tensRec)] with teams := [{W.team1 with slots := W.team1.slots.set 3 ⟨255,0,false,false,false⟩}] }
def t := 0
def h := W.ha
def x : EngX := ⟨1,some 3⟩
def a := 2
def b : Option Nat := none
def ea : Nat := s.eaGlobal false t a b 0 1
def c : State.Accepted := getC (s.peelAccept (s.laneEnv t) ea)
def s1 : State := (s.peelAccept (s.laneEnv t) ea).1
end K93
theorem witness_EngineIssue_5 :
    (¬Room K93.s1 K93.t OpKind.peel K93.x K93.c.locks.length) ∧
    (Says.One K93.s K93.t K93.h { held := optW K93.b, reads := Opd.g K93.a :: List.map Opd.w (optW K93.b) : Uses }) ∧
    (K93.ea = K93.s.eaGlobal false K93.t K93.a K93.b 0 1) ∧
    (K93.s.peelAccept (K93.s.laneEnv K93.t) K93.ea = (K93.s1, Iss.ok K93.c)) ∧
    (K93.s1.laneEnv K93.t = K93.s.laneEnv K93.t) ∧
    (K93.h.m = false) :=
  ⟨fun h => absurd (room_iff.1 h) (by decide +kernel),
   by unfold Says.One Ready Fresh; decide +kernel⟩

namespace K94
def s : State := W.withMem (W.seqMem ++ [(0x800080, (W.sliceBlk.set 3 0xF0))])
def t := 0
def h := W.ha
def a := 2
def b : Option Nat := none
def ea : Nat := s.eaGlobal false t a b 0 1
def blk := (W.sliceBlk.set 3 0xF0)
def s1 : State := (s.issRead (s.laneEnv t) true ea 128 128).1
def k : SliceBlk := SliceBlk.ofNat (leNat blk)
end K94
theorem witness_EngineIssue_6 :
    (Says.One K94.s K94.t K94.h { held := optW K94.b, reads := Opd.g K94.a :: List.map Opd.w (optW K94.b) : Uses }) ∧
    (K94.ea = K94.s.eaGlobal false K94.t K94.a K94.b 0 1) ∧
    (K94.s.agentBusy K94.t = false) ∧
    (K94.s.issRead (K94.s.laneEnv K94.t) true K94.ea 128 128 = (K94.s1, Iss.ok K94.blk)) ∧
    (K94.k = SliceBlk.ofNat (leNat K94.blk)) ∧
    (K94.k.fieldsOk (leNat K94.blk) = false) ∧
    (Free K94.s1 K94.t) :=
  by unfold Says.One Ready Fresh Free; decide +kernel

namespace K95
def s : State :=
  { W.one.updThread 0 fun x => {x with regs := x.regs.set 6 ⟨0,Tag.zero⟩} with teams := [{W.team1 with spSize := 0x10000, spBase := 0, nacc := 1, slots := W.team1.slots.set 3 ⟨255,5,true,false,true⟩}], spad := Memory.setMany (Memory.setMany [] (State.spKey 0 0) W.mmaBlk) (State.spKey 0 0x40) (W.planeRec 1 1 2048 0x2000 0x3000 4096) }
def t := 0
def h := W.ha
def x : EngX := ⟨1,some 3⟩
def a := 6
def ea : Nat := (w s t a).toNat
def blk : List Byte := s.rdSpBytes 0 ((s.tmOf t).spBase + ea % 2 ^ 21) 64
def m : MmaBlk := MmaBlk.ofNat (leNat blk)
def rb : List Byte := s.rdSpBytes 0 ((s.tmOf t).spBase + m.brec % 2 ^ 21) 64
def r : PlaneRec := (PlaneRec.ofBytes rb).getD ⟨1, false, false, 1024, 0, 0, 2097152⟩
def l : List State.LockReq := (s.mmaLocks (s.laneEnv t) m r).getD []
end K95
theorem witness_EngineIssue_7 :
    (¬Room K95.s K95.t OpKind.mma K95.x K95.l.length) ∧
    (Says.One K95.s K95.t K95.h (useR [K95.a])) ∧
    (Window K95.s K95.t K95.ea 64 K95.blk ∧ Window K95.s K95.t K95.m.brec 64 K95.rb) ∧
    (K95.ea = BitVec.toNat (w K95.s K95.t K95.a)) ∧
    (K95.m = MmaBlk.ofNat (leNat K95.blk)) ∧
    (PlaneRec.ofBytes K95.rb = some K95.r) ∧
    (K95.m.fieldsOk (leNat K95.blk) (K95.s.tmOf K95.t).nacc = true) ∧
    (K95.s.mmaLocks (K95.s.laneEnv K95.t) K95.m K95.r = some K95.l) ∧
    (K95.h.m = false) :=
  ⟨fun h => absurd (room_iff.1 h) (by decide +kernel),
   by unfold Says.One Ready Fresh; decide +kernel,
   by unfold Window; decide +kernel,
   by decide +kernel⟩

namespace K96
def okOf {α} (x : Except TxStop α) (d : α) : α := match x with | .ok y => y | _ => d
def s : State := W.withMem (W.seqMem ++ [(0x800080, W.sliceBlk)])
def t := 0
def h := W.ha
def x : EngX := ⟨1,some 3⟩
def a := 2
def b : Option Nat := none
def ea : Nat := s.eaGlobal false t a b 0 1
def blk := W.sliceBlk
def s1 : State := (s.issRead (s.laneEnv t) true ea 128 128).1
def k : SliceBlk := SliceBlk.ofNat (leNat blk)
def r0 := s1.runTx (State.coreOf t) ((Tx.takeView ⟨.thread t, s.ctxOfThread t, State.coreOf t⟩ ea k))
def s2 : State := r0.1
def p : Pool57 := (okOf r0.2 (⟨0,0,0,0,0,0,0,0,⟨0,false,false,0,0,0,0⟩,⟨0,false,false,0,0,0,0⟩,[],[],[]⟩,[])).1
def view : List (Nat×Nat) := (okOf r0.2 (p,[])).2
def tx0 : TxEnv := { who := Who.thread t, ctx := s.ctxOfThread t, core := State.coreOf t }
def ie0 : IssEnv := { s.laneEnv t with core := 96 * p.home }
end K96
theorem witness_EngineIssue_8 :
    (K96.s1.runTx (State.coreOf K96.t) (Tx.takeView K96.tx0 K96.ea K96.k) = (K96.s2, Except.ok (K96.p, K96.view))) ∧
    (Says.One K96.s K96.t K96.h { held := optW K96.b, reads := Opd.g K96.a :: List.map Opd.w (optW K96.b) : Uses }) ∧
    (K96.ea = K96.s.eaGlobal false K96.t K96.a K96.b 0 1) ∧
    (K96.s.agentBusy K96.t = false) ∧
    (K96.s.issRead (K96.s.laneEnv K96.t) true K96.ea 128 128 = (K96.s1, Iss.ok K96.blk)) ∧
    (K96.k = SliceBlk.ofNat (leNat K96.blk)) ∧
    (K96.k.fieldsOk (leNat K96.blk) = true) ∧
    (K96.s1.issueFull OpKind.slice (K96.ie0) K96.x 0 = false) ∧
    (∀ (o : Op), o ∈ K96.s2.ops → o.id < K96.s2.nextId) :=
  ⟨pair_ok rfl (by decide +kernel),
   by unfold Says.One Ready Fresh; decide +kernel⟩

namespace K97
def okOf {α} (x : Except TxStop α) (d : α) : α := match x with | .ok y => y | _ => d
def s : State := W.withMem (W.seqMem ++ [(0x800080, W.sqCmd 0 3 0 0)])
def t := 0
def h := W.ha
def d := 9
def a := 2
def b : Option Nat := none
def ea : Nat := s.eaGlobal false t a b 0 1
def i : Instr := .sqapp h d a b
def f : TxEnv → Nat → Tx Nat := Tx.sqapp
def r0 := s.runTx (State.coreOf t) (f ⟨.thread t, s.ctxOfThread t, State.coreOf t⟩ ea)
def s1 := r0.1
def st := okOf r0.2 0
def tx0 : TxEnv := { who := Who.thread t, ctx := s.ctxOfThread t, core := State.coreOf t }
end K97
theorem witness_SequenceAndLaunch_1 :
    (K97.s.runTx (State.coreOf K97.t) (K97.f K97.tx0 K97.ea) = (K97.s1, Except.ok K97.st)) ∧
    (Says.One K97.s K97.t K97.h
      { held := K97.d :: optW K97.b, reads := Opd.g K97.a :: List.map Opd.w (optW K97.b) : Uses }) ∧
    ((K97.i, K97.f) ∈ [(Instr.sqapp K97.h K97.d K97.a K97.b, Tx.sqapp), (Instr.sqret K97.h K97.d K97.a K97.b,
      Tx.sqret), (Instr.sqfork K97.h K97.d K97.a K97.b, Tx.sqfork), (Instr.sqlook K97.h K97.d K97.a K97.b,
      Tx.sqlook)]) ∧
    (K97.ea = K97.s.eaGlobal false K97.t K97.a K97.b 0 1) ∧
    (K97.s.agentBusy K97.t = false) ∧
    (K97.h.m = false) :=
  ⟨pair_ok rfl (by decide +kernel),
   by unfold Says.One Ready Fresh; decide +kernel,
   by unfold K97.i K97.f; simp,
   by decide +kernel⟩

namespace K98
def s : State := { W.withMem [(0x800080, W.launchRec 0)] with cp := { State.reset.cp with launches := [] } }
def t := 0
def h := W.ha
def d := 9
def a := 2
def b : Option Nat := none
def ea : Nat := s.eaGlobal false t a b 0 1
def s1 := (s.issRead (s.laneEnv t) true ea 128 128).1
def r : List Byte := W.launchRec 0
def l := LaunchRec.ofNat (leNat r)
end K98
theorem witness_SequenceAndLaunch_2 :
    (Says.One K98.s K98.t K98.h { held := [K98.d], reads := [Opd.g K98.a] : Uses }) ∧
    (K98.ea = BitVec.toNat (g K98.s (K98.t / 32) K98.a)) ∧
    (K98.s.afterOf (Who.thread K98.t) (State.coreOf K98.t) (MemOp.store []) Ord.sync Scope.dev = []) ∧
    (K98.s.issRead (K98.s.laneEnv K98.t) true K98.ea 128 128 = (K98.s1, Iss.ok K98.r)) ∧
    (K98.l = LaunchRec.ofNat (leNat K98.r)) ∧
    (K98.l.ok (leNat K98.r) K98.s1.fab.node = true) ∧
    (K98.l.sys = true → (K98.s1.tmOf K98.t).sys = true) ∧
    (K98.s1.launchQueue (K98.s1.ctxOfThread K98.t) < 256) :=
  by unfold Says.One Ready Fresh; decide +kernel

namespace K99
def s : State := { W.withMem [(0x800080, W.launchRec 9)] with cp := { State.reset.cp with launches := [] } }
def t := 0
def h := W.ha
def d := 9
def a := 2
def b : Option Nat := none
def ea : Nat := s.eaGlobal false t a b 0 1
def s1 := (s.issRead (s.laneEnv t) true ea 128 128).1
def r : List Byte := W.launchRec 9
def l := LaunchRec.ofNat (leNat r)
end K99
theorem witness_SequenceAndLaunch_3 :
    (Says.One K99.s K99.t K99.h { held := [K99.d], reads := [Opd.g K99.a] : Uses }) ∧
    (K99.ea = BitVec.toNat (g K99.s (K99.t / 32) K99.a)) ∧
    (K99.s.afterOf (Who.thread K99.t) (State.coreOf K99.t) (MemOp.store []) Ord.sync Scope.dev = []) ∧
    (K99.s.issRead (K99.s.laneEnv K99.t) true K99.ea 128 128 = (K99.s1, Iss.ok K99.r)) ∧
    (K99.l = LaunchRec.ofNat (leNat K99.r)) ∧
    (Free K99.s1 K99.t) ∧
    (K99.l.ok (leNat K99.r) K99.s1.fab.node = false) :=
  by unfold Says.One Ready Fresh Free; decide +kernel

namespace K100
def s : State := { W.withMem [(0x800080, W.launchRec 1)] with cp := { State.reset.cp with launches := [] } }
def t := 0
def h := W.ha
def d := 9
def a := 2
def b : Option Nat := none
def ea : Nat := s.eaGlobal false t a b 0 1
def s1 := (s.issRead (s.laneEnv t) true ea 128 128).1
def r : List Byte := W.launchRec 1
def l := LaunchRec.ofNat (leNat r)
end K100
theorem witness_SequenceAndLaunch_4 :
    (Says.One K100.s K100.t K100.h { held := [K100.d], reads := [Opd.g K100.a] : Uses }) ∧
    (K100.ea = BitVec.toNat (g K100.s (K100.t / 32) K100.a)) ∧
    (K100.s.afterOf (Who.thread K100.t) (State.coreOf K100.t) (MemOp.store []) Ord.sync Scope.dev = []) ∧
    (K100.s.issRead (K100.s.laneEnv K100.t) true K100.ea 128 128 = (K100.s1, Iss.ok K100.r)) ∧
    (K100.l = LaunchRec.ofNat (leNat K100.r)) ∧
    (Free K100.s1 K100.t) ∧
    (K100.l.ok (leNat K100.r) K100.s1.fab.node = true) ∧
    (K100.l.sys = true) ∧
    ((K100.s1.tmOf K100.t).sys = false) :=
  by unfold Says.One Ready Fresh Free; decide +kernel

namespace K101
def s : State :=
  { W.withMem [(0x800080, W.launchRec 0)] with cp := { State.reset.cp with launches := (List.range 256).map fun i => ⟨i,i,0,.device 40 0,W.launchRec 0,[],0,false,false⟩ } }
def t := 0
def h := W.ha
def d := 9
def a := 2
def b : Option Nat := none
def ea : Nat := s.eaGlobal false t a b 0 1
def i : Instr := .bkpt h
def s1 := (s.issRead (s.laneEnv t) true ea 128 128).1
def r : List Byte := W.launchRec 0
def l := LaunchRec.ofNat (leNat r)
end K101
theorem witness_SequenceAndLaunch_5 :
    (Says.One K101.s K101.t K101.h { held := [K101.d], reads := [Opd.g K101.a] : Uses }) ∧
    (K101.ea = BitVec.toNat (g K101.s (K101.t / 32) K101.a)) ∧
    (K101.s.afterOf (Who.thread K101.t) (State.coreOf K101.t) (MemOp.store []) Ord.sync Scope.dev = []) ∧
    (K101.s.issRead (K101.s.laneEnv K101.t) true K101.ea 128 128 = (K101.s1, Iss.ok K101.r)) ∧
    (K101.l = LaunchRec.ofNat (leNat K101.r)) ∧
    (K101.l.ok (leNat K101.r) K101.s1.fab.node = true) ∧
    (K101.l.sys = true → (K101.s1.tmOf K101.t).sys = true) ∧
    (256 ≤ K101.s1.launchQueue (K101.s1.ctxOfThread K101.t)) :=
  by unfold Says.One Ready Fresh; decide +kernel

namespace K102
def s : State := W.withMem (W.seqMem ++ [(0x800080, W.sqCmd 0 3 0 1)])
def t := 0
def h := W.ha
def d := 9
def a := 2
def b : Option Nat := none
def ea : Nat := s.eaGlobal false t a b 0 1
def i : Instr := .sqapp h d a b
def f : TxEnv → Nat → Tx Nat := Tx.sqapp
def r0 := s.runTx (State.coreOf t) (f ⟨.thread t, s.ctxOfThread t, State.coreOf t⟩ ea)
def s1 := r0.1
def tx0 : TxEnv := { who := Who.thread t, ctx := s.ctxOfThread t, core := State.coreOf t }
end K102
theorem witness_SequenceAndLaunch_6 :
    (K102.s.runTx (State.coreOf K102.t) (K102.f K102.tx0 K102.ea) = (K102.s1, Except.error TxStop.bad)) ∧
    (Says.One K102.s K102.t K102.h
      { held := K102.d :: optW K102.b, reads := Opd.g K102.a :: List.map Opd.w (optW K102.b) : Uses }) ∧
    ((K102.i, K102.f) ∈ [(Instr.sqapp K102.h K102.d K102.a K102.b, Tx.sqapp), (Instr.sqret K102.h K102.d K102.a
      K102.b, Tx.sqret), (Instr.sqfork K102.h K102.d K102.a K102.b, Tx.sqfork), (Instr.sqlook K102.h K102.d K102.a
      K102.b, Tx.sqlook)]) ∧
    (Free K102.s1 K102.t) ∧
    (K102.ea = K102.s.eaGlobal false K102.t K102.a K102.b 0 1) ∧
    (K102.s.agentBusy K102.t = false) :=
  ⟨pair_error rfl (by decide +kernel),
   by unfold Says.One Ready Fresh; decide +kernel,
   by unfold K102.i K102.f; simp,
   by unfold Free; decide +kernel,
   by decide +kernel⟩

namespace K103
def s : State :=
  { W.one with mem := Memory.setMany (Memory.setMany [] 0x800100 ((List.range 64).map fun i => BitVec.ofNat 8 (i * 37 + 200))) (Config.hbmTop + 0x800100 / 32) [0x5A,0xFF,0,0x81], spad := Memory.setMany [] (State.spKey 3 64) [1,2,3,0x84,5], spadE := [State.spKey 3 64 / 4], l2 := { State.reset.l2 with lines := [] } }
def l : Loc := .mem 0x800104
def n := 4
def ty : Ty := .z32
def c : Nat := 0xF0000001
def x := leNat (s.rdLoc l n)
end K103
theorem witness_HomeOperations_1 :
    (Word4 K103.l 4) ∧
    (Word4 K103.l K103.n) ∧
    (Memory.wf K103.s.mem = true) ∧
    (Memory.wf K103.s.spad = true) ∧
    (∀ (x : L2Line), x ∈ K103.s.l2.lines → x.bv = true → x.fe.length = 32) ∧
    (K103.s.feAt K103.l = true) ∧
    (K103.n = 4 ∧ (K103.ty = Ty.z32 ∨ K103.ty = Ty.s32) ∨ K103.n = 8 ∧ K103.ty = Ty.w64) ∧
    (K103.c < 2 ^ (8 * K103.n)) ∧
    (K103.x = leNat (K103.s.rdLoc K103.l K103.n)) ∧
    ((AtomOp.add, (K103.x + K103.c) % 2 ^ (8 * K103.n)) ∈ [(AtomOp.add, (K103.x + K103.c) % 2 ^ (8 * K103.n)),
      (AtomOp.and, K103.x &&& K103.c), (AtomOp.or, K103.x ||| K103.c), (AtomOp.xor, K103.x ^^^ K103.c), (AtomOp.exch,
      K103.c)] ∨ K103.ty ≠ Ty.w64 ∧ (AtomOp.add, (K103.x + K103.c) % 2 ^ (8 * K103.n)) ∈ [(AtomOp.min, if num K103.ty
      (BitVec.ofNat 32 K103.x) ≤ num K103.ty (BitVec.ofNat 32 K103.c) then K103.x else K103.c), (AtomOp.max, if num
      K103.ty (BitVec.ofNat 32 K103.x) ≤ num K103.ty (BitVec.ofNat 32 K103.c) then K103.c else K103.x)]) ∧
    (K103.x ≠ K103.c) ∧
    (K103.c < 2 ^ 32) ∧
    (K103.x = leNat (K103.s.rdLoc K103.l 4)) ∧
    ((AtomOp.exch, K103.c) ∈ [(AtomOp.add, (Num.fadd Num.f32 Rm.rn K103.x K103.c).fst), (AtomOp.min, (Num.fminmax
      Num.f32 false K103.x K103.c).fst), (AtomOp.max, (Num.fminmax Num.f32 true K103.x K103.c).fst), (AtomOp.exch,
      K103.c)]) :=
  ⟨⟨by decide +kernel, by decide +kernel⟩,
   ⟨by decide +kernel, by decide +kernel⟩,
   by decide +kernel⟩

namespace K104
def s : State :=
  { W.one with mem := Memory.setMany (Memory.setMany [] 0x800100 ((List.range 64).map fun i => BitVec.ofNat 8 (i * 37 + 200))) (Config.hbmTop + 0x800100 / 32) [0x5A,0xFF,0,0x81], spad := Memory.setMany [] (State.spKey 3 64) [1,2,3,0x84,5], spadE := [State.spKey 3 64 / 4], l2 := { State.reset.l2 with lines := [] } }
def l : Loc := .mem 0x800100
def n := 4
def ty : Ty := .s32
def c : Nat := leNat (s.rdLoc l 4)
def x := leNat (s.rdLoc l n)
def y := 0x99
end K104
theorem witness_HomeOperations_2 :
    (Word4 K104.l 4) ∧
    (Word4 K104.l K104.n) ∧
    (Memory.wf K104.s.mem = true) ∧
    (Memory.wf K104.s.spad = true) ∧
    (∀ (x : L2Line), x ∈ K104.s.l2.lines → x.bv = true → x.fe.length = 32) ∧
    (K104.s.feAt K104.l = false) ∧
    (K104.n = 4 ∧ (K104.ty = Ty.z32 ∨ K104.ty = Ty.s32) ∨ K104.n = 8 ∧ K104.ty = Ty.w64) ∧
    (K104.c < 2 ^ (8 * K104.n)) ∧
    (K104.x = leNat (K104.s.rdLoc K104.l K104.n)) ∧
    (K104.x = K104.c) ∧
    (K104.y < 2 ^ (8 * K104.n)) :=
  ⟨⟨by decide +kernel, by decide +kernel⟩,
   ⟨by decide +kernel, by decide +kernel⟩,
   by decide +kernel⟩

namespace K105
def s : State :=
  { W.one.updThread 0 (fun x => {x with st := .run}) with pend := [⟨11,.reg 0 21,.reg ⟨7,Tag.zero⟩,5,false,900⟩] }
def t := 0
def n := 21
def v : LaneReg := ⟨7,Tag.zero⟩
def pe0 : Pend :=
  { id := 11, dst := Dst.reg 0 21, val := PVal.reg { val := 7, tag := Tag.zero }, req := 5, fp := false, since := 900 }
end K105
theorem witness_MemoryResults_1 :
    (List.find? (fun x => x.id == 11) K105.s.pend = some K105.pe0) ∧
    (K105.s.unread K105.pe0 = false) ∧
    (K105.pe0.dst = Dst.reg K105.t K105.n) ∧
    (K105.pe0.val = PVal.reg K105.v) ∧
    ((K105.s.th K105.t).st = TSt.run ∨ (K105.s.th K105.t).st = TSt.proof) :=
  by decide +kernel

namespace K106
def s : State :=
  { W.one with mem := Memory.setMany [] 0x800100 [1,2,3,4,5,0x85,6], reqs := [{ id := 4, who := .thread 0, core := 0, ctx := 0, team := 1, epoch := 0, op := .store [7], loc := .mem 0x800100, size := 1, ord := .plain, scope := .thr, hint := .none, cp := 0, pl := 0, feb := false, va := 0x500000, form := .none, fill := [], co := 4, bytes := 4, merged := false, nrel := false, xw := false, parts := [], after := [], done := true, since := 0 },{ id := 3, who := .thread 0, core := 0, ctx := 0, team := 1, epoch := 0, op := .store [1], loc := .mem 0x700000, size := 1, ord := .plain, scope := .thr, hint := .none, cp := 0, pl := 0, feb := false, va := 0x500000, form := .none, fill := [], co := 4, bytes := 4, merged := false, nrel := false, xw := false, parts := [], after := [], done := false, since := 0 }], pend := [⟨11,.reg 0 21,.reg ⟨7,Tag.zero⟩,5,false,900⟩,⟨4,.reg 0 20,.none,4,false,900⟩], l2 := { State.reset.l2 with lines := [] } }
def rq0 : Req :=
  { id := 3, who := Who.thread 0, core := 0, ctx := 0, team := 1, epoch := 0, op := MemOp.store [1], loc := Loc.mem
      7340032, size := 1, ord := Ord.plain, scope := Scope.thr, hint := Hint.none, cp := 0, pl := 0, feb := false, va
      := 5242880, form := LdForm.none, fill := [], parts := [], after := [], co := 4, bytes := 4, merged := false,
      nrel := false, xw := false, done := false, since := 0 }
def rq1 : Req :=
  { id := 4, who := Who.thread 0, core := 0, ctx := 0, team := 1, epoch := 0, op := MemOp.store [7], loc := Loc.mem
      8388864, size := 1, ord := Ord.plain, scope := Scope.thr, hint := Hint.none, cp := 0, pl := 0, feb := false, va
      := 5242880, form := LdForm.none, fill := [], parts := [], after := [], co := 4, bytes := 4, merged := false,
      nrel := false, xw := false, done := true, since := 0 }
def pe0 : Pend := { id := 4, dst := Dst.reg 0 20, val := PVal.none, req := 4, fp := false, since := 900 }
end K106
theorem witness_MemoryResults_2 :
    (K106.s.req? 3 = some K106.rq0) ∧
    (State.returns K106.rq0.op = false) ∧
    (K106.rq0.done = false) ∧
    (K106.s.req? 4 = some K106.rq1) ∧
    (State.returns K106.rq1.op = false) ∧
    (K106.rq1.done = true) ∧
    (List.find? (fun x => x.id == 4) K106.s.pend = some K106.pe0) ∧
    (K106.s.unread K106.pe0 = true) ∧
    (K106.pe0.val = PVal.none) :=
  by decide +kernel

namespace K107
def s : State := (W.one.updThread 0 fun x => {x with st := .slotRest 900})
def t := 0
end K107
theorem witness_MemoryResults_3 :
    ((K107.s.th K107.t).st = TSt.slotRest 900) ∧
    (900 ≤ K107.s.cycle) :=
  by decide +kernel

namespace K108
def s : State := (W.one.updThread 0 fun x => {x with st := .slotRest 1900})
def t := 0
end K108
theorem witness_MemoryResults_4 :
    ((K108.s.th K108.t).st = TSt.slotRest 1900) ∧
    (K108.s.cycle < 1900) :=
  by decide +kernel

namespace K109
def s : State :=
  { W.one with ctxs := [{ W.ctx0 with epoch := 2, acked := 1, unacked := [.core 0,.peel 0,.remote]}], groups := [{W.group0 with wait := .flush 0 2},{W.group0 with gslot := 1, wait := .drain 0 1},{W.group0 with gslot := 2, wait := .drain 0 2}], tlb := W.one.tlb ++ (W.one.tlb.map fun e => {e with ctx := 1}) }
def ctx := 0
def sz : PageSize := .m2
def p : Pool := ⟨0,0,0,0,0⟩
def c := 0
def po0 : Pool := { base := 0, loglen := 0, put := 0, zero := 0, take := 0 }
end K109
theorem witness_TranslationEvents_1 :
    (K109.s.dev.bootfail = false) ∧
    (K109.s.flt.pools.getD (State.poolIdx K109.sz) K109.po0 = K109.p) ∧
    (K109.p.zero = K109.p.put ∨ State.poolOn K109.p = false) ∧
    (K109.s.hasCtx K109.ctx = true) ∧
    ((K109.s.cx K109.ctx).unacked.contains (TlbTarget.core 0) = true) ∧
    (TlbTarget.core 0 = TlbTarget.core K109.c) ∧
    ((K109.s.cx K109.ctx).unacked.contains (TlbTarget.peel 0) = true) ∧
    (TlbTarget.peel 0 = TlbTarget.peel K109.c) ∧
    ((K109.s.cx K109.ctx).unacked.contains TlbTarget.remote = true) ∧
    ((K109.s.cx K109.ctx).unacked ≠ []) ∧
    (K109.s.drainWanted K109.ctx = some 1) ∧
    (K109.s.oldAccess K109.ctx 1 = false) :=
  by decide +kernel

namespace K110
def s : State :=
  ({ W.withMem [(0x900000+24, leBytes 8 0xA00000),(0xA00000,[1,2,3]),(0xA01000,[7]),(0x9FFFFF,[4]),(Config.hbmTop + 0xA00000/32 - 1,[9,9])] with flt := { State.reset.flt with faults := [⟨5,0,0x404000,1,[(.thread 0,0x404010)]⟩,⟨6,0,0x405000,1,[]⟩], pools := setAt State.reset.flt.pools 0 ⟨0x900000,6,5,3,1⟩, faq := setAt State.reset.flt.faq 2 [(3,true),(9,false)], bad := setAt State.reset.flt.bad 2 [] } }).updThread 0 fun x => {x with st := .faultRest 5 true true}
def t := 0
def fid : List Nat := [5,6,7]
def ea := 0x404010
def ctx := 0
def stack := 2
def xw := true
def grp := true
def fr0 : FaultRec := { fid := 5, ctx := 0, page := 4210688, typ := 1, joins := [(Who.thread 0, 4210704)] }
def po0 : Pool := { base := 0, loglen := 0, put := 0, zero := 0, take := 0 }
def po1 : Pool := { base := 9437184, loglen := 6, put := 5, zero := 3, take := 1 }
end K110
theorem witness_TranslationEvents_2 :
    (List.find? (fun x => x.fid == 5) K110.s.flt.faults = some K110.fr0) ∧
    (K110.fr0.joins = [(Who.thread K110.t, K110.ea)]) ∧
    (K110.s.fab.incoming = []) ∧
    ((K110.s.th K110.t).st = TSt.faultRest 5 K110.xw K110.grp) ∧
    (K110.s.dev.bootfail = false) ∧
    (Free K110.s K110.t) ∧
    (K110.s.flt.pools.getD (State.poolIdx PageSize.k4) K110.po0 = K110.po1) ∧
    (K110.po1.zero ≠ K110.po1.put) ∧
    (6 ≤ K110.po1.loglen) ∧
    (K110.po1.loglen ≤ 16) ∧
    (K110.s.slotFrame K110.po1 PageSize.k4 K110.po1.zero = some 10485760) ∧
    (0 < State.pageBytes PageSize.k4) ∧
    (0 < State.pageBytes PageSize.k4 / 32) ∧
    (10485759 < 10485760 ∨ 10485760 + State.pageBytes PageSize.k4 ≤ 10485759) ∧
    (10485759 < Config.hbmTop + 10485760 / 32 ∨ Config.hbmTop + 10485760 / 32 + State.pageBytes PageSize.k4 / 32 ≤
      10485759) ∧
    (K110.s.flt.faq.getD K110.stack [] = [(3, true), (9, false)]) :=
  by unfold Free; decide +kernel

namespace K111
def s : State :=
  { W.one with reqs := [{ id := 4, who := .thread 0, core := 0, ctx := 0, team := 1, epoch := 0, op := .load, loc := .mem 0x900000, size := 4, ord := .plain, scope := .thr, hint := .none, cp := 0, pl := 0, feb := false, va := 0x500000, form := .none, fill := [], co := 4, bytes := 4, merged := false, nrel := false, xw := false, parts := [], after := [], done := false, since := 0 }], ctxs := [{ W.ctx0 with epoch := 2, acked := 1, unacked := []}], groups := [{W.group0 with wait := .flush 0 3},{W.group0 with gslot := 1, wait := .drain 0 1},{W.group0 with gslot := 2, wait := .drain 0 2}], tlb := W.one.tlb ++ (W.one.tlb.map fun e => {e with ctx := 1}), flt := { State.reset.flt with pools := [⟨0x900000,6,3,3,0⟩,⟨0x900000,16,3,3,0⟩,⟨0x900000,6,4,4,0⟩] } }
def ctx := 0
def xw := true
end K111
theorem witness_TranslationEvents_3 :
    (K111.s.hasCtx K111.ctx = true) ∧
    ((K111.s.cx K111.ctx).unacked = []) ∧
    ((K111.s.cx K111.ctx).acked < (K111.s.cx K111.ctx).epoch) ∧
    (K111.s.drainWanted K111.ctx = some 1) ∧
    (K111.s.oldAccess K111.ctx 1 = true) :=
  by decide +kernel

namespace K112
def s : State :=
  (({ W.withMem [(0x804010, State.packPark ⟨.ldwf,.mem 0x800100,0,[0,2]⟩)] with cycle := 1000, ctxs := [{ W.ctx0 with root := 0x100000, parkBase := 0x404000, parkCnt := 1, sweeps := [0,0] }], spadE := [State.spKey 2 64 / 4], l2 := { State.reset.l2 with lines := [{ pa := 0x800100, valid := [true,true,true,true], dirty := [false,true,false,false], bv := true, fe := (List.range 32).map fun i => i % 3 == 0, feDirty := true, tag := 0, weight := 3, touched := true, stale := false, ov := true, age := 5 }], proms := [⟨0x800100,0,[0x800101],[3],false⟩,⟨0x800200,1,[0x800201],[9],false⟩] }, wakes := [⟨5,0,[0,1],7,true⟩,⟨6,0,[2],7,true⟩], sweeps := [⟨8,0,.mem 0x800120⟩,⟨9,0,.spad 2 0⟩], waits := [⟨5,0,.mem 0x800100,.ldce,.lanes 0 [1],0,3,.woken 900⟩,⟨7,0,.mem 0x800100,.ldce,.lanes 0 [1],0,3,.wait⟩], reqs := [{ id := 3, who := .thread 0, core := 0, ctx := 0, team := 1, epoch := 0, op := .load, loc := .mem 0x900000, size := 4, ord := .plain, scope := .thr, hint := .none, cp := 0, pl := 0, feb := false, va := 0x500000, form := .none, fill := [], co := 4, bytes := 4, merged := false, nrel := false, xw := false, parts := [], after := [], done := false, since := 0 }], dev := { State.reset.dev with scrub := updAt State.reset.dev.scrub 1 fun x => { x with en := true, passH := 5, pos := 100 }, marks := [8,9] } }).updThread 0 fun x => {x with st := .feRest 900}).updThread 1 fun x => {x with st := .feWait}
def t := 0
def ctx := 0
def die := 0
def stack := 1
def pa := 0x804010
def r : State.ParkRec := (State.readPark (s.rdBytes 0x804010 16)).getD ⟨.ldwf,.mem 0,0,[]⟩
def x : List Scrub := s.dev.scrub
def i : List Instr := [.parkSweep die ctx,.parkSweepImmediate 8,.parkSweepImmediate 9]
def sb0 : Scrub :=
  { en := true, passH := 5, cecnt := Scrub.reset.cecnt, running := Scrub.reset.running, pos := 100, ceFrames :=
      Scrub.reset.ceFrames }
def wk0 : Wake := { id := 5, gslot := 0, lanes := [0, 1], entry := 7, counts := true }
def wa0 : Wait :=
  { id := 5, table := 0, word := Loc.mem 8388864, cond := WCond.ldce, who := Waiter.lanes 0 [1], ctx := 0, age := 3,
      st := WaitSt.woken 900 }
end K112
theorem witness_CacheAndWakeEvents_1 :
    (K112.s.cycle % 2 ^ 20 ≠ 0) ∧
    (K112.stack < 8) ∧
    (K112.s.dev.scrub.getD K112.stack Scrub.reset = K112.sb0) ∧
    (K112.sb0.en = true) ∧
    (K112.sb0.passH ≠ 0) ∧
    (K112.sb0.pos + 1 < 2 ^ 31) ∧
    (K112.s.ueAt (State.scrubPa K112.stack K112.sb0.pos) = false) ∧
    (¬State.scrubPa K112.stack K112.sb0.pos / 32 ∈ K112.s.ce) ∧
    (¬5 ∈ K112.s.dev.marks) ∧
    (List.find? (fun y => y.id == 5) K112.s.wakes = some K112.wk0) ∧
    (∀ (l : Nat), l ∈ K112.wk0.lanes → 2 ≠ K112.wk0.gslot * 32 + l) ∧
    (K112.s.wait? 5 = some K112.wa0) ∧
    (K112.wa0.st = WaitSt.woken 900) ∧
    (K112.s.cycle < 900 + 8192) ∧
    ((K112.s.th K112.t).st = TSt.feRest 900) ∧
    (900 ≤ K112.s.cycle) ∧
    (8 ∈ K112.s.dev.marks) ∧
    (K112.s.parkList K112.ctx = [(K112.pa, K112.r)]) ∧
    (K112.s.parkUes K112.ctx = []) ∧
    (K112.s.sweepHit [] K112.r = true) ∧
    (K112.pa + 16 ≤ Config.hbmTop) ∧
    (Memory.wf K112.s.mem = true) ∧
    ((Instr.parkSweepImmediate 8 = Instr.parkSweep K112.die K112.ctx ∧ K112.s.hasCtx K112.ctx = true ∧ K112.die < 2 ∧
      ((K112.s.cx K112.ctx).sweeps.getD K112.die 0 + 256 * if (K112.s.cx K112.ctx).period = 0 then 16 else (K112.s.cx
      K112.ctx).period) ≤ K112.s.cycle ∧ ∃ u, u ∈ K112.s.teams ∧ u.ctx = K112.ctx ∧ State.dieOf u.core = K112.die) ∨
      Instr.parkSweepImmediate 8 = Instr.parkSweepImmediate 8 ∧ ∃ x, List.find? (fun y => y.id == 8) K112.s.sweeps =
      some x ∧ x.ctx = K112.ctx ∧ State.sameLine x.word K112.r.word = true) :=
  by decide +kernel

namespace K113
def s : State :=
  (({ W.withMem [(0x804010, State.packPark ⟨.ldwf,.mem 0x800100,0,[0,2]⟩)] with cycle := 1048576, ctxs := [{ W.ctx0 with root := 0x100000, parkBase := 0x404000, parkCnt := 1, sweeps := [0,0] }], spadE := [State.spKey 2 64 / 4], l2 := { State.reset.l2 with lines := [{ pa := 0x800100, valid := [true,true,true,true], dirty := [false,true,false,false], bv := true, fe := (List.range 32).map fun i => i % 3 == 0, feDirty := true, tag := 0, weight := 3, touched := true, stale := false, ov := true, age := 5 }], proms := [⟨0x800100,0,[0x800101],[3],false⟩,⟨0x800200,1,[0x800201],[9],false⟩] }, wakes := [⟨5,0,[0,1],7,true⟩,⟨6,0,[2],7,true⟩], sweeps := [⟨8,0,.mem 0x800120⟩,⟨9,0,.spad 2 0⟩], waits := [⟨5,0,.mem 0x800100,.ldce,.lanes 0 [1],0,3,.woken 900⟩,⟨7,0,.mem 0x800100,.ldce,.lanes 0 [1],0,3,.wait⟩], reqs := [{ id := 3, who := .thread 0, core := 0, ctx := 0, team := 1, epoch := 0, op := .load, loc := .mem 0x900000, size := 4, ord := .plain, scope := .thr, hint := .none, cp := 0, pl := 0, feb := false, va := 0x500000, form := .none, fill := [], co := 4, bytes := 4, merged := false, nrel := false, xw := false, parts := [], after := [], done := false, since := 0 }], dev := { State.reset.dev with scrub := updAt State.reset.dev.scrub 1 fun x => { x with en := true, passH := 5, pos := 100 }, marks := [8,9] } }).updThread 0 fun x => {x with st := .feRest 90000000}).updThread 1 fun x => {x with st := .feWait}
def t := 0
def ctx := 0
def die := 0
def pa := 0x804010
def x : List Scrub := s.dev.scrub
def i : List Instr := [.parkSweep die ctx,.parkSweepImmediate 8,.parkSweepImmediate 9]
def wa0 : Wait :=
  { id := 5, table := 0, word := Loc.mem 8388864, cond := WCond.ldce, who := Waiter.lanes 0 [1], ctx := 0, age := 3,
      st := WaitSt.woken 900 }
end K113
theorem witness_CacheAndWakeEvents_2 :
    (K113.s.cycle % 2 ^ 20 = 0) ∧
    (K113.s.l2.clearedAt ≠ K113.s.cycle) ∧
    (K113.s.wait? 5 = some K113.wa0) ∧
    (K113.wa0.st = WaitSt.woken 900) ∧
    (900 + 8192 ≤ K113.s.cycle) ∧
    ((K113.s.th K113.t).st = TSt.feRest 90000000) ∧
    (K113.s.cycle < 90000000) :=
  by decide +kernel

namespace K114
def s : State :=
  ({ W.one with cycle := 1000, groups := (List.range 8).map (fun i => {W.group0 with gslot := i, gid := i, active := true, since := 500 + i, eligSince := some 600, wait := .dwait 1}) ++ [{W.group0 with gslot := 8, gid := 8, active := false, since := 3, readySince := some 5}], pend := [⟨11,.reg 0 21,.none,5,false,900⟩], threads := [W.thr 0, {W.thr 0 with slot := 8*32}, W.thr 1]  }).updThread 0 fun x => {x with st := .trapping ⟨.xlate,0x8000,0x9004,true,false,true,false⟩, defer := [⟨.xlate,0x8000,0x9004,true,false,true,false⟩]}
def t := 0
def gs := 8
def out := 1
def i : TrapInfo := ⟨.xlate,0x8000,0x9004,true,false,true,false⟩
def st := BitVec.ofNat 6 ((s.th t).trap.level + 4 * b2n i.xw + 8 * b2n i.rem + 16 * b2n i.dfr + 32 * b2n i.grp)
end K114
theorem witness_ThreadAndGroupEvents_1 :
    (K114.st = BitVec.ofNat 6 ((K114.s.th K114.t).trap.level + 4 * b2n K114.i.xw + 8 * b2n K114.i.rem + 16 * b2n
      K114.i.dfr + 32 * b2n K114.i.grp)) ∧
    ((K114.s.th K114.t).st = TSt.trapping K114.i) ∧
    (K114.s.threadPend K114.t = true) ∧
    (State.sameQuad K114.out K114.gs = true) ∧
    (K114.s.mayLeave K114.out = true) ∧
    (K114.s.mayEnter K114.gs = true) ∧
    (8 ≤ K114.s.activeIn (K114.gs / 64) (K114.gs / 16 % 4)) :=
  by decide +kernel

namespace K115
def s : State :=
  ({ W.one with cycle := 1000, groups := [{W.group0 with gslot := 0, wait := .racq, ext := false}, {W.group0 with gslot := 8, gid := 8, active := false, since := 3, readySince := some 5, wait := .none}], pend := [], threads := [W.thr 0, {W.thr 0 with slot := 8*32}, W.thr 1] , cores := updAt State.reset.cores 0 fun c => {c with racq := [0,17,3]} }).updThread 0 fun x => {x with st := .yield 900 true, defer := [⟨.xlate,0x8000,0x9004,true,false,true,false⟩]}
def t := 0
def gs := 0
def core := 0
def quad := 0
def i : TrapInfo := ⟨.xlate,0x8000,0x9004,true,false,true,false⟩
def st := BitVec.ofNat 6 ((s.th t).trap.level + 4 * b2n i.xw + 8 * b2n i.rem + 16 * b2n i.dfr + 32 * b2n i.grp)
def c : List Nat := [5,1000]
end K115
theorem witness_ThreadAndGroupEvents_2 :
    (K115.st = BitVec.ofNat 6 ((K115.s.th K115.t).trap.level + 4 * b2n K115.i.xw + 8 * b2n K115.i.rem + 16 * b2n
      K115.i.dfr + 32 * b2n K115.i.grp)) ∧
    (K115.s.racqQueue K115.core K115.quad = [K115.gs, 3]) ∧
    (∃ x, x ∈ K115.s.groups ∧ x.gslot = K115.gs) ∧
    (64 ≤ K115.s.rowsFree K115.core K115.quad) ∧
    ((K115.s.gr K115.gs).wait = GWait.racq) ∧
    ((K115.s.th K115.t).st = TSt.yield 900 true) ∧
    (900 ≤ K115.s.cycle) :=
  by decide +kernel

namespace K116
def s : State :=
  { W.one with cycle := 8000, groups := (List.range 8).map (fun i => {W.group0 with gslot := i, gid := i, active := true, since := 500 + i, eligSince := some 600, wait := .none}) ++ [{W.group0 with gslot := 8, gid := 8, active := false, since := 3, readySince := some 5}], threads := (List.range 9).map fun i => {W.thr 0 with slot := i*32} }
def t := 0
def gs := 8
def out := 0
def i : TrapInfo := ⟨.xlate,0x8000,0x9004,true,false,true,false⟩
def st := BitVec.ofNat 6 ((s.th t).trap.level + 4 * b2n i.xw + 8 * b2n i.rem + 16 * b2n i.dfr + 32 * b2n i.grp)
end K116
theorem witness_ThreadAndGroupEvents_3 :
    (K116.st = BitVec.ofNat 6 ((K116.s.th K116.t).trap.level + 4 * b2n K116.i.xw + 8 * b2n K116.i.rem + 16 * b2n
      K116.i.dfr + 32 * b2n K116.i.grp)) ∧
    (K116.s.longestActive K116.gs = some K116.out) ∧
    (K116.out ≠ K116.gs) ∧
    (∃ x, x ∈ K116.s.groups ∧ x.gslot = K116.gs) ∧
    ((K116.s.gr K116.gs).readySince = some 5) ∧
    (5 + 4096 ≤ K116.s.cycle) ∧
    (K116.s.groupReady (K116.s.gr K116.gs) = true) ∧
    ((K116.s.gr K116.gs).active = false) ∧
    (K116.s.admitted K116.gs = false) ∧
    (8 ≤ K116.s.activeIn (K116.gs / 64) (K116.gs / 16 % 4)) ∧
    (∀ (y : Group), y ∈ K116.s.groups → State.sameQuad y.gslot K116.gs = true → K116.s.eligible y = false) :=
  by decide +kernel

namespace K117
def s : State :=
  ({ W.one with cycle := 1000, groups := [{W.group0 with gslot := 0, wait := .racq, ext := false}, {W.group0 with gslot := 8, gid := 8, active := false, since := 3, readySince := some 5, wait := .sleep 900}], pend := [], threads := [W.thr 0, {W.thr 0 with slot := 8*32}, W.thr 1]  }).updThread 0 fun x => {x with st := .yield 99999 false, defer := [⟨.xlate,0x8000,0x9004,true,false,true,false⟩]}
def t := 0
def gs := 8
def i : TrapInfo := ⟨.xlate,0x8000,0x9004,true,false,true,false⟩
def st := BitVec.ofNat 6 ((s.th t).trap.level + 4 * b2n i.xw + 8 * b2n i.rem + 16 * b2n i.dfr + 32 * b2n i.grp)
end K117
theorem witness_ThreadAndGroupEvents_4 :
    (K117.st = BitVec.ofNat 6 ((K117.s.th K117.t).trap.level + 4 * b2n K117.i.xw + 8 * b2n K117.i.rem + 16 * b2n
      K117.i.dfr + 32 * b2n K117.i.grp)) ∧
    ((K117.s.gr K117.gs).wait = GWait.sleep 900) ∧
    (900 ≤ K117.s.cycle) ∧
    ((K117.s.th K117.t).st = TSt.yield 99999 false) ∧
    (K117.s.cycle < 99999) :=
  by decide +kernel

namespace K118
def s : State :=
  ({ W.one with cycle := 1000, groups := [{W.group0 with gslot := 0, wait := .racq, ext := false}, {W.group0 with gslot := 8, gid := 8, active := false, since := 3, readySince := some 5, wait := .sleep 9900}], pend := [], threads := [W.thr 0, {W.thr 0 with slot := 8*32}, W.thr 1]  }).updThread 0 fun x => {x with st := .run, defer := [⟨.xlate,0x8000,0x9004,true,false,true,false⟩]}
def t := 0
def gs := 8
def i : TrapInfo := ⟨.xlate,0x8000,0x9004,true,false,true,false⟩
def st := BitVec.ofNat 6 ((s.th t).trap.level + 4 * b2n i.xw + 8 * b2n i.rem + 16 * b2n i.dfr + 32 * b2n i.grp)
end K118
theorem witness_ThreadAndGroupEvents_5 :
    (K118.st = BitVec.ofNat 6 ((K118.s.th K118.t).trap.level + 4 * b2n K118.i.xw + 8 * b2n K118.i.rem + 16 * b2n
      K118.i.dfr + 32 * b2n K118.i.grp)) ∧
    ((K118.s.th K118.t).st = TSt.run) ∧
    ((K118.s.th K118.t).defer = [K118.i]) ∧
    (Free K118.s K118.t) ∧
    ((K118.s.gr K118.gs).wait = GWait.sleep 9900) ∧
    (K118.s.cycle < 9900) :=
  by unfold Free; decide +kernel

namespace K119
def s : State :=
  ({ W.one with cycle := 1000, groups := [{W.group0 with gslot := 0, wait := .racq, ext := false}, {W.group0 with gslot := 8, gid := 8, active := false, since := 3, readySince := some 5, wait := .none}], pend := [], threads := [W.thr 0, {W.thr 0 with slot := 8*32}, W.thr 1]  }).updThread 0 fun x => {x with st := .trapping ⟨.xlate,0x8000,0x9004,true,false,true,false⟩, defer := [⟨.xlate,0x8000,0x9004,true,false,true,false⟩]}
def t := 0
def gs := 8
def i : TrapInfo := ⟨.xlate,0x8000,0x9004,true,false,true,false⟩
def st := BitVec.ofNat 6 ((s.th t).trap.level + 4 * b2n i.xw + 8 * b2n i.rem + 16 * b2n i.dfr + 32 * b2n i.grp)
end K119
theorem witness_ThreadAndGroupEvents_6 :
    (K119.st = BitVec.ofNat 6 ((K119.s.th K119.t).trap.level + 4 * b2n K119.i.xw + 8 * b2n K119.i.rem + 16 * b2n
      K119.i.dfr + 32 * b2n K119.i.grp)) ∧
    ((K119.s.th K119.t).st = TSt.trapping K119.i) ∧
    (K119.s.threadPend K119.t = false) ∧
    ((K119.s.th K119.t).trap.level < 2) ∧
    (K119.s.mayEnter K119.gs = true) ∧
    (K119.s.activeIn (K119.gs / 64) (K119.gs / 16 % 4) < 8) :=
  by decide +kernel

namespace K120
def s : State :=
  ({ W.one with cycle := 1000, groups := ((List.range 12).map fun i => {W.group0 with gslot := i, ext := true, extOk := true}), pend := [], threads := [W.thr 0, {W.thr 0 with slot := 8*32}, W.thr 1] , cores := updAt State.reset.cores 0 fun c => {c with racq := [0,17,3]} }).updThread 0 fun x => {x with st := .trapping ⟨.xlate,0x8000,0x9004,true,false,true,false⟩, defer := [⟨.xlate,0x8000,0x9004,true,false,true,false⟩]}
def t := 0
def gs := 0
def core := 0
def quad := 0
def i : TrapInfo := ⟨.xlate,0x8000,0x9004,true,false,true,false⟩
def st := BitVec.ofNat 6 ((s.th t).trap.level + 4 * b2n i.xw + 8 * b2n i.rem + 16 * b2n i.dfr + 32 * b2n i.grp)
def c : List Nat := [5,1000]
end K120
theorem witness_ThreadAndGroupEvents_7 :
    (K120.st = BitVec.ofNat 6 ((K120.s.th K120.t).trap.level + 4 * b2n K120.i.xw + 8 * b2n K120.i.rem + 16 * b2n
      K120.i.dfr + 32 * b2n K120.i.grp)) ∧
    (K120.s.racqQueue K120.core K120.quad = [K120.gs, 3]) ∧
    (∃ x, x ∈ K120.s.groups ∧ x.gslot = K120.gs) ∧
    (K120.s.rowsFree K120.core K120.quad < 64) :=
  by decide +kernel

namespace K121
def sv : Saved :=
  ⟨{W.team1 with spBase := 0x8000, uid := 7, ctx := 0, ending := true},
      [{W.group0 with team := 7, gslot := 3}],[{W.thr 96 with st := .run}],[],[],[],900⟩
def s : State :=
  { W.withMem [(0x804000,[9,9,9,9])] with teams := [W.team1], threads := [{W.thr 0 with st := .feWait}], saved := [sv], groups := [] }
def ctx := 0
def cx0 : Ctx := { W.ctx0 with root := 1048576 }
end K121
theorem witness_TeamAndContextEvents_1 :
    (K121.s.teamOver 1 = true) ∧
    (Instr.teamPreempt 1 = Instr.teamPreempt 1 ∧ [1] = K121.s.setOfTeam 1 ∨ Instr.teamPreempt 1 =
      Instr.contextSwitchOut K121.ctx ∧ (K121.s.switching K121.ctx = true ∨ K121.s.quantumOver K121.ctx = true) ∧ [1]
      = List.map (fun x => x.uid) (List.filter (fun y => y.ctx == K121.ctx) K121.s.teams)) ∧
    ((K121.s.stopTeams [1]).teamsDrained [1] = true) ∧
    (K121.s.switching K121.ctx = false) ∧
    (K121.s.quantumOver K121.ctx = false) ∧
    ((K121.s.cx K121.ctx).killing = none) ∧
    (K121.s.uesIn (K121.s.swArea K121.ctx K121.sv.team.core) State.swBytes = []) ∧
    (K121.s.saved = [K121.sv]) ∧
    (K121.sv.team.ctx = K121.ctx) ∧
    (K121.sv.team.coset = none) ∧
    (K121.s.placeFree K121.sv = true) ∧
    (K121.s.killSettled K121.ctx = false) ∧
    (K121.s.dev.fatal = false) ∧
    (K121.s.ctxs = [K121.cx0]) ∧
    (K121.s.teamOver 2 = false) ∧
    (Instr.teamPreempt 2 = Instr.teamPreempt 2 ∧ [] = K121.s.setOfTeam 2 ∨ Instr.teamPreempt 2 =
      Instr.contextSwitchOut K121.ctx ∧ (K121.s.switching K121.ctx = true ∨ K121.s.quantumOver K121.ctx = true) ∧ [] =
      List.map (fun x => x.uid) (List.filter (fun y => y.ctx == K121.ctx) K121.s.teams)) ∧
    ((K121.s.stopTeams []).teamsDrained [] = true) :=
  by decide +kernel

namespace K122
def s : State :=
  { W.withMem [(0x804000,[9,9,9,9])] with teams := [], cores := updAt State.reset.cores 0 fun c => {c with ways := 5, pendSplit := some 7} }
def core := 0
def c : List Nat := [0,5]
end K122
theorem witness_TeamAndContextEvents_2 :
    ((K122.s.co K122.core).pendSplit = some 7) ∧
    (K122.s.teamsOn K122.core = []) ∧
    (∀ (y : Saved), y ∈ K122.s.saved → y.team.core ≠ K122.core) :=
  by decide +kernel

namespace K123
def LR (n done : Nat) : List Byte :=
  leBytes 128 (W.fields [(0, 0x4C), (24, n), (32, 2), (64, 1), (80, 1), (96, 1), (192, done), (256, 0x400000), (256 +
      69, n), (256 + 80, 1)])
def s : State :=
  { W.withMem [(0x804000,[9,9,9,9])] with groups := [], threads := [], teams := [], cp := { State.reset.cp with launches := [⟨3,3,0,.node 1 2,LR 2 4210688,[9],1,false,false⟩] } }
def ctx := 0
def pa := 0x804000
def leaf : Leaf := {W.leaf with pa := 0x800000}
def la0 : Launch :=
  { lid := 3, ord := 3, ctx := 0, origin := Origin.node 1 2, rec_ := LR 2 4210688, placed := [9], ended := 1, reported
      := false, doneSent := false }
end K123
theorem witness_TeamAndContextEvents_3 :
    (K123.s.cpLoc (Who.done 3) K123.la0.ctx (State.doneAddr K123.la0) true true = ((K123.s.cpLoc (Who.done
      K123.la0.lid) K123.la0.ctx (State.doneAddr K123.la0) true true).fst, Except.ok (Loc.mem K123.pa, K123.leaf))) ∧
    (K123.s.launch? 3 = some K123.la0) ∧
    ((K123.s.cx K123.la0.ctx).killing = none) ∧
    (K123.la0.ended = K123.la0.parsed.total) ∧
    (State.doneAddr K123.la0 ≠ 0) ∧
    (K123.la0.doneSent = false) ∧
    (K123.s.joined (Who.done 3) = false) ∧
    ((K123.s.cpLoc (Who.done K123.la0.lid) K123.la0.ctx (State.doneAddr K123.la0) true true).fst.ueHits (Loc.mem
      K123.pa) 4 true = []) ∧
    ((K123.s.cpLoc (Who.done K123.la0.lid) K123.la0.ctx (State.doneAddr K123.la0) true true).fst.bitUes (Loc.mem
      K123.pa) = []) ∧
    (K123.pa % 4 = 0) ∧
    (K123.pa + 4 ≤ Config.hbmTop) ∧
    (Memory.wf (K123.s.cpLoc (Who.done K123.la0.lid) K123.la0.ctx (State.doneAddr K123.la0) true true).fst.mem = true) ∧
    (∀ (y : L2Line), y ∈ (K123.s.cpLoc (Who.done K123.la0.lid) K123.la0.ctx (State.doneAddr K123.la0) true
      true).fst.l2.lines → y.bv = true → y.fe.length = 32) :=
  ⟨pair_ok rfl (by decide +kernel),
   by decide +kernel⟩

namespace K124
def sv : Saved :=
  ⟨{W.team1 with spBase := 0x8000, uid := 7, ctx := 0, ending := true},
      [{W.group0 with team := 7, gslot := 3}],[{W.thr 96 with st := .run}],[],[],[],900⟩
def s : State :=
  { W.withMem [(0x804000,[9,9,9,9])] with ctxs := [{W.ctx0 with root := 0x100000, killing := some .nest}], saved := [sv] }
def ctx := 0
end K124
theorem witness_TeamAndContextEvents_4 :
    (K124.s.killSettled K124.ctx = true) ∧
    ((K124.s.killEnds K124.ctx).cp.held = []) :=
  by decide +kernel

namespace K125
def s : State := { W.withMem [(0x804000,[9,9,9,9])] with teams := [W.team1, {W.team1 with uid := 2, outst := 1}] }
def ctx := 0
end K125
theorem witness_TeamAndContextEvents_5 :
    (Instr.teamPreempt 2 = Instr.teamPreempt 2 ∧ [2] = K125.s.setOfTeam 2 ∨ Instr.teamPreempt 2 =
      Instr.contextSwitchOut K125.ctx ∧ (K125.s.switching K125.ctx = true ∨ K125.s.quantumOver K125.ctx = true) ∧ [2]
      = List.map (fun x => x.uid) (List.filter (fun y => y.ctx == K125.ctx) K125.s.teams)) ∧
    ((K125.s.stopTeams [2]).teamsDrained [2] = false) :=
  by decide +kernel

namespace K126
def s : State :=
  { W.withMem [(0x804000,[9,9,9,9])] with teams := [W.team1], cores := updAt State.reset.cores 0 fun c => {c with ways := 5, pendSplit := some 7} }
def core := 0
def c : List Nat := [0,5]
end K126
theorem witness_TeamAndContextEvents_6 :
    ((K126.s.co K126.core).pendSplit = some 7) ∧
    (K126.s.teamsOn K126.core ≠ []) :=
  by decide +kernel

namespace K127
def LR (n done : Nat) : List Byte :=
  leBytes 128 (W.fields [(0, 0x4C), (24, n), (32, 2), (64, 1), (80, 1), (96, 1), (192, done), (256, 0x400000), (256 +
      69, n), (256 + 80, 1)])
def s : State :=
  { W.withMem [(0x804000,[9,9,9,9])] with groups := [], threads := [], teams := [], cp := { State.reset.cp with launches := [⟨3,3,0,.node 1 2,LR 2 4210688,[],0,false,false⟩] } }
def ctx := 0
def h := 1
def la0 : Launch :=
  { lid := 3, ord := 3, ctx := 0, origin := Origin.node 1 2, rec_ := LR 2 4210688, placed := [], ended := 0, reported
      := false, doneSent := false }
end K127
theorem witness_TeamAndContextEvents_7 :
    (K127.s.launch? 3 = some K127.la0) ∧
    ((K127.s.cx K127.la0.ctx).killing = none) ∧
    (State.nextTeams K127.la0 = [0]) ∧
    (K127.s.mayBegin K127.la0 = true) ∧
    (K127.s.placeTeam K127.la0 0 0 K127.h = some ((K127.s.placeTeam K127.la0 0 0 1).getD K127.s)) :=
  by decide +kernel

namespace K128
def op0 : Op :=
  { id := 5, kind := .mma, core := 0, team := some 1, who := .thread 0, ctx := 0, epoch := 0, sys := false, prio := 0,
      blkAddr := 0x400080, blk := W.mmaBlk, srcRec := W.planeRec 1 1 2048 0x2000 0x3000 4096, dstRec := [], mask := 8,
      set? := some 3, st := .queued, cursor := 0, sub := 0, rbuf := [], srcb := [], landed := 0, cwDone := 0, fin :=
      false, sat := false, nan := false, crcErr := false, view := [], q := [], spans := [], merge :=
      ⟨false,false,false,0,0,[]⟩, snap := [], lines := [] }
def m0 : State :=
  { W.withMem (W.seqMem ++ [(0x800080, W.sliceBlk),(0x102018, leBytes 8 (0xA00 * 2 ^ 24 + 0x9007))]) with teams := [{W.team1 with spSize := 0x10000, spBase := 0, nacc := 1, tiles := [2], slots := W.team1.slots.set 3 ⟨7,5,true,false,true⟩}], acc := [(State.accKey 0 2 4,7),(State.accKey 0 3 0,9)], cores := updAt State.reset.cores 0 fun c => {c with locks := [⟨5,0,true,false,[(1,2)]⟩,⟨6,0,true,false,[(1,2)]⟩]}, spad := Memory.setMany (Memory.setMany (Memory.setMany (Memory.setMany (Memory.setMany [] (State.spKey 0 0x1000) [1,2,3,0xFF,5]) (State.spKey 0 0x2000) [0,0,1,1]) (State.spKey 0 0x3000) [0xFF,0x0F,1,2,3,4,5,6,7]) (State.spKey 0 0x4000) [0x55,0xAA,0x35,7]) (State.spKey 0 0x5000) [0x11,0x22,0x33,0x44] }
def tens (esz b : Nat) : List Byte :=
  leBytes 64 (W.fields [(0, 0x54), (8,1), (10, esz), (12, 1), (64, b), (128, 64), (160, 1), (192, 1), (224, 1), (256,
      4)])
def pblk (func : Nat) : List Byte :=
  leBytes 128 (W.fields [(0, 0x43), (8, func), (256,3),(384,4),(512, 8), (544, 1), (576, 1), (608, 1),(640,0x12345678)])
def s : State :=
  { m0 with ops := [{op0 with kind := .peel, blk := pblk 1, srcRec := [], dstRec := tens 2 0x5000, st := .queued, mask := 4},{op0 with id := 6}] }
def o := 5
def p : Op := (s.op? 5).getD op0
end K128
theorem witness_EngineEvents_1 :
    (K128.s.op? K128.o = some K128.p) ∧
    (K128.p.kind = OpKind.peel) ∧
    (K128.s.peelReady K128.p = true) :=
  by decide +kernel

namespace K129
def op0 : Op :=
  { id := 5, kind := .mma, core := 0, team := some 1, who := .thread 0, ctx := 0, epoch := 0, sys := false, prio := 0,
      blkAddr := 0x400080, blk := W.mmaBlk, srcRec := W.planeRec 1 1 2048 0x2000 0x3000 4096, dstRec := [], mask := 8,
      set? := some 3, st := .queued, cursor := 0, sub := 0, rbuf := [], srcb := [], landed := 0, cwDone := 0, fin :=
      false, sat := false, nan := false, crcErr := false, view := [], q := [], spans := [], merge :=
      ⟨false,false,false,0,0,[]⟩, snap := [], lines := [] }
def m0 : State :=
  { W.withMem (W.seqMem ++ [(0x800080, W.sliceBlk),(0x102018, leBytes 8 (0xA00 * 2 ^ 24 + 0x9007))]) with teams := [{W.team1 with spSize := 0x10000, spBase := 0, nacc := 1, tiles := [2], slots := W.team1.slots.set 3 ⟨7,5,true,false,true⟩}], acc := [(State.accKey 0 2 4,7),(State.accKey 0 3 0,9)], cores := updAt State.reset.cores 0 fun c => {c with locks := [⟨5,0,true,false,[(1,2)]⟩,⟨6,0,true,false,[(1,2)]⟩]}, spad := Memory.setMany (Memory.setMany (Memory.setMany (Memory.setMany (Memory.setMany [] (State.spKey 0 0x1000) [1,2,3,0xFF,5]) (State.spKey 0 0x2000) [0,0,1,1]) (State.spKey 0 0x3000) [0xFF,0x0F,1,2,3,4,5,6,7]) (State.spKey 0 0x4000) [0x55,0xAA,0x35,7]) (State.spKey 0 0x5000) [0x11,0x22,0x33,0x44] }
def tensW (esz b : Nat) : List Byte :=
  leBytes 64 (W.fields [(0, 0x54), (8,1), (10, esz), (12, 1), (64, b), (128, 64), (160, 1), (192, 1), (224, 1), (256,
      128)])
def pblk (func : Nat) : List Byte :=
  leBytes 128 (W.fields [(0, 0x43), (8, func), (256,3),(384,4),(512, 8), (544, 1), (576, 1), (608, 1),(640,0x12345678)])
def s : State :=
  { m0 with ops := [{op0 with kind := .peel, blk := pblk 1, srcRec := [], dstRec := tensW 2 0x5000, st := .running, cursor := 2},{op0 with id := 6}] }
def o := 5
def p : Op := (s.op? 5).getD op0
def b : PeelBlk := PeelBlk.ofNat (leNat p.blk)
def d : Tens := s.opTens p p.dstRec
def l : Loc := (s.engSpad p (s.elemDst p b p.cursor) 4).getD (.mem 0)
end K129
theorem witness_EngineEvents_2 :
    (K129.s.op? K129.o = some K129.p) ∧
    (K129.p.kind = OpKind.peel) ∧
    (K129.s.peelReady K129.p = false) ∧
    (OpIs K129.s K129.o K129.p OpKind.peel) ∧
    (K129.b = PeelBlk.ofNat (leNat K129.p.blk)) ∧
    (K129.p.st = OpSt.running) ∧
    (K129.p.cursor < K129.b.count) ∧
    (K129.p.sub = 0) ∧
    (K129.b.fem = 0) ∧
    (K129.b.crc = false) ∧
    (K129.d = K129.s.opTens K129.p K129.p.dstRec) ∧
    (K129.d.space = 1) ∧
    (K129.d.esz = 2) ∧
    (K129.s.elemDst K129.p K129.b K129.p.cursor % 4 = 0) ∧
    (OwnUnit K129.s K129.p K129.b (1, K129.s.elemDst K129.p K129.b K129.p.cursor / 128)) ∧
    (K129.s.engSpad K129.p (K129.s.elemDst K129.p K129.b K129.p.cursor) 4 = some K129.l) ∧
    (Memory.wf K129.s.spad = true) ∧
    (K129.b.func = 1) :=
  by unfold OpIs OwnUnit; decide +kernel

namespace K130
def op0 : Op :=
  { id := 5, kind := .mma, core := 0, team := some 1, who := .thread 0, ctx := 0, epoch := 0, sys := false, prio := 0,
      blkAddr := 0x400080, blk := W.mmaBlk, srcRec := W.planeRec 1 1 2048 0x2000 0x3000 4096, dstRec := [], mask := 8,
      set? := some 3, st := .queued, cursor := 0, sub := 0, rbuf := [], srcb := [], landed := 0, cwDone := 0, fin :=
      false, sat := false, nan := false, crcErr := false, view := [], q := [], spans := [], merge :=
      ⟨false,false,false,0,0,[]⟩, snap := [], lines := [] }
def m0 : State :=
  { W.withMem (W.seqMem ++ [(0x800080, W.sliceBlk),(0x102018, leBytes 8 (0xA00 * 2 ^ 24 + 0x9007))]) with teams := [{W.team1 with spSize := 0x10000, spBase := 0, nacc := 1, tiles := [2], slots := W.team1.slots.set 3 ⟨7,5,true,false,true⟩}], acc := [(State.accKey 0 2 4,7),(State.accKey 0 3 0,9)], cores := updAt State.reset.cores 0 fun c => {c with locks := [⟨5,0,true,false,[(1,2)]⟩,⟨6,0,true,false,[(1,2)]⟩]}, spad := Memory.setMany (Memory.setMany (Memory.setMany (Memory.setMany (Memory.setMany [] (State.spKey 0 0x1000) [1,2,3,0xFF,5]) (State.spKey 0 0x2000) [0,0,1,1]) (State.spKey 0 0x3000) [0xFF,0x0F,1,2,3,4,5,6,7]) (State.spKey 0 0x4000) [0x55,0xAA,0x35,7]) (State.spKey 0 0x5000) [0x11,0x22,0x33,0x44] }
def tensW (esz b : Nat) : List Byte :=
  leBytes 64 (W.fields [(0, 0x54), (8,1), (10, esz), (12, 1), (64, b), (128, 64), (160, 1), (192, 1), (224, 1), (256,
      128)])
def tens (esz b : Nat) : List Byte :=
  leBytes 64 (W.fields [(0, 0x54), (8,1), (10, esz), (12, 1), (64, b), (128, 64), (160, 1), (192, 1), (224, 1), (256,
      4)])
def pblk (func : Nat) : List Byte :=
  leBytes 128 (W.fields [(0, 0x43), (8, func), (256,3),(384,4),(512, 8), (544, 1), (576, 1), (608, 1),(640,0x12345678)])
def s : State :=
  { m0 with ops := [{op0 with kind := .peel, blk := pblk 0, srcRec := tens 2 0x4ff4, dstRec := tensW 2 0x5000, st := .running, cursor := 2},{op0 with id := 6}] }
def o := 5
def p : Op := (s.op? 5).getD op0
def b : PeelBlk := PeelBlk.ofNat (leNat p.blk)
def d : Tens := s.opTens p p.dstRec
def a : Tens := s.opTens p p.srcRec
def l : Loc := (s.engSpad p (s.elemDst p b p.cursor) 4).getD (.mem 0)
def m : Loc := (s.engSpad p (s.elemSrc p b p.cursor) 4).getD (.mem 0)
end K130
theorem witness_EngineEvents_3 :
    (OpIs K130.s K130.o K130.p OpKind.peel) ∧
    (K130.b = PeelBlk.ofNat (leNat K130.p.blk)) ∧
    (K130.p.st = OpSt.running) ∧
    (K130.p.cursor < K130.b.count) ∧
    (K130.p.sub = 0) ∧
    (K130.b.fem = 0) ∧
    (K130.b.crc = false) ∧
    (K130.d = K130.s.opTens K130.p K130.p.dstRec) ∧
    (K130.d.space = 1) ∧
    (K130.d.esz = 2) ∧
    (K130.s.elemDst K130.p K130.b K130.p.cursor % 4 = 0) ∧
    (OwnUnit K130.s K130.p K130.b (1, K130.s.elemDst K130.p K130.b K130.p.cursor / 128)) ∧
    (K130.s.engSpad K130.p (K130.s.elemDst K130.p K130.b K130.p.cursor) 4 = some K130.l) ∧
    (Memory.wf K130.s.spad = true) ∧
    (K130.b.func = 0) ∧
    (K130.b.fmt = 0) ∧
    (K130.a = K130.s.opTens K130.p K130.p.srcRec) ∧
    (K130.a.space = 1) ∧
    (K130.a.esz = 2) ∧
    (K130.s.engSpad K130.p (K130.s.elemSrc K130.p K130.b K130.p.cursor) 4 = some K130.m) :=
  by unfold OpIs OwnUnit; decide +kernel

namespace K131
def op0 : Op :=
  { id := 5, kind := .mma, core := 0, team := some 1, who := .thread 0, ctx := 0, epoch := 0, sys := false, prio := 0,
      blkAddr := 0x400080, blk := W.mmaBlk, srcRec := W.planeRec 1 1 2048 0x2000 0x3000 4096, dstRec := [], mask := 8,
      set? := some 3, st := .queued, cursor := 0, sub := 0, rbuf := [], srcb := [], landed := 0, cwDone := 0, fin :=
      false, sat := false, nan := false, crcErr := false, view := [], q := [], spans := [], merge :=
      ⟨false,false,false,0,0,[]⟩, snap := [], lines := [] }
def m0 : State :=
  { W.withMem (W.seqMem ++ [(0x800080, W.sliceBlk),(0x102018, leBytes 8 (0xA00 * 2 ^ 24 + 0x9007))]) with teams := [{W.team1 with spSize := 0x10000, spBase := 0, nacc := 1, tiles := [2], slots := W.team1.slots.set 3 ⟨7,5,true,false,true⟩}], acc := [(State.accKey 0 2 4,7),(State.accKey 0 3 0,9)], cores := updAt State.reset.cores 0 fun c => {c with locks := [⟨5,0,true,false,[(1,2)]⟩,⟨6,0,true,false,[(1,2)]⟩]}, spad := Memory.setMany (Memory.setMany (Memory.setMany (Memory.setMany (Memory.setMany [] (State.spKey 0 0x1000) [1,2,3,0xFF,5]) (State.spKey 0 0x2000) [0,0,1,1]) (State.spKey 0 0x3000) [0xFF,0x0F,1,2,3,4,5,6,7]) (State.spKey 0 0x4000) [0x55,0xAA,0x35,7]) (State.spKey 0 0x5000) [0x11,0x22,0x33,0x44] }
def s : State := { m0 with ops := [{op0 with st := .running, mask := 8},{op0 with id := 6}] }
def o := 5
def p : Op := (s.op? 5).getD op0
def k : MmaBlk := MmaBlk.ofNat (leNat p.blk)
def tile := (s.tm (p.team.getD 0)).tiles.getD k.acc 0
end K131
theorem witness_EngineEvents_4 :
    (K131.s.op? K131.o = some K131.p) ∧
    (K131.p.kind = OpKind.mma) ∧
    (K131.s.mmaReady K131.p = false) ∧
    (K131.s.teamHere K131.p = true) ∧
    (K131.s.mmaHolds K131.p = true) ∧
    (K131.k = MmaBlk.ofNat (leNat K131.p.blk)) ∧
    (K131.tile = (K131.s.tm (K131.p.team.getD 0)).tiles.getD K131.k.acc 0) ∧
    (Memory.wf K131.s.acc = true) :=
  by decide +kernel

namespace K132
def op0 : Op :=
  { id := 5, kind := .mma, core := 0, team := some 1, who := .thread 0, ctx := 0, epoch := 0, sys := false, prio := 0,
      blkAddr := 0x400080, blk := W.mmaBlk, srcRec := W.planeRec 1 1 2048 0x2000 0x3000 4096, dstRec := [], mask := 8,
      set? := some 3, st := .queued, cursor := 0, sub := 0, rbuf := [], srcb := [], landed := 0, cwDone := 0, fin :=
      false, sat := false, nan := false, crcErr := false, view := [], q := [], spans := [], merge :=
      ⟨false,false,false,0,0,[]⟩, snap := [], lines := [] }
def m0 : State :=
  { W.withMem (W.seqMem ++ [(0x800080, W.sliceBlk),(0x102018, leBytes 8 (0xA00 * 2 ^ 24 + 0x9007))]) with teams := [{W.team1 with spSize := 0x10000, spBase := 0, nacc := 1, tiles := [2], slots := W.team1.slots.set 3 ⟨7,5,true,false,true⟩}], acc := [(State.accKey 0 2 4,7),(State.accKey 0 3 0,9)], cores := updAt State.reset.cores 0 fun c => {c with locks := [⟨5,0,true,false,[(1,2)]⟩,⟨6,0,true,false,[(1,2)]⟩]}, spad := Memory.setMany (Memory.setMany (Memory.setMany (Memory.setMany (Memory.setMany [] (State.spKey 0 0x1000) [1,2,3,0xFF,5]) (State.spKey 0 0x2000) [0,0,1,1]) (State.spKey 0 0x3000) [0xFF,0x0F,1,2,3,4,5,6,7]) (State.spKey 0 0x4000) [0x55,0xAA,0x35,7]) (State.spKey 0 0x5000) [0x11,0x22,0x33,0x44] }
def tens (esz b : Nat) : List Byte :=
  leBytes 64 (W.fields [(0, 0x54), (8,1), (10, esz), (12, 1), (64, b), (128, 64), (160, 1), (192, 1), (224, 1), (256,
      4)])
def pblk (func : Nat) : List Byte :=
  leBytes 128 (W.fields [(0, 0x43), (8, func), (256,3),(384,4),(512, 8), (544, 1), (576, 1), (608, 1),(640,0x12345678)])
def s : State :=
  { m0 with ops := [{op0 with kind := .peel, blk := pblk 0, srcRec := tens 2 0x4ff4, dstRec := tens 2 0x5000, st := .failed 6, cursor := 2, fin := true},{op0 with id := 6}] }
def o := 5
def p : Op := (s.op? 5).getD op0
def b : PeelBlk := PeelBlk.ofNat (leNat p.blk)
end K132
theorem witness_EngineEvents_5 :
    (OpIs K132.s K132.o K132.p OpKind.peel) ∧
    (K132.b = PeelBlk.ofNat (leNat K132.p.blk)) ∧
    (K132.p.st = OpSt.failed 6) ∧
    (K132.p.fin = true) ∧
    (State.cwCount K132.p K132.b ≤ K132.p.cwDone) :=
  by unfold OpIs; decide +kernel

namespace K133
def op0 : Op :=
  { id := 5, kind := .mma, core := 0, team := some 1, who := .thread 0, ctx := 0, epoch := 0, sys := false, prio := 0,
      blkAddr := 0x400080, blk := W.mmaBlk, srcRec := W.planeRec 1 1 2048 0x2000 0x3000 4096, dstRec := [], mask := 8,
      set? := some 3, st := .queued, cursor := 0, sub := 0, rbuf := [], srcb := [], landed := 0, cwDone := 0, fin :=
      false, sat := false, nan := false, crcErr := false, view := [], q := [], spans := [], merge :=
      ⟨false,false,false,0,0,[]⟩, snap := [], lines := [] }
def m0 : State :=
  { W.withMem (W.seqMem ++ [(0x800080, W.sliceBlk),(0x102018, leBytes 8 (0xA00 * 2 ^ 24 + 0x9007))]) with teams := [{W.team1 with spSize := 0x10000, spBase := 0, nacc := 1, tiles := [2], slots := W.team1.slots.set 3 ⟨7,5,true,false,true⟩}], acc := [(State.accKey 0 2 4,7),(State.accKey 0 3 0,9)], cores := updAt State.reset.cores 0 fun c => {c with locks := [⟨5,0,true,false,[(1,2)]⟩,⟨6,0,true,false,[(1,2)]⟩]}, spad := Memory.setMany (Memory.setMany (Memory.setMany (Memory.setMany (Memory.setMany [] (State.spKey 0 0x1000) [1,2,3,0xFF,5]) (State.spKey 0 0x2000) [0,0,1,1]) (State.spKey 0 0x3000) [0xFF,0x0F,1,2,3,4,5,6,7]) (State.spKey 0 0x4000) [0x55,0xAA,0x35,7]) (State.spKey 0 0x5000) [0x11,0x22,0x33,0x44] }
def tens (esz b : Nat) : List Byte :=
  leBytes 64 (W.fields [(0, 0x54), (8,1), (10, esz), (12, 1), (64, b), (128, 64), (160, 1), (192, 1), (224, 1), (256,
      4)])
def pblk (func : Nat) : List Byte :=
  leBytes 128 (W.fields [(0, 0x43), (8, func), (256,3),(384,4),(512, 8), (544, 1), (576, 1), (608, 1),(640,0x12345678)])
def s : State :=
  { m0 with ops := [{op0 with kind := .peel, blk := pblk 0, srcRec := tens 2 0x4ff4, dstRec := tens 2 0x5000, st := .running, cursor := 8, fin := true},{op0 with id := 6}] }
def o := 5
def p : Op := (s.op? 5).getD op0
def b : PeelBlk := PeelBlk.ofNat (leNat p.blk)
end K133
theorem witness_EngineEvents_6 :
    (OpIs K133.s K133.o K133.p OpKind.peel) ∧
    (K133.b = PeelBlk.ofNat (leNat K133.p.blk)) ∧
    (K133.p.st = OpSt.running) ∧
    (K133.s.itemCount K133.p K133.b ≤ K133.p.cursor) ∧
    (K133.p.fin = true) ∧
    (State.cwCount K133.p K133.b ≤ K133.p.cwDone) :=
  by unfold OpIs; decide +kernel

namespace K134
def op0 : Op :=
  { id := 5, kind := .mma, core := 0, team := some 1, who := .thread 0, ctx := 0, epoch := 0, sys := false, prio := 0,
      blkAddr := 0x400080, blk := W.mmaBlk, srcRec := W.planeRec 1 1 2048 0x2000 0x3000 4096, dstRec := [], mask := 8,
      set? := some 3, st := .queued, cursor := 0, sub := 0, rbuf := [], srcb := [], landed := 0, cwDone := 0, fin :=
      false, sat := false, nan := false, crcErr := false, view := [], q := [], spans := [], merge :=
      ⟨false,false,false,0,0,[]⟩, snap := [], lines := [] }
def m0 : State :=
  { W.withMem (W.seqMem ++ [(0x800080, W.sliceBlk),(0x102018, leBytes 8 (0xA00 * 2 ^ 24 + 0x9007))]) with teams := [{W.team1 with spSize := 0x10000, spBase := 0, nacc := 1, tiles := [2], slots := W.team1.slots.set 3 ⟨7,5,true,false,true⟩}], acc := [(State.accKey 0 2 4,7),(State.accKey 0 3 0,9)], cores := updAt State.reset.cores 0 fun c => {c with locks := [⟨5,0,true,false,[(1,2)]⟩,⟨6,0,true,false,[(1,2)]⟩]}, spad := Memory.setMany (Memory.setMany (Memory.setMany (Memory.setMany (Memory.setMany [] (State.spKey 0 0x1000) [1,2,3,0xFF,5]) (State.spKey 0 0x2000) [0,0,1,1]) (State.spKey 0 0x3000) [0xFF,0x0F,1,2,3,4,5,6,7]) (State.spKey 0 0x4000) [0x55,0xAA,0x35,7]) (State.spKey 0 0x5000) [0x11,0x22,0x33,0x44] }
def s : State := { m0 with ops := [{op0 with st := .queued, mask := 4},{op0 with id := 6}] }
def o := 5
def p : Op := (s.op? 5).getD op0
end K134
theorem witness_EngineEvents_7 :
    (K134.s.op? K134.o = some K134.p) ∧
    (K134.p.kind = OpKind.mma) ∧
    (K134.s.mmaReady K134.p = true) :=
  by decide +kernel

namespace K135
def op0 : Op :=
  { id := 5, kind := .mma, core := 0, team := some 1, who := .thread 0, ctx := 0, epoch := 0, sys := false, prio := 0,
      blkAddr := 0x400080, blk := W.mmaBlk, srcRec := W.planeRec 1 1 2048 0x2000 0x3000 4096, dstRec := [], mask := 8,
      set? := some 3, st := .queued, cursor := 0, sub := 0, rbuf := [], srcb := [], landed := 0, cwDone := 0, fin :=
      false, sat := false, nan := false, crcErr := false, view := [], q := [], spans := [], merge :=
      ⟨false,false,false,0,0,[]⟩, snap := [], lines := [] }
def m0 : State :=
  { W.withMem (W.seqMem ++ [(0x800080, W.sliceBlk),(0x102018, leBytes 8 (0xA00 * 2 ^ 24 + 0x9007))]) with teams := [{W.team1 with spSize := 0x10000, spBase := 0, nacc := 1, tiles := [2], slots := W.team1.slots.set 3 ⟨7,5,true,false,true⟩}], acc := [(State.accKey 0 2 4,7),(State.accKey 0 3 0,9)], cores := updAt State.reset.cores 0 fun c => {c with locks := [⟨5,0,true,false,[(1,2)]⟩,⟨6,0,true,false,[(1,2)]⟩]}, spad := Memory.setMany (Memory.setMany (Memory.setMany (Memory.setMany (Memory.setMany [] (State.spKey 0 0x1000) [1,2,3,0xFF,5]) (State.spKey 0 0x2000) [0,0,1,1]) (State.spKey 0 0x3000) [0xFF,0x0F,1,2,3,4,5,6,7]) (State.spKey 0 0x4000) [0x55,0xAA,0x35,7]) (State.spKey 0 0x5000) [0x11,0x22,0x33,0x44] }
def sp0 : Op :=
  {op0 with kind := .slice, mask := 4, blk := W.sliceBlk, srcRec := W.planeRec 1 0 2048 0x410000 0x420000 2097152 ++ W.planeRec 1 0 2048 0x411000 0x421000 2097152, dstRec := leBytes 64 (W.fields [(0, 0x57), (16, 1), (24, 1), (64, 2), (96, 2), (128, 0x403400), (192, 0x403440), (256, 0x403500)]), view := [(0,3),(1,2)]}
def s : State := { m0 with ops := [{sp0 with st := .running, spans := [(0,.held false 3 4 [5,6])]},{op0 with id := 6}] }
def o := 5
def p : Op := (s.op? 5).getD op0
def c := 0
def m : Nat := 3
def l : Nat := 4
def a : List Nat := [5,6]
end K135
theorem witness_SliceEvents_1 :
    (OpIs K135.s K135.o K135.p OpKind.slice) ∧
    (K135.p.st = OpSt.running) ∧
    (List.find? (fun y => y.fst == K135.c) K135.p.spans = some (K135.c, SpanSt.held false K135.m K135.l K135.a)) ∧
    (State.spanTurn K135.p K135.c = true) :=
  by unfold OpIs; decide +kernel

namespace K136
def op0 : Op :=
  { id := 5, kind := .mma, core := 0, team := some 1, who := .thread 0, ctx := 0, epoch := 0, sys := false, prio := 0,
      blkAddr := 0x400080, blk := W.mmaBlk, srcRec := W.planeRec 1 1 2048 0x2000 0x3000 4096, dstRec := [], mask := 8,
      set? := some 3, st := .queued, cursor := 0, sub := 0, rbuf := [], srcb := [], landed := 0, cwDone := 0, fin :=
      false, sat := false, nan := false, crcErr := false, view := [], q := [], spans := [], merge :=
      ⟨false,false,false,0,0,[]⟩, snap := [], lines := [] }
def m0 : State :=
  { W.withMem (W.seqMem ++ [(0x800080, W.sliceBlk),(0x102018, leBytes 8 (0xA00 * 2 ^ 24 + 0x9007))]) with teams := [{W.team1 with spSize := 0x10000, spBase := 0, nacc := 1, tiles := [2], slots := W.team1.slots.set 3 ⟨7,5,true,false,true⟩}], acc := [(State.accKey 0 2 4,7),(State.accKey 0 3 0,9)], cores := updAt State.reset.cores 0 fun c => {c with locks := [⟨5,0,true,false,[(1,2)]⟩,⟨6,0,true,false,[(1,2)]⟩]}, spad := Memory.setMany (Memory.setMany (Memory.setMany (Memory.setMany (Memory.setMany [] (State.spKey 0 0x1000) [1,2,3,0xFF,5]) (State.spKey 0 0x2000) [0,0,1,1]) (State.spKey 0 0x3000) [0xFF,0x0F,1,2,3,4,5,6,7]) (State.spKey 0 0x4000) [0x55,0xAA,0x35,7]) (State.spKey 0 0x5000) [0x11,0x22,0x33,0x44] }
def sp0 : Op :=
  {op0 with kind := .slice, mask := 4, blk := W.sliceBlk, srcRec := W.planeRec 1 0 2048 0x410000 0x420000 2097152 ++ W.planeRec 1 0 2048 0x411000 0x421000 2097152, dstRec := leBytes 64 (W.fields [(0, 0x57), (16, 1), (24, 1), (64, 2), (96, 2), (128, 0x403400), (192, 0x403440), (256, 0x403500)]), view := [(0,3),(1,2)]}
def s : State := { m0 with ops := [{sp0 with st := .running, spans := [(0,.walking none 0)]},{op0 with id := 6}] }
def o := 5
def p : Op := (s.op? 5).getD op0
def c := 0
def x : SpanSt := .walking none 0
def y : State → State → Op := fun s s' => (s'.op? 5).getD op0
end K136
theorem witness_SliceEvents_2 :
    (K136.s.walkSpan K136.p K136.c (State.spanAddrs K136.p K136.c) = ((K136.s.walkSpan K136.p K136.c (State.spanAddrs
      K136.p K136.c)).fst, Except.ok ())) ∧
    (OpIs K136.s K136.o K136.p OpKind.slice) ∧
    (K136.p.st = OpSt.running) ∧
    (List.find? (fun y => K136.s.spanWalks y.snd) K136.p.spans = some (K136.c, K136.x)) ∧
    ((nextOf (exec (Instr.spanClaim K136.o) K136.s)).op? K136.o = some (K136.y K136.s (nextOf (exec (Instr.spanClaim
      K136.o) K136.s)))) :=
  ⟨pair_ok rfl (by decide +kernel),
   by unfold OpIs; decide +kernel⟩

namespace K137
def op0 : Op :=
  { id := 5, kind := .mma, core := 0, team := some 1, who := .thread 0, ctx := 0, epoch := 0, sys := false, prio := 0,
      blkAddr := 0x400080, blk := W.mmaBlk, srcRec := W.planeRec 1 1 2048 0x2000 0x3000 4096, dstRec := [], mask := 8,
      set? := some 3, st := .queued, cursor := 0, sub := 0, rbuf := [], srcb := [], landed := 0, cwDone := 0, fin :=
      false, sat := false, nan := false, crcErr := false, view := [], q := [], spans := [], merge :=
      ⟨false,false,false,0,0,[]⟩, snap := [], lines := [] }
def m0 : State :=
  { W.withMem (W.seqMem ++ [(0x800080, W.sliceBlk),(0x102018, leBytes 8 (0xA00 * 2 ^ 24 + 0x9007))]) with teams := [{W.team1 with spSize := 0x10000, spBase := 0, nacc := 1, tiles := [2], slots := W.team1.slots.set 3 ⟨7,5,true,false,true⟩}], acc := [(State.accKey 0 2 4,7),(State.accKey 0 3 0,9)], cores := updAt State.reset.cores 0 fun c => {c with locks := [⟨5,0,true,false,[(1,2)]⟩,⟨6,0,true,false,[(1,2)]⟩]}, spad := Memory.setMany (Memory.setMany (Memory.setMany (Memory.setMany (Memory.setMany [] (State.spKey 0 0x1000) [1,2,3,0xFF,5]) (State.spKey 0 0x2000) [0,0,1,1]) (State.spKey 0 0x3000) [0xFF,0x0F,1,2,3,4,5,6,7]) (State.spKey 0 0x4000) [0x55,0xAA,0x35,7]) (State.spKey 0 0x5000) [0x11,0x22,0x33,0x44] }
def sp0 : Op :=
  {op0 with kind := .slice, mask := 4, blk := W.sliceBlk, srcRec := W.planeRec 1 0 2048 0x410000 0x420000 2097152 ++ W.planeRec 1 0 2048 0x411000 0x421000 2097152, dstRec := leBytes 64 (W.fields [(0, 0x57), (16, 1), (24, 1), (64, 2), (96, 2), (128, 0x403400), (192, 0x403440), (256, 0x403500)]), view := [(0,3),(1,2)]}
def s : State :=
  { m0 with ops := [{sp0 with st := .running, fin := true, sub := 4, spans := [(0,.ended)]},{op0 with id := 6}] }
def o := 5
def p : Op := (s.op? 5).getD op0
end K137
theorem witness_SliceEvents_3 :
    (OpIs K137.s K137.o K137.p OpKind.slice) ∧
    (K137.p.st = OpSt.running) ∧
    (K137.p.fin = true) ∧
    (State.opBusy K137.p = 0) ∧
    (K137.p.sub = 4) :=
  by unfold OpIs; decide +kernel

namespace K138
def op0 : Op :=
  { id := 5, kind := .mma, core := 0, team := some 1, who := .thread 0, ctx := 0, epoch := 0, sys := false, prio := 0,
      blkAddr := 0x400080, blk := W.mmaBlk, srcRec := W.planeRec 1 1 2048 0x2000 0x3000 4096, dstRec := [], mask := 8,
      set? := some 3, st := .queued, cursor := 0, sub := 0, rbuf := [], srcb := [], landed := 0, cwDone := 0, fin :=
      false, sat := false, nan := false, crcErr := false, view := [], q := [], spans := [], merge :=
      ⟨false,false,false,0,0,[]⟩, snap := [], lines := [] }
def m0 : State :=
  { W.withMem (W.seqMem ++ [(0x800080, W.sliceBlk),(0x102018, leBytes 8 (0xA00 * 2 ^ 24 + 0x9007))]) with teams := [{W.team1 with spSize := 0x10000, spBase := 0, nacc := 1, tiles := [2], slots := W.team1.slots.set 3 ⟨7,5,true,false,true⟩}], acc := [(State.accKey 0 2 4,7),(State.accKey 0 3 0,9)], cores := updAt State.reset.cores 0 fun c => {c with locks := [⟨5,0,true,false,[(1,2)]⟩,⟨6,0,true,false,[(1,2)]⟩]}, spad := Memory.setMany (Memory.setMany (Memory.setMany (Memory.setMany (Memory.setMany [] (State.spKey 0 0x1000) [1,2,3,0xFF,5]) (State.spKey 0 0x2000) [0,0,1,1]) (State.spKey 0 0x3000) [0xFF,0x0F,1,2,3,4,5,6,7]) (State.spKey 0 0x4000) [0x55,0xAA,0x35,7]) (State.spKey 0 0x5000) [0x11,0x22,0x33,0x44] }
def sp0 : Op :=
  {op0 with kind := .slice, mask := 4, blk := W.sliceBlk, srcRec := W.planeRec 1 0 2048 0x410000 0x420000 2097152 ++ W.planeRec 1 0 2048 0x411000 0x421000 2097152, dstRec := leBytes 64 (W.fields [(0, 0x57), (16, 1), (24, 1), (64, 2), (96, 2), (128, 0x403400), (192, 0x403440), (256, 0x403500)]), view := [(0,3),(1,2)]}
def s : State := { m0 with ops := [{sp0 with st := .failed 6, sub := 4, cwDone := 2},{op0 with id := 6}] }
def o := 5
def p : Op := (s.op? 5).getD op0
end K138
theorem witness_SliceEvents_4 :
    (OpIs K138.s K138.o K138.p OpKind.slice) ∧
    (K138.p.st = OpSt.failed 6) ∧
    (K138.p.sub = 4) ∧
    (K138.p.cwDone ≠ 3) :=
  by unfold OpIs; decide +kernel

namespace K139
def op0 : Op :=
  { id := 5, kind := .mma, core := 0, team := some 1, who := .thread 0, ctx := 0, epoch := 0, sys := false, prio := 0,
      blkAddr := 0x400080, blk := W.mmaBlk, srcRec := W.planeRec 1 1 2048 0x2000 0x3000 4096, dstRec := [], mask := 8,
      set? := some 3, st := .queued, cursor := 0, sub := 0, rbuf := [], srcb := [], landed := 0, cwDone := 0, fin :=
      false, sat := false, nan := false, crcErr := false, view := [], q := [], spans := [], merge :=
      ⟨false,false,false,0,0,[]⟩, snap := [], lines := [] }
def m0 : State :=
  { W.withMem (W.seqMem ++ [(0x800080, W.sliceBlk),(0x102018, leBytes 8 (0xA00 * 2 ^ 24 + 0x9007))]) with teams := [{W.team1 with spSize := 0x10000, spBase := 0, nacc := 1, tiles := [2], slots := W.team1.slots.set 3 ⟨7,5,true,false,true⟩}], acc := [(State.accKey 0 2 4,7),(State.accKey 0 3 0,9)], cores := updAt State.reset.cores 0 fun c => {c with locks := [⟨5,0,true,false,[(1,2)]⟩,⟨6,0,true,false,[(1,2)]⟩]}, spad := Memory.setMany (Memory.setMany (Memory.setMany (Memory.setMany (Memory.setMany [] (State.spKey 0 0x1000) [1,2,3,0xFF,5]) (State.spKey 0 0x2000) [0,0,1,1]) (State.spKey 0 0x3000) [0xFF,0x0F,1,2,3,4,5,6,7]) (State.spKey 0 0x4000) [0x55,0xAA,0x35,7]) (State.spKey 0 0x5000) [0x11,0x22,0x33,0x44] }
def sp0 : Op :=
  {op0 with kind := .slice, mask := 4, blk := W.sliceBlk, srcRec := W.planeRec 1 0 2048 0x410000 0x420000 2097152 ++ W.planeRec 1 0 2048 0x411000 0x421000 2097152, dstRec := leBytes 64 (W.fields [(0, 0x57), (16, 1), (24, 1), (64, 2), (96, 2), (128, 0x403400), (192, 0x403440), (256, 0x403500)]), view := [(0,3),(1,2)]}
def s : State := { m0 with ops := [{sp0 with st := .queued},{op0 with id := 6}] }
def o := 5
def p : Op := (s.op? 5).getD op0
def r : Nat → State :=
  fun k => (List.range k).foldl (fun z i => (z.engRead p 0 (((State.sliceBlk p).q + 4 * i) % 2 ^ 64) 4 false).1) s
def f : Nat → List Byte := fun i => match ((r i).engRead p 0 (((State.sliceBlk p).q + 4 * i) % 2 ^ 64) 4 false).2 with | .ok b => b | _ => []
end K139
theorem witness_SliceEvents_5 :
    (∀ (i : Nat), i < State.sliceHd K139.p → (K139.r i).engRead K139.p 0 (((State.sliceBlk K139.p).q + 4 * i) % 2 ^
      64) 4 false = (K139.r (i + 1), Except.ok (K139.f i))) ∧
    (OpIs K139.s K139.o K139.p OpKind.slice) ∧
    (K139.s.mayStart K139.p = true) ∧
    (K139.r 0 = K139.s) :=
  ⟨pairs_ok (by intro i; simp [K139.r, List.range_succ]) (by decide +kernel),
   by unfold OpIs; decide +kernel⟩

namespace K140
def op0 : Op :=
  { id := 5, kind := .mma, core := 0, team := some 1, who := .thread 0, ctx := 0, epoch := 0, sys := false, prio := 0,
      blkAddr := 0x400080, blk := W.mmaBlk, srcRec := W.planeRec 1 1 2048 0x2000 0x3000 4096, dstRec := [], mask := 8,
      set? := some 3, st := .queued, cursor := 0, sub := 0, rbuf := [], srcb := [], landed := 0, cwDone := 0, fin :=
      false, sat := false, nan := false, crcErr := false, view := [], q := [], spans := [], merge :=
      ⟨false,false,false,0,0,[]⟩, snap := [], lines := [] }
def m0 : State :=
  { W.withMem (W.seqMem ++ [(0x800080, W.sliceBlk),(0x102018, leBytes 8 (0xA00 * 2 ^ 24 + 0x9007))]) with teams := [{W.team1 with spSize := 0x10000, spBase := 0, nacc := 1, tiles := [2], slots := W.team1.slots.set 3 ⟨7,5,true,false,true⟩}], acc := [(State.accKey 0 2 4,7),(State.accKey 0 3 0,9)], cores := updAt State.reset.cores 0 fun c => {c with locks := [⟨5,0,true,false,[(1,2)]⟩,⟨6,0,true,false,[(1,2)]⟩]}, spad := Memory.setMany (Memory.setMany (Memory.setMany (Memory.setMany (Memory.setMany [] (State.spKey 0 0x1000) [1,2,3,0xFF,5]) (State.spKey 0 0x2000) [0,0,1,1]) (State.spKey 0 0x3000) [0xFF,0x0F,1,2,3,4,5,6,7]) (State.spKey 0 0x4000) [0x55,0xAA,0x35,7]) (State.spKey 0 0x5000) [0x11,0x22,0x33,0x44] }
def sp0 : Op :=
  {op0 with kind := .slice, mask := 4, blk := W.sliceBlk, srcRec := W.planeRec 1 0 2048 0x410000 0x420000 2097152 ++ W.planeRec 1 0 2048 0x411000 0x421000 2097152, dstRec := leBytes 64 (W.fields [(0, 0x57), (16, 1), (24, 1), (64, 2), (96, 2), (128, 0x403400), (192, 0x403440), (256, 0x403500)]), view := [(0,3),(1,2)]}
def s : State :=
  { { m0 with mem := Memory.setMany m0.mem 0x8000B4 [2,0,0,0] } with ops := [{sp0 with st := .running, spans := [(0,.ended),(1,.ended)]},{op0 with id := 6}] }
def o := 5
def p : Op := (s.op? 5).getD op0
def pa := 0x8000B4
def leaf : Leaf := match (s.engLoc p ((p.blkAddr + 52) % 2 ^ 64) true false).2 with | .ok (_, l) => l | _ => W.leaf
def s2 : State := ((s.engLoc p ((p.blkAddr + 52) % 2 ^ 64) true false).1.engHome p 0x8000B4 4 leaf true false false).1
def l : Nat := 4
end K140
theorem witness_SliceEvents_6 :
    (K140.s.engLoc K140.p ((K140.p.blkAddr + 52) % 2 ^ 64) true false = ((K140.s.engLoc K140.p ((K140.p.blkAddr + 52)
      % 2 ^ 64) true false).fst, Except.ok (Loc.mem K140.pa, K140.leaf))) ∧
    ((K140.s.engLoc K140.p ((K140.p.blkAddr + 52) % 2 ^ 64) true false).fst.engHome K140.p K140.pa 4 K140.leaf true
      false false = (K140.s2, Except.ok ())) ∧
    (OpIs K140.s K140.o K140.p OpKind.slice) ∧
    (K140.p.st = OpSt.running) ∧
    (List.find? (fun y => K140.s.spanWalks y.snd) K140.p.spans = none) ∧
    (K140.s.wantsSlicer K140.p = true) ∧
    (K140.s.slicerFree K140.p = true) ∧
    (K140.pa % 4 = 0) ∧
    (K140.pa + 4 ≤ Config.hbmTop) ∧
    (Memory.wf K140.s2.mem = true) ∧
    (State.sliceSpans K140.p ≤ leNat (K140.s2.rdBytes K140.pa 4)) :=
  ⟨pair_ok rfl (by decide +kernel),
   pair_ok rfl (by decide +kernel),
   by unfold OpIs; decide +kernel⟩

namespace K141
def nodeRec (ty cnt : Nat) (suc : List Nat) (arg v : Nat) (irq : Bool) : List Byte :=
  leBytes 64 (W.fields ([(0,0x4E),(8,ty),(16,cnt),(32,suc.length),(36,9),(41,b2n irq),(192,arg),(256,v)] ++
      suc.zipIdx.map fun x => (64 + 16 * x.2, x.1)))
def qs : List Queue :=
  setAt State.reset.cp.queues 2
      { Queue.reset with base := 0x808000, ctx := 0, en := true, qlog := 3, head := 5, bell := 5 }
def base : State :=
  { W.withMem ([(0x810000, leBytes 128 (W.fields [(0,0x58),(8,3),(64,1),(96,7),(192,0x100000),(256,0x600000),(512,0x40000000)])),(0x809000, nodeRec 3 0 [1] 0x404000 5 true),(0x809040, nodeRec 0 1 [] 0x404000 5 false), (0x80A000, W.launchRec 0),(0x80B000, W.fillBlk),(0x801000, W.tensRec),(0x80C000, W.sliceBlk)]) with cp := { State.reset.cp with stat := 1, jnl := ⟨0xC00000,6,0,0⟩, queues := qs }, dev := { State.reset.dev with ready := true } }
def s : State :=
  { base with cp := { base.cp with queues := setAt qs 2 { qs.getD 2 Queue.reset with ents := [leBytes 64 2, [7]] } } }
def id := 3
def rpa := 0x810
def q := 2
def tail := 7
def e : Nat := (s.nextEntry q).getD 0
def qu : Queue := s.queue q
end K141
theorem witness_CommandProcessorEvents_1 :
    (K141.s.dev.ready = true) ∧
    (K141.s.dev.fatal = false) ∧
    (K141.id < 16) ∧
    (K141.s.cp.stat ≠ 0) ∧
    (K141.s.cpRoom = true) ∧
    (if Config.hbmTop < K141.rpa * 4096 + 128 ∨ K141.s.ueIn (K141.rpa * 4096) 128 = true then some (K141.s.rdBytes
      (K141.rpa * 4096) 128) = none else some (K141.s.rdBytes (K141.rpa * 4096) 128) = some (K141.s.rdBytes (K141.rpa
      * 4096) 128)) ∧
    (K141.s.createWhy K141.id (some (K141.s.rdBytes (K141.rpa * 4096) 128)) = 0) ∧
    (K141.s.hasCtx K141.id = false) ∧
    (K141.q < 64) ∧
    (K141.q < K141.s.cp.queues.length) ∧
    (K141.qu = K141.s.queue K141.q) ∧
    (K141.qu.en = true) ∧
    (K141.tail ≠ K141.qu.bell) ∧
    (K141.tail < 2 ^ 32) ∧
    (K141.qu.head < 2 ^ 32) ∧
    ((K141.tail + 2 ^ 32 - K141.qu.head) % 2 ^ 32 ≤ 2 ^ K141.qu.qlog) ∧
    (∀ (i : Nat), i < (K141.tail + 2 ^ 32 - K141.qu.head) % 2 ^ 32 → K141.s.ueIn (K141.qu.base + 64 * ((K141.qu.head +
      i) % 2 ^ K141.qu.qlog)) 64 = false) ∧
    (K141.qu.base + 64 * 2 ^ K141.qu.qlog ≤ Config.hbmTop) ∧
    (K141.s.nextEntry K141.q = some K141.e) ∧
    (State.entryOk K141.e = false) ∧
    (K141.s.cp.snap = 0) ∧
    (K141.s.cp.jseq < 2 ^ 32) :=
  by decide +kernel

namespace K142
def nodeRec (ty cnt : Nat) (suc : List Nat) (arg v : Nat) (irq : Bool) : List Byte :=
  leBytes 64 (W.fields ([(0,0x4E),(8,ty),(16,cnt),(32,suc.length),(36,9),(41,b2n irq),(192,arg),(256,v)] ++
      suc.zipIdx.map fun x => (64 + 16 * x.2, x.1)))
def qs : List Queue :=
  setAt State.reset.cp.queues 2
      { Queue.reset with base := 0x808000, ctx := 0, en := true, qlog := 3, head := 5, bell := 5 }
def base : State :=
  { W.withMem ([(0x810000, leBytes 128 (W.fields [(0,0x58),(8,3),(64,1),(96,7),(192,0x100000),(256,0x600000),(512,0x40000000)])),(0x809000, nodeRec 3 0 [1] 0x404000 5 true),(0x809040, nodeRec 0 1 [] 0x404000 5 false), (0x80A000, W.launchRec 0),(0x80B000, W.fillBlk),(0x801000, W.tensRec),(0x80C000, W.sliceBlk)]) with cp := { State.reset.cp with stat := 1, jnl := ⟨0xC00000,6,0,0⟩, queues := qs }, dev := { State.reset.dev with ready := true } }
def s : State := base
def id := 0
def rpa := 0x810
end K142
theorem witness_CommandProcessorEvents_2 :
    (K142.s.dev.ready = true) ∧
    (K142.s.dev.fatal = false) ∧
    (K142.id < 16) ∧
    (K142.s.cp.stat ≠ 0) ∧
    (K142.s.cpRoom = true) ∧
    (if Config.hbmTop < K142.rpa * 4096 + 128 ∨ K142.s.ueIn (K142.rpa * 4096) 128 = true then some (K142.s.rdBytes
      (K142.rpa * 4096) 128) = none else some (K142.s.rdBytes (K142.rpa * 4096) 128) = some (K142.s.rdBytes (K142.rpa
      * 4096) 128)) ∧
    (K142.s.createWhy K142.id (some (K142.s.rdBytes (K142.rpa * 4096) 128)) ≠ 0) ∧
    (K142.s.hasCtx K142.id = true) ∧
    ((K142.s.cx K142.id).killing = none) ∧
    (K142.s.ctxOfThread 0 = K142.id) :=
  by decide +kernel

namespace K143
def nodeRec (ty cnt : Nat) (suc : List Nat) (arg v : Nat) (irq : Bool) : List Byte :=
  leBytes 64 (W.fields ([(0,0x4E),(8,ty),(16,cnt),(32,suc.length),(36,9),(41,b2n irq),(192,arg),(256,v)] ++
      suc.zipIdx.map fun x => (64 + 16 * x.2, x.1)))
def qs : List Queue :=
  setAt State.reset.cp.queues 2
      { Queue.reset with base := 0x808000, ctx := 0, en := true, qlog := 3, head := 5, bell := 5 }
def base : State :=
  { W.withMem ([(0x810000, leBytes 128 (W.fields [(0,0x58),(8,3),(64,1),(96,7),(192,0x100000),(256,0x600000),(512,0x40000000)])),(0x809000, nodeRec 3 0 [1] 0x404000 5 true),(0x809040, nodeRec 0 1 [] 0x404000 5 false), (0x80A000, W.launchRec 0),(0x80B000, W.fillBlk),(0x801000, W.tensRec),(0x80C000, W.sliceBlk)]) with cp := { State.reset.cp with stat := 1, jnl := ⟨0xC00000,6,0,0⟩, queues := qs }, dev := { State.reset.dev with ready := true } }
def gr (ns : List Node) : Graph := ⟨7,2,0,0x409000,55,false,false,ns⟩
def s : State :=
  { base with cp := { base.cp with graphs := [gr [⟨nodeRec 3 0 [1] 0x404000 77 true,0,.waiting,none⟩]] } }
def q := 2
def e : Nat := (s.nextEntry q).getD 0
def k := 7
def n := 0
def core := 5
def x : Graph := (s.graph? k).getD (gr [])
def y : Node := x.nodes.getD n ⟨[],0,.waiting,none⟩
def v : Nat := leNat y.rec_
def a : Nat := State.nodeArg v
def ie : IssEnv := ⟨.node k n, core, 0, x.ctx, none⟩
def pa := 0x804000
def leaf : Leaf := (match s.cpLoc (.node k n) x.ctx a true false with | (_, .ok (_, l)) => l | _ => W.leaf)
def s1 : State := (s.cpLoc (.node k n) x.ctx a true false).1
def l : List Node := match (State.readNodes q (s.queue q).ctx (bits e 127 64) (bits e 43 32) (bits e 43 32) s 0 []).2 with | .ok (.ok l) => l | _ => []
def ie0 : IssEnv := { who := Who.node k n, core := core, quad := 0, ctx := x.ctx, team := none }
end K143
theorem witness_CommandProcessorEvents_3 :
    (K143.s.cpLoc (Who.node K143.k K143.n) K143.x.ctx K143.a true false = (K143.s1, Except.ok (Loc.mem K143.pa,
      K143.leaf))) ∧
    (K143.a = State.nodeArg K143.v) ∧
    (K143.ie = K143.ie0) ∧
    (K143.s.startable K143.k K143.n 3 = some (K143.x, K143.v)) ∧
    (K143.s1.ueHits (Loc.mem K143.pa) 8 true = []) ∧
    (K143.pa + 8 ≤ Config.hbmTop) ∧
    (Memory.wf K143.s1.mem = true) ∧
    (bitOf K143.v 41 = true) :=
  ⟨pair_ok rfl (by decide +kernel),
   by decide +kernel⟩

namespace K144
def nodeRec (ty cnt : Nat) (suc : List Nat) (arg v : Nat) (irq : Bool) : List Byte :=
  leBytes 64 (W.fields ([(0,0x4E),(8,ty),(16,cnt),(32,suc.length),(36,9),(41,b2n irq),(192,arg),(256,v)] ++
      suc.zipIdx.map fun x => (64 + 16 * x.2, x.1)))
def qs : List Queue :=
  setAt State.reset.cp.queues 2
      { Queue.reset with base := 0x808000, ctx := 0, en := true, qlog := 3, head := 5, bell := 5 }
def base : State :=
  { W.withMem ([(0x810000, leBytes 128 (W.fields [(0,0x58),(8,3),(64,1),(96,7),(192,0x100000),(256,0x600000),(512,0x40000000)])),(0x809000, nodeRec 3 0 [1] 0x404000 5 true),(0x809040, nodeRec 0 1 [] 0x404000 5 false), (0x80A000, W.launchRec 0),(0x80B000, W.fillBlk),(0x801000, W.tensRec),(0x80C000, W.sliceBlk)]) with cp := { State.reset.cp with stat := 1, jnl := ⟨0xC00000,6,0,0⟩, queues := qs }, dev := { State.reset.dev with ready := true } }
def s : State := { base with dev := State.reset.dev }
end K144
theorem witness_CommandProcessorEvents_4 :
    (K144.s.dev.ready = false) :=
  by decide +kernel

namespace K145
def nodeRec (ty cnt : Nat) (suc : List Nat) (arg v : Nat) (irq : Bool) : List Byte :=
  leBytes 64 (W.fields ([(0,0x4E),(8,ty),(16,cnt),(32,suc.length),(36,9),(41,b2n irq),(192,arg),(256,v)] ++
      suc.zipIdx.map fun x => (64 + 16 * x.2, x.1)))
def qs : List Queue :=
  setAt State.reset.cp.queues 2
      { Queue.reset with base := 0x808000, ctx := 0, en := true, qlog := 3, head := 5, bell := 5 }
def base : State :=
  { W.withMem ([(0x810000, leBytes 128 (W.fields [(0,0x58),(8,3),(64,1),(96,7),(192,0x100000),(256,0x600000),(512,0x40000000)])),(0x809000, nodeRec 3 0 [1] 0x404000 5 true),(0x809040, nodeRec 0 1 [] 0x404000 5 false), (0x80A000, W.launchRec 0),(0x80B000, W.fillBlk),(0x801000, W.tensRec),(0x80C000, W.sliceBlk)]) with cp := { State.reset.cp with stat := 1, jnl := ⟨0xC00000,6,0,0⟩, queues := qs }, dev := { State.reset.dev with ready := true } }
def s : State :=
  { base with cp := { base.cp with queues := setAt qs 2 { qs.getD 2 Queue.reset with ents := [leBytes 64 (1 + 2 * 2^32 + 0x409000 * 2^64 + 9 * 2^128 + 2^8), [7]] } } }
def q := 2
def e : Nat := (s.nextEntry q).getD 0
def s1 : State := (State.readNodes q (s.queue q).ctx (bits e 127 64) (bits e 43 32) (bits e 43 32) s 0 []).1
def l : List Node := match (State.readNodes q (s.queue q).ctx (bits e 127 64) (bits e 43 32) (bits e 43 32) s 0 []).2 with | .ok (.ok l) => l | _ => []
end K145
theorem witness_CommandProcessorEvents_5 :
    (State.readNodes K145.q (K145.s.queue K145.q).ctx (bits K145.e 127 64) (bits K145.e 43 32) (bits K145.e 43 32)
      K145.s 0 [] = (K145.s1, Except.ok (Except.ok K145.l))) ∧
    (K145.s.nextEntry K145.q = some K145.e) ∧
    (K145.q < K145.s.cp.queues.length) ∧
    (State.entryOk K145.e = true) ∧
    (bits K145.e 7 0 = 1) ∧
    (bits K145.e 43 32 ≠ 0) ∧
    (bits K145.e 127 64 % 64 = 0) :=
  ⟨pair_ok_ok rfl (by decide +kernel),
   by decide +kernel⟩

namespace K146
def nodeRec (ty cnt : Nat) (suc : List Nat) (arg v : Nat) (irq : Bool) : List Byte :=
  leBytes 64 (W.fields ([(0,0x4E),(8,ty),(16,cnt),(32,suc.length),(36,9),(41,b2n irq),(192,arg),(256,v)] ++
      suc.zipIdx.map fun x => (64 + 16 * x.2, x.1)))
def qs : List Queue :=
  setAt State.reset.cp.queues 2
      { Queue.reset with base := 0x808000, ctx := 0, en := true, qlog := 3, head := 5, bell := 5 }
def base : State :=
  { W.withMem ([(0x810000, leBytes 128 (W.fields [(0,0x58),(8,3),(64,1),(96,7),(192,0x100000),(256,0x600000),(512,0x40000000)])),(0x809000, nodeRec 3 0 [1] 0x404000 5 true),(0x809040, nodeRec 0 1 [] 0x404000 5 false), (0x80A000, W.launchRec 0),(0x80B000, W.fillBlk),(0x801000, W.tensRec),(0x80C000, W.sliceBlk)]) with cp := { State.reset.cp with stat := 1, jnl := ⟨0xC00000,6,0,0⟩, queues := qs }, dev := { State.reset.dev with ready := true } }
def s : State := base
def q := 2
def tail := 20
def qu : Queue := s.queue q
end K146
theorem witness_CommandProcessorEvents_6 :
    (K146.q < 64) ∧
    (K146.q < K146.s.cp.queues.length) ∧
    (K146.qu = K146.s.queue K146.q) ∧
    (K146.qu.en = true) ∧
    (K146.tail ≠ K146.qu.bell) ∧
    (K146.tail < 2 ^ 32) ∧
    (K146.s.dev.ready = true) ∧
    (K146.s.cpRoom = true) ∧
    (K146.qu.head < 2 ^ 32) ∧
    (2 ^ K146.qu.qlog < (K146.tail + 2 ^ 32 - K146.qu.head) % 2 ^ 32) :=
  by decide +kernel

namespace K147
def nodeRec (ty cnt : Nat) (suc : List Nat) (arg v : Nat) (irq : Bool) : List Byte :=
  leBytes 64 (W.fields ([(0,0x4E),(8,ty),(16,cnt),(32,suc.length),(36,9),(41,b2n irq),(192,arg),(256,v)] ++
      suc.zipIdx.map fun x => (64 + 16 * x.2, x.1)))
def qs : List Queue :=
  setAt State.reset.cp.queues 2
      { Queue.reset with base := 0x808000, ctx := 0, en := true, qlog := 3, head := 5, bell := 5 }
def base : State :=
  { W.withMem ([(0x810000, leBytes 128 (W.fields [(0,0x58),(8,3),(64,1),(96,7),(192,0x100000),(256,0x600000),(512,0x40000000)])),(0x809000, nodeRec 3 0 [1] 0x404000 5 true),(0x809040, nodeRec 0 1 [] 0x404000 5 false), (0x80A000, W.launchRec 0),(0x80B000, W.fillBlk),(0x801000, W.tensRec),(0x80C000, W.sliceBlk)]) with cp := { State.reset.cp with stat := 1, jnl := ⟨0xC00000,6,0,0⟩, queues := qs }, dev := { State.reset.dev with ready := true } }
def gr (ns : List Node) : Graph := ⟨7,2,0,0x409000,55,false,false,ns⟩
def okOf {α β} (x : Except β α) (d : α) : α := match x with | .ok y => y | _ => d
def s : State :=
  { base with cp := { base.cp with graphs := [gr [⟨nodeRec 0 0 [1] 0x40A000 77 false,0,.waiting,none⟩]] } }
def k := 7
def n := 0
def core := 5
def x : Graph := (s.graph? k).getD (gr [])
def y : Node := x.nodes.getD n ⟨[],0,.waiting,none⟩
def v : Nat := leNat y.rec_
def a : Nat := State.nodeArg v
def ie : IssEnv := ⟨.node k n, core, 0, x.ctx, none⟩
def s1 : State := (s.cpRead (.node k n) x.ctx a 128).1
def r : List Byte := okOf (s.cpRead (.node k n) x.ctx a 128).2 []
def ie0 : IssEnv := { who := Who.node k n, core := core, quad := 0, ctx := x.ctx, team := none }
end K147
theorem witness_CommandProcessorEvents_7 :
    (K147.s.cpRead (Who.node K147.k K147.n) K147.x.ctx K147.a 128 = (K147.s1, Except.ok K147.r)) ∧
    (K147.a = State.nodeArg K147.v) ∧
    (K147.ie = K147.ie0) ∧
    (K147.s.startable K147.k K147.n 0 = some (K147.x, K147.v)) ∧
    (K147.s.isLocal K147.x.ctx K147.a = true) ∧
    ((LaunchRec.ofNat (leNat K147.r)).ok (leNat K147.r) K147.s1.fab.node = true) :=
  ⟨pair_ok rfl (by decide +kernel),
   by decide +kernel⟩

namespace K148
def nodeRec (ty cnt : Nat) (suc : List Nat) (arg v : Nat) (irq : Bool) : List Byte :=
  leBytes 64 (W.fields ([(0,0x4E),(8,ty),(16,cnt),(32,suc.length),(36,9),(41,b2n irq),(192,arg),(256,v)] ++
      suc.zipIdx.map fun x => (64 + 16 * x.2, x.1)))
def qs : List Queue :=
  setAt State.reset.cp.queues 2
      { Queue.reset with base := 0x808000, ctx := 0, en := true, qlog := 3, head := 5, bell := 5 }
def base : State :=
  { W.withMem ([(0x810000, leBytes 128 (W.fields [(0,0x58),(8,3),(64,1),(96,7),(192,0x100000),(256,0x600000),(512,0x40000000)])),(0x809000, nodeRec 3 0 [1] 0x404000 5 true),(0x809040, nodeRec 0 1 [] 0x404000 5 false), (0x80A000, W.launchRec 0),(0x80B000, W.fillBlk),(0x801000, W.tensRec),(0x80C000, W.sliceBlk)]) with cp := { State.reset.cp with stat := 1, jnl := ⟨0xC00000,6,0,0⟩, queues := qs }, dev := { State.reset.dev with ready := true } }
def gr (ns : List Node) : Graph := ⟨7,2,0,0x409000,55,false,false,ns⟩
def s : State := { base with cp := { base.cp with graphs := [gr [⟨nodeRec 3 0 [] 0x404000 77 true,0,.done,none⟩]] } }
def k := 7
def n := 0
def x : Graph := (s.graph? k).getD (gr [])
def y : Node := x.nodes.getD n ⟨[],0,.waiting,none⟩
end K148
theorem witness_CommandProcessorEvents_8 :
    (K148.s.graph? K148.k = some K148.x) ∧
    (K148.s.ctxLives K148.x.ctx = true) ∧
    (K148.x.nodes[K148.n]? = some K148.y) ∧
    (K148.y.st = NodeSt.done) ∧
    (State.nodeSuc (leNat K148.y.rec_) = []) ∧
    (K148.x.nodes = [K148.y]) ∧
    (K148.n = 0) :=
  by decide +kernel

namespace K149
def nodeRec (ty cnt : Nat) (suc : List Nat) (arg v : Nat) (irq : Bool) : List Byte :=
  leBytes 64 (W.fields ([(0,0x4E),(8,ty),(16,cnt),(32,suc.length),(36,9),(41,b2n irq),(192,arg),(256,v)] ++
      suc.zipIdx.map fun x => (64 + 16 * x.2, x.1)))
def qs : List Queue :=
  setAt State.reset.cp.queues 2
      { Queue.reset with base := 0x808000, ctx := 0, en := true, qlog := 3, head := 5, bell := 5 }
def base : State :=
  { W.withMem ([(0x810000, leBytes 128 (W.fields [(0,0x58),(8,3),(64,1),(96,7),(192,0x100000),(256,0x600000),(512,0x40000000)])),(0x809000, nodeRec 3 0 [1] 0x404000 5 true),(0x809040, nodeRec 0 1 [] 0x404000 5 false), (0x80A000, W.launchRec 0),(0x80B000, W.fillBlk),(0x801000, W.tensRec),(0x80C000, W.sliceBlk)]) with cp := { State.reset.cp with stat := 1, jnl := ⟨0xC00000,6,0,0⟩, queues := qs }, dev := { State.reset.dev with ready := true } }
def gr (ns : List Node) : Graph := ⟨7,2,0,0x409000,55,false,false,ns⟩
def s : State :=
  { base with cp := { base.cp with graphs := [gr [⟨nodeRec 3 0 [1] 0x404000 77 true,0,.done,none⟩,⟨nodeRec 3 1 [] 0x404000 77 true,1,.waiting,none⟩]] } }
def k := 7
def n := 0
def x : Graph := (s.graph? k).getD (gr [])
def y : Node := x.nodes.getD n ⟨[],0,.waiting,none⟩
def z : Node := x.nodes.getD 1 ⟨[],0,.waiting,none⟩
end K149
theorem witness_CommandProcessorEvents_9 :
    (K149.s.graph? K149.k = some K149.x) ∧
    (K149.s.ctxLives K149.x.ctx = true) ∧
    (K149.x.nodes[K149.n]? = some K149.y) ∧
    (K149.y.st = NodeSt.done) ∧
    (State.nodeSuc (leNat K149.y.rec_) = [1]) ∧
    (1 ≠ K149.n) ∧
    (K149.x.nodes[1]? = some K149.z) ∧
    (K149.z.st = NodeSt.waiting) ∧
    (K149.z.cnt ≠ 0) ∧
    (K149.x.failed = false) :=
  by decide +kernel

namespace K150
def nodeRec (ty cnt : Nat) (suc : List Nat) (arg v : Nat) (irq : Bool) : List Byte :=
  leBytes 64 (W.fields ([(0,0x4E),(8,ty),(16,cnt),(32,suc.length),(36,9),(41,b2n irq),(192,arg),(256,v)] ++
      suc.zipIdx.map fun x => (64 + 16 * x.2, x.1)))
def qs : List Queue :=
  setAt State.reset.cp.queues 2
      { Queue.reset with base := 0x808000, ctx := 0, en := true, qlog := 3, head := 5, bell := 5 }
def base : State :=
  { W.withMem ([(0x810000, leBytes 128 (W.fields [(0,0x58),(8,3),(64,1),(96,7),(192,0x100000),(256,0x600000),(512,0x40000000)])),(0x809000, nodeRec 3 0 [1] 0x404000 5 true),(0x809040, nodeRec 0 1 [] 0x404000 5 false), (0x80A000, W.launchRec 0),(0x80B000, W.fillBlk),(0x801000, W.tensRec),(0x80C000, W.sliceBlk)]) with cp := { State.reset.cp with stat := 1, jnl := ⟨0xC00000,6,0,0⟩, queues := qs }, dev := { State.reset.dev with ready := true } }
def s : State :=
  { base with cp := { base.cp with queues := setAt qs 2 { qs.getD 2 Queue.reset with ents := [leBytes 64 (1 + 2 * 2^32 + 0x40A000 * 2^64 + 9 * 2^128), [7]] } } }
def q := 2
def e : Nat := (s.nextEntry q).getD 0
def s1 : State := (State.readNodes q (s.queue q).ctx (bits e 127 64) (bits e 43 32) (bits e 43 32) s 0 []).1
end K150
theorem witness_CommandProcessorEvents_10 :
    (State.readNodes K150.q (K150.s.queue K150.q).ctx (bits K150.e 127 64) (bits K150.e 43 32) (bits K150.e 43 32)
      K150.s 0 [] = (K150.s1, Except.ok (Except.error 0))) ∧
    (K150.s.nextEntry K150.q = some K150.e) ∧
    (K150.q < K150.s.cp.queues.length) ∧
    (State.entryOk K150.e = true) ∧
    (bits K150.e 7 0 = 1) ∧
    (bits K150.e 43 32 ≠ 0) ∧
    (bits K150.e 127 64 % 64 = 0) :=
  ⟨pair_ok_error rfl (by decide +kernel),
   by decide +kernel⟩

namespace K151
def nodeRec (ty cnt : Nat) (suc : List Nat) (arg v : Nat) (irq : Bool) : List Byte :=
  leBytes 64 (W.fields ([(0,0x4E),(8,ty),(16,cnt),(32,suc.length),(36,9),(41,b2n irq),(192,arg),(256,v)] ++
      suc.zipIdx.map fun x => (64 + 16 * x.2, x.1)))
def qs : List Queue :=
  setAt State.reset.cp.queues 2
      { Queue.reset with base := 0x808000, ctx := 0, en := true, qlog := 3, head := 5, bell := 5 }
def base : State :=
  { W.withMem ([(0x810000, leBytes 128 (W.fields [(0,0x58),(8,3),(64,1),(96,7),(192,0x100000),(256,0x600000),(512,0x40000000)])),(0x809000, nodeRec 3 0 [1] 0x404000 5 true),(0x809040, nodeRec 0 1 [] 0x404000 5 false), (0x80A000, W.launchRec 0),(0x80B000, W.fillBlk),(0x801000, W.tensRec),(0x80C000, W.sliceBlk)]) with cp := { State.reset.cp with stat := 1, jnl := ⟨0xC00000,6,0,0⟩, queues := qs }, dev := { State.reset.dev with ready := true } }
def s : State :=
  { base with cp := { base.cp with queues := setAt qs 2 { qs.getD 2 Queue.reset with ents := [leBytes 64 0, [7]] } } }
def q := 2
def e : Nat := (s.nextEntry q).getD 0
end K151
theorem witness_CommandProcessorEvents_11 :
    (K151.s.nextEntry K151.q = some K151.e) ∧
    (K151.q < K151.s.cp.queues.length) ∧
    (State.entryOk K151.e = true) ∧
    (bits K151.e 7 0 = 0) :=
  by decide +kernel

namespace K152
def nodeRec (ty cnt : Nat) (suc : List Nat) (arg v : Nat) (irq : Bool) : List Byte :=
  leBytes 64 (W.fields ([(0,0x4E),(8,ty),(16,cnt),(32,suc.length),(36,9),(41,b2n irq),(192,arg),(256,v)] ++
      suc.zipIdx.map fun x => (64 + 16 * x.2, x.1)))
def qs : List Queue :=
  setAt State.reset.cp.queues 2
      { Queue.reset with base := 0x808000, ctx := 0, en := true, qlog := 3, head := 5, bell := 5 }
def base : State :=
  { W.withMem (W.seqMem ++ [(0x80C000, W.sliceBlk)]) with cp := { State.reset.cp with stat := 1, jnl := ⟨0xC00000,6,0,0⟩, queues := qs }, dev := { State.reset.dev with ready := true } }
def gr (ns : List Node) : Graph := ⟨7,2,0,0x409000,55,false,false,ns⟩
def s : State :=
  { base with cp := { base.cp with graphs := [gr [⟨nodeRec 2 0 [1] 0x40C000 77 false,0,.waiting,none⟩]] } }
def k := 7
def n := 0
def core := 5
def x : Graph := (s.graph? k).getD (gr [])
def y : Node := x.nodes.getD n ⟨[],0,.waiting,none⟩
def v : Nat := leNat y.rec_
def a : Nat := State.nodeArg v
def ie : IssEnv := ⟨.node k n, core, 0, x.ctx, none⟩
def s1 : State := (s.sliceIssue { ie with core := State.cpCore } ⟨0, none⟩ a).1
def ie0 : IssEnv := { who := Who.node k n, core := core, quad := 0, ctx := x.ctx, team := none }
def ie1 : IssEnv := { who := ie.who, core := State.cpCore, quad := ie.quad, ctx := ie.ctx, team := ie.team }
def ex0 : EngX := { mask := 0, set? := none }
end K152
theorem witness_CommandProcessorEvents_12 :
    (K152.a = State.nodeArg K152.v) ∧
    (K152.ie = K152.ie0) ∧
    (K152.s.startable K152.k K152.n 2 = some (K152.x, K152.v)) ∧
    (K152.s.sliceIssue K152.ie1 K152.ex0 K152.a = (K152.s1, Iss.ok ())) :=
  by decide +kernel

namespace K153
def nodeRec (ty cnt : Nat) (suc : List Nat) (arg v : Nat) (irq : Bool) : List Byte :=
  leBytes 64 (W.fields ([(0,0x4E),(8,ty),(16,cnt),(32,suc.length),(36,9),(41,b2n irq),(192,arg),(256,v)] ++
      suc.zipIdx.map fun x => (64 + 16 * x.2, x.1)))
def qs : List Queue :=
  setAt State.reset.cp.queues 2
      { Queue.reset with base := 0x808000, ctx := 0, en := true, qlog := 3, head := 5, bell := 5 }
def base : State :=
  { W.withMem ([(0x810000, leBytes 128 (W.fields [(0,0x58),(8,3),(64,1),(96,7),(192,0x100000),(256,0x600000),(512,0x40000000)])),(0x809000, nodeRec 3 0 [1] 0x404000 5 true),(0x809040, nodeRec 0 1 [] 0x404000 5 false), (0x80A000, W.launchRec 0),(0x80B000, W.fillBlk),(0x801000, W.tensRec),(0x80C000, W.sliceBlk)]) with cp := { State.reset.cp with stat := 1, jnl := ⟨0xC00000,6,0,0⟩, queues := qs }, dev := { State.reset.dev with ready := true } }
def gr (ns : List Node) : Graph := ⟨7,2,0,0x409000,55,false,false,ns⟩
def s : State :=
  { base with cp := { base.cp with graphs := [gr [⟨nodeRec 1 0 [1] 0x40B000 77 false,0,.waiting,none⟩]] } }
def k := 7
def n := 0
def core := 5
def x : Graph := (s.graph? k).getD (gr [])
def y : Node := x.nodes.getD n ⟨[],0,.waiting,none⟩
def v : Nat := leNat y.rec_
def a : Nat := State.nodeArg v
def ie : IssEnv := ⟨.node k n, core, 0, x.ctx, none⟩
def s1 : State := (s.peelAccept ie a).1
def c : State.Accepted := match (s.peelAccept ie a).2 with | .ok c => c | _ => ⟨[],[],[],[]⟩
def ie0 : IssEnv := { who := Who.node k n, core := core, quad := 0, ctx := x.ctx, team := none }
def ex0 : EngX := { mask := 0, set? := none }
end K153
theorem witness_CommandProcessorEvents_13 :
    (K153.a = State.nodeArg K153.v) ∧
    (K153.ie = K153.ie0) ∧
    (K153.s.startable K153.k K153.n 1 = some (K153.x, K153.v)) ∧
    (K153.core < 192) ∧
    ((K153.s.co K153.core).gated = false) ∧
    (K153.s.peelAccept K153.ie K153.a = (K153.s1, Iss.ok K153.c)) ∧
    (K153.s1.issueFull OpKind.peel K153.ie K153.ex0 K153.c.locks.length = false) :=
  by decide +kernel

namespace K154
def nodeRec (ty cnt : Nat) (suc : List Nat) (arg v : Nat) (irq : Bool) : List Byte :=
  leBytes 64 (W.fields ([(0,0x4E),(8,ty),(16,cnt),(32,suc.length),(36,9),(41,b2n irq),(192,arg),(256,v)] ++
      suc.zipIdx.map fun x => (64 + 16 * x.2, x.1)))
def qs : List Queue :=
  setAt State.reset.cp.queues 2
      { Queue.reset with base := 0x808000, ctx := 0, en := true, qlog := 3, head := 5, bell := 5 }
def base : State :=
  { W.withMem ([(0x810000, leBytes 128 (W.fields [(0,0x58),(8,3),(64,1),(96,7),(192,0x100000),(256,0x600000),(512,0x40000000)])),(0x809000, nodeRec 3 0 [1] 0x404000 5 true),(0x809040, nodeRec 0 1 [] 0x404000 5 false), (0x80A000, W.launchRec 0),(0x80B000, W.fillBlk),(0x801000, W.tensRec),(0x80C000, W.sliceBlk)]) with cp := { State.reset.cp with stat := 1, jnl := ⟨0xC00000,6,0,0⟩, queues := qs }, dev := { State.reset.dev with ready := true } }
def gr (ns : List Node) : Graph := ⟨7,2,0,0x409000,55,false,false,ns⟩
def s : State :=
  { base with cp := { base.cp with graphs := [gr [⟨nodeRec 3 0 [1] 0x404000 77 false,0,.waiting,none⟩]] } }
def q := 2
def e : Nat := (s.nextEntry q).getD 0
def k := 7
def n := 0
def core := 5
def x : Graph := (s.graph? k).getD (gr [])
def y : Node := x.nodes.getD n ⟨[],0,.waiting,none⟩
def v : Nat := leNat y.rec_
def a : Nat := State.nodeArg v
def ie : IssEnv := ⟨.node k n, core, 0, x.ctx, none⟩
def pa := 0x804000
def leaf : Leaf := (match s.cpLoc (.node k n) x.ctx a true false with | (_, .ok (_, l)) => l | _ => W.leaf)
def s1 : State := (s.cpLoc (.node k n) x.ctx a true false).1
def l : List Node := match (State.readNodes q (s.queue q).ctx (bits e 127 64) (bits e 43 32) (bits e 43 32) s 0 []).2 with | .ok (.ok l) => l | _ => []
def ie0 : IssEnv := { who := Who.node k n, core := core, quad := 0, ctx := x.ctx, team := none }
end K154
theorem witness_CommandProcessorEvents_14 :
    (K154.s.cpLoc (Who.node K154.k K154.n) K154.x.ctx K154.a true false = (K154.s1, Except.ok (Loc.mem K154.pa,
      K154.leaf))) ∧
    (K154.a = State.nodeArg K154.v) ∧
    (K154.ie = K154.ie0) ∧
    (K154.s.startable K154.k K154.n 3 = some (K154.x, K154.v)) ∧
    (K154.s1.ueHits (Loc.mem K154.pa) 8 true = []) ∧
    (K154.pa + 8 ≤ Config.hbmTop) ∧
    (Memory.wf K154.s1.mem = true) ∧
    (bitOf K154.v 41 = false) :=
  ⟨pair_ok rfl (by decide +kernel),
   by decide +kernel⟩

namespace K155
def s : State :=
  { W.one with dev := { State.reset.dev with ready := true, attBusy := false }, fab := { State.reset.fab with en := true, ports := State.reset.fab.ports.map (fun x => { x with trained := true }) }, cp := { State.reset.cp with jnl := ⟨0xC00000,6,64,0⟩, held := [List.replicate 32 7], queues := setAt State.reset.cp.queues 2 { Queue.reset with en := true, base := 0x808000 } }, flt := { State.reset.flt with ring := ⟨0xD00000,6,9,4⟩ }, mem := Memory.setMany [] 0xC00000 ((List.range 40).map (BitVec.ofNat 8)) }
def p := 2
def sl := 8
def v := 5
def q := 2
def b : BootIn := ⟨none,true⟩
def m : PowerMeas := ⟨2000,100,[100,100],1900,[5,5],12⟩
def r : List Byte := (s.cp.held.head?).getD []
end K155
theorem witness_RegisterWriteEvents_1 :
    (K155.s.dev.bootfail = false) ∧
    (K155.s.flt.held = []) ∧
    (K155.s.fab.held = []) ∧
    (K155.s.cp.held = [K155.r]) ∧
    (K155.r.length = 32) ∧
    ((K155.s.cp.jnl.setCons K155.v).room = true) ∧
    (Memory.wf K155.s.mem = true) ∧
    (K155.s.cp.jnl.slot + 32 ≤ Config.feUnused ∨ Config.hostBase ≤ K155.s.cp.jnl.slot ∧ K155.s.cp.jnl.slot + 32 ≤
      Config.physTop) ∧
    (K155.s.fab.en = true ∨ 8 ≤ K155.p ∨ 8 ≤ K155.sl ∨ bits K155.v 7 6 = 3) ∧
    (K155.s.fab.en = true) ∧
    (bitOf K155.v 6 = false) ∧
    (K155.v < 4096) ∧
    (K155.v ≠ 0 ∧ 63 * K155.v * 192 ≤ (16 + K155.s.fab.ovsz) * 2 ^ 20) ∧
    (K155.s.dev.attBusy = false) ∧
    (K155.v < 2 ^ 32) ∧
    (K155.v % 65536 ≠ 0) ∧
    (bitOf K155.v 3 = false) ∧
    (K155.q < 64) ∧
    ((K155.s.queue K155.q).en = true) ∧
    (1 = State.bootCode K155.b) ∧
    (0 = match K155.b.image with | some i => if 1 = 0 then leNat (Crypto.sha512 i.bytes) else 0 | none => 0) ∧
    (K155.s.dev.tj < 115) ∧
    (K155.s.dev.pwrLim < K155.m.demand ∨ K155.s.dev.ilim.getD 0 0 < K155.m.peaks.getD 0 0 ∨ K155.s.dev.ilim.getD 1 0 <
      K155.m.peaks.getD 1 0) ∧
    (K155.s.dev.pwrLim < K155.m.demand ∨ 105 < K155.m.tj) :=
  by decide +kernel

namespace K156
def s : State :=
  { W.one with dev := { State.reset.dev with ready := true, attBusy := false }, fab := { State.reset.fab with en := false, ports := State.reset.fab.ports.map (fun x => { x with trained := true }) }, cp := { State.reset.cp with jnl := ⟨0x200000000000,6,65,1⟩, held := [], queues := setAt State.reset.cp.queues 2 { Queue.reset with en := false, base := 0x808000 } }, flt := { State.reset.flt with ring := ⟨0xD00000,6,9,4⟩ }, mem := Memory.setMany [] 0xC00000 ((List.range 40).map (BitVec.ofNat 8)) }
def p := 2
def sl := 1
def v := 0
def n := 2
def m : PowerMeas := ⟨500,100,[100,100],500,[5,5],12⟩
end K156
theorem witness_RegisterWriteEvents_2 :
    (K156.s.dev.bootfail = false) ∧
    (K156.s.cp.held = []) ∧
    (K156.s.fab.en = false) ∧
    (K156.p < 8) ∧
    (K156.sl < 8) ∧
    (bits K156.v 7 6 ≠ 3) ∧
    (K156.s.fab.en = false ∨ bitOf K156.v 6 = true) ∧
    (K156.v < 4096) ∧
    (K156.v = 0 ∨ (16 + K156.s.fab.ovsz) * 2 ^ 20 < 63 * K156.v * 192) ∧
    (K156.v < 2 ^ 32) ∧
    (K156.v % 65536 = 0) ∧
    (K156.n ≠ 4) ∧
    (K156.n ≠ 8) ∧
    (K156.m.demand ≤ K156.s.dev.pwrLim) ∧
    (K156.m.peaks.getD 0 0 ≤ K156.s.dev.ilim.getD 0 0) ∧
    (K156.m.peaks.getD 1 0 ≤ K156.s.dev.ilim.getD 1 0) ∧
    (K156.m.tj ≤ 105) :=
  by decide +kernel

namespace K157
def s : State :=
  { W.one with dev := { State.reset.dev with ready := true, attBusy := true }, fab := { State.reset.fab with en := true, ports := State.reset.fab.ports.map (fun x => { x with trained := true }) }, cp := { State.reset.cp with jnl := ⟨0xC00000,6,64,0⟩, held := [List.replicate 32 7], queues := setAt State.reset.cp.queues 2 { Queue.reset with en := true, base := 0x808000 } }, flt := { State.reset.flt with ring := ⟨0xD00000,6,9,4⟩ }, mem := Memory.setMany [] 0xC00000 ((List.range 40).map (BitVec.ofNat 8)) }
end K157
theorem witness_RegisterWriteEvents_3 :
    (K157.s.dev.attBusy = true) :=
  by decide +kernel

namespace K158
def hd (src dst : Nat) (rly : Bool) (hseq : Nat) : FlitHdr := ⟨src,dst,rly,0,3,77,hseq⟩
def rx (h : FlitHdr) (t : Trailer) (ok : Bool) (b : Body) : FlitRx :=
  ⟨(fun l => if ok then l else l.set 20 (l.getD 20 0 + 1)) (State.flitBytes h t (State.Body.type b) (List.replicate
      176 0)), b⟩
def fl (h : Nat) : Flit := ⟨hd 0 9 false h, .ack [(5,0)], 0, .made 0 0 0⟩
def s : State :=
  { W.one with fab := { State.reset.fab with en := true, slot := 1, cal := setAt State.reset.fab.cal (8*2+1) (9,0), route := setAt State.reset.fab.route 9 0, ports := updAt State.reset.fab.ports 2 fun q => { q with far := none, trained := false, rx := 15 }, pairs := [{ Pair.reset 9 with hseqIn := 40, hseqOut := 99, pgenOut := 4, eseq := 21 , unacked := [fl 7, fl 8, fl 9] }], ring := ⟨0xC00000,6,0,0⟩ , slotAt := 900 } }
def p := 2
def w : TrainWord := ⟨9,15,8,true⟩
def peer := 9
def l : List Flit := (s.pair 9).unacked
end K158
theorem witness_FabricEvents_1 :
    (K158.p < 8) ∧
    (K158.p < K158.s.fab.ports.length) ∧
    (K158.s.fab.en = true) ∧
    (K158.s.fab.slotLost = false) ∧
    (K158.s.calAt K158.p K158.s.fab.slot = (K158.peer, 0)) ∧
    (K158.peer < 64) ∧
    ((K158.s.port K158.p).trained = false) ∧
    ((K158.s.port K158.p).quiet = false) ∧
    (State.stripeWidth (K158.s.port K158.p) ≠ 0) ∧
    ((K158.s.port K158.p).stripe = State.wlUsable (K158.s.port K158.p)) ∧
    (1880 ≤ 25 * (K158.s.cycle - K158.s.fab.slotAt)) ∧
    (25 * (K158.s.cycle - K158.s.fab.slotAt) < 3008) ∧
    (K158.w.node = K158.peer) ∧
    ((K158.s.pair K158.peer).unacked = List.take 1 K158.l ++ K158.fl 8 :: List.drop 2 K158.l) ∧
    ((K158.fl 8).hdr.hseq = K158.w.hack) ∧
    (∀ (z : Flit), z ∈ List.take 1 K158.l → z.hdr.hseq ≠ K158.w.hack) ∧
    (K158.w.nak = true) ∧
    (List.drop 2 K158.l ≠ []) ∧
    ((K158.s.calAt K158.p K158.s.fab.slot).snd ≠ 2) ∧
    (K158.s.fab.en = false ∨ K158.s.fab.slotLost = true ∨ (K158.s.port K158.p).trained = false ∨ (K158.s.port
      K158.p).quiet = true ∨ (K158.s.port K158.p).muted = true ∨ 25 * (K158.s.cycle - K158.s.fab.slotAt) < 3008 ∨
      60160 ≤ 25 * (K158.s.cycle - K158.s.fab.slotAt) ∨ State.slotFlits (State.stripeWidth (K158.s.port K158.p)) ≤
      (K158.s.port K158.p).sent) :=
  by decide +kernel

namespace K159
def hd (src dst : Nat) (rly : Bool) (hseq : Nat) : FlitHdr := ⟨src,dst,rly,0,3,77,hseq⟩
def rx (h : FlitHdr) (t : Trailer) (ok : Bool) (b : Body) : FlitRx :=
  ⟨(fun l => if ok then l else l.set 20 (l.getD 20 0 + 1)) (State.flitBytes h t (State.Body.type b) (List.replicate
      176 0)), b⟩
def fl (h : Nat) : Flit := ⟨hd 0 9 false h, .ack [(5,0)], 0, .made 0 0 0⟩
def s : State :=
  { W.one with fab := { State.reset.fab with en := true, slot := 1, cal := setAt State.reset.fab.cal (8*2+1) (9,0), route := setAt State.reset.fab.route 9 0, ports := updAt State.reset.fab.ports 2 fun q => { q with far := some 9, trained := true, rx := 15 }, pairs := [{ Pair.reset 9 with hseqIn := 40, hseqOut := 99, pgenOut := 4, eseq := 21 , unacked := [fl 7, fl 8, fl 9], nak := true }], ring := ⟨0xC00000,6,0,0⟩  } }
def p := 2
def x := 9
def f : FlitRx := rx (hd 9 0 false 40) ⟨8,false,2⟩ true (.idle)
def l : List Flit := (s.pair 9).unacked
end K159
theorem witness_FabricEvents_2 :
    (Sends K159.s K159.p K159.x) ∧
    ((K159.s.pair K159.x).resend = none) ∧
    ((K159.s.pair K159.x).unacked.length < 4096) ∧
    (K159.s.fab.relay = []) ∧
    (∀ (q : Pair), q ∈ K159.s.fab.pairs → q.out = [] ∧ q.acks = [] ∧ q.replies = [] ∧ q.rfails = []) ∧
    (Lit K159.s K159.p K159.x) ∧
    (Sound K159.s K159.x K159.f) ∧
    (K159.f.body = Body.idle) ∧
    ((State.rxHdr K159.f).rly = false) ∧
    ((K159.s.pair K159.x).unacked = List.take 1 K159.l ++ K159.fl 8 :: List.drop 2 K159.l) ∧
    ((K159.fl 8).hdr.hseq = (State.rxTrail K159.f).hack) ∧
    (∀ (z : Flit), z ∈ List.take 1 K159.l → z.hdr.hseq ≠ (State.rxTrail K159.f).hack) :=
  by unfold Sends Lit Sound; decide +kernel

namespace K160
def hd (src dst : Nat) (rly : Bool) (hseq : Nat) : FlitHdr := ⟨src,dst,rly,0,3,77,hseq⟩
def rx (h : FlitHdr) (t : Trailer) (ok : Bool) (b : Body) : FlitRx :=
  ⟨(fun l => if ok then l else l.set 20 (l.getD 20 0 + 1)) (State.flitBytes h t (State.Body.type b) (List.replicate
      176 0)), b⟩
def fl (h : Nat) : Flit := ⟨hd 0 9 false h, .ack [(5,0)], 0, .made 0 0 0⟩
def s : State :=
  { W.one with fab := { State.reset.fab with en := true, slot := 1, cal := setAt State.reset.fab.cal (8*2+1) (9,0), route := setAt State.reset.fab.route 9 0, ports := updAt State.reset.fab.ports 2 fun q => { q with far := some 9, trained := true, rx := 15 }, pairs := [{ Pair.reset 9 with hseqIn := 40, hseqOut := 99, pgenOut := 4, eseq := 21 , unacked := [fl 7, fl 8, fl 9], resend := some 0 }], ring := ⟨0xC00000,6,0,0⟩  } }
def p := 2
def x := 9
end K160
theorem witness_FabricEvents_3 :
    (Sends K160.s K160.p K160.x) ∧
    ((K160.s.pair K160.x).resend = some 0) ∧
    (0 < (K160.s.pair K160.x).unacked.length) :=
  by unfold Sends Lit; decide +kernel

namespace K161
def rx (h : FlitHdr) (t : Trailer) (ok : Bool) (b : Body) : FlitRx :=
  ⟨(fun l => if ok then l else l.set 20 (l.getD 20 0 + 1)) (State.flitBytes h t (State.Body.type b) (List.replicate
      176 0)), b⟩
def s : State :=
  { W.one with fab := { State.reset.fab with en := true, slot := 1, cal := setAt State.reset.fab.cal (8*2+1) (9,0), route := setAt State.reset.fab.route 9 0, ports := updAt State.reset.fab.ports 2 fun q => { q with far := none, trained := false, rx := 15 }, pairs := [{ Pair.reset 9 with hseqIn := 40, hseqOut := 99, pgenOut := 4, eseq := 21 , unacked := [] }], ring := ⟨0xC00000,6,0,0⟩ , slotAt := 900 } }
def p := 2
def w : TrainWord := ⟨10,15,8,true⟩
def peer := 9
end K161
theorem witness_FabricEvents_4 :
    (K161.p < 8) ∧
    (K161.p < K161.s.fab.ports.length) ∧
    (K161.s.fab.en = true) ∧
    (K161.s.fab.slotLost = false) ∧
    (K161.s.calAt K161.p K161.s.fab.slot = (K161.peer, 0)) ∧
    (K161.peer < 64) ∧
    ((K161.s.port K161.p).trained = false) ∧
    ((K161.s.port K161.p).quiet = false) ∧
    (State.stripeWidth (K161.s.port K161.p) ≠ 0) ∧
    ((K161.s.port K161.p).stripe = State.wlUsable (K161.s.port K161.p)) ∧
    (1880 ≤ 25 * (K161.s.cycle - K161.s.fab.slotAt)) ∧
    (25 * (K161.s.cycle - K161.s.fab.slotAt) < 3008) ∧
    (K161.w.node ≠ K161.peer) ∧
    (K161.s.fab.held = []) ∧
    (K161.s.fab.ring.room = true) :=
  by decide +kernel

namespace K162
def rx (h : FlitHdr) (t : Trailer) (ok : Bool) (b : Body) : FlitRx :=
  ⟨(fun l => if ok then l else l.set 20 (l.getD 20 0 + 1)) (State.flitBytes h t (State.Body.type b) (List.replicate
      176 0)), b⟩
def wc0 : Wc := ⟨31,0,0,1,9,0x404000,15,List.replicate 128 1,none,0x404000,[],false,900⟩
def s : State :=
  { W.one with fab := { State.reset.fab with en := true, slot := 1, cal := setAt State.reset.fab.cal (8*2+1) (9,0), route := setAt State.reset.fab.route 9 0, ports := updAt State.reset.fab.ports 2 fun q => { q with far := some 9, trained := true, rx := 15 }, pairs := [{ Pair.reset 9 with hseqIn := 40, hseqOut := 99, pgenOut := 4, eseq := 21  }], ring := ⟨0xC00000,6,0,0⟩ , wc := [{wc0 with body := none}], age := 0 } }
def wc1 : Wc := { wc0 with body := none }
end K162
theorem witness_FabricEvents_5 :
    (K162.s.fab.wc = [K162.wc1]) ∧
    ((K162.wc1).sent = false) ∧
    (K162.s.unreach (K162.wc1).peer = false) ∧
    (K162.s.routeOf (K162.wc1).peer = some State.Route.rotor) ∧
    ((K162.wc1).since + max 1 (940 * K162.s.fab.age) ≤ K162.s.cycle) ∧
    ((K162.wc1).body = none) :=
  by decide +kernel

namespace K163
def hd (src dst : Nat) (rly : Bool) (hseq : Nat) : FlitHdr := ⟨src,dst,rly,0,3,77,hseq⟩
def rx (h : FlitHdr) (t : Trailer) (ok : Bool) (b : Body) : FlitRx :=
  ⟨(fun l => if ok then l else l.set 20 (l.getD 20 0 + 1)) (State.flitBytes h t (State.Body.type b) (List.replicate
      176 0)), b⟩
def fl (h : Nat) : Flit := ⟨hd 0 9 false h, .ack [(5,0)], 0, .made 0 0 0⟩
def s : State :=
  { W.one with fab := { State.reset.fab with en := true, slot := 1, cal := setAt State.reset.fab.cal (8*2+1) (9,0), route := setAt State.reset.fab.route 9 0, ports := updAt State.reset.fab.ports 2 fun q => { q with far := some 9, trained := true, rx := 15 }, pairs := [{ Pair.reset 9 with hseqIn := 40, hseqOut := 99, pgenOut := 4, eseq := 21 , unacked := [fl 7, fl 8, fl 9], nak := true }], ring := ⟨0xC00000,6,0,0⟩  } }
def p := 2
def x := 9
def f : FlitRx := rx (hd 9 0 false 40) ⟨8,false,2⟩ false (.ack [(5,0)])
end K163
theorem witness_FabricEvents_6 :
    (Lit K163.s K163.p K163.x) ∧
    (State.rxGood K163.f = false) :=
  by unfold Lit; decide +kernel

namespace K164
def hd (src dst : Nat) (rly : Bool) (hseq : Nat) : FlitHdr := ⟨src,dst,rly,0,3,77,hseq⟩
def rx (h : FlitHdr) (t : Trailer) (ok : Bool) (b : Body) : FlitRx :=
  ⟨(fun l => if ok then l else l.set 20 (l.getD 20 0 + 1)) (State.flitBytes h t (State.Body.type b) (List.replicate
      176 0)), b⟩
def fl (h : Nat) : Flit := ⟨hd 0 9 false h, .ack [(5,0)], 0, .made 0 0 0⟩
def s : State :=
  { W.one with fab := { State.reset.fab with en := true, slot := 1, cal := setAt State.reset.fab.cal (8*2+1) (9,0), route := setAt State.reset.fab.route 9 0, ports := updAt State.reset.fab.ports 2 fun q => { q with far := some 9, trained := true, rx := 15 }, pairs := [{ Pair.reset 9 with hseqIn := 40, hseqOut := 99, pgenOut := 4, eseq := 21 , unacked := [fl 7, fl 8, fl 9], nak := false }], ring := ⟨0xC00000,6,0,0⟩  } }
def p := 2
def x := 9
def f : FlitRx := rx (hd 9 0 false 41) ⟨8,false,2⟩ true (.read 0x404000 4 .load .plain .thr false)
end K164
theorem witness_FabricEvents_7 :
    (Lit K164.s K164.p K164.x) ∧
    (Sound K164.s K164.x K164.f) ∧
    (State.FlitKind.read = State.kindOf K164.s.fab.node K164.f) ∧
    (State.FlitKind.read ≠ State.FlitKind.idle) ∧
    ((State.rxHdr K164.f).hseq ≠ (K164.s.pair K164.x).hseqIn) :=
  by unfold Lit Sound; decide +kernel

namespace K165
def rx (h : FlitHdr) (t : Trailer) (ok : Bool) (b : Body) : FlitRx :=
  ⟨(fun l => if ok then l else l.set 20 (l.getD 20 0 + 1)) (State.flitBytes h t (State.Body.type b) (List.replicate
      176 0)), b⟩
def e2 : E2E := ⟨21, .read 0x404000 4 .load .plain .thr false, 0, none, 0, false, false, false, none, some 4⟩
def s : State :=
  { W.one with fab := { State.reset.fab with en := true, slot := 1, cal := setAt State.reset.fab.cal (8*2+1) (9,0), route := setAt State.reset.fab.route 9 0, ports := updAt State.reset.fab.ports 2 fun q => { q with far := some 9, trained := true, rx := 15 }, pairs := [{ Pair.reset 9 with hseqIn := 40, hseqOut := 99, pgenOut := 4, eseq := 21 , out := [e2]  }], ring := ⟨0xC00000,6,0,0⟩ , path := 1 } }
def p := 2
def x := 9
end K165
theorem witness_FabricEvents_8 :
    (Sends K165.s K165.p K165.x) ∧
    ((K165.s.pair K165.x).resend = none) ∧
    ((K165.s.pair K165.x).unacked.length < 4096) ∧
    (K165.s.fab.relay = []) ∧
    (∀ (q : Pair), q ∈ K165.s.fab.pairs → q.acks = []) ∧
    ((K165.s.pair K165.x).out = [K165.e2]) ∧
    (K165.e2.sent = false) ∧
    (K165.s.fab.path = 1) :=
  by unfold Sends Lit; decide +kernel

namespace K166
def hd (src dst : Nat) (rly : Bool) (hseq : Nat) : FlitHdr := ⟨src,dst,rly,0,3,77,hseq⟩
def rx (h : FlitHdr) (t : Trailer) (ok : Bool) (b : Body) : FlitRx :=
  ⟨(fun l => if ok then l else l.set 20 (l.getD 20 0 + 1)) (State.flitBytes h t (State.Body.type b) (List.replicate
      176 0)), b⟩
def e2 : E2E := ⟨21, .read 0x404000 4 .load .plain .thr false, 0, none, 0, false, false, false, none, some 4⟩
def s : State :=
  { W.one with fab := { State.reset.fab with en := true, slot := 1, cal := setAt State.reset.fab.cal (8*2+1) (9,0), route := setAt State.reset.fab.route 9 0, ports := updAt State.reset.fab.ports 2 fun q => { q with far := some 9, trained := true, rx := 15 }, pairs := [{ Pair.reset 9 with hseqIn := 40, hseqOut := 99, pgenOut := 4, eseq := 21 , unacked := [], resend := none, out := [e2] }], ring := ⟨0xC00000,6,0,0⟩ , relay := [⟨12,⟨hd 12 9 true 5,.ack [(1,0)],0,.made 0 0 0⟩,none⟩], path := 1 } }
def p := 2
def x := 9
def pay : List (List Byte) := [(List.range 176).map (BitVec.ofNat 8 ·)]
def fl0 : Flit := { hdr := hd 12 9 true 5, body := Body.ack [(1, 0)], cred := 0, pay := Pay.made 0 0 0 }
end K166
theorem witness_FabricEvents_9 :
    (Sends K166.s K166.p K166.x) ∧
    ((K166.s.pair K166.x).resend = none) ∧
    ((K166.s.pair K166.x).unacked.length < 4096) ∧
    (K166.s.fab.relay = [{ src := 12, flit := K166.fl0, at_ := none : Relayed }]) ∧
    ({ src := 12, flit := K166.fl0, at_ := none : Relayed }.at_ = none) ∧
    ({ src := 12, flit := K166.fl0, at_ := none : Relayed }.flit.hdr.dst = K166.x) ∧
    ({ src := 12, flit := K166.fl0, at_ := none : Relayed }.src ≠ K166.x) :=
  by unfold Sends Lit; decide +kernel

namespace K167
def rx (h : FlitHdr) (t : Trailer) (ok : Bool) (b : Body) : FlitRx :=
  ⟨(fun l => if ok then l else l.set 20 (l.getD 20 0 + 1)) (State.flitBytes h t (State.Body.type b) (List.replicate
      176 0)), b⟩
def wc0 : Wc := ⟨31,0,0,1,9,0x404000,15,List.replicate 128 1,none,0x404000,[],false,900⟩
def s : State :=
  { W.one with fab := { State.reset.fab with en := true, slot := 1, cal := setAt State.reset.fab.cal (8*2+1) (9,0), route := setAt State.reset.fab.route 9 0, ports := updAt State.reset.fab.ports 2 fun q => { q with far := some 9, trained := true, rx := 15 }, pairs := [{ Pair.reset 9 with hseqIn := 40, hseqOut := 99, pgenOut := 4, eseq := 21  }], ring := ⟨0xC00000,6,0,0⟩ , wc := [{wc0 with body := none}], age := 1 } }
def wc1 : Wc := { wc0 with body := none }
end K167
theorem witness_FabricEvents_10 :
    (K167.s.fab.wc = [K167.wc1]) ∧
    ((K167.wc1).sent = false) ∧
    (K167.s.unreach (K167.wc1).peer = false) ∧
    (K167.s.routeOf (K167.wc1).peer = some State.Route.rotor) ∧
    (K167.s.cycle < (K167.wc1).since + max 1 (940 * K167.s.fab.age)) :=
  by decide +kernel

namespace K168
def hd (src dst : Nat) (e hseq : Nat) : FlitHdr := ⟨src,dst,false,0,3,e,hseq⟩
def rx (h : FlitHdr) (t : Trailer) (ok : Bool) (b : Body) : FlitRx :=
  ⟨(fun l => if ok then l else l.set 20 (l.getD 20 0 + 1)) (State.flitBytes h t (State.Body.type b) (List.replicate
      176 0)), b⟩
def e2 : E2E := ⟨21, .read 0x404000 4 .load .plain .thr false, 0, some 9, 0, true, false, false, none, some 4⟩
def rq : Req :=
  { id := 4, who := .thread 0, core := 0, ctx := 0, team := 1, epoch := 0, op := .load, loc := .remote 9 0x404000,
      size := 4, ord := .plain, scope := .thr, hint := .none, cp := 0, pl := 0, feb := false, va := 0x404000, form :=
      .lane .s32 0 20, fill := [], co := 4, bytes := 4, merged := false, nrel := false, xw := false, parts := [],
      after := [], done := false, since := 0 }
def s : State :=
  { W.one with tlb := W.units.map fun u => ⟨u,0,W.leaf⟩, ctxs := [W.ctx0], fab := { State.reset.fab with en := true, slot := 1, ports := updAt State.reset.fab.ports 2 fun q => { q with far := some 9, trained := true, rx := 15 }, pairs := [{ Pair.reset 9 with hseqIn := 40, pgenOut := 4, pgenIn := 2, high := 70 , out := [e2] }], ring := ⟨0xC00000,6,0,0⟩, wc := [] } , reqs := [rq], pend := [⟨11,.reg 0 20,.none,4,false,900⟩] }
def p := 2
def x := 9
def n := 9
def f : FlitRx := rx {hd 9 0 70 40 with ctx := 0} ⟨8,false,2⟩ true (.reply 21 0 [1,2,3,0xF4])
def q : List Req := s.reqs
end K168
theorem witness_FabricFlits_1 :
    (K168.n = (State.rxHdr K168.f).src) ∧
    (Final K168.s K168.p K168.x K168.f) ∧
    (K168.f.body = Body.reply 21 0 [1, 2, 3, 244]) ∧
    ((K168.s.pair K168.n).out = [K168.e2]) ∧
    (K168.e2.eseq = 21) ∧
    (K168.e2.wc = none) ∧
    (K168.e2.req = some 4) ∧
    (K168.s.req? 4 = some K168.rq) ∧
    (K168.rq.done = false) ∧
    (K168.rq.id ≠ 0) ∧
    (K168.rq.who = Who.thread 0) ∧
    (K168.rq.op = MemOp.load) ∧
    (K168.rq.form = LdForm.lane Ty.s32 0 20) ∧
    (tySize Ty.s32 ≤ 4) :=
  by unfold Final Lit Sound; decide +kernel

namespace K169
def hd (src dst : Nat) (e hseq : Nat) : FlitHdr := ⟨src,dst,false,0,3,e,hseq⟩
def rx (h : FlitHdr) (t : Trailer) (ok : Bool) (b : Body) : FlitRx :=
  ⟨(fun l => if ok then l else l.set 20 (l.getD 20 0 + 1)) (State.flitBytes h t (State.Body.type b) (List.replicate
      176 0)), b⟩
def e2 : E2E := ⟨21, .read 0x404000 4 .load .plain .thr false, 0, some 9, 0, true, false, false, none, some 4⟩
def wc0 : Wc := ⟨31,0,0,1,9,0x404000,15,List.replicate 128 1,none,0x404000,[⟨.thread 0,900,false⟩],true,900⟩
def s : State :=
  { W.one with tlb := W.units.map fun u => ⟨u,0,W.leaf⟩, ctxs := [W.ctx0], fab := { State.reset.fab with en := true, slot := 1, ports := updAt State.reset.fab.ports 2 fun q => { q with far := some 9, trained := true, rx := 15 }, pairs := [{ Pair.reset 9 with hseqIn := 40, pgenOut := 4, pgenIn := 2, high := 70 , out := [{e2 with wc := some 31, req := none}] }], ring := ⟨0xC00000,6,0,0⟩, wc := [wc0] }  }
def p := 2
def x := 9
def n := 9
def f : FlitRx := rx {hd 9 0 70 40 with ctx := 0} ⟨8,false,2⟩ true (.rfail [(21,4)])
def q : List Req := s.reqs
def en0 : E2E := { e2 with wc := some 31, req := none }
def pr0 : Pair :=
  { Pair.reset 9 with hseqIn := 40, pgenOut := 4, pgenIn := 2, high := 70, out := [{ e2 with wc := some 31, req := none }] }
end K169
theorem witness_FabricFlits_2 :
    (K169.n = (State.rxHdr K169.f).src) ∧
    (Final K169.s K169.p K169.x K169.f) ∧
    (K169.f.body = Body.rfail [((K169.en0).eseq, 4)]) ∧
    (List.filter (fun y => y.out != []) K169.s.fab.pairs = [K169.pr0]) ∧
    (K169.s.pair (K169.pr0).peer = K169.pr0) ∧
    ((K169.pr0).out = [K169.en0]) ∧
    ((K169.en0).sent = true) ∧
    ((K169.en0).held = false) ∧
    ((K169.en0).via = some K169.n) ∧
    ((K169.pr0).pgenOut = 4) :=
  by unfold Final Lit Sound; decide +kernel

namespace K170
def hd (src dst : Nat) (e hseq : Nat) : FlitHdr := ⟨src,dst,false,0,3,e,hseq⟩
def rx (h : FlitHdr) (t : Trailer) (ok : Bool) (b : Body) : FlitRx :=
  ⟨(fun l => if ok then l else l.set 20 (l.getD 20 0 + 1)) (State.flitBytes h t (State.Body.type b) (List.replicate
      176 0)), b⟩
def s : State :=
  { W.one with tlb := W.units.map fun u => ⟨u,0,W.leaf⟩, ctxs := [W.ctx0], fab := { State.reset.fab with en := true, slot := 1, ports := updAt State.reset.fab.ports 2 fun q => { q with far := some 9, trained := true, rx := 15 }, pairs := [{ Pair.reset 9 with hseqIn := 40, pgenOut := 4, pgenIn := 2, high := 70  }], ring := ⟨0xC00000,6,0,0⟩, wc := [] }  }
def p := 2
def x := 9
def n := 9
def f : FlitRx := rx {hd 9 0 70 40 with ctx := 0} ⟨8,false,2⟩ true (.unknown 14)
def q : List Req := s.reqs
end K170
theorem witness_FabricFlits_3 :
    (K170.n = (State.rxHdr K170.f).src) ∧
    (Final K170.s K170.p K170.x K170.f) ∧
    (K170.f.body = Body.unknown 14) ∧
    (K170.s.fab.held = []) ∧
    (K170.s.fab.ring.room = true) :=
  by unfold Final Lit Sound; decide +kernel

namespace K171
def hd (src dst : Nat) (e hseq : Nat) : FlitHdr := ⟨src,dst,false,0,3,e,hseq⟩
def rx (h : FlitHdr) (t : Trailer) (ok : Bool) (b : Body) : FlitRx :=
  ⟨(fun l => if ok then l else l.set 20 (l.getD 20 0 + 1)) (State.flitBytes h t (State.Body.type b) (List.replicate
      176 0)), b⟩
def s : State :=
  { W.one with tlb := W.units.map fun u => ⟨u,0,W.leaf⟩, ctxs := [W.ctx0], fab := { State.reset.fab with en := true, slot := 1, ports := updAt State.reset.fab.ports 2 fun q => { q with far := some 9, trained := true, rx := 15 }, pairs := [{ Pair.reset 9 with hseqIn := 40, pgenOut := 4, pgenIn := 2, high := 70  }], ring := ⟨0xC00000,6,0,0⟩, wc := [] } , waits := [⟨7,0,.mem 0x800100,.ldce,.remote 9 5,0,3,.wait⟩,⟨8,0,.mem 0x800100,.ldce,.remote 9 5,0,3,.wait⟩,⟨9,0,.mem 0x800100,.ldce,.lanes 0 [1],0,3,.wait⟩] }
def p := 2
def x := 9
def n := 9
def f : FlitRx := rx {hd 9 0 70 40 with ctx := 0} ⟨8,false,2⟩ true (.cancel 5)
def q : List Req := s.reqs
end K171
theorem witness_FabricFlits_4 :
    (K171.n = (State.rxHdr K171.f).src) ∧
    (Final K171.s K171.p K171.x K171.f) ∧
    (K171.f.body = Body.cancel 5) ∧
    (State.ahead (K171.s.pair K171.n).high (State.rxHdr K171.f).eseq = true) ∧
    (∀ (r : Req), r ∈ K171.s.reqs → r.who ≠ Who.remote K171.n 5) ∧
    (∀ (i : Incoming), i ∈ K171.s.fab.incoming → i.who ≠ Who.remote K171.n 5) ∧
    (∃ e, e ∈ K171.s.waits ∧ e.who = Waiter.remote K171.n 5) :=
  by unfold Final Lit Sound; decide +kernel

namespace K172
def hd (src dst : Nat) (e hseq : Nat) : FlitHdr := ⟨src,dst,false,0,3,e,hseq⟩
def rx (h : FlitHdr) (t : Trailer) (ok : Bool) (b : Body) : FlitRx :=
  ⟨(fun l => if ok then l else l.set 20 (l.getD 20 0 + 1)) (State.flitBytes h t (State.Body.type b) (List.replicate
      176 0)), b⟩
def s : State :=
  { W.one with tlb := W.units.map fun u => ⟨u,0,W.leaf⟩, ctxs := [W.ctx0], fab := { State.reset.fab with en := true, slot := 1, ports := updAt State.reset.fab.ports 2 fun q => { q with far := some 9, trained := true, rx := 15 }, pairs := [{ Pair.reset 9 with hseqIn := 40, pgenOut := 4, pgenIn := 2, high := 70 , seen := [(69,some 6),(68,none)], cache := [(68,.reply 68 0 [1])] }], ring := ⟨0xC00000,6,0,0⟩, wc := [] }  }
def p := 2
def x := 9
def n := 9
def f : FlitRx := rx {hd 9 0 70 40 with ctx := 3} ⟨8,false,2⟩ true (.read 0x404000 4 .load .sync .dev false)
def q : List Req := s.reqs
end K172
theorem witness_FabricFlits_5 :
    (K172.n = (State.rxHdr K172.f).src) ∧
    (Final K172.s K172.p K172.x K172.f) ∧
    (State.FlitKind.read = State.kindOf K172.s.fab.node K172.f) ∧
    (State.askOf K172.f.body = some
      { va := 4210688, size := 4, op := MemOp.load, ord := Ord.sync, scope := Scope.dev, nf := false : State.Ask }) ∧
    (State.ahead (K172.s.pair K172.n).high (State.rxHdr K172.f).eseq = true) ∧
    (K172.s.fab.incoming = []) ∧
    (K172.s.joined (Who.remote K172.n (State.rxHdr K172.f).eseq) = false) ∧
    (K172.s.hasCtx (State.rxHdr K172.f).ctx = false) ∧
    (State.returns { va := 4210688, size := 4, op := MemOp.load, ord := Ord.sync, scope := Scope.dev, nf := false : State.Ask }.op = true) :=
  by unfold Final Lit Sound; decide +kernel

namespace K173
def hd (src dst : Nat) (e hseq : Nat) : FlitHdr := ⟨src,dst,false,0,3,e,hseq⟩
def rx (h : FlitHdr) (t : Trailer) (ok : Bool) (b : Body) : FlitRx :=
  ⟨(fun l => if ok then l else l.set 20 (l.getD 20 0 + 1)) (State.flitBytes h t (State.Body.type b) (List.replicate
      176 0)), b⟩
def s : State :=
  { W.one with tlb := W.units.map fun u => ⟨u,0,W.leaf⟩, ctxs := [W.ctx0], fab := { State.reset.fab with en := true, slot := 1, ports := updAt State.reset.fab.ports 2 fun q => { q with far := some 9, trained := true, rx := 15 }, pairs := [{ Pair.reset 9 with hseqIn := 40, pgenOut := 4, pgenIn := 2, high := 70 , seen := [(69,some 6),(68,none)], cache := [(68,.reply 68 0 [1])] }], ring := ⟨0xC00000,6,0,0⟩, wc := [] }  }
def p := 2
def x := 9
def n := 9
def f : FlitRx := rx {hd 9 0 69 40 with ctx := 0} ⟨8,false,2⟩ true (.read 0x404000 4 .load .sync .dev false)
def q : List Req := s.reqs
end K173
theorem witness_FabricFlits_6 :
    (K173.n = (State.rxHdr K173.f).src) ∧
    (Final K173.s K173.p K173.x K173.f) ∧
    (State.FlitKind.read = State.kindOf K173.s.fab.node K173.f) ∧
    (State.askOf K173.f.body = some
      { va := 4210688, size := 4, op := MemOp.load, ord := Ord.sync, scope := Scope.dev, nf := false : State.Ask }) ∧
    (State.ahead (K173.s.pair K173.n).high (State.rxHdr K173.f).eseq = false) ∧
    (State.behind (K173.s.pair K173.n).high (State.rxHdr K173.f).eseq ≤ 4097) ∧
    (List.find? (fun y => y.fst == (State.rxHdr K173.f).eseq) (K173.s.pair K173.n).seen = some ((State.rxHdr
      K173.f).eseq, some 6)) :=
  by unfold Final Lit Sound; decide +kernel

namespace K174
def hd (src dst : Nat) (e hseq : Nat) : FlitHdr := ⟨src,dst,false,0,3,e,hseq⟩
def rx (h : FlitHdr) (t : Trailer) (ok : Bool) (b : Body) : FlitRx :=
  ⟨(fun l => if ok then l else l.set 20 (l.getD 20 0 + 1)) (State.flitBytes h t (State.Body.type b) (List.replicate
      176 0)), b⟩
def s : State :=
  { W.one with tlb := W.units.map fun u => ⟨u,0,W.leaf⟩, ctxs := [W.ctx0], fab := { State.reset.fab with en := true, slot := 1, ports := updAt State.reset.fab.ports 2 fun q => { q with far := some 9, trained := true, rx := 15 }, pairs := [{ Pair.reset 9 with hseqIn := 40, pgenOut := 4, pgenIn := 2, high := 70 , seen := [(69,some 6),(68,none)], cache := [(68,.reply 68 0 [1])] }], ring := ⟨0xC00000,6,0,0⟩, wc := [] }  }
def p := 2
def x := 9
def n := 9
def f : FlitRx := rx {hd 9 0 68 40 with ctx := 0} ⟨8,false,2⟩ true (.read 0x404000 4 .load .sync .dev false)
def q : List Req := s.reqs
end K174
theorem witness_FabricFlits_7 :
    (K174.n = (State.rxHdr K174.f).src) ∧
    (Final K174.s K174.p K174.x K174.f) ∧
    (State.FlitKind.read = State.kindOf K174.s.fab.node K174.f) ∧
    (State.askOf K174.f.body = some
      { va := 4210688, size := 4, op := MemOp.load, ord := Ord.sync, scope := Scope.dev, nf := false : State.Ask }) ∧
    (State.ahead (K174.s.pair K174.n).high (State.rxHdr K174.f).eseq = false) ∧
    (State.behind (K174.s.pair K174.n).high (State.rxHdr K174.f).eseq ≤ 4097) ∧
    (List.find? (fun y => y.fst == (State.rxHdr K174.f).eseq) (K174.s.pair K174.n).seen = some ((State.rxHdr
      K174.f).eseq, none)) ∧
    (List.find? (fun y => y.fst == (State.rxHdr K174.f).eseq) (K174.s.pair K174.n).cache = some ((State.rxHdr
      K174.f).eseq, Body.reply 68 0 [1])) :=
  by unfold Final Lit Sound; decide +kernel

namespace K175
def hd (src dst : Nat) (e hseq : Nat) : FlitHdr := ⟨src,dst,false,0,3,e,hseq⟩
def rx (h : FlitHdr) (t : Trailer) (ok : Bool) (b : Body) : FlitRx :=
  ⟨(fun l => if ok then l else l.set 20 (l.getD 20 0 + 1)) (State.flitBytes h t (State.Body.type b) (List.replicate
      176 0)), b⟩
def s : State :=
  { W.one with tlb := W.units.map fun u => ⟨u,0,W.leaf⟩, ctxs := [W.ctx0], fab := { State.reset.fab with en := true, slot := 1, ports := updAt State.reset.fab.ports 2 fun q => { q with far := some 9, trained := true, rx := 15 }, pairs := [{ Pair.reset 9 with hseqIn := 40, pgenOut := 4, pgenIn := 2, high := 70  }], ring := ⟨0xC00000,6,0,0⟩, wc := [] } , waits := [⟨7,0,.mem 0x800100,.ldce,.remote 9 5,0,3,.wait⟩,⟨8,0,.mem 0x800100,.ldce,.remote 9 5,0,3,.wait⟩,⟨9,0,.mem 0x800100,.ldce,.lanes 0 [1],0,3,.wait⟩] }
def p := 2
def x := 9
def n := 9
def f : FlitRx := rx {hd 9 0 70 40 with ctx := 0} ⟨8,false,2⟩ true (.cancel 33)
def q : List Req := s.reqs
end K175
theorem witness_FabricFlits_8 :
    (K175.n = (State.rxHdr K175.f).src) ∧
    (Final K175.s K175.p K175.x K175.f) ∧
    (K175.f.body = Body.cancel 33) ∧
    (State.ahead (K175.s.pair K175.n).high (State.rxHdr K175.f).eseq = true) ∧
    (∀ (r : Req), r ∈ K175.s.reqs → r.who ≠ Who.remote K175.n 33) ∧
    (∀ (i : Incoming), i ∈ K175.s.fab.incoming → i.who ≠ Who.remote K175.n 33) ∧
    (∀ (e : Wait), e ∈ K175.s.waits → e.who ≠ Waiter.remote K175.n 33) :=
  by unfold Final Lit Sound; decide +kernel

namespace K176
def hd (src dst : Nat) (e hseq : Nat) : FlitHdr := ⟨src,dst,false,0,3,e,hseq⟩
def rx (h : FlitHdr) (t : Trailer) (ok : Bool) (b : Body) : FlitRx :=
  ⟨(fun l => if ok then l else l.set 20 (l.getD 20 0 + 1)) (State.flitBytes h t (State.Body.type b) (List.replicate
      176 0)), b⟩
def s : State :=
  { W.one with tlb := W.units.map fun u => ⟨u,0,W.leaf⟩, ctxs := [W.ctx0], fab := { State.reset.fab with en := true, slot := 1, ports := updAt State.reset.fab.ports 2 fun q => { q with far := some 9, trained := true, rx := 15 }, pairs := [{ Pair.reset 9 with hseqIn := 40, pgenOut := 4, pgenIn := 2, high := 70 , seen := [(69,some 6),(68,none)], cache := [(68,.reply 68 0 [1])] }], ring := ⟨0xC00000,6,0,0⟩, wc := [] }  }
def p := 2
def x := 9
def n := 9
def f : FlitRx := rx {hd 9 0 70 40 with ctx := 3} ⟨8,false,2⟩ true (.opw 0x404008 (.atom .add .s32 5 false) 4 .dev)
def q : List Req := s.reqs
end K176
theorem witness_FabricFlits_9 :
    (K176.n = (State.rxHdr K176.f).src) ∧
    (Final K176.s K176.p K176.x K176.f) ∧
    (State.FlitKind.opw = State.kindOf K176.s.fab.node K176.f) ∧
    (State.askOf K176.f.body = some
      { va := 4210696, size := 4, op := MemOp.atom AtomOp.add Ty.s32 5 false, ord := Ord.plain, scope := Scope.dev, nf := false : State.Ask }) ∧
    (State.ahead (K176.s.pair K176.n).high (State.rxHdr K176.f).eseq = true) ∧
    (K176.s.fab.incoming = []) ∧
    (K176.s.joined (Who.remote K176.n (State.rxHdr K176.f).eseq) = false) ∧
    (K176.s.hasCtx (State.rxHdr K176.f).ctx = false) ∧
    (State.returns { va := 4210696, size := 4, op := MemOp.atom AtomOp.add Ty.s32 5 false, ord := Ord.plain, scope := Scope.dev, nf := false : State.Ask }.op = false) :=
  by unfold Final Lit Sound; decide +kernel

namespace K177
def hd (src dst : Nat) (e hseq : Nat) : FlitHdr := ⟨src,dst,false,0,3,e,hseq⟩
def rx (h : FlitHdr) (t : Trailer) (ok : Bool) (b : Body) : FlitRx :=
  ⟨(fun l => if ok then l else l.set 20 (l.getD 20 0 + 1)) (State.flitBytes h t (State.Body.type b) (List.replicate
      176 0)), b⟩
def s : State :=
  { W.one with tlb := W.units.map fun u => ⟨u,0,W.leaf⟩, ctxs := [W.ctx0], fab := { State.reset.fab with en := true, slot := 1, ports := updAt State.reset.fab.ports 2 fun q => { q with far := some 9, trained := true, rx := 15 }, pairs := [{ Pair.reset 9 with hseqIn := 40, pgenOut := 4, pgenIn := 2, high := 70 , seen := [(69,some 6),(68,none)], cache := [(68,.reply 68 0 [1])] }], ring := ⟨0xC00000,6,0,0⟩, wc := [] }  }
def p := 2
def x := 9
def n := 9
def f : FlitRx := rx {hd 9 0 70 40 with ctx := 0} ⟨8,false,2⟩ true (.read 0x404000 4 .load .sync .dev false)
def leaf : List Leaf :=
  (s.tlbHit .remote (State.rxHdr f).ctx ((State.askOf f.body).map (·.va) |>.getD 0)).toList ++ [W.leaf]
def q : List Req := s.reqs
def te0 : TlbEntry := { unit := TlbUnit.remote, ctx := 0, leaf := W.leaf }
end K177
theorem witness_FabricFlits_10 :
    (K177.n = (State.rxHdr K177.f).src) ∧
    (Final K177.s K177.p K177.x K177.f) ∧
    (State.FlitKind.read = State.kindOf K177.s.fab.node K177.f) ∧
    (State.askOf K177.f.body = some
      { va := 4210688, size := 4, op := MemOp.load, ord := Ord.sync, scope := Scope.dev, nf := false : State.Ask }) ∧
    (State.ahead (K177.s.pair K177.n).high (State.rxHdr K177.f).eseq = true) ∧
    (K177.s.fab.incoming = []) ∧
    (K177.s.joined (Who.remote K177.n (State.rxHdr K177.f).eseq) = false) ∧
    (K177.s.hasCtx (State.rxHdr K177.f).ctx = true) ∧
    ((K177.s.cx (State.rxHdr K177.f).ctx).killing = none) ∧
    ({ va := 4210688, size := 4, op := MemOp.load, ord := Ord.sync, scope := Scope.dev, nf := false : State.Ask }.op ≠
      MemOp.pgreq) ∧
    (State.planeVas { va := 4210688, size := 4, op := MemOp.load, ord := Ord.sync, scope := Scope.dev, nf := false : State.Ask }.op = []) ∧
    (K177.s.tlbHit TlbUnit.remote (State.rxHdr K177.f).ctx
      { va := 4210688, size := 4, op := MemOp.load, ord := Ord.sync, scope := Scope.dev, nf := false : State.Ask }.va
      = some K177.te0.leaf) ∧
    (State.permits { wr := State.writes { va := 4210688, size := 4, op := MemOp.load, ord := Ord.sync, scope := Scope.dev, nf := false : State.Ask }.op, fetch := false : State.Acc } K177.te0.leaf = true) ∧
    (K177.te0.leaf.pa + (Option.map (fun x => x.va) (State.askOf K177.f.body)).getD 0 % State.pageBytes
      K177.te0.leaf.sz = K177.te0.leaf.pa +
      { va := 4210688, size := 4, op := MemOp.load, ord := Ord.sync, scope := Scope.dev, nf := false : State.Ask }.va
      % State.pageBytes K177.te0.leaf.sz) ∧
    (State.opFe { va := 4210688, size := 4, op := MemOp.load, ord := Ord.sync, scope := Scope.dev, nf := false : State.Ask }.op = true → K177.te0.leaf.feb = true ∧ K177.te0.leaf.pa + (Option.map (fun x => x.va) (State.askOf K177.f.body)).getD 0 % State.pageBytes K177.te0.leaf.sz < Config.hostBase) ∧
    (Config.hostBase ≤ K177.te0.leaf.pa + (Option.map (fun x => x.va) (State.askOf K177.f.body)).getD 0 %
      State.pageBytes K177.te0.leaf.sz → State.hostCan
      { va := 4210688, size := 4, op := MemOp.load, ord := Ord.sync, scope := Scope.dev, nf := false : State.Ask }.op
      = true) :=
  by unfold Final Lit Sound; decide +kernel

namespace K178
def e2 : E2E := ⟨21, .read 0x404000 4 .load .plain .thr false, 0, some 9, 100, true, false, false, none, some 4⟩
def rq : Req :=
  { id := 4, who := .thread 0, core := 0, ctx := 0, team := 1, epoch := 0, op := .load, loc := .remote 9 0x404000,
      size := 4, ord := .plain, scope := .thr, hint := .none, cp := 0, pl := 0, feb := false, va := 0x404000, form :=
      .lane .s32 0 20, fill := [], co := 4, bytes := 4, merged := false, nrel := false, xw := false, parts := [],
      after := [], done := false, since := 0 }
def s : State :=
  { W.one with cycle := 900000, fab := { State.reset.fab with en := true, slot := 3, cal := setAt State.reset.fab.cal (8*1+4) (9,0), ports := updAt State.reset.fab.ports 1 fun q => { q with far := some 9, trained := true  }, pairs := [{ Pair.reset 9 with eseq := 22, fails := 0, out := [e2] }], ring := ⟨0xC00000,6,0,0⟩  } , reqs := [rq] }
def p := 1
def j := 2
def x := 9
def c := 5
def q : List Req := s.reqs
end K178
theorem witness_SourceClockHostEvents_1 :
    (K178.p < 8) ∧
    (K178.p < K178.s.fab.ports.length) ∧
    ((K178.s.port K178.p).live.length = 4) ∧
    (K178.j < 4) ∧
    ((K178.s.port K178.p).live.getD K178.j false = true) ∧
    ((K178.s.pair K178.x).out = [K178.e2]) ∧
    (K178.e2.sent = true) ∧
    (K178.e2.held = false) ∧
    (96256 * K178.s.rtmo ≤ 5 * (K178.s.cycle - K178.e2.since)) ∧
    ((K178.s.pair K178.x).fails + 1 < K178.s.utmo) ∧
    (K178.s.fab.slotLost = false) ∧
    (24064 ≤ 5 * (K178.s.cycle - K178.s.fab.slotAt)) ∧
    (K178.s.fab.slotLost = false ∨ K178.s.fab.goodPulses < 8 ∨ 60160 ≤ 25 * (K178.s.cycle - K178.s.fab.pulseAt)) ∧
    (0 = if true = true then 0 else (K178.s.fab.slot + 1) % 8) ∧
    (K178.j < 16) ∧
    (K178.p < 4) ∧
    (K178.s.fab.linkUp.length = 4) ∧
    (K178.s.fab.linkUp.getD K178.p false = true) ∧
    (4210692 % 128 + 1 ≤ 128) ∧
    (K178.s.hasCtx 0 = true) ∧
    ((K178.s.cx 0).killing = none) ∧
    (K178.s.fab.incoming = []) ∧
    (K178.s.joined (Who.ual K178.p (2 * K178.s.nextId)) = false) ∧
    (K178.s.tlbHit TlbUnit.remote 0 4210692 = some W.leaf) ∧
    (8404996 = W.leaf.pa + 4210692 % State.pageBytes W.leaf.sz) ∧
    (K178.s.teamsOn K178.c = []) ∧
    (∀ (q : Req), q ∈ K178.s.reqs → q.core ≠ K178.c) ∧
    (∀ (o : Op), o ∈ K178.s.ops → o.core ≠ K178.c) ∧
    (∃ k, k ∈ K178.s.cores ∧ k.idx = K178.c) ∧
    ((K178.s.co K178.c).gated = false) :=
  by decide +kernel

namespace K179
def s : State :=
  { W.one with cycle := 1000, fab := { State.reset.fab with en := true, slot := 3, cal := setAt State.reset.fab.cal (8*1+4) (9,0), ports := updAt State.reset.fab.ports 1 fun q => { q with far := some 9, trained := true  }, pairs := [{ Pair.reset 9 with eseq := 22 }], ring := ⟨0xC00000,6,0,0⟩ , slotLost := true, goodPulses := 9 }  }
def x := 9
def q : List Req := s.reqs
end K179
theorem witness_SourceClockHostEvents_2 :
    (∀ (e : E2E), e ∈ (K179.s.pair K179.x).out → e.held = true ∨ 5 * (K179.s.cycle - if e.sent = true then e.since
      else if (K179.s.pair K179.x).moved ≤ e.since then e.since else (K179.s.pair K179.x).moved) < 96256 *
      K179.s.rtmo) ∧
    (K179.s.fab.slotLost = true ∨ 5 * (K179.s.cycle - K179.s.fab.slotAt) < 24064) ∧
    (K179.s.fab.slotLost = true) ∧
    (8 ≤ K179.s.fab.goodPulses) ∧
    (25 * (K179.s.cycle - K179.s.fab.pulseAt) < 60160) ∧
    (0 = if true = true then 0 else (K179.s.fab.slot + 1) % 8) :=
  by decide +kernel

namespace K180
def rq : Req :=
  { id := 4, who := .thread 0, core := 0, ctx := 0, team := 1, epoch := 0, op := .load, loc := .remote 9 0x404000,
      size := 4, ord := .plain, scope := .thr, hint := .none, cp := 0, pl := 0, feb := false, va := 0x404000, form :=
      .lane .s32 0 20, fill := [], co := 4, bytes := 4, merged := false, nrel := false, xw := false, parts := [],
      after := [], done := false, since := 0 }
def ua : UalOut := ⟨4,1,9,0x404000,false,0,.read 0x404000 4 .load .plain .thr false,none,some 4,false,2,0x404000,false⟩
def s : State :=
  { W.one with cycle := 1000, fab := { State.reset.fab with en := true, slot := 3, cal := setAt State.reset.fab.cal (8*1+4) (9,0), ports := updAt State.reset.fab.ports 1 fun q => { q with far := some 9, trained := true  }, pairs := [{ Pair.reset 9 with eseq := 22 }], ring := ⟨0xC00000,6,0,0⟩ , linkUp := [true,false,true,true], ual := [ua] } , reqs := [rq], pend := [⟨11,.reg 0 20,.none,4,false,900⟩] }
def p := 1
def r := 4
def q : List Req := s.reqs
end K180
theorem witness_SourceClockHostEvents_3 :
    (K180.p < 4) ∧
    (K180.s.fab.linkUp.length = 4) ∧
    (K180.s.fab.linkUp.getD K180.p false = false) ∧
    (K180.s.fab.ual = [K180.ua]) ∧
    (K180.ua.id = K180.r) ∧
    (K180.ua.carried = false) ∧
    (State.ualNative K180.ua.body = true) ∧
    (K180.ua.wc = none) ∧
    (K180.ua.req = some 4) ∧
    (K180.s.req? 4 = some K180.rq) ∧
    (K180.rq.done = false) ∧
    (K180.rq.id ≠ 0) ∧
    (K180.rq.op = MemOp.load) ∧
    (K180.rq.who = Who.thread 0) ∧
    (K180.rq.form = LdForm.lane Ty.s32 0 20) ∧
    (tySize Ty.s32 ≤ 4) :=
  by decide +kernel

namespace K181
def rq : Req :=
  { id := 4, who := .thread 0, core := 0, ctx := 0, team := 1, epoch := 0, op := .load, loc := .remote 9 0x404000,
      size := 4, ord := .plain, scope := .thr, hint := .none, cp := 0, pl := 0, feb := false, va := 0x404000, form :=
      .lane .s32 0 20, fill := [], co := 4, bytes := 4, merged := false, nrel := false, xw := false, parts := [],
      after := [], done := false, since := 0 }
def s : State :=
  { W.one with cycle := 1000, fab := { State.reset.fab with en := true, slot := 3, cal := setAt State.reset.fab.cal (8*1+4) (9,0), ports := updAt State.reset.fab.ports 1 fun q => { q with far := some 9, trained := true  }, pairs := [{ Pair.reset 9 with eseq := 22 }], ring := ⟨0xC00000,6,0,0⟩  } , reqs := [{rq with op := .load, form := .lane .s32 0 20, loc := .host (0x8000000000000 + 64), after := []},{rq with id := 3}], pend := [⟨11,.reg 0 20,.none,4,false,900⟩], mem := Memory.setMany [] (0x8000000000000 + 64) [5,6,7,0x88] }
def r := 4
def q : List Req := s.reqs
def op : List AtomOp := [.add]
def rq0 : Req :=
  { rq with op := MemOp.load, loc := Loc.host (2251799813685248 + 64), form := LdForm.lane Ty.s32 0 20, after := [] }
end K181
theorem witness_SourceClockHostEvents_4 :
    (K181.s.req? K181.r = some (K181.rq0)) ∧
    ((K181.rq0).loc = Loc.host (2251799813685248 + 64)) ∧
    ((K181.rq0).who = Who.thread 0) ∧
    (K181.s.reqReady (K181.rq0) = true) ∧
    ((K181.rq0).parts = []) ∧
    ((K181.rq0).id ≠ 0) ∧
    ((K181.rq0).op = MemOp.load) ∧
    ((K181.rq0).form = LdForm.lane Ty.s32 0 20) ∧
    ((K181.rq0).size = tySize Ty.s32) ∧
    (tySize Ty.s32 ≤ 4) ∧
    ((K181.rq0).op ≠ MemOp.pgreq) ∧
    (K181.s.hasCtx (K181.s.ctxOfThread 0) = true) ∧
    ((K181.s.cx (K181.s.ctxOfThread 0)).killing = none) :=
  by decide +kernel

namespace K182
def s : State :=
  { W.one with cycle := 1000, fab := { State.reset.fab with en := true, slot := 3, cal := setAt State.reset.fab.cal (8*1+4) (9,0), ports := updAt State.reset.fab.ports 1 fun q => { q with far := some 9, trained := true , live := [true,true,false,true] }, pairs := [{ Pair.reset 9 with eseq := 22 }], ring := ⟨0xC00000,6,0,0⟩  }  }
def p := 1
def j := 2
def q : List Req := s.reqs
end K182
theorem witness_SourceClockHostEvents_5 :
    (K182.p < 8) ∧
    (K182.p < K182.s.fab.ports.length) ∧
    ((K182.s.port K182.p).live.length = 4) ∧
    (K182.j < 4) ∧
    ((K182.s.port K182.p).live.getD K182.j false = false) :=
  by decide +kernel

namespace K183
def e2 : E2E := ⟨21, .read 0x404000 4 .load .plain .thr false, 0, some 9, 100, true, false, false, none, some 4⟩
def rq : Req :=
  { id := 4, who := .thread 0, core := 0, ctx := 0, team := 1, epoch := 0, op := .load, loc := .remote 9 0x404000,
      size := 4, ord := .plain, scope := .thr, hint := .none, cp := 0, pl := 0, feb := false, va := 0x404000, form :=
      .lane .s32 0 20, fill := [], co := 4, bytes := 4, merged := false, nrel := false, xw := false, parts := [],
      after := [], done := false, since := 0 }
def s : State :=
  { W.one with cycle := 900000, fab := { State.reset.fab with en := true, slot := 3, cal := setAt State.reset.fab.cal (8*1+4) (9,0), ports := updAt State.reset.fab.ports 1 fun q => { q with far := some 9, trained := true  }, pairs := [{ Pair.reset 9 with eseq := 22, fails := 2, out := [e2] }], ring := ⟨0xC00000,6,0,0⟩  } , reqs := [rq] }
def x := 9
def q : List Req := s.reqs
end K183
theorem witness_SourceClockHostEvents_6 :
    (∃ ty d, K183.rq.form = LdForm.lane ty 0 d) ∧
    ((K183.s.pair K183.x).out = [K183.e2]) ∧
    (K183.e2.sent = true) ∧
    (K183.e2.held = false) ∧
    (96256 * K183.s.rtmo ≤ 5 * (K183.s.cycle - K183.e2.since)) ∧
    (K183.s.utmo ≤ (K183.s.pair K183.x).fails + 1) ∧
    (K183.e2.wc = none) ∧
    (K183.e2.req = some 4) ∧
    (K183.s.req? 4 = some K183.rq) ∧
    (K183.rq.done = false) ∧
    (K183.rq.op ≠ MemOp.pgreq) ∧
    (K183.rq.who = Who.thread 0) ∧
    ((K183.s.th 0).slot = 0) ∧
    ((K183.s.th 0).st = TSt.run) ∧
    (∃ y, y ∈ K183.s.threads ∧ y.slot = 0) ∧
    (∀ (y : Wc), y ∈ K183.s.fab.wc → y.peer ≠ K183.x) :=
  ⟨⟨_, _, rfl⟩,
   by decide +kernel⟩

namespace K184
def s : State :=
  { W.one with cycle := 1000, fab := { State.reset.fab with en := true, slot := 3, cal := setAt State.reset.fab.cal (8*1+4) (9,0), ports := updAt State.reset.fab.ports 1 fun q => { q with far := some 9, trained := true  }, pairs := [{ Pair.reset 9 with eseq := 22 }], ring := ⟨0xC00000,6,0,0⟩  } , cores := updAt State.reset.cores 5 fun k => { k with gated := true, l1 := [⟨1,4,[],0,0⟩] }, tlb := W.one.tlb ++ [⟨.core 5,0,W.leaf⟩,⟨.data 5 1,0,W.leaf⟩,⟨.peel 5,0,W.leaf⟩,⟨.instr 5 0,0,W.leaf⟩] }
def c := 5
def q : List Req := s.reqs
def k : List Nat := [0,5,200]
end K184
theorem witness_SourceClockHostEvents_7 :
    ((K184.s.co K184.c).gated = true) ∧
    (∃ k, k ∈ K184.s.cores ∧ k.idx = K184.c) :=
  by decide +kernel

namespace K185
def rq : Req :=
  { id := 4, who := .thread 0, core := 0, ctx := 0, team := 1, epoch := 0, op := .load, loc := .remote 9 0x404000,
      size := 4, ord := .plain, scope := .thr, hint := .none, cp := 0, pl := 0, feb := false, va := 0x404000, form :=
      .lane .s32 0 20, fill := [], co := 4, bytes := 4, merged := false, nrel := false, xw := false, parts := [],
      after := [], done := false, since := 0 }
def s : State :=
  { W.one with cycle := 1000, fab := { State.reset.fab with en := true, slot := 3, cal := setAt State.reset.fab.cal (8*1+4) (9,0), ports := updAt State.reset.fab.ports 1 fun q => { q with far := some 9, trained := true  }, pairs := [{ Pair.reset 9 with eseq := 22 }], ring := ⟨0xC00000,6,0,0⟩  } , reqs := [{rq with op := .atom .add .z32 5 true, form := .lane .s32 0 20, loc := .host (0x8000000000000 + 64), after := []},{rq with id := 3}], pend := [⟨11,.reg 0 20,.none,4,false,900⟩], mem := Memory.setMany [] (0x8000000000000 + 64) [5,6,7,0x88] }
def r := 4
def q : List Req := s.reqs
def op : List AtomOp := [.add]
def rq0 : Req :=
  { rq with op := MemOp.atom AtomOp.add Ty.z32 5 true, loc := Loc.host (2251799813685248 + 64), form := LdForm.lane Ty.s32 0 20, after := [] }
end K185
theorem witness_SourceClockHostEvents_8 :
    (∀ (f : Option Nat) (l : Nat) (m : Bool), (K185.rq0).form ≠ LdForm.fe 0 f l m) ∧
    (∀ (i : Instr) (l : Nat), (K185.rq0).form ≠ LdForm.planeRec i 0 l) ∧
    (K185.s.req? K185.r = some (K185.rq0)) ∧
    ((K185.rq0).loc = Loc.host (2251799813685248 + 64)) ∧
    ((K185.rq0).who = Who.thread 0) ∧
    (K185.s.reqReady (K185.rq0) = true) ∧
    ((K185.rq0).parts = []) ∧
    ((K185.rq0).id ≠ 0) ∧
    ((K185.rq0).op = MemOp.atom AtomOp.add Ty.z32 5 true) ∧
    ((K185.s.th 0).slot = 0) ∧
    ((K185.s.th 0).st = TSt.run) ∧
    (∃ y, y ∈ K185.s.threads ∧ y.slot = 0) :=
  ⟨by intros; simp [K185.rq0],
   by intros; simp [K185.rq0],
   by decide +kernel⟩

namespace K186
def rq : Req :=
  { id := 4, who := .thread 0, core := 0, ctx := 0, team := 1, epoch := 0, op := .load, loc := .remote 9 0x404000,
      size := 4, ord := .plain, scope := .thr, hint := .none, cp := 0, pl := 0, feb := false, va := 0x404000, form :=
      .lane .s32 0 20, fill := [], co := 4, bytes := 4, merged := false, nrel := false, xw := false, parts := [],
      after := [], done := false, since := 0 }
def s : State :=
  { W.one with cycle := 1000, fab := { State.reset.fab with en := true, slot := 3, cal := setAt State.reset.fab.cal (8*1+4) (9,0), ports := updAt State.reset.fab.ports 1 fun q => { q with far := some 9, trained := true  }, pairs := [{ Pair.reset 9 with eseq := 22 }], ring := ⟨0xC00000,6,0,0⟩  } , reqs := [{rq with op := .load, form := .lane .s32 0 20, loc := .host (0x8000000000000 + 64), after := [3]},{rq with id := 3}], pend := [⟨11,.reg 0 20,.none,4,false,900⟩], mem := Memory.setMany [] (0x8000000000000 + 64) [5,6,7,0x88] }
def r := 4
def q : List Req := s.reqs
def op : List AtomOp := [.add]
def rq0 : Req :=
  { rq with op := MemOp.load, loc := Loc.host (2251799813685248 + 64), form := LdForm.lane Ty.s32 0 20, after := [3] }
end K186
theorem witness_SourceClockHostEvents_9 :
    (K186.s.req? K186.r = some (K186.rq0)) ∧
    ((K186.rq0).loc = Loc.host (2251799813685248 + 64)) ∧
    ((K186.rq0).who = Who.thread 0) ∧
    (K186.s.reqReady (K186.rq0) = false) :=
  by decide +kernel

namespace K187
def s : State :=
  { W.one with cycle := 1000, fab := { State.reset.fab with en := true, slot := 3, cal := setAt State.reset.fab.cal (8*1+4) (9,0), ports := updAt State.reset.fab.ports 1 fun q => { q with far := some 9, trained := true  }, pairs := [{ Pair.reset 9 with eseq := 22 }], ring := ⟨0xC00000,6,0,0⟩  }  }
def c := 0
def q : List Req := s.reqs
end K187
theorem witness_SourceClockHostEvents_10 :
    (K187.s.teamsOn K187.c ≠ [] ∨ ∃ q, q ∈ K187.s.reqs ∧ q.core = K187.c) :=
  by decide +kernel

namespace K188
def e2 : E2E := ⟨21, .read 0x404000 4 .load .plain .thr false, 0, some 9, 100, true, false, false, none, some 4⟩
def rq : Req :=
  { id := 4, who := .thread 0, core := 0, ctx := 0, team := 1, epoch := 0, op := .load, loc := .remote 9 0x404000,
      size := 4, ord := .plain, scope := .thr, hint := .none, cp := 0, pl := 0, feb := false, va := 0x404000, form :=
      .lane .s32 0 20, fill := [], co := 4, bytes := 4, merged := false, nrel := false, xw := false, parts := [],
      after := [], done := false, since := 0 }
def s : State :=
  { W.one with cycle := 77, fab := { State.reset.fab with en := true, slot := 7, cal := setAt State.reset.fab.cal (8*1+4) (9,0), ports := updAt State.reset.fab.ports 1 fun q => { q with far := some 9, trained := true  }, pairs := [{ Pair.reset 9 with eseq := 22, out := [e2] }], ring := ⟨0xC00000,6,0,0⟩ , slotLost := true, goodPulses := 3, lostSlots := 63 } , reqs := [rq] }
def x := 9
def q : List Req := s.reqs
end K188
theorem witness_SourceClockHostEvents_11 :
    (K188.s.fab.slotLost = true) ∧
    (K188.s.fab.lostSlots = 63) ∧
    (K188.x < 64) ∧
    (K188.x ≠ K188.s.fab.node) ∧
    ((K188.s.pair K188.x).out ≠ []) :=
  by decide +kernel

namespace K189
def l0 : List Sched := [⟨5,.idle⟩]
def s : State :=
  { W.one with agenda := [], groups := [W.group0], mem := Memory.setMany [] (0x800000 + 0x400100 - 0x400000) ([]), threads := [W.thr 0, W.thr 1] , dev := { State.reset.dev with power := false } }
def dt := 3
def l : List Sched := l0
def s1x : State := atAct s dt l
end K189
theorem witness_StepRunsDecoded_1 :
    (K189.s1x = atAct K189.s K189.dt K189.l) ∧
    (K189.s.agenda = []) ∧
    (K189.s.dev.power = false) :=
  by decide +kernel

namespace K190
def l0 : List Sched := [⟨5,.idle⟩]
def s : State :=
  { W.one with agenda := ⟨3,.idle⟩ :: l0, groups := [W.group0], mem := Memory.setMany [] (0x800000 + 0x400100 - 0x400000) ([]), threads := [W.thr 0, W.thr 1]  }
def dt := 3
def l : List Sched := l0
def s1x : State := atAct s dt l
def sd0 : Sched := { dt := dt, act := Act.idle }
end K190
theorem witness_StepRunsDecoded_2 :
    (K190.s1x = atAct K190.s K190.dt K190.l) ∧
    (K190.s.agenda = K190.sd0 :: K190.l) :=
  by decide +kernel

namespace K191
def l0 : List Sched := [⟨5,.idle⟩]
def s : State :=
  { W.one with agenda := ⟨3,.event .filterClear⟩ :: l0, groups := [W.group0], mem := Memory.setMany [] (0x800000 + 0x400100 - 0x400000) ([]), threads := [W.thr 0, W.thr 1]  }
def dt := 3
def l : List Sched := l0
def s1x : State := atAct s dt l
def i : Instr := .filterClear
def sd0 : Sched := { dt := dt, act := Act.event i }
end K191
theorem witness_StepRunsDecoded_3 :
    (K191.s1x = atAct K191.s K191.dt K191.l) ∧
    (K191.s.agenda = K191.sd0 :: K191.l) ∧
    (K191.s1x.dev.power = true) ∧
    (toRaw K191.i = none) :=
  by decide +kernel

namespace K192
def l0 : List Sched := [⟨5,.idle⟩]
def s : State :=
  { W.one with agenda := ⟨3,.event (.bkpt h0)⟩ :: l0, groups := [W.group0], mem := Memory.setMany [] (0x800000 + 0x400100 - 0x400000) ([]), threads := [W.thr 0, W.thr 1]  }
def dt := 3
def l : List Sched := l0
def s1x : State := atAct s dt l
def i : Instr := .bkpt h0
def sd0 : Sched := { dt := dt, act := Act.event i }
end K192
theorem witness_StepRunsDecoded_4 :
    (K192.s1x = atAct K192.s K192.dt K192.l) ∧
    (K192.s.agenda = K192.sd0 :: K192.l) ∧
    (K192.s1x.dev.power = true) ∧
    ((toRaw K192.i).isSome = true) :=
  by decide +kernel

namespace K193
def l0 : List Sched := [⟨5,.idle⟩]
def bz : List Res := []
def s : State :=
  { W.one with agenda := ⟨3,.issue 0 0⟩ :: l0, groups := [W.group0], mem := Memory.setMany [] (0x800000 + 0x400100 - 0x400000) (leBytes 4 0x0042860E), threads := [W.thr 0, W.thr 1] , cores := updAt State.reset.cores 0 fun c => { c with next := [2000,0,0,0] } }
def dt := 3
def c := 0
def q := 0
def l : List Sched := l0
def s1x : State := atAct s dt l
def sd0 : Sched := { dt := dt, act := issueAct c q bz }
end K193
theorem witness_StepRunsDecoded_5 :
    (K193.s1x = atAct K193.s K193.dt K193.l) ∧
    (K193.s.agenda = K193.sd0 :: K193.l) ∧
    (K193.s1x.dev.power = true) ∧
    (K193.s1x.cycle < (K193.s1x.co K193.c).next.getD K193.q 0) :=
  by decide +kernel

namespace K194
def l0 : List Sched := [⟨5,.idle⟩]
def bz : List Res := []
def s : State :=
  { W.one with agenda := ⟨3,.issue 0 0⟩ :: l0, groups := [], mem := Memory.setMany [] (0x800000 + 0x400100 - 0x400000) (leBytes 4 0x8000), threads := [W.thr 0, W.thr 1]  }
def dt := 3
def c := 0
def q := 0
def l : List Sched := l0
def s1x : State := atAct s dt l
def sd0 : Sched := { dt := dt, act := issueAct c q bz }
end K194
theorem witness_StepRunsDecoded_6 :
    (K194.s1x = atAct K194.s K194.dt K194.l) ∧
    (K194.s.agenda = K194.sd0 :: K194.l) ∧
    (K194.s1x.dev.power = true) ∧
    ((K194.s1x.co K194.c).next.getD K194.q 0 ≤ K194.s1x.cycle) ∧
    ((taken K194.s1x K194.bz).pick K194.c K194.q = none) :=
  by decide +kernel

namespace K195
def l0 : List Sched := [⟨5,.idle⟩]
def bz : List Res := []
def s : State :=
  { W.one with agenda := ⟨3,.issue 0 0⟩ :: l0, groups := [W.group0], mem := Memory.setMany [] (0x800000 + 0x400100 - 0x400000) (leBytes 4 0x0042860E), threads := [W.thr 0, W.thr 1]  }
def dt := 3
def c := 0
def q := 0
def n := 4
def l : List Sched := l0
def s1x : State := atAct s dt l
def k : State.Cand := ((taken s1x bz).pick 0 0).getD ⟨[],0,false⟩
def s2 : State := picked (taken s1x bz) c q k
def f1 : State := (s2.fetchWord (k.threads.headD 0) k.pc.toNat).1
def f2 : State :=
  if n = 8 then ((f1.setCur { f1.cur with len := 8 }).fetchWord (k.threads.headD 0) ((k.pc.toNat + 4) % 2 ^ 64)).1
      else f1.setCur { f1.cur with len := n }
def i : Instr := .add h0 .wrap .s32 5 6 (.reg 7)
def sd0 : Sched := { dt := dt, act := issueAct c q bz }
end K195
theorem witness_StepRunsDecoded_7 :
    (FetchIs K195.s2 K195.k K195.i K195.n K195.f2) ∧
    (K195.s1x = atAct K195.s K195.dt K195.l) ∧
    (K195.s.agenda = K195.sd0 :: K195.l) ∧
    (K195.s1x.dev.power = true) ∧
    ((K195.s1x.co K195.c).next.getD K195.q 0 ≤ K195.s1x.cycle) ∧
    ((taken K195.s1x K195.bz).pick K195.c K195.q = some K195.k) ∧
    (K195.s2 = picked (taken K195.s1x K195.bz) K195.c K195.q K195.k) ∧
    (State.isConv K195.i = false) :=
  ⟨fetch_one (w := leNat (K195.s2.rdBytes (W.pa K195.k.pc.toNat) 4)) (by decide +kernel) (by decide +kernel),
   by decide +kernel⟩

namespace K196
def l0 : List Sched := [⟨5,.idle⟩]
def bz : List Res := []
def s : State :=
  { W.one with agenda := ⟨3,.issue 0 0⟩ :: l0, groups := [W.group0], mem := Memory.setMany [] (0x800000 + 0x400100 - 0x400000) (leBytes 4 0x804082FF), threads := [W.thr 0, W.thr 1]  }
def dt := 3
def c := 0
def q := 0
def n := 4
def l : List Sched := l0
def s1x : State := atAct s dt l
def k : State.Cand := ((taken s1x bz).pick 0 0).getD ⟨[],0,false⟩
def s2 : State := picked (taken s1x bz) c q k
def f1 : State := (s2.fetchWord (k.threads.headD 0) k.pc.toNat).1
def f2 : State :=
  if n = 8 then ((f1.setCur { f1.cur with len := 8 }).fetchWord (k.threads.headD 0) ((k.pc.toNat + 4) % 2 ^ 64)).1
      else f1.setCur { f1.cur with len := n }
def s4 : State := f2.converge.1
def i : Instr := .uadd h0 false 1 2 (.imm (-1))
def sd0 : Sched := { dt := dt, act := issueAct c q bz }
end K196
theorem witness_StepRunsDecoded_8 :
    (FetchIs K196.s2 K196.k K196.i K196.n K196.f2) ∧
    (K196.s1x = atAct K196.s K196.dt K196.l) ∧
    (K196.s.agenda = K196.sd0 :: K196.l) ∧
    (K196.s1x.dev.power = true) ∧
    ((K196.s1x.co K196.c).next.getD K196.q 0 ≤ K196.s1x.cycle) ∧
    ((taken K196.s1x K196.bz).pick K196.c K196.q = some K196.k) ∧
    (K196.s2 = picked (taken K196.s1x K196.bz) K196.c K196.q K196.k) ∧
    (State.isConv K196.i = true) ∧
    (K196.f2.converge = (K196.s4, true)) :=
  ⟨fetch_one (w := leNat (K196.s2.rdBytes (W.pa K196.k.pc.toNat) 4)) (by decide +kernel) (by decide +kernel),
   by decide +kernel⟩

namespace K197
def l0 : List Sched := [⟨5,.idle⟩]
def bz : List Res := []
def s : State :=
  { W.one with agenda := ⟨3,.issue 0 0⟩ :: l0, groups := [W.group0], mem := Memory.setMany [] (0x800000 + 0x400100 - 0x400000) (leBytes 4 0x804082FF), threads := [W.thr 0, {W.thr 1 with pc := 0x400200}]  }
def dt := 3
def c := 0
def q := 0
def n := 4
def l : List Sched := l0
def s1x : State := atAct s dt l
def k : State.Cand := ((taken s1x bz).pick 0 0).getD ⟨[],0,false⟩
def s2 : State := picked (taken s1x bz) c q k
def f1 : State := (s2.fetchWord (k.threads.headD 0) k.pc.toNat).1
def f2 : State :=
  if n = 8 then ((f1.setCur { f1.cur with len := 8 }).fetchWord (k.threads.headD 0) ((k.pc.toNat + 4) % 2 ^ 64)).1
      else f1.setCur { f1.cur with len := n }
def s4 : State := f2.converge.1
def i : Instr := .uadd h0 false 1 2 (.imm (-1))
def sd0 : Sched := { dt := dt, act := issueAct c q bz }
end K197
theorem witness_StepRunsDecoded_9 :
    (FetchIs K197.s2 K197.k K197.i K197.n K197.f2) ∧
    (K197.s1x = atAct K197.s K197.dt K197.l) ∧
    (K197.s.agenda = K197.sd0 :: K197.l) ∧
    (K197.s1x.dev.power = true) ∧
    ((K197.s1x.co K197.c).next.getD K197.q 0 ≤ K197.s1x.cycle) ∧
    ((taken K197.s1x K197.bz).pick K197.c K197.q = some K197.k) ∧
    (K197.s2 = picked (taken K197.s1x K197.bz) K197.c K197.q K197.k) ∧
    (State.isConv K197.i = true) ∧
    (K197.f2.converge = (K197.s4, false)) :=
  ⟨fetch_one (w := leNat (K197.s2.rdBytes (W.pa K197.k.pc.toNat) 4)) (by decide +kernel) (by decide +kernel),
   by decide +kernel⟩

namespace K198
def l0 : List Sched := [⟨5,.idle⟩]
def bz : List Res := []
def s : State :=
  { W.one with agenda := ⟨3,.issue 0 0⟩ :: l0, groups := [W.group0], mem := Memory.setMany [] (0x800000 + 0x400100 - 0x400000) (leBytes 4 0x1FC00000), threads := [W.thr 0, W.thr 1]  }
def dt := 3
def c := 0
def q := 0
def n := 4
def l : List Sched := l0
def s1x : State := atAct s dt l
def k : State.Cand := ((taken s1x bz).pick 0 0).getD ⟨[],0,false⟩
def s2 : State := picked (taken s1x bz) c q k
def f1 : State := (s2.fetchWord (k.threads.headD 0) k.pc.toNat).1
def f2 : State :=
  if n = 8 then ((f1.setCur { f1.cur with len := 8 }).fetchWord (k.threads.headD 0) ((k.pc.toNat + 4) % 2 ^ 64)).1
      else f1.setCur { f1.cur with len := n }
def pa0 : Nat := 0x800000 + 0x400100 - 0x400000
def w : Nat := leNat (s2.rdBytes pa0 4)
def sd0 : Sched := { dt := dt, act := issueAct c q bz }
end K198
theorem witness_StepRunsDecoded_10 :
    (WordAt K198.s2 (K198.k.threads.headD 0) (BitVec.toNat K198.k.pc) K198.w K198.f2) ∧
    (K198.s1x = atAct K198.s K198.dt K198.l) ∧
    (K198.s.agenda = K198.sd0 :: K198.l) ∧
    (K198.s1x.dev.power = true) ∧
    ((K198.s1x.co K198.c).next.getD K198.q 0 ≤ K198.s1x.cycle) ∧
    ((taken K198.s1x K198.bz).pick K198.c K198.q = some K198.k) ∧
    (K198.s2 = picked (taken K198.s1x K198.bz) K198.c K198.q K198.k) ∧
    (bitOf K198.w 29 = false) ∧
    (decodeWords K198.w 0 = none) ∧
    (State.uniWord K198.w = false) :=
  ⟨word_at (by decide +kernel) (by decide +kernel),
   by decide +kernel⟩

namespace K199
def l0 : List Sched := [⟨5,.idle⟩]
def bz : List Res := []
def s : State :=
  { W.one with agenda := ⟨3,.issue 0 0⟩ :: l0, groups := [W.group0], mem := Memory.setMany [] (0x800000 + 0x400100 - 0x400000) (leBytes 4 0x80008000), threads := [W.thr 0, W.thr 1]  }
def dt := 3
def c := 0
def q := 0
def n := 4
def l : List Sched := l0
def s1x : State := atAct s dt l
def k : State.Cand := ((taken s1x bz).pick 0 0).getD ⟨[],0,false⟩
def s2 : State := picked (taken s1x bz) c q k
def f1 : State := (s2.fetchWord (k.threads.headD 0) k.pc.toNat).1
def f2 : State :=
  if n = 8 then ((f1.setCur { f1.cur with len := 8 }).fetchWord (k.threads.headD 0) ((k.pc.toNat + 4) % 2 ^ 64)).1
      else f1.setCur { f1.cur with len := n }
def s4 : State := f2.converge.1
def pa0 : Nat := 0x800000 + 0x400100 - 0x400000
def w : Nat := leNat (s2.rdBytes pa0 4)
def sd0 : Sched := { dt := dt, act := issueAct c q bz }
end K199
theorem witness_StepRunsDecoded_11 :
    (WordAt K199.s2 (K199.k.threads.headD 0) (BitVec.toNat K199.k.pc) K199.w K199.f2) ∧
    (K199.s1x = atAct K199.s K199.dt K199.l) ∧
    (K199.s.agenda = K199.sd0 :: K199.l) ∧
    (K199.s1x.dev.power = true) ∧
    ((K199.s1x.co K199.c).next.getD K199.q 0 ≤ K199.s1x.cycle) ∧
    ((taken K199.s1x K199.bz).pick K199.c K199.q = some K199.k) ∧
    (K199.s2 = picked (taken K199.s1x K199.bz) K199.c K199.q K199.k) ∧
    (bitOf K199.w 29 = false) ∧
    (decodeWords K199.w 0 = none) ∧
    (State.uniWord K199.w = true) ∧
    (K199.f2.converge = (K199.s4, true)) :=
  ⟨word_at (by decide +kernel) (by decide +kernel),
   by decide +kernel⟩
end

section
/-! SUPPORT. Register reads and special registers: lane instructions that write one register of each thread, uniform
instructions that write one register of their group, and what package reset leaves (R29 to R31, R230, R321, R446). -/

namespace Sys2Proof.Machine.State

open Sys2Proof.Says

/-! ## Uniform instructions: the frame (R321) and 64-bit values (R230, R326) -/

/-- A list of different threads goes on: each of them, and no other. -/
theorem foldl_advance (l : List Nat) (hl : l.Nodup) (s : State) :
    l.foldl advance s = { s with threads := s.threads.map fun x =>
      if x.slot ∈ l then
        { x with pc := x.pc + BitVec.ofNat 64 s.cur.len, st := .run, retry := 0, re := .first, hbuf := [] }
      else x } := by
  induction l generalizing s with
  | nil => simp
  | cons t l ih =>
    obtain ⟨ht, hl'⟩ := List.nodup_cons.1 hl
    rw [List.foldl_cons, ih hl']
    simp only [advance, updThread, List.map_map]
    congr 1
    apply List.map_congr_left
    intro x _
    by_cases hx : x.slot = t
    · simp [hx, ht]
    · simp [hx]

/-- An update of a group that leaves its name, then the rest of M = 1, as one update. -/
theorem updGroup_restG (s : State) (m : Bool) (gs : Nat) (f : Group → Group) (hf : ∀ x, (f x).gslot = x.gslot) :
    (s.updGroup gs f).restG m gs =
      s.updGroup gs fun x => { f x with proof := if m && s.groupPend gs then true else (f x).proof } := by
  unfold restG
  rw [groupPend_updGroup]
  split
  · exact updGroup_updGroup _ _ _ _ hf
  · rfl

theorem updGroup_id (s : State) (gs : Nat) : s.updGroup gs sameG = s := by
  simp [updGroup, sameG]

theorem advanceAll_eq (s : State) (hn : s.cur.threads.Nodup) :
    s.advanceAll = { s with threads := s.threads.map fun x =>
      if x.slot ∈ s.cur.threads then
        { x with pc := x.pc + BitVec.ofNat 64 s.cur.len, st := .run, retry := 0, re := .first, hbuf := [] }
      else x } := foldl_advance _ hn s

theorem updGroup_cur_threads (s : State) (gs : Nat) (f : Group → Group) :
    (s.updGroup gs f).cur.threads = s.cur.threads := rfl

/-- The rest of M = 1 looks at the pending results alone, which going on leaves. -/
theorem restG_advanceAll (s : State) (hn : s.cur.threads.Nodup) (m : Bool) (gs : Nat) :
    s.advanceAll.restG m gs = (s.restG m gs).advanceAll := by
  have hn' : (s.restG m gs).cur.threads.Nodup := by
    unfold restG
    split <;> exact hn
  rw [advanceAll_eq _ hn, advanceAll_eq _ hn']
  unfold restG groupPend
  split <;> rfl

/-- A group's update, the bundle's going on and the rest of M = 1, as one record. -/
theorem restG_advanceAll_updGroup (s : State) (hn : s.cur.threads.Nodup) (m : Bool) (gs : Nat) (f : Group → Group)
    (hf : ∀ x, (f x).gslot = x.gslot) :
    ((s.updGroup gs f).advanceAll).restG m gs =
      { s with
        threads := s.threads.map fun x =>
          if x.slot ∈ s.cur.threads then
            { x with pc := x.pc + BitVec.ofNat 64 s.cur.len, st := .run, retry := 0, re := .first, hbuf := [] }
          else x
        groups := s.groups.map fun x =>
          if x.gslot = gs then { f x with proof := if m && s.groupPend gs then true else (f x).proof } else x } := by
  rw [restG_advanceAll (s.updGroup gs f) hn, updGroup_restG _ _ _ _ hf]
  exact advanceAll_eq (s.updGroup gs _) hn

/-- A uniform instruction that changes its group by `f` and lets every thread of the bundle go on. -/
theorem uniOp_goes {s : State} {gs : Nat} {h : Hdr} {reads : List Opd} {body : State → Nat → State} {f : Group → Group}
    (hr : UReady s gs h reads) (hf : ∀ x, (f x).gslot = x.gslot)
    (hb : body s gs = (s.updGroup gs f).advanceAll) : uniOp h reads body s = uniGoes s gs h f := by
  obtain ⟨hn, hgs, hz⟩ := hr
  have hc : s.curGroup = gs := hgs
  unfold uniOp
  simp only [hc]
  cases hg : s.guardG gs h.gd with
  | false =>
    have stays := restG_advanceAll_updGroup s hn h.m gs sameG fun _ => rfl
    rw [updGroup_id] at stays
    simp only [Bool.not_false, if_true, stays, uniGoes, uniTo, hg, sameG, Bool.false_eq_true, if_false]
  | true =>
    have pass : (if (s.gr gs).haz then reads.find? (s.opdPend (gs * 32)) else none) = none := by
      split
      · rename_i hhaz
        rw [List.find?_eq_none]
        intro o ho
        simp [hz hhaz hg o ho]
      · rfl
    have acts := restG_advanceAll_updGroup s hn h.m gs f hf
    simp only [Bool.not_true, Bool.false_eq_true, if_false, pass, hb, acts, uniGoes, uniTo, hg, if_true]

/-- A write of a g register is an update of its group (R230). -/
theorem setG_eq (s : State) (gs d v : Nat) : s.setG gs d v = s.updGroup gs (putG d (BitVec.ofNat 64 v)) := by
  unfold setG
  split
  · rename_i hd
    have : putG d (BitVec.ofNat 64 v) = sameG := by funext x; simp [putG, sameG, hd]
    rw [this, updGroup_id]
  · rename_i hd
    simp [updGroup, putG, hd]

theorem putG_gslot (d : Nat) (v : DWord) (x : Group) : (putG d v x).gslot = x.gslot := by
  unfold putG
  split <;> rfl

/-- A result into gD, and the next instruction. -/
theorem uniOp_uniG {s : State} {gs : Nat} {h : Hdr} {reads : List Opd} {d : Nat} {f : State → Nat → Nat} {v : DWord}
    (hr : UReady s gs h reads) (hv : BitVec.ofNat 64 (f s gs) = v) :
    uniOp h reads (uniG d f) s = uniGoes s gs h (putG d v) :=
  uniOp_goes hr (putG_gslot d v) (by rw [uniG, setG_eq, hv])

/-- A result into qD, and the next instruction. -/
theorem uniOp_uniQ {s : State} {gs : Nat} {h : Hdr} {reads : List Opd} {d : Nat} {f : State → Nat → Bool} {b : Bool}
    (hr : UReady s gs h reads) (hv : f s gs = b) :
    uniOp h reads (uniQ d f) s = uniGoes s gs h (putQ d b) :=
  uniOp_goes hr (fun _ => rfl) (by rw [uniQ, hv]; rfl)

theorem rg_eq (s : State) (gs n : Nat) : s.rg gs n = (g s gs n).toNat := by
  unfold rg g
  split <;> rfl

theorem wrapN_eq_toNat (n : Nat) (z : Int) : wrapN n z = (BitVec.ofInt n z).toNat := by
  simp [wrapN, BitVec.toNat_ofInt]

theorem srcG_eq (s : State) (gs : Nat) (b : Src) : s.srcG gs b = (gsrc s gs b).toNat := by
  cases b with
  | reg n => exact rg_eq s gs n
  | imm v => exact wrapN_eq_toNat 64 v

theorem sext_toNat {n : Nat} (hn : 0 < n) (b : BitVec n) : sext n b.toNat = b.toInt := by
  obtain ⟨k, rfl⟩ := Nat.exists_eq_add_of_lt hn
  have hb := b.isLt
  have hp : 2 ^ (0 + k + 1) = 2 * 2 ^ k := by rw [Nat.zero_add, Nat.pow_succ']
  unfold sext
  rw [BitVec.toInt_eq_toNat_cond, Nat.mod_eq_of_lt hb]
  simp only [Nat.zero_add, Nat.add_sub_cancel] at *
  split <;> split <;> push_cast <;> omega

theorem int64_toNat (uns : Bool) (x : DWord) : int64 uns x.toNat = num64 uns x := by
  unfold int64 num64
  split
  · rfl
  · exact sext_toNat (by decide) x

theorem holdsI_eq_cond (cc : Cond) (x y : Int) : holdsI cc x y = Says.cond cc x y := by
  cases cc <;> rfl

/-- ULIH in numbers and in bits: the 16-bit field at k is replaced (R239). -/
theorem replaceField (x : DWord) (k v : Nat) :
    BitVec.ofNat 64 (x.toNat / 2 ^ (k + 16) * 2 ^ (k + 16) + v % 65536 * 2 ^ k + x.toNat % 2 ^ k) =
      (x &&& ~~~((0xFFFF : DWord) <<< k)) ||| (BitVec.ofNat 64 (v % 65536) <<< k) := by
  have fields : x.toNat / 2 ^ (k + 16) * 2 ^ (k + 16) + v % 65536 * 2 ^ k + x.toNat % 2 ^ k =
      2 ^ k * (2 ^ 16 * (x.toNat / 2 ^ (k + 16)) + v % 2 ^ 16) + x.toNat % 2 ^ k := by
    generalize x.toNat / 2 ^ (k + 16) = q
    rw [show v % 65536 = v % 2 ^ 16 from rfl, Nat.pow_add, Nat.mul_add]
    ac_rfl
  have ones (j : Nat) : (0xFFFF : DWord).getLsbD j = decide (j < 16) := Nat.testBit_two_pow_sub_one 16 j
  have low (j : Nat) : (v % 65536).testBit j = (decide (j < 16) && v.testBit j) := Nat.testBit_mod_two_pow v 16 j
  have bit (j : Nat) : x.getLsbD j = x.toNat.testBit j := rfl
  apply BitVec.eq_of_getLsbD_eq
  intro i hi
  rw [fields, BitVec.getLsbD_ofNat, Nat.testBit_two_pow_mul_add _ (Nat.mod_lt _ (Nat.two_pow_pos k)),
    Nat.testBit_two_pow_mul_add _ (Nat.mod_lt _ (by decide))]
  simp only [hi, decide_true, Bool.true_and, BitVec.getLsbD_or, BitVec.getLsbD_and, BitVec.getLsbD_not,
    BitVec.getLsbD_shiftLeft, BitVec.getLsbD_ofNat, ones, low, bit, Nat.testBit_mod_two_pow, Nat.testBit_div_two_pow]
  by_cases below : i < k
  · simp [below]
  · by_cases field : i - k < 16
    · have : i - k < 64 := by omega
      simp [below, field, this]
    · have : i - k - 16 + (k + 16) = i := by omega
      simp [below, field, this]

theorem toNat_extract (x : DWord) (p len : Nat) :
    x.toNat / 2 ^ p % 2 ^ len = ((x >>> p).setWidth len).toNat := by
  simp [Nat.shiftRight_eq_div_pow]

/-- The values of the codes that MOVS and UMOVS share, as a group sees them (R29 to R31). -/
theorem specialReg_listed (s : State) (gs : Nat) (p : Nat × Nat) (hp : p ∈ [
    (2, (s.gr gs).gid), (3, (s.tm (s.gr gs).team).x), (4, (s.tm (s.gr gs).team).y), (5, (s.tm (s.gr gs).team).z),
    (6, (s.tm (s.gr gs).team).nx), (7, (s.tm (s.gr gs).team).ny), (8, (s.tm (s.gr gs).team).nz), (9, (s.gr gs).role),
    (10, gs / 64), (11, State.rank (gs / 64)), (12, State.cluster (gs / 64)), (13, s.fab.node),
    (16, s.fab.slot + 8 * (s.fab.slotCycle % 2 ^ 29)), (17, State.dieOf (gs / 64)),
    (18, (s.tm (s.gr gs).team).prio)]) :
    p.1 ≠ 14 ∧ p.1 ≠ 15 ∧ s.specialReg gs p.1 = p.2 := by
  simp only [List.mem_cons, List.not_mem_nil, or_false] at hp
  rcases hp with rfl | rfl | rfl | rfl | rfl | rfl | rfl | rfl | rfl | rfl | rfl | rfl | rfl | rfl | rfl <;>
    exact ⟨Nat.ne_of_beq_eq_false rfl, Nat.ne_of_beq_eq_false rfl, rfl⟩

/-! ## Lane instructions on registers, in the vocabulary of the statements (R29 to R31, R212) -/

/-- An update of one thread that goes on: both parts as one update. -/
theorem advance_updThread (s : State) (t : Nat) (f : Thread → Thread) (hf : ∀ x, (f x).slot = x.slot) :
    (s.updThread t f).advance t = s.updThread t fun x =>
      { f x with pc := (f x).pc + BitVec.ofNat 64 s.cur.len, st := .run, retry := 0, re := .first, hbuf := [] } :=
  updThread_updThread s t f _ hf

/-- A register instruction over a bundle whose threads are ready, in the vocabulary of the statements: each thread with
a true guard changes as `f` says and goes on. -/
theorem laneOp_goes {h : Hdr} {u : Uses} {body : State → Nat → State} {s : State} {f : Nat → Thread → Thread}
    (hr : Ready s h u) (hs : ∀ t x, (f t x).slot = x.slot) (hpc : ∀ t x, (f t x).pc = x.pc)
    (hb : ∀ t ∈ s.cur.threads, ∀ ths : List Thread, (s.setThreads ths).th t = s.th t →
      body (s.setThreads ths) t = ((s.setThreads ths).updThread t (f t)).advance t) :
    laneOp h u body s = goes s h f := by
  refine laneOp_all h u body s (fun t x => { f t x with pc := x.pc + BitVec.ofNat 64 s.cur.len }) hs hr.1 hr.2 ?_
  intro t ht _ ths hth
  rw [hb t ht ths hth, advance_updThread _ _ _ (hs t)]
  simp only [hpc, setThreads_cur]

/-- A fixed-latency result into a lane register over a whole bundle: each thread's value is the one that it would
compute in the state before. -/
theorem laneOp_fixW_goes {h : Hdr} {u : Uses} {d : Nat} {v : State → Nat → Nat} {w : Nat → Word} {s : State}
    (hr : Ready s h u) (hv : ∀ t ∈ s.cur.threads, ∀ ths : List Thread, (s.setThreads ths).th t = s.th t →
      BitVec.ofNat 32 (v (s.setThreads ths) t) = w t) :
    laneOp h u (fixW d v) s = goes s h fun t => put d (w t) := by
  refine laneOp_goes hr (fun _ _ => rfl) (fun _ _ => rfl) fun t ht ths hth => ?_
  rw [← hv t ht ths hth]
  rfl

/-- MOVS reads the thread itself and what no thread's registers hold. -/
theorem movsVal_setThreads (s : State) (ths : List Thread) (t sc : Nat) (hth : (s.setThreads ths).th t = s.th t) :
    movsVal sc (s.setThreads ths) t = movsVal sc s t := by
  simp only [movsVal, hth]
  rfl

theorem word_ofNat_mod (n : Nat) : BitVec.ofNat 32 (n % 2 ^ 32) = BitVec.ofNat 32 n :=
  BitVec.eq_of_toNat_eq (by simp)

/-- MOVS of any code but CLOCKLO writes the code's value (R290). -/
theorem exec_movs_goes {s : State} {h : Hdr} {d sc : Nat} {w : Nat → Word} (hr : Ready s h (useD d [])) (hsc : sc ≠ 14)
    (hw : ∀ t, BitVec.ofNat 32 (movsVal sc s t) = w t) :
    exec (.movs h d sc) s = .next (goes s h fun t => put d (w t)) := by
  refine congrArg Host.Outcome.next
    (laneOp_goes (f := fun t => put d (w t)) hr (fun _ _ => rfl) (fun _ _ => rfl) fun t _ ths hth => ?_)
  simp only [hsc, if_false, movsVal_setThreads s ths t sc hth, setW, hw]
  rfl

/-- The values that MOVS writes, code by code (R29, R30): those that need no latch. -/
theorem movsVal_listed (s : State) (p : Nat × (Nat → Nat)) (hp : p ∈ [
    (0, fun t => t % 32), (1, fun t => (s.grOf t).gid * 32 + t % 32), (2, fun t => (s.grOf t).gid),
    (3, fun t => (s.tmOf t).x), (4, fun t => (s.tmOf t).y), (5, fun t => (s.tmOf t).z),
    (6, fun t => (s.tmOf t).nx), (7, fun t => (s.tmOf t).ny), (8, fun t => (s.tmOf t).nz),
    (9, fun t => (s.grOf t).role), (10, fun t => t / 2048), (11, fun t => State.rank (t / 2048)),
    (12, fun t => State.cluster (t / 2048)), (13, fun _ => s.fab.node),
    (16, fun _ => s.fab.slot + 8 * (s.fab.slotCycle % 2 ^ 29)), (17, fun t => State.dieOf (t / 2048)),
    (18, fun t => (s.tmOf t).prio)]) :
    p.1 ≠ 14 ∧ ∀ t, BitVec.ofNat 32 (movsVal p.1 s t) = BitVec.ofNat 32 (p.2 t) := by
  have core (t : Nat) : t / 32 / 64 = t / 2048 := Nat.div_div_eq_div_mul t 32 64
  simp only [List.mem_cons, List.not_mem_nil, or_false] at hp
  rcases hp with rfl | rfl | rfl | rfl | rfl | rfl | rfl | rfl | rfl | rfl | rfl | rfl | rfl | rfl | rfl | rfl | rfl <;>
    refine ⟨Nat.ne_of_beq_eq_false rfl, fun t => ?_⟩ <;>
    simp only [movsVal, specialReg, core, word_ofNat_mod] <;> rfl

/-- What a thread reads from a uniform register: the register, or a result that has come for it (R212). -/
theorem rgSeen_cases (s : State) (t a : Nat) :
    ∃ v : DWord, s.rgSeen t a = v.toNat ∧
      (v = g s (t / 32) a ∨ a ≠ 0 ∧ ∃ p ∈ s.pend, p.dst = .ureg (t / 32) a ∧ p.val = .ureg v) := by
  have old : s.rg (t / 32) a = (g s (t / 32) a).toNat := rg_eq s (t / 32) a
  unfold rgSeen
  split
  case h_2 => exact ⟨_, old, .inl rfl⟩
  case h_1 p hp =>
    have hd := List.find?_some hp
    simp only [Bool.and_eq_true, bne_iff_ne, beq_iff_eq] at hd
    split
    case h_2 => exact ⟨_, old, .inl rfl⟩
    case h_1 v hv =>
      split
      · exact ⟨v, rfl, .inr ⟨hd.1, p, List.mem_of_find?_eq_some hp, hd.2, hv⟩⟩
      · exact ⟨_, old, .inl rfl⟩

/-! ## Reset (R35) -/

/-- Every core after package reset is a reset core, also one that the table doesn't list. -/
theorem reset_co (c : Nat) : State.reset.co c = Core.reset c := by
  unfold State.co
  cases hf : State.reset.cores.find? fun x => x.idx == c with
  | none => rfl
  | some x =>
    have hx : x.idx = c := by simpa using List.find?_some hf
    obtain ⟨i, -, rfl⟩ := List.mem_map.1 (List.mem_of_find?_eq_some hf)
    exact congrArg Core.reset hx

end Sys2Proof.Machine.State
end

section
open Sys2Proof Sys2Proof.Machine Sys2Proof.Says State

/-- Settles O59: every field by evaluation; the cores and the calibration entries by the way their lists are made. -/
theorem resetValues : Obligations.ResetValues := by
  have cal : ∀ p sl, p < 8 → sl < 8 → State.reset.fab.cal[8 * p + sl]? = some (0x3F, 2) := by
    intro p sl hp hsl
    exact List.getElem?_replicate_of_lt (by omega)
  have inv : Safety.Inv State.reset :=
    ⟨rfl, fun _ hl => absurd hl List.not_mem_nil, fun _ hr => absurd hr List.not_mem_nil, List.nodup_nil⟩
  refine ⟨rfl, fun c _ => ?_, rfl, rfl, rfl, cal, rfl, rfl, rfl, rfl, inv⟩
  rw [reset_co]
  exact ⟨rfl, rfl⟩

/-- Settles O16: MOVS and MOVG write one value into each thread's register, which the thread computes in the state before
the bundle. -/
theorem laneMovsMovg : Obligations.LaneMovsMovg := by
  intro s h d a
  refine ⟨fun hr => ⟨fun p hp => ?_, ?_, ?_⟩, fun hr => ?_⟩
  · obtain ⟨hne, hv⟩ := State.movsVal_listed s p hp
    exact State.exec_movs_goes hr hne hv
  · refine congrArg Host.Outcome.next (State.laneOp_goes (f := fun _ x =>
        { put d (BitVec.ofNat 32 s.cycle) x with clockHi := some (BitVec.ofNat 32 (s.cycle % 2 ^ 64 / 2 ^ 32)) })
      hr (fun _ _ => rfl) (fun _ _ => rfl) fun t _ ths _ => ?_)
    have hv : BitVec.ofNat 32 (movsVal 14 (s.setThreads ths) t) = BitVec.ofNat 32 s.cycle :=
      BitVec.eq_of_toNat_eq (by simp [movsVal, State.clock])
    simp only [if_true, State.setW, hv]
    exact congrArg (State.advance · t) (State.updThread_updThread _ t (put d _) _ fun _ => rfl)
  · refine State.exec_movs_goes hr (by decide) fun t => ?_
    simp only [movsVal, BitVec.ofNat_toNat, BitVec.setWidth_eq, State.clock]
    cases (s.th t).clockHi <;> rfl
  · have seenBy := fun t => State.rgSeen_cases s t a
    have seen (ths : List Thread) (t : Nat) : (s.setThreads ths).rgSeen t a = ((seenBy t).choose).toNat :=
      (seenBy t).choose_spec.1
    refine ⟨fun t => (seenBy t).choose, fun t => (seenBy t).choose_spec.2, ?_, ?_⟩ <;>
      refine congrArg Host.Outcome.next (State.laneOp_fixW_goes hr fun t _ ths _ => ?_) <;>
      simp only [seen] <;> apply BitVec.eq_of_toNat_eq
    · simp
    · simp [Nat.shiftRight_eq_div_pow]

/-- Settles O35: each of the seven writes one result into its group, the same number as the statement's bit vector. -/
theorem uniformConstSelect : Obligations.UniformConstSelect := by
  intro s gs h cc op na nb uns d a hw v z b c qa qb len sc
  refine ⟨fun hr => ⟨?uli, ?uqlog, ?clock, ?clockHi, fun h14 h15 => ?special, fun p hp => ?listed⟩,
    fun _ _ hr => ?ulih, fun hr => ⟨?usetq, ?usel, fun hlen _ => ⟨?ubfx, ?ubfxS⟩⟩⟩
  all_goals refine congrArg Host.Outcome.next ?_
  case uli => exact uniOp_uniG hr (by rw [wrapN_eq_toNat, BitVec.ofNat_toNat, BitVec.setWidth_eq])
  case uqlog => exact uniOp_uniQ hr (by cases op <;> simp [logOp])
  case clock => exact uniOp_uniG hr (BitVec.eq_of_toNat_eq (by simp [clock]))
  case clockHi => exact uniOp_uniG hr rfl
  case special => exact uniOp_uniG hr (by simp [h14, h15])
  case listed =>
    obtain ⟨h14, h15, hv⟩ := specialReg_listed s gs p hp
    exact uniOp_uniG hr (by simp [h14, h15, hv])
  case ulih =>
    refine uniOp_uniG hr ?_
    rw [rg_eq]
    exact replaceField _ _ _
  case usetq => exact uniOp_uniQ hr (by rw [rg_eq, srcG_eq, int64_toNat, int64_toNat, holdsI_eq_cond])
  case usel =>
    refine uniOp_uniG hr ?_
    simp only [rg_eq, srcG_eq]
    split <;> simp
  case ubfx =>
    refine uniOp_uniG hr ?_
    simp only [rg_eq, srcG_eq, toNat_extract, Bool.false_eq_true, if_false, BitVec.ofNat_toNat]
  case ubfxS =>
    refine uniOp_uniG hr ?_
    simp only [rg_eq, srcG_eq, toNat_extract, if_true, sext_toNat hlen, wrapN_eq_toNat, BitVec.ofNat_toNat]
    rfl
end


section
namespace Sys2Proof.Machine.State
open Sys2Proof.Says

/-! ## Accesses put on their way -/

/-- An access of thread t with the order o, issued in s and named below n. -/
structure OwnReq (s : State) (t : Nat) (o : Ord) (n : Nat) (r : Req) : Prop where
  who : r.who = .thread t
  core : r.core = coreOf t
  ctx : r.ctx = s.ctxOfThread t
  ord : r.ord = o
  done : r.done = false
  fresh : s.nextId ≤ r.id
  below : r.id < n

/-- s1 is s after thread t has put these operations on their way, with a pending result for each destination; the
cores are then `cs` (a store writes the L1 of its core). -/
def Sent (s : State) (cs : List Core) (s1 : State) (t : Nat) (o : Ord) (ops : List (MemOp × Loc × Nat))
    (ds : List Dst) : Prop :=
  ∃ (rs : List Req) (ps : List Pend) (n : Nat),
    s1 = { s with reqs := s.reqs ++ rs, pend := s.pend ++ ps, cores := cs, nextId := n } ∧ s.nextId ≤ n ∧
    rs.map (fun r => (r.op, r.loc, r.size)) = ops ∧ ps.map (·.dst) = ds ∧ (∀ r ∈ rs, OwnReq s t o n r) ∧
    ∀ p ∈ ps, p.val = .none ∧ ∃ r ∈ rs, r.id = p.req

theorem Sent.nil (s : State) (t : Nat) (o : Ord) : Sent s s.cores s t o [] [] :=
  ⟨[], [], s.nextId, by simp, Nat.le_refl _, rfl, rfl, by simp, by simp⟩

theorem Sent.trans {s s1 s2 : State} {cs cs' : List Core} {t : Nat} {o : Ord} {ops ops' : List (MemOp × Loc × Nat)}
    {ds ds' : List Dst} (h : Sent s cs s1 t o ops ds) (h' : Sent s1 cs' s2 t o ops' ds') :
    Sent s cs' s2 t o (ops ++ ops') (ds ++ ds') := by
  obtain ⟨rs, ps, n, rfl, hn, rfl, rfl, hr, hp⟩ := h
  obtain ⟨rs', ps', n', rfl, hn', rfl, rfl, hr', hp'⟩ := h'
  refine ⟨rs ++ rs', ps ++ ps', n', by simp, Nat.le_trans hn hn', by simp, by simp, ?_, ?_⟩
  · intro r hm
    rcases List.mem_append.1 hm with hm | hm
    · exact { hr r hm with below := Nat.lt_of_lt_of_le (hr r hm).below hn' }
    · exact { hr' r hm with ctx := (hr' r hm).ctx, fresh := Nat.le_trans hn (hr' r hm).fresh }
  · intro p hm
    rcases List.mem_append.1 hm with hm | hm
    · obtain ⟨hv, r, hrm, hid⟩ := hp p hm
      exact ⟨hv, r, List.mem_append_left _ hrm, hid⟩
    · obtain ⟨hv, r, hrm, hid⟩ := hp' p hm
      exact ⟨hv, r, List.mem_append_right _ hrm, hid⟩

/-- What the L1s held before doesn't matter to what is on its way. -/
theorem Sent.of_setCores {s s1 : State} {c cs : List Core} {t : Nat} {o : Ord} {ops : List (MemOp × Loc × Nat)}
    {ds : List Dst} (h : Sent (s.setCores c) cs s1 t o ops ds) : Sent s cs s1 t o ops ds := by
  obtain ⟨rs, ps, n, rfl, hn, hops, hds, hr, hp⟩ := h
  exact ⟨rs, ps, n, rfl, hn, hops, hds, fun r hm => { hr r hm with ctx := (hr r hm).ctx }, hp⟩

/-- Pending results of one access, one for each destination. -/
theorem foldl_addPend (ds : List Dst) (rid : Nat) (s : State) :
    ∃ (ps : List Pend) (n : Nat), ds.foldl (fun s d => s.addPend d .none rid false) s =
        { s with pend := s.pend ++ ps, nextId := n } ∧ s.nextId ≤ n ∧ ps.map (·.dst) = ds ∧
      ∀ p ∈ ps, p.val = .none ∧ p.req = rid := by
  induction ds generalizing s with
  | nil => exact ⟨[], s.nextId, by simp, Nat.le_refl _, rfl, by simp⟩
  | cons d ds ih =>
    obtain ⟨ps, n, he, hn, hd, hp⟩ := ih (s.addPend d .none rid false)
    refine ⟨⟨s.nextId, d, .none, rid, false, s.cycle⟩ :: ps, n, ?_, ?_, by simp [hd], ?_⟩
    · rw [List.foldl_cons, he]
      simp [addPend]
    · exact Nat.le_trans (Nat.le_succ _) hn
    · intro p hm
      rcases List.mem_cons.1 hm with rfl | hm
      · exact ⟨rfl, rfl⟩
      · exact hp p hm

/-- An access of thread t, as `laneAcc` makes it and as a unit of it keeps it. -/
structure OwnAccess (s : State) (t : Nat) (a : Access) : Prop where
  who : a.who = .thread t
  core : a.core = coreOf t
  ctx : a.ctx = s.ctxOfThread t

theorem addReq_sent (s : State) (t : Nat) (a : Access) (ha : OwnAccess s t a) :
    Sent s s.cores (s.addReq a) t a.ord [(a.op, a.loc, a.size)] (formDsts a.form) := by
  unfold addReq
  dsimp only
  generalize hr : Req.mk _ _ _ _ _ _ _ _ _ _ _ _ _ _ _ _ _ _ _ _ _ _ _ _ _ _ _ = r
  obtain ⟨ps, n, he, hn, hd, hp⟩ := foldl_addPend (formDsts a.form) s.nextId (s.setReqs (s.reqs ++ [r])).bump
  have hid : r.id = s.nextId := by rw [← hr]
  refine ⟨[r], ps, n, he, Nat.le_trans (Nat.le_succ _) hn, by simp [← hr], hd, ?_, ?_⟩
  · intro r' hm
    obtain rfl := List.mem_singleton.1 hm
    refine ⟨?_, ?_, ?_, ?_, ?_, Nat.le_of_eq hid.symm, hid ▸ hn⟩ <;> simp only [← hr]
    · exact ha.who
    · exact ha.core
    · exact ha.ctx
  · exact fun p hm => ⟨(hp p hm).1, r, List.mem_singleton_self r, hid.trans (hp p hm).2.symm⟩


/-! ## Units of a local access (R111) -/

/-- No copy in the L1 answers this access. -/
def Cold (s : State) (a : Access) : Prop :=
  a.op ≠ .load ∨ a.scope.wide = true ∨ allocates a.leaf.cp a.hint = false ∨
    s.l1Read a.core (locAddr a.loc) a.size = none

theorem l1Hit_of_cold (s : State) (a : Access) (h : Cold s a) :
    s.l1Hit a (effScope a.loc a.leaf a.op a.ord a.scope) = none := by
  unfold l1Hit
  split
  · rename_i pa hop hloc
    have hx : effScope a.loc a.leaf a.op a.ord a.scope = a.scope := by
      rw [hop, hloc]
      simp [effScope, isRel]
    rcases h with h | h | h | h
    · exact absurd hop h
    · simp [hx, h]
    · simp [h]
    · rw [hloc, locAddr] at h
      simp [h]
  · rfl

/-- A load that no copy answers is one request. -/
theorem localUnit_load (s : State) (a : Access) (hop : a.op = .load) (h : Cold s a) :
    s.localUnit a = s.addReq a := by
  unfold localUnit
  simp only [l1Hit_of_cold s a h]
  simp only [hop]

/-- A store is one request, and writes what its core's L1 holds. -/
theorem localUnit_store (s : State) (a : Access) (d : List Byte) (hop : a.op = .store d) (hp : a.parts = []) :
    ∃ cs, s.localUnit a = (s.setCores cs).addReq a := by
  have hcold : Cold s a := .inl (by simp [hop])
  unfold localUnit
  simp only [l1Hit_of_cold s a hcold]
  simp only [hop, hp]
  cases a.loc with
  | mem pa => exact ⟨_, rfl⟩
  | host pa => exact ⟨s.cores, rfl⟩
  | spad c off => exact ⟨s.cores, rfl⟩
  | remote n va => exact ⟨s.cores, rfl⟩

/-- The access that the unit of n bytes at an offset makes. -/
def unitAccess (a : Access) (u : Nat × Nat) : Access :=
  { a with op := unitOp a.op u.1 u.2, loc := addLoc a.loc u.1, size := u.2, form := unitForm a.form a.size u.1 u.2 }

/-- What a unit asks of memory, and the destinations of its result. -/
def unitReq (a : Access) (u : Nat × Nat) : MemOp × Loc × Nat := (unitOp a.op u.1 u.2, addLoc a.loc u.1, u.2)
def unitDsts (a : Access) (u : Nat × Nat) : List Dst := formDsts (unitForm a.form a.size u.1 u.2)

/-- The units of a load, one after another, leave the L1s alone. -/
theorem unitLoads_sent (t : Nat) (a : Access) (hop : a.op = .load) (us : List (Nat × Nat)) :
    ∀ s : State, OwnAccess s t a → (∀ u ∈ us, Cold s (unitAccess a u)) →
      Sent s s.cores (us.foldl (fun s u => s.localUnit (unitAccess a u)) s) t a.ord (us.map (unitReq a))
        (us.flatMap (unitDsts a)) := by
  induction us with
  | nil => exact fun s _ _ => Sent.nil s t a.ord
  | cons u us ih =>
    intro s ha hc
    have first : Sent s s.cores (s.localUnit (unitAccess a u)) t a.ord [unitReq a u] (unitDsts a u) := by
      rw [localUnit_load s _ (by simp [unitAccess, unitOp, hop]) (hc u List.mem_cons_self)]
      exact addReq_sent s t (unitAccess a u) ⟨ha.who, ha.core, ha.ctx⟩
    obtain ⟨rs, ps, n, he, -⟩ := id first
    have rest := ih (s.localUnit (unitAccess a u)) ⟨ha.who, ha.core, by rw [he]; exact ha.ctx⟩
      (fun v hv => by rw [he]; exact hc v (List.mem_cons_of_mem u hv))
    have hcs : (s.localUnit (unitAccess a u)).cores = s.cores := by rw [he]
    exact first.trans (hcs ▸ rest)

/-- The units of a store, one after another. -/
theorem unitStores_sent (t : Nat) (a : Access) (d : List Byte) (hop : a.op = .store d) (hp : a.parts = [])
    (us : List (Nat × Nat)) :
    ∀ s : State, OwnAccess s t a →
      ∃ cs, Sent s cs (us.foldl (fun s u => s.localUnit (unitAccess a u)) s) t a.ord (us.map (unitReq a))
        (us.flatMap (unitDsts a)) := by
  induction us with
  | nil => exact fun s _ => ⟨s.cores, Sent.nil s t a.ord⟩
  | cons u us ih =>
    intro s ha
    obtain ⟨c, hc⟩ := localUnit_store s (unitAccess a u) ((d.drop u.1).take u.2)
      (by simp only [unitAccess, hop, unitOp]) hp
    have first : Sent s c (s.localUnit (unitAccess a u)) t a.ord [unitReq a u] (unitDsts a u) := by
      rw [hc]
      exact (addReq_sent (s.setCores c) t (unitAccess a u) ⟨ha.who, ha.core, ha.ctx⟩).of_setCores
    obtain ⟨rs, ps, n, he, -⟩ := id first
    obtain ⟨cs, rest⟩ := ih (s.localUnit (unitAccess a u)) ⟨ha.who, ha.core, by rw [he]; exact ha.ctx⟩
    exact ⟨cs, first.trans rest⟩

/-- A release at domain or system scope that finds no open entry of its core sends none (R413). -/
theorem closeCore_of_none (s : State) (core : Nat) (h : ∀ e ∈ s.fab.wc, e.sent = true ∨ e.core ≠ core) :
    s.closeCore core = s := by
  have none : (s.fab.wc.filter fun e => !e.sent && e.core == core) = [] := by
    rw [List.filter_eq_nil_iff]
    intro e he
    rcases h e he with hs | hs <;> simp [hs]
  unfold closeCore sendOpen
  rw [none]
  rfl

/-- An access to memory of this package is issued by its units. -/
theorem access_local (s : State) (a : Access) (hl : ∀ n v, a.loc ≠ .remote n v)
    (hc : isRel a.op a.ord = true → s.closeCore a.core = s) :
    s.access a = ((unitsOf a.loc a.op a.form a.size).foldl (fun s u => s.localUnit (unitAccess a u)) s, true) := by
  have open_ : (if isRel a.op a.ord && (effScope a.loc a.leaf a.op a.ord a.scope).far then s.closeCore a.core else s)
      = s := by
    split
    · rename_i h
      exact hc (Bool.and_eq_true_iff.1 h).1
    · rfl
  unfold access
  simp only [open_]
  cases hloc : a.loc with
  | remote n v => exact absurd hloc (hl n v)
  | mem pa => simp only [unitAccess, hloc]
  | host pa => simp only [unitAccess, hloc]
  | spad c off => simp only [unitAccess, hloc]

/-- The units of the statements are the model's (R111). -/
theorem units_eq (l : Loc) (op : MemOp) (form : LdForm) (n : Nat) (hop : op = .load ∨ ∃ d, op = .store d)
    (hf : form.isUni = false) (hl : ∀ k v, l ≠ .remote k v) :
    units l n = (unitsOf l op form n).map fun u => (addLoc l u.1, u.1, u.2) := by
  have gathered : unitsOf l op form n = unitsOf l .load .none n := by
    have none : LdForm.none.isUni = false := rfl
    rcases hop with rfl | ⟨d, rfl⟩ <;> simp only [unitsOf, hf, none]
  rw [gathered]
  have small (h : n ≤ 4) : ¬ 4 < n := Nat.not_lt.2 h
  have words (h : ¬ n ≤ 4) : 4 < n := Nat.lt_of_not_le h
  cases l with
  | remote k v => exact absurd rfl (hl k v)
  | mem pa => by_cases h : n = 16 <;> simp [units, unitsOf, LdForm.isUni, h, addLoc]
  | host pa => by_cases h : n ≤ 4 <;> simp [units, unitsOf, LdForm.isUni, h, small, words, addLoc]
  | spad c off => by_cases h : n ≤ 4 <;> simp [units, unitsOf, LdForm.isUni, h, small, words, addLoc]

/-- What the units of a load ask for. -/
theorem map_unitReq_load (a : Access) (hop : a.op = .load) (hf : a.form.isUni = false)
    (hl : ∀ n v, a.loc ≠ .remote n v) :
    (unitsOf a.loc a.op a.form a.size).map (unitReq a) = loads a.loc a.size := by
  rw [loads, units_eq a.loc a.op a.form a.size (.inl hop) hf hl, List.map_map]
  refine List.map_congr_left fun u _ => ?_
  simp [unitReq, hop, unitOp]

/-- What the units of a store ask for. -/
theorem map_unitReq_store (a : Access) (d : List Byte) (hop : a.op = .store d) (hf : a.form.isUni = false)
    (hl : ∀ n v, a.loc ≠ .remote n v) :
    (unitsOf a.loc a.op a.form a.size).map (unitReq a) = stores a.loc a.size d := by
  rw [stores, units_eq a.loc a.op a.form a.size (.inr ⟨d, hop⟩) hf hl, List.map_map]
  refine List.map_congr_left fun u _ => ?_
  simp [unitReq, hop, unitOp]

/-- The units of a load write the registers of its operand, in order (R230, R297). -/
theorem flatMap_unitDsts_lane (a : Access) (ty : Ty) (t d : Nat) (hop : a.op = .load) (hf : a.form = .lane ty t d)
    (hs : a.size = tySize ty) : (unitsOf a.loc a.op a.form a.size).flatMap (unitDsts a) = dsts t ty d := by
  have hd (u : Nat × Nat) : unitDsts a u = formDsts (unitForm (.lane ty t d) (tySize ty) u.1 u.2) := by
    rw [unitDsts, hf, hs]
  rw [funext hd, hop, hf, hs]
  cases a.loc <;> cases ty <;> rfl

/-- A store writes no register. -/
theorem flatMap_unitDsts_none (a : Access) (hf : a.form = .none) (us : List (Nat × Nat)) :
    us.flatMap (unitDsts a) = [] := by
  simp [unitDsts, hf, unitForm, formDsts, formVals]

/-- A load from memory of this package that no copy answers. -/
theorem access_load_sent (s : State) (t : Nat) (a : Access) (ty : Ty) (d : Nat) (ha : OwnAccess s t a) (hop : a.op = .load)
    (hf : a.form = .lane ty t d) (hs : a.size = tySize ty) (hl : ∀ n v, a.loc ≠ .remote n v)
    (hc : ∀ u ∈ unitsOf a.loc a.op a.form a.size, Cold s (unitAccess a u)) :
    ∃ s1, s.access a = (s1, true) ∧ Sent s s.cores s1 t a.ord (loads a.loc a.size) (dsts t ty d) := by
  refine ⟨_, access_local s a hl (by simp [hop, isRel]), ?_⟩
  rw [← map_unitReq_load a hop (by rw [hf]; rfl) hl, ← flatMap_unitDsts_lane a ty t d hop hf hs]
  exact unitLoads_sent t a hop _ s ha hc

/-- A store to memory of this package by a core without open write-combining entries. -/
theorem access_store_sent (s : State) (t : Nat) (a : Access) (d : List Byte) (ha : OwnAccess s t a) (hop : a.op = .store d)
    (hf : a.form = .none) (hp : a.parts = []) (hl : ∀ n v, a.loc ≠ .remote n v)
    (hc : isRel a.op a.ord = true → s.closeCore a.core = s) :
    ∃ s1 cs, s.access a = (s1, true) ∧ Sent s cs s1 t a.ord (stores a.loc a.size d) [] := by
  obtain ⟨cs, sent⟩ := unitStores_sent t a d hop hp (unitsOf a.loc a.op a.form a.size) s ha
  rw [map_unitReq_store a d hop (by rw [hf]; rfl) hl, flatMap_unitDsts_none a hf] at sent
  exact ⟨_, cs, access_local s a hl hc, sent⟩

/-! ## Checks that pass (R34) -/

/-- A page that both data TLBs hold, and that permits the access, is translated there and changes nothing. -/
theorem translate_of_hit {s : State} {core quad ctx va : Nat} {a : Acc} {leaf : Leaf}
    (hd : s.tlbHit (.data core quad) ctx va = some leaf) (hcore : s.tlbHit (.core core) ctx va = some leaf)
    (hp : permits a leaf = true) :
    s.translate (dataUnits core quad) (some core) ctx va a = (s, .ok (leaf.pa + va % pageBytes leaf.sz) leaf) := by
  simp [translate, dataUnits, hd, hcore, hp]

/-- Step 5 for a page that both data TLBs hold. -/
theorem chkPage_of_hit {s : State} {t ea n pa : Nat} {x : Want} {leaf : Leaf} (h : Hit s t x ea n pa leaf) :
    s.chkPage (coreOf t) (quadOf t) (s.ctxOfThread t) ea x = (s, .go (locOf pa) leaf) := by
  obtain ⟨hd, hcore, hw, rfl, hfe, hhost, -⟩ := h
  have hp : permits ⟨x.wr, false⟩ leaf = true := by
    cases hx : x.wr with
    | false => simp [permits]
    | true => simp [permits, hw hx]
  unfold chkPage vaOf
  rw [translate_of_hit hd hcore hp]
  generalize leaf.pa + ea % 2 ^ 48 % pageBytes leaf.sz = pa at hfe hhost
  have noProt : (decide (Config.hostBase ≤ pa) && !x.host) = false := by
    by_cases hh : Config.hostBase ≤ pa
    · simp [hhost hh]
    · simp [hh]
  have noFe : (x.fe && (decide (Config.hostBase ≤ pa) || !leaf.feb)) = false := by
    cases hx : x.fe with
    | false => rfl
    | true =>
      obtain ⟨hfeb, hlt⟩ := hfe hx
      simp [hfeb, hlt]
  simp only [noProt, noFe, Bool.false_eq_true, if_false, locOf]

/-- A global access that passes the checks of R34 on this package. -/
theorem chkG_of_glob {s : State} {t ea n pa : Nat} {x : Want} {leaf : Leaf} (h : Glob s t x ea n pa leaf) :
    s.chkG t ea n x = (s, .go (locOf pa) leaf) := by
  obtain ⟨hlt, hal, hloc, hit⟩ := h
  obtain ⟨-, -, -, -, -, -, hlock⟩ := id hit
  unfold chkG chkGlobal chkLocal
  rw [if_neg (by omega), if_neg (by simpa using hal), if_pos hloc, chkPage_of_hit hit]
  simp only [hlock, Bool.false_eq_true, if_false]

theorem locOf_ne_remote (pa : Nat) : ∀ n v, locOf pa ≠ .remote n v := by
  intro n v
  unfold locOf
  split <;> simp

end Sys2Proof.Machine.State
end


section
namespace Sys2Proof.Machine.State
open Sys2Proof.Says

/-! ## The coalescer (R41) -/

/-- A request leaves the coalescer with what it waits for, the request that it travels in and what that fills. -/
theorem coReq_eq (l : List Req) (n : Nat) (r : Req) :
    ∃ after co bytes fill, coReq l n r = { r with after := after, co := co, bytes := bytes, fill := fill } := by
  unfold coReq
  split
  · exact ⟨_, _, _, _, rfl⟩
  · exact ⟨_, _, _, _, rfl⟩

theorem coReq_request (l : List Req) (n : Nat) (r : Req) :
    ((coReq l n r).op, (coReq l n r).loc, (coReq l n r).size) = (r.op, r.loc, r.size) := by
  obtain ⟨_, _, _, _, h⟩ := coReq_eq l n r
  rw [h]

theorem coReq_who (l : List Req) (n : Nat) (r : Req) : (coReq l n r).who = r.who := by
  obtain ⟨_, _, _, _, h⟩ := coReq_eq l n r
  rw [h]

theorem coReq_loc (l : List Req) (n : Nat) (r : Req) : (coReq l n r).loc = r.loc := by
  obtain ⟨_, _, _, _, h⟩ := coReq_eq l n r
  rw [h]

theorem coReq_id (l : List Req) (n : Nat) (r : Req) : (coReq l n r).id = r.id := by
  obtain ⟨_, _, _, _, h⟩ := coReq_eq l n r
  rw [h]

theorem coReq_ord (l : List Req) (n : Nat) (r : Req) : (coReq l n r).ord = r.ord := by
  obtain ⟨_, _, _, _, h⟩ := coReq_eq l n r
  rw [h]

theorem coReq_own {s : State} {t m : Nat} {o : Ord} (l : List Req) (n : Nat) {r : Req} (h : OwnReq s t o m r) :
    OwnReq s t o m (coReq l n r) := by
  obtain ⟨_, _, _, _, e⟩ := coReq_eq l n r
  rw [e]
  exact ⟨h.who, h.core, h.ctx, h.ord, h.done, h.fresh, h.below⟩

/-- An access that coalesces is one to HBM4, at the address that the coalescer takes. -/
theorem coalesces_loc (r : Req) (a : Nat) (h : coalesces r = some a) : r.loc = .mem a := by
  unfold coalesces at h
  split at h <;> simp_all

theorem byLine_perm (r : Req) (l : List Req) : (byLine r l).Perm (r :: l) := by
  induction l with
  | nil => exact List.Perm.refl _
  | cons x l ih =>
    unfold byLine
    split
    · split
      · exact (ih.cons x).trans (List.Perm.swap r x l)
      · exact List.Perm.refl _
    · exact List.Perm.refl _

theorem foldr_byLine_perm (l : List Req) : (l.foldr byLine []).Perm l := by
  induction l with
  | nil => exact List.Perm.refl _
  | cons r l ih => exact (byLine_perm r _).trans (ih.cons r)

/-- Two accesses that do not stand in a later line before an earlier one. -/
def lineLe (a b : Req) : Prop := ∀ x y, a.loc = .mem x → b.loc = .mem y → lineOf x ≤ lineOf y

theorem byLine_of_le (r : Req) (l : List Req) (h : ∀ x ∈ l, lineLe r x) : byLine r l = r :: l := by
  cases l with
  | nil => rfl
  | cons x l =>
    unfold byLine
    split
    · rename_i a b ha hb
      have hle := h x List.mem_cons_self a b (coalesces_loc r a ha) (coalesces_loc x b hb)
      rw [if_neg (Nat.not_lt.2 hle)]
    · rfl

/-- Accesses that already stand in the order of their lines leave as they came. -/
theorem foldr_byLine_of_sorted (l : List Req) (h : l.Pairwise lineLe) : l.foldr byLine [] = l := by
  induction l with
  | nil => rfl
  | cons r l ih =>
    obtain ⟨hr, hl⟩ := List.pairwise_cons.1 h
    rw [List.foldr_cons, ih hl, byLine_of_le r l hr]

/-- The requests of a bundle as they leave the coalescer. -/
def coalesced (rs : List Req) (n : Nat) : List Req := (rs.map (coReq rs n)).foldr byLine []

theorem coalesced_perm (rs : List Req) (n : Nat) : (coalesced rs n).Perm (rs.map (coReq rs n)) := foldr_byLine_perm _

theorem mem_coalesced {rs : List Req} {n : Nat} {r : Req} : r ∈ coalesced rs n ↔ ∃ x ∈ rs, coReq rs n x = r := by
  rw [(coalesced_perm rs n).mem_iff, List.mem_map]

/-- What leaves asks of memory what came in. -/
theorem coalesced_map {α : Type} (f : Req → α) (hf : ∀ l n r, f (coReq l n r) = f r) (rs : List Req) (n : Nat) :
    ((coalesced rs n).map f).Perm (rs.map f) := by
  refine ((coalesced_perm rs n).map f).trans (List.Perm.of_eq ?_)
  rw [List.map_map]
  exact List.map_congr_left fun r _ => hf rs n r

/-- Accesses in the order of their lines keep it. -/
theorem coalesced_of_sorted (rs : List Req) (n : Nat) (h : rs.Pairwise lineLe) : coalesced rs n = rs.map (coReq rs n) := by
  refine foldr_byLine_of_sorted _ (List.pairwise_map.2 (h.imp fun hab x y hx hy => ?_))
  rw [coReq_loc] at hx hy
  exact hab x y hx hy

/-- A bundle whose loads have read nothing from the L1 leaves the coalescer: only its own requests change. -/
theorem coalesce_eq (s : State) (n : Nat) (old rs : List Req) (hreqs : s.reqs = old ++ rs) (hold : ∀ r ∈ old, r.id < n)
    (hnew : ∀ r ∈ rs, n ≤ r.id) (hlast : s.cur.last = []) :
    s.coalesce n = s.setReqs (old ++ coalesced rs n) := by
  have new : s.reqs.filter (fun r => decide (n ≤ r.id)) = rs := by
    rw [hreqs, List.filter_append, List.filter_eq_nil_iff.2, List.filter_eq_self.2, List.nil_append]
    · intro r hr
      simpa using hnew r hr
    · intro r hr
      simpa using hold r hr
  have kept : s.reqs.filter (fun r => decide (r.id < n)) = old := by
    rw [hreqs, List.filter_append, List.filter_eq_self.2, List.filter_eq_nil_iff.2, List.append_nil]
    · intro r hr
      simpa using hnew r hr
    · intro r hr
      simpa using hold r hr
  unfold coalesce
  simp only [new, kept, setReqs_cur, hlast, List.foldl_nil]
  unfold coalesced setReqs setCur
  simp only
  congr 1
  rw [← hlast]

end Sys2Proof.Machine.State
end


section
namespace Sys2Proof.Machine.State
open Sys2Proof.Says

/-! ## One thread's memory instruction -/

/-- A result of thread t alone: a lane register or a predicate. -/
def laneDst (t : Nat) (d : Dst) : Prop := (∃ n, d = .reg t n) ∨ ∃ n, d = .pred t n

theorem ofThread_of_laneDst {t : Nat} {p : Pend} (h : laneDst t p.dst) : Pend.ofThread t p = true := by
  rcases h with ⟨n, h⟩ | ⟨n, h⟩ <;> simp [Pend.ofThread, h]

theorem dsts_laneDst {t : Nat} {ty : Ty} {d : Nat} : ∀ x ∈ dsts t ty d, laneDst t x := by
  intro x hx
  obtain ⟨n, -, rfl⟩ := List.mem_map.1 hx
  exact .inl ⟨n, rfl⟩

theorem laneOp_of_one {s : State} {t : Nat} {h : Hdr} {u : Uses} (h1 : One s t h u) (body : State → Nat → State) :
    laneOp h u body s = (body s t).restM h.m t := by
  obtain ⟨hc, -, ⟨-, hr⟩, hg, -⟩ := h1
  obtain ⟨hl, hh, hz⟩ := hr t (by simp [hc])
  exact laneOp_one h u body s t hc hl hh (fun hhaz => ⟨(hz hhaz).1, (hz hhaz).2 hg⟩) hg

/-- The thread that the statement's record of an issue shows: it goes on, and rests on pending results with M = 1. -/
def wentOn (s : State) (m : Bool) (pending : Bool) (x : Thread) : Thread :=
  { x with pc := x.pc + BitVec.ofNat 64 s.cur.len, st := if m && pending then .proof else .run, retry := 0,
           re := .first, hbuf := [] }

/-- Going on and the proof bit's rest, in one update. -/
theorem advance_restM (s : State) (m : Bool) (t : Nat) (hl : (s.th t).st ≠ .ended) :
    (s.advance t).restM m t = s.updThread t (wentOn s m (s.threadPend t)) :=
  restM_updThread s m t _ (fun _ => rfl) hl fun _ => rfl

theorem threadPend_append (s : State) (t : Nat) (ps : List Pend) (h : ∀ p ∈ ps, laneDst t p.dst) :
    (s.pend ++ ps).any (Pend.ofThread t) = (s.threadPend t || decide (ps.map (·.dst) ≠ [])) := by
  rw [List.any_append]
  cases ps with
  | nil => simp [threadPend]
  | cons p ps => simp [threadPend, ofThread_of_laneDst (h p List.mem_cons_self)]

/-- Operations that stand in the order of their lines. -/
def linesRise (ops : List (MemOp × Loc × Nat)) : Prop :=
  ops.Pairwise fun a b => ∀ x y, a.2.1 = .mem x → b.2.1 = .mem y → lineOf x ≤ lineOf y

/-- A memory instruction of one thread that has put its accesses on their way and gone on: they leave the coalescer,
in the order of their lines. -/
theorem issued_of_sent {s s1 : State} {t : Nat} {h : Hdr} {u : Uses} {body : State → Nat → State} {cs : List Core}
    {o : Ord} {ops : List (MemOp × Loc × Nat)} {ds : List Dst} (h1 : One s t h u) (hb : body s t = s1.advance t)
    (hs : Sent s cs s1 t o ops ds) (hd : ∀ d ∈ ds, laneDst t d) :
    ∃ s' ops', memOp h u body s = .next s' ∧ Issued s s' t h.m o ops' ds ∧ ops'.Perm ops ∧
      (linesRise ops → ops' = ops) := by
  obtain ⟨rs, ps, n, he, -, rfl, rfl, hr, hp⟩ := hs
  obtain ⟨hc, hlast, ⟨-, hready⟩, -, -, hfresh⟩ := id h1
  have alive : (s1.th t).st ≠ .ended := by
    rw [he]
    exact (hready t (by simp [hc])).1
  have own : ∀ p ∈ ps, laneDst t p.dst := fun p hm => hd _ (List.mem_map_of_mem hm)
  have lane : laneOp h u body s = s1.updThread t (wentOn s1 h.m (s1.threadPend t)) := by
    rw [laneOp_of_one h1, hb, advance_restM s1 h.m t alive]
  have leave : (laneOp h u body s).coalesce s.nextId =
      (s1.updThread t (wentOn s1 h.m (s1.threadPend t))).setReqs (s.reqs ++ coalesced rs s.nextId) := by
    rw [lane]
    exact coalesce_eq _ s.nextId s.reqs rs (by rw [he]; rfl) hfresh (fun r hm => (hr r hm).fresh) (by rw [he]; exact hlast)
  have pending : s1.threadPend t = (s.threadPend t || decide (ps.map (·.dst) ≠ [])) := by
    rw [← threadPend_append s t ps own, he]
    rfl
  refine ⟨_, (coalesced rs s.nextId).map fun r => (r.op, r.loc, r.size), congrArg Host.Outcome.next leave, ?_,
    coalesced_map _ coReq_request rs s.nextId, fun rise => ?_⟩
  · rw [pending, he]
    refine ⟨rfl, ?_, ?_, rfl, rfl, rfl, rfl, rfl, rfl, rfl, rfl, rfl, rfl, rfl⟩
    · refine ⟨coalesced rs s.nextId, rfl, rfl, fun r hm => ?_⟩
      obtain ⟨x, hx, rfl⟩ := mem_coalesced.1 hm
      obtain ⟨who, core, ctx, ord, done, -⟩ := coReq_own rs s.nextId (hr x hx)
      exact ⟨who, core, ctx, ord, done⟩
    · refine ⟨ps, rfl, rfl, fun p hm => ?_⟩
      obtain ⟨hv, r, hrm, hid⟩ := hp p hm
      refine ⟨hv, coReq rs s.nextId r, List.mem_append_right _ (mem_coalesced.2 ⟨r, hrm, rfl⟩), ?_⟩
      rw [coReq_id]
      exact ⟨(hr r hrm).fresh, hid⟩
  · have sorted : rs.Pairwise lineLe :=
      (List.pairwise_map (f := fun r : Req => (r.op, r.loc, r.size))).1 rise
    rw [coalesced_of_sorted rs s.nextId sorted, List.map_map]
    exact List.map_congr_left fun r _ => coReq_request rs s.nextId r

end Sys2Proof.Machine.State
end


section
namespace Sys2Proof.Machine.State
open Sys2Proof.Says

/-! ## Stack accesses (R22 to R25) -/

/-- One backing word that both data TLBs hold. -/
theorem chkWord_of_hit {s : State} {t a n pa : Nat} {wr : Bool} {leaf : Leaf} (ha : a < 2 ^ 54)
    (h : Hit s t ⟨wr, false, wr, true⟩ a n pa leaf) (hm : pa < Config.hostBase) :
    s.chkWord t a wr = (s, .go (.mem pa) leaf) := by
  unfold chkWord
  rw [if_neg (by omega), chkPage_of_hit h, locOf, if_neg (by omega)]

/-- The backing words of a stack access, as the statement names their places. -/
def stackWord (s : State) (t o : Nat) (pa : Nat → Nat) (leaf : Nat → Leaf) (i : Nat) : Loc × Leaf × Nat :=
  (.mem (pa i), leaf i, s.backing t (o + 4 * i))

theorem chkWords_of_hit {s : State} {t o n : Nat} {wr : Bool} {pa : Nat → Nat} {leaf : Nat → Leaf} (is : List Nat)
    (h : ∀ i ∈ is, s.backing t (o + 4 * i) < 2 ^ 54 ∧
      Hit s t ⟨wr, false, wr, true⟩ (s.backing t (o + 4 * i)) n (pa i) (leaf i) ∧ pa i < Config.hostBase) :
    s.chkWords t wr (is.map fun i => o + 4 * i) = (s, is.map (stackWord s t o pa leaf), none) := by
  induction is with
  | nil => rfl
  | cons i is ih =>
    obtain ⟨ha, hit, hm⟩ := h i List.mem_cons_self
    simp only [List.map_cons, chkWords, chkWord_of_hit ha hit hm,
      ih fun j hj => h j (List.mem_cons_of_mem i hj), stackWord]

/-- A stack access whose words pass their checks. -/
theorem laneStack_of_hit {s : State} {t o n : Nat} {wr : Bool} {pa : Nat → Nat} {leaf : Nat → Leaf} {hint : Hint}
    {op : Nat → MemOp} {form : Nat → LdForm} (hb : s.acqBlocked (.thread t) = false) (hstk : o + n ≤ (s.grOf t).stk)
    (hal : o % n = 0) (h : ∀ i < (n + 3) / 4, s.backing t (o + 4 * i) < 2 ^ 54 ∧
      Hit s t ⟨wr, false, wr, true⟩ (s.backing t (o + 4 * i)) (min n 4) (pa i) (leaf i) ∧ pa i < Config.hostBase) :
    s.laneStack t o n wr hint op form =
      (s.stackWords t (min n 4) hint op form 0 ((List.range' 0 ((n + 3) / 4)).map (stackWord s t o pa leaf))).advance t := by
  have words := chkWords_of_hit (List.range ((n + 3) / 4)) fun i hi => h i (List.mem_range.1 hi)
  have chk : s.chkStack t o n wr = (s, (List.range ((n + 3) / 4)).map (stackWord s t o pa leaf), none) := by
    unfold chkStack
    rw [if_neg (by omega), if_neg (by simpa using hal), words]
  unfold laneStack
  simp only [hb, chk, Bool.false_eq_true, if_false, List.range_eq_range']

/-- A load of at most a word of HBM4 is one request. -/
theorem access_load_word {s : State} {t pa : Nat} {a : Access} {ty : Ty} {d : Nat} (ha : OwnAccess s t a)
    (hop : a.op = .load) (hf : a.form = .lane ty t d) (hs : a.size = tySize ty) (hl : a.loc = .mem pa)
    (hsz : tySize ty ≤ 4) (hc : s.l1Read a.core pa (tySize ty) = none) :
    ∃ s1, s.access a = (s1, true) ∧ Sent s s.cores s1 t a.ord [(.load, .mem pa, tySize ty)] (dsts t ty d) := by
  have wide : tySize ty ≠ 16 := by omega
  have one : unitsOf a.loc a.op a.form a.size = [(0, tySize ty)] := by
    simp [unitsOf, hop, hf, hs, hl, LdForm.isUni, wide]
  have req : loads a.loc a.size = [(.load, .mem pa, tySize ty)] := by simp [loads, units, hl, hs, wide]
  rw [← req]
  refine access_load_sent s t a ty d ha hop hf hs (by simp [hl]) fun u hu => ?_
  obtain rfl := List.mem_singleton.1 (one ▸ hu)
  refine .inr (.inr (.inr ?_))
  simp only [unitAccess, hl]
  exact hc

/-- A plain store of at most a word of HBM4 is one request. -/
theorem access_store_word {s : State} {t pa : Nat} {a : Access} {d : List Byte} (ha : OwnAccess s t a)
    (hop : a.op = .store d) (hord : a.ord = .plain) (hf : a.form = .none) (hp : a.parts = []) (hl : a.loc = .mem pa)
    (hsz : a.size ≤ 4) (hd : d.length ≤ a.size) :
    ∃ s1 cs, s.access a = (s1, true) ∧ Sent s cs s1 t a.ord [(.store d, .mem pa, a.size)] [] := by
  have wide : a.size ≠ 16 := by omega
  have req : stores a.loc a.size d = [(.store d, .mem pa, a.size)] := by
    simp [stores, units, hl, wide, List.take_of_length_le hd]
  rw [← req]
  exact access_store_sent s t a d ha hop hf hp (by simp [hl]) (by simp [hop, hord, isRel])

/-- The words of a stack load that no copy in the L1 answers: each writes one register. -/
theorem stackWords_load_sent (s0 : State) (t o : Nat) (hint : Hint) (ty : Ty) (d : Nat) (pa : Nat → Nat)
    (leaf : Nat → Leaf) (hty : ∀ n, tyRegs ty n = [n]) (hsz : tySize ty ≤ 4) (k : Nat) :
    ∀ (s : State) (i : Nat), (∀ j ∈ List.range' i k, s.l1Read (coreOf t) (pa j) (tySize ty) = none) →
      Sent s s.cores (s.stackWords t (tySize ty) hint (fun _ => .load) (fun j => .lane ty t (d + j)) i
          ((List.range' i k).map (stackWord s0 t o pa leaf))) t .plain
        ((List.range' i k).map fun j => (.load, .mem (pa j), tySize ty))
        ((List.range' i k).map fun j => .reg t (d + j)) := by
  induction k with
  | zero => exact fun s i _ => Sent.nil s t .plain
  | succ k ih =>
    intro s i hcold
    rw [List.range'_succ] at hcold ⊢
    obtain ⟨s1, hs1, first⟩ := access_load_word (s := s) (t := t) (pa := pa i) (ty := ty) (d := d + i)
      (a := s.laneAcc t .load (tySize ty) .plain .thr hint (s0.backing t (o + 4 * i)) (.lane ty t (d + i)) (.mem (pa i))
        (leaf i))
      ⟨rfl, rfl, rfl⟩ rfl rfl rfl rfl hsz (hcold i List.mem_cons_self)
    have reg : dsts t ty (d + i) = [.reg t (d + i)] := by rw [dsts, hty, List.map_singleton]
    rw [reg] at first
    obtain ⟨rs, ps, n, he, -⟩ := id first
    have rest := ih s1 (i + 1) fun j hj => by
      rw [he]
      exact hcold j (List.mem_cons_of_mem i hj)
    have hcs : s1.cores = s.cores := by rw [he]
    simp only [List.map_cons, stackWord, stackWords, hs1]
    exact first.trans (hcs ▸ rest)

/-- The words of a stack store. -/
theorem stackWords_store_sent (s0 : State) (t o n : Nat) (hint : Hint) (data : Nat → List Byte) (pa : Nat → Nat)
    (leaf : Nat → Leaf) (hn : n ≤ 4) (hd : ∀ j, (data j).length ≤ n) (k : Nat) :
    ∀ (s : State) (i : Nat), ∃ cs,
      Sent s cs (s.stackWords t n hint (fun j => .store (data j)) (fun _ => .none) i
          ((List.range' i k).map (stackWord s0 t o pa leaf))) t .plain
        ((List.range' i k).map fun j => (.store (data j), .mem (pa j), n)) [] := by
  induction k with
  | zero => exact fun s i => ⟨s.cores, Sent.nil s t .plain⟩
  | succ k ih =>
    intro s i
    rw [List.range'_succ]
    obtain ⟨s1, c, hs1, first⟩ := access_store_word (s := s) (t := t) (pa := pa i) (d := data i)
      (a := s.laneAcc t (.store (data i)) n .plain .thr hint (s0.backing t (o + 4 * i)) .none (.mem (pa i)) (leaf i))
      ⟨rfl, rfl, rfl⟩ rfl rfl rfl rfl rfl hn (hd i)
    obtain ⟨cs, rest⟩ := ih s1 (i + 1)
    refine ⟨cs, ?_⟩
    simp only [List.map_cons, stackWord, stackWords, hs1]
    exact first.trans rest

/-! ## The bytes of a data operand (R230, R303) -/

/-- The four bytes of a register, the lowest first. -/
def wordBytes (v : Word) : List Byte := (List.range 4).map fun i => v.extractLsb' (8 * i) 8

theorem leBytes_word (k acc : Nat) (v : Word) :
    leBytes (k + 4) (v.toNat + 2 ^ 32 * acc) = wordBytes v ++ leBytes k acc := by
  have hv : v.toNat < 2 ^ 32 := v.isLt
  have rest : (v.toNat + 2 ^ 32 * acc) / 256 / 256 / 256 / 256 = acc := by omega
  have low (i : Nat) (x : Nat) (hx : x % 256 = v.toNat / 2 ^ (8 * i) % 256) :
      BitVec.ofNat 8 x = v.extractLsb' (8 * i) 8 := by
    refine BitVec.eq_of_toNat_eq ?_
    simpa [Nat.shiftRight_eq_div_pow] using hx
  have bytes : wordBytes v = [v.extractLsb' (8 * 0) 8, v.extractLsb' (8 * 1) 8, v.extractLsb' (8 * 2) 8,
      v.extractLsb' (8 * 3) 8] := rfl
  simp only [leBytes, rest, bytes, List.cons_append, List.nil_append]
  rw [low 0 _ (by omega), low 1 _ (by omega), low 2 _ (by omega), low 3 _ (by omega)]

/-- Consecutive registers as bytes. -/
theorem leBytes_regs (s : State) (t k : Nat) (rs : List Nat) :
    leBytes (k + 4 * rs.length) (rs.foldr (fun n acc => s.rw t n + 2 ^ 32 * acc) 0) =
      (rs.flatMap fun n => wordBytes (w s t n)) ++ leBytes k 0 := by
  induction rs with
  | nil => rfl
  | cons r rs ih =>
    rw [List.foldr_cons, List.length_cons, Nat.mul_succ, ← Nat.add_assoc, List.flatMap_cons, List.append_assoc, ← ih]
    exact leBytes_word _ _ (w s t r)

theorem length_flatMap_wordBytes (f : Nat → Word) (rs : List Nat) :
    (rs.flatMap fun n => wordBytes (f n)).length = 4 * rs.length := by
  induction rs with
  | nil => rfl
  | cons r rs ih =>
    rw [List.flatMap_cons, List.length_append, ih, List.length_cons, Nat.mul_succ, Nat.add_comm]
    rfl

theorem tySize_le_regs (ty : Ty) (d : Nat) : tySize ty ≤ 4 * (tyRegs ty d).length ∧ (tyRegs ty d).length ≤ 4 := by
  cases ty <;> simp [tySize, tyRegs]

/-- The bytes of a data operand, as the statements write them. -/
theorem dataBytes_eq (s : State) (t : Nat) (ty : Ty) (d : Nat) :
    s.dataBytes t ty d (tySize ty) = Says.bytes s t ty d := by
  obtain ⟨hsize, hregs⟩ := tySize_le_regs ty d
  obtain ⟨k, hk⟩ := Nat.exists_eq_add_of_le' (show 4 * (tyRegs ty d).length ≤ 16 by omega)
  unfold dataBytes Says.bytes
  rw [hk, leBytes_regs, List.take_append_of_le_length (by rw [length_flatMap_wordBytes]; exact hsize)]
  rfl

theorem length_bytes (s : State) (t : Nat) (ty : Ty) (d : Nat) : (Says.bytes s t ty d).length ≤ tySize ty :=
  List.length_take_le _ _

end Sys2Proof.Machine.State
end

section
open Sys2Proof Sys2Proof.Machine Sys2Proof.Says State

namespace Sys2Proof.Machine.State

/-- The type of the words of a stack access: a register each (R24). -/
def wordTy (ty : Ty) : Ty := if 4 < tySize ty then .s32 else ty

theorem tyRegs_wordTy (ty : Ty) (n : Nat) : tyRegs (wordTy ty) n = [n] := by
  cases ty <;> rfl
theorem tySize_wordTy (ty : Ty) : tySize (wordTy ty) = min (tySize ty) 4 := by
  cases ty <;> rfl
/-- The registers of an operand, one for each word. -/
theorem dsts_words (ty : Ty) (t d : Nat) :
    dsts t ty d = (List.range' 0 ((tySize ty + 3) / 4)).map fun j => .reg t (d + j) := by
  cases ty <;> rfl

/-- What LDL and STL do in a thread. -/
def ldlBody (x : MemX) (d b : Nat) (s : State) (t : Nat) : State :=
  s.laneStack t (s.eaLocal t b x.off (tySize x.ty)) (tySize x.ty) false x.hint (fun _ => .load)
    (fun i => .lane (wordTy x.ty) t (d + i))
def stlBody (x : MemX) (d b : Nat) (s : State) (t : Nat) : State :=
  s.laneStack t (s.eaLocal t b x.off (tySize x.ty)) (tySize x.ty) true x.hint
    (fun i => .store (((s.dataBytes t x.ty d (tySize x.ty)).drop (4 * i)).take 4)) (fun _ => .none)
theorem exec_ldl (h : Hdr) (x : MemX) (d b : Nat) (s : State) :
    exec (.ldl h x d b) s = memOp h ⟨tyRegs x.ty d ++ [b], [.w b]⟩ (ldlBody x d b) s := rfl
theorem exec_stl (h : Hdr) (x : MemX) (d b : Nat) (s : State) :
    exec (.stl h x d b) s = memOp h (useR (tyRegs x.ty d ++ [b])) (stlBody x d b) s := rfl

end Sys2Proof.Machine.State

/-- Settles O20: the stack check passes word by word, each word is one access, and the coalescer only reorders them. -/
theorem laneStack : Obligations.LaneStack := by
  unfold Obligations.LaneStack
  intro s t h x d b o pa leaf _ ho hstk hal
  subst ho
  refine ⟨fun hit h1 => ?ldl, fun hit h1 => ?stl⟩
  case ldl =>
    obtain ⟨-, -, -, -, free, -⟩ := id h1
    have body : ldlBody x d b s t = _ := laneStack_of_hit free hstk hal fun i hi =>
      ⟨(hit i hi).1, (hit i hi).2.1, (hit i hi).2.2.1⟩
    have sent := stackWords_load_sent s t (s.eaLocal t b x.off (tySize x.ty)) x.hint (wordTy x.ty) d pa leaf
      (tyRegs_wordTy x.ty) (by rw [tySize_wordTy]; omega) ((tySize x.ty + 3) / 4) s 0 fun j hj => by
        rw [tySize_wordTy]
        exact (hit j (by simpa using hj)).2.2.2
    rw [← dsts_words x.ty, tySize_wordTy] at sent
    obtain ⟨s', ops, run, issued, perm, -⟩ := issued_of_sent h1 body sent dsts_laneDst
    exact ⟨s', ops, run, issued, by rw [List.range_eq_range']; exact perm⟩
  case stl =>
    obtain ⟨-, -, -, -, free, -⟩ := id h1
    have body : stlBody x d b s t = _ := laneStack_of_hit free hstk hal hit
    have short (j : Nat) : (((s.dataBytes t x.ty d (tySize x.ty)).drop (4 * j)).take 4).length ≤ min (tySize x.ty) 4 := by
      have := length_bytes s t x.ty d
      rw [dataBytes_eq, List.length_take, List.length_drop]
      omega
    obtain ⟨cs, sent⟩ := stackWords_store_sent s t (s.eaLocal t b x.off (tySize x.ty)) (min (tySize x.ty) 4) x.hint _ pa
      leaf (by omega) short ((tySize x.ty + 3) / 4) s 0
    obtain ⟨s', ops, run, issued, perm, -⟩ := issued_of_sent h1 body sent (by simp)
    exact ⟨s', ops, run, issued, by rw [List.range_eq_range', ← dataBytes_eq]; exact perm⟩
end


section
namespace Sys2Proof.Machine.State
open Sys2Proof.Says

/-! ## LD (R297) -/

/-- What LD does in a thread. -/
def ldBody (x : MemX) (d a : Nat) (b : Option Nat) (s : State) (t : Nat) : State :=
  s.laneGlobal t (s.eaGlobal true t a b x.off (tySize x.ty)) (tySize x.ty) .load x.ord x.scope x.hint
    (.lane x.ty t d) .load
theorem exec_ld (h : Hdr) (x : MemX) (d a : Nat) (b : Option Nat) (s : State) :
    exec (.ld h x d a b) s =
      memOp h ⟨tyRegs x.ty d ++ optW b, .g a :: (optW b).map .w⟩ (ldBody x d a b) s := rfl

/-- A global access that passes its checks and is issued: its thread goes on. -/
theorem laneGlobal_of_go {s s1 : State} {t ea n : Nat} {w : Want} {l : Loc} {leaf : Leaf} {op : MemOp} {ord : Ord}
    {sc : Scope} {hint : Hint} {form : LdForm} (hb : s.acqBlocked (.thread t) = false)
    (hc : s.chkG t ea n w = (s, .go l leaf)) (ha : s.access (s.laneAcc t op n ord sc hint ea form l leaf) = (s1, true)) :
    s.laneGlobal t ea n op ord sc hint form w = s1.advance t := by
  simp only [laneGlobal, memGo, hb, hc, ha, Bool.false_eq_true, if_false]

/-- LD in one thread whose address passes its checks. -/
theorem ldBody_of_glob {s s1 : State} {t : Nat} {x : MemX} {d a : Nat} {b : Option Nat} {ea pa : Nat} {leaf : Leaf}
    (hea : s.eaGlobal true t a b x.off (tySize x.ty) = ea) (hb : s.acqBlocked (.thread t) = false)
    (hg : Glob s t .load ea (tySize x.ty) pa leaf)
    (ha : s.access (s.laneAcc t .load (tySize x.ty) x.ord x.scope x.hint ea (.lane x.ty t d) (locOf pa) leaf) =
      (s1, true)) : ldBody x d a b s t = s1.advance t := by
  rw [ldBody, hea, laneGlobal_of_go hb (chkG_of_glob hg) ha]

/-- No copy answers the units of a load that no copy answers. -/
theorem cold_of_noCopy {s : State} {x : MemX} {leaf : Leaf} {a : Access} (hn : NoCopy s a.core x leaf a.loc)
    (hop : a.op = .load) (hsc : a.scope = x.scope) (hh : a.hint = x.hint) (hlf : a.leaf = leaf)
    (hs : a.size = tySize x.ty) (hf : a.form.isUni = false) (hl : ∀ n v, a.loc ≠ .remote n v) :
    ∀ u ∈ unitsOf a.loc a.op a.form a.size, Cold s (unitAccess a u) := by
  intro u hu
  refine .inr ?_
  rcases hn with wide | policy | hint | absent
  · exact .inl (hsc ▸ wide)
  · refine .inr (.inl ?_)
    simp [unitAccess, allocates, hlf, Nat.not_le.2 policy]
  · refine .inr (.inl ?_)
    simp [unitAccess, allocates, hh, hint]
  · refine .inr (.inr (absent (addLoc a.loc u.1, u.1, u.2) ?_))
    rw [← hs, units_eq a.loc a.op a.form a.size (.inl hop) hf hl]
    exact List.mem_map_of_mem hu

/-- LD in one thread whose address passes its checks and that no copy in the L1 answers. -/
theorem ldBody_sent {s : State} {t : Nat} {x : MemX} {d a : Nat} {b : Option Nat} {ea pa : Nat} {leaf : Leaf}
    (hea : s.eaGlobal true t a b x.off (tySize x.ty) = ea) (hb : s.acqBlocked (.thread t) = false)
    (hg : Glob s t .load ea (tySize x.ty) pa leaf) (hn : NoCopy s (coreOf t) x leaf (locOf pa)) :
    ∃ s1, ldBody x d a b s t = s1.advance t ∧
      Sent s s.cores s1 t x.ord (loads (locOf pa) (tySize x.ty)) (dsts t x.ty d) := by
  have hl := locOf_ne_remote pa
  obtain ⟨s1, hs1, sent⟩ := access_load_sent s t
    (s.laneAcc t .load (tySize x.ty) x.ord x.scope x.hint ea (.lane x.ty t d) (locOf pa) leaf) x.ty d
    ⟨rfl, rfl, rfl⟩ rfl rfl rfl hl (cold_of_noCopy hn rfl rfl rfl rfl rfl rfl hl)
  exact ⟨s1, ldBody_of_glob hea hb hg hs1, sent⟩

/-- The units of an access outside HBM4 lie outside it. -/
theorem units_not_mem (l : Loc) (n : Nat) (hl : ∀ pa, l ≠ .mem pa) : ∀ y ∈ units l n, ∀ pa, y.1 ≠ .mem pa := by
  intro y hy pa
  cases l with
  | mem p => exact absurd rfl (hl p)
  | remote k v => simp [List.mem_singleton.1 hy]
  | host p =>
    simp only [units] at hy
    split at hy
    · simp [List.mem_singleton.1 hy]
    · obtain ⟨i, -, rfl⟩ := List.mem_map.1 hy
      simp
  | spad c off =>
    simp only [units] at hy
    split at hy
    · simp [List.mem_singleton.1 hy]
    · obtain ⟨i, -, rfl⟩ := List.mem_map.1 hy
      simp

/-- The units of one access stand in the order of their lines. -/
theorem linesRise_loads (l : Loc) (n : Nat) : linesRise (loads l n) := by
  unfold linesRise loads
  rw [List.pairwise_map]
  by_cases hl : ∃ pa, l = .mem pa
  · obtain ⟨pa, rfl⟩ := hl
    by_cases h : n = 16
    · simp only [units, h, if_true, List.pairwise_pair]
      rintro x y ⟨⟩ ⟨⟩
      unfold lineOf
      omega
    · simp [units, h]
  · exact List.pairwise_of_forall_mem_list fun u hu _ _ x _ hx =>
      absurd hx (units_not_mem l n (fun pa h => hl ⟨pa, h⟩) u hu x)

/-! ## A load that the L1 answers (R39, R41) -/

theorem l1Hit_some {s : State} {a : Access} {pa : Nat} {bs : List Byte} (hop : a.op = .load) (hl : a.loc = .mem pa)
    (hsc : a.scope.wide = false) (hal : allocates a.leaf.cp a.hint = true)
    (hb : s.l1Behind a.who a.core a.loc a.size = false) (hr : s.l1Read a.core pa a.size = some bs) :
    s.l1Hit a (effScope a.loc a.leaf a.op a.ord a.scope) = some bs := by
  have hx : (effScope a.loc a.leaf a.op a.ord a.scope).wide = false := by simpa [effScope, isRel, hop, hl] using hsc
  generalize effScope a.loc a.leaf a.op a.ord a.scope = x at hx
  unfold l1Hit
  simp only [hop, hl] at hb ⊢
  simp [hx, hal, hb, hr]

theorem loadWords_of_small {ty : Ty} {v : Nat} (h : tySize ty ≤ 4) : loadWords ty v = [extInt ty v] := by
  revert h
  cases ty <;> simp [tySize, loadWords]

/-- A load of one register that the L1 answers has its result at once; of the rest of the machine only the L1 and the
bundle's list of .last loads change. -/
theorem access_of_copy {s : State} {t d pa : Nat} {a : Access} {ty : Ty} {bs : List Byte} (hop : a.op = .load)
    (hf : a.form = .lane ty t d) (hs : a.size = tySize ty) (hl : a.loc = .mem pa) (hsz : tySize ty ≤ 4)
    (hsc : a.scope.wide = false) (hal : allocates a.leaf.cp a.hint = true)
    (hb : s.l1Behind a.who a.core a.loc a.size = false) (hr : s.l1Read a.core pa a.size = some bs) :
    ∃ cs last, s.access a = (((s.addPend (.reg t d) (.reg ⟨BitVec.ofNat 32 (extInt ty (leNat bs)), Tag.zero⟩) 0
      false).setCores cs).setCur { s.cur with last := last }, true) := by
  have wide : tySize ty ≠ 16 := by omega
  have one : unitsOf a.loc a.op a.form a.size = [(0, tySize ty)] := by
    simp [unitsOf, hop, hf, hs, hl, LdForm.isUni, wide]
  have vals : formVals (.lane ty t d) bs true =
      [(.reg t d, .reg ⟨BitVec.ofNat 32 (extInt ty (leNat bs)), Tag.zero⟩)] := by
    simp [formVals, laneVals, loadWords_of_small hsz, enum]
  have same : unitAccess a (0, tySize ty) = a := by
    cases a
    simp_all [unitAccess, unitOp, addLoc, unitForm]
  rw [access_local s a (by simp [hl]) (by simp [hop, isRel]), one, List.foldl_cons, List.foldl_nil, same]
  unfold localUnit
  simp only [l1Hit_some hop hl hsc hal hb hr]
  simp only [hf, vals, hl, List.foldl_cons, List.foldl_nil]
  split
  · exact ⟨_, _, rfl⟩
  · exact ⟨(s.l1Touch a.core pa).cores, s.cur.last, rfl⟩

theorem foldl_l1Inval (l : List Nat) (s : State) :
    ∃ cs, l.foldl (fun s pa => s.l1Inval s.cur.core pa 1) s = s.setCores cs := by
  induction l generalizing s with
  | nil => exact ⟨s.cores, rfl⟩
  | cons pa l ih =>
    obtain ⟨cs, h⟩ := ih (s.l1Inval s.cur.core pa 1)
    exact ⟨cs, by rw [List.foldl_cons, h]; rfl⟩

/-- A bundle that has sent nothing leaves the coalescer without a request (R40). -/
theorem coalesce_of_old (s : State) (n : Nat) (h : ∀ r ∈ s.reqs, r.id < n) :
    ∃ cs cur, s.coalesce n = (s.setCores cs).setCur cur := by
  have new : s.reqs.filter (fun r => decide (n ≤ r.id)) = [] := by
    rw [List.filter_eq_nil_iff]
    intro r hr
    simpa using h r hr
  have kept : s.reqs.filter (fun r => decide (r.id < n)) = s.reqs := by
    rw [List.filter_eq_self]
    intro r hr
    simpa using h r hr
  obtain ⟨cs, hcs⟩ := foldl_l1Inval s.cur.last s
  refine ⟨cs, { s.cur with last := [] }, ?_⟩
  unfold coalesce
  simp only [new, kept, List.map_nil, List.foldr_nil, List.append_nil]
  have reqs : s.setReqs s.reqs = s := rfl
  rw [reqs, hcs]

end Sys2Proof.Machine.State
end


section
namespace Sys2Proof.Machine.State
open Sys2Proof.Says

/-! ## A load of another package's memory (R410, R414) -/

/-- The request that an access makes. -/
structure Asks (s : State) (a : Access) (r : Req) : Prop where
  id : r.id = s.nextId
  who : r.who = a.who
  core : r.core = a.core
  ctx : r.ctx = a.ctx
  op : r.op = a.op
  loc : r.loc = a.loc
  size : r.size = a.size
  ord : r.ord = a.ord
  scope : r.scope = effScope a.loc a.leaf a.op a.ord a.scope
  va : r.va = a.ea
  form : r.form = a.form

theorem addReq_eq (s : State) (a : Access) :
    ∃ r ps n, s.addReq a = { s with reqs := s.reqs ++ [r], pend := s.pend ++ ps, nextId := n } ∧ Asks s a r ∧
      ps.map (fun p => (p.dst, p.val, p.req)) = (formDsts a.form).map fun d => (d, PVal.none, s.nextId) := by
  unfold addReq
  dsimp only
  generalize hr : Req.mk _ _ _ _ _ _ _ _ _ _ _ _ _ _ _ _ _ _ _ _ _ _ _ _ _ _ _ = r
  obtain ⟨ps, n, he, -, hd, hp⟩ := foldl_addPend (formDsts a.form) s.nextId (s.setReqs (s.reqs ++ [r])).bump
  have hid : r.id = s.nextId := by rw [← hr]
  refine ⟨r, ps, n, hid ▸ he, ?_, ?_⟩
  · constructor <;> simp only [← hr]
  · rw [← hd, List.map_map]
    refine List.map_congr_left fun p hm => ?_
    simp [hp p hm]

theorem closeLines_of_none (s : State) (core peer : Nat) (ls : List Nat) (h : ∀ e ∈ s.fab.wc, e.core ≠ core) :
    s.closeLines core peer ls = s := by
  have none : (s.fab.wc.filter fun e => !e.sent && (e.core == core && e.peer == peer && (wcLines e).any ls.contains))
      = [] := by
    rw [List.filter_eq_nil_iff]
    intro e he
    simp [h e he]
  unfold closeLines sendOpen
  rw [none]
  rfl

/-- A pair after its own update. -/
theorem pair_updPair (s : State) (n : Nat) (f : Pair → Pair) (hf : ∀ p, (f p).peer = p.peer) :
    (s.updPair n f).pair n = f (s.pair n) := by
  unfold updPair
  split
  · rename_i hany
    obtain ⟨p, hp, hpeer⟩ := List.any_eq_true.1 hany
    obtain ⟨q, hq⟩ := Option.isSome_iff_exists.1 (List.find?_isSome (p := fun p : Pair => p.peer == n).2 ⟨p, hp, hpeer⟩)
    have hmap := find_map s.fab.pairs (·.peer) n f hf
    simp only [pair, setFab_fab, hq] at hmap ⊢
    rw [hmap]
    rfl
  · rename_i hany
    have none : s.fab.pairs.find? (fun p => p.peer == n) = none := by
      rw [List.find?_eq_none]
      intro p hp
      exact fun h => hany (List.any_eq_true.2 ⟨p, hp, h⟩)
    have peer : (f (Pair.reset n)).peer = n := hf _
    simp [pair, none, peer]

theorem updPair_eq (s : State) (n : Nat) (f : Pair → Pair) :
    ∃ fab, s.updPair n f = s.setFab fab ∧ fab.wc = s.fab.wc := by
  unfold updPair
  split <;> exact ⟨_, rfl, rfl⟩

/-- The flit that a request becomes. -/
def withFlit (r : Req) (now : Nat) (p : Pair) : Pair :=
  { p with out := p.out ++ [⟨p.eseq, bodyOf r, r.ctx, none, now, false, false, false, none, some r.id⟩],
           eseq := (p.eseq + 1) % 2 ^ 24 }

/-- A request to a Rotor node whose core has no write-combining entry. -/
theorem sendReq_rotor (s : State) (r : Req) (node : Nat) (hnode : bits r.va 53 48 = node)
    (hroute : s.routeOf node = some .rotor) (hwc : ∀ e ∈ s.fab.wc, e.core ≠ r.core) :
    s.sendReq r = s.updPair node (withFlit r s.cycle) := by
  unfold sendReq
  simp only [closeLines_of_none s r.core _ _ hwc, hnode, enqueue, hroute]
  rfl

theorem unreach_rotor {s : State} {node : Nat} (hroute : s.routeOf node = some .rotor) :
    s.unreach node = (s.pair node).unreach := by
  unfold unreach
  simp only [hroute]

/-- A load from a Rotor node that waits for nothing: one request, queued as a flit. -/
theorem access_remote_load {s : State} {a : Access} {node v : Nat} (hop : a.op = .load) (hl : a.loc = .remote node v)
    (hafter : s.afterOf a.who a.core .load a.ord (effScope a.loc a.leaf a.op a.ord a.scope) = [])
    (hnode : bits a.ea 53 48 = node) (hroute : s.routeOf node = some .rotor) (hreach : (s.pair node).unreach = false)
    (hroom : s.reqRoom node = true) (hwc : ∀ e ∈ s.fab.wc, e.core ≠ a.core) :
    ∃ r ps n, s.access a = (({ s with reqs := s.reqs ++ [r], pend := s.pend ++ ps, nextId := n } : State).updPair node
        (withFlit r s.cycle), true) ∧ Asks s a r ∧
      ps.map (fun p => (p.dst, p.val, p.req)) = (formDsts a.form).map fun d => (d, PVal.none, s.nextId) := by
  obtain ⟨r, ps, n, he, asks, hps⟩ := addReq_eq s a
  refine ⟨r, ps, n, ?_, asks, hps⟩
  have ok : s.remoteRelOk a = true := by
    unfold remoteRelOk
    simp [hop, isRel, ← hop ▸ hafter]
  have sent := sendReq_rotor { s with reqs := s.reqs ++ [r], pend := s.pend ++ ps, nextId := n } r node
    (asks.va ▸ hnode) hroute (asks.core ▸ hwc)
  unfold access
  have notRel : isRel a.op a.ord = false := by rw [hop]; rfl
  have reply : returns a.op = true := by rw [hop]; rfl
  simp only [notRel, Bool.false_and, Bool.false_eq_true, if_false, hl, ok, Bool.not_true, reply, if_true,
    unreach_rotor hroute, hreach, hroom, he, List.getLast?_append, List.getLast?_singleton, Option.some_or]
  rw [sent]

/-- The form of LDNF, whose reply says whether the page could be read (R300). -/
def isNf : LdForm → Bool
  | .nf _ _ _ _ => true
  | _ => false

/-- What another package is asked for by a load. -/
theorem bodyOf_load {s : State} {a : Access} {r : Req} (h : Asks s a r) (hop : a.op = .load) :
    bodyOf r = .read (vaOf a.ea) a.size .load a.ord (effScope a.loc a.leaf a.op a.ord a.scope)
      (isNf a.form) := by
  unfold bodyOf
  simp only [h.op, hop, h.va, h.size, h.ord, h.scope, h.form]
  rfl

/-- A load behind nothing of its thread waits for nothing (R117, R122). -/
theorem afterOf_load_of_none {s : State} {t core : Nat} {o : Ord} {x : Scope}
    (hreqs : ∀ r ∈ s.reqs, sameAgent (.thread t) r.who = false)
    (hwc : ∀ e ∈ s.fab.wc, ∀ i ∈ e.who, sameAgent (.thread t) i.who = false) :
    s.afterOf (.thread t) core .load o x = [] := by
  have own : (s.reqs.filter fun r => sameAgent (.thread t) r.who) = [] := by
    rw [List.filter_eq_nil_iff]
    exact fun r hr => by simp [hreqs r hr]
  have remote : s.ownRemote (.thread t) = [] := by
    unfold ownRemote
    rw [List.filter_eq_nil_iff.2, List.map_nil]
    exact fun e he => by simpa using hwc e he
  have notRel : isRel .load o = false := rfl
  unfold afterOf
  simp only [notRel, own, remote, Bool.false_and, Bool.false_eq_true, if_false, List.map_nil, List.append_nil, ite_self]

/-- The checks of an access to a reachable Rotor node (R34). -/
theorem chkG_of_far {s : State} {t ea n node : Nat} {x : Want} (h : Far s t x.lockWr ea n node) :
    s.chkG t ea n x = (s, .go (.remote node (vaOf ea)) noLeaf) := by
  obtain ⟨hlt, hal, hfar, rfl, hroute, -, hlock, -⟩ := h
  have hnode : bits ea 53 48 = ea / 2 ^ 48 := by
    unfold bits
    omega
  unfold chkG chkGlobal
  rw [if_neg (by omega), if_neg (by simpa using hal)]
  simp only [hfar, hnode, hroute, hlock, Option.isNone_some, Bool.false_eq_true, if_false]

/-- A load of another package's memory in one thread: its request is queued as a flit. -/
theorem sentTo_of_far {s : State} {t : Nat} {h : Hdr} {u : Uses} {body : State → Nat → State} {ea n node : Nat}
    {o : Ord} {sc : Scope} {hint : Hint} {form : LdForm} (h1 : One s t h u) (hf : Far s t false ea n node)
    (hb : body s t = s.laneGlobal t ea n .load o sc hint form .load) (hd : ∀ d ∈ formDsts form, laneDst t d) :
    ∃ s', memOp h u body s = .next s' ∧ SentTo s s' t h.m node ea .load n
      (.read (ea % 2 ^ 48) n .load o (farScope sc) (isNf form)) (formDsts form) := by
  obtain ⟨hc, hlast, ⟨-, hready⟩, -, hfree, hfresh⟩ := id h1
  have chk := chkG_of_far (x := .load) hf
  obtain ⟨hlt, -, -, hnode, hroute, hreach, -, hroom, -, hwc, hreqs⟩ := hf
  have bnode : bits ea 53 48 = node := by
    unfold bits
    omega
  obtain ⟨r, ps, k, hacc, asks, hps⟩ := access_remote_load (s := s) (node := node) (v := vaOf ea)
    (a := s.laneAcc t .load n o sc hint ea form (.remote node (vaOf ea)) noLeaf) rfl rfl
    (afterOf_load_of_none (fun r hr => (hreqs r hr).2) fun e he => (hwc e he).2) bnode hroute hreach
    (decide_eq_true hroom) fun e he => (hwc e he).1
  generalize hs1 : ({ s with reqs := s.reqs ++ [r], pend := s.pend ++ ps, nextId := k } : State) = s1 at hacc
  have dst : ps.map (·.dst) = formDsts form := by
    simpa [Function.comp_def, laneAcc] using congrArg (List.map Prod.fst) hps
  have pending : s1.threadPend t = (s.threadPend t || decide (formDsts form ≠ [])) := by
    rw [← dst, ← threadPend_append s t ps fun p hp => hd _ (dst ▸ List.mem_map_of_mem hp), ← hs1]
    rfl
  have flit := pair_updPair s1 node (withFlit r s.cycle) fun _ => rfl
  obtain ⟨fab, hfab, hfabwc⟩ := updPair_eq s1 node (withFlit r s.cycle)
  rw [hfab] at hacc flit
  have lane : laneOp h u body s = (s1.setFab fab).updThread t (wentOn s h.m (s1.threadPend t)) := by
    have alive : ((s1.setFab fab).th t).st ≠ .ended := by
      rw [← hs1]
      exact (hready t (by simp [hc])).1
    rw [laneOp_of_one h1, hb, laneGlobal_of_go hfree chk hacc, advance_restM _ h.m t alive, ← hs1]
    rfl
  have leave : (laneOp h u body s).coalesce s.nextId = ((s1.setFab fab).updThread t
      (wentOn s h.m (s1.threadPend t))).setReqs (s.reqs ++ [coReq [r] s.nextId r]) := by
    rw [lane]
    exact coalesce_eq _ s.nextId s.reqs [r] (by rw [← hs1]; rfl) hfresh (by simp [asks.id]) (by rw [← hs1]; exact hlast)
  have asked := bodyOf_load asks rfl
  obtain ⟨hop, -, hsize⟩ : _ ∧ _ ∧ _ := by simpa only [Prod.mk.injEq] using coReq_request [r] s.nextId r
  refine ⟨_, congrArg Host.Outcome.next leave, ?_⟩
  rw [pending]
  subst hs1
  refine ⟨rfl, ⟨coReq [r] s.nextId r, rfl, ?_, ?_, ?_, ?_, ?_⟩, ⟨ps, rfl, hps⟩, ?_, ?_, hfabwc, rfl, rfl, rfl, rfl, rfl⟩
  · rw [coReq_id, asks.id]
  · rw [coReq_who, asks.who]
    rfl
  · rw [hop, asks.op]
    rfl
  · rw [hsize, asks.size]
    rfl
  · rw [coReq_loc, asks.loc]
    rfl
  · have out := congrArg Pair.out flit
    rw [withFlit, asked, asks.ctx, asks.id] at out
    exact out
  · exact congrArg Pair.eseq flit

theorem formDsts_lane (ty : Ty) (t d : Nat) : formDsts (.lane ty t d) = dsts t ty d := by
  cases ty <;> rfl

theorem formDsts_nf (ty : Ty) (t d c : Nat) : formDsts (.nf ty t d c) = dsts t ty d ++ [.pred t c] := by
  cases ty <;> rfl

/-- LDNF to another package is issued as a load (R300). -/
theorem ldnfBody_of_far {s : State} {t : Nat} {x : MemX} {d a c : Nat} {b : Option Nat}
    (hfree : s.acqBlocked (.thread t) = false)
    (hfar : s.isLocal (s.ctxOfThread t) (s.eaGlobal true t a b x.off (tySize x.ty)) = false) :
    ldnfBody x.ty x.hint x.scope x.off d a b c s t =
      s.laneGlobal t (s.eaGlobal true t a b x.off (tySize x.ty)) (tySize x.ty) .load .plain x.scope x.hint
        (.nf x.ty t d c) .load := by
  unfold ldnfBody
  simp only [hfree, hfar, Bool.not_false, Bool.true_or, Bool.false_eq_true, if_false, if_true]

/-! ## LD of one register that the L1 answers -/

theorem locOf_mem {pa : Nat} (h : pa < Config.hostBase) : locOf pa = .mem pa := if_neg (Nat.not_le.2 h)

theorem l1Behind_of_untouched {s : State} {w : Who} {core n : Nat} {l : Loc}
    (h : ∀ r ∈ s.reqs, r.core = core → touches r l n = false) : s.l1Behind w core l n = false := by
  unfold l1Behind
  rw [List.any_eq_false]
  intro r hr
  by_cases hc : r.core = core
  · simp [h r hr hc]
  · simp [hc]

/-- The machine after a load that the L1 has answered: its result stands, and the thread has gone on. -/
theorem ld_of_copy {s : State} {t : Nat} {h : Hdr} {x : MemX} {d a : Nat} {b : Option Nat} {ea pa : Nat} {leaf : Leaf}
    {bs : List Byte} (h1 : One s t h ⟨tyRegs x.ty d ++ optW b, .g a :: (optW b).map .w⟩)
    (hea : s.eaGlobal true t a b x.off (tySize x.ty) = ea) (hg : Glob s t .load ea (tySize x.ty) pa leaf)
    (hsz : tySize x.ty ≤ 4) (hsc : x.scope.wide = false) (hcp : leaf.cp ≤ 1) (hhint : x.hint ≠ .nl1)
    (hpa : pa < Config.hostBase)
    (hbehind : ∀ r ∈ s.reqs, r.core = coreOf t → touches r (.mem pa) (tySize x.ty) = false)
    (hr : s.l1Read (coreOf t) pa (tySize x.ty) = some bs) :
    ∃ cs cur, exec (.ld h x d a b) s =
      .next { s with
        pend := s.pend ++ [⟨s.nextId, .reg t d, .reg ⟨BitVec.ofNat 32 (extInt x.ty (leNat bs)), Tag.zero⟩, 0, false,
          s.cycle⟩],
        threads := s.threads.map fun y => if y.slot = t then wentOn s h.m true y else y,
        nextId := s.nextId + 1, cores := cs, cur := cur } := by
  obtain ⟨hc, -, ⟨-, hready⟩, -, hfree, hfresh⟩ := id h1
  have alloc : allocates leaf.cp x.hint = true := by simp [allocates, hcp, hhint]
  obtain ⟨cs, last, hacc⟩ := access_of_copy (s := s) (pa := pa)
    (a := s.laneAcc t .load (tySize x.ty) x.ord x.scope x.hint ea (.lane x.ty t d) (.mem pa) leaf) rfl rfl rfl rfl hsz
    hsc alloc (l1Behind_of_untouched hbehind) hr
  have body := ldBody_of_glob (d := d) hea hfree hg ((locOf_mem hpa).symm ▸ hacc)
  have old : ∀ r ∈ s.reqs, r.id < s.nextId := hfresh
  generalize (PVal.reg ⟨BitVec.ofNat 32 (extInt x.ty (leNat bs)), Tag.zero⟩) = v at body ⊢
  generalize hcur : ({ s.cur with last := last } : Bundle) = cur at body
  have lane : laneOp h ⟨tyRegs x.ty d ++ optW b, .g a :: (optW b).map .w⟩ (ldBody x d a b) s =
      (((s.addPend (.reg t d) v 0 false).updThread t (wentOn s h.m true)).setCores cs).setCur cur := by
    have mine : (((s.addPend (.reg t d) v 0 false).setCores cs).setCur cur).threadPend t = true := by
      simp [threadPend, addPend, Pend.ofThread]
    have alive : ((((s.addPend (.reg t d) v 0 false).setCores cs).setCur cur).th t).st ≠ .ended :=
      (hready t (by simp [hc])).1
    rw [laneOp_of_one h1, body, advance_restM _ h.m t alive, mine, ← hcur]
    rfl
  obtain ⟨cs', cur', leave⟩ := coalesce_of_old
    ((((s.addPend (.reg t d) v 0 false).updThread t (wentOn s h.m true)).setCores cs).setCur cur) s.nextId old
  refine ⟨cs', cur', ?_⟩
  rw [exec_ld, memOp, lane, leave]
  simp only [setCur, setCores, updThread, addPend, setPend, bump]

end Sys2Proof.Machine.State
end


section
namespace Sys2Proof.Machine.State
open Sys2Proof.Says

/-! ## LD of several threads (R41, R253) -/

/-- A thread that passes steps 6 to 8 of R242 with a true guard: the body, then the proof bit's rest. -/
theorem laneOne_of_passes {z : Nat → Bool} {h : Hdr} {u : Uses} {body : State → Nat → State} {s : State} {t : Nat}
    (hz : z t = s.hazOf t) (hp : s.passes h u t) (hg : s.guardT t h.gd = true) :
    laneOne z h u body s t = (body s t).restM h.m t := by
  obtain ⟨alive, held, haz⟩ := hp
  have noIll : u.held.find? (fun n => !holds (s.grOf t) n) = none := by
    rw [List.find?_eq_none]
    intro n hn
    simp [held n hn]
  have noGuard : (if z t then s.guardPend t h.gd else none) = none := by
    split
    · rename_i h0
      exact (haz (hz.symm.trans h0)).1
    · rfl
  have noRead : (if z t then u.reads.find? (s.opdPend t) else none) = none := by
    split
    · rename_i h0
      rw [List.find?_eq_none]
      intro o ho
      simp [(haz (hz.symm.trans h0)).2 hg o ho]
    · rfl
  simp only [laneOne, alive, if_false, noIll, noGuard, noRead, hg, Bool.not_true, Bool.false_eq_true]

/-- σ is s after other threads than t have issued: threads, accesses on their way, pending results and the next name
may differ, but nothing of t's own. -/
def Elsewhere (s : State) (t : Nat) (σ : State) : Prop :=
  ∃ ths rs ps n, σ = (s.setReqs (s.reqs ++ rs)).withRun ths ps n ∧ σ.th t = s.th t ∧ Foreign s t ps ∧
    ∀ r ∈ rs, ∃ u, r.who = .thread u ∧ u ≠ t

section
variable {s σ : State} {t : Nat} (e : Elsewhere s t σ)
include e

theorem Elsewhere.guardT (g : Guard) : σ.guardT t g = s.guardT t g := by
  obtain ⟨_, _, _, _, -, hth, -⟩ := e
  unfold State.guardT rp
  rw [hth]

theorem Elsewhere.passes {h : Hdr} {u : Uses} (hp : s.passes h u t) : σ.passes h u t := by
  obtain ⟨alive, held, haz⟩ := hp
  have guard := e.guardT h.gd
  obtain ⟨ths, rs, ps, n, rfl, hth, hf, -⟩ := e
  have hf' : Foreign (s.setReqs (s.reqs ++ rs)) t ps := hf
  refine ⟨hth ▸ alive, held, fun hz => ?_⟩
  obtain ⟨hgp, hreads⟩ := haz hz
  refine ⟨(hf'.guardPend ths n h.gd).trans hgp, fun hg o ho => ?_⟩
  exact (hf'.opdPend ths n o).trans (hreads (guard ▸ hg) o ho)

theorem Elsewhere.hazOf : σ.hazOf = s.hazOf := by
  obtain ⟨_, _, _, _, rfl, -⟩ := e
  rfl

theorem Elsewhere.rgSeen (n : Nat) : σ.rgSeen t n = s.rgSeen t n := by
  obtain ⟨ths, rs, ps, k, rfl, -, ⟨qs, rfl, hq⟩, -⟩ := e
  have none : qs.find? (fun p => n != 0 && p.dst == .ureg (t / 32) n) = none := by
    rw [List.find?_eq_none]
    intro p hp
    obtain ⟨u, m, hd, -⟩ := hq p hp
    simp [hd]
  have seen : (s.pend ++ qs).find? (fun p => n != 0 && p.dst == .ureg (t / 32) n) =
      s.pend.find? fun p => n != 0 && p.dst == .ureg (t / 32) n := by
    rw [List.find?_append, none, Option.or_none]
  unfold State.rgSeen withRun
  simp only [seen]
  rfl

theorem Elsewhere.eaGlobal (tb : Bool) (a : Nat) (b : Option Nat) (off : Int) (n : Nat) :
    σ.eaGlobal tb t a b off n = s.eaGlobal tb t a b off n := by
  have seen := e.rgSeen a
  obtain ⟨_, _, _, _, -, hth, -⟩ := e
  have idx : σ.optIdx t b = s.optIdx t b := by
    cases b with
    | none => rfl
    | some k => simp only [optIdx, rw, wreg, hth]
  have base : σ.trapBase t = s.trapBase t := by
    unfold trapBase
    rw [hth]
  unfold State.eaGlobal
  rw [seen, idx, base]

theorem Elsewhere.acqBlocked (h : s.acqBlocked (.thread t) = false) : σ.acqBlocked (.thread t) = false := by
  obtain ⟨ths, rs, ps, k, rfl, -, -, hr⟩ := e
  unfold State.acqBlocked withRun at *
  simp only [setReqs_reqs, List.any_append, h, Bool.false_or]
  rw [List.any_eq_false]
  intro r hm
  obtain ⟨u, hu, hne⟩ := hr r hm
  simp [hu, sameAgent, Ne.symm hne]

theorem Elsewhere.glob {x : Want} {ea n pa : Nat} {leaf : Leaf} (h : Glob s t x ea n pa leaf) :
    Glob σ t x ea n pa leaf := by
  obtain ⟨_, _, _, _, rfl, -⟩ := e
  exact h

theorem Elsewhere.noCopy {core : Nat} {x : MemX} {leaf : Leaf} {l : Loc} (h : NoCopy s core x leaf l) :
    NoCopy σ core x leaf l := by
  obtain ⟨_, _, _, _, rfl, -⟩ := e
  exact h

end

/-- s1 is s after each of these threads has put its operations on their way, with its results pending, and gone on. -/
def Ran (s s1 : State) (m : Bool) (o : Ord) (ops : Nat → List (MemOp × Loc × Nat)) (ds : Nat → List Dst)
    (l : List Nat) : Prop :=
  ∃ (rs : List Req) (ps : List Pend) (n : Nat),
    s1 = { s with threads := s.threads.map (fun x => if x.slot ∈ l then wentOn s m true x else x),
                  reqs := s.reqs ++ rs, pend := s.pend ++ ps, nextId := n } ∧ s.nextId ≤ n ∧
    rs.map (fun r => (r.who, r.op, r.loc, r.size)) = (l.flatMap fun t => (ops t).map fun y => (.thread t, y)) ∧
    ps.map (·.dst) = l.flatMap ds ∧ (∀ r ∈ rs, r.ord = o ∧ s.nextId ≤ r.id) ∧
    ∀ p ∈ ps, p.val = .none ∧ ∃ r ∈ rs, r.id = p.req

theorem Ran.nil (s : State) (m : Bool) (o : Ord) (ops : Nat → List (MemOp × Loc × Nat)) (ds : Nat → List Dst) :
    Ran s s m o ops ds [] :=
  ⟨[], [], s.nextId, by simp, Nat.le_refl _, rfl, rfl, by simp, by simp⟩

section
variable {s σ : State} {m : Bool} {o : Ord} {ops : Nat → List (MemOp × Loc × Nat)} {ds : Nat → List Dst} {l : List Nat}
  {t : Nat}

/-- A thread that has not run yet finds its own part of the machine as it was. -/
theorem Ran.elsewhere (h : Ran s σ m o ops ds l) (hd : ∀ u, ∀ d ∈ ds u, ∃ n, d = .reg u n) (ht : t ∉ l) :
    Elsewhere s t σ := by
  obtain ⟨rs, ps, n, rfl, -, hops, hdst, -, -⟩ := h
  refine ⟨_, rs, _, n, rfl, ?_, ⟨ps, rfl, fun p hp => ?_⟩, fun r hr => ?_⟩
  · have same (x : Thread) : (if x.slot ∈ l then wentOn s m true x else x).slot = x.slot := by
      split <;> rfl
    unfold th
    simp only [List.find?_map, Function.comp_def, same]
    cases hx : s.threads.find? (fun x => x.slot == t) with
    | none => rfl
    | some x =>
      have slot : x.slot = t := by simpa using List.find?_some hx
      simp [slot, ht]
  · have hm : p.dst ∈ l.flatMap ds := hdst ▸ List.mem_map_of_mem hp
    obtain ⟨u, hu, hmem⟩ := List.mem_flatMap.1 hm
    obtain ⟨k, hk⟩ := hd u _ hmem
    exact ⟨u, k, hk, fun hut => ht (hut ▸ hu)⟩
  · have hm := List.mem_map_of_mem (f := fun r : Req => (r.who, r.op, r.loc, r.size)) hr
    rw [hops] at hm
    obtain ⟨u, hu, hmem⟩ := List.mem_flatMap.1 hm
    obtain ⟨y, -, hy⟩ := List.mem_map.1 hmem
    exact ⟨u, (congrArg Prod.fst hy).symm, fun hut => ht (hut ▸ hu)⟩

/-- A thread that has put operations with a result on their way goes on. -/
theorem Sent.advance_restM {s1 : State} {cs : List Core} {is : List (MemOp × Loc × Nat)} {rs : List Dst}
    (h : Sent s cs s1 t o is rs) (hd : ∀ d ∈ rs, laneDst t d) (hne : rs ≠ []) (alive : (s.th t).st ≠ .ended) :
    (s1.advance t).restM m t = s1.updThread t (wentOn s m true) := by
  obtain ⟨_, ps, _, he, -, -, rfl, -⟩ := h
  have mine : s1.threadPend t = true := by
    have own := threadPend_append s t ps fun p hp => hd _ (List.mem_map_of_mem hp)
    rw [decide_eq_true hne, Bool.or_true] at own
    rw [he]
    exact own
  have alive1 : (s1.th t).st ≠ .ended := by
    rw [he]
    exact alive
  rw [State.advance_restM s1 m t alive1, mine, he]
  rfl

/-- One more thread issues and goes on. -/
theorem Ran.snoc {s1 : State} (h : Ran s σ m o ops ds l) (hs : Sent σ σ.cores s1 t o (ops t) (ds t))
    (hd : ∀ d ∈ ds t, laneDst t d) (hne : ds t ≠ []) (ht : t ∉ l) (alive : (σ.th t).st ≠ .ended) :
    Ran s ((s1.advance t).restM m t) m o ops ds (l ++ [t]) := by
  rw [hs.advance_restM hd hne alive]
  obtain ⟨rs, ps, n, rfl, hn, hops, hdst, hr, hp⟩ := h
  obtain ⟨rs', ps', n', rfl, hn', hops', hdst', hr', hp'⟩ := hs
  refine ⟨rs ++ rs', ps ++ ps', n', ?_, Nat.le_trans hn hn', ?_, ?_, ?_, ?_⟩
  · have ths : (s.threads.map fun x => if x.slot ∈ l then wentOn s m true x else x).map
        (fun x => if x.slot = t then wentOn s m true x else x) =
        s.threads.map fun x => if x.slot ∈ l ++ [t] then wentOn s m true x else x := by
      rw [List.map_map]
      refine List.map_congr_left fun x _ => ?_
      by_cases hx : x.slot = t
      · simp [hx, ht]
      · have other : (wentOn s m true x).slot ≠ t := hx
        by_cases hl : x.slot ∈ l <;> simp [hx, hl, other]
    rw [← ths, ← List.append_assoc, ← List.append_assoc]
    rfl
  · have who : rs'.map (fun r => (r.who, r.op, r.loc, r.size)) = (ops t).map fun y => (.thread t, y) := by
      rw [← hops', List.map_map]
      exact List.map_congr_left fun r hm => by simp [(hr' r hm).who]
    simp [hops, who]
  · simp [hdst, hdst']
  · intro r hm
    rcases List.mem_append.1 hm with hm | hm
    · exact hr r hm
    · exact ⟨(hr' r hm).ord, Nat.le_trans hn (hr' r hm).fresh⟩
  · intro p hm
    rcases List.mem_append.1 hm with hm | hm
    · obtain ⟨hv, r, hrm, hid⟩ := hp p hm
      exact ⟨hv, r, List.mem_append_left _ hrm, hid⟩
    · obtain ⟨hv, r, hrm, hid⟩ := hp' p hm
      exact ⟨hv, r, List.mem_append_right _ hrm, hid⟩

/-- The threads of a list issue one after another. -/
theorem Ran.foldl {h : Hdr} {u : Uses} {body : State → Nat → State}
    (hd : ∀ u, ∀ d ∈ ds u, ∃ n, d = .reg u n) (hne : ∀ u, ds u ≠ []) (l' : List Nat)
    (hready : ∀ t ∈ l', s.passes h u t ∧ s.guardT t h.gd = true)
    (hbody : ∀ t ∈ l', ∀ σ, Elsewhere s t σ → ∃ s1, body σ t = s1.advance t ∧ Sent σ σ.cores s1 t o (ops t) (ds t)) :
    ∀ (σ : State) (l : List Nat), Ran s σ h.m o ops ds l → (l ++ l').Nodup →
      Ran s (l'.foldl (laneOne s.hazOf h u body) σ) h.m o ops ds (l ++ l') := by
  induction l' with
  | nil =>
    intro σ l hr _
    simpa using hr
  | cons t l' ih =>
    intro σ l hr hnd
    have ht : t ∉ l := fun hm => (List.nodup_append.1 hnd).2.2 t hm t List.mem_cons_self rfl
    have e := hr.elsewhere hd ht
    obtain ⟨hp, hg⟩ := hready t List.mem_cons_self
    have passes := e.passes hp
    obtain ⟨s1, hs1, sent⟩ := hbody t List.mem_cons_self σ e
    have one : laneOne s.hazOf h u body σ t = (s1.advance t).restM h.m t := by
      rw [laneOne_of_passes (congrFun e.hazOf t).symm passes ((e.guardT h.gd).trans hg), hs1]
    have next := hr.snoc sent (fun d hm => .inl (hd t d hm)) (hne t) ht passes.1
    rw [List.foldl_cons, one, List.append_cons]
    exact ih (fun u hu => hready u (List.mem_cons_of_mem t hu)) (fun u hu => hbody u (List.mem_cons_of_mem t hu)) _ _
      next (by rwa [← List.append_cons])

end

/-! ## The order in which several loads leave (R41) -/

/-- A load of HBM4 by a thread. -/
def laneLoadAt (r : Req) (t x : Nat) : Prop := r.who = .thread t ∧ r.op = .load ∧ r.loc = .mem x

theorem inOrder_iff {a b : Req} {t u x y : Nat} (ha : laneLoadAt a t x) (hb : laneLoadAt b u y) :
    inOrder a b = true ↔ x / 128 < y / 128 ∨ x / 128 = y / 128 ∧ t ≤ u := by
  obtain ⟨hw, -, hl⟩ := ha
  obtain ⟨hw', -, hl'⟩ := hb
  simp [inOrder, hw, hl, hw', hl']

theorem coalesces_load {r : Req} {t x : Nat} (h : laneLoadAt r t x) : coalesces r = some x := by
  obtain ⟨-, hop, hl⟩ := h
  simp [coalesces, hop, hl]

theorem laneLoadAt_coReq {l : List Req} {n : Nat} {r : Req} {t x : Nat} (h : laneLoadAt r t x) :
    laneLoadAt (coReq l n r) t x := by
  obtain ⟨_, _, _, _, e⟩ := coReq_eq l n r
  rw [e]
  exact h

/-- A load enters the list behind those of earlier lines, and before those of its line, which are of later lanes. -/
theorem byLine_inOrder {r : Req} {t x : Nat} (hr : laneLoadAt r t x) (l : List Req)
    (hl : ∀ a ∈ l, ∃ u y, laneLoadAt a u y ∧ t ≤ u) (hs : l.Pairwise fun a b => inOrder a b = true) :
    (byLine r l).Pairwise fun a b => inOrder a b = true := by
  induction l with
  | nil => exact List.pairwise_singleton _ _
  | cons a l ih =>
    obtain ⟨u, y, ha, htu⟩ := hl a List.mem_cons_self
    obtain ⟨hfirst, hrest⟩ := List.pairwise_cons.1 hs
    unfold byLine
    simp only [coalesces_load hr, coalesces_load ha]
    split
    · rename_i hlt
      refine List.pairwise_cons.2 ⟨fun b hb => ?_, ih (fun b hb => hl b (List.mem_cons_of_mem a hb)) hrest⟩
      rcases List.mem_cons.1 ((byLine_perm r l).mem_iff.1 hb) with rfl | hb
      · refine (inOrder_iff ha hr).2 (.inl ?_)
        unfold lineOf at hlt
        omega
      · exact hfirst b hb
    · rename_i hge
      have hle : x / 128 ≤ y / 128 := by
        unfold lineOf at hge
        omega
      refine List.pairwise_cons.2 ⟨fun b hb => ?_, hs⟩
      obtain ⟨v, z, hb', htv⟩ := hl b hb
      refine (inOrder_iff hr hb').2 ?_
      rcases List.mem_cons.1 hb with rfl | hb
      · obtain ⟨-, -, hy⟩ := ha
        obtain ⟨-, -, hz⟩ := hb'
        obtain rfl : y = z := by simpa [hy] using hz
        omega
      · have := (inOrder_iff ha hb').1 (hfirst b hb)
        omega

/-- The accesses stand in the order of their lanes. -/
def lanesRise (l : List Req) : Prop := l.Pairwise fun a b => ∀ t u, a.who = .thread t → b.who = .thread u → t ≤ u

/-- Loads in the order of their lanes leave in the order of their lines, those of one line in that of their lanes. -/
theorem foldr_byLine_inOrder (l : List Req) (hl : ∀ r ∈ l, ∃ t x, laneLoadAt r t x) (hs : lanesRise l) :
    (l.foldr byLine []).Pairwise fun a b => inOrder a b = true := by
  induction l with
  | nil => exact List.Pairwise.nil
  | cons r l ih =>
    obtain ⟨hfirst, hrest⟩ := List.pairwise_cons.1 hs
    obtain ⟨t, x, hr⟩ := hl r List.mem_cons_self
    have later := fun a ha => hl a (List.mem_cons_of_mem r ha)
    refine byLine_inOrder hr _ (fun a ha => ?_) (ih later hrest)
    have ha := (foldr_byLine_perm l).mem_iff.1 ha
    obtain ⟨u, y, hat⟩ := later a ha
    exact ⟨u, y, hat, hfirst a ha t u hr.1 hat.1⟩

theorem coalesced_inOrder (rs : List Req) (n : Nat) (hl : ∀ r ∈ rs, ∃ t x, laneLoadAt r t x) (hs : lanesRise rs) :
    (coalesced rs n).Pairwise fun a b => inOrder a b = true := by
  refine foldr_byLine_inOrder _ (fun r hr => ?_) (List.pairwise_map.2 (hs.imp fun hab t u ha hb => ?_))
  · obtain ⟨a, ha, rfl⟩ := List.mem_map.1 hr
    obtain ⟨t, x, h⟩ := hl a ha
    exact ⟨t, x, laneLoadAt_coReq h⟩
  · exact hab t u (coReq_who rs n _ ▸ ha) (coReq_who rs n _ ▸ hb)

theorem loads_mem {pa n : Nat} : ∀ y ∈ loads (.mem pa) n, y.1 = .load ∧ ∃ x, y.2.1 = .mem x := by
  intro y hy
  obtain ⟨u, hu, rfl⟩ := List.mem_map.1 hy
  refine ⟨rfl, ?_⟩
  by_cases h : n = 16
  · rcases (by simpa [units, h] using hu : u = _ ∨ u = _) with rfl | rfl <;> exact ⟨_, rfl⟩
  · obtain rfl : u = _ := by simpa [units, h] using hu
    exact ⟨_, rfl⟩

/-- What the requests of several threads' loads are, in the order of the threads. -/
theorem lanes_of_loads {rs : List Req} {l : List Nat} {pa : Nat → Nat} {n : Nat} (hl : l.Pairwise (· < ·))
    (h : rs.map (fun r => (r.who, r.op, r.loc, r.size)) =
      l.flatMap fun t => (loads (.mem (pa t)) n).map fun y => (.thread t, y)) :
    (∀ r ∈ rs, ∃ t x, laneLoadAt r t x) ∧ lanesRise rs := by
  refine ⟨fun r hr => ?_, ?_⟩
  · have hm := List.mem_map_of_mem (f := fun r : Req => (r.who, r.op, r.loc, r.size)) hr
    rw [h] at hm
    obtain ⟨t, -, hmem⟩ := List.mem_flatMap.1 hm
    obtain ⟨y, hy, heq⟩ := List.mem_map.1 hmem
    obtain ⟨hop, x, hloc⟩ := loads_mem y hy
    obtain ⟨hw, rfl⟩ := Prod.mk.inj heq
    exact ⟨t, x, hw.symm, hop, hloc⟩
  · have rise : (rs.map fun r => (r.who, r.op, r.loc, r.size)).Pairwise
        fun a b => ∀ t u, a.1 = .thread t → b.1 = .thread u → t ≤ u := by
      rw [h, List.pairwise_flatMap]
      refine ⟨fun t _ => ?_, hl.imp fun {t u} htu => ?_⟩
      · refine List.pairwise_map.2 (List.pairwise_of_forall fun y z => ?_)
        rintro _ _ ⟨⟩ ⟨⟩
        exact Nat.le_refl _
      · intro a ha b hb
        obtain ⟨_, -, rfl⟩ := List.mem_map.1 ha
        obtain ⟨_, -, rfl⟩ := List.mem_map.1 hb
        rintro _ _ ⟨⟩ ⟨⟩
        exact Nat.le_of_lt htu
    exact List.pairwise_map.1 rise

/-- Several threads that have put their loads on their way and gone on: these leave the coalescer in order (R41). -/
theorem issuedMany_of_ran {s : State} {gs : Nat} {h : Hdr} {u : Uses} {body : State → Nat → State} {o : Ord} {n : Nat}
    {pa : Nat → Nat} {ds : Nat → List Dst} (hs : Several s gs h u) (hne : ∀ t, ds t ≠ [])
    (hr : Ran s (laneOp h u body s) h.m o (fun t => loads (.mem (pa t)) n) ds s.cur.threads) :
    ∃ s', memOp h u body s = .next s' ∧ IssuedMany s s' h.m o
      (s.cur.threads.flatMap fun t => (loads (.mem (pa t)) n).map fun y => (.thread t, y)) (s.cur.threads.flatMap ds) := by
  obtain ⟨hsome, hrise, hlast, -, hfresh, -⟩ := hs
  obtain ⟨rs, ps, k, he, -, hops, hdst, hown, hp⟩ := hr
  have leave : (laneOp h u body s).coalesce s.nextId =
      (laneOp h u body s).setReqs (s.reqs ++ coalesced rs s.nextId) :=
    coalesce_eq _ s.nextId s.reqs rs (by rw [he]) hfresh (fun r hm => (hown r hm).2) (by rw [he]; exact hlast)
  have some_dst : s.cur.threads.flatMap ds ≠ [] := by
    obtain ⟨t, ht⟩ := List.exists_mem_of_ne_nil _ hsome
    exact fun h0 => hne t (List.flatMap_eq_nil_iff.1 h0 t ht)
  obtain ⟨hlane, lanes⟩ := lanes_of_loads hrise hops
  refine ⟨_, congrArg Host.Outcome.next leave, ?_⟩
  rw [he]
  refine ⟨?_, ⟨coalesced rs s.nextId, rfl, ?_, fun r hm => ?_, coalesced_inOrder rs _ hlane lanes⟩,
    ⟨ps, rfl, hdst, fun p hm => ?_⟩, rfl, rfl, rfl, rfl, rfl, rfl, rfl, rfl, rfl, rfl⟩
  · simp only [decide_eq_true some_dst, Bool.or_true]
    rfl
  · rw [← hops]
    refine coalesced_map _ (fun l k r => ?_) rs s.nextId
    rw [coReq_who, coReq_request]
  · obtain ⟨x, hx, rfl⟩ := mem_coalesced.1 hm
    rw [coReq_ord]
    exact (hown x hx).1
  · obtain ⟨hv, r, hrm, hid⟩ := hp p hm
    refine ⟨hv, coReq rs s.nextId r, List.mem_append_right _ (mem_coalesced.2 ⟨r, hrm, rfl⟩), ?_⟩
    rw [coReq_id]
    exact ⟨(hown r hrm).2, hid⟩

theorem dsts_ne_nil (t : Nat) (ty : Ty) (d : Nat) : dsts t ty d ≠ [] := by
  cases ty <;> simp [dsts, tyRegs]

theorem dsts_reg (t : Nat) (ty : Ty) (d : Nat) : ∀ x ∈ dsts t ty d, ∃ n, x = .reg t n := by
  intro x hx
  obtain ⟨n, -, rfl⟩ := List.mem_map.1 hx
  exact ⟨n, rfl⟩

end Sys2Proof.Machine.State
end

section
open Sys2Proof Sys2Proof.Machine Sys2Proof.Says State

/-- Settles O18: one thread's reads or its L1 copy, several threads' reads by induction on the bundle, and a READ to
another package. -/
theorem laneLoad : Obligations.LaneLoad := by
  unfold Obligations.LaneLoad
  refine ⟨fun s t h x d a b ea pa leaf _ h1 hea hg => ⟨fun hn => ?one, fun bs hsz hsc hcp hhint hpa hfree hr => ?copy⟩,
    fun s gs h x d a b ea pa leaf _ hs hall => ?several, fun s t h x d a b c ea node _ hea hfar h1 => ?remote⟩
  case one =>
    obtain ⟨-, -, -, -, free, -⟩ := id h1
    obtain ⟨s1, body, sent⟩ := ldBody_sent (d := d) hea.symm free hg hn
    obtain ⟨s', ops, run, issued, -, same⟩ := issued_of_sent h1 body sent dsts_laneDst
    exact ⟨s', run, same (linesRise_loads _ _) ▸ issued⟩
  case copy =>
    obtain ⟨cs, cur, run⟩ := ld_of_copy h1 hea.symm hg hsz hsc hcp hhint hpa hfree hr
    refine ⟨_, run, rfl, ?_, rfl, rfl, rfl, rfl, rfl, rfl, rfl, rfl, rfl, rfl, rfl⟩
    refine List.map_congr_left fun y _ => ?_
    simp only [wentOn, Bool.and_true]
  case several =>
    obtain ⟨-, -, -, ⟨nodup, ready⟩, -, lanes⟩ := id hs
    have body : ∀ t ∈ s.cur.threads, ∀ σ, Elsewhere s t σ → ∃ s1, ldBody x d a b σ t = s1.advance t ∧
        Sent σ σ.cores s1 t x.ord (loads (.mem (pa t)) (tySize x.ty)) (dsts t x.ty d) := by
      intro t ht σ e
      obtain ⟨hea, hg, hpa, hn⟩ := hall t ht
      obtain ⟨-, -, free⟩ := lanes t ht
      rw [← locOf_mem hpa] at hn ⊢
      exact ldBody_sent ((e.eaGlobal true a b x.off _).trans hea.symm) (e.acqBlocked free) (e.glob hg) (e.noCopy hn)
    exact issuedMany_of_ran hs (dsts_ne_nil · x.ty d) (Ran.foldl (dsts_reg · x.ty d) (dsts_ne_nil · x.ty d) s.cur.threads
      (fun t ht => ⟨ready t ht, (lanes t ht).2.1⟩) body s [] (Ran.nil s h.m x.ord _ _) nodup)
  case remote =>
    obtain ⟨-, -, -, -, free, -⟩ := id h1
    obtain ⟨-, -, far, -⟩ := id hfar
    subst hea
    obtain ⟨s', run, sent⟩ := sentTo_of_far (body := ldBody x d a b) h1 hfar rfl
      (by rw [formDsts_lane]; exact dsts_laneDst)
    rw [formDsts_lane] at sent
    refine ⟨s', run, sent, fun _ => ?_⟩
    obtain ⟨s', run, sent⟩ := sentTo_of_far (body := ldnfBody x.ty x.hint x.scope x.off d a b c) h1 hfar
      (ldnfBody_of_far free far) (by
        rw [formDsts_nf]
        intro y hy
        rcases List.mem_append.1 hy with hy | hy
        · exact dsts_laneDst y hy
        · exact .inr ⟨c, List.mem_singleton.1 hy⟩)
    rw [formDsts_nf] at sent
    exact ⟨s', run, sent⟩
end


namespace Sys2Proof.Proofs.Counterexample
open Sys2Proof Sys2Proof.Machine Sys2Proof.Says

/-! ## Two states that refute a statement -/

/-- An unguarded instruction with M = 0. -/
def hdr : Hdr := ⟨false, false, Guard.always⟩

/-- A group whose g1 is the first address of node 5, and whose team the team table doesn't list. -/
def lostGroup : Group := { Group.none 0 with team := 7, g := [0, BitVec.ofNat 64 (5 * 2 ^ 48)] }
/-- Node 5 is a Rotor peer; the thread of slot 0, of that group, issues alone. -/
def noTeam : State :=
  { State.reset with
    groups := [lostGroup], threads := [{ Thread.none 0 with st := .run }],
    fab := { Fab.reset with en := true, cal := [(5, 0)] }, cur := { Bundle.none with threads := [0] } }
/-- ST of one plain byte at g1. -/
def far : MemX := ⟨.plain, .z8, .thr, .none, 0⟩
/-- The count of unacknowledged remote writes that the team of slot 0 shows. -/
def outst : Out → Nat
  | .next s => (s.tmOf 0).outst
  | _ => 0

theorem noTeam_one : One noTeam 0 hdr ⟨[0], [.w 0, .g 1]⟩ := by
  refine ⟨rfl, rfl, ⟨List.nodup_cons.2 ⟨List.not_mem_nil, List.nodup_nil⟩, fun t ht => ?_⟩, rfl, rfl, fun _ hr => absurd hr List.not_mem_nil⟩
  obtain rfl := List.mem_singleton.1 ht
  exact ⟨by decide, by decide, fun hz => absurd hz (by decide)⟩

theorem noTeam_far : Far noTeam 0 true (5 * 2 ^ 48) 1 5 :=
  ⟨by decide, by decide, by decide, by decide, by decide, by decide, by decide, by decide, by decide,
    fun _ he => absurd he List.not_mem_nil, fun _ hr => absurd hr List.not_mem_nil⟩

/-- A thread in slot 0 that runs at a trap level. -/
def thread (level : Nat) : Thread :=
  { Thread.none 0 with st := .run, trap := { TrapRegs.reset 0 0 with level := level } }
/-- The thread table lists slot 0 twice, at trap level 0 and at trap level 1; the thread of slot 0 issues alone. -/
def twice : State :=
  { State.reset with threads := [thread 0, thread 1], cur := { Bundle.none with threads := [0] } }
/-- LDL of one byte at offset 16, where the stack of 16 bytes ends. -/
def past : MemX := ⟨.plain, .z8, .thr, .none, 16⟩
/-- TRAP_STAT of the record at an index of the thread table. -/
def statAt (i : Nat) : Out → Option (BitVec 6)
  | .next s => s.threads[i]?.map (·.trap.stat)
  | _ => none

theorem twice_one : One twice 0 hdr ⟨[0, 0], [.w 0]⟩ := by
  refine ⟨rfl, rfl, ⟨List.nodup_cons.2 ⟨List.not_mem_nil, List.nodup_nil⟩, fun t ht => ?_⟩, rfl, rfl, fun _ hr => absurd hr List.not_mem_nil⟩
  obtain rfl := List.mem_singleton.1 ht
  exact ⟨by decide, by decide, fun hz => absurd hz (by decide)⟩

end Sys2Proof.Proofs.Counterexample

section
open Sys2Proof Sys2Proof.Machine Sys2Proof.Says Sys2Proof.Proofs.Counterexample

/-- Refutes O19: in a state whose team table doesn't list the team of the thread's group, a ST to another package opens
its write-combining entry, but no record of a team counts it, so the team that the thread shows keeps its count. -/
theorem not_laneStoreScratch : ¬ Obligations.LaneStoreScratch := by
  unfold Obligations.LaneStoreScratch
  intro h
  obtain ⟨-, -, -, -, remote, -⟩ := h noTeam 0 hdr far 0 1 none 0 (5 * 2 ^ 48) 0 State.noLeaf rfl
  obtain ⟨s', e, run, sent, -⟩ := remote 5 noTeam_one (by decide) noTeam_far
  obtain ⟨-, -, -, -, -, -, -, -, -, count, -⟩ := sent
  have grows : outst (exec (.st hdr far 0 1 none) noTeam) = (noTeam.tmOf 0).outst + 1 := run ▸ count
  exact absurd grows (by decide)

/-- Refutes O24: in a state whose thread table lists slot 0 twice, at two trap levels, LDL past the stack enters the
handler in both records, and writes TRAP_STAT of each by that record's own level, not by the first one's. -/
theorem not_laneMemoryTraps : ¬ Obligations.LaneMemoryTraps := by
  unfold Obligations.LaneMemoryTraps
  intro h
  have free : Free twice 0 := ⟨by decide, rfl, rfl⟩
  obtain ⟨-, -, -, stack, -⟩ := h twice 0 hdr past ⟨.plain, .s32, .thr, .none⟩ ⟨false, false, .thr, .none, none⟩ .add .eq
    0 0 none 0 0 0 0 .dflt ⟨.plain, .thr, .none⟩ rfl free
  have trap := (stack 16 0x10 (by decide) (.inl (by decide))).1 twice_one
  have stat := congrArg (statAt 1) trap
  exact absurd stat (by decide)
end

namespace Sys2Proof.Proofs.CleanLine
open Sys2Proof Sys2Proof.Machine

/-! ## A bad granule under a clean line (R45, R54, R55)

`State.ueAt` passes over an uncorrectable error of a granule that its home slice holds. Two events reach the base die
all the same: a MEMSIDE access, whose line leaves the slice first (R45), and the scrubber, which reads the granule itself
(R55). -/

/-- Line 0 as its home slice holds it: every sector valid, none dirty, no full/empty bits. -/
def line : L2Line :=
  { pa := 0, valid := [true, true, true, true], dirty := [], bv := false, fe := [], feDirty := false, tag := 0,
    weight := 0, touched := true, stale := false, ov := false, age := 0 }
/-- Granule 0 has an uncorrectable error at its base die, and its home slice holds it clean. -/
def errorBelow : State := { State.reset with ue := [0], l2 := { State.reset.l2 with lines := [line] } }

/-- A thread's plain store of the byte 1 at address 0, through a MEMSIDE page. -/
def store : Req :=
  { id := 1, who := .thread 0, core := 0, ctx := 0, team := 0, epoch := 0, op := .store [1], loc := .mem 0, size := 1,
    ord := .plain, scope := .thr, hint := .none, cp := 3, pl := 0, feb := false, va := 0, form := .none, fill := [],
    parts := [], after := [], co := 1, bytes := 0, merged := false, nrel := false, xw := false, done := false,
    since := 0 }
/-- That store waits at its home. -/
def storing : State := { errorBelow with reqs := [store] }

/-- The byte at address 0. -/
def firstByte : Out → Option Byte
  | .next s => some (s.rdB 0)
  | _ => none
/-- The queues of bad frames of the base dies (R57). -/
def badFrames : Out → List (List (Nat × Bool))
  | .next s => s.flt.faq
  | _ => []

/-- The store may be performed, and the error is not among those that it meets while its line is in the slice. -/
theorem storing_ready : storing.mates store = [store] ∧ storing.reqReady store = true ∧ storing.reqUes store = [] := by
  decide

/-- Its line leaves, the merge at the base die meets the error, and the store fails: the byte is not written. -/
theorem storing_fails : firstByte (exec (.homeAccess 1 .ok) storing) = some 0 := by decide

/-- The scrubber reads the bad granule at the base die and queues its frame. -/
theorem scrub_queues : badFrames (exec (.scrubRead 0 .ok) errorBelow) = [[(0, true)], [], [], [], [], [], [], []] := by
  decide

end Sys2Proof.Proofs.CleanLine

section
open Sys2Proof Sys2Proof.Machine Sys2Proof.Proofs.CleanLine

/-- Refutes O44: a store through a MEMSIDE page meets no error while its slice holds the granule, but its line leaves
the slice first, and the store then merges into a bad granule at the base die: it fails and writes nothing. -/
theorem not_memoryResults : ¬ Obligations.MemoryResults := by
  unfold Obligations.MemoryResults
  intro h
  obtain ⟨alone, ready, clear⟩ := storing_ready
  obtain ⟨home, -⟩ := h storing 1 0 0 store ⟨0, .reg 0 0, .none, 0, false, 0⟩ LaneReg.zero 0
  obtain ⟨-, performs⟩ := home rfl alone rfl rfl rfl (by decide) rfl
  obtain ⟨stores, -⟩ := performs ready clear (by decide)
  obtain ⟨s', f, run, bytes, -⟩ := stores [1] rfl rfl rfl
  have written : firstByte (exec (.homeAccess 1 .ok) storing) = some 1 := by
    rw [run]
    exact congrArg some (bytes 0 (by decide))
  exact absurd (storing_fails.symm.trans written) (by decide)

/-- Refutes O46: the scrubber reads a granule with an uncorrectable error at its base die although the home slice holds
it, and queues its frame, where the statement lets it go on to the next granule and change nothing else. -/
theorem not_cacheAndWakeEvents : ¬ Obligations.CacheAndWakeEvents := by
  unfold Obligations.CacheAndWakeEvents
  intro h
  obtain ⟨-, -, -, scrub, -⟩ := h errorBelow 0 0 0 0 0 0 ⟨.waita, .mem 0, 0, []⟩
  have run := scrub Scrub.reset (by decide) rfl rfl (by decide) (by decide) (by decide) (by decide)
  have unqueued : badFrames (exec (.scrubRead 0 .ok) errorBelow) = errorBelow.flt.faq := congrArg badFrames run
  exact absurd (scrub_queues.symm.trans unqueued) (by decide)
end

section
namespace Sys2Proof.Machine.State
open Sys2Proof.Says

/-! ## FENCE (R117, R124, R136, R308) -/

theorem fenceKind_acq_eq (k : FenceKind) : FenceKind.acq k = (k != .rel) := by cases k <;> rfl
theorem fenceKind_rel_eq (k : FenceKind) : FenceKind.rel k = (k != .acq) := by cases k <;> rfl

/-- The thread after a fence beyond its own scope: one that releases records whether it stands before the thread's
writes as a narrow one (R118). -/
def fenced (k : FenceKind) (sc : Scope) (x : Thread) : Thread :=
  { x with relF := if k = .acq then x.relF else !sc.wide }

theorem fenced_eq (k : FenceKind) (sc : Scope) (x : Thread) :
    fenced k sc x = if k = .acq then x else { x with relF := !sc.wide } := by
  unfold fenced; split <;> rfl

theorem updThread_fenced (s : State) (t : Nat) (k : FenceKind) (sc : Scope) :
    (if FenceKind.rel k then s.updThread t fun x => { x with relF := !sc.wide } else s) = s.updThread t (fenced k sc) := by
  rw [fenceKind_rel_eq, funext (fenced_eq k sc)]
  by_cases hk : k = .acq <;> simp [hk, updThread]

/-- The thread of a fence that rests on what it waits for; its pc is past the fence already. -/
def fencing (s : State) (t : Nat) (m : Bool) (k : FenceKind) (sc : Scope) (x : Thread) : Thread :=
  { fenced k sc x with
    pc := x.pc + BitVec.ofNat 64 s.cur.len, retry := 0, re := .first, hbuf := [],
    st := .fence (s.fenceAfter t k sc) (FenceKind.acq k) (FenceKind.rel k) sc m false }

/-- Beyond its thread's own scope, a fence puts the thread to rest and looks whether the rest is over; where the core has
no open entry it sends none. -/
theorem fenceBody_of_noOpen {s : State} {t : Nat} {m : Bool} {k : FenceKind} {sc : Scope} (hsc : sc ≠ .thr)
    (ho : NoOpen s t) : fenceBody m k sc s t = (s.updThread t (fencing s t m k sc)).settleFence t := by
  have closed : (if FenceKind.rel k && sc.far then s.closeCore (coreOf t) else s) = s := by
    rw [closeCore_of_none s _ ho, ite_self]
  simp only [fenceBody, hsc, if_false, closed, updThread_fenced]
  rw [advance_updThread s t (fenced k sc) fun _ => rfl]
  exact congrArg (settleFence · t) (updThread_updThread s t _ _ fun _ => rfl)

/-! ### The end of a fence's rest -/

/-- While an access that the fence waits for is on its way, the thread rests. -/
theorem settleFence_of_pending {s : State} {t i : Nat} {rs : List Nat} {acq rel : Bool} {sc : Scope} {m prom : Bool}
    (hst : (s.th t).st = .fence rs acq rel sc m prom) (hi : i ∈ rs) (hp : s.pending i = true) : s.settleFence t = s := by
  have waits : rs.any s.pending = true := List.any_eq_true.2 ⟨i, hi, hp⟩
  simp [settleFence, hst, waits]

/-- The L1 of the thread's core, emptied by a fence that acquires beyond the core (R124). -/
def acquired (s : State) (t : Nat) (k : FenceKind) (sc : Scope) : State :=
  if FenceKind.acq k && sc.wide then s.l1Clear (coreOf t) else s

/-- A fence with no access, no count of its team and no promotion to wait for ends. -/
theorem settleFence_of_done {s : State} {t : Nat} {k : FenceKind} {sc : Scope} {m : Bool}
    (hst : (s.th t).st = .fence [] (FenceKind.acq k) (FenceKind.rel k) sc m false)
    (hout : k ≠ .acq → sc.far = true → (s.tmOf t).outst = 0)
    (hprom : k ≠ .rel → 4 ≤ sc.rank → s.promPending (coreOf t) = []) :
    s.settleFence t = ((s.acquired t k sc).setSt t .run).restM m t := by
  have counted : (FenceKind.rel k && sc.far && (s.tmOf t).outst != 0) = false := by
    simpa [fenceKind_rel_eq, Bool.and_eq_false_imp] using hout
  have promoted : (FenceKind.acq k && decide (4 ≤ sc.rank) && !false && s.promPending (coreOf t) != []) = false := by
    simpa [fenceKind_acq_eq, Bool.and_eq_false_imp] using hprom
  simp only [settleFence, hst, List.any_nil, Bool.false_or, counted, promoted, Bool.false_eq_true, if_false]
  rfl

/-! ### What emptying the L1 changes and leaves -/

section
variable (s : State) (t : Nat) (k : FenceKind) (sc : Scope)

@[simp] theorem acquired_threads : (s.acquired t k sc).threads = s.threads := by unfold acquired; split <;> rfl
@[simp] theorem acquired_mem : (s.acquired t k sc).mem = s.mem := by unfold acquired; split <;> rfl
@[simp] theorem acquired_reqs : (s.acquired t k sc).reqs = s.reqs := by unfold acquired; split <;> rfl
@[simp] theorem th_acquired (u : Nat) : (s.acquired t k sc).th u = s.th u := by unfold acquired; split <;> rfl
@[simp] theorem threadPend_acquired (u : Nat) : (s.acquired t k sc).threadPend u = s.threadPend u := by
  unfold acquired; split <;> rfl

theorem acquired_cores : (s.acquired t k sc).cores = if k ≠ .rel ∧ sc.wide = true then s.cores.map fun c =>
    if c.idx = coreOf t then { c with l1 := [] } else c else s.cores := by
  unfold acquired
  rw [fenceKind_acq_eq]
  by_cases beyond : k ≠ .rel ∧ sc.wide = true
  · simp [beyond, l1Clear, updL1]
  · rw [if_neg beyond, if_neg (by simpa using beyond)]

theorem acquired_updThread (f : Thread → Thread) :
    (s.updThread t f).acquired t k sc = (s.acquired t k sc).updThread t f := by
  unfold acquired; split <;> rfl
end

/-! ### The rest of M = 1 (R213) -/

/-- A thread that isn't able to issue doesn't begin the proof bit's rest. -/
theorem restM_of_ne_run {s : State} {m : Bool} {t : Nat} (h : (s.th t).st ≠ .run) : s.restM m t = s := by
  simp [restM, h]

theorem restM_restM (s : State) (m : Bool) (t : Nat) : (s.restM m t).restM m t = s.restM m t := by
  by_cases rests : (m && (s.th t).st == .run && s.threadPend t) = true
  · have live : (s.th t).st ≠ .ended := by
      intro ended
      simp [ended] at rests
    have proof : (s.restM m t).th t = { s.th t with st := .proof } := by
      rw [restM, if_pos rests]
      exact th_updThread s t _ (fun _ => rfl) live
    exact restM_of_ne_run (by simp [proof])
  · have goes : s.restM m t = s := if_neg rests
    rw [goes, goes]

/-! ### One thread's fence -/

theorem exec_fence (h : Hdr) (k : FenceKind) (sc : Scope) (s : State) :
    exec (.fence h k sc) s = .next (laneOp h ⟨[], []⟩ (fenceBody h.m k sc) s) := rfl

section
variable {s : State} {t : Nat} {h : Hdr} {u : Uses} (h1 : One s t h u)
include h1

theorem live_of_one : (s.th t).st ≠ .ended := by
  obtain ⟨hc, -, ⟨-, hr⟩, -⟩ := h1
  exact (hr t (by simp [hc])).1

/-- The statements' frame of a bundle of one thread, as one update of that thread. -/
theorem goes_of_one (f : Nat → Thread → Thread) (hpc : ∀ x, (f t x).pc = x.pc) :
    goes s h f = s.updThread t fun x => wentOn s h.m (s.threadPend t) (f t x) := by
  obtain ⟨hc, -, -, hg, -⟩ := h1
  simp only [goes, goesTo, updThread, hc, List.mem_singleton]
  congr 1
  refine List.map_congr_left fun x _ => ?_
  by_cases hx : x.slot = t
  · simp [hx, hg, wentOn, hpc]
  · simp [hx]

/-- At thread scope a fence only goes on. -/
theorem laneOp_fence_thr (k : FenceKind) : laneOp h u (fenceBody h.m k .thr) s = goes s h fun _ => same := by
  rw [laneOp_of_one h1, goes_of_one h1 _ fun _ => rfl]
  exact advance_restM s h.m t (live_of_one h1)

theorem laneOp_fence {k : FenceKind} {sc : Scope} (hsc : sc ≠ .thr) (ho : NoOpen s t) :
    laneOp h u (fenceBody h.m k sc) s = ((s.updThread t (fencing s t h.m k sc)).settleFence t).restM h.m t := by
  rw [laneOp_of_one h1, fenceBody_of_noOpen hsc ho]

theorem th_fencing (m : Bool) (k : FenceKind) (sc : Scope) :
    (s.updThread t (fencing s t m k sc)).th t = fencing s t m k sc (s.th t) :=
  th_updThread s t _ (fun _ => rfl) (live_of_one h1)

/-- A fence that waits for nothing goes on at once. -/
theorem laneOp_fence_of_done {k : FenceKind} {sc : Scope} (hsc : sc ≠ .thr) (ho : NoOpen s t)
    (hafter : s.fenceAfter t k sc = []) (hout : k ≠ .acq → sc.far = true → (s.tmOf t).outst = 0)
    (hprom : k ≠ .rel → 4 ≤ sc.rank → s.promPending (coreOf t) = []) :
    laneOp h u (fenceBody h.m k sc) s =
      (s.acquired t k sc).updThread t fun x => wentOn s h.m (s.threadPend t) (fenced k sc x) := by
  have rests : ((s.updThread t (fencing s t h.m k sc)).th t).st =
      .fence [] (FenceKind.acq k) (FenceKind.rel k) sc h.m false := by
    rw [th_fencing h1, fencing, hafter]
  have live : ((s.acquired t k sc).th t).st ≠ .ended := by
    rw [th_acquired]
    exact live_of_one h1
  calc laneOp h u (fenceBody h.m k sc) s
      = (((s.updThread t (fencing s t h.m k sc)).acquired t k sc).setSt t .run).restM h.m t := by
        rw [laneOp_fence h1 hsc ho, settleFence_of_done rests hout hprom, restM_restM]
    _ = ((s.acquired t k sc).updThread t fun x => { fencing s t h.m k sc x with st := .run }).restM h.m t := by
        rw [acquired_updThread]
        exact congrArg (restM · h.m t) (updThread_updThread _ t _ _ fun _ => rfl)
    _ = (s.acquired t k sc).updThread t fun x => wentOn s h.m (s.threadPend t) (fenced k sc x) := by
        rw [← threadPend_acquired s t k sc t]
        exact restM_updThread _ h.m t _ (fun _ => rfl) live fun _ => rfl

/-- A fence with an access to wait for puts its thread to rest, and nothing else changes. -/
theorem laneOp_fence_of_pending {k : FenceKind} {sc : Scope} {i : Nat} (hsc : sc ≠ .thr) (ho : NoOpen s t)
    (hi : i ∈ s.fenceAfter t k sc) (hp : s.pending i = true) :
    laneOp h u (fenceBody h.m k sc) s = s.updThread t (fencing s t h.m k sc) := by
  have th := th_fencing h1 h.m k sc
  rw [laneOp_fence h1 hsc ho, settleFence_of_pending (congrArg Thread.st th) hi hp]
  exact restM_of_ne_run (by simp [th, fencing])
end

end Sys2Proof.Machine.State

open Sys2Proof Sys2Proof.Machine Sys2Proof.Machine.State Sys2Proof.Says

/-- Settles O23: at thread scope the fence only goes on; at a wider one it rests, and the look at its rest ends it at
once where it waits for nothing and leaves it where an access is on its way. -/
theorem laneFence : Obligations.LaneFence := by
  unfold Obligations.LaneFence
  intro s t h k sc h1
  refine ⟨congrArg _ (laneOp_fence_thr h1 k), fun hsc ho hafter hout hprom => ?done, fun i hsc ho hi hp => ?pending⟩
  case done =>
    have run := laneOp_fence_of_done h1 hsc ho hafter hout hprom
    refine ⟨_, (exec_fence h k sc s).trans (congrArg _ run), ?_, acquired_cores s t k sc, acquired_mem s t k sc,
      acquired_reqs s t k sc⟩
    rw [← funext fun _ => funext (fenced_eq k sc), goes_of_one h1 _ fun _ => rfl, updThread_threads, acquired_threads]
    rfl
  case pending =>
    have run := laneOp_fence_of_pending h1 hsc ho hi hp
    refine ⟨_, s.fenceAfter t k sc, (exec_fence h k sc s).trans (congrArg _ run), hi, ?_, ?_⟩
    · rw [th_fencing h1, fencing, fenceKind_acq_eq, fenceKind_rel_eq]
    · rw [th_fencing h1, fencing]
end
